-- ==== Sys2Proof/Word.lean ====
section
/-! DEFINITION. The word types of the model (spec/00_scope.md, Table SC-7) and the sparse map type that every
large table of the state uses. -/

namespace Sys2Proof

/-- One byte; byte 0 of a multi-byte field holds bits [7:0] (Table SC-7). -/
abbrev Byte := BitVec 8

/-- One 32-bit word: a command word, a register, a token word. -/
abbrev Word := BitVec 32

/-- A table held sparsely: index and value pairs in rising index order, with no entry equal to what an
unlisted index reads as. The operations stand in Machine/Sparse.lean. -/
abbrev Map (α : Type) := List (Nat × α)

end Sys2Proof
end

