-- ==== Sys2Proof/Syntax.lean ====
section
/-! DEFINITION. The commands: one constructor for each row of spec/opcode_table.json, and the operand types
they carry. A command is an event at one of the block's ports, a write or read of a register, a message or
flit that reaches the die, or a step of one of the block's own engines. -/

namespace Sys2Proof

/-- A combining point of a collective on this die (R151, R153, R160, R161, R137). -/
inductive Point where
  /-- an on-die node, by its node index (R150); the slath's top combine is the node of the highest index -/
  | node (idx : Nat)
  /-- the stage combine of an active level 1 to 4 for which this die is the stage point (R160) -/
  | stage (level : Nat)
  /-- the token combine of owner core port `cp` for its token `t` (R137) -/
  | token (cp : Nat) (t : Nat)
  deriving DecidableEq, Repr

/-- What the storage code of a tile reports while the step reads its buffers (Table AR-4, R430, Table ER-2). -/
inductive StorageEvent where
  | clean
  /-- one symbol corrected: counted in GST_CORR -/
  | corrected
  /-- an uncorrectable symbol in a data buffer, with its address in the tile -/
  | uncorrData (addr : Word)
  /-- an uncorrectable symbol in image-filled storage: the section TYPE and the byte offset in the image -/
  | uncorrConfig (section_ : BitVec 8) (offset : Word)
  deriving DecidableEq, Repr

/-- Source of a hoop signal (R280, R282). -/
inductive SigSrc where
  | core (cp : Fin 1024)
  | feeder (ch : Fin 64)
  deriving DecidableEq, Repr

/-- One signal under way in the hoop network (R280). -/
structure HoopSig where
  owner : Fin 1024
  hoop  : Fin 48
  src   : SigSrc
  inc   : BitVec 12
  deriving DecidableEq, Repr

/-- A NaN trap candidate: the fields of Table FM-10 that form its key (R80), its origin, and the route position
J that breaks ties in a routed operation (R139). -/
structure Cand where
  wale    : BitVec 32
  lane    : BitVec 5
  srcDie  : BitVec 16
  site    : BitVec 2
  unit    : BitVec 10
  created : Bool
  j       : Nat
  deriving DecidableEq, Repr

/-- Up- or down-level figures of a reserve report (Table SK-16, STAGE e). -/
structure StageRep where
  hops   : Nat
  hopdly : Nat
  rtt    : Nat
  smax   : Nat
  qopen  : Nat
  deriving DecidableEq, Repr

/-- The body of RESERVE_REPORT (Table SK-16). -/
structure Report where
  full   : Bool
  down   : Bool
  tau    : Nat
  md     : Nat
  ndie   : Nat
  nlmax  : Nat
  bmin   : Nat
  retry  : Nat
  stages : List StageRep
  deriving DecidableEq, Repr

/-- The bodies of Table SK-15. Fields that travel with complements carry them here too (R17, R193). -/
inductive Body where
  | agree (niss : Word) (disagree corrupt seqdist : Bool) (aw awN : List Word)
  | refuse
  | reserve (aw awN : List Word)
  | report (r : Report)
  | admission (tAdm d : BitVec 64) (b : Nat)
  | release
  | fault (code src : BitVec 8) (unit : BitVec 16) (arg : Word) (trap : Option Cand)
  | token (ws wsN : List Word)
  | close (kind : BitVec 8) (nmem : Word) (fprint digest : BitVec 64)
      (contrib silt osilt sent received : Word) (trap : Option Cand)
  | allSent
  | fprint (x : BitVec 64) (nmem : Word)
  | wcred (level : Nat) (port : Nat) (count : Nat)
  | xcred (srcCp : Nat) (count : Nat)
  | susp (op : BitVec 8) (addr : BitVec 44)
  | suspDone (status : BitVec 8) (ndie : Word) (bytes : Word)
  | lost
  deriving DecidableEq, Repr

/-- One VC0 control message: GROUP, SEQ, ORIGIN and ROUND (Table SK-14), the LEVEL and SRCF of the flit that carries
it (R182: those of the tree edge that it travels on, and 0 for a single destination; log entry 76), and the body of its
MTYPE. -/
structure Msg where
  group  : BitVec 12
  seq    : Word
  origin : BitVec 16
  round  : BitVec 16
  level  : Nat
  srcf   : Nat
  body   : Body
  deriving DecidableEq, Repr

/-- The commands of the block. ARM, WAIT and DISARM carry the command word, and with its complement what the storage of the hoop
reports when the command reads it (R283). -/
inductive Instr where
  | fusedIssue (cp : Fin 1024) (words comps : List Word)
  | arm (cp : Fin 1024) (w : Word) (r : Word × StorageEvent)
  | signal (cp : Fin 1024) (w c : Word)
  | wait (cp : Fin 1024) (w : Word) (r : Word × StorageEvent)
  | disarm (cp : Fin 1024) (w : Word) (r : Word × StorageEvent)
  | hoopSignalArrival (sig : HoopSig) (ev : StorageEvent)
  | hoopTimeout (cp : Fin 1024)
  | ctxSwitch (cp : Fin 1024)
  | sendWale (cp : Fin 1024) (g : BitVec 12) (data : List Byte)
  | combineWale (g : BitVec 12) (k : Word) (pt : Point) (wale : Nat) (ev : StorageEvent)
  | rxWaleTaken (cp : Fin 1024)
  | statusTaken (cp : Fin 1024)
  | terminalTokenTaken (cp : Fin 1024)
  | agree (m : Msg)
  | refuse (m : Msg)
  | gatherLimitExpiry (g : BitVec 12) (k : Word)
  | reserve (m : Msg)
  | reserveReport (m : Msg)
  | admission (m : Msg)
  | releaseReservation (m : Msg)
  | reserveRetry (g : BitVec 12) (k : Word)
  | queuedLong (g : BitVec 12) (k : Word)
  | launchFire (g : BitVec 12) (k : Word)
  | boundExpiry (g : BitVec 12) (k : Word)
  | fault (m : Msg)
  | close (m : Msg)
  | allSent (m : Msg)
  | token (m : Msg)
  | fprint (m : Msg)
  | wcred (m : Msg)
  | xcred (m : Msg)
  | lost (m : Msg)
  | entryAbort (entry : Fin 512) (v : Word)
  | colKill (v : Word)
  | suspend (v : Word)
  | resume (v : Word)
  | susp (m : Msg)
  | suspendDrainDone (g : BitVec 12)
  | suspendRecordWritten (g : BitVec 12)
  | resumeReloadDone (g : BitVec 12)
  | suspDone (m : Msg)
  | dataFlitReceive (n : Fin 16) (wire : List Byte) (el : BitVec 10)
  | linkFlitReceive (n : Fin 16) (wire : List Byte)
  | ackTimeout (n : Fin 16)
  | nakRepeat (n : Fin 16)
  | linkFlitDue (n : Fin 16)
  | replayShadowEnd (n : Fin 16)
  | trainFlitReceive (n : Fin 16) (wire : List Byte) (el : BitVec 10)
  | idFlitDue (n : Fin 16)
  | probeRetry (n : Fin 16)
  | trainingWord (n : Fin 16) (lane : Fin 8) (w : BitVec 256)
  | trainingTimeout (n : Fin 16)
  | phyResetDone (n : Fin 16)
  | skPhyRdyRise (p : Fin 8) (lanes : BitVec 8)
  | skPhyRdyFall (p : Fin 8) (lanes : BitVec 8)
  | skLaneFlt (p : Fin 8) (lanes : BitVec 8)
  | retrain (n : Fin 16)
  | clrcnt (n : Fin 16)
  | syncDue
  | sync (n : Fin 16) (sseq : BitVec 16) (hops : BitVec 8) (master : BitVec 16) (el : BitVec 10)
  | follow (n : Fin 16) (sseq : BitVec 16) (hops : BitVec 8) (master : BitVec 16)
      (tDep : BitVec 64) (tDepF : BitVec 16)
  | timeHoldover
  | refclkLost
  | refclkRestored
  | calibration
  | monitorSample (mon : Fin 1040) (setB : Bool) (slack : Int) (tmax : Nat)
  | tilthWindowEnd (mon : Fin 1040)
  | tapChangeApply (mon : Fin 1040) (setB : Bool)
  | snap (v : Word)
  | snapshotCopy
  | historyLoad (v : Word)
  | tilForce (v : Word)
  | governorInterval (counts : List Nat) (demand : Nat)
  | throttleChange (v : BitVec 4)
  | pwrCfgWrite (v : Word)
  | fdEn (c : Fin 64) (v : Word)
  | fdDisable (c : Fin 64) (v : Word)
  | fdPriWrite (c : Fin 64) (v : Word)
  | feederBeatRequest (rdy : BitVec 4)
  | memoryResponse (m : Fin 4) (tag : BitVec 8) (wr err : Bool) (data : List Byte)
  | counterTrigger (c : Fin 64)
  | evtIn (line : Fin 16) (close : Bool)
  | evtOutPulseEnd (line : Fin 17)
  | fdEvtClr (line : Fin 16) (v : Word)
  | updateBeatTaken
  | resetAssert
  | resetRelease
  | fuseAck (rdata : BitVec 16) (blank err : Bool)
  | fuseTimeout
  | wlProg (v : Word)
  | gcPeriodWrite (v : Word)
  | featAcceptWrite (hi : Bool) (v : Word)
  | load (v : Word)
  | imageCheckDone
  | imageApplyDone
  | signoff (v : Word)
  | gstLogRdWrite (v : Word)
  | setCount (v : Word)
  | setTarget (v : Word)
  | debugRelease (v : Word)
  | dbgInject (v : Word)
  | dbgEnChange (level : Bool)
  | latchedGroupRead (addr : BitVec 18)
  | registerWrite (addr : BitVec 18) (v : Word)
  | wsBypass
  | wsExtest
  | wsIntest
  | szMbist
  | szDlysweep
  | szIdcode
  | szCtrl (r : BitVec 51) (busy : Bool)
  | idleFlitReceive (n : Fin 16) (wire : List Byte)
  | hoopEntryRead (idx : Fin 49152) (hi : Bool) (ev : StorageEvent)
  | vddSzRemoval
  deriving DecidableEq, Repr

end Sys2Proof
end

