-- ==== Sys2Proof/Machine/Bits.lean ====
section
/-! DEFINITION. Bit fields, byte order, and the check codes: CRC-32C (R187), CRC-64 (R351), the symbol code
(R186) and the residue (R33). -/

namespace Sys2Proof.Machine

/-! ### Fields and bytes -/

/-- Bits [hi:lo] of a natural number. -/
def fld (v hi lo : Nat) : Nat := (v >>> lo) % 2 ^ (hi + 1 - lo)

/-- Bits [hi:lo] of a word, as a natural number. -/
def wf_ (w : Word) (hi lo : Nat) : Nat := fld w.toNat hi lo

/-- Bit `i` of a word. -/
def wbit (w : Word) (i : Nat) : Bool := w.toNat.testBit i

/-- `v` placed at bit `lo`. -/
def pl (v lo : Nat) : Nat := v <<< lo

/-- A Bool as one bit. -/
def b1 (b : Bool) : Nat := if b then 1 else 0

/-- `n` bytes of `v`, least significant first (Table SC-7). -/
def toLe : Nat → Nat → List Byte
  | 0, _ => []
  | n + 1, v => BitVec.ofNat 8 v :: toLe n (v >>> 8)

/-- The number whose little-endian bytes are given. -/
def ofLe : List Byte → Nat
  | [] => 0
  | b :: bs => b.toNat + 256 * ofLe bs

/-- Byte `i` of a list; a byte past the end reads 0. -/
def byteAt (bs : List Byte) (i : Nat) : Byte := bs.getD i 0#8

/-- Bytes [lo+n−1:lo] as a list. -/
def slice (bs : List Byte) (lo n : Nat) : List Byte := (bs.drop lo).take n

/-- Little-endian number in `n` bytes from `lo`. -/
def leAt (bs : List Byte) (lo n : Nat) : Nat := ofLe (slice bs lo n)

/-- The 32-bit little-endian word at byte `lo`. -/
def wordAt (bs : List Byte) (lo : Nat) : Word := BitVec.ofNat 32 (leAt bs lo 4)

/-- The bytes of a list of words. -/
def wordsBytes : List Word → List Byte
  | [] => []
  | w :: ws => toLe 4 w.toNat ++ wordsBytes ws

/-- `n` consecutive words from byte `lo`. -/
def wordsAt (bs : List Byte) : Nat → Nat → List Word
  | _, 0 => []
  | lo, n + 1 => wordAt bs lo :: wordsAt bs (lo + 4) n

/-- A list cut or padded with zero bytes to `n`. -/
def padTo (n : Nat) (bs : List Byte) : List Byte := bs.take n ++ List.replicate (n - bs.length) 0#8

/-- `bs` with the bytes `new` written from index `lo`. -/
def patch (bs : List Byte) (lo : Nat) (new : List Byte) : List Byte :=
  bs.take lo ++ new ++ bs.drop (lo + new.length)

/-- Word `i` of a list; a word past the end reads 0. -/
def wd (ws : List Word) (i : Nat) : Word := ws.getD i 0#32

/-- The bitwise complement of every word. -/
def compl (ws : List Word) : List Word := ws.map (fun w => ~~~w)

/-- Serial comparison on width `w` (R11): `a` precedes `b`. -/
def precedes (w a b : Nat) : Bool :=
  let d := (b + 2 ^ w - a % 2 ^ w) % 2 ^ w
  decide (1 ≤ d) && decide (d ≤ 2 ^ (w - 1) - 1)

/-- A 32-bit saturating sum. -/
def sat32 (a b : Nat) : Nat := min (a + b) 0xFFFFFFFF

/-- One more on a saturating 32-bit counter. -/
def satInc (w : Word) : Word := if w = 0xFFFFFFFF#32 then w else w + 1#32

/-- `n` more on a saturating 32-bit counter. -/
def satAdd (w : Word) (n : Nat) : Word := BitVec.ofNat 32 (sat32 w.toNat n)

/-- ⌈a / b⌉; 0 when `b` is 0. -/
def cdiv (a b : Nat) : Nat := (a + b - 1) / b

/-- floor(log2 n) for n ≥ 1. -/
def flog2 (n : Nat) : Nat := Nat.log2 n

/-! ### CRC-32C and CRC-64 -/

/-- One bit of the reflected CRC-32C of polynomial 0x1EDC_6F41 (R187). -/
def crc32Bit (c : BitVec 32) : BitVec 32 :=
  if c.getLsbD 0 then (c >>> 1) ^^^ 0x82F63B78#32 else c >>> 1

/-- One byte of the running CRC-32C. -/
def crc32Byte (c : BitVec 32) (b : Byte) : BitVec 32 :=
  crc32Bit (crc32Bit (crc32Bit (crc32Bit (crc32Bit (crc32Bit (crc32Bit (crc32Bit (c ^^^ b.setWidth 32))))))))

/-- The initial state of a running CRC-32C. -/
def crc32Init : BitVec 32 := 0xFFFFFFFF#32

/-- A running CRC-32C over further bytes. -/
def crc32Run (c : BitVec 32) (bs : List Byte) : BitVec 32 := bs.foldl crc32Byte c

/-- CRC-32C of a byte stream, finalised. -/
def crc32c (bs : List Byte) : Word := crc32Run crc32Init bs ^^^ 0xFFFFFFFF#32

/-- One bit of CRC-64/ECMA-182, most significant bit first (R351). -/
def crc64Bit (c : BitVec 64) : BitVec 64 :=
  if c.getLsbD 63 then (c <<< 1) ^^^ 0x42F0E1EBA9EA3693#64 else c <<< 1

/-- One byte of the running CRC-64. -/
def crc64Byte (c : BitVec 64) (b : Byte) : BitVec 64 :=
  crc64Bit (crc64Bit (crc64Bit (crc64Bit (crc64Bit (crc64Bit (crc64Bit (crc64Bit (c ^^^ (b.setWidth 64 <<< 56)))))))))

/-- A running CRC-64 over further bytes; the initial state and the final XOR are 0. -/
def crc64Run (c : BitVec 64) (bs : List Byte) : BitVec 64 := bs.foldl crc64Byte c

/-- CRC-64 of a byte stream. -/
def crc64 (bs : List Byte) : BitVec 64 := crc64Run 0#64 bs

/-! ### The symbol code over GF(2^8), field polynomial 0x11D (R186) -/

/-- Multiplication by α = 0x02. -/
def gfX (a : Byte) : Byte := if a.getLsbD 7 then (a <<< 1) ^^^ 0x1D#8 else a <<< 1

/-- The syndromes S0 = v(1) and S1 = v(α); symbol s is the coefficient of x^(65−s). -/
def syndromes (cw : List Byte) : Byte × Byte :=
  cw.foldl (fun (s : Byte × Byte) b => (s.1 ^^^ b, gfX s.2 ^^^ b)) (0#8, 0#8)

/-- The power j ≤ 65 with S1 = S0 · α^j, when there is one. -/
def gfPow (s1 : Byte) : Nat → Nat → Byte → Option Nat
  | 0, _, _ => none
  | n + 1, j, x => if x = s1 then some j else gfPow s1 n (j + 1) (gfX x)

/-- Division by α + 1: the `y` with y·(α + 1) = a, searched over all bytes. -/
def gfDivA1 (a : Byte) : Nat → Byte → Byte
  | 0, y => y
  | n + 1, y => if gfX y ^^^ y = a then y else gfDivA1 a n (y + 1#8)

/-- The two check symbols that make the codeword divisible by (x + 1)(x + α). -/
def checkSymbols (data : List Byte) : List Byte :=
  let s := syndromes (data ++ [0#8, 0#8])
  let c64 := gfDivA1 (s.1 ^^^ s.2) 255 0#8
  [c64, s.1 ^^^ c64]

/-- What the receiver makes of one 66-symbol codeword (R186). -/
inductive Decoded where
  | ok (data : List Byte)
  | corrected (data : List Byte)
  | uncorrectable (data : List Byte)
  deriving DecidableEq, Repr

/-- Decode one codeword (R186). -/
def decodeCodeword (cw : List Byte) : Decoded :=
  let s := syndromes cw
  if s.1 = 0#8 && s.2 = 0#8 then .ok (cw.take 64)
  else if s.1 ≠ 0#8 && s.2 ≠ 0#8 then
    match gfPow s.2 66 0 s.1 with
    | some j => .corrected ((cw.set (65 - j) (byteAt cw (65 - j) ^^^ s.1)).take 64)
    | none => .uncorrectable (cw.take 64)
  else .uncorrectable (cw.take 64)

/-! ### Residues mod 255 -/

/-- The mathematical residue of an integer (R33). -/
def resid (x : Int) : Nat := (x % 255).toNat

/-- Rotation right by j in 8 bits: multiplication by 2^(−j) mod 255 on canonical residues. -/
def rotr8 (v j : Nat) : Nat := ((v >>> j) ||| (v <<< (8 - j))) % 256

/-- Rotation left by j in 8 bits. -/
def rotl8 (v j : Nat) : Nat := ((v <<< j) ||| (v >>> (8 - j))) % 256

end Sys2Proof.Machine
end

