-- ==== Sys2Proof/Machine/Sparse.lean ====
section
/-! DEFINITION. Operations on the sparse map: read with a default, write keeping the canonical form. -/

namespace Sys2Proof.Machine

variable {α : Type} [DecidableEq α]

/-- The value at index `i`; an unlisted index reads as the default `d`. -/
def mget (d : α) : Map α → Nat → α
  | [], _ => d
  | (k, v) :: m, i => if i = k then v else mget d m i

/-- `m` with value `v` at index `i`; writing the default removes the entry. -/
def mput (d : α) : Map α → Nat → α → Map α
  | [], i, v => if v = d then [] else [(i, v)]
  | (k, w) :: m, i, v =>
    if i < k then (if v = d then (k, w) :: m else (i, v) :: (k, w) :: m)
    else if i = k then (if v = d then m else (i, v) :: m)
    else (k, w) :: mput d m i v

/-- Every listed index is above `lo`, indices rise strictly, and no entry equals the default. -/
def mwfFrom (d : α) : Option Nat → Map α → Bool
  | _, [] => true
  | lo, (k, v) :: m =>
    (match lo with | none => true | some l => decide (l < k)) && decide (v ≠ d) && mwfFrom d (some k) m

/-- The canonical form of a sparse map. -/
def mwf (d : α) (m : Map α) : Bool := mwfFrom d none m

/-- Apply `f` to every listed value, and drop entries that become the default. -/
def mmap (d : α) (f : Nat → α → α) : Map α → Map α
  | [] => []
  | (k, v) :: m => if f k v = d then mmap d f m else (k, f k v) :: mmap d f m

end Sys2Proof.Machine
end

