-- ==== Sys2Proof/Config.lean ====
section
/-! DEFINITION. What one implementation fixes, and the free values: what the spec leaves open and no proof may
lean on. An opaque constant has no value that Lean can see. -/

namespace Sys2Proof.Config

/-- VERSION of release 2.1 (R1, R2). -/
def version : BitVec 32 := 0x00020100#32

/-- Placed core ports, ID_CONFIG.CORE_PORTS (R381, Table SU-4). DESIGN CHOICE (log entry 1): the full block. -/
def placedPorts : Nat := 1024

/-- FEAT_OFFER of release 2.1 (R397). -/
def featOffer : BitVec 64 := 0x7FF#64

/-- A value that the spec calls undefined, one for each count of the model's own free-value counter
(R318: FD_BEATS, FD_CRC and the loop position after DISABLE). Free value, log entry 2. -/
opaque freeValue : Nat → BitVec 64

/-- The per-class charge constant of the governor's estimate (R259), in mA × ns for each handshake of that
class; the spec gives no figure. Free value, log entry 3. -/
opaque chargeConst : Nat → Nat

/-- What a tile reports from its SRAM self-test, 8 bits (SZ_MBIST of Table PI-13), by the count of the test and the tile; the
spec gives no result. Free value, log entry 4. -/
opaque mbistResult : Nat → Nat → BitVec 8

/-- What a tile reports from its delay sweep, 16 bits (SZ_DLYSWEEP of Table PI-13), by the count of the sweep and the tile. Free
value, log entry 4. -/
opaque sweepResult : Nat → Nat → BitVec 16

/-- The level in a boundary cell (Table PI-13, WS_EXTEST and WS_INTEST), by the count of the capture and the cell: what the cell
captured from its signal, or what was shifted into it. Free value, log entry 4. -/
opaque boundaryCell : Nat → Nat → Bool

/-- The bypass bits of the tiles (Table PI-13, WS_BYPASS), by the count of the capture. Free value, log entry 4. -/
opaque bypassBits : Nat → BitVec 160

/-- Member core ports of a group on another die, by IMG_DIGEST, group and DIE_ID. R85 says that the images of one
system agree on every member set; one die's image holds the bitmap of that die alone (Table SU-6).
Free value, log entry 8. -/
opaque memberBitmap : BitVec 64 → Nat → Nat → BitVec 1024

/-- The low DIE_ID bits of the gateway of a unit, by IMG_DIGEST, level and unit. The route tables inside the unit's own
container name it (R163); a die outside that container holds no such table. Free value, log entry 9. -/
opaque gatewayLo : BitVec 64 → Nat → Nat → Nat

/-- The hops from the home die to the root die beyond the first one, by IMG_DIGEST, home die, root die and figure (hops,
STK_HOPDLY, STK_RTT, slot, Q_OPEN): L_HR of Table PR-2 sums them all, and no message carries them to the home die.
Free value, log entry 12. -/
opaque hopsBeyond : BitVec 64 → Nat → Nat → Nat → Nat

/-- The largest flit slot in ps on the paths of one report entry with every stake at the width that its image assigns and
every bond member in service (B_BEST, R231), by IMG_DIGEST, group, root die and entry. The report carries the present slot
alone. Free value, log entry 80. -/
opaque bestSlot : BitVec 64 → Nat → Nat → Nat → Nat

end Sys2Proof.Config
end

