-- ==== Sys2Proof/Machine/State.lean ====
section
/-! DEFINITION. The state of one die's block, as plain data, and the state right after reset. Every register,
queue, buffer, counter and mode that the spec names stands here; INVENTORY.md lists each with its rule. -/

namespace Sys2Proof.Machine

/-- The machine stops with a fault. -/
inductive Fault where
  /-- Never raised by a command of this model: every fault of the spec is an effect on the state (an abort, a
  log entry, a halted channel). Safe. -/
  | unreachable
  deriving DecidableEq, Repr

/-- A command has no meaning in this model. -/
inductive Refusal where
  /-- Raised by an arm of exec for a row that has no meaning yet. Safe: nothing can be proved of it. -/
  | notModelled (mnemonic : String)
  deriving DecidableEq, Repr

/-! ### Loam words and wales (spec/02, spec/03) -/

/-- CLS of a loam word (Table LM-2). -/
inductive Cls where
  | fin | posInf | negInf | nan
  deriving DecidableEq, Repr

/-- A loam word (R29). -/
structure Loam where
  sig : BitVec 96
  exp : BitVec 12
  cls : Cls
  res : BitVec 8
  deriving DecidableEq, Repr

/-- What one lane of a wale holds at a combining-point input. -/
inductive Lane where
  | absent
  | word (w : Loam)
  | raw (p : Word)
  deriving DecidableEq, Repr

/-- One wale inside the tree: 32 lanes, the MAXIDX index of each lane, and the side counts that travel with it
(R190, Table CO-9). -/
structure WaleV where
  lanes   : List Lane
  idx     : List Word
  silt    : Nat
  contrib : Nat
  step    : Option (BitVec 64 × BitVec 64)
  trap    : Option Cand
  deriving DecidableEq, Repr

/-- One wale waiting at an input port of a combining point; `wale = none` is an absent marker for every wale. -/
structure Buf where
  pt   : Point
  port : Nat
  wale : Option Nat
  v    : WaleV
  deriving DecidableEq, Repr

/-! ### Error log and global status (spec/16) -/

/-- One error-log entry (Table RG-4). -/
structure LogEntry where
  v     : Bool
  code  : BitVec 8
  abort : BitVec 8
  group : BitVec 12
  cls   : BitVec 3
  arg0  : Word
  arg1  : Word
  unit  : BitVec 16
  src   : BitVec 4
  time  : BitVec 64
  deriving DecidableEq, Repr

/-- The reset contents of an entry. -/
def LogEntry.zero : LogEntry := ⟨false, 0, 0, 0, 0, 0, 0, 0, 0, 0⟩

/-- Global status registers (Table RG-3). -/
structure Gst where
  attn    : BitVec 11
  attnEn  : BitVec 11
  logWr   : BitVec 7
  logRd   : BitVec 7
  logLost : Word
  log     : Map LogEntry
  corr    : Word
  deriving DecidableEq, Repr

/-- The control port: the outputs of the last access (Table PI-5), the latched groups (R414) by word address,
and the GROUP and SEQ of each entry's last latched read (R420). -/
structure Ct where
  rdata     : Word
  err       : Bool
  latch     : Map (Option Word)
  entryRead : Map (Option (BitVec 12 × Word))
  deriving DecidableEq, Repr

/-! ### The structure image (spec/15) -/

/-- IMG_STATUS.STATE (Table SU-8). -/
inductive ImgState where
  | empty | check | apply | checked | inService | refused | test
  deriving DecidableEq, Repr

/-- A group entry of the GROUPS section (Table SU-6). -/
structure Group where
  v      : Bool
  bulk   : Bool
  racks  : BitVec 32
  trays  : BitVec 16
  pkgs   : BitVec 16
  dies   : BitVec 8
  limit  : BitVec 40
  bitmap : BitVec 1024
  deriving DecidableEq, Repr

/-- A group that the image does not define. -/
def Group.none : Group := ⟨false, false, 0, 0, 0, 0, 0, 0⟩

/-- The configuration that the image fills. -/
structure Cfg where
  nl      : Nat
  radix   : List Nat
  bufs    : Nat
  leaves  : BitVec 1024
  stakes  : List Word
  arb     : Word
  routes  : List Word
  groups  : Map Group
  adm0    : Word
  adm1    : Word
  adm2    : Word
  tmDie   : BitVec 16
  hoopPol : Map (BitVec 64)
  hasMap  : Bool
  experts : Map (BitVec 128)
  deriving DecidableEq, Repr

/-- No image: every "image" field reads 0 (R412). -/
def Cfg.none : Cfg := ⟨0, [], 0, 0, [], 0, [], [], 0, 0, 0, 0, [], false, []⟩

/-- The image loader (Table SU-8) and what it has read. -/
structure Img where
  addr    : BitVec 44
  len     : BitVec 23
  st      : ImgState
  reason  : BitVec 4
  errsec  : BitVec 8
  erroff  : BitVec 23
  digest  : BitVec 64
  fileCrc : BitVec 64
  signLo  : Word
  loads   : Word
  next    : Nat
  buf     : Map (List Byte)
  buf2    : Map (List Byte)
  cfg     : Cfg
  deriving DecidableEq, Repr

/-! ### Write-limited settings (Table SU-2) -/

/-- One WL_LOG entry. -/
structure WlLog where
  value : BitVec 16
  blank : Bool
  err   : Bool
  now   : Bool
  deriving DecidableEq, Repr

/-- The reset contents of a WL_LOG entry. -/
def WlLog.zero : WlLog := ⟨0, false, false, false⟩

/-- The kind of a fuse access. -/
inductive FuseOp where
  | scan | program | readback
  deriving DecidableEq, Repr

/-- The fuse access in progress (Table PI-5): FU_REQ is 1 while one stands here; `slot` is SEL × 4 + slot. -/
structure FuseAcc where
  op    : FuseOp
  slot  : Nat
  value : BitVec 16
  failed : Bool
  deriving DecidableEq, Repr

structure Wl where
  dieId  : BitVec 16
  dieSet : Bool
  ceil   : BitVec 3
  lvlSet : Bool
  value  : BitVec 16
  sel    : Bool
  ready  : Bool
  last   : BitVec 2
  log    : Map WlLog
  acc    : Option FuseAcc
  deriving DecidableEq, Repr

/-! ### Global time (spec/13) -/

/-- TIME_STATUS.STATE (Table TA-2). -/
inductive SyncSt where
  | free | locked | holdover
  deriving DecidableEq, Repr

/-- The SYNC that a FOLLOW may answer: SSEQ, HOPS, arrival stamp in 2^−16 ns, and whether it was usable. -/
structure SyncRec where
  sseq   : BitVec 16
  hops   : BitVec 8
  tArr   : Nat
  usable : Bool
  deriving DecidableEq, Repr

structure Time where
  /-- 64 integer bits over 16 fraction bits (R337) -/
  now     : BitVec 80
  gcPer   : Word
  st      : SyncSt
  tmDie   : BitVec 16
  lost    : Bool
  stopped : Bool
  stepped : Bool
  hops    : BitVec 8
  offset  : Word
  steps   : Word
  syncCnt : Word
  reject  : Word
  /-- the remaining correction r of R346, in 2^−16 ns -/
  slew    : Int
  syncRx  : Option SyncRec
  prevOff : Option Int
  rejOffs : List Int
  lastUse : BitVec 64
  sseqTx  : BitVec 16
  /-- when the last SYNC was sent (R341) -/
  syncAt  : BitVec 64
  /-- a step that waits for an edge while REFCLK stands (R340, R346), in 2^−16 ns -/
  stepDue : Int
  deriving DecidableEq, Repr

/-! ### Admission status (Table RG-5) -/

structure Adm where
  admitted : Word
  refused  : Word
  full     : Word
  timeout  : Word
  longq    : Word
  tauRes   : BitVec 12
  lastB    : BitVec 40
  lastBest : BitVec 40
  deriving DecidableEq, Repr

/-! ### Tilth monitors and power (spec/09) -/

/-- One tap set of a monitor with its window (R242, R245). -/
structure TapSet where
  tap  : Nat
  pend : Option Nat
  smin : Option Int
  tmax : Nat
  cnt  : Nat
  run  : Nat
  deriving DecidableEq, Repr

/-- A tap set after reset (Table TL-2). -/
def TapSet.zero : TapSet := ⟨63, none, none, 0, 0, 0⟩

structure Mon where
  a        : TapSet
  b        : TapSet
  lastSmin : Nat
  lastTmax : Nat
  /-- when the running window began (R245) -/
  start    : BitVec 64
  /-- windows of this monitor since the candidate last came within 20 ps of τ (R252) -/
  low      : Nat
  /-- windows of this monitor since a tap or τ last changed (R253) -/
  quiet    : Nat
  deriving DecidableEq, Repr

/-- A monitor after reset: TIL_MON_DATA reads SMIN 0 and TMAX 0. -/
def Mon.zero : Mon := ⟨TapSet.zero, TapSet.zero, 0, 0, 0, 0, 0⟩

structure Tilth where
  tau     : Nat
  refLost : Bool
  dirty   : Bool
  hstate  : BitVec 2
  hreason : BitVec 3
  snapReq : Bool
  raise   : Word
  lower   : Word
  hard    : Word
  neg     : Word
  monSel  : BitVec 11
  force   : BitVec 8
  forced  : Option (Nat × Bool)
  mons    : Map Mon
  hist    : Map Word
  ageBase : Word
  saves   : Word
  ageFrom : BitVec 64
  /-- a window has ended since SNAP was written (R256) -/
  snapRdy : Bool
  /-- largest candidate of the windows that stayed 20 ps below τ (R252) -/
  tauCand : Nat
  calib   : BitVec 64
  deriving DecidableEq, Repr

structure Pwr where
  slew     : BitVec 7
  ballEn   : Bool
  pace     : BitVec 9
  thr      : BitVec 4
  thrMin   : BitVec 4
  below    : Bool
  belowRun : Bool
  viol     : Bool
  ballast  : Bool
  /-- I_EST of the last interval, in mA (PWR_STATUS shows 0.125 A units) -/
  iEst     : Nat
  paced    : Word
  /-- the accumulator of each admission point, in 1/256 (R261) -/
  accs     : Map Nat
  /-- SLEW as the running interval uses it (R264) -/
  slewNow  : BitVec 7
  /-- when the running interval began (R259) -/
  start    : BitVec 64
  deriving DecidableEq, Repr

/-! ### The feeder and the memory ports (spec/11, spec/14) -/

/-- FD_STATUS.STATE (Table FD-7). -/
inductive ChSt where
  | disabled | waitTrig | active | hold | paused | halted | idle
  deriving DecidableEq, Repr

/-- Where a SINK beat goes: by the loop nest, or at a byte offset from DST or SRC of the descriptor that serves a routed
binding (R300, R308). -/
inductive SinkAt where
  | walk
  | dst (off : Nat)
  | src (off : Nat)
  deriving DecidableEq, Repr

/-- A binding (R303): the member it serves, its direction, its format and how far it has come. -/
structure Bind where
  g      : BitVec 12
  k      : Word
  cp     : Nat
  sink   : Bool
  fmt    : Nat
  active : Bool
  checked : Bool
  /-- beats taken from or given by the endpoint -/
  moved  : Nat
  /-- SINK: the last wale before the terminal token has been given -/
  ended  : Bool
  /-- FEED: beats of a wale that the endpoint has taken part of -/
  part   : List Byte
  /-- SINK: data given to the binding that the channel's staging has not taken yet -/
  pend   : List (SinkAt × List Byte)
  /-- the collective is a routed operation -/
  routed : Bool
  deriving DecidableEq, Repr

/-- The steps at the end of a SINK descriptor or SINK binding (Table FD-4, R313). -/
inductive EndPh where
  | none | waitWr | rbReq | rbWait | ckReq | ckWait
  deriving DecidableEq, Repr

/-- What the steps above end: the descriptor, a binding that ends before its descriptor (R313), or, for a routed binding,
nothing yet: the read-back that its CHECKED report waits for (R307). -/
inductive EndFor where
  | desc | bind | probe
  deriving DecidableEq, Repr

/-- One feeder channel (Table FD-7). -/
structure Chan where
  pri     : BitVec 2
  head    : BitVec 44
  st      : ChSt
  late    : Bool
  err     : BitVec 4
  cur     : BitVec 44
  desc    : List Word
  /-- TCMP of the current and of the next descriptor had passed at fetch (Table FD-3) -/
  past    : Bool
  nextD   : Option (List Word)
  nextPast : Bool
  fetchA  : Option (BitVec 44)
  beats   : Word
  crc     : BitVec 32
  done    : BitVec 16
  errAddr : BitVec 44
  binds   : List Bind
  /-- beats of the current descriptor requested (FEED) or written (SINK) -/
  issued  : Nat
  /-- beats of the current descriptor that have left the channel -/
  moved   : Nat
  /-- FEED: beats read, by beat number. SINK: the data waiting to be written, at most 64 beats (R296) -/
  staged  : Map (List Byte)
  sinkq   : List (SinkAt × List Byte)
  unacked : Nat
  lastWr  : Option (Nat × BitVec 44 × List Byte)
  endPh   : EndPh
  endFor  : EndFor
  deriving DecidableEq, Repr

/-- A channel after reset. -/
def Chan.zero : Chan :=
  ⟨0, 0, .disabled, false, 0, 0, [], false, none, false, none, 0, 0, 0, 0, [], 0, 0, [], [], 0, none, .none, .desc⟩

/-- What a memory request is for. -/
inductive ReqKind where
  | loadCheck (beat : Nat)
  | loadApply (beat : Nat)
  | desc (ch : Nat) (next : Bool)
  | feed (ch : Nat) (beat : Nat)
  | sink (ch : Nat)
  | readBack (ch : Nat)
  | cksum (ch : Nat)
  | suspWr (beat : Nat)
  | suspRd (beat : Nat)
  /-- a request whose channel was disabled: its response is taken and dropped -/
  | orphan (ch : Nat)
  deriving DecidableEq, Repr

/-- One outstanding request on a memory port (Table PI-3). -/
structure Req where
  port : Nat
  tag  : Nat
  wr   : Bool
  addr : BitVec 44
  kind : ReqKind
  data : List Byte
  /-- MP_WBE: the bytes that a write carries -/
  wbe  : BitVec 64
  deriving DecidableEq, Repr

/-- One EVT_IN line (R311). -/
structure EvtIn where
  pend    : Nat
  overrun : Nat
  deriving DecidableEq, Repr

/-- One EVT_OUT line, or FD_ERR_EVT as line 16 (R316). -/
structure EvtOut where
  high   : Bool
  /-- the channels whose pulses wait, in order -/
  queued : List Nat
  deriving DecidableEq, Repr

structure FdWide where
  evtIn   : Map EvtIn
  evtOut  : Map EvtOut
  evoLost : Word
  /-- the memory port after the last one used (R298) -/
  rrPort  : Nat
  /-- the channel granted last, by PRI (R297); one that never was stands at channel 63 -/
  rrChan  : Map Nat
  reqs    : List Req
  deriving DecidableEq, Repr

/-! ### Hoops (spec/10) -/

inductive HoopSt where
  | disarmed | armed | fault
  deriving DecidableEq, Repr

/-- One hoop (R271); TARGET is stored with its complement. -/
structure Hoop where
  st       : HoopSt
  count    : BitVec 12
  target   : BitVec 12
  targetN  : BitVec 12
  mode     : Bool
  waiting  : Bool
  ovr      : Bool
  stale    : Bool
  excess   : Bool
  staleCnt : BitVec 16
  lastSrc  : BitVec 10
  lastFd   : Bool
  lastV    : Bool
  /-- fields whose storage was uncorrectable: bit 0 the flags, bit 1 the stale counter, bit 2 the last source (R283) -/
  lost     : BitVec 3
  deriving DecidableEq, Repr

/-- A cleared hoop. -/
def Hoop.zero : Hoop := ⟨.disarmed, 0, 0, 0xFFF, false, false, false, false, false, 0, 0, false, false, 0⟩

/-! ### Core ports (spec/14) -/

/-- A command in a port's input, behind a WAIT (R278); with a hoop command, what the storage of its hoop reports when it is
read (R283). -/
inductive PortCmd where
  | issue (words comps : List Word)
  | hoop (w c : Word) (ev : StorageEvent)
  deriving DecidableEq, Repr

/-- A pending WAIT (R278, R279). -/
structure Waiting where
  hoop  : Nat
  start : BitVec 64
  arg   : BitVec 12
  deriving DecidableEq, Repr

/-- One status return (Table PI-15). `gate` is (g, k) when R19 may hold it back. -/
structure Status where
  code : BitVec 4
  grp  : BitVec 12
  arg  : Word
  gate : Bool
  wait : Bool
  deriving DecidableEq, Repr

/-- One receive wale (Table PI-1). -/
structure Rx where
  g    : BitVec 12
  k    : Word
  kind : BitVec 3
  data : List Byte
  /-- left over from an image that is gone: no longer held back by R19 -/
  old  : Bool
  deriving DecidableEq, Repr

/-- A terminal token waiting on the seal return: its words not yet taken, and how many have been. -/
structure Tok where
  g     : BitVec 12
  k     : Word
  words : List Word
  pos   : Nat
  /-- left over from an image that is gone: no longer held back by R19 -/
  old   : Bool
  deriving DecidableEq, Repr

/-- The rest of a member's contribution after an abort: so many wales, or a routed stream with the data wales of
its open unit, TW, whether part 1 carries data, and the END headers still to come. -/
inductive Owe where
  | wales (n : Nat)
  | stream (left tw : Nat) (bcast : Bool) (ends : Nat)
  deriving DecidableEq, Repr

structure Port where
  seqs    : Map Word
  latched : Bool
  cmdq    : List PortCmd
  wait    : Option Waiting
  gate    : Bool
  wake    : Bool
  stq     : List Status
  rxq     : List Rx
  tokq    : List Tok
  /-- per group, the k whose statuses, data and token may be delivered (R19) -/
  deliv   : Map Word
  txHeld  : Option (BitVec 12 × List Byte)
  /-- per group, what is still to be taken and discarded after aborts, oldest first (R109, R364) -/
  discard : Map (List Owe)
  deriving DecidableEq, Repr

/-- A port after reset. -/
def Port.zero : Port := ⟨[], false, [], none, false, false, [], [], [], [], none, []⟩

/-! ### Collectives (spec/04, spec/05, spec/06, spec/08) -/

/-- One route of a token at its owner (R137). -/
structure TokRoute where
  placed : Bool
  gate   : Word
  got    : Option (List (List Byte))
  deriving DecidableEq, Repr

/-- One token that a member supplied in a routed operation: the source's or owner's list of routes. -/
structure ExTok where
  t      : Nat
  routes : List TokRoute
  drop   : Nat
  /-- converted wales of the token at its owner -/
  out    : List (List Byte)
  done   : Bool
  deriving DecidableEq, Repr

/-- A slot unit or contribution that is coming in from another die: its wales so far, and their candidate. -/
structure ExRx where
  src   : Nat
  tag   : List Byte
  wales : List (List Byte)
  deriving DecidableEq, Repr

/-- A member's part in a routed operation. -/
structure ExMem where
  part    : Nat
  hdr     : List Byte
  hdrOpen : Bool
  left    : Nat
  cur     : List (List Byte)
  toks    : List ExTok
  units   : Nat
  fill    : Map Nat
  slots   : Map Nat
  dropped : Nat
  sent    : Nat
  recvd   : Nat
  owed    : Nat
  fin     : Bool
  sentRep : Bool
  checked : Bool
  /-- units that are coming in, and contributions that came before the owner's route lists were complete -/
  rxU     : List ExRx
  early   : List ExRx
  deriving DecidableEq, Repr

/-- Nothing supplied yet. -/
def ExMem.zero : ExMem := ⟨1, [], false, 0, [], [], 0, [], [], 0, 0, 0, 0, false, false, false, [], []⟩

/-- A member of the collective on this die: its issue and how far it has come. -/
structure Member where
  cp     : Nat
  /-- the sequence number that its own port assigned (R15) -/
  k      : Word
  words  : List Word
  bad    : Bool
  /-- contribution wales that have entered the tree -/
  sent   : Nat
  /-- running CRC-64 of the fingerprint term (R355) -/
  crc    : BitVec 64
  fpDone : Bool
  /-- result wales handed to the member (RX_WALES) and those the core or sink has taken -/
  rx     : Nat
  took   : Nat
  /-- its SINK binding has ended: every beat has its response and the last read-back has matched (R307) -/
  sunk   : Bool
  /-- the terminal token or REFUSED has been put at the port -/
  ended  : Bool
  ex     : ExMem
  deriving DecidableEq, Repr

/-- An agreement input that has arrived at a stage of the gather tree: the level (0 for this die's own
members), the sub-unit field, what the message said. -/
structure AgIn where
  level : Nat
  field : Nat
  k     : Word
  niss  : Nat
  bad   : Bool
  dis   : Bool
  dist  : Bool
  aw    : List Word
  deriving DecidableEq, Repr

/-- One record waiting at the update port (R323): its beats. -/
structure URec where
  kind  : Nat
  beats : List (List Byte)
  deriving DecidableEq, Repr

/-- The states of Table CO-8 that a die keeps for a collective. -/
inductive CSt where
  | gather | queued | opened | closing | suspended | ended
  deriving DecidableEq, Repr

/-- A leg of a collective's tree that this die forwards (R161): the level of the stage that it serves, the dies above and
below it, whether RESERVE came down over it, whether a close-round report has passed up over it, and whether its terminal
token has passed. -/
structure Leg where
  level  : Nat
  up     : Nat
  down   : Nat
  seen   : Bool
  closed : Bool
  ended  : Bool
  deriving DecidableEq, Repr

structure Coll where
  g        : BitVec 12
  k        : Word
  /-- its position among the issues on the group at this die (R15) -/
  pos      : Word
  aw       : List Word
  st       : CSt
  members  : List Member
  agIn     : List AgIn
  /-- some covered member has SRC 3 (Table CO-4) -/
  srcBad   : Bool
  /-- segments of this die's gather tree whose AGREE has gone up, or has been decided -/
  agSent   : List Nat
  gStart   : Option (BitVec 64)
  qStart   : Option (BitVec 64)
  qLong    : Bool
  round    : BitVec 16
  holds    : Bool
  /-- the chains that this round's RESERVE has reached -/
  resv     : List Nat
  /-- the home member has decided admission here: the root decides from now on (R107) -/
  passed   : Bool
  wales    : Nat
  /-- the inputs (level, field) that have been asked to reserve, and what they report -/
  kids     : List (Nat × Nat)
  reps     : List (Nat × Nat × Report)
  rep      : Option Report
  /-- segments whose report of the reserve round has been sent -/
  tried    : List Nat
  entry    : Option Nat
  /-- the bound B; 0 before ADMIT -/
  b        : Nat
  tAdm     : BitVec 64
  dl       : BitVec 64
  ldn      : Nat
  /-- a reserve round is under way at the home die, or the collective has opened -/
  started  : Bool
  late     : Bool
  elide    : Bool
  bufs     : List Buf
  fwd      : Map Nat
  /-- partial STEP reductions that travel apart from the wales (OR, AND and routed operations): where each waits -/
  steps    : List (Point × Nat × BitVec 64 × BitVec 64)
  /-- inputs (level, field) whose raw wale 0 has arrived -/
  rawIn    : List (Nat × Nat)
  /-- segments whose STEP partial has gone up (routed operations) -/
  stepSeg  : List Nat
  /-- down wales that wait: the segment they came to, the wale number, the body -/
  down     : List (Nat × Nat × List Byte)
  /-- the next down wale of each segment -/
  downNext : Map Nat
  rootQ    : List (Nat × WaleV)
  released : Nat
  silt     : Nat
  osilt    : Nat
  contrib  : Nat
  /-- OR and AND: contributors of the raw partials that left each segment (they travel in CLOSE) -/
  conOut   : Map Nat
  /-- routed operations: the next wale of each source die's stream, and wales that came before their turn (R170) -/
  exNext   : Map Nat
  exWait   : List (Nat × Nat × List Byte)
  step     : Option (BitVec 64 × BitVec 64)
  /-- the trap record that the root has stored (R81, R83) -/
  trap     : Option Cand
  /-- a routed operation's smallest candidate on this die that has not been stored (R139) -/
  cand     : Option Cand
  noted    : Bool
  digest   : BitVec 64
  /-- XOR of this die's fingerprint terms, and at the root of those received -/
  fp       : BitVec 64
  /-- fingerprint reports received: level, field, FPRINT, NMEM -/
  fpIn     : List (Nat × Nat × BitVec 64 × Nat)
  fpLocal  : Bool
  fpFwd    : List Nat
  /-- close-round (or CHECKED) and SENT reports received: level, field, the report -/
  closeIn  : List (Nat × Nat × Body)
  closeFwd : List Nat
  sentIn   : List (Nat × Nat × Body)
  sentFwd  : List Nat
  allSent  : Bool
  /-- chains that the terminal token has reached, and tokens that wait behind the down wales of their chain (R108) -/
  tokSegs  : List Nat
  tokWait  : List (Nat × List Word × List Word)
  credits  : Map Nat
  decided  : Option (BitVec 8)
  remain   : Nat
  updQ     : List URec
  updRecs  : Nat
  updDone  : Nat
  updEnd   : Bool
  /-- VC1 flit charge admitted on each stake since this VC2 or VC3 collective was admitted (R224) -/
  v1since  : Map Nat
  /-- stakes on which this VC1 reservation stands refused (R224) -/
  v1ref    : List Nat
  /-- legs that this die forwards for other dies -/
  legs     : List Leg
  /-- the image that it belonged to has been invalidated (R406) -/
  old      : Bool
  deriving DecidableEq, Repr

/-- A collective of which nothing has happened yet. -/
def Coll.zero : Coll :=
  { g := 0, k := 0, pos := 0, aw := [], st := .gather, members := [], agIn := [], srcBad := false, agSent := [], gStart := none,
    qStart := none, qLong := false, round := 0, holds := false, resv := [], passed := false, wales := 0, kids := [], reps := [], rep := none,
    tried := [], entry := none, b := 0, tAdm := 0, dl := 0, ldn := 0, started := false, late := false,
    elide := false, bufs := [], fwd := [], steps := [], rawIn := [], stepSeg := [], down := [], downNext := [], rootQ := [],
    released := 0, silt := 0, osilt := 0, contrib := 0, conOut := [], exNext := [], exWait := [], step := none, trap := none, cand := none, noted := false,
    digest := 0, fp := 0, fpIn := [], fpLocal := false, fpFwd := [], closeIn := [], closeFwd := [], sentIn := [], sentFwd := [],
    allSent := false, tokSegs := [], tokWait := [], credits := [], decided := none, remain := 0, updQ := [], updRecs := 0, updDone := 0,
    updEnd := false, v1since := [], v1ref := [], legs := [], old := false }

/-- A group's suspension on this die (R113 to R118). -/
inductive SuspSt where
  | none | draining | writing | suspended | reloading
  deriving DecidableEq, Repr

structure SuspG where
  st     : SuspSt
  addr   : BitVec 44
  mine   : Bool
  record : List Byte
  next   : Nat
  got    : Map (List Byte)
  /-- beats of the record that is being read -/
  need   : Nat
  /-- DONE reports received: level, field, dies covered, largest record size, and a failure -/
  doneIn : List (Nat × Nat × Nat × Nat × Bool)
  /-- chains of the gather tree whose DONE has gone up -/
  doneUp : List Nat
  /-- the counter when the request reached this die (R117) -/
  since  : BitVec 64
  size   : Nat
  fail   : Bool
  /-- the requesting die -/
  req    : BitVec 16
  /-- this die's own part of the operation is done -/
  own    : Bool
  deriving DecidableEq, Repr

/-- A group that is not suspended. -/
def SuspG.zero : SuspG := ⟨.none, 0, false, [], 0, [], 0, [], [], 0, 0, false, 0, false⟩

/-- Collective control (Table RG-10). -/
structure ColCtl where
  suspAddr  : BitVec 44
  suspGroup : BitVec 12
  suspOp    : BitVec 2
  suspSt    : BitVec 3
  suspGrp   : BitVec 12
  suspSize  : BitVec 25
  killGroup : BitVec 12
  killRes   : BitVec 2
  killSeq   : Word
  lastTrap  : List Word
  /-- words of the trap record that an entry keeps after it is freed (R420) -/
  entryTrap : Map (List Word)
  susp      : Map SuspG
  /-- AGREE messages received, by group, level and field: the position of the next one (R15) -/
  agCnt     : Map Nat
  deriving DecidableEq, Repr

/-! ### Stakes (spec/07) -/

/-- STK_STATUS.STATE (Table RG-7). -/
inductive StkSt where
  | idle | training | inService | down
  deriving DecidableEq, Repr

/-- A DATA flit as the transmitter holds it (Tables SK-3 and SK-4). -/
structure TxFlit where
  fseq    : BitVec 12
  vc      : Nat
  dest    : BitVec 16
  hop     : Nat
  level   : Nat
  srcf    : Nat
  payload : List Byte
  /-- a relayed flit: the stake in whose receive buffer it stands until it leaves (R203) -/
  rx      : Option Nat
  deriving DecidableEq, Repr

/-- A TRAIN flit that waits to be sent (R210). -/
inductive TrainOut where
  | id
  | probe (n : Nat)
  | ret (n arr : Nat)
  | hold (n h : Nat)
  deriving DecidableEq, Repr

/-- A wale or message that is coming in over several fragments (R188): segment header, next FRAG, body. -/
structure Frag where
  hdr  : Nat
  next : Nat
  body : List Byte
  deriving DecidableEq, Repr

/-- The receive side of one lane in training (R209). -/
structure LaneRx where
  cnt   : Option (BitVec 16)
  seen  : Nat
  run   : Nat
  pass  : Bool
  maskV : Bool
  far   : BitVec 8
  deriving DecidableEq, Repr

/-- A lane that has received no training word. -/
def LaneRx.zero : LaneRx := ⟨none, 0, 0, false, false, 0⟩

/-- An accepted DATA flit that waits in its receive buffer (R203): what the header says, and when it arrived. -/
structure RxHeld where
  ftype   : Nat
  /-- the whole header, as PROTO entries show it -/
  bits    : Nat
  vc      : Nat
  dest    : BitVec 16
  hop     : Nat
  level   : Nat
  srcf    : Nat
  el      : Nat
  payload : List Byte
  deriving DecidableEq, Repr

/-- A flit whose departure is stamped when the PHY takes its first lane word (R343): a SYNC, a PROBE, or the return of a probe
that arrived at a stamp. -/
inductive StampFor where
  | sync (sseq : Nat)
  | probe (n : Nat)
  | ret (n arr : Nat)
  deriving DecidableEq, Repr

structure Stake where
  st      : StkSt
  step    : Nat
  attempt : Nat
  peerBad : Bool
  nak     : Bool
  shadow  : Bool
  width   : Nat
  lanes   : BitVec 8
  good    : BitVec 8
  cand    : BitVec 8
  rtt     : BitVec 20
  hopdly  : BitVec 20
  ackto   : BitVec 16
  peer    : Option (BitVec 16)
  txSeq   : BitVec 12
  rxSeq   : BitVec 12
  ackV    : Bool
  rbuf    : List TxFlit
  txq     : List TxFlit
  /-- flits sent per VC at first transmission, and freed by the far end's CRED (R203) -/
  txCnt   : List (BitVec 16)
  txFreed : List (BitVec 16)
  /-- flits freed at this receiver per VC (Table SK-9), and at the last LINK flit -/
  freed   : List (BitVec 16)
  linked  : List (BitVec 16)
  held    : List Nat
  /-- accepted flits of VC1 to VC3 that have not been taken in yet, oldest first (R203, R261) -/
  rxbuf   : List RxHeld
  /-- the image is gone: what step 1 of R406 has put in line still leaves -/
  closing : Bool
  replay  : Option Nat
  replays : Nat
  replayF : Option (BitVec 12)
  rrVc    : Nat
  deficit : List Nat
  corr    : Word
  uncorr  : Word
  crcfail : Word
  replayC : Word
  retrainC : Word
  proto   : Word
  badctl  : Word
  txdata  : Word
  rxdata  : Word
  /-- flit slots at which uncorrectable codewords arrived, and the count of flit slots received (R214) -/
  badRun  : List Nat
  slotRun : Nat
  /-- this end has been in service since its image entered service: FRESH 0 (R432) -/
  served  : Bool
  idRx    : Option (List Byte)
  /-- the far end has acknowledged this end's ID flit -/
  idAck   : Bool
  pnum    : Nat
  probeT  : Option Nat
  probeA  : Option Nat
  trips   : List Nat
  phyRst  : Bool
  rdy     : BitVec 8
  flt     : BitVec 8
  laneRx  : Map LaneRx
  wordCnt : BitVec 16
  /-- the marker word has been sent (R209) -/
  marked  : Bool
  frags   : Map (Option Frag)
  /-- fragments of a wale for another die, held until the last of them is here -/
  relay   : Map (List TxFlit)
  /-- rotation over the bond whose lowest member this stake is (R170) -/
  bondRR  : Nat
  /-- the flit of the last flit slot, as its 264 wire bytes (R184, R195) -/
  lineOut : List Byte
  linkDue : Bool
  /-- units of the flits sent that no lane word holds yet (R185) -/
  units   : List (BitVec 32)
  /-- SK_TXD_i of the lanes in use -/
  txd     : Map (BitVec 256)
  /-- the words that stand on SK_TXD hold wire byte 0 of this flit -/
  stampDue : Option StampFor
  /-- SK_RXD_i: the training word last taken on each lane, and the lanes' deskew buffers (R178) -/
  rxd     : Map (BitVec 256)
  desk    : Map (List (BitVec 256))
  /-- the lanes have been deskewed (Table SK-11, step 3) -/
  aligned : Bool
  /-- GOOD as this end sends it once its lane test is complete: MASKV is 1 (R209) -/
  mask    : Option (BitVec 8)
  /-- an ID flit with ACK 1 has been sent -/
  idSent  : Bool
  /-- per collective (group and KTAG), DATA flits of it sent since its last VC0 message, up to 16 (R223) -/
  sinceV0 : Map Nat
  /-- flit slots since the last LINK flit (R202), in training since the last ID flit (R210) -/
  sinceLk : Nat
  /-- TRAIN flits that wait to be sent (R210) -/
  ctlq    : List TrainOut
  /-- a SYNC waits for step 8 of the training (Table SK-13) -/
  syncDue : Bool
  deriving DecidableEq, Repr

/-- A stake after reset. -/
def Stake.zero : Stake :=
  { st := .idle, step := 0, attempt := 0, peerBad := false, nak := false, shadow := false, width := 0, lanes := 0,
    good := 0, cand := 0, rtt := 0, hopdly := 0, ackto := 0, peer := none, txSeq := 0, rxSeq := 0, ackV := false,
    rbuf := [], txq := [], txCnt := [0, 0, 0, 0], txFreed := [0, 0, 0, 0], freed := [0, 0, 0, 0],
    linked := [0, 0, 0, 0], held := [0, 0, 0, 0], rxbuf := [], closing := false, replay := none, replays := 0, replayF := none, rrVc := 2,
    deficit := [0, 0, 0, 0], corr := 0, uncorr := 0, crcfail := 0, replayC := 0, retrainC := 0, proto := 0,
    badctl := 0, txdata := 0, rxdata := 0, badRun := [], slotRun := 0, served := false, idRx := none,
    idAck := false, pnum := 0, probeT := none, probeA := none, trips := [], phyRst := false, rdy := 0, flt := 0,
    laneRx := [], wordCnt := 0, marked := false, frags := [], relay := [], bondRR := 0, lineOut := [], linkDue := false,
    units := [], txd := [], stampDue := none, rxd := [], desk := [], aligned := false, mask := none, idSent := false, sinceV0 := [],
    sinceLk := 0, ctlq := [], syncDue := false }

/-! ### Exchange, update port, debug, wrapper -/

structure Exc where
  mapSel  : BitVec 16
  placed  : Word
  dropped : Word
  slots   : Word
  tokens  : Word
  deriving DecidableEq, Repr

/-- One beat in the update port's buffer (Table PI-7). -/
structure UBeat where
  data : List Byte
  sor  : Bool
  eor  : Bool
  kind : Nat
  g    : BitVec 12
  k    : Word
  /-- left over from an image that is gone -/
  old  : Bool
  /-- the SEAL record of an UNVISITED shard under ELIDE 1 (R327) -/
  elided : Bool
  deriving DecidableEq, Repr

structure Upd where
  elide   : Bool
  fifo    : List UBeat
  rr      : Option (BitVec 12 × Word)
  records : Word
  seals   : Word
  aborts  : Word
  elided  : Word
  stall   : Word
  skewCnt : Word
  skewV   : Bool
  skewG   : BitVec 12
  skewSeq : Word
  skewMin : BitVec 64
  skewMax : BitVec 64
  deriving DecidableEq, Repr

structure Dbg where
  pin      : Bool
  forceVal : BitVec 12
  forceIdx : BitVec 16
  forceMode : Bool
  injKind  : BitVec 4
  injUnit  : BitVec 10
  armed    : Bool
  injCnt   : Word
  deriving DecidableEq, Repr

/-- The 8 self-test bits of a tile (Table PI-13); the table names three of them. -/
structure Bist where
  run  : Bool
  done : Bool
  /-- some symbol failed -/
  fail : Bool
  rest : BitVec 5
  deriving DecidableEq, Repr

/-- The 16 delay-sweep bits of a tile (Table PI-13): the lowest passing tap, and whether one passed. -/
structure Sweep where
  tap  : BitVec 6
  pass : Bool
  rest : BitVec 9
  deriving DecidableEq, Repr

def Bist.zero : Bist := ⟨false, false, false, 0⟩
def Sweep.zero : Sweep := ⟨0, false, 0⟩

/-- The IEEE 1500 wrapper (R386): the instruction and the data registers. Test state is IMG_STATUS.STATE TEST. -/
structure Wrap where
  ir     : BitVec 4
  szctrl : BitVec 51
  idcode : Word
  /-- one bit per tile -/
  bypass : BitVec 160
  /-- run, done and fail of every tile -/
  bist   : Map Bist
  /-- tap and pass of every tile -/
  sweep  : Map Sweep
  /-- the boundary cells hold `Config.boundaryCell` of this count -/
  cells  : Nat
  deriving DecidableEq, Repr

/-! ### The machine -/

/-- The state of one die's block, and the queue of commands that wait. -/
structure State where
  pending : List Instr
  /-- VDD_SZ is present (R390) -/
  powered : Bool
  /-- RST_N is 0 (R391) -/
  inReset : Bool
  gst     : Gst
  ct      : Ct
  accept  : BitVec 64
  img     : Img
  wl      : Wl
  time    : Time
  adm     : Adm
  tilth   : Tilth
  pwr     : Pwr
  chans   : Map Chan
  fdw     : FdWide
  hoops   : Map Hoop
  hoopNet : List HoopSig
  ports   : Map Port
  colls   : List Coll
  col     : ColCtl
  stakes  : Map Stake
  exc     : Exc
  upd     : Upd
  dbg     : Dbg
  wrap    : Wrap
  /-- VC0 messages for this die that have not been taken yet (log entry 6) -/
  vc0     : List Msg
  /-- MODEL'S OWN: how many free values have been used (log entry 2) -/
  free    : Nat
  deriving DecidableEq, Repr

/-- The machine right after reset, with RST_N at 0 (R391, R412): every field at its stated reset value. -/
def State.reset : State :=
  { pending := [], powered := true, inReset := true,
    gst := ⟨0, 0x7FF, 0, 0, 0, [], 0⟩,
    ct := ⟨0, false, [], []⟩,
    accept := 0,
    img := ⟨0, 0, .empty, 0, 0, 0, 0, 0, 0, 0, 0, [], [], Cfg.none⟩,
    wl := ⟨0, false, 0, false, 0, false, false, 0, [], none⟩,
    time := ⟨0, 0x000A0000, .free, 0, false, false, false, 0, 0, 0, 0, 0, 0, none, none, [], 0, 0, 0, 0⟩,
    adm := ⟨0, 0, 0, 0, 0, 0, 0, 0⟩,
    tilth := ⟨2000, false, true, 0, 0, false, 0, 0, 0, 0, 0, 0, none, [], [], 0, 0, 0, false, 0, 0⟩,
    pwr := ⟨8, false, 0, 0xF, 0xF, false, false, false, false, 0, 0, [], 8, 0⟩,
    chans := [],
    fdw := ⟨[], [], 0, 0, [], []⟩,
    hoops := [], hoopNet := [], ports := [], colls := [],
    col := ⟨0, 0, 0, 0, 0, 0, 0, 0, 0, [0, 0, 0, 0], [], [], []⟩,
    stakes := [],
    exc := ⟨0, 0, 0, 0, 0⟩,
    upd := ⟨false, [], none, 0, 0, 0, 0, 0, 0, false, 0, 0, 0, 0⟩,
    dbg := ⟨false, 0, 0, false, 0, 0, false, 0⟩,
    wrap := ⟨0, 0, 0, 0, [], [], 0⟩,
    vc0 := [], free := 0 }

end Sys2Proof.Machine
end

