-- ==== Sys2Proof/Machine/Ops.lean ====
section
/-! DEFINITION. The named operations over the state that every family shares: the counter, the error log and
ATTN, and reading and writing the large tables. -/

namespace Sys2Proof.Machine

/-! ### The global counter (R337, R338) -/

/-- The integer part of the global counter. -/
def State.nowInt (s : State) : BitVec 64 := s.time.now.extractLsb' 16 64

/-- The counter in units of 1/16 ns, as a stamp (R343). -/
def State.now16 (s : State) : Nat := s.time.now.toNat / 2 ^ 12

/-- A compare against the counter: the counter no longer precedes the target, and a distance of exactly 2^63
counts as passed (R338). -/
def State.reached (s : State) (target : BitVec 64) : Bool := !precedes 64 s.nowInt.toNat target.toNat

/-! ### The error log and ATTN (R416, R417) -/

/-- The number of unread entries. -/
def Gst.unread (g : Gst) : Nat := (g.logWr - g.logRd).toNat

/-- Set the cause bits of GST_ATTN. -/
def State.attn (s : State) (bit : Nat) : State :=
  { s with gst := { s.gst with attn := s.gst.attn ||| (1#11 <<< bit) } }

/-- Write one entry, or count it as lost while 64 are unread (R417). -/
def State.logWrite (s : State) (e : LogEntry) : State :=
  if 64 ≤ s.gst.unread then
    { s with gst := { s.gst with logLost := satInc s.gst.logLost, attn := s.gst.attn ||| (1#11 <<< 10) } }
  else
    { s with gst := { s.gst with
        log := mput LogEntry.zero s.gst.log (s.gst.logWr.toNat % 64) { e with v := true, time := s.nowInt },
        logWr := s.gst.logWr + 1#7 } }

/-- An entry of Table ER-2. -/
def State.logEv (s : State) (code cls src unit : Nat) (arg0 arg1 : Nat) (grp : BitVec 12 := 0#12)
    (abort : BitVec 8 := 0#8) : State :=
  s.logWrite
    { v := true, code := BitVec.ofNat 8 code, abort := abort, group := grp, cls := BitVec.ofNat 3 cls,
      arg0 := BitVec.ofNat 32 arg0, arg1 := BitVec.ofNat 32 arg1, unit := BitVec.ofNat 16 unit,
      src := BitVec.ofNat 4 src, time := 0#64 }

/-! ### Features and debug mode (R398, R411) -/

/-- Feature bit `i` is accepted. -/
def State.feat (s : State) (i : Nat) : Bool := s.accept.getLsbD i

/-- Debug mode (R411). -/
def State.debug (s : State) : Bool := s.dbg.pin && s.feat 10

/-- IMG_STATUS.STATE reads IN_SERVICE. -/
def State.inService (s : State) : Bool := decide (s.img.st = .inService)

/-- The image-filled configuration is visible: STATE is CHECKED or IN_SERVICE (R412). -/
def State.cfgShown (s : State) : Bool := decide (s.img.st = .checked) || decide (s.img.st = .inService)

/-- The block carries out steps: supply present and RST_N released. -/
def State.alive (s : State) : Bool := s.powered && !s.inReset

/-- The die's own DIE_ID (R393). -/
def State.own (s : State) : Nat := s.wl.dieId.toNat

/-! ### Tables -/

def State.port (s : State) (cp : Nat) : Port := mget Port.zero s.ports cp
def State.setPort (s : State) (cp : Nat) (p : Port) : State := { s with ports := mput Port.zero s.ports cp p }
def State.hoop (s : State) (i : Nat) : Hoop := mget Hoop.zero s.hoops i
def State.setHoop (s : State) (i : Nat) (h : Hoop) : State := { s with hoops := mput Hoop.zero s.hoops i h }
def State.chan (s : State) (c : Nat) : Chan := mget Chan.zero s.chans c
def State.setChan (s : State) (c : Nat) (x : Chan) : State := { s with chans := mput Chan.zero s.chans c x }
def State.stake (s : State) (n : Nat) : Stake := mget Stake.zero s.stakes n
def State.setStake (s : State) (n : Nat) (x : Stake) : State := { s with stakes := mput Stake.zero s.stakes n x }
def State.mon (s : State) (i : Nat) : Mon := mget Mon.zero s.tilth.mons i
def State.setMon (s : State) (i : Nat) (m : Mon) : State :=
  { s with tilth := { s.tilth with mons := mput Mon.zero s.tilth.mons i m } }
def State.group (s : State) (g : BitVec 12) : Group := mget Group.none s.img.cfg.groups g.toNat

/-- Change one port. -/
def State.onPort (s : State) (cp : Nat) (f : Port → Port) : State := s.setPort cp (f (s.port cp))

/-- Change one channel. -/
def State.onChan (s : State) (c : Nat) (f : Chan → Chan) : State := s.setChan c (f (s.chan c))

/-- Change one stake. -/
def State.onStake (s : State) (n : Nat) (f : Stake → Stake) : State := s.setStake n (f (s.stake n))

/-- The core port is a leaf: its leaf-enable bit is 1 (R150). -/
def State.leaf (s : State) (cp : Nat) : Bool := s.img.cfg.leaves.getLsbD cp

/-! ### Collectives -/

/-- `c` is the collective (g, k). -/
def Coll.is (c : Coll) (g : BitVec 12) (k : Word) : Bool := decide (c.g = g) && decide (c.k = k)

/-- The collective (g, k) on this die. -/
def State.coll? (s : State) (g : BitVec 12) (k : Word) : Option Coll := s.colls.find? (fun c => c.is g k)

/-- The collective (g, k), or an empty record of that name. -/
def State.coll (s : State) (g : BitVec 12) (k : Word) : Coll :=
  (s.coll? g k).getD { Coll.zero with g := g, k := k }

/-- Replace the record of the same name, or add it at the end. -/
def collPut (c : Coll) : List Coll → List Coll
  | [] => [c]
  | x :: xs => if x.is c.g c.k then c :: xs else x :: collPut c xs

def State.putColl (s : State) (c : Coll) : State := { s with colls := collPut c s.colls }

/-- Change the collective (g, k) when it exists. -/
def State.onColl (s : State) (g : BitVec 12) (k : Word) (f : Coll → Coll) : State :=
  match s.coll? g k with
  | some c => s.putColl { f c with g := g, k := k }
  | none => s

/-- Change one member's record. -/
def Coll.onMember (c : Coll) (cp : Nat) (f : Member → Member) : Coll :=
  { c with members := c.members.map (fun m => if m.cp = cp then f m else m) }

/-- The member's record, when it has issued here. -/
def Coll.member? (c : Coll) (cp : Nat) : Option Member := c.members.find? (fun m => m.cp = cp)

/-- The state of the collective holds an open-collective entry (R111). -/
def Coll.isOpen (c : Coll) : Bool := decide (c.st = .opened) || decide (c.st = .closing) || decide (c.st = .suspended)

/-- Fold an operation over a list of indices. -/
def State.each (s : State) (l : List α) (f : State → α → State) : State := l.foldl f s

/-! ### Messages for this die (log entry 6) -/

/-- Put a message among those that wait at this die. -/
def State.post (s : State) (m : Msg) : State := { s with vc0 := s.vc0 ++ [m] }

/-- Take a message from those that wait. -/
def State.takeMsg (s : State) (m : Msg) : State := { s with vc0 := s.vc0.erase m }

/-- One handshake opportunity at an admission point: its accumulator gains P / 256, and a wale may enter when that makes
a whole (R261; log entry 77). -/
def State.opportunity (s : State) (pt : Nat) : Bool × State :=
  let a := mget 0 s.pwr.accs pt + s.pwr.pace.toNat
  (decide (256 ≤ a), { s with pwr := { s.pwr with accs := mput 0 s.pwr.accs pt (if 256 ≤ a then a - 256 else a) } })

/-- The admission points: core port `cp` is `cp`; then the feeder channels, the stakes' receive buffers, the exchange unit
and the update port (R261). -/
def ptChan (c : Nat) : Nat := 1024 + c
def ptStake (n : Nat) : Nat := 1088 + n
def ptExch : Nat := 1104
def ptUpd : Nat := 1105

/-- Take the next free value (log entry 2). -/
def State.freeNext (s : State) : BitVec 64 × State := (Config.freeValue s.free, { s with free := s.free + 1 })

end Sys2Proof.Machine
end

