-- ==== Sys2Proof/Machine/Flags.lean ====
section
/-! DEFINITION. Status flags and state codes as the registers show them: ATTN, test state, image, stake, entry and
channel states, QUIET, hoop conditions and the locks of the write-limited settings. -/

namespace Sys2Proof.Machine

/-! ### Global status and the image -/

/-- Level of the ATTN output (R416). -/
def Gst.level (g : Gst) : Bool := decide (g.attn &&& g.attnEn ≠ 0)

/-- GST_STATUS.TEST (R388). -/
def State.inTest (s : State) : Bool := decide (s.img.st = .test)

/-- IMG_STATUS.STATE. -/
def ImgState.code : ImgState → Nat
  | .empty => 0 | .check => 1 | .apply => 2 | .checked => 3 | .inService => 4 | .refused => 5 | .test => 6

/-! ### Stakes and open collectives -/

/-- STK_STATUS.STATE. -/
def StkSt.code : StkSt → Nat
  | .idle => 0 | .training => 1 | .inService => 2 | .down => 3

/-- STATE of an entry in use (R419). A die that passes a terminal token on one of several legs is CLOSING from then on. -/
def Coll.entryState (c : Coll) : Nat :=
  if c.decided.isSome ∨ c.st = .closing ∨ c.st = .ended ∨ c.legs.any (fun l => l.ended) = true then 2 else if c.st = .suspended then 3 else 1

/-! ### Hoops -/

/-- TARGET agrees with its stored complement (R283). -/
def Hoop.ok (h : Hoop) : Bool := decide (h.targetN = ~~~h.target)

/-- The hoop is satisfied (R271). -/
def Hoop.sat (h : Hoop) : Bool := decide (h.st = .armed) && decide (h.target.toNat ≤ h.count.toNat)

/-! ### Feeder channels -/

/-- The active binding: the first one, once its collective is admitted. -/
def Chan.actBind (x : Chan) : Option Bind :=
  match x.binds with
  | b :: _ => if b.active then some b else none
  | [] => none

/-- The channel has started its current descriptor. -/
def Chan.running (x : Chan) : Bool := decide (x.st = .active) && decide (x.desc ≠ [])

/-- STATE as FD_STATUS shows it: a started descriptor that waits for a binding or for its endpoint is in HOLD; the steps that
end a descriptor or a binding wait for neither (R321). -/
def Chan.view (x : Chan) : Nat :=
  match x.st with
  | .disabled => 0 | .waitTrig => 1 | .hold => 3 | .paused => 4 | .halted => 5 | .idle => 6
  | .active =>
    if x.endPh ≠ .none then 2 else
    match x.actBind with
    | none => 3
    | some b =>
      if b.sink then (if x.sinkq = [] then 3 else 2)
      else if (mget [] x.staged x.moved) ≠ [] then 3 else 2

/-- Requests of the channel that are outstanding. -/
def ReqKind.chan? : ReqKind → Option Nat
  | .desc c _ => some c | .feed c _ => some c | .sink c => some c | .readBack c => some c | .cksum c => some c
  | .orphan c => some c | _ => none

/-- FD_STATUS.QUIET. -/
def State.quiet (s : State) (c : Nat) : Bool := !s.fdw.reqs.any (fun r => decide (r.kind.chan? = some c))

/-! ### Write-limited settings -/

/-- WL_LOG entry `n` = SEL × 4 + slot. -/
def Wl.slot (w : Wl) (n : Nat) : WlLog := mget WlLog.zero w.log n

/-- The lowest-numbered blank slot of a setting. -/
def Wl.blankSlot (w : Wl) (sel : Nat) : Option Nat := [0, 1, 2, 3].find? (fun i => (w.slot (4 * sel + i)).blank)

/-- A setting is locked when none of its slots reads FU_BLANK 1. -/
def Wl.locked (w : Wl) (sel : Nat) : Bool := w.ready && (w.blankSlot sel).isNone

end Sys2Proof.Machine
end

