-- ==== Sys2Proof/Machine/Loam.lean ====
section
/-! DEFINITION. Loam arithmetic (spec/02): combine_sum with its residue prediction and dual trees, the
comparisons of MAX, MIN and MAXIDX, and OR and AND. -/

namespace Sys2Proof.Machine

/-- The canonical zero (R32). -/
def Loam.zero : Loam := ⟨0, 0, .fin, 0⟩

/-- The word of a class that is not finite (R31). -/
def Loam.special (c : Cls) : Loam := ⟨0, 0, c, 0⟩

/-- SIG as a signed integer. -/
def Loam.s (w : Loam) : Int := w.sig.toInt

/-- A finite word of the given significand and exponent, with its residue (R29, R33). -/
def Loam.mk' (sig : Int) (exp : Nat) : Loam :=
  if sig = 0 then Loam.zero
  else ⟨BitVec.ofInt 96 sig, BitVec.ofNat 12 exp, .fin, BitVec.ofNat 8 (resid sig)⟩

/-- The word is finite with a nonzero significand. -/
def Loam.nz (w : Loam) : Bool := decide (w.cls = .fin) && decide (w.sig ≠ 0)

/-- The arrival check of R51: RES equals the residue of SIG, for a finite word. -/
def Loam.resOk (w : Loam) : Bool := decide (w.cls ≠ .fin) || decide (w.res.toNat = resid w.s)

/-- Class of a sum of the present words (Table LM-4). -/
def sumClass (ws : List Loam) : Cls :=
  if ws.any (fun w => decide (w.cls = .nan)) then .nan
  else if ws.any (fun w => decide (w.cls = .posInf)) && ws.any (fun w => decide (w.cls = .negInf)) then .nan
  else if ws.any (fun w => decide (w.cls = .posInf)) then .posInf
  else if ws.any (fun w => decide (w.cls = .negInf)) then .negInf
  else .fin

/-- The alignment target: the largest EXP among the finite nonzero inputs; none when all are zero (R39). -/
def emax : List Loam → Option Nat
  | [] => none
  | w :: ws =>
    match emax ws with
    | none => if w.nz then some w.exp.toNat else none
    | some e => if w.nz then some (max w.exp.toNat e) else some e

/-- The shift of one input, clamped to 96 (R39). -/
def shiftOf (t : Nat) (w : Loam) : Nat := min (t - w.exp.toNat) 96

/-- One input aligned: the floor quotient and whether the discarded part is nonzero (R39, R42). -/
def aligned (t : Nat) (w : Loam) : Int × Nat :=
  if w.nz then (w.s / 2 ^ shiftOf t w, if w.s % 2 ^ shiftOf t w ≠ 0 then 1 else 0) else (0, 0)

/-- The exact sum of the aligned inputs and the number of alignment silt events. -/
def alignSum (t : Nat) : List Loam → Int × Nat
  | [] => (0, 0)
  | w :: ws => ((aligned t w).1 + (alignSum t ws).1, (aligned t w).2 + (alignSum t ws).2)

/-- The sum lies in [−2^95, 2^95 − 1]. -/
def inRange (x : Int) : Bool := decide (-(2 ^ 95) ≤ x) && decide (x ≤ 2 ^ 95 - 1)

/-- The number of renormalisation steps (R40), searched upward from `t`. -/
def renormSteps (acc : Int) : Nat → Nat → Nat
  | 0, t => t
  | n + 1, t => if inRange (acc / 2 ^ t) then t else renormSteps acc n (t + 1)

/-- combine_sum on one lane: the output word and its silt events (R38 to R45). -/
def combineSum (ws : List Loam) : Loam × Nat :=
  let c := sumClass ws
  if c ≠ .fin then (Loam.special c, 0)
  else match emax ws with
    | none => (Loam.zero, 0)
    | some t =>
      let a := alignSum t ws
      let n := renormSteps a.1 8 0
      (Loam.mk' (a.1 / 2 ^ n) (t + n), a.2 + (if a.1 % 2 ^ n ≠ 0 then 1 else 0))

/-- A NaN that this point creates, as against one that it receives (R45, Table LM-4). -/
def nanCreated (ws : List Loam) : Bool :=
  !ws.any (fun w => decide (w.cls = .nan)) && decide (sumClass ws = .nan)

/-- Residue of the low `s` bits (the predictor's separate path). -/
def resLow (x : Int) (s : Nat) : Nat := resid (x % 2 ^ s)

/-- The predicted residue before renormalisation (R50): from the RES each input carries. -/
def predictAlign (t : Nat) : List Loam → Nat
  | [] => 0
  | w :: ws =>
    ((if w.nz then rotr8 ((w.res.toNat + 255 - resLow w.s (shiftOf t w)) % 255) (shiftOf t w % 8) else 0)
      + predictAlign t ws) % 255

/-- The predicted residue of the output of combine_sum (R50). -/
def predictSum (ws : List Loam) : Nat :=
  match emax ws with
  | none => 0
  | some t =>
    let acc := (alignSum t ws).1
    let n := renormSteps acc 8 0
    rotr8 ((predictAlign t ws + 255 - resLow acc n) % 255) (n % 8)

/-! ### MAX, MIN and MAXIDX (R46, R47) -/

/-- −1, 0 or 1 as the value of `a` lies below, at or above that of `b`; neither is NaN. Finite values are
compared exactly: SIG × 2^(EXP − 2117). -/
def cmpFin (a b : Loam) : Int :=
  if a.s = 0 then (-b.s).sign
  else if b.s = 0 then a.s.sign
  else
    let m := min a.exp.toNat b.exp.toNat
    (a.s * 2 ^ (a.exp.toNat - m) - b.s * 2 ^ (b.exp.toNat - m)).sign

def cmpLoam (a b : Loam) : Int :=
  match a.cls, b.cls with
  | .posInf, .posInf => 0
  | .negInf, .negInf => 0
  | .posInf, _ => 1
  | .negInf, _ => -1
  | _, .posInf => -1
  | _, .negInf => 1
  | _, _ => cmpFin a b

/-- The winner among the present words with their indices, in port order. `better a b` holds when `b`, from a
higher port, replaces `a`. -/
def winner (better : Loam × Word → Loam × Word → Bool) : Loam × Word → List (Loam × Word) → Loam × Word
  | b, [] => b
  | b, x :: xs => winner better (if better b x then x else b) xs

/-- MAX, MIN or MAXIDX replace the winner so far: strictly greater or smaller (R46), and for MAXIDX an equal
value with a lower index (R47). -/
def beats (op : Nat) (a b : Loam × Word) : Bool :=
  if op = 3 then decide (cmpLoam b.1 a.1 < 0)
  else if op = 4 then decide (0 < cmpLoam b.1 a.1) || (decide (cmpLoam b.1 a.1 = 0) && decide (b.2.toNat < a.2.toNat))
  else decide (0 < cmpLoam b.1 a.1)

/-- The lowest index among the NaN inputs (R47). -/
def nanIdx : List (Loam × Word) → Word
  | [] => 0xFFFFFFFF#32
  | x :: xs => if x.1.cls = .nan ∧ x.2.toNat ≤ (nanIdx xs).toNat then x.2 else nanIdx xs

/-- The output of MAX (2), MIN (3) or MAXIDX (4) on one lane. -/
def combineCmp (op : Nat) : List (Loam × Word) → Loam × Word
  | [] => (Loam.zero, 0xFFFFFFFF#32)
  | x :: xs =>
    if (x :: xs).any (fun w => decide (w.1.cls = .nan)) then (Loam.special .nan, nanIdx (x :: xs))
    else winner (beats op) x xs

/-- OR (5) or AND (6) of the present payloads (R48). -/
def combineRaw (op : Nat) : List Word → Word
  | [] => 0
  | [x] => x
  | x :: xs => if op = 5 then x ||| combineRaw op xs else x &&& combineRaw op xs

/-! ### The dual trees (R52) -/

/-- What one logic tree of R52 computes for a sum. -/
structure SumTree where
  cls    : Cls
  /-- the target exponent; none when every input is zero -/
  target : Option Nat
  /-- the shift amount of each input, in the tree's own port order -/
  shifts : List Nat
  /-- the steps of the renormalisation -/
  renorm : Nat
  silt   : Nat
  deriving DecidableEq, Repr

/-- One logic tree over the inputs in its port order: class, target, shift amounts of the alignment and of the
renormalisation, and the silt events of both (R39, R40, R42, R52). -/
def sumTree (ws : List Loam) : SumTree :=
  match emax ws with
  | none => ⟨sumClass ws, none, ws.map (fun _ => 0), 0, 0⟩
  | some t =>
    let a := alignSum t ws
    let n := renormSteps a.1 8 0
    ⟨sumClass ws, some t, ws.map (shiftOf t), n, a.2 + (if a.1 % 2 ^ n ≠ 0 then 1 else 0)⟩

/-- The two trees take the ports in opposite orders and agree (R52). -/
def dualSumOk (ws : List Loam) : Bool :=
  let b := sumTree ws.reverse
  decide (sumTree ws = { b with shifts := b.shifts.reverse })

/-- The second tree of a compare starts at the highest port, so an equal value replaces there. -/
def beatsRev (op : Nat) (a b : Loam × Word) : Bool :=
  if op = 3 then decide (cmpLoam b.1 a.1 ≤ 0)
  else if op = 4 then decide (0 < cmpLoam b.1 a.1) || (decide (cmpLoam b.1 a.1 = 0) && decide (b.2.toNat ≤ a.2.toNat))
  else decide (0 ≤ cmpLoam b.1 a.1)

def combineCmpRev (op : Nat) : List (Loam × Word) → Loam × Word
  | [] => (Loam.zero, 0xFFFFFFFF#32)
  | x :: xs =>
    if (x :: xs).any (fun w => decide (w.1.cls = .nan)) then (Loam.special .nan, nanIdx (x :: xs))
    else winner (beatsRev op) x xs

def dualCmpOk (op : Nat) (ws : List (Loam × Word)) : Bool :=
  decide (combineCmp op ws = combineCmpRev op ws.reverse)

/-! ### One lane at a combining point -/

/-- What a combining point finds on one lane. -/
structure LaneOut where
  out     : Lane
  idx     : Word
  silt    : Nat
  created : Bool
  resOk   : Bool
  dualOk  : Bool
  deriving DecidableEq, Repr

def Lane.loam? : Lane → Option Loam
  | .word w => some w
  | _ => none

def Lane.raw? : Lane → Option Word
  | .raw p => some p
  | _ => none

/-- Combine one lane. `op` is the opcode; `ins` are the lanes of the input ports in port order with their
indices; absent lanes take no part (R38). -/
def combineLane (op : Nat) (ins : List (Lane × Word)) : LaneOut :=
  if op = 5 ∨ op = 6 then
    let ps := ins.filterMap (fun x => x.1.raw?)
    if ps = [] then ⟨.absent, 0xFFFFFFFF#32, 0, false, true, true⟩
    else ⟨.raw (combineRaw op ps), 0xFFFFFFFF#32, 0, false, true, decide (combineRaw op ps = combineRaw op ps.reverse)⟩
  else
    let ws := ins.filterMap (fun x => x.1.loam?.map (fun w => (w, x.2)))
    let ls := ws.map (fun x => x.1)
    let arr := ls.all Loam.resOk
    if ws = [] then ⟨.absent, 0xFFFFFFFF#32, 0, false, true, true⟩
    else if op = 0 ∨ op = 1 then
      let r := combineSum ls
      ⟨.word r.1, 0xFFFFFFFF#32, r.2, nanCreated ls,
        arr && (decide (r.1.cls ≠ .fin) || decide (predictSum ls = resid r.1.s)), dualSumOk ls⟩
    else
      let r := combineCmp op ws
      ⟨.word r.1, r.2, 0, false, arr && r.1.resOk, dualCmpOk op ws⟩

end Sys2Proof.Machine
end

