-- ==== Sys2Proof/Machine/Formats.lean ====
section
/-! DEFINITION. Number formats (spec/03): element decoding and widening at a leaf, wale images, the conversion at
the slath, rounding, overflow and output silt. -/

namespace Sys2Proof.Machine

/-! ### Format codes (R56, Table FM-1, Table FM-3) -/

/-- The format is one of the six MX formats. -/
def fmtMx (f : Nat) : Bool := decide (3 ≤ f) && decide (f ≤ 8)

/-- Element width in bits; 0 for a reserved code. -/
def fmtBits : Nat → Nat
  | 0 => 32 | 1 => 16 | 2 => 16 | 3 => 8 | 4 => 8 | 5 => 6 | 6 => 6 | 7 => 4 | 8 => 8 | 9 => 32
  | _ => 0

/-- Image size in 64-byte beats (Table FM-5). -/
def fmtBeats (f : Nat) : Nat := if f = 0 ∨ f = 9 then 2 else 1

/-- Mantissa bits of a floating format. -/
def fmtMan : Nat → Nat
  | 0 => 23 | 1 => 10 | 2 => 7 | 3 => 3 | 4 => 2 | 5 => 3 | 6 => 2 | 7 => 1 | _ => 0

/-- Exponent bits of a floating format. -/
def fmtExpB : Nat → Nat
  | 0 => 8 | 1 => 5 | 2 => 8 | 3 => 4 | 4 => 5 | 5 => 2 | 6 => 3 | 7 => 2 | _ => 0

def fmtBias : Nat → Nat
  | 0 => 127 | 1 => 15 | 2 => 127 | 3 => 7 | 4 => 15 | 5 => 1 | 6 => 3 | 7 => 1 | _ => 0

/-- emax of Table FM-3. -/
def fmtEmax : Nat → Nat
  | 0 => 127 | 1 => 15 | 2 => 127 | 3 => 8 | 4 => 15 | 5 => 2 | 6 => 4 | 7 => 2 | _ => 0

/-- Magnitude code of the largest finite element (Tables FM-3 and FM-8). -/
def fmtMax : Nat → Nat
  | 0 => 0x7F7FFFFF | 1 => 0x7BFF | 2 => 0x7F7F | 3 => 0x7E | 4 => 0x7B | 5 => 0x1F | 6 => 0x1F | 7 => 7 | 8 => 0x7F
  | _ => 0

/-- Magnitude code of +inf, for the formats that have one (Table FM-4). -/
def fmtInf : Nat → Option Nat
  | 0 => some 0x7F800000 | 1 => some 0x7C00 | 2 => some 0x7F80 | 4 => some 0x7C | _ => none

/-- The NaN code that the block writes (Table FM-9); none where the whole block is marked. -/
def fmtNan : Nat → Option Nat
  | 0 => some 0x7FC00000 | 1 => some 0x7E00 | 2 => some 0x7FC0 | 3 => some 0x7F | 4 => some 0x7F | _ => none

/-- Legal input formats by opcode (Table FM-2); opcode 7 is a broadcast without a reduction. -/
def fmtInLegal (op f : Nat) : Bool :=
  if op = 0 ∨ op = 2 then decide (f ≤ 8)
  else if op = 1 then decide (f ≤ 2)
  else if op = 3 ∨ op = 4 then decide (f ≤ 8) && decide (f ≠ 2)
  else if op = 5 ∨ op = 6 then decide (f = 9)
  else decide (f ≤ 9)

/-- Legal input and output formats together (R57). -/
def fmtLegal (op fin fout : Nat) : Bool :=
  fmtInLegal op fin &&
    (if op = 5 ∨ op = 6 then decide (fout = 9) else if op = 7 then decide (fout = fin) else decide (fout ≤ 8))

/-! ### Decoding (R58 to R61) -/

/-- A decoded element: class, sign, significand `m` of width `p`, and the unbiased exponent of its leading
position. An MXINT8 element has its signed value in `k` and `p = 0`. -/
structure Elem where
  cls : Cls
  neg : Bool
  m   : Nat
  p   : Nat
  e   : Int
  k   : Int
  deriving DecidableEq, Repr

/-- The class of a floating code (Table FM-4). -/
def elemCls (f mag : Nat) (neg : Bool) : Cls :=
  match fmtInf f with
  | some i => if mag = i then (if neg then .negInf else .posInf) else if i < mag then .nan else .fin
  | none => if f = 3 ∧ mag = 0x7F then .nan else .fin

/-- Decode one element; `scale` is the E8M0 code of an MX block. BF16 is read as FP32 with 16 zero bits (R61). -/
def decodeElem (f0 scale code0 : Nat) : Elem :=
  let f := if f0 = 2 then 0 else f0
  let code := if f0 = 2 then code0 * 65536 else code0
  if fmtMx f && scale = 0xFF then ⟨.nan, false, 0, 0, 0, 0⟩
  else if f = 8 then
    ⟨.fin, decide (128 ≤ code), 0, 0, Int.ofNat scale - 127, if 128 ≤ code then Int.ofNat code - 256 else Int.ofNat code⟩
  else
    let man := fmtMan f
    let mag := code % 2 ^ (man + fmtExpB f)
    let neg := code.testBit (man + fmtExpB f)
    let eb := mag / 2 ^ man
    let fr := mag % 2 ^ man
    let sc : Int := if fmtMx f then Int.ofNat scale - 127 else 0
    let c := elemCls f mag neg
    if c ≠ .fin then ⟨c, neg, 0, man + 1, 0, 0⟩
    else if eb = 0 then ⟨.fin, neg, fr, man + 1, 1 - Int.ofNat (fmtBias f) + sc, 0⟩
    else ⟨.fin, neg, 2 ^ man + fr, man + 1, Int.ofNat eb - Int.ofNat (fmtBias f) + sc, 0⟩

/-- The element is a finite zero. -/
def Elem.isZero (x : Elem) : Bool := decide (x.cls = .fin) && decide (x.m = 0) && decide (x.k = 0)

/-- Placement of a floating significand, with the residue formed on the separate path of R36. -/
def place (m shift : Nat) (neg : Bool) (exp : Int) (r : Nat) : Loam × Bool :=
  let sig : Int := if neg then -Int.ofNat (m * 2 ^ shift) else Int.ofNat (m * 2 ^ shift)
  let rr := rotl8 r (shift % 8) % 255
  let pr := if neg then (255 - rr) % 255 else rr
  (Loam.mk' sig exp.toNat, decide (m = 0) || decide (pr = resid sig))

/-- Widening of one element (R34, R36): the loam word and whether its residue check passes. -/
def widen (f : Nat) (x : Elem) : Loam × Bool :=
  if x.cls ≠ .fin then (Loam.special x.cls, true)
  else if f = 8 then (Loam.mk' (x.k * 2 ^ 64) (x.e + 2047).toNat, decide (resid x.k = resid (x.k * 2 ^ 64)))
  else place x.m (71 - x.p) x.neg (x.e + 2047) (x.m % 255)

/-- A WSUM product (R35, R65, Table FM-6): the word, whether a NaN was created here, and its residue check. -/
def weigh (g d : Elem) : Loam × Bool × Bool :=
  let neg := g.neg != d.neg
  if g.cls = .nan ∨ d.cls = .nan then (Loam.special .nan, false, true)
  else if (g.isZero && decide (d.cls ≠ .fin)) || (decide (g.cls ≠ .fin) && d.isZero) then
    (Loam.special .nan, true, true)
  else if g.cls ≠ .fin ∨ d.cls ≠ .fin then (Loam.special (if neg then .negInf else .posInf), false, true)
  else
    let w := place (g.m * d.m) (72 - g.p - d.p) neg (g.e + d.e + 2047) ((g.m % 255) * (d.m % 255) % 255)
    (w.1, false, w.2)

/-! ### Wale images (R63, Table FM-5) -/

/-- The 32 element codes of an image. -/
def imageCodes (f : Nat) (img : List Byte) : List Nat :=
  let v := ofLe img
  (List.range 32).map (fun i => fld v (fmtBits f * i + fmtBits f - 1) (fmtBits f * i))

/-- The scale code of an MX image: byte 32. -/
def imageScale (f : Nat) (img : List Byte) : Nat := if fmtMx f then (byteAt img 32).toNat else 127

/-- Packed field of element codes, lane 0 lowest. -/
def packCodes (bits : Nat) : List Nat → Nat
  | [] => 0
  | c :: cs => c % 2 ^ bits + 2 ^ bits * packCodes bits cs

/-- The image of element codes and a scale; reserved bytes are 0. -/
def mkImage (f : Nat) (codes : List Nat) (scale : Nat) : List Byte :=
  if fmtMx f then padTo 32 (toLe (4 * fmtBits f) (packCodes (fmtBits f) codes)) ++ padTo 32 [BitVec.ofNat 8 scale]
  else toLe (4 * fmtBits f) (packCodes (fmtBits f) codes)

/-- The image with the padding lanes of the last wale at code 0 (R62); `n` lanes are not padding. -/
def padImage (f n : Nat) (img : List Byte) : List Byte :=
  mkImage f ((imageCodes f img).zipIdx.map (fun x => if x.2 < n then x.1 else 0)) (imageScale f img)

/-! ### Exact values and the conversion (R66 to R69) -/

/-- An exact dyadic value n × 2^e. -/
structure Dy where
  n : Int
  e : Int
  deriving DecidableEq, Repr

def Dy.zero : Dy := ⟨0, 0⟩

/-- Exact sum. -/
def Dy.add (a b : Dy) : Dy :=
  if a.n = 0 then b else if b.n = 0 then a
  else
    let m := min a.e b.e
    ⟨a.n * 2 ^ (a.e - m).toNat + b.n * 2 ^ (b.e - m).toNat, m⟩

/-- floor(log2 |y|) of a nonzero value. -/
def Dy.lg (y : Dy) : Int := Int.ofNat (flog2 y.n.natAbs) + y.e

/-- |a| < |b| for exact values. -/
def Dy.absLt (a b : Dy) : Bool :=
  if b.n = 0 then false else if a.n = 0 then true
  else
    let m := min a.e b.e
    decide (a.n.natAbs * 2 ^ (a.e - m).toNat < b.n.natAbs * 2 ^ (b.e - m).toNat)

/-- The exact value of a finite loam word (R30). -/
def Loam.value (w : Loam) : Dy := ⟨w.s, Int.ofNat w.exp.toNat - 2117⟩

/-- The exact value of a finite FP32 code. -/
def fp32Value (c : Word) : Dy :=
  let x := decodeElem 0 0 c.toNat
  ⟨if x.neg then -Int.ofNat x.m else Int.ofNat x.m, x.e - 23⟩

/-- An FP32 code is finite. -/
def fp32Finite (c : Word) : Bool := decide ((decodeElem 0 0 c.toNat).cls = .fin)

/-- An FP32 code is finite and not zero (R68). -/
def fp32Nonzero (c : Word) : Bool := fp32Finite c && !(decodeElem 0 0 c.toNat).isZero

/-- Result class of the conversion with its exact value. -/
structure Conv where
  cls : Cls
  y   : Dy
  deriving DecidableEq, Repr

/-- Keep the top 64 bits of a positive integer: the integer and the exponent it is scaled by. -/
def top64 (m : Nat) : Nat × Int :=
  let l := flog2 m
  (if 63 ≤ l then m / 2 ^ (l - 63) else m * 2 ^ (63 - l), Int.ofNat l - 63)

/-- convert_sum without step 4 (R66, R67). -/
def convertSum (w : Loam) (scale bias : Word) : Conv :=
  let sneg := scale.getLsbD 31
  match w.cls with
  | .nan => ⟨.nan, Dy.zero⟩
  | .posInf => ⟨if sneg then .negInf else .posInf, Dy.zero⟩
  | .negInf => ⟨if sneg then .posInf else .negInf, Dy.zero⟩
  | .fin =>
    if w.s = 0 then ⟨.fin, fp32Value bias⟩
    else
      let n := top64 w.s.natAbs
      let f := fp32Value scale
      let t := top64 (n.1 * f.n.natAbs)
      let neg := decide (w.s < 0) != sneg
      let p : Dy := ⟨if neg then -Int.ofNat t.1 else Int.ofNat t.1, t.2 + n.2 + Int.ofNat w.exp.toNat - 2117 + f.e⟩
      ⟨.fin, p.add (fp32Value bias)⟩

/-- The winning word of MAX, MIN or MAXIDX: its exact value (R66). -/
def convertCmp (w : Loam) : Conv := ⟨w.cls, if w.cls = .fin then w.value else Dy.zero⟩

/-! ### Rounding and encoding (R70 to R78) -/

/-- |y| / 2^q rounded to an integer, ties to even (R70). -/
def roundInt (y : Dy) (q : Int) : Nat :=
  if q ≤ y.e then y.n.natAbs * 2 ^ (y.e - q).toNat
  else
    let k := (q - y.e).toNat
    let a := y.n.natAbs / 2 ^ k
    let r := y.n.natAbs % 2 ^ k
    if 2 * r < 2 ^ k then a else if 2 ^ k < 2 * r then a + 1 else a + a % 2

/-- Magnitude code of a finite value in a floating format with unbounded exponent: the code exceeds the largest
finite code exactly when the rounded magnitude exceeds the largest finite value. -/
def roundCode (f : Nat) (y : Dy) : Nat :=
  if y.n = 0 then 0
  else
    let man := fmtMan f
    let lo : Int := 1 - Int.ofNat (fmtBias f)
    let ex := max y.lg lo
    let r := roundInt y (ex - Int.ofNat man)
    (ex - lo).toNat * 2 ^ man + r

/-- A magnitude code with its sign; zero is always +0 (R72). -/
def signCode (f mag : Nat) (neg : Bool) : Nat :=
  if mag = 0 then 0
  else if f = 8 then (if neg then 256 - mag else mag)
  else if neg then mag + 2 ^ (fmtBits f - 1) else mag

/-- The code of an infinite class, or of an overflow, by overflow mode (Table FM-8). -/
def infCode (f : Nat) (ovfInf neg : Bool) : Nat :=
  match ovfInf, fmtInf f with
  | true, some i => signCode f i neg
  | _, _ => signCode f (fmtMax f) neg

/-- Encode one lane in a format without blocks: the code and whether it is an output-silt event (R77). -/
def encodeLane (f : Nat) (ovfInf : Bool) (c : Conv) : Nat × Bool :=
  match c.cls with
  | .nan => ((fmtNan f).getD 0, false)
  | .posInf => (infCode f ovfInf false, false)
  | .negInf => (infCode f ovfInf true, false)
  | .fin =>
    let mag := roundCode f c.y
    let neg := decide (c.y.n < 0)
    if fmtMax f < mag then (infCode f ovfInf neg, false)
    else (signCode f mag neg, decide (mag = 0) && decide (c.y.n ≠ 0))

/-- The largest |y| among the finite lanes. -/
def maxAbs : List Conv → Dy
  | [] => Dy.zero
  | c :: cs => if c.cls = .fin ∧ (maxAbs cs).absLt c.y then c.y else maxAbs cs

/-- The block scale x of encode_mx (R73). -/
def mxScale (f : Nat) (lanes : List Conv) : Int :=
  let m := maxAbs lanes
  if m.n = 0 then -127 else min (max (m.lg - Int.ofNat (fmtEmax f)) (-127)) 127

/-- Encode one lane of an MX block with scale `x`. An E5M2 lane above the largest magnitude under INF is infinite when x is 127: R74's
sentence speaks of a scale clamped at 127, encode_mx tests x alone (DESIGN CHOICE, log entry 96). -/
def encodeMxLane (f : Nat) (ovfInf : Bool) (x : Int) (c : Conv) : Nat × Bool :=
  match c.cls with
  | .nan => ((fmtNan f).getD 0, false)
  | .posInf => (infCode f ovfInf false, false)
  | .negInf => (infCode f ovfInf true, false)
  | .fin =>
    let y : Dy := ⟨c.y.n, c.y.e - x⟩
    let mag := if f = 8 then roundInt y (-6) else roundCode f y
    let neg := decide (y.n < 0)
    if fmtMax f < mag then (infCode f (ovfInf && decide (f = 4) && decide (x = 127)) neg, false)
    else (signCode f mag neg, decide (mag = 0) && decide (y.n ≠ 0))

/-- Encode one output wale: `n` lanes are not padding. The image and its output-silt events (R66, R73 to R78). -/
def encodeWale (f n : Nat) (ovfInf : Bool) (lanes : List Conv) : List Byte × Nat :=
  let live := lanes.take n
  if fmtMx f then
    if (fmtNan f).isNone && live.any (fun c => decide (c.cls = .nan)) then (mkImage f [] 0xFF, 0)
    else
      let x := mxScale f live
      let r := live.map (encodeMxLane f ovfInf x)
      (mkImage f (r.map (fun z => z.1)) (x + 127).toNat, (r.filter (fun z => z.2)).length)
  else
    let r := live.map (encodeLane f ovfInf)
    (mkImage f (r.map (fun z => z.1) ++ List.replicate (32 - r.length) 0) 0, (r.filter (fun z => z.2)).length)

end Sys2Proof.Machine
end

