-- ==== Sys2Proof/Machine/Operands.lean ====
section
/-! DEFINITION. Operand forms: the fields of a fused issue (Table CO-1), of EXT (Table EX-2), the agreement masks (R90) and the canonical descriptor (R353). -/

namespace Sys2Proof.Machine

/-! ### The fused issue (Table CO-1) -/

def isGroup (ws : List Word) : BitVec 12 := BitVec.ofNat 12 (wf_ (wd ws 0) 11 0)
def isOp (ws : List Word) : Nat := wf_ (wd ws 0) 15 12
def isIn (ws : List Word) : Nat := wf_ (wd ws 0) 19 16
def isOut (ws : List Word) : Nat := wf_ (wd ws 0) 23 20
def isEcho (ws : List Word) : Bool := wbit (wd ws 0) 24
def isOvf (ws : List Word) : Bool := wbit (wd ws 0) 25
def isNote (ws : List Word) : Bool := wbit (wd ws 0) 26
def isStep (ws : List Word) : Bool := wbit (wd ws 0) 27
def isLaunch (ws : List Word) : Bool := wbit (wd ws 0) 28
def isIdxMode (ws : List Word) : Bool := wbit (wd ws 0) 29
def isExch (ws : List Word) : Bool := wbit (wd ws 0) 30
/-- Elements: COUNT_M1 + 1. -/
def isCount (ws : List Word) : Nat := (wd ws 1).toNat + 1
def isRootDie (ws : List Word) : Nat := wf_ (wd ws 2) 15 0
def isRootCp (ws : List Word) : Nat := wf_ (wd ws 2) 25 16
def isDest (ws : List Word) : Nat := wf_ (wd ws 2) 27 26
def isGateFmt (ws : List Word) : Nat := wf_ (wd ws 2) 31 28
def isSrc (ws : List Word) : Nat := wf_ (wd ws 3) 1 0
def isSrcCh (ws : List Word) : Nat := wf_ (wd ws 3) 7 2
def isRxSink (ws : List Word) : Bool := wbit (wd ws 3) 8
def isRxCh (ws : List Word) : Nat := wf_ (wd ws 3) 14 9
def isScale (ws : List Word) : Word := wd ws 4
def isBias (ws : List Word) : Word := wd ws 5
def isGate (ws : List Word) : Word := wd ws 6
def isIdxBase (ws : List Word) : Word := wd ws 7
/-- Two consecutive words as 64 bits, the lower word first. -/
def pair64 (ws : List Word) (i : Nat) : BitVec 64 := (wd ws (i + 1)) ++ (wd ws i)
def isStepV (ws : List Word) : BitVec 64 := pair64 ws 8
def isTag (ws : List Word) : BitVec 64 := pair64 ws 10
def isLaunchT (ws : List Word) : BitVec 64 := pair64 ws 12
def isPblock (ws : List Word) : Nat := wf_ (wd ws 14) 23 0
def isGrain (ws : List Word) : Bool := wbit (wd ws 14) 24
/-- C of EXT (Table EX-2). -/
def isC (ws : List Word) : Nat := wf_ (wd ws 15) 11 0 + 1
def isK (ws : List Word) : Nat := wf_ (wd ws 15) 15 12
def isTmax (ws : List Word) : Nat := wf_ (wd ws 15) 28 16 + 1
def isWgt (ws : List Word) : Bool := wbit (wd ws 15) 29

/-- Wales of one stream of COUNT elements: W, or TW of a routed operation (R122). -/
def isWales (ws : List Word) : Nat := cdiv (isCount ws) 32

/-- Lanes of wale `j` that are not padding (R62). -/
def isLanes (ws : List Word) (j : Nat) : Nat := min 32 (isCount ws - 32 * j)

/-- Result wales of the collective: twice the value wales for MAXIDX (R98). -/
def isResWales (ws : List Word) : Nat := if isOp ws = 4 then 2 * isWales ws else isWales ws

/-- The opcode is a reduction. -/
def isRed (ws : List Word) : Bool := decide (isOp ws ≤ 6)

/-- Combining is arithmetic on loam words. -/
def isArith (ws : List Word) : Bool := decide (isOp ws ≤ 4)

/-- Masks of the agreement fields, word by word (Table CO-1). -/
def agreeMask : List Word :=
  [0x7FFFFFFF, 0xFFFFFFFF, 0xFFFFFFFF, 0, 0xFFFFFFFF, 0xFFFFFFFF, 0, 0, 0, 0, 0xFFFFFFFF, 0xFFFFFFFF, 0xFFFFFFFF,
    0xFFFFFFFF, 0x01FFFFFF, 0x3FFFFFFF]

/-- AWORDS: the words with every field outside the agreement set to 0 (R90, Table SK-15). -/
def awords (ws : List Word) : List Word := List.zipWith (fun m w => m &&& w) agreeMask ws

/-- Masks of the canonical descriptor (R353). -/
def canonMask : List Word :=
  [0x6FFFFFFF, 0xFFFFFFFF, 0xFC000000, 0, 0xFFFFFFFF, 0xFFFFFFFF, 0, 0, 0, 0, 0, 0, 0, 0, 0x01FFFFFF, 0x3FFFFFFF]

/-- The canonical descriptor as 64 bytes. -/
def canonical (ws : List Word) : List Byte := wordsBytes (List.zipWith (fun m w => m &&& w) canonMask ws)

/-- Every word equals the complement of its partner (R17). -/
def complOk (ws cs : List Word) : Bool := decide (cs = compl ws)

/-- Word `i` equals the complement of its partner. -/
def wordOk (ws cs : List Word) (i : Nat) : Bool := decide (wd cs i = ~~~(wd ws i))

/-- LEAF_ID bytes of R355. -/
def leafId (die cp : Nat) : List Byte := toLe 2 die ++ toLe 2 (cp % 1024)

/-! ### Trap record words (Table FM-10) -/

/-- The four words of a candidate or record. -/
def candWords (g : BitVec 12) (k : Word) (c : Cand) : List Word :=
  [k, BitVec.ofNat 32 (g.toNat + c.lane.toNat * 2 ^ 12 + b1 c.created * 2 ^ 17 + c.site.toNat * 2 ^ 18
      + c.unit.toNat * 2 ^ 20 + 2 ^ 31), c.wale, BitVec.ofNat 32 c.srcDie.toNat]

/-- The candidate in four words; none when VALID is 0. -/
def wordsCand (ws : List Word) (j : Nat) : Option Cand :=
  let w := wd ws 1
  if wbit w 31 then
    some ⟨wd ws 2, BitVec.ofNat 5 (wf_ w 16 12), BitVec.ofNat 16 (wf_ (wd ws 3) 15 0), BitVec.ofNat 2 (wf_ w 19 18),
      BitVec.ofNat 10 (wf_ w 29 20), wbit w 17, j⟩
  else none

/-- The key order of R80 with the tie of R139: `a` precedes `b`. -/
def candLt (a b : Cand) : Bool :=
  let key (c : Cand) : Nat := ((((c.wale.toNat * 32 + c.lane.toNat) * 65536 + c.srcDie.toNat) * 4 + c.site.toNat) * 1024
    + c.unit.toNat) * 16 + min c.j 15
  decide (key a < key b)

/-- The smaller of two candidates, where there are any. -/
def candMin : Option Cand → Option Cand → Option Cand
  | none, b => b
  | a, none => a
  | some a, some b => if candLt b a then some b else some a

end Sys2Proof.Machine
end

