-- ==== Sys2Proof/Machine/Tree.lean ====
section
/-! DEFINITION. The combining tree and the stage hierarchy (spec/06): node positions and member ports, group die
sets, stage points and standing points, and the route tables. -/

namespace Sys2Proof.Machine

/-- Bits set in the low `n` bits of a number, as a list of positions in ascending order. -/
def bitsOf (n v : Nat) : List Nat := (List.range n).filter (fun i => v.testBit i)

/-- How many of the low `n` bits are set. -/
def popN (n v : Nat) : Nat := (bitsOf n v).length

/-! ### The on-die tree (R149, R150, R151) -/

/-- Radix of level `l`, from 1. -/
def Cfg.r (c : Cfg) (l : Nat) : Nat := c.radix.getD (l - 1) 1

/-- Leaves below one node of level `l`: r_1 × … × r_l. -/
def Cfg.spanOf (c : Cfg) (l : Nat) : Nat := (c.radix.take l).foldl (fun a b => a * b) 1

/-- Π. -/
def Cfg.prod (c : Cfg) : Nat := c.spanOf c.nl

/-- B_l: the node index of node 0 of level `l`. -/
def Cfg.base (c : Cfg) : Nat → Nat
  | 0 => 0
  | 1 => 0
  | l + 2 => c.base (l + 1) + c.prod / c.spanOf (l + 1)

/-- The node index of the slath. -/
def Cfg.slath (c : Cfg) : Nat := c.base c.nl

/-- Level of a node index, searched upward. -/
def Cfg.levelOf (c : Cfg) (idx : Nat) : Nat → Nat → Nat
  | 0, l => l
  | n + 1, l => if idx < c.base (l + 1) then l else c.levelOf idx n (l + 1)

/-- Level and position of a node index. -/
def Cfg.nodePos (c : Cfg) (idx : Nat) : Nat × Nat :=
  let l := c.levelOf idx (c.nl - 1) 1
  (l, idx - c.base l)

/-- The member core ports of `g` that are enabled leaves on this die, as a bit mask. -/
def State.memMask (s : State) (g : BitVec 12) : Nat :=
  if (s.group g).v then ((s.group g).bitmap &&& s.img.cfg.leaves).toNat else 0

/-- Member core ports of this die in ascending order. -/
def State.localMems (s : State) (g : BitVec 12) : List Nat := bitsOf 1024 (s.memMask g)

/-- Member ports of node (l, j) for the member mask `m` (R151). -/
def Cfg.memPorts (c : Cfg) (m l j : Nat) : List Nat :=
  let sp := c.spanOf (l - 1)
  (List.range (c.r l)).filter (fun p => decide ((m >>> ((j * c.r l + p) * sp)) % 2 ^ sp ≠ 0))

/-- The node and port that position `j` of level `l` feeds; level 0 is the leaves. -/
def Cfg.parent (c : Cfg) (l j : Nat) : Nat × Nat := (j / c.r (l + 1), j % c.r (l + 1))

/-! ### Levels, units and group die sets (R154 to R156) -/

/-- Lowest DIE_ID bit of the sub-unit field of level `i`, which is also the width of a level-(i − 1) unit. -/
def fieldLo : Nat → Nat
  | 0 => 0 | 1 => 0 | 2 => 3 | 3 => 7 | 4 => 11 | _ => 16

/-- Largest fan-in of level `i`. -/
def fieldN : Nat → Nat
  | 1 => 8 | 2 => 16 | 3 => 16 | 4 => 32 | _ => 1

/-- The sub-unit field of level `i` in a DIE_ID. -/
def subField (i d : Nat) : Nat := (d >>> fieldLo i) % fieldN i

/-- The level-`i` unit that holds die `d`, named by its lowest DIE_ID. -/
def unitOf (i d : Nat) : Nat := (d >>> fieldLo (i + 1)) <<< fieldLo (i + 1)

/-- The mask of the sub-unit field of level `i` (R156). -/
def Group.mask (g : Group) : Nat → Nat
  | 1 => g.dies.toNat | 2 => g.pkgs.toNat | 3 => g.trays.toNat | 4 => g.racks.toNat | _ => 0

/-- Level `i` is active (R156). -/
def Group.active (g : Group) (i : Nat) : Bool := decide (2 ≤ popN 32 (g.mask i))

/-- The unit of level `i` holds member dies of `g`. -/
def Group.memUnit (g : Group) (i d : Nat) : Bool :=
  [1, 2, 3, 4].all (fun l => decide (l ≤ i) || (g.mask l).testBit (subField l d))

/-- The die is a member die (R155). -/
def Group.memDie (g : Group) (d : Nat) : Bool := g.v && g.memUnit 0 d

/-- Lowest position set in a mask. -/
def lowBit (m : Nat) : Nat := (bitsOf 32 m).headD 0

/-- The home member's die: the member die of the lowest DIE_ID (R86). -/
def Group.home (g : Group) : Nat :=
  lowBit (g.mask 1) + (lowBit (g.mask 2)) * 8 + (lowBit (g.mask 3)) * 128 + (lowBit (g.mask 4)) * 2048

/-- Member sub-units of unit `u` of level `i`: field value and name. -/
def Group.subs (g : Group) (i u : Nat) : List (Nat × Nat) :=
  (bitsOf 32 (g.mask i)).map (fun f => (f, u + f * 2 ^ fieldLo i))

/-- Every member die, in ascending DIE_ID. -/
def Group.dieList (g : Group) : List Nat :=
  (bitsOf 32 (g.mask 4)).flatMap (fun r => (bitsOf 32 (g.mask 3)).flatMap (fun t =>
    (bitsOf 32 (g.mask 2)).flatMap (fun p => (bitsOf 32 (g.mask 1)).map (fun d => r * 2048 + t * 128 + p * 8 + d))))

/-- The port is a member core port of `g` on this die (R85). -/
def State.isMember (s : State) (g : BitVec 12) (cp : Nat) : Bool :=
  (s.group g).memDie s.own && (s.memMask g).testBit cp

/-- Member core ports on any member die, as a bit mask (log entry 8 for other dies). -/
def State.memMaskAt (s : State) (g : BitVec 12) (d : Nat) : Nat :=
  if d = s.own then s.memMask g else (Config.memberBitmap s.img.digest g.toNat d).toNat

/-- N: members of the group. -/
def State.members (s : State) (g : BitVec 12) : Nat :=
  (((s.group g).dieList.map (fun d => popN 1024 (s.memMaskAt g d)))).foldl (fun a b => a + b) 0

/-- Exchange rank of a member (R127). -/
def State.rank (s : State) (g : BitVec 12) (d cp : Nat) : Nat :=
  ((((s.group g).dieList.filter (fun x => decide (x < d))).map (fun x => popN 1024 (s.memMaskAt g x)))).foldl
    (fun a b => a + b) 0 + popN cp (s.memMaskAt g d)

/-- (die, cp) is a member of `g`. -/
def State.memberAt (s : State) (g : BitVec 12) (d cp : Nat) : Bool :=
  (s.group g).memDie d && (s.memMaskAt g d).testBit cp

/-! ### Route tables (R163, R165) -/

/-- First entry of the level-`i` table among the 72 entries. -/
def routeBase : Nat → Nat
  | 1 => 0 | 2 => 8 | 3 => 24 | 4 => 40 | _ => 72

/-- Entry `f` of the level-`i` table. -/
def Cfg.route (c : Cfg) (i f : Nat) : Word := wd c.routes (routeBase i + f)

/-- What route_next returns. -/
inductive Hop where
  | local_
  | fault
  | stake (n : Nat)
  deriving DecidableEq, Repr

/-- route_next (R165). -/
def State.routeNext (s : State) (dest : Nat) : Hop :=
  if dest = s.own then .local_
  else
    let i := if subField 4 dest ≠ subField 4 s.own then 4
      else if subField 3 dest ≠ subField 3 s.own then 3
      else if subField 2 dest ≠ subField 2 s.own then 2 else 1
    let e := s.img.cfg.route i (subField i dest)
    if wbit e 4 then .stake (wf_ e 3 0) else .fault

/-- The gateway of unit `u` of level `i` (R163): the entry for `u` in the level-(i + 1) table of the dies of `u`'s own
level-(i + 1) unit. This die holds that table for its own unit; the tables of another unit give a free value (log
entry 9). -/
def State.gateway (s : State) (i u : Nat) : Nat :=
  let lo := if unitOf (i + 1) s.own = unitOf (i + 1) u then wf_ (s.img.cfg.route (i + 1) (subField (i + 1) u)) 26 16
    else Config.gatewayLo s.img.digest i u
  u + lo % 2 ^ fieldLo (i + 1)

/-! ### Stage points and standing points (R158, R159) -/

/-- stage_point of the level-`i` unit `u` for root die `rd`. -/
def State.stagePoint (s : State) (i u rd : Nat) : Nat :=
  if unitOf i rd = u then rd else if 4 ≤ i then rd else s.gateway i u

/-- standing point of the level-`i` unit `u` for root die `rd`. -/
def State.standing (s : State) (g : Group) (rd : Nat) : Nat → Nat → Nat
  | 0, u => u
  | i + 1, u =>
    if g.active (i + 1) then s.stagePoint (i + 1) u rd
    else s.standing g rd i (u + lowBit (g.mask (i + 1)) * 2 ^ fieldLo (i + 1))

/-- This die is the stage point of its own level-`i` unit for that root. -/
def State.stageHere (s : State) (g : Group) (rd i : Nat) : Bool :=
  g.active i && g.memUnit i s.own && decide (s.stagePoint i (unitOf i s.own) rd = s.own)

/-- Levels at which this die combines, ascending. -/
def State.stages (s : State) (g : Group) (rd : Nat) : List Nat := [1, 2, 3, 4].filter (s.stageHere g rd)

/-- The next active level above `i`. -/
def Group.nextLevel (g : Group) (i : Nat) : Option Nat := [1, 2, 3, 4].find? (fun l => decide (i < l) && g.active l)

/-- Where the partial that stands at this die after level `i` goes next. -/
inductive Next where
  /-- into the level-`l` combine of this die, at the port of field `f` -/
  | here (l f : Nat)
  /-- across stakes to another die, for its level-`l` combine, from sub-unit field `f` -/
  | away (l f dest : Nat)
  /-- nowhere: this die is the root die and the tree ends here -/
  | top
  deriving DecidableEq, Repr

/-- R153, R159: what follows level `i` at this die. -/
def State.nextStage (s : State) (g : Group) (rd i : Nat) : Next :=
  match g.nextLevel i with
  | none => .top
  | some l =>
    let d := s.stagePoint l (unitOf l s.own) rd
    if d = s.own then .here l (subField l s.own) else .away l (subField l s.own) d

/-- A chain of combining points of one embedded tree that follow one another on this die (R159): its levels, 0 for the
die's own on-die tree, and where its result goes. Its name is the level of the stage that it feeds, 5 at the root. A die
that is the stage point of two levels while another die stands between them has two chains. -/
structure Chain where
  id     : Nat
  levels : List Nat
  out    : Next
  deriving DecidableEq, Repr

/-- The chain holds the die's own members. -/
def Chain.mem (c : Chain) : Bool := c.levels.contains 0

/-- Cut this die's levels into chains; `acc` holds the levels of the chain so far. -/
def State.chainsFrom (s : State) (g : Group) (rd : Nat) : List Nat → List Nat → List Chain
  | _, [] => []
  | acc, l :: ls =>
    match s.nextStage g rd l with
    | .here _ _ => s.chainsFrom g rd (acc ++ [l]) ls
    | .away l' f d => ⟨l', acc ++ [l], .away l' f d⟩ :: s.chainsFrom g rd [] ls
    | .top => ⟨5, acc ++ [l], .top⟩ :: s.chainsFrom g rd [] ls

/-- This die's chains in the tree of root die `rd`, from the lowest level up. -/
def State.chains (s : State) (g : Group) (rd : Nat) : List Chain :=
  s.chainsFrom g rd [] ((if g.memDie s.own then [0] else []) ++ s.stages g rd)

/-- The edges below level `l` at this die: level, field and standing point of each sub-unit that stands elsewhere, in
ascending field order. -/
def State.edges (s : State) (g : Group) (rd l : Nat) : List (Nat × Nat × Nat) :=
  ((g.subs l (unitOf l s.own)).map (fun x => (l, x.1, s.standing g rd (l - 1) x.2))).filter (fun x => decide (x.2.2 ≠ s.own))

/-- The edges below a chain, from its highest level down (R173). -/
def State.kidsOf (s : State) (g : Group) (rd : Nat) (c : Chain) : List (Nat × Nat × Nat) :=
  c.levels.reverse.flatMap (s.edges g rd)

/-- The edges below this die in the embedded tree, from the highest level down (R173). -/
def State.kids (s : State) (g : Group) (rd : Nat) : List (Nat × Nat × Nat) := (s.stages g rd).reverse.flatMap (s.edges g rd)

/-- The chain that a message from below on an edge of level `l` belongs to. -/
def State.chainAt (s : State) (g : Group) (rd l : Nat) : Option Chain := (s.chains g rd).find? (fun c => c.levels.contains l)

/-- The chain that a message from above on an edge of level `l` belongs to. -/
def State.chainFor (s : State) (g : Group) (rd l : Nat) : Option Chain := (s.chains g rd).find? (fun c => decide (c.id = l))

/-- The edge over which the lowest chain of this die leaves it: level, field and the die above. -/
def State.up (s : State) (g : Group) (rd : Nat) : Option (Nat × Nat × Nat) :=
  match s.chains g rd with
  | c :: _ => (match c.out with | .away l f d => some (l, f, d) | _ => none)
  | [] => none

/-- Every edge over which this die sends up in the tree. -/
def State.ups (s : State) (g : Group) (rd : Nat) : List (Nat × Nat × Nat) :=
  (s.chains g rd).filterMap (fun c => match c.out with | .away l f d => some (l, f, d) | _ => none)

/-- This die takes part in the embedded tree for that root. -/
def State.inTree (s : State) (g : Group) (rd : Nat) : Bool := g.memDie s.own || decide (s.stages g rd ≠ [])

/-! ### Stakes and bonds (R168, R170, R172) -/

/-- The stake-assignment entry of logical stake `n`; 0 without one. -/
def Cfg.assign (c : Cfg) (n : Nat) : Word := wd c.stakes n

def Cfg.stkEn (c : Cfg) (n : Nat) : Bool := wbit (c.assign n) 0
def Cfg.stkSplit (c : Cfg) (n : Nat) : Bool := wbit (c.assign (n / 2 * 2)) 1
def Cfg.stkLevel (c : Cfg) (n : Nat) : Nat := wf_ (c.assign n) 4 2
def Cfg.stkBond (c : Cfg) (n : Nat) : Nat := wf_ (c.assign n) 7 5
def Cfg.stkPeer (c : Cfg) (n : Nat) : Nat := wf_ (c.assign n) 31 16

/-- The stakes that a route to stake `n` may use: its bond, or itself. -/
def Cfg.bondOf (c : Cfg) (n : Nat) : List Nat :=
  if c.stkBond n = 0 then [n]
  else (List.range 16).filter (fun m => c.stkEn m && decide (c.stkBond m = c.stkBond n))

/-- Its members in service, in ascending order. -/
def State.bondUp (s : State) (n : Nat) : List Nat :=
  (s.img.cfg.bondOf n).filter (fun m => decide ((s.stake m).st = .inService))

/-- Its members that are not down. -/
def State.bondAlive (s : State) (n : Nat) : List Nat :=
  (s.img.cfg.bondOf n).filter (fun m => decide ((s.stake m).st ≠ .down) && s.img.cfg.stkEn m)

/-- The stake that carries item `w` of a rotation toward stake `n`; none when the stake is down. While no member of the
bond is in service and some still train, the flits wait at the lowest of these (DESIGN CHOICE, log entry 85: R170 names
members in service alone). -/
def State.pick (s : State) (n w : Nat) : Option Nat :=
  match s.bondUp n with
  | [] => (s.bondAlive n).head?
  | l => l[w % l.length]?

/-- The die can be reached by route_next over stakes that are not down, as far as this die can see. -/
def State.canReach (s : State) (dest : Nat) : Bool :=
  match s.routeNext dest with
  | .local_ => true
  | .fault => false
  | .stake n => decide (s.bondAlive n ≠ [])

/-- route_next gives FAULT toward `dest` (R167, condition 1). -/
def State.noRoute (s : State) (dest : Nat) : Bool := decide (s.routeNext dest = .fault)

/-- The path to `dest` leaves over stake `n`. -/
def State.uses (s : State) (dest n : Nat) : Bool :=
  match s.routeNext dest with
  | .stake m => (s.img.cfg.bondOf m).contains n
  | _ => false

end Sys2Proof.Machine
end

