-- ==== Sys2Proof/Machine/Wire.lean ====
section
/-! DEFINITION. What crosses a stake (spec/07): flits with their symbol code and CRC, segments, packed wales, and
the control messages of VC0 as bytes. -/

namespace Sys2Proof.Machine

/-! ### Flits (R181 to R187) -/

/-- The header of a flit (Table SK-4); `resv` when a reserved bit is set. -/
structure FlitHdr where
  ftype : Nat
  vc    : Nat
  fseq  : Nat
  ack   : Nat
  ackV  : Bool
  dest  : Nat
  hop   : Nat
  level : Nat
  srcf  : Nat
  resv  : Bool
  deriving DecidableEq, Repr

/-- The header as 64 bits. -/
def FlitHdr.bits (h : FlitHdr) : Nat :=
  h.ftype % 16 + pl (h.vc % 4) 4 + pl (h.fseq % 4096) 6 + pl (h.ack % 4096) 18 + pl (b1 h.ackV) 30
    + pl (h.dest % 65536) 32 + pl (h.hop % 32) 48 + pl (h.level % 8) 53 + pl (h.srcf % 32) 56

/-- The header that 64 bits hold. -/
def hdrOf (v : Nat) : FlitHdr :=
  ⟨fld v 3 0, fld v 5 4, fld v 17 6, fld v 29 18, v.testBit 30, fld v 47 32, fld v 52 48, fld v 55 53, fld v 60 56,
    v.testBit 31 || decide (fld v 63 61 ≠ 0)⟩

/-- Byte `w` of the wire: symbol ⌊w/4⌋ of codeword w mod 4 (R184). -/
def toWire (cws : List (List Byte)) : List Byte :=
  (List.range 264).map (fun w => byteAt (cws.getD (w % 4) []) (w / 4))

/-- Codeword `c` of a wire flit. -/
def fromWire (wire : List Byte) (c : Nat) : List Byte :=
  (List.range 66).map (fun s => byteAt wire (4 * s + c))

/-- The four codewords of a protected content. -/
def codewords (p : List Byte) : List (List Byte) :=
  [0, 1, 2, 3].map (fun c => slice p (64 * c) 64 ++ checkSymbols (slice p (64 * c) 64))

/-- A flit as its 264 wire bytes. -/
def mkFlit (h : FlitHdr) (payload : List Byte) : List Byte :=
  let body := toLe 8 h.bits ++ padTo 244 payload
  toWire (codewords (body ++ toLe 4 (crc32c body).toNat))

/-- What the receiver makes of a wire flit. -/
structure RxFlit where
  corr   : Nat
  uncorr : Nat
  crcBad : Bool
  hdr    : FlitHdr
  raw    : List Byte
  body   : List Byte
  deriving DecidableEq, Repr

/-- The flit is good: no uncorrectable codeword, and the CRC matches (R187). -/
def RxFlit.good (f : RxFlit) : Bool := decide (f.uncorr = 0) && !f.crcBad

/-- Data symbols of a decoded codeword. -/
def Decoded.data : Decoded → List Byte
  | .ok d => d
  | .corrected d => d
  | .uncorrectable d => d

/-- Decode the four codewords and check the CRC (R186, R187). -/
def readFlit (wire : List Byte) : RxFlit :=
  let ds := [0, 1, 2, 3].map (fun c => decodeCodeword (fromWire wire c))
  let p := ds.flatMap Decoded.data
  let un := (ds.filter (fun d => match d with | .uncorrectable _ => true | _ => false)).length
  let co := (ds.filter (fun d => match d with | .corrected _ => true | _ => false)).length
  ⟨co, un, decide (un = 0) && decide (leAt p 252 4 ≠ (crc32c (p.take 252)).toNat), hdrOf (leAt p 0 8), p.take 8,
    slice p 8 244⟩

/-! ### Segments (R188, Table SK-5) -/

structure Seg where
  kind  : Nat
  frag  : Nat
  last  : Bool
  group : Nat
  ktag  : Nat
  wale  : Nat
  body  : List Byte
  deriving DecidableEq, Repr

/-- The segment as bytes. -/
def Seg.bytes (x : Seg) : List Byte :=
  toLe 8 (x.kind % 16 + pl (x.frag % 4) 4 + pl (b1 x.last) 6 + pl (x.body.length % 256) 8 + pl (x.group % 4096) 16
    + pl (x.ktag % 16) 28 + pl (x.wale % 2 ^ 27) 32) ++ x.body

/-- Cut a body into fragments of at most 236 bytes. -/
def fragments : Nat → Nat → List Byte → List (Nat × Bool × List Byte)
  | 0, _, _ => []
  | n + 1, i, bs => if bs.length ≤ 236 then [(i, true, bs)] else (i, false, bs.take 236) :: fragments n (i + 1) (bs.drop 236)

/-- The flit payloads that carry one wale or message, one segment each. -/
def segPayloads (kind group ktag wale : Nat) (body : List Byte) : List (List Byte) :=
  (fragments 4 0 body).map (fun f => padTo 244 (Seg.bytes ⟨kind, f.1, f.2.1, group, ktag, wale, f.2.2⟩))

/-- The segments of a payload; none when one is malformed. -/
def segsOf : Nat → List Byte → Option (List Seg)
  | 0, _ => some []
  | n + 1, p =>
    if p.length < 8 then some []
    else
      let h := leAt p 0 8
      if fld h 3 0 = 0 then some []
      else
        let len := fld h 15 8
        if 236 < len ∨ p.length < 8 + len ∨ 6 < fld h 3 0 then none
        else
          (segsOf n (p.drop (8 + len))).map (fun r =>
            ⟨fld h 3 0, fld h 5 4, h.testBit 6, fld h 27 16, fld h 31 28, fld h 58 32, slice p 8 len⟩ :: r)

/-! ### Packed wales (R189 to R191, Table SK-7) -/

/-- A bit stream: fields of width and value, the first lowest. -/
def packFields : List (Nat × Nat) → Nat
  | [] => 0
  | (w, v) :: r => v % 2 ^ w + 2 ^ w * packFields r

def fieldsLen : List (Nat × Nat) → Nat
  | [] => 0
  | (w, _) :: r => w + fieldsLen r

/-- The stream as whole bytes. -/
def fieldsBytes (fs : List (Nat × Nat)) : List Byte := toLe (cdiv (fieldsLen fs) 8) (packFields fs)

/-- Position of the lowest set bit, searched up to `n`. -/
def lowSet (v : Nat) : Nat → Nat → Nat
  | 0, i => i
  | n + 1, i => if v.testBit i then i else lowSet v n (i + 1)

/-- Smallest width that holds the integer in two's complement. -/
def widthOf (m : Int) : Nat :=
  if 0 ≤ m then (if m = 0 then 1 else flog2 m.toNat + 2)
  else if m = -1 then 1 else flog2 (-m - 1).toNat + 2

/-- EBASE: smallest EXP among the finite nonzero lanes; none without one. -/
def ebase : List Lane → Option Nat
  | [] => none
  | .word w :: ls =>
    if w.nz then
      match ebase ls with
      | none => some w.exp.toNat
      | some e => some (min w.exp.toNat e)
    else ebase ls
  | _ :: ls => ebase ls

/-- The CLS code of Table LM-2. -/
def clsCode : Cls → Nat
  | .fin => 0 | .posInf => 1 | .negInf => 2 | .nan => 3

/-- The class of a code. -/
def codeCls : Nat → Cls
  | 1 => .posInf | 2 => .negInf | 3 => .nan | _ => .fin

/-- The fields of one lane. -/
def laneFields (eb : Nat) : Lane → List (Nat × Nat)
  | .word w =>
    if w.cls ≠ .fin then [(2, 2), (2, clsCode w.cls)]
    else if w.sig = 0 then [(2, 0)]
    else
      let lo := lowSet w.sig.toNat 95 0
      let m := w.s / 2 ^ lo
      let wd_ := widthOf m
      let ed := w.exp.toNat - eb
      [(2, 1), (5, if ed ≤ 30 then ed else 31)] ++ (if ed ≤ 30 then [] else [(12, w.exp.toNat)])
        ++ [(8, w.res.toNat), (7, lo), (7, wd_), (wd_, (m % 2 ^ wd_).toNat)]
  | _ => [(2, 3)]

/-- The packed form of a wale; `first` for wale 0, which carries CONTRIB and STEP (R190). -/
def packWale (g : BitVec 12) (k : Word) (first : Bool) (v : WaleV) : List Byte :=
  let eb := (ebase v.lanes).getD 0
  let sx := decide (v.silt ≠ 0)
  fieldsBytes
    ([(12, eb), (1, b1 sx), (1, b1 first), (1, b1 v.step.isSome), (1, b1 v.trap.isSome)]
      ++ (if sx then [(32, v.silt)] else []) ++ (if first then [(32, v.contrib)] else [])
      ++ (match v.step with | some (a, b) => [(64, a.toNat), (64, b.toNat)] | none => [])
      ++ (match v.trap with | some c => (candWords g k c).map (fun w => (32, w.toNat)) | none => [])
      ++ (padLanes v.lanes).flatMap (laneFields eb))
where
  /-- Exactly 32 lanes. -/
  padLanes (ls : List Lane) : List Lane := ls.take 32 ++ List.replicate (32 - ls.length) Lane.absent

/-- A cursor over a bit stream: what is left, and how many bits are left. -/
abbrev Cur := Nat × Nat

/-- Take `w` bits. -/
def Cur.get (c : Cur) (w : Nat) : Option (Nat × Cur) :=
  if w ≤ c.2 then some (c.1 % 2 ^ w, (c.1 >>> w, c.2 - w)) else none

/-- Take `w` bits when `b`, and 0 otherwise. -/
def Cur.opt (c : Cur) (b : Bool) (w : Nat) : Option (Nat × Cur) := if b then Cur.get c w else some (0, c)

/-- One finite nonzero lane. -/
def readFinite (eb : Nat) (c : Cur) : Option (Lane × Cur) := do
  let (ed, c) ← Cur.get c 5
  let (ex, c) ← Cur.opt c (decide (ed = 31)) 12
  let (rs, c) ← Cur.get c 8
  let (lo, c) ← Cur.get c 7
  let (w, c) ← Cur.get c 7
  if w = 0 ∨ 96 < lo + w then none
  else
    let (f, c) ← Cur.get c w
    if f % 2 = 0 then none
    else
      let m : Int := if f.testBit (w - 1) then Int.ofNat f - 2 ^ w else Int.ofNat f
      some (.word ⟨BitVec.ofInt 96 (m * 2 ^ lo), BitVec.ofNat 12 (if ed = 31 then ex else eb + ed), .fin,
        BitVec.ofNat 8 rs⟩, c)

/-- One lane. -/
def readLane (eb : Nat) (c : Cur) : Option (Lane × Cur) := do
  let (t, c) ← Cur.get c 2
  if t = 0 then some (.word Loam.zero, c)
  else if t = 1 then readFinite eb c
  else if t = 2 then do
    let (k, c) ← Cur.get c 2
    if k = 0 then none else some (.word (Loam.special (codeCls k)), c)
  else some (.absent, c)

def readLanes (eb : Nat) : Nat → Cur → Option (List Lane)
  | 0, _ => some []
  | n + 1, c => do
    let (l, c) ← readLane eb c
    let r ← readLanes eb n c
    some (l :: r)

/-- Unpack a packed wale (R190); none when a field is out of range or the stream ends early. -/
def unpackWale (bs : List Byte) : Option WaleV := do
  let c : Cur := (ofLe bs, 8 * bs.length)
  let (eb, c) ← Cur.get c 12
  let (sx, c) ← Cur.get c 1
  let (cx, c) ← Cur.get c 1
  let (px, c) ← Cur.get c 1
  let (tx, c) ← Cur.get c 1
  let (silt, c) ← Cur.opt c (decide (sx = 1)) 32
  let (con, c) ← Cur.opt c (decide (cx = 1)) 32
  let (mn, c) ← Cur.opt c (decide (px = 1)) 64
  let (mx, c) ← Cur.opt c (decide (px = 1)) 64
  let (tr, c) ← Cur.opt c (decide (tx = 1)) 128
  let ls ← readLanes eb 32 c
  some ⟨ls, [], silt, con, if px = 1 then some (BitVec.ofNat 64 mn, BitVec.ofNat 64 mx) else none,
    if tx = 1 then wordsCand (wordsAt (toLe 16 tr) 0 4) 0 else none⟩

/-- The raw partial of OR or AND (Table SK-6, SKIND 0x3): the present mask and the payloads. CONTRIB and STEP have no place in
it and travel apart (log entry 10). -/
def packRaw (v : WaleV) : List Byte :=
  let ls := v.lanes.take 32
  let mask := (ls.zipIdx.map (fun x => match x.1 with | .raw _ => 2 ^ x.2 | _ => 0)).foldl (fun a b => a + b) 0
  toLe 4 mask ++ wordsBytes (ls.filterMap Lane.raw?)

/-- Lanes of a raw partial from its mask and payloads. -/
def rawLanes (mask : Nat) : Nat → Nat → List Word → List Lane
  | 0, _, _ => []
  | n + 1, i, ps =>
    if mask.testBit i then .raw (ps.headD 0) :: rawLanes mask n (i + 1) ps.tail
    else .absent :: rawLanes mask n (i + 1) ps

def unpackRaw (bs : List Byte) : Option WaleV :=
  let mask := leAt bs 0 4
  let n := countBits 32 mask
  if bs.length ≠ 4 + 4 * n then none else some ⟨rawLanes mask 32 0 (wordsAt bs 4 n), [], 0, 0, none, none⟩
where
  /-- Bits set in the low `n` bits. -/
  countBits (n v : Nat) : Nat := ((List.range n).filter (fun i => v.testBit i)).length

/-- The body of a partial of opcode `op` (R189, R191). -/
def partialBody (op : Nat) (g : BitVec 12) (k : Word) (first : Bool) (v : WaleV) : Nat × List Byte :=
  if op = 5 ∨ op = 6 then (3, packRaw v)
  else if op = 4 then (1, wordsBytes (v.idx.take 32 ++ List.replicate (32 - v.idx.length) 0xFFFFFFFF#32) ++ packWale g k first v)
  else (1, packWale g k first v)

/-- The wale of a partial body. -/
def partialOf (op : Nat) (kind : Nat) (bs : List Byte) : Option WaleV :=
  if op = 5 ∨ op = 6 then (if kind = 3 then unpackRaw bs else none)
  else if kind ≠ 1 then none
  else if op = 4 then
    (if bs.length < 128 then none else (unpackWale (bs.drop 128)).map (fun v => { v with idx := wordsAt bs 0 32 }))
  else unpackWale bs

/-- The body of an absent marker (R194). -/
def markerBody (st : Option (BitVec 64 × BitVec 64)) : List Byte :=
  match st with
  | some (a, b) => toLe 8 a.toNat ++ toLe 8 b.toNat ++ [1#8]
  | none => List.replicate 17 0#8

/-- STEP of a marker body. -/
def markerStep (bs : List Byte) : Option (BitVec 64 × BitVec 64) :=
  if (byteAt bs 16).getLsbD 0 then some (BitVec.ofNat 64 (leAt bs 0 8), BitVec.ofNat 64 (leAt bs 8 8)) else none

/-- The used bytes of a converted image (Table SK-6, SKIND 0x2). -/
def usedBytes (f : Nat) (img : List Byte) : List Byte :=
  if fmtMx f then img.take (4 * fmtBits f) ++ [byteAt img 32] else img.take (4 * fmtBits f)

/-- The image of used bytes. -/
def imageOf (f : Nat) (bs : List Byte) : List Byte :=
  if fmtMx f then padTo 32 (bs.take (4 * fmtBits f)) ++ padTo 32 [byteAt bs (4 * fmtBits f)] else padTo (4 * fmtBits f) bs

/-! ### Control messages (R193, Tables SK-14 to SK-16) -/

/-- MTYPE of a body. -/
def mtypeOf : Body → Nat
  | .agree .. => 1 | .refuse => 2 | .reserve .. => 3 | .report _ => 4 | .admission .. => 5 | .release => 6
  | .fault .. => 7 | .token .. => 8 | .close .. => 9 | .allSent => 10 | .fprint .. => 11 | .wcred .. => 12
  | .xcred .. => 13 | .susp .. => 14 | .suspDone .. => 15 | .lost => 0x12

def stageBytes (x : StageRep) : List Byte :=
  toLe 1 x.hops ++ toLe 3 0 ++ toLe 4 x.hopdly ++ toLe 4 x.rtt ++ toLe 3 x.smax ++ toLe 1 0 ++ toLe 4 x.qopen

def stageAt (bs : List Byte) (o : Nat) : StageRep :=
  ⟨leAt bs o 1, leAt bs (o + 4) 4, leAt bs (o + 8) 4, leAt bs (o + 12) 3, leAt bs (o + 16) 4⟩

def reportBytes (r : Report) : List Byte :=
  toLe 4 (b1 r.full + 2 * b1 r.down) ++ toLe 2 r.tau ++ toLe 2 r.md ++ toLe 4 r.ndie ++ toLe 1 r.nlmax ++ toLe 1 r.bmin
    ++ toLe 2 0 ++ toLe 8 (r.retry % 2 ^ 44) ++ r.stages.flatMap stageBytes

def reportOf (bs : List Byte) : Report :=
  { full := (byteAt bs 16).getLsbD 0, down := (byteAt bs 16).getLsbD 1, tau := leAt bs 20 2, md := leAt bs 22 2,
    ndie := leAt bs 24 4, nlmax := leAt bs 28 1, bmin := leAt bs 29 1, retry := leAt bs 32 8 % 2 ^ 44,
    stages := (List.range 8).map (fun e => stageAt bs (40 + 20 * e)) }

/-- A trap field: the four words, or 16 zero bytes. -/
def trapBytes (g : BitVec 12) (k : Word) (t : Option Cand) : List Byte :=
  match t with | some c => wordsBytes (candWords g k c) | none => List.replicate 16 0#8

/-- The body bytes from byte 16 on. -/
def bodyBytes (g : BitVec 12) (k : Word) : Body → List Byte
  | .agree niss d c q aw awN =>
    toLe 4 niss.toNat ++ toLe 4 (b1 d + 2 * b1 c + 4 * b1 q) ++ wordsBytes aw ++ wordsBytes awN
  | .refuse => []
  | .reserve aw awN => wordsBytes aw ++ wordsBytes awN
  | .report r => reportBytes r
  | .admission t d b => toLe 8 t.toNat ++ toLe 8 d.toNat ++ toLe 8 (b % 2 ^ 40)
  | .release => []
  | .fault code src unit arg trap =>
    toLe 1 code.toNat ++ toLe 1 src.toNat ++ toLe 2 unit.toNat ++ toLe 4 arg.toNat ++ trapBytes g k trap
      ++ toLe 1 (match trap with | some c => c.j | none => 0)
  | .token ws wsN => wordsBytes ws ++ wordsBytes wsN
  | .close kind nmem fp dg con silt osilt sent rcv trap =>
    toLe 4 kind.toNat ++ toLe 4 nmem.toNat ++ toLe 8 fp.toNat ++ toLe 8 dg.toNat ++ toLe 4 con.toNat ++ toLe 4 silt.toNat
      ++ toLe 4 osilt.toNat ++ toLe 4 sent.toNat ++ toLe 4 rcv.toNat ++ trapBytes g k trap
      ++ toLe 1 (match trap with | some c => c.j | none => 0)
  | .allSent => []
  | .fprint x n => toLe 8 x.toNat ++ toLe 4 n.toNat
  | .wcred l p c => toLe 1 l ++ toLe 1 p ++ toLe 2 c
  | .xcred cp c => toLe 2 (cp % 1024) ++ toLe 4 c
  | .susp op a => toLe 8 op.toNat ++ toLe 8 a.toNat
  | .suspDone st n b => toLe 4 st.toNat ++ toLe 4 n.toNat ++ toLe 4 b.toNat
  | .lost => []

/-- A control message as the bytes of its segment body. -/
def msgBytes (m : Msg) : List Byte :=
  toLe 2 (mtypeOf m.body) ++ toLe 2 m.group.toNat ++ toLe 4 m.seq.toNat ++ toLe 2 m.origin.toNat ++ toLe 2 m.round.toNat
    ++ toLe 4 0 ++ bodyBytes m.group m.seq m.body

/-- The fields of a body lie in the ranges that Tables SK-15, SK-16, RG-4, CO-6 and R149, R152 give them (R193). -/
def Body.inRange : Body → Bool
  | .agree niss _ _ _ _ _ => decide (1 ≤ niss.toNat) && decide (niss.toNat ≤ 2 ^ 26)
  | .report r => decide (1 ≤ r.nlmax) && decide (r.nlmax ≤ 10) && decide (2 ≤ r.bmin) && decide (r.bmin ≤ 8)
  | .fault code src _ _ trap =>
    decide (1 ≤ code.toNat) && decide (code.toNat ≤ 8) && decide (src.toNat ≤ 13)
      && (match trap with | some c => decide (code = 5) && decide (c.j ≤ 8) | none => true)
  | .token ws _ => decide (wf_ (wd ws 1) 23 16 ≤ 8)
  | .close kind _ _ _ _ _ _ _ _ trap =>
    decide (kind.toNat ≤ 2) && (match trap with | some c => decide (c.j ≤ 8) | none => true)
  | .wcred l p _ => decide (1 ≤ l) && decide (l ≤ 4) && decide (p < [8, 16, 16, 32].getD (l - 1) 0)
  | .xcred cp _ => decide (cp < 1024)
  | .susp op a => (decide (op = 1) || decide (op = 2)) && decide (a.toNat % 64 = 0)
  | .suspDone st _ n => (decide (st = 3) || decide (st = 6)) && decide (n.toNat ≤ 23134272)
  | _ => true

/-- The body that the bytes hold; none for a reserved MTYPE. -/
def rawBodyOf (t : Nat) (bs : List Byte) : Option Body :=
  let w8 (o : Nat) : BitVec 64 := BitVec.ofNat 64 (leAt bs o 8)
  match t with
  | 1 => some (.agree (wordAt bs 16) ((byteAt bs 20).getLsbD 0) ((byteAt bs 20).getLsbD 1) ((byteAt bs 20).getLsbD 2)
      (wordsAt bs 24 16) (wordsAt bs 88 16))
  | 2 => some .refuse
  | 3 => some (.reserve (wordsAt bs 16 16) (wordsAt bs 80 16))
  | 4 => some (.report (reportOf bs))
  | 5 => some (.admission (w8 16) (w8 24) (leAt bs 32 8 % 2 ^ 40))
  | 6 => some .release
  | 7 => some (.fault (byteAt bs 16) (byteAt bs 17) (BitVec.ofNat 16 (leAt bs 18 2)) (wordAt bs 20)
      (wordsCand (wordsAt bs 24 4) (leAt bs 40 1)))
  | 8 => some (.token (wordsAt bs 16 12) (wordsAt bs 64 12))
  | 9 => some (.close (byteAt bs 16) (wordAt bs 20) (w8 24) (w8 32) (wordAt bs 40) (wordAt bs 44) (wordAt bs 48)
      (wordAt bs 52) (wordAt bs 56) (wordsCand (wordsAt bs 60 4) (leAt bs 76 1)))
  | 10 => some .allSent
  | 11 => some (.fprint (w8 16) (wordAt bs 24))
  | 12 => some (.wcred (leAt bs 16 1) (leAt bs 17 1) (leAt bs 18 2))
  | 13 => some (.xcred (leAt bs 16 2) (leAt bs 18 4))
  | 14 => some (.susp (byteAt bs 16) (BitVec.ofNat 44 (leAt bs 24 8)))
  | 15 => some (.suspDone (byteAt bs 16) (wordAt bs 20) (wordAt bs 24))
  | 0x12 => some .lost
  | _ => none

/-- The body that the bytes hold; none for a reserved MTYPE or a field outside its range (R193). -/
def bodyOf (t : Nat) (bs : List Byte) : Option Body := (rawBodyOf t bs).filter Body.inRange

/-- The message that a segment body holds, with the LEVEL and SRCF of its flit. -/
def msgOf (level srcf : Nat) (bs : List Byte) : Option Msg :=
  (bodyOf (leAt bs 0 2) bs).map (fun b =>
    ⟨BitVec.ofNat 12 (leAt bs 2 2), wordAt bs 4, BitVec.ofNat 16 (leAt bs 8 2), BitVec.ofNat 16 (leAt bs 10 2), level, srcf, b⟩)

/-! ### SYNC and FOLLOW (R342, Table TA-1) -/

def syncBytes (sseq hops tm : Nat) : List Byte := toLe 2 0x10 ++ toLe 2 sseq ++ toLe 1 hops ++ toLe 1 0 ++ toLe 2 tm

def followBytes (sseq hops tm t f : Nat) : List Byte :=
  toLe 2 0x11 ++ toLe 2 sseq ++ toLe 1 hops ++ toLe 1 0 ++ toLe 2 tm ++ toLe 8 t ++ toLe 2 f

end Sys2Proof.Machine
end

