-- ==== Sys2Proof/Machine/Net.lean ====
section
/-! DEFINITION. Sending: flits to a stake's queue by route_next, control messages to this die or another, and
fault reports to the deciding die. -/

namespace Sys2Proof.Machine

/-- What a send comes to. -/
inductive Sent where
  | ok (s : State)
  /-- route_next gave FAULT (R167, condition 1) -/
  | fault
  /-- the stake that the path needs is down (R172) -/
  | down (n : Nat)
  deriving DecidableEq, Repr

/-- A DATA flit that has not been numbered yet. -/
def txFlit (vc dest level srcf : Nat) (payload : List Byte) : TxFlit :=
  ⟨0, vc, BitVec.ofNat 16 dest, 0, level, srcf, payload, none⟩

/-- One flit leaves the receive buffer; a LINK flit is due when a counter has risen by 16 (R202, R203). -/
def Stake.free (x : Stake) (vc : Nat) : Stake :=
  let f := x.freed.set vc (x.freed.getD vc 0 + 1)
  { x with freed := f, held := x.held.set vc (x.held.getD vc 0 - 1),
           linkDue := x.linkDue || decide (16 ≤ (f.getD vc 0 - x.linked.getD vc 0).toNat) }

/-- The segments of a DATA flit's payload; none where it is malformed. -/
def segsIn (payload : List Byte) : List Seg := (segsOf 31 payload).getD []

/-- The segment names the collective (g, k), by its KTAG. -/
def Seg.of (x : Seg) (g : BitVec 12) (k : Word) : Bool := decide (x.group = g.toNat) && decide (x.ktag = k.toNat % 16)

/-- Cut whole wales out of a list of flits: those of which every segment satisfies `p`, from FRAG 0 on; `open_` holds the
channels inside such a wale. What stays, and what goes. -/
def cutWales (vc : α → Nat) (payload : α → List Byte) (p : Seg → Bool) : List Nat → List α → List α × List α
  | _, [] => ([], [])
  | open_, f :: fs =>
    let xs := segsIn (payload f)
    let v := vc f
    let starts := xs.head?.any (fun x => decide (x.frag = 0))
    if xs ≠ [] ∧ xs.all p = true ∧ (starts = true ∨ open_.contains v = true) then
      let o := open_.filter (fun w => decide (w ≠ v))
      let r := cutWales vc payload p (if xs.getLast?.any (fun x => x.last) then o else v :: o) fs
      (r.1, f :: r.2)
    else
      let r := cutWales vc payload p open_ fs
      (f :: r.1, r.2)

/-- Every stake discards the wales of the collective that wait on it, up and across (R109): down wales that the root has
released go on (R108). -/
def State.purge (s : State) (g : BitVec 12) (k : Word) : State :=
  let p (x : Seg) : Bool := x.of g k && decide (x.kind ≠ 2) && decide (x.kind ≠ 6)
  s.stakes.foldl (fun t e =>
    let x := t.stake e.1
    let tx := cutWales (fun (f : TxFlit) => f.vc) (fun f => f.payload) p [] x.txq
    let rx := cutWales (fun (f : RxHeld) => f.vc) (fun f => f.payload) p [] x.rxbuf
    let t1 := t.setStake e.1 { x with txq := tx.1, rxbuf := rx.1 }
    let t2 := rx.2.foldl (fun u f => u.onStake e.1 (fun y => y.free f.vc)) t1
    tx.2.foldl (fun u f => match f.rx with | some m => u.onStake m (fun y => y.free f.vc) | none => u) t2) s

/-- Queue flits on a stake (R206). -/
def State.enqueue (s : State) (n : Nat) (fs : List TxFlit) : State := s.onStake n (fun x => { x with txq := x.txq ++ fs })

/-- The rotation index of traffic that is not one wale stream: it advances once for each wale or message, so flit by flit
where each takes one flit (R170; log entry 11). -/
def State.rotation (s : State) (n : Nat) : Nat × State :=
  let l := (s.img.cfg.bondOf n).headD n
  ((s.stake l).bondRR, s.onStake l (fun x => { x with bondRR := x.bondRR + 1 }))

/-- Send the flits of one wale or message toward `dest` (R165, R170): those of wale `w` of a stream travel on the member of
a bond that `w` names, other traffic rotates. The fragments of one wale stay on one member (R188). -/
def State.sendFlits (s : State) (dest : Nat) (w : Option Nat) (fs : List TxFlit) : Sent :=
  match s.routeNext dest with
  | .local_ => .fault
  | .fault => .fault
  | .stake n =>
    let r := match w with | some i => (i, s) | none => s.rotation n
    match s.pick n r.1 with
    | some m => .ok (r.2.enqueue m fs)
    | none => .down n

/-- One segment toward `dest`, cut into fragments. -/
def State.sendSeg (s : State) (dest vc level srcf : Nat) (w : Option Nat) (kind : Nat) (g : BitVec 12) (k : Word)
    (wale : Nat) (body : List Byte) : Sent :=
  s.sendFlits dest w ((segPayloads kind g.toNat (k.toNat % 16) wale body).map (txFlit vc dest level srcf))

/-- A control message toward `dest`: kept here when this die is the destination. -/
def State.sendRaw (s : State) (dest : Nat) (m : Msg) : Sent :=
  if dest = s.own then .ok (s.post m) else s.sendSeg dest 0 m.level m.srcf none 6 m.group m.seq 0 (msgBytes m)

/-- The collective has been admitted, as far as this die knows. -/
def Coll.adm (c : Coll) : Bool := c.isOpen || c.entry.isSome || decide (c.b ≠ 0) || c.passed

/-- The die that decides the collective (R107, R436): the root after admission, the home member before. A collective that
has ended after its admission is still the root's. -/
def State.decider (s : State) (g : BitVec 12) (k : Word) : Nat :=
  match s.coll? g k with
  | some c => if c.adm then isRootDie c.aw else (s.group g).home
  | none => (s.group g).home

/-- The next die toward the decider, with LEVEL and SRCF of the edge: the die above in the decider's tree (R174), and the
decider itself where this die is not in the tree or that die cannot be reached (R436). -/
def State.reportTo (s : State) (g : BitVec 12) (dec : Nat) : Nat × Nat × Nat :=
  match s.up (s.group g) dec with
  | some (l, f, d) => if s.canReach d then (l, f, d) else (0, 0, dec)
  | none => (0, 0, dec)

/-- A fault report toward the deciding die (R107). -/
def State.faultMsg (s : State) (g : BitVec 12) (k : Word) (code src unit : Nat) (arg : Word) (trap : Option Cand) : Msg :=
  let e := s.reportTo g (s.decider g k)
  ⟨g, k, s.wl.dieId, 0, e.1, e.2.1,
    .fault (BitVec.ofNat 8 code) (BitVec.ofNat 8 src) (BitVec.ofNat 16 unit) arg trap⟩

/-- The ROUTE_FAULT entry (R167). -/
def State.logRoute (s : State) (g : BitVec 12) (k : Word) (n dest hop level cond : Nat) : State :=
  s.logEv 0x0E 6 4 n k.toNat (dest % 65536 + pl (hop % 32) 16 + pl (level % 8) 21 + pl cond 24) g 1#8

/-- Words of an abort token (R105): only SEQ, GROUP, OPCODE, CODE and RX_WALES. -/
def abortWords (g : BitVec 12) (k : Word) (op code rx : Nat) : List Word :=
  [k, BitVec.ofNat 32 (g.toNat + pl op 12 + pl code 16), 0, 0, 0, BitVec.ofNat 32 rx, 0, 0, 0, 0, 0, 0, 0, 0, 0, 0]

/-- Terminal-token words of an abort, as a TOKEN message carries them. -/
def abortBody (g : BitVec 12) (k : Word) (op code : Nat) : Body :=
  let ws := (abortWords g k op code 0).take 12
  .token ws (compl ws)

/-- Send a message if a path stands, and drop it otherwise. -/
def State.sendIf (s : State) (dest : Nat) (m : Msg) : State := match s.sendRaw dest m with | .ok t => t | _ => s

/-- The sides below this die on the legs that it forwards hear of a cut (R436). -/
def State.cutLegs (s : State) (c : Coll) : State :=
  ((c.legs.filter (fun l => !l.ended)).foldl (fun t l => t.sendIf l.down ⟨c.g, c.k, s.wl.dieId, 0, l.level, 0,
      if l.closed then .lost else abortBody c.g c.k (isOp c.aw) 6⟩) s).onColl c.g c.k (fun c => { c with legs := [] })

/-- This die decides for its side of a cut (R436, case 2): the members below it hear `code`, or LOST once a close-round
report has gone up. -/
def State.cutSide (s : State) (g : BitVec 12) (k : Word) (code : Nat) : State :=
  match s.coll? g k with
  | none => s
  | some c =>
    if c.st = .ended ∨ c.decided.isSome then s
    else (s.cutLegs c).post ⟨g, k, s.wl.dieId, 0, 0, 0, if c.closeFwd = [] then abortBody g k (isOp c.aw) code else .lost⟩

/-- Make a fault report to the decider (R107). Where no path to the decider stands, this die decides for its side: with
ABORT_IMAGE where its route tables give no path (R167), with ABORT_MEMBER where stakes are down (R436). -/
def State.report (s : State) (g : BitVec 12) (k : Word) (code src unit : Nat) (arg : Word := 0)
    (trap : Option Cand := none) : State :=
  let dec := s.decider g k
  if dec = s.own then s.post (s.faultMsg g k code src unit arg trap)
  else
    let d := (s.reportTo g dec).2.2
    match s.sendRaw d (s.faultMsg g k code src unit arg trap) with
    | .ok t => t
    | .fault => (s.logRoute g k 0 d 0 (s.reportTo g dec).1 1).cutSide g k 1
    | .down _ => s.cutSide g k 6

/-- The tree of (g, k) is cut here (R436): a fault report while the decider can be reached, and otherwise the decision for
this side. -/
def State.cutHere (s : State) (g : BitVec 12) (k : Word) (n : Nat) : State :=
  if s.canReach (s.decider g k) then s.report g k 6 4 n else s.cutSide g k 6

/-- What a send that failed does: a route fault ends the collective with ABORT_IMAGE (R167), a stake that is down
with ABORT_MEMBER, by a report or at the cut (R172, R436). A route fault at the sending die names no stake: UNIT of its
entry and of its report is 0 (DESIGN CHOICE, log entry 84). -/
def State.orFail (s : State) (g : BitVec 12) (k : Word) (dest level : Nat) : Sent → State
  | .ok t => t
  | .fault => (s.logRoute g k 0 dest 0 level 1).report g k 1 4 0
  | .down n => s.cutHere g k n

/-- Send a message to a single destination (LEVEL 0), with the consequences of a failure. -/
def State.send (s : State) (dest : Nat) (g : BitVec 12) (k : Word) (b : Body) (round : BitVec 16 := 0) : State :=
  s.orFail g k dest 0 (s.sendRaw dest ⟨g, k, s.wl.dieId, round, 0, 0, b⟩)

/-- Send a message over a tree edge of level `l`, with the sending side's field (R182). -/
def State.sendEdge (s : State) (l f dest : Nat) (g : BitVec 12) (k : Word) (b : Body) (round : BitVec 16 := 0) : State :=
  s.orFail g k dest l (s.sendRaw dest ⟨g, k, s.wl.dieId, round, l, f, b⟩)

/-- Send a message up from a chain; nothing at the root. -/
def State.sendUp (s : State) (c : Chain) (g : BitVec 12) (k : Word) (b : Body) (round : BitVec 16 := 0) : State :=
  match c.out with
  | .away l f d => s.sendEdge l f d g k b round
  | _ => s

/-- Send the same message down several edges. -/
def State.sendDown (s : State) (es : List (Nat × Nat × Nat)) (g : BitVec 12) (k : Word) (b : Body) (round : BitVec 16 := 0) :
    State :=
  es.foldl (fun t x => t.sendEdge x.1 (subField x.1 s.own) x.2.2 g k b round) s

/-- Send the same message to several dies. -/
def State.sendAll (s : State) (dests : List Nat) (g : BitVec 12) (k : Word) (b : Body) (round : BitVec 16 := 0) : State :=
  dests.foldl (fun t d => t.send d g k b round) s

/-- The virtual channel of a collective's wales (R205). -/
def State.vcOf (s : State) (c : Coll) : Nat :=
  if isExch c.aw then 2
  else if (isOp c.aw = 5 ∨ isOp c.aw = 6) ∧ isWales c.aw = 1 then 0
  else if (s.group c.g).bulk then 3 else 1

/-- The die that roots the collective's data tree. -/
def Coll.rd (c : Coll) : Nat := isRootDie c.aw

end Sys2Proof.Machine
end

