-- ==== Sys2Proof/Machine/Port.lean ====
section
/-! DEFINITION. The core port's outputs (spec/14): status returns, receive wales, terminal tokens, and the order
that R19 and R365 keep among them. -/

namespace Sys2Proof.Machine

/-- Offer a status return. -/
def State.status (s : State) (cp : Nat) (code : Nat) (grp : BitVec 12) (arg : Word) (gate wait : Bool := false) : State :=
  s.onPort cp (fun p => { p with stq := p.stq ++ [⟨BitVec.ofNat 4 code, grp, arg, gate, wait⟩] })

/-- CP_ST_ARG of a hoop status (Table PI-15): owner core port and hoop, as received. -/
def hoopArg (cp hoop : Nat) : Word := BitVec.ofNat 32 (cp % 1024 + (hoop % 64) * 1024)

/-- Offer a receive wale. -/
def State.rxWale (s : State) (cp : Nat) (g : BitVec 12) (k : Word) (kind : Nat) (data : List Byte) : State :=
  s.onPort cp (fun p => { p with rxq := p.rxq ++ [⟨g, k, BitVec.ofNat 3 kind, data, false⟩] })

/-- The k of group `g` whose outcome this port may receive (R19). -/
def Port.turn (p : Port) (g : BitVec 12) : Word := mget 0#32 p.deliv g.toNat

/-- (g, k) may be delivered now: it is the turn's collective (R19). -/
def Port.may (p : Port) (g : BitVec 12) (k : Word) : Bool := decide (k = p.turn g)

/-- The member has received one of the three things of R19 for (g, k): the next collective may be delivered. -/
def Port.passed (p : Port) (g : BitVec 12) (k : Word) : Port :=
  { p with deliv := mput 0#32 p.deliv g.toNat (k + 1#32) }

/-- Take the first item of a list for which `f` holds: the item and the rest. -/
def takeFirst (f : α → Bool) : List α → Option (α × List α)
  | [] => none
  | x :: xs => if f x then some (x, xs) else (takeFirst f xs).map (fun r => (r.1, x :: r.2))

/-- A status may leave: ADMITTED and REFUSED wait for their turn. -/
def Port.stReady (p : Port) (x : Status) : Bool := !x.gate || p.may x.grp x.arg

/-- A terminal token may start: it is its turn, and the core has taken the collective's last receive wale (R365). -/
def Port.tokReady (p : Port) (t : Tok) : Bool :=
  (t.old || p.may t.g t.k) && !p.rxq.any (fun r => decide (r.g = t.g) && decide (r.k = t.k) && decide (r.old = t.old))

/-- What is still owed after aborts (R109, R364). -/
def Port.owes (p : Port) (g : BitVec 12) : List Owe := mget [] p.discard g.toNat

def Port.setOwes (p : Port) (g : BitVec 12) (l : List Owe) : Port := { p with discard := mput [] p.discard g.toNat l }

/-- What remains owed once one more wale has been discarded; a routed stream's headers are read for their END. -/
def Owe.next (o : Owe) (data : List Byte) : Option Owe :=
  match o with
  | .wales n => if n ≤ 1 then none else some (.wales (n - 1))
  | .stream left tw bc ends =>
    if 0 < left then some (.stream (left - 1) tw bc ends)
    else
      let w := (wordAt data 0).toNat
      if fld w 19 16 = 15 then (if ends ≤ 1 then none else some (.stream 0 tw bc (ends - 1)))
      else some (.stream (if bc || decide (fld w 29 28 = 1) then tw else 0) tw bc ends)

/-- Discard one wale that the port owes (R364). -/
def Port.discardOne (p : Port) (g : BitVec 12) (data : List Byte) : Port :=
  match p.owes g with
  | [] => p
  | o :: os => p.setOwes g (match o.next data with | some o' => o' :: os | none => os)

/-- The port answers NOT_READY: no image in service, no enabled leaf, or latched (R91, R110, R150, R391). -/
def State.notReady (s : State) (cp : Nat) : Bool := !s.inService || !s.leaf cp || (s.port cp).latched

/-- Issues of the port that are accepted and not yet admitted, refused or ended (R18). -/
def State.unadmitted (s : State) (cp : Nat) : Nat :=
  (s.colls.filter (fun c => (decide (c.st = .gather) || decide (c.st = .queued)) && (c.member? cp).isSome)).length

/-- CP_CMD_RDY is 0: 64 issues wait for admission, or the input holds 64 commands (R363). -/
def State.cmdBlocked (s : State) (cp : Nat) : Bool :=
  decide (64 ≤ s.unadmitted cp) || decide (64 ≤ (s.port cp).cmdq.length)

/-- Put a terminal token at the port. -/
def State.putTok (s : State) (cp : Nat) (g : BitVec 12) (k : Word) (ws : List Word) : State :=
  s.onPort cp (fun p => { p with tokq := p.tokq ++ [⟨g, k, ws, 0, false⟩] })

end Sys2Proof.Machine
end

