-- ==== Sys2Proof/Machine/Hoops.lean ====
section
/-! DEFINITION. The hoop store (spec/10): transitions of Table HP-3, releases, faults, and the image of a hoop. -/

namespace Sys2Proof.Machine

/-- The hoop's storage is rewritten: a field whose storage was uncorrectable is written as 0 (R283). -/
def Hoop.renew (h : Hoop) : Hoop :=
  let f := h.lost.getLsbD 0
  let n := h.lost.getLsbD 2
  { h with ovr := h.ovr && !f, stale := h.stale && !f, excess := h.excess && !f,
           staleCnt := if h.lost.getLsbD 1 then 0 else h.staleCnt,
           lastSrc := if n then 0 else h.lastSrc, lastFd := h.lastFd && !n, lastV := h.lastV && !n, lost := 0 }

/-- A hoop cleared by CTX_SWITCH or an image load (R289, Table HP-6): the last source is not among what is cleared. -/
def Hoop.cleared (h : Hoop) : Hoop :=
  { Hoop.zero with lastSrc := h.renew.lastSrc, lastFd := h.renew.lastFd, lastV := h.renew.lastV }

/-- After DISARM (Table HP-3). -/
def Hoop.disarm (h : Hoop) : Hoop := { h.renew with st := .disarmed, count := 0, target := 0, targetN := 0xFFF, waiting := false }

/-- After ARM of a DISARMED hoop (Table HP-3). -/
def Hoop.arm (h : Hoop) (arg : Nat) (mode : Bool) : Hoop :=
  { h with st := .armed, count := 0, target := BitVec.ofNat 12 arg, targetN := ~~~(BitVec.ofNat 12 arg), mode := mode }

/-- The hoop after a release, by MODE (R277). -/
def Hoop.release (h : Hoop) : Hoop :=
  if h.mode then { h with count := h.count - h.target, waiting := false }
  else { h with st := .disarmed, count := 0, waiting := false, excess := h.excess || decide (h.target.toNat < h.count.toNat) }

/-- The first word of a hoop entry (Table HP-7). -/
def Hoop.word0 (h : Hoop) : Word :=
  BitVec.ofNat 32 (h.count.toNat + pl h.target.toNat 12 + pl (match h.st with | .disarmed => 0 | .armed => 1 | .fault => 2) 24
    + pl (b1 h.waiting) 26 + pl (b1 h.mode) 27 + pl (b1 h.ovr) 28 + pl (b1 h.stale) 29 + pl (b1 h.excess) 30)

/-- The second word of a hoop entry. -/
def Hoop.word1 (h : Hoop) : Word :=
  BitVec.ofNat 32 (h.staleCnt.toNat + pl h.lastSrc.toNat 16 + pl (b1 h.lastFd) 26 + pl (b1 h.lastV) 27)

/-- End the pending WAIT of a port with a status; WAKE rises once WAIT_GATE has risen (R286). -/
def State.endWait (s : State) (cp code : Nat) : State :=
  match (s.port cp).wait with
  | none => s
  | some w =>
    (s.onPort cp (fun p => { p with wait := none, gate := false, wake := p.wake || p.gate })).status cp code 0 (hoopArg cp w.hoop)
      false (s.port cp).gate

/-- A WAIT is pending on hoop `idx`. -/
def State.waitsOn (s : State) (idx : Nat) : Bool :=
  match (s.port (idx / 48)).wait with | some w => decide (w.hoop = idx % 48) | none => false

/-- The hoop enters FAULT (R283): entry, ATTN, and the end of a pending WAIT. -/
def State.hoopFault (s : State) (idx : Nat) : State :=
  let h := s.hoop idx
  let t := ((s.setHoop idx { h with st := .fault, waiting := false }).logEv 0x15 6 2 idx
    (h.target.toNat + pl h.targetN.toNat 16) 0).attn 2
  if s.waitsOn idx then t.endWait (idx / 48) 0xE else t

/-- Release the pending WAIT when the hoop is satisfied; the TARGET check of R283 comes first. -/
def State.hoopRelease (s : State) (idx : Nat) : State :=
  if s.waitsOn idx && (s.hoop idx).sat then
    if (s.hoop idx).ok then (s.setHoop idx (s.hoop idx).release).endWait (idx / 48) 9 else s.hoopFault idx
  else s

/-- An uncorrectable error in a hoop's storage: the fields that it takes, and FAULT (R283). -/
def State.hoopLost (s : State) (idx : Nat) (m : BitVec 3) : State :=
  let s1 := s.setHoop idx { s.hoop idx with lost := (s.hoop idx).lost ||| m }
  if (s.hoop idx).st = .fault then s1 else s1.hoopFault idx

/-- Count what the storage code reports of a hoop's storage: corrected, or uncorrectable, which faults it. Bits [2:0] of the
address say which of the flags, the stale counter and the last source were hit (DESIGN CHOICE, log entry 89). -/
def State.hoopStorage (s : State) (idx : Nat) : StorageEvent → State
  | .clean => s
  | .corrected => { s with gst := { s.gst with corr := satInc s.gst.corr } }
  | .uncorrData a => s.hoopLost idx (a.setWidth 3)
  | .uncorrConfig _ a => s.hoopLost idx (a.setWidth 3)

/-- HOOP_FLAG (R276): the entry for STALE or OVERSIGNAL set for the first time. -/
def State.hoopFlag (s : State) (idx : Nat) (h : Hoop) : State :=
  s.logEv 0x14 2 2 idx (b1 h.stale + 2 * b1 h.ovr) (h.lastSrc.toNat + pl (b1 h.lastFd) 10)

/-- The source of a signal as LAST_SRC and LAST_FD. -/
def srcOf : SigSrc → BitVec 10 × Bool
  | .core cp => (BitVec.ofNat 10 cp.val, false)
  | .feeder ch => (BitVec.ofNat 10 ch.val, true)

/-- What a signal does to a hoop whose TARGET check passed, with its status code (Table HP-3). -/
def Hoop.signal (h0 : Hoop) (inc : Nat) (src : SigSrc) : Hoop × Nat :=
  let h := { h0 with lastSrc := (srcOf src).1, lastFd := (srcOf src).2, lastV := true }
  match h.st with
  | .disarmed => ({ h with stale := true, staleCnt := BitVec.ofNat 16 (min (h.staleCnt.toNat + 1) 0xFFFF) }, 0xA)
  | .fault => (h, 0xE)
  | .armed =>
    if h.count.toNat + inc ≤ 4095 then ({ h with count := BitVec.ofNat 12 (h.count.toNat + inc) }, 8)
    else ({ h with count := 0xFFF, ovr := true }, 0xB)

/-- A signal reaches the owner's hoop store (R275, R276, R283). A signal that finds a bad TARGET puts the hoop into
FAULT and is answered HOOP_FAULT. -/
def State.applySignal (s : State) (x : HoopSig) : State :=
  let idx := x.owner.val * 48 + x.hoop.val
  let s1 := if (s.hoop idx).st ≠ .fault ∧ (s.hoop idx).ok = false then s.hoopFault idx else s
  let h := s1.hoop idx
  let r := h.signal x.inc.toNat x.src
  let s2 := s1.setHoop idx r.1
  let s3 := if (r.1.stale && !h.stale) || (r.1.ovr && !h.ovr) then s2.hoopFlag idx r.1 else s2
  let s4 := match x.src with
    | .core cp => s3.status cp.val r.2 0 (hoopArg x.owner.val x.hoop.val)
    | .feeder _ => s3
  s4.hoopRelease idx

/-- The signal that arrives next from that source at that hoop: the oldest under way (R281); none where none is. -/
def State.nextSignal (s : State) (x : HoopSig) : Option HoopSig :=
  s.hoopNet.find? (fun y => decide (y.owner = x.owner) && decide (y.hoop = x.hoop) && decide (y.src = x.src))

/-- Send a signal into the hoop network (R280). -/
def State.signal (s : State) (x : HoopSig) : State := { s with hoopNet := s.hoopNet ++ [x] }

/-- Clear the 48 hoops of a port and end its pending WAIT with CLEARED. -/
def State.clearHoops (s : State) (cp : Nat) : State :=
  (((List.range 48).foldl (fun t h => t.setHoop (cp * 48 + h) (t.hoop (cp * 48 + h)).cleared) s)).endWait cp 6

/-- An image load clears every hoop of the die and ends every pending WAIT with CLEARED (R289, R406 step 3). -/
def State.clearAllHoops (s : State) : State :=
  s.ports.foldl (fun t x => t.endWait x.1 6) { s with hoops := mmap Hoop.zero (fun _ h => h.cleared) s.hoops }

/-! ### Hoop commands (Table HP-1) -/

def hcOp (w : Word) : Nat := wf_ w 2 0
def hcMode (w : Word) : Bool := wbit w 3
def hcHoop (w : Word) : Nat := wf_ w 9 4
def hcCp (w : Word) : Nat := wf_ w 19 10
def hcArg (w : Word) : Nat := wf_ w 31 20

/-- The command breaks a "must" of Table HP-1 (Table HP-2, HOOP_BAD). -/
def State.hoopBad (s : State) (w : Word) : Bool :=
  decide (3 < hcOp w) || decide (47 < hcHoop w) || ((decide (hcOp w = 0) || decide (hcOp w = 1)) && decide (hcArg w = 0))
    || (decide (hcOp w = 1) && !s.leaf (hcCp w)) || (hcMode w && decide (hcOp w ≠ 0))
    || (decide (hcCp w ≠ 0) && decide (hcOp w ≠ 1)) || (decide (hcArg w ≠ 0) && decide (hcOp w = 3))

/-- Process one hoop command at the head of the port's queue. ARM, WAIT and DISARM read the hoop's storage, which may report an
uncorrectable symbol (R283). WAIT_GATE of a WAIT that is not satisfied rises once WAKE of the one before has fallen, so that each has
its own rise of WAKE (R286; log entry 88). -/
def State.hoopCmd (s0 : State) (cp : Nat) (w c : Word) (ev : StorageEvent) : State :=
  let owner := if hcOp w = 1 then hcCp w else cp
  let arg := hoopArg owner (hcHoop w)
  let idx := cp * 48 + hcHoop w
  if s0.notReady cp then s0.status cp 3 0 arg
  else if c ≠ ~~~w then ((s0.logEv 0x04 3 1 cp w.toNat c.toNat).attn 0).status cp 4 0 0
  else if s0.hoopBad w then s0.status cp 0xC 0 arg
  else if hcOp w = 1 then
    s0.signal ⟨⟨hcCp w % 1024, Nat.mod_lt _ (by decide)⟩, ⟨hcHoop w % 48, Nat.mod_lt _ (by decide)⟩,
      .core ⟨cp % 1024, Nat.mod_lt _ (by decide)⟩, BitVec.ofNat 12 (hcArg w)⟩
  else
    let s := s0.hoopStorage idx ev
    if hcOp w = 0 then
      let s1 := if (s.hoop idx).st ≠ .fault ∧ (s.hoop idx).ok = false then s.hoopFault idx else s
      if (s1.hoop idx).st = .disarmed then
        (s1.setHoop idx ((s1.hoop idx).arm (hcArg w) (hcMode w))).status cp 8 0 arg
      else s1.status cp 0xD 0 arg
    else if hcOp w = 3 then (s.setHoop idx (s.hoop idx).disarm).status cp 8 0 arg
    else
      match (s.hoop idx).st with
      | .disarmed => s.status cp 0xD 0 arg
      | .fault => s.status cp 0xE 0 arg
      | .armed =>
        if (s.hoop idx).sat then
          if (s.hoop idx).ok then (s.setHoop idx (s.hoop idx).release).status cp 9 0 arg
          else (s.hoopFault idx).status cp 0xE 0 arg
        else
          (s.setHoop idx { s.hoop idx with waiting := true }).onPort cp (fun p =>
            { p with wait := some ⟨hcHoop w, s.nowInt, BitVec.ofNat 12 (hcArg w)⟩, gate := !p.wake })

/-- The pending WAIT of the port has a timeout that the counter has reached (R279). -/
def State.waitExpired (s : State) (cp : Nat) : Bool :=
  match (s.port cp).wait with
  | some w => decide (w.arg ≠ 0) && s.reached (w.start + BitVec.ofNat 64 (w.arg.toNat * 256))
  | none => false

/-- Expiry: HOOP_TIMEOUT, with COUNT, TARGET and STATE unchanged (R279). -/
def State.expireWait (s : State) (cp : Nat) : State :=
  match (s.port cp).wait with
  | some w =>
    let idx := cp * 48 + w.hoop
    (s.setHoop idx { s.hoop idx with waiting := false }).endWait cp 0xF
  | none => s

end Sys2Proof.Machine
end

