-- ==== Sys2Proof/Machine/Feeder.lean ====
section
/-! DEFINITION. Feeder channels (spec/11): descriptors, triggers, bindings, completion, halts and DISABLE. -/

namespace Sys2Proof.Machine

/-! ### Descriptors (Tables FD-1 and FD-2) -/

def dKind (d : List Word) : Nat := wf_ (wd d 0) 9 8
def dLast (d : List Word) : Bool := wbit (wd d 0) 10
def dCkEn (d : List Word) : Bool := wbit (wd d 0) 11
def dCkRst (d : List Word) : Bool := wbit (wd d 0) 12
def dTag (d : List Word) : Nat := wf_ (wd d 0) 31 16
def dAddr (d : List Word) (i : Nat) : Nat := (wd d i).toNat + wf_ (wd d (i + 1)) 11 0 * 2 ^ 32
def dNext (d : List Word) : Nat := dAddr d 2
def dFmt (d : List Word) : Nat := wf_ (wd d 3) 15 12
def dCnt1 (d : List Word) : Nat := wf_ (wd d 3) 31 16 + 1
def dSrc (d : List Word) : Nat := dAddr d 4
def dCnt2 (d : List Word) : Nat := wf_ (wd d 5) 31 16 + 1
def dDst (d : List Word) : Nat := dAddr d 6
def dTkind (d : List Word) : Nat := wf_ (wd d 7) 14 12
def dTarg (d : List Word) : Nat := wf_ (wd d 7) 20 15
def dCnt0 (d : List Word) : Nat := wf_ (wd d 8) 23 0 + 1
def dStep (d : List Word) (i : Nat) : Int := (wd d (9 + i)).toInt
def dTcmp (d : List Word) : BitVec 64 := pair64 d 12
def dEvo (d : List Word) : Nat := wf_ (wd d 14) 3 0
def dEvoEn (d : List Word) : Bool := wbit (wd d 14) 4
def dHoopCp (d : List Word) : Nat := wf_ (wd d 14) 14 5
def dHoop (d : List Word) : Nat := wf_ (wd d 14) 20 15
def dHoopEn (d : List Word) : Bool := wbit (wd d 14) 21

/-- Beats of the descriptor (R300). -/
def dTotal (d : List Word) : Nat := dCnt0 d * dCnt1 d * dCnt2 d

/-- The byte address of beat `n` (walk_desc), exact and signed. -/
def dWalk (d : List Word) (n : Nat) : Int :=
  let base := if dKind d = 0 then dSrc d else dDst d
  Int.ofNat base + Int.ofNat (n % dCnt0 d) * dStep d 0 + Int.ofNat (n / dCnt0 d % dCnt1 d) * dStep d 1
    + Int.ofNat (n / (dCnt0 d * dCnt1 d)) * dStep d 2

/-- The address lies in the 44-bit space (walk_desc). -/
def inSpace (a : Int) : Bool := decide (0 ≤ a) && decide (a ≤ 2 ^ 44 - 64)

/-- The halt code of a descriptor that fails a check (R301), or 0. -/
def State.descCheck (s : State) (d : List Word) : Nat :=
  if wd d 1 ≠ ~~~(wd d 0) ∨ wf_ (wd d 0) 7 0 ≠ 0xA5 then 2
  else if (dLast d = false ∧ dNext d % 64 ≠ 0) ∨ (dKind d = 0 ∧ dSrc d % 64 ≠ 0) ∨ (dKind d = 1 ∧ dDst d % 64 ≠ 0)
    ∨ dStep d 0 % 64 ≠ 0 ∨ dStep d 1 % 64 ≠ 0 ∨ dStep d 2 % 64 ≠ 0 then 1
  else if 1 < dKind d ∨ 4 < dTkind d ∨ 9 < dFmt d ∨ (dHoopEn d = true ∧ (47 < dHoop d ∨ s.leaf (dHoopCp d) = false))
    ∨ (fmtMx (dFmt d) = true ∧ s.feat 5 = false) ∨ (dTkind d = 2 ∧ s.feat 8 = false) then 3
  else 0

/-! ### Bindings (R303) -/

/-- Change the active binding. -/
def Chan.onBind (x : Chan) (f : Bind → Bind) : Chan :=
  match x.binds with
  | b :: bs => { x with binds := f b :: bs }
  | [] => x

/-- Outstanding reads of the channel's current descriptor. -/
def State.feedOut (s : State) (c : Nat) : Nat :=
  (s.fdw.reqs.filter (fun r => match r.kind with | .feed x _ => decide (x = c) | _ => false)).length

/-! ### EVT_OUT and FD_ERR_EVT (R316, R317); line 16 is FD_ERR_EVT -/

def State.evtOut (s : State) (l : Nat) : EvtOut := mget ⟨false, []⟩ s.fdw.evtOut l
def State.setEvtOut (s : State) (l : Nat) (e : EvtOut) : State :=
  { s with fdw := { s.fdw with evtOut := mput ⟨false, []⟩ s.fdw.evtOut l e } }

/-- Pulse a line, or queue behind the pulse in progress, or count the pulse as lost. -/
def State.pulse (s : State) (l c : Nat) : State :=
  let e := s.evtOut l
  if e.high = false then s.setEvtOut l { e with high := true }
  else if e.queued.length < 255 then s.setEvtOut l { e with queued := e.queued ++ [c] }
  else { s with fdw := { s.fdw with evoLost := satInc s.fdw.evoLost } }

/-- A pulse ends; the next one in line starts. -/
def State.pulseEnd (s : State) (l : Nat) : State :=
  match s.evtOut l with
  | ⟨true, _ :: q⟩ => s.setEvtOut l ⟨true, q⟩
  | _ => s.setEvtOut l ⟨false, []⟩

/-- DISABLE drops the channel's pulses that have not been sent (R318). -/
def State.dropPulses (s : State) (c : Nat) : State :=
  (List.range 16).foldl (fun t l => t.setEvtOut l { t.evtOut l with queued := (t.evtOut l).queued.filter (fun x => decide (x ≠ c)) }) s

/-! ### Halts and DISABLE (R317, R318) -/

/-- The channel's outstanding requests belong to no one: their responses are taken and dropped. -/
def State.orphan (s : State) (c : Nat) : State :=
  { s with fdw := { s.fdw with reqs := s.fdw.reqs.map (fun r => if r.kind.chan? = some c then { r with kind := .orphan c } else r) } }

/-- The abort code that a halt gives the bound collectives (Table FD-5). -/
def haltAbort (code : Nat) : Nat := if code = 2 ∨ code = 5 ∨ code = 6 then 2 else 7

/-- The class of a FEED_HALT entry (Table ER-2). -/
def haltClass (code : Nat) : Nat :=
  if code = 2 then 6 else if code = 5 ∨ code = 6 then 3 else if code = 9 then 1 else 2

/-- The active binding that FD_BIND and a halt's entry name: the first one whose collective has been admitted (R303, R317). -/
def Chan.bound (x : Chan) : Option Bind := x.binds.find? (fun b => b.active)

/-- Halt a channel (R317). `ended` names the collective whose end caused an ABORTED halt. -/
def State.halt (s : State) (c code addr : Nat) (ended : Option (BitVec 12 × Word) := none) : State :=
  let x := s.chan c
  let grp := match x.bound with
    | some b => b.g
    | none => (x.binds.head?.map (fun b => b.g)).getD 0
  let others := x.binds.filter (fun b => decide (some (b.g, b.k) ≠ ended))
  let s1 := (s.orphan c).setChan c
    { x with st := .halted, err := BitVec.ofNat 4 code, errAddr := BitVec.ofNat 44 addr, staged := [], sinkq := [], binds := [],
             fetchA := none, nextD := none, unacked := 0, endPh := .none, endFor := .desc }
  let ab : Nat := if others = [] then 0 else haltAbort code
  let s2 := s1.logEv 0x13 (haltClass code) 5 c (addr % 2 ^ 32) (code + pl (addr / 2 ^ 32) 16) grp (BitVec.ofNat 8 ab)
  let s3 := if code = 9 then s2 else (s2.attn 3).pulse 16 c
  others.foldl (fun t b => t.report b.g b.k (haltAbort code) 5 c) s3

/-- DISABLE (R318). FD_BEATS, FD_CRC and the loop position become free values. -/
def State.disableChan (s : State) (c code : Nat) : State :=
  let x := s.chan c
  let f1 := s.freeNext
  let f2 := f1.2.freeNext
  let f3 := f2.2.freeNext
  let s1 := ((f3.2.orphan c).dropPulses c).setChan c
    { x with st := .disabled, staged := [], sinkq := [], binds := [], fetchA := none, nextD := none, desc := [],
             unacked := 0, endPh := .none, endFor := .desc, lastWr := none,
             beats := f1.1.setWidth 32, crc := f2.1.setWidth 32, issued := f3.1.toNat, moved := f3.1.toNat }
  x.binds.foldl (fun t b => t.report b.g b.k code 5 c) s1

/-! ### Triggers (R310, R311) -/

def State.evtIn (s : State) (l : Nat) : EvtIn := mget ⟨0, 0⟩ s.fdw.evtIn l
def State.setEvtIn (s : State) (l : Nat) (e : EvtIn) : State :=
  { s with fdw := { s.fdw with evtIn := mput ⟨0, 0⟩ s.fdw.evtIn l e } }

/-- Result data travels down to every die of the tree. -/
def Coll.toAll (c : Coll) : Bool := !isExch c.aw && (isEcho c.aw || decide (isOp c.aw = 7))

/-- Result wales that the root has released, as far as this die knows: its own count at the root, what has come down
elsewhere (log entry 86). -/
def State.releasedHere (s : State) (c : Coll) : Nat :=
  if isRootDie c.aw = s.own then c.released else if c.toAll then (c.downNext.map (fun x => x.2)).foldl max 0 else 0

/-- The group is being suspended on this die, and the collective is one of those it suspends (R115): the root has not
released its last wale, as far as this die knows. -/
def State.held (s : State) (c : Coll) : Bool :=
  decide ((mget SuspG.zero s.col.susp c.g.toNat).st ≠ .none) && !isExch c.aw && decide (c.st = .opened) && c.decided.isNone
    && decide (c.tokWait = []) && decide (s.releasedHere c < isResWales c.aw)

/-- The binding's collective is one that a SUSPEND has stopped. -/
def State.suspended (s : State) (g : BitVec 12) (k : Word) : Bool :=
  match s.coll? g k with
  | some c => decide (c.st = .suspended) || s.held c
  | none => false

/-- When a binding becomes active, its direction and format are checked against the current descriptor (R303);
a routed sink also needs an unused descriptor and an aligned SRC (R308). 0 when the check passes. -/
def bindCheck (routed : Bool) (x : Chan) (b : Bind) : Nat :=
  if b.sink ≠ decide (dKind x.desc = 1) ∨ b.fmt ≠ dFmt x.desc then 7
  else if b.sink && routed then (if x.issued ≠ 0 then 7 else if dSrc x.desc % 64 ≠ 0 then 1 else 0)
  else 0

/-- The current descriptor has nothing left to move, or the chain has ended (R306): a binding that takes its turn now meets
the next descriptor. -/
def Chan.spent (x : Chan) : Bool :=
  decide (x.st = .idle) || decide ((if dKind x.desc = 0 then x.moved else x.issued) = dTotal x.desc)

/-- A channel whose first binding belongs to a suspended collective pauses (R309). -/
def State.pauseChan (s : State) (c : Nat) : State :=
  match (s.chan c).actBind with
  | some b => if (s.chan c).st = .active ∧ s.suspended b.g b.k = true then s.onChan c (fun y => { y with st := .paused }) else s
  | none => s

/-- Apply the check of R303 to the active binding of a channel whose descriptor is current. -/
def State.checkBind (s : State) (c : Nat) : State :=
  let x := s.chan c
  match x.actBind with
  | none => s
  | some b =>
    if b.checked ∨ x.desc = [] ∨ x.spent = true then s
    else
      let code := bindCheck b.routed x b
      if code ≠ 0 then s.halt c code x.cur.toNat
      else (s.setChan c (x.onBind (fun b => { b with checked := true }))).pauseChan c

/-- Start the current descriptor: its trigger has fired (R302, R310, R314). -/
def State.startDesc (s : State) (c : Nat) (late : Bool) : State :=
  let x := s.chan c
  let d := x.desc
  let self := dCkEn d && decide (dNext d = x.cur.toNat)
  let pausedNow := match x.actBind with | some b => s.suspended b.g b.k | none => false
  (s.setChan c { x with
    st := if pausedNow then .paused else .active, late := x.late || late, beats := 0, issued := 0, moved := 0,
    staged := [], unacked := 0, crc := if dCkRst d then crc32Init else x.crc,
    fetchA := if dLast d ∨ self then none else some (BitVec.ofNat 44 (dNext d)) }).checkBind c

/-- The lowest channel that waits on an EVT_IN line (R311). -/
def State.evtWaiter (s : State) (l : Nat) : Option Nat :=
  (List.range 64).find? (fun c => decide ((s.chan c).st = .waitTrig) && decide ((s.chan c).desc ≠ [])
    && decide (dTkind (s.chan c).desc = 4) && decide (dTarg (s.chan c).desc % 16 = l))

/-- Pending events of a line go to waiting channels, lowest first. -/
def State.evtServe : Nat → State → Nat → State
  | 0, s, _ => s
  | n + 1, s, l =>
    if (s.evtIn l).pend = 0 then s
    else match s.evtWaiter l with
      | none => s
      | some c => State.evtServe n ((s.setEvtIn l { s.evtIn l with pend := (s.evtIn l).pend - 1 }).startDesc c false) l

/-- FD_DONE_CNT of channel TARG has reached TCMP[15:0] (Table FD-3). -/
def State.chanReached (s : State) (d : List Word) : Bool :=
  !precedes 16 (s.chan (dTarg d)).done.toNat ((dTcmp d).toNat % 65536)

/-- Try the trigger of a channel in WAIT_TRIG (Table FD-3): LATE is set where TCMP had passed at fetch. -/
def State.tryTrigger (s : State) (c : Nat) : State :=
  let x := s.chan c
  let d := x.desc
  if x.st ≠ .waitTrig ∨ d = [] then s
  else if dTkind d = 0 then s.startDesc c false
  else if dTkind d = 1 then (if x.binds.any (fun b => !b.active) then s.startDesc c false else s)
  else if dTkind d = 2 then (if s.reached (dTcmp d) then s.startDesc c x.past else s)
  else if dTkind d = 3 then (if s.chanReached d then s.startDesc c false else s)
  else State.evtServe 64 s (dTarg d % 16)

/-- TCMP of a descriptor has passed when it is fetched (Table FD-3). -/
def State.pastAtFetch (s : State) (d : List Word) : Bool := decide (dTkind d = 2) && s.reached (dTcmp d)

/-- A fetched descriptor becomes current (R301, R310). -/
def State.makeCurrent (s : State) (c : Nat) (addr : BitVec 44) (d : List Word) (past : Bool) : State :=
  let s1 := s.setChan c { s.chan c with cur := addr, desc := d, past := past, nextD := none, st := .waitTrig, issued := 0, moved := 0,
                                        staged := [], beats := 0 }
  let code := s1.descCheck d
  if code ≠ 0 then s1.halt c code addr.toNat else s1.tryTrigger c

/-- CHAN triggers after a change of FD_DONE_CNT. -/
def State.chanTriggers (s : State) : State :=
  (List.range 64).foldl (fun t c => if dTkind (t.chan c).desc = 3 then t.tryTrigger c else t) s

/-- EN (R319). -/
def State.enableChan (s : State) (c : Nat) : State :=
  let x := s.chan c
  if s.inService && (decide (x.st = .disabled) || decide (x.st = .halted) || decide (x.st = .idle) || decide (x.st = .waitTrig)) then
    (s.orphan c).setChan c
      { x with st := .waitTrig, err := 0, late := false, crc := crc32Init, cur := x.head, desc := [], nextD := none,
               fetchA := some x.head, beats := 0, issued := 0, moved := 0, staged := [], unacked := 0, endPh := .none,
               endFor := .desc, lastWr := none }
  else s

/-! ### Completion (R312 to R315) -/

/-- Completion under R315, and the next descriptor (Table FD-4, steps 6 and 7). -/
def State.complete (s : State) (c : Nat) : State :=
  let x := s.chan c
  let d := x.desc
  let s1 := s.setChan c { x with done := x.done + 1, endPh := .none }
  let s2 := if dHoopEn d then
      s1.signal ⟨⟨dHoopCp d % 1024, Nat.mod_lt _ (by decide)⟩, ⟨dHoop d % 48, Nat.mod_lt _ (by decide)⟩,
        .feeder ⟨c % 64, Nat.mod_lt _ (by decide)⟩, 1⟩
    else s1
  let s3 := if dEvoEn d then s2.pulse (dEvo d) c else s2
  let y := s3.chan c
  let s4 :=
    if dLast d then s3.setChan c { y with st := .idle, staged := [] }
    else
      match y.nextD with
      | some nd => s3.makeCurrent c (BitVec.ofNat 44 (dNext d)) nd y.nextPast
      | none =>
        s3.setChan c { y with st := .waitTrig, desc := [], cur := BitVec.ofNat 44 (dNext d), staged := [],
                              fetchA := if dCkEn d ∧ dNext d = y.cur.toNat then some (BitVec.ofNat 44 (dNext d)) else y.fetchA }
  s4.chanTriggers

/-- The last beat of a descriptor is past its checks: the CKSUM write, or completion. -/
def State.finishDesc (s : State) (c : Nat) : State :=
  if dCkEn (s.chan c).desc then s.setChan c { s.chan c with endPh := .ckReq } else s.complete c

/-- The endpoint takes the next beat of a FEED channel; the beat is staged. -/
def State.takeBeat (s : State) (c : Nat) : State :=
  let x := s.chan c
  let bs := mget [] x.staged x.moved
  let y : Chan := { (x.onBind (fun b => { b with moved := b.moved + 1, part := b.part ++ bs })) with
    staged := mput [] x.staged x.moved [], moved := x.moved + 1, beats := satInc x.beats, crc := crc32Run x.crc bs }
  s.setChan c y

/-- A FEED descriptor whose last beat has been taken completes (R312), once the binding that this beat ends has
ended (R305). -/
def State.feedEnd (s : State) (c : Nat) : State :=
  let x := s.chan c
  if x.st = .active ∧ x.desc ≠ [] ∧ x.endPh = .none ∧ x.moved = dTotal x.desc then s.finishDesc c else s

/-- The binding is the SINK binding of member `cp` in (g, k). -/
def Bind.isSink (b : Bind) (g : BitVec 12) (k : Word) (cp : Nat) : Bool :=
  decide (b.g = g) && decide (b.k = k) && decide (b.cp = cp) && b.sink

/-- The staging of a SINK channel takes what the first binding has been given, up to 64 beats (R296). -/
def Chan.fill (x : Chan) : Chan :=
  match x.binds with
  | b :: bs =>
    let n := 64 - x.sinkq.length
    { x with binds := { b with pend := b.pend.drop n } :: bs, sinkq := x.sinkq ++ b.pend.take n }
  | [] => x

/-- The same, once the member may receive data of the collective (R19). -/
def State.fillChan (s : State) (c : Nat) : State :=
  match (s.chan c).binds with
  | b :: _ => if b.pend ≠ [] ∧ (s.port b.cp).may b.g b.k = true then s.onChan c Chan.fill else s
  | [] => s

/-- A SINK channel is given wale data for a binding: 64-byte beats. -/
def Chan.give (x : Chan) (g : BitVec 12) (k : Word) (cp : Nat) (beats : List (SinkAt × List Byte)) (last : Bool) : Chan :=
  { x with binds := x.binds.map (fun b =>
      if b.isSink g k cp then { b with moved := b.moved + beats.length, ended := b.ended || last, pend := b.pend ++ beats } else b) }

/-- The channel takes `n` more beats for the binding: it is the one being served, and the staging has room (R296). -/
def Chan.sinkRoom (x : Chan) (g : BitVec 12) (k : Word) (cp n : Nat) : Bool :=
  match x.binds with
  | b :: _ => b.isSink g k cp && decide (x.sinkq.length + b.pend.length + n ≤ 64)
  | [] => false

/-- The beats of an image. -/
def beatsOf (img : List Byte) : List (List Byte) := if img.length = 128 then [img.take 64, img.drop 64] else [padTo 64 img]

/-- The first binding has ended: the next one is first, with the data it was given before (R305). -/
def State.dropBind (s : State) (c : Nat) : State := (s.onChan c (fun x => { x with binds := x.binds.tail })).fillChan c

/-- The first binding has ended: the next one takes its turn, with the check of R303. -/
def State.popBind (s : State) (c : Nat) : State := (s.dropBind c).checkBind c

/-- The end sequence of Table FD-4, or the read-back of R307 and R313, starts. -/
def State.sinkStart (s : State) (c : Nat) (f : EndFor) : State :=
  s.onChan c (fun x => { x with endPh := if x.unacked = 0 then .rbReq else .waitWr, endFor := f })

/-- The end sequence starts once the last beat of the descriptor, or of a binding that has been given all its wales, has
been sent. A routed binding that ended without a beat ends its descriptor too (R308). -/
def State.sinkEnd (s : State) (c : Nat) : State :=
  let x := s.chan c
  if x.st ≠ .active ∨ x.endPh ≠ .none ∨ x.desc = [] then s
  else
    match x.actBind with
    | none => s
    | some b =>
      if b.sink && !b.routed && decide (x.issued = dTotal x.desc) then s.sinkStart c .desc
      else if b.sink && b.ended && decide (x.sinkq = []) && decide (b.pend = []) then
        (if b.moved ≠ 0 then s.sinkStart c .bind
         else if b.routed then (s.dropBind c).finishDesc c else s.popBind c)
      else s

/-- Bind a channel to an accepted issue (R303, R304, R317). -/
def State.bind (s : State) (c : Nat) (b : Bind) : State :=
  let x := s.chan c
  if x.st = .halted ∨ x.st = .disabled then s.report b.g b.k 7 5 c
  else
    let s1 := s.setChan c { x with binds := x.binds ++ [b] }
    if x.binds.any (fun y => decide (y.cp ≠ b.cp)) then s1.halt c 8 x.cur.toNat
    else if dTkind x.desc = 1 then s1.tryTrigger c else s1

/-- The bindings that an accepted issue creates (R97, R303). -/
def State.bindIssue (s : State) (cp : Nat) (g : BitVec 12) (k : Word) (ws : List Word) : State :=
  let rootHere := decide (isRootDie ws = s.own) && decide (isRootCp ws = cp)
  let feeds := decide (isSrc ws = 1) && (decide (isOp ws ≠ 7) || isExch ws || rootHere)
  let s1 := if feeds then s.bind (isSrcCh ws) ⟨g, k, cp, false, isIn ws, false, false, 0, false, [], [], isExch ws⟩ else s
  if isRxSink ws then s1.bind (isRxCh ws) ⟨g, k, cp, true, isOut ws, false, false, 0, false, [], [], isExch ws⟩ else s1

/-- The bindings of an admitted collective become active (R303). -/
def State.activate (s : State) (g : BitVec 12) (k : Word) : State :=
  (List.range 64).foldl (fun t c =>
    let x := t.chan c
    if x.binds.any (fun b => decide (b.g = g) && decide (b.k = k)) then
      (t.setChan c { x with binds := x.binds.map (fun b => if b.g = g ∧ b.k = k then { b with active := true } else b) }).checkBind c
    else t) s

/-- The collective ended without completing the data of these bindings: halt ABORTED (R309). -/
def State.endBinds (s : State) (g : BitVec 12) (k : Word) : State :=
  (List.range 64).foldl (fun t c =>
    if (t.chan c).binds.any (fun b => decide (b.g = g) && decide (b.k = k)) then
      t.halt c 9 (t.chan c).cur.toNat (some (g, k)) else t) s

end Sys2Proof.Machine
end

