-- ==== Sys2Proof/Machine/Update.lean ====
section
/-! DEFINITION. The update port (spec/12): record headers, the port's buffer of 128 beats, and the order of
records. -/

namespace Sys2Proof.Machine

/-- Header words 0 to 14 of a record (Table UP-2). -/
def updWords (kind fmt : Nat) (grain unv : Bool) (code : Nat) (g : BitVec 12) (pblock : Nat) (k : Word)
    (step : BitVec 64) (w8 contrib : Nat) (scale : Word) (w11 osilt : Nat) (digest : BitVec 64) : List Word :=
  let w0 : Word := BitVec.ofNat 32 (kind + pl fmt 2 + pl (b1 grain) 6 + pl (b1 unv) 7 + pl code 8 + pl g.toNat 16)
  let w4 : Word := step.setWidth 32
  let w5 : Word := (step >>> 32).setWidth 32
  [w0, ~~~w0, BitVec.ofNat 32 pblock, k, w4, w5, ~~~w4, ~~~w5, BitVec.ofNat 32 w8, BitVec.ofNat 32 contrib, scale,
    BitVec.ofNat 32 w11, BitVec.ofNat 32 osilt, digest.setWidth 32, (digest >>> 32).setWidth 32]

/-- The beats of a record: the header with its CRC, then the data (R325). -/
def updRecord (kind : Nat) (hdr : List Word) (data : List Byte) : URec :=
  let h := wordsBytes hdr
  let head := h ++ toLe 4 (crc32c (h ++ data)).toNat
  ⟨kind, head :: (if data.length = 128 then [data.take 64, data.drop 64] else if data.length = 0 then [] else [data])⟩

/-- A DATA record. -/
def dataRecord (c : Coll) (wale contrib : Nat) (step : BitVec 64) (img : List Byte) : URec :=
  updRecord 0 (updWords 0 (isOut c.aw) (isGrain c.aw) (decide (contrib = 0)) 0 c.g (isPblock c.aw) c.k step wale contrib
    (isScale c.aw) (isLanes c.aw wale) 0 0) img

/-- The SEAL record. -/
def sealRecord (c : Coll) (contrib silt osilt : Nat) (step digest : BitVec 64) : URec :=
  updRecord 1 (updWords 1 (isOut c.aw) (isGrain c.aw) (decide (contrib = 0)) 0 c.g (isPblock c.aw) c.k step c.updRecs
    contrib (isScale c.aw) silt osilt digest) []

/-- The ABORT record. -/
def abortRecord (c : Coll) (code : Nat) : URec :=
  updRecord 2 (updWords 2 0 false false code c.g (isPblock c.aw) c.k 0 c.updRecs 0 0 0 0 0) []

/-- The collective delivers to the update port (Table CO-5). -/
def Coll.toUpd (c : Coll) : Bool := decide (isDest c.aw = 1) && isRed c.aw && !isExch c.aw

/-- Beats buffered for the port, those of records not yet moved into the port's queue included. -/
def State.updHeld (s : State) : Nat :=
  s.upd.fifo.length + (s.colls.map (fun c => (c.updQ.map (fun r => r.beats.length)).foldl (fun a b => a + b) 0)).foldl (fun a b => a + b) 0

/-- The slath may release a further wale of `beats` data beats to the port (R333). -/
def State.updRoom (s : State) (beats : Nat) : Bool := decide (s.updHeld + 1 + beats ≤ 128)

/-- The next record of `c` may be emitted (R330, R331). -/
def State.updReady (s : State) (c : Coll) : Bool :=
  match c.updQ with
  | [] => false
  | r :: _ =>
    (decide (r.kind = 0) || decide (c.updDone = c.updRecs))
      && !s.colls.any (fun x => decide (x.g = c.g) && precedes 32 x.k.toNat c.k.toNat && decide (x.updQ ≠ []))
      && decide (s.upd.fifo.length + r.beats.length ≤ 128)

/-- Insert by admission time. -/
def insAdm (c : Coll) : List Coll → List Coll
  | [] => [c]
  | x :: xs => if precedes 64 c.tAdm.toNat x.tAdm.toNat then c :: x :: xs else x :: insAdm c xs

/-- The collectives in order of admission, starting after the one served last (R330). -/
def State.updOrder (s : State) : List Coll :=
  let l := s.colls.foldl (fun a c => insAdm c a) []
  match s.upd.rr with
  | none => l
  | some (g, k) =>
    let i := (l.findIdx? (fun c => c.is g k)).getD 0
    l.drop (i + 1) ++ l.take (i + 1)

/-- The beats of one record of the collective, as the port's buffer holds them. -/
def Coll.ubeats (c : Coll) (r : URec) (old : Bool) : List UBeat :=
  r.beats.zipIdx.map (fun x => ⟨x.1, decide (x.2 = 0), decide (x.2 + 1 = r.beats.length), r.kind, c.g, c.k, old,
    decide (r.kind = 1) && c.elide && decide (c.contrib = 0)⟩)

/-- Move the beats of one record into the port's queue. -/
def State.updEmit (s : State) (c : Coll) : State :=
  match c.updQ with
  | [] => s
  | r :: rs =>
    ({ s with upd := { s.upd with fifo := s.upd.fifo ++ c.ubeats r false, rr := some (c.g, c.k) } }).putColl { c with updQ := rs }

/-- Emit records while one is ready and the buffer has room. -/
def State.updPump : Nat → State → State
  | 0, s => s
  | n + 1, s =>
    match s.updOrder.find? s.updReady with
    | none => s
    | some c => State.updPump n (s.updEmit c)

/-- Put a record of `(g, k)` in line and emit what can be emitted. -/
def State.updPut (s : State) (g : BitVec 12) (k : Word) (r : URec) (isData : Bool) : State :=
  State.updPump 4 (s.onColl g k (fun c => { c with updQ := c.updQ ++ [r], updRecs := if isData then c.updRecs + 1 else c.updRecs }))

/-- A record's last beat has been taken: the counters of Table UP-4, and what its collective knows of it. -/
def State.updDelivered (s : State) (b : UBeat) : State :=
  let on (t : State) (f : Coll → Coll) : State := if b.old then t else t.onColl b.g b.k f
  if b.kind = 0 then
    on { s with upd := { s.upd with records := satInc s.upd.records } } (fun c => { c with updDone := c.updDone + 1 })
  else if b.kind = 1 then
    on { s with upd := { s.upd with seals := satInc s.upd.seals,
                                    elided := if b.elided then satInc s.upd.elided else s.upd.elided } }
      (fun c => { c with updEnd := true })
  else on { s with upd := { s.upd with aborts := satInc s.upd.aborts } } (fun c => { c with updEnd := true })

/-- The companion takes the beat that is offered (R331, R333). -/
def State.updTake (s : State) : State :=
  match s.upd.fifo with
  | [] => s
  | b :: bs =>
    let s1 : State := { s with upd := { s.upd with fifo := bs } }
    State.updPump 64 (if b.eor then s1.updDelivered b else s1)

/-- The beats of every record that still waits, in the order of admission and of the collective's own records: what
the port goes on emitting when a new image begins service (R406, step 1). -/
def State.updRest (s : State) : List UBeat :=
  s.updOrder.flatMap (fun c => c.updQ.flatMap (fun r => c.ubeats r true))

/-- A new image begins service: what the port still holds belongs to no collective of that image. -/
def State.updRenew (s : State) : State :=
  { s with upd := { s.upd with fifo := s.upd.fifo.map (fun b => { b with old := true }) ++ s.updRest, rr := none } }

end Sys2Proof.Machine
end

