-- ==== Sys2Proof/Machine/Flow.lean ====
section
/-! DEFINITION. How a wale moves through this die (spec/06, R149 to R173) and how a combining point combines it
(R38 to R52): from a leaf up to the root, and the root's arrival checks. -/

namespace Sys2Proof.Machine

/-! ### Sites and tree positions -/

/-- The die holds no member core port of the group: a relay die (R161). -/
def State.relayDie (s : State) (g : BitVec 12) : Bool := !(s.group g).memDie s.own

/-- The output stake of a relay die that is a stage point: toward the lowest stage point above it on another die (R161). -/
def State.outStake (s : State) (g : BitVec 12) (rd : Nat) : Nat :=
  match s.up (s.group g) rd with
  | some (_, _, d) => (match s.routeNext d with | .stake n => n | _ => 0)
  | none => 0

/-- SRC and UNIT of a combining point in the error log (Table ER-2, R153, R161). -/
def State.siteOf (s : State) (c : Coll) : Point → Nat × Nat
  | .node i => (3, i)
  | .stage _ => if s.relayDie c.g then (4, s.outStake c.g c.rd) else (3, s.img.cfg.slath)
  | .token cp _ => (7, cp)

/-- SITE and UNIT of a combining point in a trap candidate (Table FM-10, R139). -/
def State.trapSite (s : State) (c : Coll) : Point → Nat × Nat
  | .node i => (1, i)
  | .stage _ => if s.relayDie c.g then (2, s.outStake c.g c.rd) else (1, s.img.cfg.slath)
  | .token cp _ => (0, cp)

/-- The index under which a site's count of forwarded wales is kept. -/
def siteKey : Point → Nat
  | .node i => i
  | .stage l => 4096 + l
  | .token cp t => 8192 + cp * 8192 + t

/-- The index under which the wales that leave for the level-`l` combine of another die are counted. -/
def awayKey (l : Nat) : Nat := 2048 + l

/-- The index under which the wales of a routed operation that leave for die `d` are counted: their place in that stream
(R170, Table SK-5; log entry 14). -/
def exKey (d : Nat) : Nat := 2 ^ 24 + d

/-- Where a wale goes next. -/
inductive Tgt where
  | buf (pt : Point) (port : Nat)
  | away (level field dest : Nat)
  | root
  deriving DecidableEq, Repr

/-- What follows level `i` of the stage hierarchy at this die (R153, R159). -/
def State.afterStage (s : State) (c : Coll) (i : Nat) : Tgt :=
  match s.nextStage (s.group c.g) c.rd i with
  | .here l f => .buf (.stage l) f
  | .away l f d => .away l f d
  | .top => .root

/-- Climb from position `j` of level `l` (0: a leaf) over pass nodes (R151): the pass nodes crossed, and the place
that takes the wale. -/
def State.climb (s : State) (c : Coll) (m : Nat) : Nat → Nat → Nat → List Nat × Tgt
  | 0, _, _ => ([], s.afterStage c 0)
  | n + 1, l, j =>
    let cfg := s.img.cfg
    if cfg.nl ≤ l then ([], s.afterStage c 0)
    else
      let q := cfg.parent l j
      if 2 ≤ (cfg.memPorts m (l + 1) q.1).length then ([], .buf (.node (cfg.base (l + 1) + q.1)) q.2)
      else
        let r := s.climb c m n (l + 1) q.1
        ((cfg.base (l + 1) + q.1) :: r.1, r.2)

/-- Where the output of a combining point goes. -/
def State.fromPoint (s : State) (c : Coll) : Point → List Nat × Tgt
  | .node i =>
    let p := s.img.cfg.nodePos i
    s.climb c (s.memMask c.g) 10 p.1 p.2
  | .stage l => ([], s.afterStage c l)
  | .token _ _ => ([], .root)

/-- Input ports of a combining point, ascending (R151, R160). -/
def State.portsOf (s : State) (c : Coll) : Point → List Nat
  | .node i =>
    let p := s.img.cfg.nodePos i
    s.img.cfg.memPorts (s.memMask c.g) p.1 p.2
  | .stage l => bitsOf 32 ((s.group c.g).mask l)
  | .token _ _ => []

/-- Wales that wait at an input. -/
def Coll.waiting (c : Coll) (pt : Point) (port : Nat) : Nat :=
  (c.bufs.filter (fun b => decide (b.pt = pt) && decide (b.port = port) && b.wale.isSome)).length

/-- The target takes one more wale (R152, R204). -/
def State.room (s : State) (c : Coll) : Tgt → Bool
  | .buf pt port => decide (c.waiting pt port < s.img.cfg.bufs)
  | .away l _ _ => decide (mget 0 c.credits l < s.img.cfg.bufs)
  | .root => decide (c.rootQ.length < s.img.cfg.bufs)

/-! ### The deciding die (R107) -/

/-- The root of the tree that the terminal token follows: the gather tree before admission (R174). -/
def State.treeRoot (s : State) (c : Coll) : Nat := if c.adm then c.rd else (s.group c.g).home

/-- RELEASE from the home member as a collective leaves QUEUED: once for a round that is under way, and once to end every
refusal that stands for it (R224, R231; log entry 19). -/
def State.releaseRound (s : State) (g : BitVec 12) (k : Word) : State :=
  let c := s.coll g k
  if c.adm || decide (c.round = 0) then s
  else
    let s1 := s.send (isRootDie c.aw) g k .release c.round
    if c.started then s1.send (isRootDie c.aw) g k .release c.round else s1

/-- Decide an abort (R107): the ABORTED entry, the decision, and the token to this die's own members first. A
collective already decided is unchanged. -/
def State.decideAbort (s : State) (g : BitVec 12) (k : Word) (code src unit die : Nat) : State :=
  match s.coll? g k with
  | none => s
  | some c =>
    if c.decided.isSome then s
    else
      let s1 := s.logEv 0x01 1 src unit k.toNat die g (BitVec.ofNat 8 code)
      let s2 := s1.onColl g k (fun c => { c with decided := some (BitVec.ofNat 8 code) })
      let s3 := if code = 8 then { s2 with adm := { s2.adm with timeout := satInc s2.adm.timeout } } else s2
      let s4 := if c.toUpd ∧ c.adm = true ∧ c.rd = s.own then s3.updPut g k (abortRecord c code) false else s3
      (s4.releaseRound g k).post ⟨g, k, s.wl.dieId, 0, 0, 0, abortBody g k (isOp c.aw) code⟩

/-! ### Arrival at the root (R82, R83, R104, R327, R328) -/

/-- Latch and count a step skew (R328). -/
def State.latchSkew (s : State) (g : BitVec 12) (k : Word) (mn mx : BitVec 64) : State :=
  let u := { s.upd with skewCnt := satInc s.upd.skewCnt }
  { s with upd := if u.skewV then u else { u with skewV := true, skewG := g, skewSeq := k, skewMin := mn, skewMax := mx } }

/-- A step skew at the root: the entry, the registers, the decision. -/
def State.stepSkew (s : State) (g : BitVec 12) (k : Word) (mn mx : BitVec 64) : State :=
  let u := s.img.cfg.slath
  ((s.logEv 0x0B 1 3 u k.toNat (min (mx - mn).toNat 0xFFFFFFFF) g 4).latchSkew g k mn mx).decideAbort g k 4 3 u s.own

/-- The SRC and UNIT of a trap's site (Table ER-2, NAN_TRAP). -/
def Cand.src (x : Cand) : Nat := match x.site.toNat with | 0 => 1 | 1 => 3 | _ => 4

/-- Store the trap record (R81, R83), once per collective, before the decision. -/
def State.storeTrap (s : State) (g : BitVec 12) (k : Word) (x : Cand) : State :=
  match s.coll? g k with
  | none => s
  | some c =>
    if c.decided.isSome ∨ c.trap.isSome then s
    else
      let s1 := s.onColl g k (fun c => { c with trap := some x })
      let s2 : State := { s1 with col := { s1.col with lastTrap := candWords g k x } }
      s2.logEv 0x0C 1 (Cand.src x) x.unit.toNat k.toNat ((x.wale.toNat * 32 + x.lane.toNat) % 2 ^ 32) g (if isNote c.aw then 0 else 5)

/-- The trap is raised at the root (R79, R82, R83): the record is stored; a collective in NOTE mode notes it, one in STOP
mode ends. -/
def State.raiseTrap (s : State) (g : BitVec 12) (k : Word) (x : Cand) : State :=
  let c := s.coll g k
  let s1 := s.storeTrap g k x
  if isNote c.aw then (if c.decided.isSome then s1 else s1.onColl g k (fun c => { c with noted := true }))
  else s1.decideAbort g k 5 (Cand.src x) x.unit.toNat x.srcDie.toNat

/-- Minimum and maximum of two step reductions. -/
def stepJoin : Option (BitVec 64 × BitVec 64) → Option (BitVec 64 × BitVec 64) → Option (BitVec 64 × BitVec 64)
  | none, b => b
  | a, none => a
  | some (a, b), some (c, d) => some (if a.toNat ≤ c.toNat then a else c, if b.toNat ≤ d.toNat then d else b)

/-- The root member of a BCAST is here and not ABSENT: its own wales are the result (R97). -/
def Coll.rootSupplies (c : Coll) : Bool :=
  c.members.any (fun m => decide (m.cp = isRootCp c.aw) && decide (isSrc m.words ≠ 2))

/-- The complete step reduction is at the root: a skew ends the collective (R104, R328). -/
def State.takeStep (s : State) (g : BitVec 12) (k : Word) (x : BitVec 64 × BitVec 64) : State :=
  let s1 := s.onColl g k (fun c => { c with step := some x })
  if x.1 ≠ x.2 then s1.stepSkew g k x.1 x.2 else s1

/-- A wale (or, with no lanes, the marker that stands for every wale) comes to the root's slath and waits its turn. The
marker of a BCAST whose root supplies carries the STEP of its members alone. -/
def State.rootArrive (s : State) (g : BitVec 12) (k : Word) (w : Nat) (v : WaleV) : State :=
  let c := s.coll g k
  if c.decided.isSome then s
  else if isOp c.aw = 7 ∧ c.rootSupplies = true then
    (match v.step with | some x => s.takeStep g k x | none => s)
  else s.onColl g k (fun c => { c with rootQ := c.rootQ ++ [(w, v)] })

/-- The wale that stands first at the slath reaches the root: its silt, its contributors, its STEP and its trap take effect,
in wale order and once (R43, R82, R83, R104; log entry 78). A trap is stored before a skew that comes with it is decided. -/
def State.rootTake (s : State) (g : BitVec 12) (k : Word) : State :=
  let c := s.coll g k
  match c.rootQ with
  | [] => s
  | (w, v) :: rest =>
    if c.decided.isSome ∨ c.st = .suspended then s
    else
      let s1 := s.onColl g k (fun c => { c with
        silt := sat32 c.silt v.silt, contrib := if v.contrib = 0 then c.contrib else v.contrib,
        rootQ := (w, { v with silt := 0, contrib := 0, step := none, trap := none }) :: rest })
      let s2 := match v.trap with | some x => s1.storeTrap g k x | none => s1
      let s3 := match v.step with | some x => s2.takeStep g k x | none => s2
      match v.trap with | some x => s3.raiseTrap g k x | none => s3

/-! ### Moving a wale up -/

/-- First lane of a wale whose finite word fails R51. -/
def badLane (ls : List Lane) : Option Nat :=
  ls.findIdx? (fun l => match l with | .word w => !w.resOk | _ => false)

/-- A residue mismatch: the entry and the report (R52). -/
def State.residue (s : State) (c : Coll) (code src unit w lane : Nat) : State :=
  (s.logEv code 6 src unit c.k.toNat ((w * 32 + lane) % 2 ^ 32) c.g 2).report c.g c.k 2 src unit
    (BitVec.ofNat 32 (w * 32 + lane))

/-- OR and AND, whose wales carry no side fields (R191): their STEP travels in a marker (DESIGN CHOICE, log entry 10). -/
def rawOp (ws : List Word) : Bool := decide (isOp ws = 5) || decide (isOp ws = 6)

/-- Hand a wale to its target. `w = none` is an absent marker. The wales of a BULK group carry the level of the stage that
they serve, as every partial does (R182; DEDUCED, log entry 76). -/
def State.handTo (s : State) (c : Coll) (tgt : Tgt) (w : Option Nat) (v : WaleV) : State :=
  match tgt with
  | .buf pt port => s.onColl c.g c.k (fun c => { c with bufs := c.bufs ++ [⟨pt, port, w, v⟩] })
  | .away l f d =>
    let vc := s.vcOf c
    match w with
    | some i =>
      let b := partialBody (isOp c.aw) c.g c.k (decide (i = 0)) v
      (s.orFail c.g c.k d l (s.sendSeg d vc l f (some i) b.1 c.g c.k i b.2)).onColl c.g c.k
        (fun c => { c with credits := mput 0 c.credits l (mget 0 c.credits l + 1),
                           fwd := mput 0 c.fwd (awayKey l) (mget 0 c.fwd (awayKey l) + 1),
                           conOut := if rawOp c.aw ∧ i = 0 then mput 0 c.conOut l v.contrib else c.conOut })
    | none => s.orFail c.g c.k d l (s.sendSeg d vc l f (some 0) 4 c.g c.k 0 (markerBody v.step))
  | .root => s.rootArrive c.g c.k (w.getD 0) v

/-- A STEP partial that travels apart from the wales comes to its target (OR and AND): it waits at a combining point, leaves
as a marker body behind raw wale 0, or is complete at the root. -/
def State.stepTo (s : State) (c : Coll) (tgt : Tgt) (x : BitVec 64 × BitVec 64) : State :=
  match tgt with
  | .buf pt port => s.onColl c.g c.k (fun c => { c with steps := c.steps ++ [(pt, port, x.1, x.2)] })
  | .away l f d => s.orFail c.g c.k d l (s.sendSeg d (s.vcOf c) l f (some 0) 4 c.g c.k 0 (markerBody (some x)))
  | .root => if c.decided.isSome then s else s.takeStep c.g c.k x

/-- Send a wale over its pass nodes (R151: each applies R51) to its target. -/
def State.forward (s : State) (c : Coll) (path : List Nat × Tgt) (w : Option Nat) (v : WaleV) : State :=
  match path.1, badLane v.lanes with
  | n :: _, some i => s.residue c 0x05 3 n (w.getD 0) i
  | ns, _ =>
    (s.onColl c.g c.k (fun c => { c with
      fwd := ns.foldl (fun m n => mput 0 m n (mget 0 m n + 1)) c.fwd })).handTo (s.coll c.g c.k) path.2 w v

/-- Every input of the point has delivered an absent marker. -/
def State.allMarked (s : State) (c : Coll) (pt : Point) : Bool :=
  (s.portsOf c pt).all (fun p => c.bufs.any (fun b => decide (b.pt = pt) && decide (b.port = p) && decide (b.wale = none)))

/-- Forward absent markers from points all of whose inputs are markers (R101, R194). -/
def State.passMarkers : Nat → State → BitVec 12 → Word → State
  | 0, s, _, _ => s
  | n + 1, s, g, k =>
    match s.coll? g k with
    | none => s
    | some c =>
      match c.bufs.find? (fun b => decide (b.wale = none) && s.allMarked c b.pt) with
      | none => s
      | some b =>
        let ins := c.bufs.filter (fun x => decide (x.pt = b.pt))
        let st := ins.foldl (fun a x => stepJoin a x.v.step) none
        let s1 := s.onColl g k (fun c => { c with bufs := c.bufs.filter (fun x => decide (x.pt ≠ b.pt)) })
        State.passMarkers n (s1.forward (s1.coll g k) (s1.fromPoint c b.pt) none ⟨[], [], 0, 0, st, none⟩) g k

/-- What waits at a port of a point of a STEP partial: its own partial, or that of an absent marker. -/
def Coll.stepIn (c : Coll) (pt : Point) (port : Nat) : Option (BitVec 64 × BitVec 64) :=
  match c.steps.find? (fun x => decide (x.1 = pt) && decide (x.2.1 = port)) with
  | some x => some (x.2.2.1, x.2.2.2)
  | none => (c.bufs.find? (fun b => decide (b.pt = pt) && decide (b.port = port) && decide (b.wale = none))).bind (fun b => b.v.step)

/-- Every port of the point has its STEP partial, and raw wale 0 has left where the partial must follow it. -/
def State.stepReady (s : State) (c : Coll) (pt : Point) : Bool :=
  (s.portsOf c pt).all (fun p => (c.stepIn pt p).isSome)
    && (match (s.fromPoint c pt).2 with | .away l _ _ => decide (0 < mget 0 c.fwd (awayKey l)) | _ => true)

/-- Forward STEP partials from points all of whose ports have one (R104, R174). -/
def State.passSteps : Nat → State → BitVec 12 → Word → State
  | 0, s, _, _ => s
  | n + 1, s, g, k =>
    match s.coll? g k with
    | none => s
    | some c =>
      match c.steps.find? (fun x => s.stepReady c x.1) with
      | none => s
      | some x =>
        let st := ((s.portsOf c x.1).map (c.stepIn x.1)).foldl stepJoin none
        let s1 := s.onColl g k (fun c => { c with steps := c.steps.filter (fun y => decide (y.1 ≠ x.1)) })
        match st with
        | some v => State.passSteps n (s1.stepTo (s1.coll g k) (s1.fromPoint c x.1).2 v) g k
        | none => s1

/-! ### A combining point (R38, R39, R50 to R52) -/

/-- The buffers that the point takes for wale `w`, in port order; none while an input is missing. -/
def State.inputs (s : State) (c : Coll) (pt : Point) (w : Nat) : Option (List Buf) :=
  (s.portsOf c pt).mapM (fun p => c.bufs.find? (fun b => decide (b.pt = pt) && decide (b.port = p)
    && (decide (b.wale = none) || decide (b.wale = some w))))

/-- One lane of the inputs with its index. -/
def laneAt (ins : List WaleV) (i : Nat) : List (Lane × Word) :=
  ins.map (fun v => (v.lanes.getD i .absent, v.idx.getD i 0xFFFFFFFF#32))

/-- What a combining point makes of its inputs: the wale, and the first failing lane with its event code. -/
def combineWales (op w : Nat) (ins : List WaleV) (site unit die : Nat) (flip : Bool) : WaleV × Option (Nat × Nat) :=
  let outs := (List.range 32).map (fun i => combineLane op (laneAt ins i))
  let made := outs.zipIdx.filterMap (fun x => if x.1.created then
      some (⟨BitVec.ofNat 32 w, BitVec.ofNat 5 x.2, BitVec.ofNat 16 die, BitVec.ofNat 2 site, BitVec.ofNat 10 unit, true, 0⟩ : Cand)
    else none)
  let fail := (outs.zipIdx.findSome? (fun x =>
    if !x.1.resOk || (flip && decide (x.2 = 0)) then some (x.2, 0x05) else if !x.1.dualOk then some (x.2, 0x06) else none))
  (⟨outs.map (fun o => o.out), if op = 4 then outs.map (fun o => o.idx) else [],
    (outs.map (fun o => o.silt)).foldl sat32 ((ins.map (fun v => v.silt)).foldl sat32 0),
    (ins.map (fun v => v.contrib)).foldl (fun a b => a + b) 0,
    if w = 0 then ins.foldl (fun a v => stepJoin a v.step) none else none,
    candMin (ins.foldl (fun a v => candMin a v.trap) none) made.head?⟩, fail)

/-- Lane 0 of a SUM or WSUM output is a finite nonzero word (Table RG-12a, KIND 1). -/
def flippable (op : Nat) (ins : List WaleV) : Bool :=
  decide (op ≤ 1) && (match (combineLane op (laneAt ins 0)).out with | .word x => x.nz | _ => false)

/-- The injection of KIND 1 acts at this point (R424). -/
def State.injects (s : State) (pt : Point) (op : Nat) (ins : List WaleV) : Bool :=
  s.dbg.armed && decide (s.dbg.injKind = 1) && flippable op ins
    && (match pt with | .node i => decide (s.dbg.injUnit.toNat = i) | _ => false)

/-- The injection has acted. -/
def State.injected (s : State) : State :=
  { s with dbg := { s.dbg with armed := false, injCnt := satInc s.dbg.injCnt } }

/-- Return wale credits for inputs of a stage combine that came from other dies (R204). -/
def State.wcredit (s : State) (c : Coll) (pt : Point) (ins : List Buf) : State :=
  match pt with
  | .stage l =>
    let grp := s.group c.g
    let subs := grp.subs l (unitOf l s.own)
    (ins.filter (fun b => b.wale.isSome)).foldl (fun t b =>
      let u := ((subs.find? (fun x => decide (x.1 = b.port))).map (fun x => x.2)).getD s.own
      let d := s.standing grp c.rd (l - 1) u
      if d = s.own then t else t.send d c.g c.k (.wcred l b.port 1)) s
  | _ => s

/-- The inputs that `w` consumes leave their buffers; markers stay for the wales that follow. -/
def dropInputs (pt : Point) (w : Nat) (bs : List Buf) : List Buf :=
  bs.filter (fun b => decide (b.pt ≠ pt) || decide (b.wale ≠ some w))

/-- Combine wale `w` at a node or stage combine, when every input is here and the output has room (R38). -/
def State.combineTree (s : State) (c : Coll) (pt : Point) (w : Nat) : State :=
  let path := s.fromPoint c pt
  match s.inputs c pt w with
  | none => s
  | some ins =>
    if !ins.any (fun b => b.wale.isSome) || decide (mget 0 c.fwd (siteKey pt) ≠ w) || !s.room c path.2 then s
    else
      let vs := ins.map (fun b => b.v)
      let op := isOp c.aw
      let inj := s.injects pt op vs
      let site := s.trapSite c pt
      let r := combineWales op w vs site.1 site.2 s.own inj
      let s0 := if inj then s.injected else s
      let s1 := (s0.onColl c.g c.k (fun c => { c with bufs := dropInputs pt w c.bufs })).wcredit c pt ins
      match r.2 with
      | some (lane, code) =>
        let u := s.siteOf c pt
        s1.residue c code u.1 u.2 w lane
      | none =>
        let s2 := s1.onColl c.g c.k (fun c => { c with fwd := mput 0 c.fwd (siteKey pt) (w + 1) })
        State.passSteps 16 (s2.forward (s2.coll c.g c.k) path (some w) r.1) c.g c.k

end Sys2Proof.Machine
end

