-- ==== Sys2Proof/Machine/Exchange.lean ====
section
/-! DEFINITION. Routed operations (spec/05): header wales, the expert map, placement, and what each member
receives beside its data. -/

namespace Sys2Proof.Machine

/-! ### Header wales (R124, R125, Table EX-4) -/

/-- A header wale from its lanes 0 to 16; lanes 17 to 25 are the complements of lanes 0 to 8. -/
def mkHeader (lanes : List Word) : List Byte :=
  let ls := lanes.take 17 ++ List.replicate (17 - lanes.length) 0#32
  wordsBytes (ls ++ (ls.take 9).map (fun w => ~~~w) ++ List.replicate 6 0#32)

/-- The lanes of a header wale. -/
def hdrLanes (h : List Byte) : List Word := wordsAt h 0 32

/-- Lanes 17 to 25 are the complements of lanes 0 to 8. -/
def hdrOk (h : List Byte) : Bool :=
  let ls := hdrLanes h
  (List.range 9).all (fun i => decide (wd ls (17 + i) = ~~~(wd ls i)))

def hTok (h : List Byte) : Nat := wf_ (wd (hdrLanes h) 0) 15 0
def hKn (h : List Byte) : Nat := wf_ (wd (hdrLanes h) 0) 19 16
def hPlaced (h : List Byte) : Nat := wf_ (wd (hdrLanes h) 0) 27 20
def hKind (h : List Byte) : Nat := wf_ (wd (hdrLanes h) 0) 29 28
def hLane (h : List Byte) (i : Nat) : Word := wd (hdrLanes h) i
def hEnd (h : List Byte) : Bool := decide (hKn h = 15)
/-- Expert of route `j` of a route list. -/
def hExpert (h : List Byte) (j : Nat) : Nat := wf_ (hLane h (1 + j)) 15 0
def hGate (h : List Byte) (j : Nat) : Word := hLane h (9 + j)
/-- OWNER_DIE, OWNER_CP, J, SLOT and EXPERT of a return tag. -/
def tDie (h : List Byte) : Nat := wf_ (hLane h 1) 15 0
def tCp (h : List Byte) : Nat := wf_ (hLane h 1) 25 16
def tJ (h : List Byte) : Nat := wf_ (hLane h 1) 28 26
def tSlot (h : List Byte) : Nat := wf_ (hLane h 2) 23 0
def tExpert (h : List Byte) : Nat := wf_ (hLane h 3) 15 0

/-- A return tag (HKIND 1). -/
def returnTag (t die cp j slot e : Nat) : List Byte :=
  mkHeader [BitVec.ofNat 32 (t % 65536 + pl 1 16 + pl 1 28), BitVec.ofNat 32 (die + pl cp 16 + pl j 26),
    BitVec.ofNat 32 (slot % 2 ^ 24), BitVec.ofNat 32 e]

/-- A result header (HKIND 2). -/
def resultHeader (t kn mask : Nat) : List Byte :=
  mkHeader [BitVec.ofNat 32 (t % 65536 + pl kn 16 + pl mask 20 + pl 2 28)]

/-! ### The expert map (R126, Table EX-5) -/

def Cfg.expert (c : Cfg) (e : Nat) : BitVec 128 := mget 0 c.experts e
def eWord (v : BitVec 128) (i : Nat) : Word := v.extractLsb' (32 * i) 32
/-- The entry agrees with its complement. An entry that the map does not list reads as VALID 0. -/
def eOk (v : BitVec 128) : Bool :=
  decide (v = 0) || (decide (eWord v 2 = ~~~(eWord v 0)) && decide (eWord v 3 = ~~~(eWord v 1)))
/-- Every entry agrees with its complement: what a step that scans the map for experts checks (R126). -/
def Cfg.mapOk (c : Cfg) : Bool := c.experts.all (fun x => eOk x.2)
def eDie (v : BitVec 128) : Nat := wf_ (eWord v 0) 15 0
def eCp (v : BitVec 128) : Nat := wf_ (eWord v 0) 25 16
def eValid (v : BitVec 128) : Bool := wbit (eWord v 0) 26
def eBase (v : BitVec 128) : Nat := wf_ (eWord v 1) 23 0

/-- Experts mapped to a member, ascending. -/
def Cfg.expertsOf (c : Cfg) (die cp : Nat) : List Nat :=
  (c.experts.filter (fun x => eValid x.2 && decide (eDie x.2 = die) && decide (eCp x.2 = cp))).map (fun x => x.1)

/-! ### Tables EX-3 and EX-9: what is refused -/

/-- Two slot blocks of `n` slots overlap. -/
def overlaps (a b n : Nat) : Bool := decide (a < b + n) && decide (b < a + n)

/-- The slot blocks of the members of `g` are in range and do not overlap for this C. -/
def State.slotsFit (s : State) (g : BitVec 12) (nc : Nat) : Bool :=
  let es := s.img.cfg.experts.filter (fun x => eValid x.2 && s.memberAt g (eDie x.2) (eCp x.2))
  es.all (fun x => decide (eBase x.2 + nc ≤ 2 ^ 24))
    && es.all (fun x => es.all (fun y => decide (x.1 = y.1) || decide (eDie x.2 ≠ eDie y.2) || decide (eCp x.2 ≠ eCp y.2)
      || !overlaps (eBase x.2) (eBase y.2) nc))

/-- DEST, ECHO, formats and gate format follow Table EX-3. -/
def exForms (ws : List Word) : Bool :=
  let gOk := decide (isGateFmt ws ≤ 1)
  let wide := decide (isIn ws ≤ 2)
  let red := decide (isOut ws ≤ 8)
  !isEcho ws &&
    (if isOp ws = 7 then
      decide (isDest ws = 2) && (if isWgt ws then wide && red && gOk else
        decide (isIn ws ≤ 9) && decide (isOut ws = isIn ws) && decide (isGateFmt ws = 0))
    else if isOp ws = 0 then decide (isDest ws = 0) && decide (isIn ws ≤ 8) && red && decide (isGateFmt ws = 0)
    else decide (isDest ws = 0) && wide && red && gOk)

/-- A condition of Table EX-9 holds. -/
def State.exRefused (s : State) (g : BitVec 12) (ws : List Word) : Bool :=
  !(decide (isOp ws = 0) || decide (isOp ws = 1) || decide (isOp ws = 7)) || decide (isK ws = 0) || decide (8 < isK ws)
    || (isWgt ws && decide (isOp ws ≠ 7)) || !exForms ws || decide (16384 < isCount ws) || !s.img.cfg.hasMap
    || decide (65536 < s.members g) || !s.slotsFit g (s.members g * isC ws)

/-! ### Sizes and placement (R129, R130, R135) -/

/-- Bytes of one image. -/
def fmtImage (f : Nat) : Nat := 64 * fmtBeats f

/-- SB, which is also RB. -/
def slotBytes (ws : List Word) : Nat := 128 + isWales ws * fmtImage (isOut ws)

/-- Outcome of placing one route. -/
inductive Placing where
  | place (die cp slot : Nat)
  | drop
  | corrupt
  | mismatch
  deriving DecidableEq, Repr

/-- place_routes for one route of expert `e` (R129, Table EX-8). -/
def State.placeRoute (s : State) (g : BitVec 12) (ws : List Word) (r : Nat) (fill : Map Nat) (e : Nat) : Placing :=
  let v := s.img.cfg.expert e
  if eOk v = false then .corrupt
  else if eValid v = false ∨ s.memberAt g (eDie v) (eCp v) = false then .mismatch
  else if mget 0 fill e < isC ws then .place (eDie v) (eCp v) (eBase v + r * isC ws + mget 0 fill e)
  else .drop

/-- Index of the region that slot `slot` of expert `e` lies in, among the member's regions (R134). -/
def State.regionOf (s : State) (g : BitVec 12) (ws : List Word) (cp e slot : Nat) : Nat :=
  let es := s.img.cfg.expertsOf s.own cp
  (es.findIdx? (fun x => decide (x = e))).getD 0 * s.members g + (slot - eBase (s.img.cfg.expert e)) / isC ws

/-! ### Drop map, fill counts and seal words (R134, R136) -/

/-- Drop-map wales of a member of a routed broadcast. -/
def dropWales (x : ExMem) : List (List Byte) :=
  let bs := x.toks.map (fun t => BitVec.ofNat 8 t.drop)
  (List.range (cdiv x.toks.length 128)).map (fun i => padTo 128 (slice bs (128 * i) 128))

/-- Fill wales of a member of a routed broadcast. -/
def State.fillWales (s : State) (g : BitVec 12) (cp : Nat) (x : ExMem) : List (List Byte) :=
  let n := (s.img.cfg.expertsOf s.own cp).length * s.members g
  (List.range (cdiv n 32)).map (fun i => wordsBytes ((List.range 32).map (fun j => BitVec.ofNat 32 (mget 0 x.slots (32 * i + j)))))

/-- Words 12 to 15 of a member's seal (Table EX-6a). FILL_WALES holds 16 bits: a larger count shows its low 16 bits
(DESIGN CHOICE, log entry 79). -/
def State.exWords (s : State) (c : Coll) (m : Member) : List Word :=
  if isExch c.aw = false then [0, 0, 0, 0]
  else if isOp c.aw = 7 then
    [BitVec.ofNat 32 m.ex.dropped, BitVec.ofNat 32 m.ex.sent, BitVec.ofNat 32 m.ex.recvd,
      BitVec.ofNat 32 ((dropWales m.ex).length % 65536 + pl (s.fillWales c.g m.cp m.ex).length 16)]
  else [0, BitVec.ofNat 32 m.ex.sent, BitVec.ofNat 32 m.ex.recvd, 0]

/-- The wales of R134 with their CP_RX_KIND. -/
def State.exTail (s : State) (c : Coll) (m : Member) : List (Nat × List Byte) :=
  if isExch c.aw ∧ isOp c.aw = 7 then
    (dropWales m.ex).map (fun w => (3, w)) ++ (s.fillWales c.g m.cp m.ex).map (fun w => (4, w))
  else []

/-- The stream that the port still owes after an abort ends with this many END headers (R364). -/
def exEnds (c : Coll) (m : Member) : Nat :=
  if m.ex.fin then 0 else if isOp c.aw = 7 then 1 else 3 - min m.ex.part 2

end Sys2Proof.Machine
end

