-- ==== Sys2Proof/Machine/Settle.lean ====
section
/-! DEFINITION. The root's release, the down path, the close round and the terminal token (spec/04, spec/13): what
follows once a wale has reached the root or a leaf. -/

namespace Sys2Proof.Machine

/-! ### Delivery (R96, R98, R173) -/

/-- The member is a receiver of result data (Table CO-5). -/
def Coll.receives (c : Coll) (die cp : Nat) : Bool :=
  let root := decide (c.rd = die) && decide (isRootCp c.aw = cp)
  if isExch c.aw then true
  else if isOp c.aw = 7 then !root
  else isEcho c.aw || (decide (isDest c.aw = 0) && root)

/-- Give wale data to a member's sink channel. -/
def State.giveSink (s : State) (c : Coll) (m : Member) (beats : List (SinkAt × List Byte)) (last : Bool) : State :=
  let ch := isRxCh m.words
  ((s.onChan ch (fun x => x.give c.g c.k m.cp beats last)).fillChan ch).sinkEnd ch

/-- Flits of the collective's wales that wait to leave on a stake, counted by their first fragments. -/
def stakeHolds (x : Stake) (c : Coll) : Nat :=
  (x.txq.filter (fun f => match segsIn f.payload with
    | sg :: _ => sg.of c.g c.k && decide (sg.kind ≠ 6) && decide (sg.frag = 0)
    | [] => false)).length

/-- The member's SINK binding stands: its channel has not halted or been disabled. -/
def State.sinkBound (s : State) (c : Coll) (m : Member) : Bool := (s.chan (isRxCh m.words)).binds.any (fun b => b.isSink c.g c.k m.cp)

/-- The member takes one more result wale (R238, R296): its leaf holds fewer than b wales that the core has not taken, or its
SINK channel has room and the member's turn has come (R19; log entry 30). What a channel that halted is sent is dropped. -/
def State.memRoom (s : State) (c : Coll) (m : Member) : Bool :=
  if isRxSink m.words then
    !s.sinkBound c m || ((s.port m.cp).may c.g m.k
      && (s.chan (isRxCh m.words)).sinkRoom c.g c.k m.cp (fmtBeats (isOut c.aw) + (if isOp c.aw = 4 then 2 else 0)))
  else decide (((s.port m.cp).rxq.filter (fun r => decide (r.g = c.g) && decide (r.k = m.k))).length < max 1 s.img.cfg.bufs)

/-- The way down an edge takes one more wale: its stake holds fewer than b wales of the collective. -/
def State.edgeRoom (s : State) (c : Coll) (n dest : Nat) : Bool :=
  match s.routeNext dest with
  | .stake m => (match s.pick m n with | some i => decide (stakeHolds (s.stake i) c < max 1 s.img.cfg.bufs) | none => true)
  | _ => true

/-- A chain passes result wale `n` on: every receiver of the die's own and every way down has room (R238). -/
def State.downRoom (s : State) (c : Coll) (ch : Chain) (n : Nat) : Bool :=
  (!ch.mem || (c.members.filter (fun m => c.receives s.own m.cp)).all (s.memRoom c))
    && (!c.toAll || (s.kidsOf (s.group c.g) c.rd ch).all (fun x => s.edgeRoom c n x.2.2))

/-- Deliver result wale `n` at the chain's receivers and send it to the dies below (R173). -/
def State.deliverWale (s : State) (g : BitVec 12) (k : Word) (ch : Chain) (n kind : Nat) (img : List Byte) : State :=
  let c := s.coll g k
  let total := isResWales c.aw
  let s1 := if ch.mem then (c.members.filter (fun m => c.receives s.own m.cp && (!isRxSink m.words || s.sinkBound c m))).foldl (fun t m =>
      let t1 := t.onColl g k (fun c => c.onMember m.cp (fun m => { m with rx := m.rx + 1 }))
      if isRxSink m.words then t1.giveSink c m ((beatsOf img).map (fun b => (SinkAt.walk, b))) (decide (n + 1 = total))
      else t1.rxWale m.cp g m.k kind img) s
    else s
  if c.toAll then
    (s.kidsOf (s.group g) c.rd ch).foldl (fun t x =>
      t.orFail g k x.2.2 x.1 (t.sendSeg x.2.2 (t.vcOf c) x.1 (subField x.1 t.own) (some n) 2 g k n
        (usedBytes (if kind = 1 then 9 else isOut c.aw) img))) s1
  else s1

/-- CP_RX_KIND of result wale `n`. -/
def Coll.kindOf (c : Coll) (n : Nat) : Nat := if isOp c.aw = 4 ∧ n % 2 = 1 then 1 else 0

/-- The next down wale of a chain, once it is here. -/
def Coll.downHead (c : Coll) (id : Nat) : Option (List Byte) :=
  (c.down.find? (fun x => decide (x.1 = id) && decide (x.2.1 = mget 0 c.downNext id))).map (fun x => x.2.2)

/-- Down wales of a chain in order (R170): deliver while the next one is here and there is room. -/
def State.downPump : Nat → State → BitVec 12 → Word → Nat → State
  | 0, s, _, _, _ => s
  | f + 1, s, g, k, id =>
    match s.coll? g k with
    | none => s
    | some c =>
      match c.downHead id, s.chainFor (s.group g) c.rd id with
      | some body, some ch =>
        let n := mget 0 c.downNext id
        if c.st = .queued ∨ s.downRoom c ch n = false then s
        else
          let kind := c.kindOf n
          let s1 := s.onColl g k (fun c => { c with
            downNext := mput 0 c.downNext id (n + 1), down := c.down.filter (fun x => decide (x.1 ≠ id) || decide (x.2.1 ≠ n)) })
          State.downPump f (s1.deliverWale g k ch n kind (imageOf (if kind = 1 then 9 else isOut c.aw) body)) g k id
      | _, _ => s

/-- A down wale arrives for a chain. -/
def State.downArrive (s : State) (g : BitVec 12) (k : Word) (id n : Nat) (body : List Byte) : State :=
  s.onColl g k (fun c => { c with down := c.down ++ [(id, n, body)] })

/-- Every chain's down wales. -/
def State.downAll (s : State) (g : BitVec 12) (k : Word) : State :=
  let c := s.coll g k
  ((c.down.map (fun x => x.1)).eraseDups).foldl (fun t id => State.downPump c.down.length t g k id) s

/-! ### Release at the root (R66, R98, R103, R327) -/

/-- The conversion of one lane. -/
def convLane (c : Coll) : Lane → Conv
  | .word w => if isOp c.aw ≤ 1 then convertSum w (isScale c.aw) (isBias c.aw) else convertCmp w
  | _ => ⟨.fin, Dy.zero⟩

/-- The image of value wale `n` and its output-silt events. -/
def Coll.convert (c : Coll) (n : Nat) (v : WaleV) : List Byte × Nat :=
  if v.lanes = [] then (mkImage (isOut c.aw) [] 0, 0)
  else if isOp c.aw = 5 ∨ isOp c.aw = 6 then
    (mkImage 9 (v.lanes.map (fun l => match l with | .raw p => p.toNat | _ => 0)) 0, 0)
  else encodeWale (isOut c.aw) (isLanes c.aw n) (isOvf c.aw) (v.lanes.map (convLane c))

/-- The index wale of MAXIDX. -/
def idxWale (v : WaleV) : List Byte := wordsBytes ((List.range 32).map (fun i => v.idx.getD i 0xFFFFFFFF#32))

/-- The root's chain: all of its levels (R159). -/
def State.topChain (s : State) (c : Coll) : Chain := (s.chainFor (s.group c.g) c.rd 5).getD ⟨5, [0], .top⟩

/-- Hand one released value wale on: counts, digest, receivers, update record. -/
def State.release (s : State) (g : BitVec 12) (k : Word) (n : Nat) (img : List Byte) (idx : Option (List Byte)) (osilt : Nat) : State :=
  let c := s.coll g k
  let per := if idx.isSome then 2 else 1
  let ch := s.topChain c
  let s1 := s.onColl g k (fun c => { c with
    released := c.released + per, osilt := sat32 c.osilt osilt, digest := crc64Run c.digest (img ++ idx.getD []),
    st := if c.released + per = isResWales c.aw then .closing else c.st })
  let s2 := s1.deliverWale g k ch (n * per) 0 img
  let s3 := match idx with | some i => s2.deliverWale g k ch (n * per + 1) 1 i | none => s2
  if c.toUpd && !(c.elide && decide (c.contrib = 0)) then
    let st := (c.step.map (fun x => x.1)).getD 0
    s3.updPut g k (dataRecord (s3.coll g k) n c.contrib st img) true
  else s3

/-- The slath may release the wale that stands first: the collective is OPEN, not decided and not being suspended, its STEP is
complete (R104), and its receivers have room (R238). -/
def State.mayRelease (s : State) (c : Coll) : Bool :=
  decide (c.st = .opened) && c.decided.isNone && !s.held c && (!isStep c.aw || c.step.isSome)
    && s.downRoom c (s.topChain c) c.released

/-- The collective has a wale to release toward the update port. -/
def State.updWants (s : State) (c : Coll) : Bool :=
  c.toUpd && (match c.rootQ with | (_, v) :: _ => !(c.elide && decide (v.lanes = [])) | [] => false) && s.mayRelease c

/-- Beats of one DATA record of the collective. -/
def Coll.recBeats (c : Coll) : Nat := 1 + fmtBeats (isOut c.aw)

/-- The port's buffer has room for a record of the collective after those of the collectives whose turn comes before (R330,
R333): the turn goes round in the order of admission (DESIGN CHOICE, log entry 39). -/
def State.updTurn (s : State) (c : Coll) : Bool :=
  let ahead := (s.updOrder.takeWhile (fun x => !x.is c.g c.k)).filter s.updWants
  decide (s.updHeld + (ahead.map Coll.recBeats).foldl (fun a b => a + b) 0 + c.recBeats ≤ 128)

/-- The update port takes one more wale of the collective: a record for it fits, and the port admits it (R261, R333). -/
def State.updAdmits (s : State) (c : Coll) (unv : Bool) : Bool × State :=
  if c.toUpd && !(c.elide && unv) then (if s.updTurn c then s.opportunity ptUpd else (false, s)) else (true, s)

/-- Take in and release what can be released, in wale order. -/
def State.rootPump : Nat → State → BitVec 12 → Word → State
  | 0, s, _, _ => s
  | f + 1, s0, g, k =>
    let s := s0.rootTake g k
    match s.coll? g k with
    | none => s
    | some c =>
      match c.rootQ with
      | [] => s
      | (_, v) :: rest =>
        let unv := decide (v.lanes = [])
        let n := if isOp c.aw = 4 then c.released / 2 else c.released
        if s.mayRelease c = false then s
        else
          let a := s.updAdmits c unv
          if a.1 = false then a.2
          else
            let r := c.convert n v
            let s1 := a.2.onColl g k (fun c => { c with rootQ := if unv && decide (n + 1 < isWales c.aw) then c.rootQ else rest })
            State.rootPump f (s1.release g k n r.1 (if isOp c.aw = 4 then some (idxWale v) else none) r.2) g k

/-! ### Fingerprint and close reports (R22, R356) -/

/-- The reports of a chain's inputs from below have all come. -/
def State.allIn (s : State) (c : Coll) (ch : Chain) (l : List (Nat × Nat)) : Bool :=
  (s.kidsOf (s.group c.g) c.rd ch).all (fun x => l.contains (x.1, x.2.1))

/-- The inputs of a list of reports that belong to a chain. -/
def ofChain (ch : Chain) (l : List (Nat × Nat × α)) : List α := (l.filter (fun x => ch.levels.contains x.1)).map (fun x => x.2.2)

/-- XOR of the fingerprint terms that a chain has gathered, and their members (R356). -/
def Coll.fpSum (c : Coll) (ch : Chain) : BitVec 64 × Nat :=
  (ofChain ch c.fpIn).foldl (fun a x => (a.1 ^^^ x.1, a.2 + x.2)) (if ch.mem then (c.fp, c.members.length) else (0, 0))

/-- The fingerprint of a chain is complete. -/
def State.fpReady (s : State) (c : Coll) (ch : Chain) : Bool :=
  (!ch.mem || c.fpLocal) && s.allIn c ch (c.fpIn.map (fun x => (x.1, x.2.1)))

/-- A chain whose members and dies below have all reported their fingerprint terms reports up (R356). -/
def State.fpChain (s : State) (g : BitVec 12) (k : Word) (ch : Chain) : State :=
  let c := s.coll g k
  if ch.id = 5 ∨ c.fpFwd.contains ch.id = true ∨ s.fpReady c ch = false then s
  else
    let x := c.fpSum ch
    (s.sendUp ch g k (.fprint x.1 (BitVec.ofNat 32 x.2))).onColl g k (fun c => { c with fpFwd := c.fpFwd ++ [ch.id] })

/-- Fingerprint reports of every chain. -/
def State.fpTry (s : State) (g : BitVec 12) (k : Word) : State :=
  match s.coll? g k with
  | none => s
  | some c =>
    let s0 := if !c.fpLocal && c.members.all (fun m => m.fpDone) then s.onColl g k (fun c => { c with fpLocal := true }) else s
    (s.chains (s.group g) c.rd).foldl (fun t ch => t.fpChain g k ch) s0

/-- The member's own data is complete and checked: every wale has arrived, and the read-back of its sink has matched
(R22, R307). -/
def State.memberClosed (s : State) (c : Coll) (m : Member) : Bool :=
  !c.receives s.own m.cp || (decide (m.rx = isResWales c.aw) && (!isRxSink m.words || m.sunk))

/-- CONTRIB of the raw partials of OR and AND, which travels with the close round (log entry 10). -/
def Coll.conSum (c : Coll) (ch : Chain) : Nat :=
  (ofChain ch c.closeIn).foldl (fun a b => match b with | .close _ _ _ _ con _ _ _ _ _ => a + con.toNat | _ => a)
    (if ch.id = 5 then c.contrib else mget 0 c.conOut ch.id)

/-- Seal words 0 to 11 with word 5 as 0 (Table CO-6). -/
def sealWords (c : Coll) : List Word :=
  let st := if isStep c.aw then (c.step.map (fun x => x.1)).getD 0 else 0
  [c.k, BitVec.ofNat 32 (c.g.toNat + pl (isOp c.aw) 12 + pl (b1 (decide (c.contrib = 0))) 24 + pl (b1 c.noted) 25
      + pl (b1 c.late) 26 + pl (b1 (isExch c.aw)) 27),
    BitVec.ofNat 32 c.contrib, BitVec.ofNat 32 c.silt, BitVec.ofNat 32 c.osilt, 0,
    c.digest.setWidth 32, (c.digest >>> 32).setWidth 32, c.fp.setWidth 32, (c.fp >>> 32).setWidth 32,
    st.setWidth 32, (st >>> 32).setWidth 32]

/-- Release the seal (R22): the decision, the SEAL record, and the token. -/
def State.releaseSeal (s : State) (g : BitVec 12) (k : Word) : State :=
  let c := s.coll g k
  let s1 := s.onColl g k (fun c => { c with decided := some 0, st := .closing })
  let st := (c.step.map (fun x => x.1)).getD 0
  let s2 := if c.toUpd then s1.updPut g k (sealRecord c c.contrib c.silt c.osilt st c.digest) false else s1
  let ws := sealWords c
  s2.post ⟨g, k, s.wl.dieId, 0, 0, 0, .token ws (compl ws)⟩

/-- Members of a chain that have closed, with those of the dies below. -/
def Coll.closeSum (c : Coll) (ch : Chain) : Nat :=
  (ofChain ch c.closeIn).foldl (fun a b => match b with | .close _ n _ _ _ _ _ _ _ _ => a + n.toNat | _ => a)
    (if ch.mem then c.members.length else 0)

/-- The close round of an ordinary collective at one chain (R22): up, or at the root the seal, with the fingerprint and the
STEP complete. -/
def State.closeChain (s : State) (g : BitVec 12) (k : Word) (ch : Chain) : State :=
  let c := s.coll g k
  if (ch.mem && !c.members.all (s.memberClosed c)) ∨ s.allIn c ch (c.closeIn.map (fun x => (x.1, x.2.1))) = false then s
  else if ch.id = 5 then
    if c.st = .closing ∧ s.fpReady c ch = true ∧ (isStep c.aw = false ∨ c.step.isSome = true) then
      (s.onColl g k (fun c => { c with fp := (c.fpSum ch).1, contrib := if rawOp c.aw then c.conSum ch else c.contrib })).releaseSeal g k
    else s
  else if c.fpFwd.contains ch.id = false ∨ c.closeFwd.contains ch.id = true then s
  else
    (s.sendUp ch g k (.close 0 (BitVec.ofNat 32 (c.closeSum ch)) 0 0 (BitVec.ofNat 32 (if rawOp c.aw then c.conSum ch else 0)) 0 0 0 0
      none)).onColl g k (fun c => { c with closeFwd := c.closeFwd ++ [ch.id] })

/-- The close round of an ordinary collective at this die. -/
def State.closeTry (s : State) (g : BitVec 12) (k : Word) : State :=
  match s.coll? g k with
  | none => s
  | some c =>
    if isExch c.aw ∨ c.decided.isSome ∨ c.isOpen = false then s
    else (s.chains (s.group g) c.rd).foldl (fun t ch => t.closeChain g k ch) s

/-- What follows a change of a collective on this die: down wales, and until it is decided release, reports, close. -/
def State.advance (s : State) (g : BitVec 12) (k : Word) : State :=
  let n := isWales (s.coll g k).aw + 1
  let s1 := s.downAll g k
  if (s1.coll g k).decided.isSome then s1 else ((State.rootPump n s1 g k).fpTry g k).closeTry g k

/-! ### The terminal token at a member die (R21, R105, R108, R110, R431) -/

/-- The member's SINK channel holds result words of the collective that it has not written yet. -/
def State.sinkHolds (s : State) (c : Coll) (m : Member) : Bool :=
  let x := s.chan (isRxCh m.words)
  let mine (b : Bind) : Bool := decide (b.g = c.g) && decide (b.k = c.k) && decide (b.cp = m.cp) && b.sink
  isRxSink m.words && (x.binds.any (fun b => mine b && decide (b.pend ≠ []))
    || (match x.binds with
        | b :: _ => mine b && (decide (x.sinkq ≠ []) || decide (x.unacked ≠ 0) || decide (x.endPh ≠ .none))
        | [] => false))

/-- The lowest-ranked site of this die that holds up the collective: SRC, UNIT and ARG1 (R431). -/
def State.heldUpAt (s : State) (c : Coll) : Nat × Nat × Nat :=
  let leafs := (c.members.filter (fun m => !m.fpDone || s.sinkHolds c m)).mergeSort (fun a b => decide (a.cp ≤ b.cp))
  let nodes := ((c.bufs.filterMap (fun b => match b.pt, b.wale with | .node i, some _ => some i | _, _ => none))).mergeSort (fun a b => decide (a ≤ b))
  let stg := c.bufs.filterMap (fun b => match b.pt, b.wale with | .stage l, some _ => some l | _, _ => none)
  match leafs with
  | m :: _ => if !m.fpDone ∧ isSrc m.words = 1 then (5, isSrcCh m.words, m.sent) else (1, m.cp, m.sent)
  | [] =>
    match nodes with
    | i :: _ => (3, i, mget 0 c.fwd i)
    | [] =>
      match stg with
      | l :: _ =>
        let u := s.siteOf c (.stage l)
        (u.1, u.2, mget 0 c.fwd (siteKey (.stage l)))
      | [] =>
        if c.rootQ ≠ [] then (3, s.img.cfg.slath, c.released)
        else
          match (List.range 16).find? (fun n => decide (0 < stakeHolds (s.stake n) c)) with
          | some n =>
            let l := (((s.ups (s.group c.g) c.rd).find? (fun e => s.uses e.2.2 n)).map (fun e => e.1)).getD 0
            (4, n, mget 0 c.fwd (awayKey l) - stakeHolds (s.stake n) c)
          | none => (0, 0xFFFF, 0)

/-- The TIMEOUT_SITE entry (R431). -/
def State.timeoutSite (s : State) (c : Coll) : State :=
  let h := s.heldUpAt c
  s.logEv 0x0D 1 h.1 h.2.1 c.k.toNat h.2.2 c.g 8

/-- A released seal cannot be delivered to the member (R110, R436). -/
def State.sealLost (s : State) (g : BitVec 12) (k : Word) (cp : Nat) : State :=
  (((s.logEv 0x10 7 1 cp k.toNat 0 g).attn 9).onPort cp (fun p => { p with latched := true })).onColl g k
    (fun c => c.onMember cp (fun m => { m with ended := true }))

/-- Wales that the port keeps taking and discarding after an abort (R109, R364). -/
def State.oweRest (s : State) (c : Coll) (m : Member) : State :=
  let supplies := decide (isSrc m.words = 0) && c.isOpen
    && (isExch c.aw || decide (isOp c.aw ≠ 7) || (decide (c.rd = s.own) && decide (isRootCp c.aw = m.cp)))
  let left := if isExch c.aw then exEnds c m else isWales c.aw - m.sent
  let o : Owe := if isExch c.aw then .stream m.ex.left (isWales c.aw) (decide (isOp c.aw = 7)) left else .wales left
  if supplies && decide (left ≠ 0) then s.onPort m.cp (fun p => p.setOwes c.g (p.owes c.g ++ [o])) else s

/-- Give the member its terminal token; a routed operation's drop-map and fill wales come first under a seal. -/
def State.endMember (s : State) (c : Coll) (m : Member) (ws : List Word) : State :=
  let code := wf_ (wd ws 1) 23 16
  if m.ended then s
  else
    let tail := if code = 0 then s.exTail c m else []
    let s1 :=
      if isRxSink m.words ∧ isExch c.aw ∧ code = 0 then
        let beats := (tail.flatMap (fun x => beatsOf x.2)).zipIdx.map (fun x => (SinkAt.src (64 * x.2), x.1))
        s.giveSink c m beats true
      else tail.foldl (fun t x => t.rxWale m.cp c.g m.k x.1 x.2) s
    let words := if code = 0 then
        m.k :: ((ws.take 5).drop 1 ++ [BitVec.ofNat 32 m.rx] ++ (ws.take 12).drop 6 ++ s.exWords c m)
      else abortWords c.g m.k (wf_ (wd ws 1) 15 12) code m.rx
    let s2 := (s1.putTok m.cp c.g m.k words).onColl c.g c.k (fun c => c.onMember m.cp (fun m => { m with ended := true }))
    if code = 0 then s2 else s2.oweRest c m

/-- Every AGREE that this die gives or takes for the collective has passed: inputs are paired by their position (R15), so an
ended collective stays until then. -/
def State.agreed (s : State) (c : Coll) : Bool :=
  let grp := s.group c.g
  (s.kids grp grp.home).all (fun x => c.agIn.any (fun a => decide (a.level = x.1) && decide (a.field = x.2.1)))
    && (s.chains grp grp.home).all (fun ch => decide (ch.id = 5) || c.agSent.contains ch.id)

/-- Every chain of this die that the terminal token follows has had it. -/
def State.tokensPassed (s : State) (c : Coll) : Bool :=
  (s.chains (s.group c.g) (s.treeRoot c)).all (fun ch => c.tokSegs.contains ch.id)

/-- The member's terminal token has not left its port yet. -/
def State.tokenAt (s : State) (c : Coll) (m : Member) : Bool := (s.port m.cp).tokq.any (fun t => decide (t.g = c.g) && decide (t.k = m.k))

/-- Nothing of the collective remains to be done on this die: its last terminal token has left (R229). Of an image that is gone
only the tokens remain (R406). -/
def State.collDone (s : State) (c : Coll) : Bool :=
  decide (c.st = .ended) && c.members.all (fun m => m.ended && !s.tokenAt c m)
    && (c.old || (!c.legs.any (fun l => l.seen && !l.ended) && s.tokensPassed c && s.agreed c
      && (s.localMems c.g).all (fun cp => (c.member? cp).isSome || !(s.group c.g).memDie s.own)))

/-- Words of the stored trap record. -/
def Coll.trapWords (c : Coll) : List Word :=
  match c.trap with | some x => candWords c.g c.k x | none => [0, 0, 0, 0]

/-- The entry of a collective is free; it keeps the trap record (R420). -/
def State.freeEntryOf (s : State) (c : Coll) : State :=
  match c.entry with
  | some e => { s with col := { s.col with entryTrap := mput [0, 0, 0, 0] s.col.entryTrap e c.trapWords } }
  | none => s

/-- The update port still holds records of the collective. -/
def State.updOwes (s : State) (c : Coll) : Bool :=
  decide (c.updQ ≠ []) || s.upd.fifo.any (fun b => decide (b.g = c.g) && decide (b.k = c.k) && !b.old)

/-- The collective's entry and resources are free once its last token has left (R229, R419); its record goes with the last
of its update records. -/
def State.reap (s : State) (g : BitVec 12) (k : Word) : State :=
  match s.coll? g k with
  | none => s
  | some c =>
    if s.collDone c then
      let s1 := s.freeEntryOf c
      if s.updOwes c then s1.onColl g k (fun c => { c with entry := none, holds := false })
      else { s1 with colls := s1.colls.filter (fun x => !x.is g k) }
    else s

/-- Reap every collective that has ended. -/
def State.reapAll (s : State) : State :=
  s.colls.foldl (fun t c => if c.st = .ended then t.reap c.g c.k else t) s

/-- A collective ends on this die with its first token: what it holds here is discarded (R109), on every stake too when it
ended with an abort. Down wales that the root has released stay (R108). -/
def State.endColl (s : State) (g : BitVec 12) (k : Word) (code : BitVec 8) : State :=
  let s1 := if code = 0 then s else s.purge g k
  s1.onColl g k (fun c => { c with
    decided := some code, bufs := [], steps := [], rootQ := [], exWait := [], holds := c.holds && c.entry.isSome, v1ref := [] })

/-- A sink binding that never received a wale ends with the terminal token (R305); for a routed operation its descriptor ends
too, once it has begun (R308). -/
def State.endIdle (s : State) (ch : Nat) : State :=
  let x := s.chan ch
  if x.st = .active ∧ x.desc ≠ [] ∧ x.endPh = .none ∧ (x.actBind.any (fun b => b.routed)) = true then (s.dropBind ch).finishDesc ch
  else s.popBind ch

/-- Sink bindings of the collective that have moved nothing end. -/
def State.dropIdle (s : State) (g : BitVec 12) (k : Word) : State :=
  let idle (b : Bind) : Bool := decide (b.g = g) && decide (b.k = k) && b.sink && decide (b.moved = 0)
  s.chans.foldl (fun t x =>
    match x.2.binds with
    | [] => t
    | b :: bs =>
      let t1 := t.onChan x.1 (fun y => { y with binds := b :: bs.filter (fun z => !idle z) })
      if idle b && (t1.chan x.1).binds.head?.any idle then t1.endIdle x.1 else t1) s

/-- This die's own members receive the token. The seal of a routed broadcast needs the expert map intact for its fill wales
(R126, R134). -/
def State.tokenHere (s : State) (g : BitVec 12) (k : Word) (ws : List Word) (intact : Bool) : State :=
  let c := s.coll g k
  let code := wf_ (wd ws 1) 23 16
  let ok := intact && (decide (code ≠ 0) || !isExch c.aw || s.img.cfg.mapOk)
  let s1 := if code = 8 ∧ c.isOpen = true then s.timeoutSite c else s
  let s2 := c.members.foldl (fun t m =>
    if m.ended then t
    else if ok then t.endMember c m ws
    else t.sealLost g k m.cp) s1
  let s3 := s2.onColl g k (fun c => { c with st := .ended })
  if code = 0 then s3.dropIdle g k else s3.endBinds g k

/-- The SEQ by which the die of input (l, f) of the gather tree knows the collective (R15). -/
def Coll.kidSeq (c : Coll) (l f : Nat) : Word :=
  ((c.agIn.find? (fun a => decide (a.level = l) && decide (a.field = f))).map (fun a => a.k)).getD c.k

/-- The number of the next AGREE of input (l, f) (R15). -/
def agKey (g : BitVec 12) (l f : Nat) : Nat := (g.toNat * 8 + l) * 64 + f

/-- Some issue or AGREE at position `k` of the group has still to reach this die: (g, k) cannot have ended here before. -/
def State.awaits (s : State) (g : BitVec 12) (k : Word) : Bool :=
  let grp := s.group g
  (grp.memDie s.own && (s.localMems g).any (fun cp => !precedes 32 k.toNat (mget 0#32 (s.port cp).seqs g.toNat).toNat))
    || (s.kids grp grp.home).any (fun x => !precedes 32 k.toNat (mget 0 s.col.agCnt (agKey g x.1 x.2.1) % 2 ^ 32))

/-- Insert a record by its position among those of its group. -/
def collIns (c : Coll) : List Coll → List Coll
  | [] => [c]
  | x :: xs => if x.g = c.g ∧ precedes 32 c.pos.toNat x.pos.toNat = true then c :: x :: xs else x :: collIns c xs

/-- A record for (g, k), which has reached this die by a token or a fault report before any issue (R27). -/
def State.newRecord (s : State) (g : BitVec 12) (k : Word) : State :=
  if (s.coll? g k).isNone && s.awaits g k then
    { s with colls := collIns { Coll.zero with g := g, k := k, pos := k } s.colls }
  else s

/-- SKIND 2 segments of (g, k) wait in a stake's receive buffer. -/
def heldDown (x : Stake) (g : BitVec 12) (k : Word) : Bool :=
  x.rxbuf.any (fun f => (segsIn f.payload).any (fun y => y.of g k && decide (y.kind = 2)))

/-- The token of a chain waits for the down wales that came before it (R108). -/
def State.tokWaits (s : State) (c : Coll) (id : Nat) : Bool :=
  (c.downHead id).isSome || s.stakes.any (fun x => heldDown x.2 c.g c.k)

/-- The chains that a message from above addresses: the one that feeds level `l`, or with level 0, from this die itself, all. -/
def State.addressed (s : State) (c : Coll) (level : Nat) : List Chain :=
  let l := s.chains (s.group c.g) (s.treeRoot c)
  if level = 0 then l else l.filter (fun ch => decide (ch.id = level))

/-- The terminal token acts at one chain: the die ends the collective, passes the token on below, and gives it to its
members where the chain holds them. -/
def State.tokChain (s : State) (g : BitVec 12) (k : Word) (ch : Chain) (ws wsN : List Word) : State :=
  let c := s.coll g k
  if c.tokSegs.contains ch.id then s
  else
    let intact := decide (wsN = compl ws)
    let code := wf_ (wd ws 1) 23 16
    let s0 := if c.toUpd ∧ c.adm = true ∧ c.rd = s.own ∧ c.decided.isNone ∧ code ≠ 0 then s.updPut g k (abortRecord c code) false else s
    let s1 := (s0.kidsOf (s0.group g) (s0.treeRoot c) ch).foldl (fun t x =>
      let q := if c.adm then k else c.kidSeq x.1 x.2.1
      let ws' := ws.set 0 q
      t.sendEdge x.1 (subField x.1 s.own) x.2.2 g q (.token ws' (if intact then compl ws' else wsN))) s0
    let s2 := s1.endColl g k (BitVec.ofNat 8 code)
    let s3 := s2.onColl g k (fun c => { c with tokSegs := c.tokSegs ++ [ch.id] })
    let mine := (s3.chains (s3.group g) (s3.treeRoot c)).any (fun x => x.mem)
    (if ch.mem then s3.tokenHere g k ws intact
     else if mine then s3 else s3.onColl g k (fun c => { c with st := .ended })).reap g k

/-- A token that waited for down wales acts once they have gone (R108). -/
def State.tokTry (s : State) (g : BitVec 12) (k : Word) : State :=
  match s.coll? g k with
  | none => s
  | some c =>
    (c.tokWait.filter (fun x => !s.tokWaits c x.1)).foldl (fun t x =>
      match (t.chains (t.group g) (t.treeRoot c)).find? (fun ch => decide (ch.id = x.1)) with
      | some ch => (t.onColl g k (fun c => { c with tokWait := c.tokWait.filter (fun y => decide (y.1 ≠ x.1)) })).tokChain g k ch x.2.1 x.2.2
      | none => t) s

/-- A terminal token reaches this die on an edge of level `level`, or from the die itself. -/
def State.applyToken (s : State) (g : BitVec 12) (k : Word) (level : Nat) (ws wsN : List Word) : State :=
  let s0 := if wf_ (wd ws 1) 23 16 ≠ 0 then s.newRecord g k else s
  match s0.coll? g k with
  | none => s
  | some c =>
    (s0.addressed c level).foldl (fun t ch =>
      if level ≠ 0 ∧ t.tokWaits c ch.id = true then
        t.onColl g k (fun c => { c with tokWait := c.tokWait ++ [(ch.id, ws, wsN)] })
      else t.tokChain g k ch ws wsN) s0

/-- LOST acts at one chain: the dies below hear of it, and every member without a token is lost (R436). -/
def State.lostChain (s : State) (g : BitVec 12) (k : Word) (ch : Chain) : State :=
  let c := s.coll g k
  if c.tokSegs.contains ch.id then s
  else
    let s1 := s.sendDown (s.kidsOf (s.group g) (s.treeRoot c) ch) g k .lost
    let s2 := if ch.mem then (c.members.filter (fun m => !m.ended)).foldl (fun t m => t.sealLost g k m.cp) s1 else s1
    let s3 := (s2.endColl g k 0).onColl g k (fun c => { c with tokSegs := c.tokSegs ++ [ch.id] })
    let mine := (s3.chains (s3.group g) (s3.treeRoot c)).any (fun x => x.mem)
    (if ch.mem || !mine then (s3.onColl g k (fun c => { c with st := .ended })).endBinds g k else s3).reap g k

/-- LOST reaches this die (R436). -/
def State.applyLost (s : State) (g : BitVec 12) (k : Word) (level : Nat) : State :=
  match s.coll? g k with
  | none => s
  | some c => (s.addressed c level).foldl (fun t ch => t.lostChain g k ch) s

/-! ### Cut trees (R436) -/

/-- A path between this die and `d` uses stake `n`: this die sends over it, or `d` stands at its far end (R172: both ends
act). -/
def State.meets (s : State) (d n : Nat) : Bool := s.uses d n || decide (s.img.cfg.stkPeer n = d)

/-- This die's edges of the embedded tree of root die `rd` use stake `n`. -/
def State.edgesUse (s : State) (grp : Group) (rd n : Nat) : Bool :=
  s.inTree grp rd && ((s.ups grp rd).any (fun x => s.meets x.2.2 n) || (s.kids grp rd).any (fun x => s.meets x.2.2 n))

/-- A tree of the collective on this die uses stake `n` (R172): its gather tree, its embedded tree, which is its close tree
too, a leg that passes over the die, or the way of its reserve round from the home die to the root die. -/
def State.treeUses (s : State) (c : Coll) (n : Nat) : Bool :=
  let grp := s.group c.g
  s.edgesUse grp grp.home n
    || (decide (c.aw ≠ []) && s.edgesUse grp c.rd n)
    || c.legs.any (fun l => s.meets l.up n || s.meets l.down n)
    || (!c.adm && decide (c.rd ≠ s.own) && decide (grp.home = s.own) && decide (c.round ≠ 0) && s.uses c.rd n)

/-- The tree of `c` is cut at this die (R436). -/
def State.cut (s : State) (c : Coll) (n : Nat) : State :=
  if c.st = .ended ∨ c.decided.isSome then s else s.cutHere c.g c.k n

/-- A stake that went down, or whose peer restarted, cuts every tree that uses it. -/
def State.cutAll (s : State) (n : Nat) : State :=
  (s.colls.filter (fun c => s.treeUses c n)).foldl (fun t c => t.cut c n) s

end Sys2Proof.Machine
end

