-- ==== Sys2Proof/Machine/Bound.lean ====
section
/-! DEFINITION. The completion bound (spec/08, R219 to R228) from a reserve report, in exact fractions of a
picosecond. -/

namespace Sys2Proof.Machine

/-! ### Exact nonnegative fractions -/

/-- A numerator and a positive denominator. -/
structure Fr where
  n : Nat
  d : Nat
  deriving DecidableEq, Repr

def Fr.ofNat (n : Nat) : Fr := ⟨n, 1⟩
def Fr.add (a b : Fr) : Fr := if a.d = b.d then ⟨a.n + b.n, a.d⟩ else ⟨a.n * b.d + b.n * a.d, a.d * b.d⟩
def Fr.mul (a b : Fr) : Fr := ⟨a.n * b.n, a.d * b.d⟩
def Fr.le (a b : Fr) : Bool := decide (a.n * b.d ≤ b.n * a.d)
def Fr.max (a b : Fr) : Fr := if a.le b then b else a
def Fr.sum (l : List Fr) : Fr := l.foldl Fr.add ⟨0, 1⟩
/-- Whole thousands, rounded up: ps to ns. -/
def Fr.ceilNs (a : Fr) : Nat := cdiv a.n (a.d * 1000)

/-! ### Admission configuration (Table PR-11) and arbitration (R206) -/

def Cfg.guard (c : Cfg) : Nat := wf_ c.adm0 7 0
def Cfg.shareT (c : Cfg) : Nat := wf_ c.adm0 11 8
/-- SHARE_V of a virtual channel; VC0 barriers take SHARE_V1. -/
def Cfg.shareV (c : Cfg) (vc : Nat) : Nat :=
  if vc = 2 then wf_ c.adm0 19 16 else if vc = 3 then wf_ c.adm0 23 20 else wf_ c.adm0 15 12
def Cfg.shareM (c : Cfg) : Nat := wf_ c.adm0 27 24
def Cfg.thrFloor (c : Cfg) : Nat := wf_ c.adm0 31 28
def Cfg.priBudget (c : Cfg) : Nat := wf_ c.adm1 15 0
def Cfg.refStretch (c : Cfg) : Nat := wf_ c.adm1 23 16
def Cfg.refMax (c : Cfg) : Nat := wf_ c.adm1 31 24
def Cfg.memMhz (c : Cfg) : Nat := wf_ c.adm2 10 0
def Cfg.updMhz (c : Cfg) : Nat := wf_ c.adm2 21 11
def Cfg.memLat (c : Cfg) : Nat := wf_ c.adm2 31 22
/-- COLLECTIVE-FIRST. -/
def Cfg.collFirst (c : Cfg) : Bool := wbit c.arb 0
def Cfg.weight (c : Cfg) (vc : Nat) : Nat :=
  if vc = 1 then wf_ c.arb 15 8 else if vc = 2 then wf_ c.arb 23 16 else wf_ c.arb 31 24
def Cfg.weights (c : Cfg) : Nat := c.weight 1 + c.weight 2 + c.weight 3

/-- The guarded figure (R219). -/
def guarded (tau g : Nat) : Nat := cdiv (tau * (256 + g)) 256

/-- Flits per wale up (Table SK-8). -/
def flitsUp (ws : List Word) : Nat :=
  if isExch ws then (if isWgt ws then 3 else 1)
  else if isOp ws ≤ 3 then 3 else if isOp ws = 4 then 4 else 1

/-- Flits per wale down. -/
def flitsDown (ws : List Word) : Nat := if isExch ws then flitsUp ws else 1

/-- Contention factor K (Table PR-5). -/
def Cfg.contention (c : Cfg) (vc : Nat) : Fr :=
  if vc = 0 then ⟨1, 1⟩
  else if c.collFirst then (if vc = 1 then ⟨17, 16⟩ else ⟨17, 8⟩)
  else ⟨17 * c.weights, 16 * max 1 (c.weight vc)⟩

/-- Added latency of one hop in ps (Table PR-5). -/
def Cfg.addedLat (c : Cfg) (vc s qopen : Nat) : Nat :=
  if c.collFirst then (if vc ≤ 1 then s else s + (qopen + 1024 * c.priBudget) * s)
  else if vc = 0 then s else 256 * c.weights * s

/-! ### Loads of a routed operation (R144, R228) -/

/-- Member counts of the level-`i` units. -/
def State.unitLoads (s : State) (g : BitVec 12) (i : Nat) : List Nat :=
  let ds := (s.group g).dieList
  ds.map (fun d => ((ds.filter (fun x => decide (unitOf i x = unitOf i d))).map (fun x => popN 1024 (s.memMaskAt g x))).foldl (fun a b => a + b) 0)

/-- n_i: the largest of them. -/
def State.unitMax (s : State) (g : BitVec 12) (i : Nat) : Nat := (s.unitLoads g i).foldl max 0

/-- The largest E_m of a member of `g`. -/
def State.expertMax (s : State) (g : BitVec 12) : Nat :=
  let es := s.img.cfg.experts.filter (fun x => eValid x.2 && s.memberAt g (eDie x.2) (eCp x.2))
  (es.map (fun x => (es.filter (fun y => decide (eDie x.2 = eDie y.2) && decide (eCp x.2 = eCp y.2))).length)).foldl max 0

/-- W_SRC and W_DST. -/
def State.exLoads (s : State) (g : BitVec 12) (ws : List Word) : Nat × Nat :=
  let tw := isWales ws
  let n := s.members g
  let e := s.expertMax g
  let own := isTmax ws * isK ws * (1 + tw)
  let host := e * n * isC ws * (1 + tw)
  if isOp ws = 7 then (own + cdiv (isTmax ws) 128, host + cdiv (e * n) 32) else (host, own)

/-- W_j of the up and down stage of level `i` (Tables PR-3 and R228). -/
def State.stageWales (s : State) (g : BitVec 12) (ws : List Word) (i : Nat) : Nat × Nat :=
  let w := isWales ws
  if isExch ws then
    let n := s.members g
    let ni := s.unitMax g i
    let l := s.exLoads g ws
    (min (ni * l.1) ((n - ni) * l.2), min (ni * l.2) ((n - ni) * l.1))
  else (if isOp ws = 7 then 0 else w, if isEcho ws ∨ isOp ws = 7 then (if isOp ws = 4 then 2 * w else w) else 0)

/-- Flit charge of the up and down stage of level `i` on a stake that they cross (R223, R225). -/
def State.chargeAt (s : State) (g : BitVec 12) (ws : List Word) (i : Nat) : Nat × Nat :=
  let w := s.stageWales g ws i
  (w.1 * flitsUp ws, w.2 * flitsDown ws)

/-! ### The bound (R220 to R228) -/

/-- A stage: latency in ps, wales, cost per wale in ps, and whether it is a memory or update stage. -/
structure StageT where
  lat  : Fr
  w    : Nat
  cost : Fr
  mem  : Bool
  deriving DecidableEq, Repr

/-- Latency and per-wale cost of a level stage from its report entry, with flit slot `s`. -/
def Cfg.levelStage (c : Cfg) (tg b vc f s : Nat) (r : StageRep) (w : Nat) : StageT :=
  let hop := f * s + 16 * tg + c.addedLat vc s r.qopen
  let link : Fr := ((Fr.ofNat (f * s)).mul (c.contention vc)).mul (Fr.ofNat (c.shareV vc))
  let credit : Fr := ⟨r.rtt * 125 + 2 * (r.hops * 64 * tg), 2 * max 1 b⟩
  ⟨(⟨r.hopdly * 125, 2⟩ : Fr).add (Fr.ofNat (r.hops * hop)), w, (link.max credit).max (Fr.ofNat (c.shareT * tg)), false⟩

/-- The virtual channel of a collective's stages (R205). -/
def State.vcFor (s : State) (g : BitVec 12) (ws : List Word) : Nat :=
  if isExch ws then 2 else if (isOp ws = 5 ∨ isOp ws = 6) ∧ isWales ws = 1 then 0 else if (s.group g).bulk then 3 else 1

/-- Levels with a stage: the active ones, and for a routed operation each up to the highest active (Table PR-3, R228). -/
def State.stageLevels (s : State) (g : BitVec 12) (ws : List Word) : List Nat :=
  let acts := [1, 2, 3, 4].filter (fun i => (s.group g).active i)
  if isExch ws then (List.range (acts.foldl max 0)).map (fun i => i + 1) else acts

/-- The flit slot of a report entry: as reported, or at the widths of the image with every bond member (R231). -/
def State.entrySlot (s : State) (g : BitVec 12) (ws : List Word) (best : Bool) (r : StageRep) (e : Nat) : Nat :=
  if best then min r.smax (Config.bestSlot s.img.digest g.toNat (isRootDie ws) e) else r.smax

/-- The level stages of one direction: entry `lo` + i − 1 of the report. -/
def State.levelStages (s : State) (g : BitVec 12) (ws : List Word) (r : Report) (best : Bool) (tg f lo : Nat) (w : Nat → Nat) : List StageT :=
  (s.stageLevels g ws).map (fun i =>
    let e := r.stages.getD (lo + i - 1) ⟨0, 0, 0, 0, 0⟩
    s.img.cfg.levelStage tg r.bmin (s.vcFor g ws) f (s.entrySlot g ws best e (lo + i - 1)) e (w i))

/-- The down stages across stakes, and on die. -/
def State.downStages (s : State) (g : BitVec 12) (ws : List Word) (r : Report) (best : Bool) (tg : Nat) : List StageT :=
  let ex := isExch ws
  let op := isOp ws
  let wd2 := if op = 4 then 2 * isWales ws else isWales ws
  (if ex || isEcho ws || decide (op = 7) then s.levelStages g ws r best tg (flitsDown ws) 4 (fun i => (s.stageWales g ws i).2) else [])
    ++ (if ex || isEcho ws || (decide (op = 7) && decide (1 < s.members g)) || decide (isDest ws = 0) then
      [⟨Fr.ofNat (r.nlmax * 8 * tg), if ex then s.unitMax g 0 * (s.exLoads g ws).2 else wd2, Fr.ofNat (tg * s.img.cfg.shareT), false⟩] else [])

/-- Sum of the latencies of stages. -/
def latSum (l : List StageT) : Fr := Fr.sum (l.map (fun x => x.lat))

/-- The bound in ns of a collective of group `g` with words `ws`, from report `r` (R220). `hr` gives the hops from
the home die to the root die as one report entry. -/
def State.bound (s : State) (g : BitVec 12) (ws : List Word) (r : Report) (hr : StageRep) (best : Bool) : Nat :=
  let c := s.img.cfg
  let tg := guarded (if best then 600 else r.tau) c.guard
  let ex := isExch ws
  let op := isOp ws
  let loads := s.exLoads g ws
  let w := isWales ws
  let die := r.nlmax * 8 * tg
  let upDie : List StageT := [⟨Fr.ofNat die, if ex then s.unitMax g 0 * loads.1 else w,
    Fr.ofNat ((if op = 4 then 2 else 1) * tg * c.shareT), false⟩]
  let upLv : List StageT := if ex || decide (op ≠ 7) then
    s.levelStages g ws r best tg (flitsUp ws) 0 (fun i => (s.stageWales g ws i).1) else []
  let dn := s.downStages g ws r best tg
  let lat : Fr := Fr.ofNat (c.memLat * 4000)
  let mem : List StageT := if r.md = 0 then [] else
      [⟨lat, if ex then max loads.1 loads.2 else w, ⟨c.shareM * cdiv r.md 4 * 1000000, max 1 c.memMhz⟩, true⟩]
  let upd : List StageT := if isDest ws = 1 ∧ ex = false then
      [⟨lat, w, ⟨c.shareM * (fmtBeats (isOut ws) + 1) * 1000000, max 1 c.updMhz⟩, true⟩] else []
  let close : StageT := ⟨((Fr.ofNat die).add (latSum upLv)).add (latSum dn), 0, ⟨0, 1⟩, false⟩
  let all := upDie ++ mem ++ upd ++ upLv ++ dn ++ [close]
  let lhr := (c.levelStage tg r.bmin 0 1 (s.entrySlot g ws best hr 8) hr 0).lat
  let setup := ((Fr.ofNat (32000 + 64 * tg)).add lhr).add (latSum dn)
  let sw := Fr.sum (all.map (fun x => (Fr.ofNat x.w).mul x.cost))
  let mw := (mem ++ upd).map (fun x => (Fr.ofNat x.w).mul x.cost)
  let retry : Fr := ⟨r.retry * 125, 2⟩
  let refresh : Fr := if mw = [] then ⟨0, 1⟩ else ((⟨c.refStretch, 256⟩ : Fr).mul (Fr.sum mw)).add (Fr.ofNat (c.refMax * 64000))
  let thr : Fr := (⟨15 - c.thrFloor, c.thrFloor + 1⟩ : Fr).mul sw
  let slew : Fr := ⟨64000000, max 1 s.pwr.slew.toNat⟩
  (Fr.sum [setup, latSum all, sw, retry, refresh, thr, slew]).ceilNs

/-- L_DN in whole ns, for the root's deadline D − L_DN (R236), from the report that has reached the root: the counter, which
shows whole ns, reaches D − L_DN when it reaches D less this. -/
def State.downLat (s : State) (g : BitVec 12) (ws : List Word) (r : Report) : Nat :=
  let x := latSum (s.downStages g ws r false (guarded r.tau s.img.cfg.guard))
  x.n / (x.d * 1000)

end Sys2Proof.Machine
end

