-- ==== Sys2Proof/Machine/Routed.lean ====
section
/-! DEFINITION. What a routed operation does as its data moves (spec/05): streams, copies, contributions, token
combines, credits and the close round of Table EX-7. -/

namespace Sys2Proof.Machine

/-- Change the exchange part of one member. -/
def State.onEx (s : State) (g : BitVec 12) (k : Word) (cp : Nat) (f : ExMem → ExMem) : State :=
  s.onColl g k (fun c => c.onMember cp (fun m => { m with ex := f m.ex }))

/-- The exchange part of one member. -/
def State.exOf (s : State) (g : BitVec 12) (k : Word) (cp : Nat) : ExMem :=
  match (s.coll g k).member? cp with | some m => m.ex | none => ExMem.zero

/-- A value and its complement disagree in a moved word (Table ER-2, COMPLEMENT). -/
def State.exCorrupt (s : State) (g : BitVec 12) (k : Word) (cp : Nat) (v : Word) : State :=
  (s.logEv 0x07 6 7 cp k.toNat v.toNat g 2).report g k 2 7 cp v

/-- A condition of Table EX-8 that ends the operation with ABORT_MISMATCH. -/
def State.exMismatch (s : State) (g : BitVec 12) (k : Word) (cp : Nat) : State :=
  (s.logEv 0x0A 1 7 0 k.toNat 17 g 3).report g k 3 7 cp

/-- Add a fingerprint term of the member (R355). -/
def State.exTerm (s : State) (g : BitVec 12) (k : Word) (cp : Nat) (bs : List Byte) : State :=
  s.onColl g k (fun c => { c with fp := c.fp ^^^ crc64 (leafId s.own cp ++ bs) })

/-- Keep the smaller candidate of this die; in STOP mode the first one is reported (R139). -/
def State.exTrap (s : State) (g : BitVec 12) (k : Word) (x : Option Cand) : State :=
  match x with
  | none => s
  | some v =>
    let c := s.coll g k
    if (isOp c.aw = 7 ∧ isWgt c.aw = false) ∨ c.decided.isSome then s
    else
      let s1 := s.onColl g k (fun c => { c with cand := candMin c.cand (some v) })
      if isNote c.aw ∨ c.cand.isSome then s1 else s1.report g k 5 (Cand.src v) v.unit.toNat 0 (some v)

/-! ### Weighing and converting -/

/-- One wale of a route in the exchange unit. -/
structure ExWale where
  lanes : List Lane
  /-- the first NaN -/
  cand  : Option Cand
  /-- the first lane that fails the check of R36 -/
  bad   : Option Nat
  deriving DecidableEq, Repr

/-- Widen one wale of a route, weighing it where the operation has gates (R34 to R36). -/
def exWiden (c : Coll) (gate : Option Word) (die cp t j w : Nat) (img : List Byte) : ExWale :=
  let f := isIn c.aw
  let n := isLanes c.aw w
  let gt := if isGateFmt c.aw = 1 then decodeElem 1 0 ((gate.getD 0).toNat % 65536) else decodeElem 0 0 (gate.getD 0).toNat
  let one (code : Nat) : Loam × Bool × Bool :=
    let e := decodeElem f (imageScale f img) code
    match gate with
    | some _ => weigh gt e
    | none =>
      let r := widen f e
      (r.1, false, r.2)
  let rs := (imageCodes f img).zipIdx.map (fun x => if x.2 < n then one x.1 else (Loam.zero, false, true))
  let cand := (rs.zipIdx.findSome? (fun x => if x.1.1.cls = .nan then
      some (⟨BitVec.ofNat 32 (t * isWales c.aw + w), BitVec.ofNat 5 x.2, BitVec.ofNat 16 die, 0, BitVec.ofNat 10 cp, x.1.2.1, j⟩ : Cand)
    else none))
  ⟨rs.map (fun x => .word x.1), cand, rs.findIdx? (fun x => !x.2.2)⟩

/-- A wale of token `t` fails a check in the exchange unit: the entry and the report (R36, Table EX-8). -/
def State.exResidue (s : State) (c : Coll) (cp t w lane : Nat) : State := s.residue c 0x05 7 cp (t * isWales c.aw + w) lane

/-- The slath's conversion of one wale of a route (R120). -/
def exConvert (c : Coll) (w : Nat) (lanes : List Lane) : List Byte × Nat :=
  encodeWale (isOut c.aw) (isLanes c.aw w) (isOvf c.aw) (lanes.map (fun l => match l with
    | .word x => convertSum x (isScale c.aw) (isBias c.aw)
    | _ => ⟨.fin, Dy.zero⟩))

/-! ### Delivery of a unit (R133, R135) -/

/-- Deliver a header and its data wales to a member, at byte `off` from DST for a sink. -/
def State.exDeliver (s : State) (g : BitVec 12) (k : Word) (cp off : Nat) (hdr : List Byte) (imgs : List (List Byte)) : State :=
  let c := s.coll g k
  match c.member? cp with
  | none => s
  | some m =>
    let s1 := s.onColl g k (fun c => { (c.onMember cp (fun m => { m with rx := m.rx + 1 + imgs.length })) with
      digest := c.digest ^^^ crc64 (leafId s.own cp ++ hdr ++ imgs.flatten) })
    if isRxSink m.words then
      let beats := (beatsOf hdr ++ imgs.flatMap beatsOf).zipIdx.map (fun x => (SinkAt.dst (off + 64 * x.2), x.1))
      s1.giveSink c m beats false
    else imgs.foldl (fun t i => t.rxWale cp g m.k 0 i) (s1.rxWale cp g m.k 2 hdr)

/-- Return a credit to the source member (R140): a message of LEVEL 0 on VC0. -/
def State.xcredit (s : State) (g : BitVec 12) (k : Word) (die cp : Nat) : State :=
  s.send die g k (.xcred cp 1)

/-- Count on the exchange registers (Table RG-11). -/
def State.exCount (s : State) (f : Exc → Exc) : State := { s with exc := f s.exc }

/-- A slot unit is complete at its destination (R133). The scan of the map for its region checks every entry (R126). -/
def State.exSlot (s : State) (g : BitVec 12) (k : Word) (cp : Nat) (tag : List Byte) (imgs : List (List Byte)) : State :=
  let c := s.coll g k
  if s.img.cfg.mapOk = false then s.exCorrupt g k cp (eWord (s.img.cfg.expert (tExpert tag)) 0) else
  let region := s.regionOf g c.aw cp (tExpert tag) (tSlot tag)
  (((s.exCount (fun e => { e with slots := satInc e.slots })).exDeliver g k cp (tSlot tag * slotBytes c.aw) tag imgs).onEx g k cp (fun x =>
    { x with recvd := x.recvd + 1, slots := mput 0 x.slots region (mget 0 x.slots region + 1) })).xcredit g k (tDie tag) (tCp tag)

/-- A token of an owner is complete: header and converted wales (R135). -/
def State.exToken (s : State) (g : BitVec 12) (k : Word) (cp t : Nat) (imgs : List (List Byte)) : State :=
  let c := s.coll g k
  let x := s.exOf g k cp
  match x.toks[t]? with
  | none => s
  | some tok =>
    let used := tok.routes.zipIdx.filter (fun r => r.1.placed)
    let kn := used.length
    let mask := (used.map (fun r => 2 ^ r.2)).foldl (fun a b => a + b) 0
    ((s.exCount (fun e => { e with tokens := satInc e.tokens })).exDeliver g k cp (t * slotBytes c.aw) (resultHeader t kn mask) imgs).onEx g k cp (fun x =>
      { x with toks := x.toks.zipIdx.map (fun y => if y.2 = t then { y.1 with done := true } else y.1) })

/-- Where a unit came from: the die alone, or with the core port of a member of this die. -/
def exFrom (die cp : Nat) : Nat := die + 65536 * (cp + 1)

/-- The member that a contribution is credited to: the one that sent it. Of another die the unit names the die alone, and the
expert map the core port (log entry 14). -/
def State.creditOf (s : State) (src : Nat) (tag : List Byte) : Nat × Nat :=
  (src % 65536, if src / 65536 = 0 then eCp (s.img.cfg.expert (tExpert tag)) else src / 65536 - 1)

/-- A contribution of a host reaches the owner (R137, Table EX-8): it is kept while the owner's route lists are not
complete, and credited to the member that sent it. -/
def State.exAccept (s : State) (g : BitVec 12) (k : Word) (cp src : Nat) (tag : List Byte) (imgs : List (List Byte)) : State :=
  let x := s.exOf g k cp
  match x.toks[hTok tag]? with
  | none =>
    if x.part = 1 then s.onEx g k cp (fun x => { x with early := x.early ++ [⟨src, tag, imgs⟩] }) else s.exMismatch g k cp
  | some tok =>
    match tok.routes[tJ tag]? with
    | some ⟨true, gate, none⟩ =>
      let tok' : ExTok := { tok with routes := tok.routes.set (tJ tag) ⟨true, gate, some imgs⟩ }
      let who := s.creditOf src tag
      (s.onEx g k cp (fun x => { x with recvd := x.recvd + 1, toks := x.toks.set (hTok tag) tok' })).xcredit g k who.1 who.2
    | _ => s.exMismatch g k cp

/-- A whole unit has reached member `cp` of this die: a slot unit of a routed broadcast, or a contribution. -/
def State.exUnit (s : State) (g : BitVec 12) (k : Word) (cp src : Nat) (tag : List Byte) (imgs : List (List Byte)) : State :=
  if ((s.coll g k).member? cp).isNone then s.exMismatch g k cp
  else if hdrOk tag = false then s.exCorrupt g k cp (hLane tag 0)
  else if isOp (s.coll g k).aw = 7 then s.exSlot g k cp tag imgs
  else s.exAccept g k cp src tag imgs

/-- Contributions that were kept are taken once the owner's part 1 has grown. -/
def State.exEarly (s : State) (g : BitVec 12) (k : Word) (cp : Nat) : State :=
  let es := (s.exOf g k cp).early
  es.foldl (fun t e => t.exAccept g k cp e.src e.tag e.wales) (s.onEx g k cp (fun x => { x with early := [] }))

/-! ### Sending a unit (Table SK-6, SKIND 0x5) -/

/-- The 4-byte head: destination core port, wale type (0 header, 1 data, 2 packed weighted copy), and in [31:16]
the source DIE_ID (log entry 14). -/
def exPrefix (cp kind src : Nat) : List Byte := toLe 4 (cp % 1024 + pl (kind % 16) 10 + pl src 16)

/-- A weighted copy, converted at its route root (R138): image, output silt. -/
def exCopy (c : Coll) (w : Nat) (lanes : List Lane) : List Byte × Nat := exConvert c w lanes

/-- Add output-silt events. -/
def State.exOsilt (s : State) (g : BitVec 12) (k : Word) (n : Nat) : State :=
  s.onColl g k (fun c => { c with osilt := sat32 c.osilt n })

/-- Send one wale of a unit to another die: it carries its place in this die's stream of the operation to that die, and
takes its turn over the members of a bond (R170). -/
def State.exSendWale (s : State) (g : BitVec 12) (k : Word) (die cp : Nat) (x : Nat × List Byte) : State :=
  let n := mget 0 (s.coll g k).fwd (exKey die)
  (s.orFail g k die 0 (s.sendSeg die 2 0 0 none 5 g k (n % 2 ^ 27) (exPrefix cp x.1 s.own ++ x.2))).onColl g k
    (fun c => { c with fwd := mput 0 c.fwd (exKey die) (n + 1) })

/-- Send a unit of unconverted images to a member of any die. -/
def State.exSend (s : State) (g : BitVec 12) (k : Word) (src die cp : Nat) (tag : List Byte) (bodies : List (Nat × List Byte))
    (imgs : List (List Byte)) : State :=
  if die = s.own then s.exUnit g k cp (exFrom die src) tag imgs
  else ((0, tag) :: bodies).foldl (fun t x => t.exSendWale g k die cp x) s

/-- Send one placed copy of a token (R129, R138). -/
def State.exSendCopy (s : State) (g : BitVec 12) (k : Word) (src t j : Nat) (hdr : List Byte) (imgs : List (List Byte))
    (die cp slot : Nat) : State :=
  let c := s.coll g k
  let tag := returnTag t s.own src j slot (hExpert hdr j)
  if isWgt c.aw then
    let ws := imgs.zipIdx.map (fun x => exWiden c (some (hGate hdr j)) s.own src t j x.2 x.1)
    match ws.zipIdx.findSome? (fun x => x.1.bad.map (fun i => (x.2, i))) with
    | some (w, i) => s.exResidue c src t w i
    | none =>
      let s1 := ws.foldl (fun t x => t.exTrap g k x.cand) s
      if die = s.own then
        let r := ws.zipIdx.map (fun x => exCopy c x.2 x.1.lanes)
        (s1.exOsilt g k ((r.map (fun x => x.2)).foldl (fun a b => a + b) 0)).exSend g k src die cp tag [] (r.map (fun x => x.1))
      else
        s1.exSend g k src die cp tag (ws.map (fun x => (2, packWale g k false ⟨x.lanes, [], 0, 0, none, none⟩))) []
  else s.exSend g k src die cp tag (imgs.map (fun i => (1, usedBytes (isIn c.aw) i))) imgs

/-! ### A member's stream (R128, Table EX-6) -/

/-- Place and send the routes of one token (R129): the running state of the source. -/
def State.exPlace (s : State) (g : BitVec 12) (k : Word) (cp t : Nat) (hdr : List Byte) (imgs : List (List Byte)) (j : Nat) : State :=
  let c := s.coll g k
  let e := hExpert hdr j
  match s.placeRoute g c.aw (s.rank g s.own cp) (s.exOf g k cp).fill e with
  | .place d p slot =>
    ((s.exCount (fun x => { x with placed := satInc x.placed })).onEx g k cp (fun x => { x with fill := mput 0 x.fill e (mget 0 x.fill e + 1), sent := x.sent + 1, owed := x.owed + 1 })).exSendCopy
      g k cp t j hdr imgs d p slot
  | .drop =>
    (s.exCount (fun x => { x with dropped := satInc x.dropped })).onEx g k cp (fun x => { x with dropped := x.dropped + 1, toks := x.toks.zipIdx.map (fun y =>
      if y.2 = t then { y.1 with drop := y.1.drop + 2 ^ j } else y.1) })
  | .corrupt => s.exCorrupt g k cp (eWord (s.img.cfg.expert e) 0)
  | .mismatch => s.exMismatch g k cp

/-- A complete unit of the member's own stream. -/
def State.exOwn (s : State) (g : BitVec 12) (k : Word) (cp : Nat) (hdr : List Byte) (imgs : List (List Byte)) : State :=
  let s1 := s.exTerm g k cp (hdr ++ imgs.flatten)
  if isOp (s.coll g k).aw = 7 then
    let t := (s.exOf g k cp).toks.length
    let s2 := s1.onEx g k cp (fun x => { x with toks := x.toks ++ [⟨t, [], 0, [], true⟩] })
    (List.range (hKn hdr)).foldl (fun u j => u.exPlace g k cp t hdr imgs j) s2
  else
    if s.memberAt g (tDie hdr) (tCp hdr) = false then s1.exMismatch g k cp
    else
      let s2 := s1.onEx g k cp (fun x => { x with units := x.units + 1, sent := x.sent + 1, owed := x.owed + 1 })
      s2.exSend g k cp (tDie hdr) (tCp hdr) hdr (imgs.map (fun i => (1, usedBytes (isIn (s.coll g k).aw) i))) imgs

/-- Zero wales of a token with no contribution (R135). -/
def exZero (c : Coll) : List (List Byte) := List.replicate (isWales c.aw) (mkImage (isOut c.aw) [] 0)

/-- A route list of an owner (Table EX-6, routed reduce, part 1). -/
def State.exList (s : State) (g : BitVec 12) (k : Word) (cp : Nat) (hdr : List Byte) : State :=
  let c := s.coll g k
  let t := (s.exOf g k cp).toks.length
  let rs := (List.range (hKn hdr)).map (fun j => (⟨(hPlaced hdr).testBit j, hGate hdr j, none⟩ : TokRoute))
  let s1 := (s.exTerm g k cp hdr).onEx g k cp (fun x => { x with toks := x.toks ++ [⟨t, rs, 0, [], false⟩] })
  (if rs.any (fun r => r.placed) then s1 else s1.exToken g k cp t (exZero c)).exEarly g k cp

/-- The member's stream has ended: its fingerprint terms are complete. -/
def State.exFin (s : State) (g : BitVec 12) (k : Word) (cp : Nat) : State :=
  s.onColl g k (fun c => c.onMember cp (fun m => { m with fpDone := true, ex := { m.ex with fin := true, part := 2 } }))

/-- A header wale of the member's stream (Table EX-8). -/
def State.exHeader (s : State) (g : BitVec 12) (k : Word) (cp : Nat) (hdr : List Byte) : State :=
  let c := s.coll g k
  let x := s.exOf g k cp
  let bc := decide (isOp c.aw = 7)
  if hdrOk hdr = false then s.exCorrupt g k cp (hLane hdr 0)
  else if hKind hdr ≠ x.part - 1 then s.exMismatch g k cp
  else if hEnd hdr then
    let n := if x.part = 1 then x.toks.length else x.units
    if (hLane hdr 1).toNat ≠ n ∨ hTok hdr ≠ n % 65536 then s.exMismatch g k cp
    else if bc ∨ x.part = 2 then s.exFin g k cp
    else (s.onEx g k cp (fun x => { x with part := 2 })).exEarly g k cp
  else if isK c.aw < hKn hdr ∨ isTmax c.aw ≤ hTok hdr then s.exMismatch g k cp
  else if x.part = 2 then s.onEx g k cp (fun x => { x with hdr := hdr, left := isWales c.aw, cur := [] })
  else if hTok hdr ≠ x.toks.length then s.exMismatch g k cp
  else if bc then s.onEx g k cp (fun x => { x with hdr := hdr, left := isWales c.aw, cur := [] })
  else s.exList g k cp hdr

/-- The member supplies one wale of its stream. -/
def State.exSupply (s : State) (g : BitVec 12) (k : Word) (cp : Nat) (data : List Byte) : State :=
  let c := s.coll g k
  let x := s.exOf g k cp
  let s0 := s.onColl g k (fun c => c.onMember cp (fun m => { m with sent := m.sent + 1 }))
  if x.left = 0 then s0.exHeader g k cp (padTo 128 data)
  else
    let w := isWales c.aw - x.left
    let img := padImage (isIn c.aw) (isLanes c.aw w) (padTo (fmtImage (isIn c.aw)) data)
    let s1 := s0.onEx g k cp (fun x => { x with left := x.left - 1, cur := x.cur ++ [img] })
    if x.left = 1 then s1.exOwn g k cp x.hdr (x.cur ++ [img]) else s1

/-! ### A routed wale from another die (Table SK-6, R51) -/

/-- The next wale of a source die's stream: a header opens a unit, and the data wales that follow complete it. -/
def State.exTake (s : State) (g : BitVec 12) (k : Word) (body : List Byte) : State :=
  let c := s.coll g k
  let p := leAt body 0 4
  let cp := fld p 9 0
  let kind := fld p 13 10
  let src := fld p 31 16
  let rest := body.drop 4
  let x := s.exOf g k cp
  let others := x.rxU.filter (fun r => decide (r.src ≠ src))
  if (c.member? cp).isNone then s.exMismatch g k cp
  else if kind = 0 then s.onEx g k cp (fun x => { x with rxU := others ++ [⟨src, padTo 128 rest, []⟩] })
  else
    match x.rxU.find? (fun r => decide (r.src = src)) with
    | none => s
    | some u =>
      let w := u.wales.length
      let take (t : State) (img : List Byte) : State :=
        let ws := u.wales ++ [img]
        if ws.length = isWales c.aw then (t.onEx g k cp (fun x => { x with rxU := others })).exUnit g k cp src u.tag ws
        else t.onEx g k cp (fun x => { x with rxU := others ++ [⟨src, u.tag, ws⟩] })
      if kind = 2 then
        match unpackWale rest with
        | none => s
        | some v =>
          let r := exCopy c w v.lanes
          take (s.exOsilt g k r.2) r.1
      else take s (imageOf (isIn c.aw) rest)

/-- Source die of a routed wale. -/
def exSrc (body : List Byte) : Nat := fld (leAt body 0 4) 31 16

/-- A packed weighted copy that does not unpack, or of which a word fails R51: the lane, where one is known. -/
def exBadCopy (body : List Byte) : Option (Option Nat) :=
  if fld (leAt body 0 4) 13 10 = 2 then
    (match unpackWale (body.drop 4) with
     | none => some none
     | some v => (badLane v.lanes).map some)
  else none

/-- Take in the routed wales whose turn has come, once the collective is open here: each source die's stream in its order
(R170). -/
def State.exPump : Nat → State → BitVec 12 → Word → State
  | 0, s, _, _ => s
  | f + 1, s, g, k =>
    match s.coll? g k with
    | none => s
    | some c =>
      if c.st ≠ .opened ∨ c.decided.isSome then s
      else
        match c.exWait.find? (fun x => decide (x.2.1 = mget 0 c.exNext x.1 % 2 ^ 27)) with
        | none => s
        | some x =>
          let s1 := s.onColl g k (fun c => { c with
            exWait := c.exWait.filter (fun y => decide (y.1 ≠ x.1) || decide (y.2.1 ≠ x.2.1)),
            exNext := mput 0 c.exNext x.1 (mget 0 c.exNext x.1 + 1) })
          State.exPump f (s1.exTake g k x.2.2) g k

/-- One wale of SKIND 0x5 arrives, with its place in the stream. -/
def State.exArrive (s : State) (g : BitVec 12) (k : Word) (wale : Nat) (body : List Byte) : State :=
  s.onColl g k (fun c =>
    if c.exWait.any (fun x => decide (x.1 = exSrc body) && decide (x.2.1 = wale)) then c
    else { c with exWait := c.exWait ++ [(exSrc body, wale, body)] })

/-! ### Token combines (R137) -/

/-- Combine wale `w` of an owner's token; when its last wale is converted the token is delivered. The exchange unit admits
the wale by its pace (R261). -/
def State.combineToken (s0 : State) (c : Coll) (cp t w : Nat) : State :=
  let x := s0.exOf c.g c.k cp
  match x.toks[t]? with
  | none => s0
  | some tok =>
    let ready := tok.routes.any (fun r => r.placed) && tok.routes.all (fun r => !r.placed || r.got.isSome)
    if !ready || tok.done || decide (tok.out.length ≠ w) then s0
    else
      let a := s0.opportunity ptExch
      let s := a.2
      if a.1 = false then s
      else
        let ins : List ExWale := tok.routes.zipIdx.map (fun r =>
          match r.1.got with
          | some imgs => exWiden c (if isOp c.aw = 1 then some r.1.gate else none) s.own cp t r.2 w (imgs.getD w [])
          | none => ⟨[], none, none⟩)
        match ins.findSome? (fun i => i.bad) with
        | some lane => s.exResidue c cp t w lane
        | none =>
          let r := combineWales 0 (t * isWales c.aw + w) (ins.map (fun i => (⟨i.lanes, [], 0, 0, none, i.cand⟩ : WaleV))) 0 cp s.own false
          match r.2 with
          | some (lane, code) => s.residue c code 7 cp (t * isWales c.aw + w) lane
          | none =>
            let made : Option Cand := r.1.trap.map (fun v => if ins.any (fun i => decide (i.cand = some v)) then v else { v with j := 8 })
            let o := exConvert c w r.1.lanes
            let outs := tok.out ++ [o.1]
            let s1 := (s.onColl c.g c.k (fun c => { c with silt := sat32 c.silt r.1.silt, osilt := sat32 c.osilt o.2 })).exTrap c.g c.k made
            let s2 := s1.onEx c.g c.k cp (fun x => { x with toks := x.toks.set t { tok with out := outs } })
            if outs.length = isWales c.aw then s2.exToken c.g c.k cp t outs else s2

/-! ### The close round (R140, Table EX-7) -/

/-- Sum of a figure over this die's members. -/
def Coll.exSum (c : Coll) (f : ExMem → Nat) : Nat := (c.members.map (fun m => f m.ex)).foldl (fun a b => a + b) 0

/-- STEP of this die's members with STEP_CHK 1. -/
def Coll.memStep (c : Coll) : Option (BitVec 64 × BitVec 64) :=
  if isStep c.aw then c.members.foldl (fun a m => stepJoin a (some (isStepV m.words, isStepV m.words))) none else none

/-- STEP of a chain once every input has it: it goes up in a marker on VC0, and the close root keeps it (R104, R174; log
entry 13). -/
def State.exStep (s : State) (g : BitVec 12) (k : Word) (ch : Chain) : State :=
  let c := s.coll g k
  let ins := (s.kidsOf (s.group g) c.rd ch).map (fun x => c.stepIn (.stage x.1) x.2.1)
  if isStep c.aw = false ∨ c.stepSeg.contains ch.id = true ∨ ins.all (fun x => x.isSome) = false then s
  else
    let st := ins.foldl stepJoin (if ch.mem then c.memStep else none)
    let s1 := s.onColl g k (fun c => { c with stepSeg := c.stepSeg ++ [ch.id] })
    match ch.out with
    | .away l f d => s1.orFail g k d l (s1.sendSeg d 0 l f none 4 g k 0 (markerBody st))
    | _ => s1.onColl g k (fun c => { c with step := st })

/-- What a report of the close round of a routed operation says. -/
structure ExSums where
  nmem  : Nat
  fp    : BitVec 64
  dg    : BitVec 64
  con   : Nat
  silt  : Nat
  osilt : Nat
  sent  : Nat
  recvd : Nat
  cand  : Option Cand
  deriving DecidableEq, Repr

/-- One more report. -/
def ExSums.join (a : ExSums) : Body → ExSums
  | .close _ n fp dg con silt osilt sent recvd t =>
    ⟨a.nmem + n.toNat, a.fp ^^^ fp, a.dg ^^^ dg, a.con + con.toNat, sat32 a.silt silt.toNat, sat32 a.osilt osilt.toNat,
      a.sent + sent.toNat, a.recvd + recvd.toNat, candMin a.cand t⟩
  | _ => a

/-- The SENT figures of a chain: its members' and those of the dies below. -/
def Coll.sentSums (c : Coll) (ch : Chain) : ExSums :=
  (ofChain ch c.sentIn).foldl ExSums.join
    (if ch.mem then ⟨c.members.length, c.fp, 0, c.exSum (fun x => if isOp c.aw = 7 then x.sent else 0), 0, 0, c.exSum (fun x => x.sent), 0, none⟩
     else ⟨0, 0, 0, 0, 0, 0, 0, 0, none⟩)

/-- The CHECKED figures of a chain. -/
def Coll.checkedSums (c : Coll) (ch : Chain) : ExSums :=
  (ofChain ch c.closeIn).foldl ExSums.join
    (if ch.mem then ⟨c.members.length, 0, c.digest, c.exSum (fun x => if isOp c.aw = 7 then 0 else x.recvd), c.silt, c.osilt, 0,
        c.exSum (fun x => x.recvd), c.cand⟩
     else ⟨0, 0, 0, 0, 0, 0, 0, 0, none⟩)

/-- A chain's SENT report (steps 1 and 2), or at the close root ALL_SENT (step 3), with the decision of a step skew (R104). -/
def State.sentTry (s : State) (g : BitVec 12) (k : Word) (ch : Chain) : State :=
  let c := s.coll g k
  if c.sentFwd.contains ch.id = true ∨ (ch.mem && !c.members.all (fun m => m.ex.fin && decide (m.ex.owed = 0))) = true
    ∨ s.allIn c ch (c.sentIn.map (fun x => (x.1, x.2.1))) = false ∨ (isStep c.aw && !c.stepSeg.contains ch.id) = true then s
  else
    let x := c.sentSums ch
    let s1 := s.onColl g k (fun c => { c with sentFwd := c.sentFwd ++ [ch.id] })
    if ch.id = 5 then
      match c.step with
      | some (a, b) => if a ≠ b then s1.stepSkew g k a b else s1.post ⟨g, k, s.wl.dieId, 0, 0, 0, .allSent⟩
      | none => s1.post ⟨g, k, s.wl.dieId, 0, 0, 0, .allSent⟩
    else
      s1.sendUp ch g k (.close 1 (BitVec.ofNat 32 x.nmem) x.fp 0 (BitVec.ofNat 32 x.con) 0 0 (BitVec.ofNat 32 x.sent) 0 none)

/-- The member's tokens have all been delivered, and nothing waits for its SINK channel any more. -/
def State.exDelivered (s : State) (c : Coll) (m : Member) : Bool :=
  (decide (isOp c.aw = 7) || m.ex.toks.all (fun t => t.done))
    && !(s.chan (isRxCh m.words)).binds.any (fun b => b.isSink c.g c.k m.cp && isRxSink m.words && decide (b.pend ≠ []))

/-- The member's result data is complete and checked: every token delivered, and what its sink has written has been read back
(R307). -/
def State.exChecked (s : State) (c : Coll) (m : Member) : Bool :=
  s.exDelivered c m
    && (!isRxSink m.words || m.sunk
      || (s.chan (isRxCh m.words)).binds.any (fun b => b.isSink c.g c.k m.cp && decide (b.moved = 0)))

/-- The read-back that a member's CHECKED report waits for starts once its channel serves the binding and has sent every beat
(R307). -/
def State.probeSink (s : State) (c : Coll) (m : Member) : State :=
  let ch := isRxCh m.words
  let x := s.chan ch
  match x.binds with
  | b :: _ =>
    if isRxSink m.words ∧ m.sunk = false ∧ s.exDelivered c m = true ∧ b.isSink c.g c.k m.cp = true ∧ b.moved ≠ 0 ∧ x.sinkq = []
      ∧ x.endPh = .none ∧ x.st = .active then s.sinkStart ch .probe else s
  | [] => s

/-- A chain's CHECKED report, or at the close root the trap and the seal (steps 5 and 6). -/
def State.checkedTry (s : State) (g : BitVec 12) (k : Word) (ch : Chain) : State :=
  let c := s.coll g k
  if c.closeFwd.contains ch.id = true ∨ c.allSent = false ∨ (ch.mem && !c.members.all (s.exChecked c)) = true
    ∨ s.allIn c ch (c.closeIn.map (fun x => (x.1, x.2.1))) = false then s
  else
    let x := c.checkedSums ch
    let s1 := s.onColl g k (fun c => { c with closeFwd := c.closeFwd ++ [ch.id] })
    if ch.id = 5 then
      let s2 := match x.cand with | some v => s1.raiseTrap g k v | none => s1
      if (s2.coll g k).decided.isSome then s2
      else
        let y := c.sentSums ch
        let head := toLe 8 s.img.digest.toNat ++ toLe 8 (isTag c.aw).toNat ++ canonical c.aw ++ toLe 8 x.dg.toNat
        (s2.onColl g k (fun c => { c with
          digest := crc64 head, contrib := if isOp c.aw = 7 then y.con else x.con, silt := x.silt, osilt := x.osilt, fp := y.fp })).releaseSeal g k
    else
      s1.sendUp ch g k (.close 2 (BitVec.ofNat 32 x.nmem) 0 x.dg (BitVec.ofNat 32 x.con) (BitVec.ofNat 32 x.silt)
        (BitVec.ofNat 32 x.osilt) 0 (BitVec.ofNat 32 x.recvd) x.cand)

/-- ALL_SENT reaches the chains that it addresses: it goes on below, and every placed route must have its contribution
(step 4). -/
def State.applyAllSent (s : State) (g : BitVec 12) (k : Word) (level : Nat) : State :=
  match s.coll? g k with
  | none => s
  | some c =>
    if c.st ≠ .opened ∨ c.decided.isSome then s
    else
      let chs := s.addressed c level
      let s1 := chs.foldl (fun t ch => t.sendDown (t.kidsOf (t.group g) c.rd ch) g k .allSent) s
      if c.allSent then s1
      else
        let s2 := s1.onColl g k (fun c => { c with allSent := true })
        match c.members.find? (fun m => m.ex.toks.any (fun t => t.routes.any (fun r => r.placed && r.got.isNone))) with
        | some m => s2.exMismatch g k m.cp
        | none => s2

/-- What follows a change of a routed operation on this die. -/
def State.exAdvance (s : State) (g : BitVec 12) (k : Word) : State :=
  let s0 := State.exPump (s.coll g k).exWait.length s g k
  match s0.coll? g k with
  | none => s0
  | some c =>
    if c.st ≠ .opened ∨ c.decided.isSome then s0
    else
      let s1 := if c.allSent then c.members.foldl (fun t m => t.probeSink (t.coll g k) m) s0 else s0
      (s1.chains (s1.group g) c.rd).foldl (fun t ch =>
        let go (u : State) (f : State → State) : State := if (u.coll g k).decided.isSome then u else f u
        go (go (go t (fun u => u.exStep g k ch)) (fun u => u.sentTry g k ch)) (fun u => u.checkedTry g k ch)) s1

/-- What follows a change of any collective on this die. -/
def State.push (s : State) (g : BitVec 12) (k : Word) : State :=
  let c := s.coll g k
  let s1 :=
    if c.adm = false then s
    else if isExch c.aw then s.exAdvance g k
    else s.advance g k
  s1.tokTry g k

end Sys2Proof.Machine
end

