-- ==== Sys2Proof/Machine/Leaf.lean ====
section
/-! DEFINITION. The leaf (R34 to R36, R58 to R62, R97 to R101): a member's contribution wale becomes loam words and
enters the tree. Send wales (R364) and the beats of a feeder channel come in here. -/

namespace Sys2Proof.Machine

/-- The GATE or IDX_BASE bytes at the end of a reduction's fingerprint term (R355). -/
def termTail (c : Coll) (m : Member) : List Byte :=
  (if isOp c.aw = 1 then wordsBytes [if isGateFmt c.aw = 1 then isGate m.words &&& 0xFFFF#32 else isGate m.words] else [])
    ++ (if isOp c.aw = 4 ∧ isIdxMode c.aw = true then wordsBytes [isIdxBase m.words] else [])

/-- One element at a leaf: lane, whether its NaN was created here, and the check of R36. -/
def leafLane (c : Coll) (m : Member) (img : List Byte) (code : Nat) : Lane × Bool × Bool :=
  let op := isOp c.aw
  if op = 5 ∨ op = 6 then (.raw (BitVec.ofNat 32 code), false, true)
  else
    let e := decodeElem (isIn c.aw) (imageScale (isIn c.aw) img) code
    if op = 1 then
      let g := if isGateFmt c.aw = 1 then decodeElem 1 0 ((isGate m.words).toNat % 65536) else decodeElem 0 0 (isGate m.words).toNat
      let r := weigh g e
      (.word r.1, r.2.1, r.2.2)
    else
      let r := widen (isIn c.aw) e
      (.word r.1, false, r.2)

/-- A padding lane (R62). -/
def padLane (op : Nat) : Lane := if op = 5 ∨ op = 6 then .raw 0 else .word Loam.zero

/-- Wale `w` of a member as it enters the tree, and the first lane that fails the check of R36. -/
def State.leafWale (s : State) (c : Coll) (m : Member) (w : Nat) (img : List Byte) : WaleV × Option Nat :=
  let op := isOp c.aw
  let n := isLanes c.aw w
  let rs := (imageCodes (isIn c.aw) img).zipIdx.map (fun x =>
    if x.2 < n then leafLane c m img x.1 else (padLane op, false, true))
  let cand := rs.zipIdx.findSome? (fun x => match x.1.1 with
    | .word v => if v.cls = .nan then
        some (⟨BitVec.ofNat 32 w, BitVec.ofNat 5 x.2, s.wl.dieId, 0, BitVec.ofNat 10 m.cp, x.1.2.1, 0⟩ : Cand) else none
    | _ => none)
  let ix : Word := if isIdxMode c.aw then isIdxBase m.words else BitVec.ofNat 32 (s.own * 1024 + m.cp)
  (⟨rs.map (fun x => x.1), if op = 4 then (List.range 32).map (fun i => if i < n then ix else 0xFFFFFFFF#32) else [],
    0, if w = 0 then 1 else 0,
    if w = 0 ∧ isStep c.aw = true ∧ rawOp c.aw = false then some (isStepV m.words, isStepV m.words) else none, cand⟩,
    rs.findIdx? (fun x => !x.2.2))

/-- The path of a member's wales from its leaf. -/
def State.leafPath (s : State) (c : Coll) (cp : Nat) : List Nat × Tgt := s.climb c (s.memMask c.g) 10 0 cp

/-- The member supplies data to this collective: it is not ABSENT, and in a BCAST it is the root. -/
def Coll.supplies (c : Coll) (die : Nat) (m : Member) : Bool :=
  decide (isSrc m.words ≠ 2)
    && (isExch c.aw || decide (isOp c.aw ≠ 7) || (decide (c.rd = die) && decide (isRootCp c.aw = m.cp)))

/-- The leaf has room for one more wale of the member: in a BCAST, the way down has, and with STEP_CHK 1 every stamp has reached
the slath (R104). -/
def State.leafRoom (s : State) (c : Coll) (m : Member) : Bool :=
  decide (c.st = .opened) && c.decided.isNone && !s.held c
    && (isExch c.aw || (decide (isOp c.aw = 7) && s.mayRelease c) || (decide (isOp c.aw ≠ 7) && s.room c (s.leafPath c m.cp).2))

/-- Count a contribution wale of the member and extend its fingerprint term (R355, R356). -/
def State.countWale (s : State) (c : Coll) (m : Member) (img : List Byte) : State :=
  let last := decide (m.sent + 1 = isWales c.aw)
  let r := crc64Run m.crc img
  let r' := if last then crc64Run r (termTail c m) else r
  s.onColl c.g c.k (fun c => { (c.onMember m.cp (fun m => { m with sent := m.sent + 1, crc := r', fpDone := m.fpDone || last })) with
    fp := if last then c.fp ^^^ r' else c.fp })

/-- One contribution wale of an ordinary collective enters the tree. -/
def State.contribute (s : State) (c : Coll) (m : Member) (data : List Byte) : State :=
  let w := m.sent
  let img := padImage (isIn c.aw) (isLanes c.aw w) (padTo (fmtImage (isIn c.aw)) data)
  let s1 := s.countWale c m img
  if isOp c.aw = 7 then
    (s1.onColl c.g c.k (fun c => { c with contrib := 1 })).release c.g c.k w img none 0
  else
    let v := s.leafWale c m w img
    match v.2 with
    | some i => s1.residue c 0x05 1 m.cp w i
    | none =>
      let s2 := s1.forward (s1.coll c.g c.k) (s.leafPath c m.cp) (some w) v.1
      if w = 0 ∧ isStep c.aw = true ∧ rawOp c.aw = true then
        State.passSteps 16 (s2.stepTo (s2.coll c.g c.k) (s.leafPath c m.cp).2 (isStepV m.words, isStepV m.words)) c.g c.k
      else s2

/-- The endpoint takes one wale of the member. -/
def State.supply (s : State) (c : Coll) (m : Member) (data : List Byte) : State :=
  (if isExch c.aw then s.exSupply c.g c.k m.cp data else s.contribute c m data).push c.g c.k

/-! ### Send wales (R364) -/

/-- The open collective of `g` for which the port owes ACC data. -/
def State.owedColl (s : State) (cp : Nat) (g : BitVec 12) : Option (Coll × Member) :=
  s.colls.findSome? (fun c =>
    if c.g = g ∧ c.isOpen = true then
      match c.member? cp with
      | some m => if isSrc m.words = 0 ∧ c.supplies s.own m = true ∧ m.fpDone = false ∧ m.ended = false then some (c, m) else none
      | none => none
    else none)

/-- The port has accepted a collective of `g` that is not yet OPEN. -/
def State.pendingColl (s : State) (cp : Nat) (g : BitVec 12) : Bool :=
  s.colls.any (fun c => decide (c.g = g) && (decide (c.st = .gather) || decide (c.st = .queued)) && (c.member? cp).isSome)

/-- A send wale for which the port owes no data (Table ER-2, STRAY_WALE). -/
def State.stray (s : State) (cp : Nat) (g : BitVec 12) : State := (s.logEv 0x11 2 1 cp 0 g.toNat g).attn 1

/-- Present a send wale to the port, which takes it at the pace of its leaf (R261), discards it or holds it. -/
def State.sendWale (s : State) (cp : Nat) (g : BitVec 12) (data : List Byte) : State :=
  if (s.port cp).owes g ≠ [] then s.onPort cp (fun p => p.discardOne g data)
  else
    match s.owedColl cp g with
    | some (c, m) =>
      let a := if s.leafRoom c m then s.opportunity cp else (false, s)
      if a.1 then a.2.supply c m data else a.2.onPort cp (fun p => { p with txHeld := some (g, data) })
    | none =>
      if s.pendingColl cp g then s.onPort cp (fun p => { p with txHeld := some (g, data) }) else s.stray cp g

/-- A held wale is presented again. -/
def State.retryHeld (s : State) (cp : Nat) : State :=
  match (s.port cp).txHeld with
  | some (g, data) => (s.onPort cp (fun p => { p with txHeld := none })).sendWale cp g data
  | none => s

/-! ### Feeder data (R297, R303, R305) -/

/-- Beats of the next wale that the member's endpoint takes. -/
def nextBeats (c : Coll) (m : Member) : Nat :=
  if isExch c.aw ∧ m.ex.left = 0 then 2 else fmtBeats (isIn c.aw)

/-- Let the endpoint of a FEED channel take what it can, each wale at the pace of the channel (R261). -/
def State.feedPump : Nat → State → Nat → State
  | 0, s, _ => s
  | n + 1, s0, ch =>
    let x := s0.chan ch
    match x.actBind with
    | none => s0
    | some b =>
      match s0.coll? b.g b.k with
      | none => s0
      | some c =>
        match c.member? b.cp with
        | none => s0
        | some m =>
          if b.sink ∨ b.checked = false ∨ x.st ≠ .active ∨ x.desc = [] ∨ mget [] x.staged x.moved = [] ∨ s0.leafRoom c m = false then s0
          else
            let a := if b.part = [] then s0.opportunity (ptChan ch) else (true, s0)
            if a.1 = false then a.2
            else
              let s1 := a.2.takeBeat ch
              let part := ((s1.chan ch).actBind.map (fun b => b.part)).getD []
              if part.length < 64 * nextBeats c m then State.feedPump n (s1.feedEnd ch) ch
              else
                let s2 := (s1.setChan ch ((s1.chan ch).onBind (fun b => { b with part := [] }))).supply c m part
                let fin := ((s2.coll b.g b.k).member? b.cp).map (fun m => m.fpDone)
                State.feedPump n ((if fin = some true then s2.popBind ch else s2).feedEnd ch) ch

/-- What a channel may go on with: it leaves PAUSED once its first binding is no longer one of a suspended collective (R309),
its staging takes what it has been given, and its endpoint takes what it can. -/
def State.chanFlow (s : State) (ch : Nat) : State :=
  let x := s.chan ch
  let s1 := match x.st, x.actBind with
    | .paused, some b => if s.suspended b.g b.k then s else s.onChan ch (fun y => { y with st := .active })
    | .paused, none => s.onChan ch (fun y => { y with st := .active })
    | _, _ => s
  if (s1.chan ch).st = .active then State.feedPump 512 ((s1.fillChan ch).sinkEnd ch) ch else s1

/-- Release, close and supply wherever something may have become possible. -/
def State.flowOnce (s : State) : State :=
  let s1 := s.colls.foldl (fun t c => t.push c.g c.k) s
  let s2 := s1.ports.foldl (fun t p => if p.2.txHeld.isSome then t.retryHeld p.1 else t) s1
  s2.chans.foldl (fun t x => t.chanFlow x.1) s2

end Sys2Proof.Machine
end

