-- ==== Sys2Proof/Machine/Admit.lean ====
section
/-! DEFINITION. From the fused issue to admission (spec/04 R88 to R95, spec/08 R229 to R234): pairing and
agreement in the gather tree, the refusal conditions, the reserve round and ADMIT. -/

namespace Sys2Proof.Machine

/-! ### Refusal (Tables CO-4, EX-9, SU-3) -/

/-- The issue needs a feature that is not accepted (Table SU-3). -/
def State.featRefused (s : State) (ws : List Word) : Bool :=
  (isExch ws && !s.feat 4) || ((fmtMx (isIn ws) || fmtMx (isOut ws)) && !s.feat 5)
    || (decide (isDest ws = 1) && !s.feat 6) || (isLaunch ws && !s.feat 8)

/-- Format conditions of R57, which for a routed operation Table EX-3 replaces. -/
def badFormat (ws : List Word) : Bool :=
  decide (9 < isIn ws) || decide (9 < isOut ws) || (!isExch ws && !fmtLegal (isOp ws) (isIn ws) (isOut ws))

/-- DEST and ECHO conditions of Table CO-4 and R322. -/
def badDest (ws : List Word) : Bool :=
  let op := isOp ws
  decide (isDest ws = 3)
    || (decide (op = 7) && (isEcho ws || decide (isDest ws ≠ 2)))
    || (decide (op ≤ 6) && decide (isDest ws = 2) && !isEcho ws)
    || (decide (op ≤ 6) && decide (isDest ws = 1) &&
        (decide (1 < op) || !isStep ws || (isGrain ws != fmtMx (isOut ws))))

/-- A condition of Table CO-4 holds, whatever the bound. -/
def State.refusable (s : State) (g : BitVec 12) (ws : List Word) (srcBad : Bool) : Bool :=
  let op := isOp ws
  decide (7 < op) || badFormat ws
    || (decide (op ≤ 1) && (!fp32Nonzero (isScale ws) || !fp32Finite (isBias ws)))
    || (decide (op = 1) && decide (1 < isGateFmt ws))
    || !s.memberAt g (isRootDie ws) (isRootCp ws) || badDest ws || srcBad
    || (!isExch ws && decide (isWales ws = 0))
    || (isExch ws && s.exRefused g ws) || s.featRefused ws

/-! ### REFUSED -/

/-- REFUSED acts at one chain of the gather tree: the dies below hear of it, and the chain's members get the status (R95). -/
def State.refuseChain (s : State) (g : BitVec 12) (k : Word) (ch : Chain) : State :=
  let c := s.coll g k
  if c.tokSegs.contains ch.id then s
  else
    let s1 := (s.kidsOf (s.group g) (s.group g).home ch).foldl (fun t x =>
      t.sendEdge x.1 (subField x.1 s.own) x.2.2 g (c.kidSeq x.1 x.2.1) .refuse) s
    let s2 := if ch.mem then (c.members.filter (fun m => !m.ended)).foldl (fun t m => t.status m.cp 2 g m.k true) s1 else s1
    s2.onColl g k (fun c => { c with tokSegs := c.tokSegs ++ [ch.id] })

/-- REFUSED reaches this die: once every chain has had it, the collective is gone. -/
def State.applyRefuse (s : State) (g : BitVec 12) (k : Word) (level : Nat) : State :=
  match s.coll? g k with
  | none => s
  | some c =>
    if c.st ≠ .gather ∧ c.st ≠ .queued then s
    else
      let s1 := (s.addressed c level).foldl (fun t ch => t.refuseChain g k ch) s
      if s1.tokensPassed (s1.coll g k) then ({ s1 with colls := s1.colls.filter (fun x => !x.is g k) } : State).endBinds g k else s1

/-- The home member refuses. -/
def State.refuseColl (s : State) (g : BitVec 12) (k : Word) : State :=
  let s1 : State := { s with adm := { s.adm with refused := satInc s.adm.refused } }
  (s1.releaseRound g k).post ⟨g, k, s.wl.dieId, 0, 0, 0, .refuse⟩

/-! ### Resources (Table PR-6) -/

/-- Combining-point inputs of the collective on this die. -/
def State.inputCount (s : State) (g : BitVec 12) (ws : List Word) : Nat :=
  if isExch ws then 0
  else
    let cfg := s.img.cfg
    let m := s.memMask g
    let node := if (s.group g).memDie s.own then
      ((List.range cfg.nl).map (fun l => ((List.range (cfg.prod / cfg.spanOf (l + 1))).map (fun j =>
        let n := (cfg.memPorts m (l + 1) j).length
        if 2 ≤ n then n else 0)).foldl (fun a b => a + b) 0)).foldl (fun a b => a + b) 0
      else 0
    node + ((s.stages (s.group g) (isRootDie ws)).map (fun l => popN 32 ((s.group g).mask l))).foldl (fun a b => a + b) 0

/-- Wales in flight that the collective takes on this die. -/
def State.waleNeed (s : State) (g : BitVec 12) (ws : List Word) : Nat := s.img.cfg.bufs * (s.inputCount g ws + 1)

/-- The paths by which the collective leaves this die: the stake (lowest member of a bond) and the level of the stage. -/
def State.stakesOf (s : State) (c : Coll) : List (Nat × Nat) :=
  let grp := s.group c.g
  let es := (s.ups grp c.rd).map (fun x => (x.1, x.2.2)) ++ (s.kids grp c.rd).map (fun x => (x.1, x.2.2))
    ++ c.legs.flatMap (fun l => [(l.level, l.up), (l.level, l.down)])
  es.filterMap (fun e => match s.routeNext e.2 with
    | .stake n => (s.img.cfg.bondOf n).head?.map (fun m => (m, e.1))
    | _ => none)

/-- The stakes that the collective's paths cross. -/
def State.stakeSet (s : State) (c : Coll) : List Nat := ((s.stakesOf c).map (fun x => x.1)).eraseDups

/-- Flit charge of the collective on stake `n` (R223). -/
def State.chargeOn (s : State) (c : Coll) (n : Nat) : Nat :=
  (((s.stakesOf c).filter (fun x => decide (x.1 = n))).map (fun x =>
    let w := s.chargeAt c.g c.aw x.2
    w.1 + w.2)).foldl (fun a b => a + b) 0

/-- Share class of a virtual channel: a VC0 barrier takes SHARE_V1. -/
def shareClass (vc : Nat) : Nat := if vc = 0 then 1 else vc

/-- The collectives that hold resources on this die. -/
def State.holders (s : State) : List Coll := s.colls.filter (fun c => c.holds)

/-- Beats per wale index that this die's bindings move (BM_d). -/
def State.beatLoad (s : State) (c : Coll) : Nat :=
  (c.members.map (fun m =>
    (if isSrc m.words = 1 ∧ c.supplies s.own m = true then fmtBeats (isIn m.words) else 0)
      + (if isRxSink m.words then fmtBeats (isOut m.words) + (if isOp m.words = 4 then 2 else 0) else 0))).foldl (fun a b => a + b) 0

/-- The die has a memory or update stage of the collective. -/
def State.memStage (s : State) (c : Coll) : Bool :=
  decide (s.beatLoad c ≠ 0) || (c.toUpd && decide (c.rd = s.own))

/-- VC1 charge on stake `n` that has been reserved and not admitted yet. -/
def State.vc1Held (s : State) (n : Nat) : Nat :=
  ((s.holders.filter (fun x => decide (s.vcOf x = 1) && decide (x.b = 0))).map (fun x => s.chargeOn x n)).foldl (fun a b => a + b) 0

/-- R224: the VC1 charge on stake `n`, with what is reserved beside it, keeps the count of every admitted VC2 or VC3 collective
within the budget. -/
def State.budgetOk (s : State) (c : Coll) (n : Nat) : Bool :=
  s.holders.all (fun x => decide (s.vcOf x < 2) || decide (x.b = 0) || !(s.stakeSet x).contains n
    || decide (mget 0 x.v1since n + s.vc1Held n + s.chargeOn c n ≤ 1024 * s.img.cfg.priBudget))

/-- Stakes on which a VC1 reservation of `c` is refused for the budget. -/
def State.overBudget (s : State) (c : Coll) : List Nat :=
  if s.img.cfg.collFirst && decide (s.vcOf c = 1) then (s.stakeSet c).filter (fun n => !s.budgetOk c n) else []

/-- A stake reports FULL to a new VC2 or VC3 collective while a VC1 reservation stands refused on it. -/
def State.vc1Waits (s : State) (c : Coll) : Bool :=
  s.img.cfg.collFirst && decide (2 ≤ s.vcOf c)
    && (s.stakeSet c).any (fun n => s.colls.any (fun x => x.v1ref.contains n))

/-- Stake shares are free. -/
def State.stakeShares (s : State) (c : Coll) : Bool :=
  (s.stakeSet c).all (fun n =>
    decide ((s.holders.filter (fun x => decide (shareClass (s.vcOf x) = shareClass (s.vcOf c)) && (s.stakeSet x).contains n)).length
      < s.img.cfg.shareV (s.vcOf c)))

/-- The collective spans more than one die. -/
def State.spans (s : State) (g : BitVec 12) : Bool := decide (1 < (s.group g).dieList.length)

/-- A SUSPEND of the group is under way or stands here (R115, R233). -/
def State.groupHeld (s : State) (g : BitVec 12) : Bool := decide ((mget SuspG.zero s.col.susp g.toNat).st ≠ .none)

/-- Every resource that the collective needs on this die is free (Table PR-6, R348). -/
def State.fits (s : State) (c : Coll) : Bool :=
  let hs := s.holders
  let need := s.waleNeed c.g c.aw
  decide (hs.length < 512)
    && decide ((hs.map (fun x => x.wales)).foldl (fun a b => a + b) 0 + need ≤ 32768)
    && (decide (s.localMems c.g = []) || decide ((hs.filter (fun x => decide (s.localMems x.g ≠ []))).length < s.img.cfg.shareT))
    && (!s.memStage c || decide ((hs.filter s.memStage).length < s.img.cfg.shareM))
    && s.stakeShares c && decide (s.overBudget c = []) && !s.vc1Waits c
    && (!s.spans c.g || decide (s.time.st = .locked)) && !s.groupHeld c.g

/-! ### Reserve reports (Table SK-16) -/

/-- A flit slot in ps at a lane width (R195). -/
def slotPs (w : Nat) : Nat := if 8 ≤ w then 1320 else if 4 ≤ w then 2640 else if 2 ≤ w then 5280 else 10560

/-- The hop from this die toward a die, as a report counts it: its figures, the flit slot in ps undivided, the members in
service that divide it, and ACK_TIMEOUT in ns. -/
structure HopFig where
  rep   : StageRep
  slot  : Nat
  up    : Nat
  ackto : Nat
  deriving DecidableEq, Repr

/-- Figures of the hop from this die toward `dest` over the stake that route_next gives. -/
def State.hopRep (s : State) (dest : Nat) : HopFig :=
  match s.routeNext dest with
  | .stake n =>
    let up := s.bondUp n
    let m := max 1 up.length
    let x := s.stake (up.headD n)
    let q := ((s.colls.filter (fun c => c.isOpen && decide (s.vcOf c = 1))).map (fun c =>
      s.chargeOn c ((s.img.cfg.bondOf n).headD n))).foldl (fun a b => a + b) 0
    ⟨⟨1, x.hopdly.toNat, x.rtt.toNat, cdiv (slotPs x.width) m, q⟩, slotPs x.width, m, x.ackto.toNat⟩
  | _ => ⟨⟨0, 0, 0, 0, 0⟩, 0, 1, 0⟩

/-- One entry after a further hop. -/
def stageHop (a h : StageRep) : StageRep :=
  ⟨a.hops + h.hops, a.hopdly + h.hopdly, a.rtt + h.rtt, max a.smax h.smax, max a.qopen h.qopen⟩

/-- The worse of two paths. -/
def stageWorst (a b : StageRep) : StageRep :=
  ⟨max a.hops b.hops, max a.hopdly b.hopdly, max a.rtt b.rtt, max a.smax b.smax, max a.qopen b.qopen⟩

/-- Eight entries. -/
def eight (l : List StageRep) : List StageRep := (List.range 8).map (fun i => l.getD i ⟨0, 0, 0, 0, 0⟩)

/-- A_RETRY of one hop (R225): 3 × ⌈F / 512⌉ × (ACK_TIMEOUT + 512 × s), to the nearest 1/16 ns, the unit of RETRY in Table
SK-16 (log entry 20). -/
def retryTerm (flits : Nat) (h : HopFig) : Nat :=
  let d := 1000 * max 1 h.up
  (2 * (3 * cdiv flits 512 * (16000 * max 1 h.up * h.ackto + 8192 * h.slot)) + d) / (2 * d)

/-- The report with the hop from this die to `dest` added to entry `e` of the stages. -/
def State.addHop (s : State) (r : Report) (dest e charge : Nat) : Report :=
  let h := s.hopRep dest
  { r with stages := (eight r.stages).zipIdx.map (fun x => if x.2 = e then stageHop x.1 h.rep else x.1),
           retry := r.retry + retryTerm charge h }

/-- The hop of an up path of the level-`lv` stage (Table SK-16, entries 0 to 3). -/
def State.addUp (s : State) (g : BitVec 12) (r : Report) (dest lv : Nat) (ws : List Word) : Report :=
  s.addHop r dest (lv - 1) (s.chargeAt g ws lv).1

/-- The hop of a down path of the level-`lv` stage (entries 4 to 7). -/
def State.addDown (s : State) (g : BitVec 12) (r : Report) (dest lv : Nat) (ws : List Word) : Report :=
  s.addHop r dest (lv + 3) (s.chargeAt g ws lv).2

/-- Two reports combine (R230). -/
def joinReports (a b : Report) : Report :=
  { full := a.full || b.full, down := a.down || b.down, tau := max a.tau b.tau, md := max a.md b.md, ndie := a.ndie + b.ndie,
    nlmax := max a.nlmax b.nlmax, bmin := min a.bmin b.bmin, retry := max a.retry b.retry,
    stages := (eight a.stages).zipWith stageWorst (eight b.stages) }

/-- This die's own figures. -/
def State.ownReport (s : State) (c : Coll) (full down : Bool) : Report :=
  ⟨full, down, s.tilth.tau, s.beatLoad c, 1, s.img.cfg.nl, s.img.cfg.bufs, 0, eight []⟩

/-- Take what the collective needs on this die, or nothing, and count FULL (R230). -/
def State.retake (s : State) (c : Coll) : State :=
  let c1 : Coll := { c with holds := false, v1ref := [] }
  let s1 := s.putColl c1
  let ok := s1.fits c1
  ({ s1 with adm := { s1.adm with full := if ok then s1.adm.full else satInc s1.adm.full,
                                  tauRes := BitVec.ofNat 12 s1.tilth.tau } } : State).putColl
    { c1 with holds := ok, wales := s1.waleNeed c.g c.aw, v1ref := s1.overBudget c1 }

/-- The reports from below a chain have all come: send the combined one up, or from the root die to the home die. The die's own
count goes with the first chain that was reserved. -/
def State.reportChain (s : State) (g : BitVec 12) (k : Word) (ch : Chain) : State :=
  let c := s.coll g k
  match c.rep with
  | none => s
  | some r0 =>
    if c.resv.contains ch.id = false ∨ c.tried.contains ch.id = true
      ∨ (c.kids.filter (fun x => ch.levels.contains x.1)).all (fun x => c.reps.any (fun y => decide (y.1 = x.1) && decide (y.2.1 = x.2))) = false then s
    else
      let own := { r0 with full := r0.full || !c.holds, ndie := if c.resv.head? = some ch.id then r0.ndie else 0 }
      let r := (ofChain ch c.reps).foldl joinReports own
      let s1 := s.onColl g k (fun c => { c with tried := c.tried ++ [ch.id], rep := if ch.id = 5 then some r else c.rep })
      match ch.out with
      | .away l f d => s1.sendEdge l f d g k (.report (s1.addUp g r d l c.aw)) c.round
      | _ => s1.send (s.group g).home g k (.report r) c.round

/-- The chain that a message of the embedded tree from above addresses: with level 0, from the home die, the root's. -/
def State.fromAbove (s : State) (g : BitVec 12) (rd level : Nat) : List Chain :=
  (s.chains (s.group g) rd).filter (fun ch => decide (ch.id = if level = 0 then 5 else level))

/-- RESERVE goes on below a chain. A stake that the path needs marks DOWN; a route fault ends the collective (R167, R230). -/
def State.reserveChain (s : State) (g : BitVec 12) (k : Word) (ch : Chain) : State :=
  let c := s.coll g k
  let kids := s.kidsOf (s.group g) c.rd ch
  let reach := kids.filter (fun x => s.canReach x.2.2)
  let above := match ch.out with | .away _ _ d => d | _ => (s.group g).home
  let down := decide (reach.length ≠ kids.length) || !s.canReach above
  let s1 := s.onColl g k (fun c =>
    let r := c.rep.getD (s.ownReport c (!c.holds) false)
    { c with resv := c.resv ++ [ch.id], kids := c.kids ++ reach.map (fun x => (x.1, x.2.1)), rep := some { r with down := r.down || down } })
  let s2 := (kids.filter (fun x => s.noRoute x.2.2)).foldl (fun t x => t.orFail g k x.2.2 x.1 .fault) s1
  (s2.sendDown reach g k (.reserve c.aw (compl c.aw)) c.round).reportChain g k ch

/-- The record of (g, k), or one of that name of which nothing has happened yet. -/
def State.recOf (s : State) (g : BitVec 12) (k : Word) : Coll := (s.coll? g k).getD { Coll.zero with g := g, k := k, pos := k }

/-- A round that this die has not seen yet starts afresh: what an earlier one took has been given back. -/
def Coll.inRound (c : Coll) (round : BitVec 16) : Coll :=
  if c.round = round then c
  else { c with round := round, holds := false, resv := [], kids := [], reps := [], rep := none, tried := [], legs := [] }

/-- Nothing of a reserve round may act here any more: the collective is admitted, decided or gone. -/
def Coll.settled (c : Coll) : Bool := c.isOpen || decide (c.st = .ended) || c.decided.isSome || decide (c.b ≠ 0)

/-- RESERVE at a die of the tree (Table PR-7, step 2): the die takes its resources with the first chain that it reaches. -/
def State.reserveHere (s : State) (g : BitVec 12) (k : Word) (aw : List Word) (round : BitVec 16) (level : Nat) : State :=
  let c0 := s.recOf g k
  if c0.settled then s
  else
    let c1 : Coll := { c0.inRound round with aw := aw, st := .queued }
    match (s.fromAbove g c1.rd level).filter (fun ch => !c1.resv.contains ch.id) with
    | [] => s
    | ch :: _ => (if c1.resv = [] then s.retake c1 else s.putColl c1).reserveChain g k ch

/-- A die that neither holds nor waits for anything of the collective lets its record go: it has no member, no place in the
gather tree, no chain or leg that is reserved, and no refusal that stands (R224). -/
def State.dropIf (s : State) (g : BitVec 12) (k : Word) : State :=
  match s.coll? g k with
  | none => s
  | some c =>
    if s.inTree (s.group g) (s.group g).home ∨ c.settled = true ∨ c.resv ≠ [] ∨ c.v1ref ≠ [] ∨ c.legs.any (fun l => l.seen) = true then s
    else { s with colls := s.colls.filter (fun x => !x.is g k) }

/-- RELEASE at a die: give back what the round took. A refusal that stands stays until a second RELEASE of the round, which the
home member sends as the collective leaves QUEUED (R224; log entry 19). -/
def State.releaseHere (s : State) (g : BitVec 12) (k : Word) (round : BitVec 16) (level : Nat) : State :=
  match s.coll? g k with
  | none => s
  | some c =>
    if c.isOpen ∨ c.round ≠ round then s
    else
      ((s.fromAbove g c.rd level).foldl (fun t ch =>
        let t1 := t.sendDown ((t.kidsOf (t.group g) c.rd ch).filter (fun x => t.canReach x.2.2)) g k .release round
        t1.onColl g k (fun c => { c with
          holds := false, rep := none, kids := [], reps := [], tried := [], resv := c.resv.filter (fun i => decide (i ≠ ch.id)),
          v1ref := if c.resv.contains ch.id then c.v1ref else [] })) s).dropIf g k

/-! ### Starting a round and deciding (R231, R232) -/

/-- No earlier collective of the group stands in the way (R19). The order of issue of R18 binds the collectives of one group
alone: those of different groups are independent (DESIGN CHOICE, log entry 81). -/
def State.firstOf (s : State) (g : BitVec 12) (k : Word) : Bool :=
  match (s.colls.filter (fun c => decide (c.g = g) && decide (c.st ≠ .ended))).head? with
  | some c => decide (c.k = k)
  | none => false

/-- Start a reserve round at the home die, when the collective is next in its group and no round is under way (R19, R233). -/
def State.startRound (s : State) (g : BitVec 12) (k : Word) : State :=
  match s.coll? g k with
  | none => s
  | some c =>
    if c.st ≠ .queued ∨ (s.group g).home ≠ s.own ∨ c.decided.isSome ∨ c.b ≠ 0 ∨ c.passed = true ∨ s.firstOf g k = false
      ∨ s.groupHeld g = true ∨ c.started then s
    else
      let s1 := s.onColl g k (fun c => { c.inRound (c.round + 1) with started := true })
      s1.send c.rd g k (.reserve c.aw (compl c.aw)) (c.round + 1)

/-- T_ADM: now, or LAUNCH while the counter has not reached it (R100, R234). -/
def State.admTime (s : State) (ws : List Word) : BitVec 64 :=
  if isLaunch ws ∧ s.reached (isLaunchT ws) = false then isLaunchT ws else s.nowInt

/-- The figures of the hops from the home die to the root die: the first hop, and beyond it what this die cannot see (log
entry 12). -/
def State.homeHop (s : State) (rd : Nat) : StageRep :=
  if rd = s.own then ⟨0, 0, 0, 0, 0⟩
  else
    let h := (s.hopRep rd).rep
    let far (i : Nat) : Nat := Config.hopsBeyond s.img.digest s.own rd i
    match s.routeNext rd with
    | .stake n => if s.img.cfg.stkPeer n = rd then h else stageHop h ⟨far 0, far 1, far 2, far 3, far 4⟩
    | _ => h

/-- The home member's decision (R231). While the group is suspended nothing is admitted (R233). -/
def State.decideAdmission (s : State) (g : BitVec 12) (k : Word) (r : Report) : State :=
  let c := s.coll g k
  let hr := s.homeHop c.rd
  let b := s.bound g c.aw r hr false
  let best := s.bound g c.aw r hr true
  let s1 : State := { s with adm := { s.adm with lastBest := BitVec.ofNat 40 (min best (2 ^ 40 - 1)) } }
  if r.down then s1.decideAbort g k 6 0 0 s.own
  else if 2 ^ 40 < best then s1.refuseColl g k
  else
    let s2 := s1.onColl g k (fun c => { c with started := false })
    if b ≤ 2 ^ 40 ∧ r.full = false ∧ s.groupHeld g = false then
      let t := s.admTime c.aw
      let s3 : State := { s2 with adm := { s2.adm with admitted := satInc s2.adm.admitted, lastB := BitVec.ofNat 40 (min b (2 ^ 40 - 1)) } }
      (s3.onColl g k (fun c => { c with passed := true })).send c.rd g k (.admission t (t + BitVec.ofNat 64 b) b) c.round
    else s2.send c.rd g k .release c.round

/-! ### Opening (R234, Table CO-8) -/

/-- Lowest free entry of the open-collective table (R419). -/
def State.freeEntry (s : State) : Nat :=
  ((List.range 512).find? (fun e => !s.colls.any (fun c => decide (c.entry = some e)))).getD 511

/-- The member sends an absent marker up at admission: it is ABSENT in a reduction, or it is any member of a BCAST with
STEP_CHK 1, whose stamps reach the root so (R101, R104, R194; log entry 18). -/
def Coll.marks (c : Coll) (supplies : Bool) : Bool :=
  !isExch c.aw && (if isOp c.aw = 7 then isStep c.aw else !supplies)

/-- Start one member at admission: an ABSENT member sends its marker and reports 0 (R101, R356); a member that has
nothing to supply reports 0. An ABSENT root of a BCAST releases zero wales (R103). -/
def State.startMember (s : State) (g : BitVec 12) (k : Word) (m : Member) : State :=
  let c := s.coll g k
  let sup := c.supplies s.own m
  let s1 := s.status m.cp 1 g m.k true
  let s2 := if sup then s1 else
    s1.onColl g k (fun c => c.onMember m.cp (fun m => { m with fpDone := true, ex := { m.ex with fin := true, part := 2 } }))
  let st := if isStep c.aw then some (isStepV m.words, isStepV m.words) else none
  if c.marks sup then
    let s3 := State.passMarkers 16 (s2.forward (s2.coll g k) (s.leafPath c m.cp) none ⟨[], [], 0, 0, st, none⟩) g k
    if rawOp c.aw then State.passSteps 16 s3 g k else s3
  else if isExch c.aw = false ∧ sup = false ∧ isOp c.aw = 7 ∧ c.rd = s.own ∧ isRootCp c.aw = m.cp then
    s2.forward (s2.coll g k) ([], Tgt.root) none ⟨[], [], 0, 0, none, none⟩
  else s2

/-- The VC1 charge of a collective that is admitted counts against the VC2 and VC3 collectives admitted on its stakes
(R224). -/
def State.chargeVc1 (s : State) (c : Coll) : State :=
  if s.vcOf c = 1 then
    (s.stakeSet c).foldl (fun t n =>
      { t with colls := t.colls.map (fun x =>
          if x.holds && decide (x.b ≠ 0) && decide (2 ≤ s.vcOf x) && (s.stakeSet x).contains n then
            { x with v1since := mput 0 x.v1since n (mget 0 x.v1since n + s.chargeOn c n) } else x) }) s
  else s

/-- The collective opens on this die. -/
def State.openColl (s : State) (g : BitVec 12) (k : Word) : State :=
  let c := s.coll g k
  let head := toLe 8 s.img.digest.toNat ++ toLe 8 (isTag c.aw).toNat ++ canonical c.aw
  let e := s.freeEntry
  let s1 := s.onColl g k (fun c => { c with
    st := .opened, entry := some e, holds := true, v1ref := [], started := true,
    late := isLaunch c.aw && decide (c.tAdm ≠ isLaunchT c.aw), elide := s.upd.elide,
    digest := if isExch c.aw then 0 else crc64 head, ldn := s.downLat g c.aw (c.rep.getD (s.ownReport c false false)) })
  let s2 : State := { s1 with col := { s1.col with entryTrap := mput [0, 0, 0, 0] s1.col.entryTrap e [0, 0, 0, 0] } }
  let s3 := s2.activate g k
  (c.members.foldl (fun t m => t.startMember g k m) s3).push g k

/-- An admitted collective opens once its T_ADM has come (R234) and its group is not suspended (R117). -/
def State.openTry (s : State) (g : BitVec 12) (k : Word) : State :=
  match s.coll? g k with
  | none => s
  | some c =>
    if c.st = .queued ∧ c.b ≠ 0 ∧ c.decided.isNone ∧ s.reached c.tAdm = true ∧ s.groupHeld g = false then s.openColl g k else s

/-- The values of ADMIT take effect on this die, once. -/
def State.admitOne (s : State) (g : BitVec 12) (k : Word) (t d : BitVec 64) (b : Nat) : State :=
  let c := s.coll g k
  if c.st ≠ .queued ∨ c.b ≠ 0 then s
  else
    let s1 := s.onColl g k (fun c => { c with tAdm := t, dl := d, b := b, v1since := [], v1ref := [] })
    (s1.chargeVc1 (s1.coll g k)).openTry g k

/-- ADMIT reaches this die. -/
def State.admitHere (s : State) (g : BitVec 12) (k : Word) (t d : BitVec 64) (b : Nat) (round : BitVec 16) (level : Nat) : State :=
  match s.coll? g k with
  | none => s
  | some c =>
    if (c.st ≠ .queued ∧ c.isOpen = false) ∨ c.decided.isSome ∨ c.round ≠ round then s
    else
      ((s.fromAbove g c.rd level).foldl (fun u ch =>
        u.sendDown (u.kidsOf (u.group g) c.rd ch) g k (.admission t d b) round) s).admitOne g k t d b

/-! ### The legs that this die forwards (R161, R229, R230) -/

/-- The leg is the one of this level between two dies. -/
def Leg.is (l : Leg) (level up down : Nat) : Bool := decide (l.level = level) && decide (l.up = up) && decide (l.down = down)

/-- The leg of `c` of a level between two dies. -/
def Coll.leg? (c : Coll) (level up down : Nat) : Option Leg := c.legs.find? (fun l => l.is level up down)

/-- Change a leg. -/
def Coll.onLeg (c : Coll) (level up down : Nat) (f : Leg → Leg) : Coll :=
  { c with legs := c.legs.map (fun l => if l.is level up down then f l else l) }

/-- RESERVE passes over this die on a leg of the tree: the die holds an entry, wales in flight and the leg's stake
shares, or none of them (Table PR-6, relay dies included). -/
def State.relayReserve (s : State) (g : BitVec 12) (k : Word) (aw : List Word) (round : BitVec 16) (level up down : Nat) : State :=
  let c0 := s.recOf g k
  if c0.settled ∨ level = 0 then s
  else
    let c1 := c0.inRound round
    let c2 : Coll := { c1 with legs := c1.legs ++ [⟨level, up, down, true, false, false⟩] }
    if s.inTree (s.group g) (isRootDie aw) && c1.resv.isEmpty then s.putColl c2
    else s.retake { c2 with aw := aw, st := .queued }

/-- The figures of this die and of its hop join a report that passes over it (R230, Table SK-16). -/
def State.passReport (s : State) (g : BitVec 12) (full first : Bool) (ws : List Word) (level up : Nat) (r : Report) : Report :=
  s.addUp g { r with full := r.full || full, tau := max r.tau s.tilth.tau, ndie := r.ndie + b1 first,
                     nlmax := max r.nlmax s.img.cfg.nl, bmin := min r.bmin s.img.cfg.bufs } up level ws

/-- RESERVE_REPORT passes up over this die. A die that has seen this round's RESERVE takes the stake share of a leg that
it did not know; one that has not adds the figures of its hop alone, and as it holds no operand words the hop's A_RETRY is a
free value (log entry 19). -/
def State.relayReport (s : State) (g : BitVec 12) (k : Word) (round : BitVec 16) (level up down : Nat) (r : Report) : State × Report :=
  if level = 0 then (s, r)
  else
    match s.coll? g k with
    | none =>
      let v := s.freeNext
      let r1 := s.passReport g (decide (s.time.st ≠ .locked)) false [] level up r
      (v.2, { r1 with retry := r.retry + v.1.toNat % 2 ^ 40 })
    | some c =>
      if c.round ≠ round ∨ c.isOpen = true then (s, r)
      else
        let c0 : Coll := { c with legs := c.legs ++ [⟨level, up, down, false, false, false⟩] }
        let s1 := if (c.leg? level up down).isSome then s else if c.holds then s.retake c0 else s.putColl c0
        let c1 := s1.coll g k
        let first := !s.inTree (s.group g) c.rd && decide (c1.legs.head? = c1.leg? level up down)
        let r1 := s1.passReport g (!c1.holds) first c.aw level up r
        let back := ((c1.leg? level up down).map (fun l => l.seen)).getD false
        (s1, if back then s1.addDown g r1 down level c.aw else r1)

/-- RESERVE cannot go on toward `dest`: the stake that the path needs is down, and this die's report says so (R230). -/
def State.bounceReserve (s : State) (m : Msg) (dest : Nat) : State :=
  let c := s.recOf m.group m.seq
  s.sendIf m.origin.toNat ⟨m.group, m.seq, s.wl.dieId, m.round, m.level, subField m.level dest,
    .report (s.ownReport c (!c.holds && decide (m.level ≠ 0)) true)⟩

/-- RELEASE passes over this die. -/
def State.relayRelease (s : State) (g : BitVec 12) (k : Word) (round : BitVec 16) (level up down : Nat) : State :=
  let c := s.coll g k
  match c.leg? level up down with
  | none => s
  | some l =>
    if c.round ≠ round ∨ c.settled = true then s
    else
      (s.onColl g k (fun c => { (c.onLeg level up down (fun l => { l with seen := false })) with
        holds := false, v1ref := if l.seen then c.v1ref else [] })).dropIf g k

/-- A leg has carried its terminal token: with an abort the die discards what it holds (R109), and a die that only forwards lets
the collective go with its last leg (R229). -/
def State.endLeg (s : State) (g : BitVec 12) (k : Word) (level up down : Nat) (code : BitVec 8) : State :=
  match s.coll? g k with
  | none => s
  | some c =>
    if (c.leg? level up down).isNone then s
    else
      let s1 := (if code = 0 then s else s.purge g k).onColl g k (fun c => c.onLeg level up down (fun l => { l with ended := true }))
      if (s1.coll g k).legs.any (fun l => l.seen && !l.ended) ∨ s.inTree (s.group g) c.rd = true then s1.reap g k
      else ((s1.endColl g k code).onColl g k (fun c => { c with st := .ended })).reap g k

/-- A control message passes over this die: what it does here, and the message that goes on. -/
def State.relayMsg (s : State) (dest : Nat) (m : Msg) : State × Msg :=
  let o := m.origin.toNat
  let g := m.group
  let k := m.seq
  match m.body with
  | .reserve aw awN => (if awN = compl aw then s.relayReserve g k aw m.round m.level o dest else s, m)
  | .report r =>
    let x := s.relayReport g k m.round m.level dest o r
    (x.1, { m with body := .report x.2 })
  | .admission t d b =>
    let c := s.coll g k
    if (c.leg? m.level o dest).isNone ∨ c.round ≠ m.round ∨ c.decided.isSome ∨ s.inTree (s.group g) c.rd = true then (s, m)
    else (s.admitOne g k t d b, m)
  | .release => (s.relayRelease g k m.round m.level o dest, m)
  | .close .. => (s.onColl g k (fun c => c.onLeg m.level dest o (fun l => { l with closed := true })), m)
  | .token ws _ => (s.endLeg g k m.level o dest (BitVec.ofNat 8 (wf_ (wd ws 1) 23 16)), m)
  | .lost => (s.endLeg g k m.level o dest 0, m)
  | _ => (s, m)

/-! ### Pairing and agreement (R15, R93, R94) -/

/-- MISMATCH found here: ARG1 names the first differing word, or 16 (Table ER-2). -/
def State.logMismatch (s : State) (g : BitVec 12) (k : Word) (arg : Nat) : State := s.logEv 0x0A 1 0 0 k.toNat arg g 3

/-- First word in which two issues differ. -/
def firstDiff (a b : List Word) : Nat := ((List.range 16).find? (fun i => decide (wd a i ≠ wd b i))).getD 0

/-- Combine two agreement inputs: one copy and the flags (R94). -/
def agJoin (a b : AgIn) : AgIn :=
  { a with niss := a.niss + b.niss, bad := a.bad || b.bad, dis := a.dis || b.dis || decide (a.aw ≠ b.aw),
           dist := a.dist || b.dist || decide (a.k ≠ b.k) }

/-- A member's issue as an agreement input. -/
def Member.agIn (m : Member) : AgIn := ⟨0, 0, m.k, 1, m.bad, false, false, awords m.words⟩

/-- The member's SRC holds the reserved value 3. In a BCAST the block reads SRC at the root alone (R97), but Table CO-4 names any
member (DESIGN CHOICE, log entry 82). -/
def Member.src3 (m : Member) : Bool := decide (isSrc m.words = 3)

/-- The agreement inputs of a chain: its members, then the dies below. -/
def Coll.agAll (c : Coll) (ch : Chain) : List AgIn :=
  (if ch.mem then c.members.map Member.agIn else []) ++ c.agIn.filter (fun a => ch.levels.contains a.level)

/-- Every input of a chain of the gather tree has arrived. -/
def State.agReady (s : State) (c : Coll) (ch : Chain) : Bool :=
  (!ch.mem || (s.localMems c.g).all (fun cp => (c.member? cp).isSome))
    && s.allIn c ch (c.agIn.map (fun a => (a.level, a.field)))

/-- The outcome at the home member (R94). An expert map that fails its complement ends a routed operation (R126). -/
def State.agDecide (s : State) (g : BitVec 12) (k : Word) (a : AgIn) : State :=
  let c := s.coll g k
  if a.bad then s.decideAbort g k 2 0 0 s.own
  else if a.dist ∨ a.dis then s.decideAbort g k 3 0 0 s.own
  else if isExch a.aw ∧ s.img.cfg.mapOk = false then (s.logEv 0x07 6 7 0 k.toNat 0 g 2).decideAbort g k 2 7 0 s.own
  else if s.refusable g a.aw (c.srcBad || c.members.any Member.src3) then s.refuseColl g k
  else (s.onColl g k (fun c => { c with st := .queued, qStart := some s.nowInt })).startRound g k

/-- One chain of the gather tree: compare and forward the agreement fields, or decide at the home member. A collective that has
ended before admission still sends its AGREE, as the die above pairs by position (R15). -/
def State.gatherChain (s : State) (g : BitVec 12) (k : Word) (ch : Chain) : State :=
  let c := s.coll g k
  if c.agSent.contains ch.id ∨ s.agReady c ch = false then s
  else
    match c.agAll ch with
    | [] => s
    | a :: rest =>
      let r := rest.foldl agJoin a
      let s1 := s.onColl g k (fun c => { c with agSent := c.agSent ++ [ch.id], aw := if c.aw = [] then a.aw else c.aw })
      let s2 := match rest.find? (fun x => decide (x.aw ≠ a.aw)) with
        | some x => s1.logMismatch g k (firstDiff a.aw x.aw)
        | none => s1
      let s3 := if rest.any (fun x => decide (x.k ≠ a.k)) then s2.logMismatch g k 16 else s2
      if ch.id = 5 then (if c.st = .gather ∧ c.decided.isNone then s3.agDecide g k r else s3)
      else
        let s4 := if ch.mem && c.members.any Member.src3 then s3.sendUp ch g k .refuse else s3
        s4.sendUp ch g k (.agree (BitVec.ofNat 32 r.niss) r.dis r.bad r.dist r.aw (compl r.aw))

/-- The chains of this die's gather tree, those at which every input is here. -/
def State.gather (s : State) (g : BitVec 12) (k : Word) : State :=
  (s.chains (s.group g) (s.group g).home).foldl (fun t ch =>
    match t.coll? g k with
    | some c => if c.agSent.contains ch.id || !t.agReady c ch then t else t.gatherChain g k ch
    | none => t) s

/-- A name for a new record of the group: the number that its first input gives it, unless another record has that name. -/
def State.freshName (s : State) (g : BitVec 12) (pos k : Word) : Word :=
  ([if (s.group g).memDie s.own then pos else k, pos, k, pos + 0x80000000#32].find? (fun n => (s.coll? g n).isNone)).getD pos

/-- The collective at position `pos` of the group, made where there is none (R15): the n-th issue that comes from each input is
paired with the n-th from every other. `k` is the number that this input gives it. -/
def State.pair (s : State) (g : BitVec 12) (pos k : Word) : Word × State :=
  match s.colls.find? (fun c => decide (c.g = g) && decide (c.pos = pos) && !c.old) with
  | some c =>
    (c.k, if (s.group g).home = s.own then s.onColl g c.k (fun c => { c with gStart := some (c.gStart.getD s.nowInt) }) else s)
  | none =>
    let n := s.freshName g pos k
    let start := if (s.group g).home = s.own then some s.nowInt else none
    (n, { s with colls := collIns { Coll.zero with g := g, k := n, pos := pos, gStart := start } s.colls })

/-- A die that only gathers for the group keeps no record that the issues which follow show to have ended: 64 of a port can wait
for admission (R18). -/
def State.dropStale (s : State) (g : BitVec 12) (pos : Word) : State :=
  if (s.group g).memDie s.own then s
  else { s with colls := s.colls.filter (fun c => decide (c.g ≠ g) || decide (c.st ≠ .gather) || !precedes 32 (c.pos + 65).toNat pos.toNat) }

/-- AGREE arrives from below over the edge of field `f` of level `l` (R94): the next one of that input (R15). -/
def State.agreeHere (s : State) (g : BitVec 12) (k : Word) (a : AgIn) : State :=
  let grp := s.group g
  if (s.kids grp grp.home).any (fun x => decide (x.1 = a.level) && decide (x.2.1 = a.field)) = false then s
  else
    let key := agKey g a.level a.field
    let n := mget 0 s.col.agCnt key
    let r := s.pair g (BitVec.ofNat 32 n) k
    let s1 : State := { r.2 with col := { r.2.col with agCnt := mput 0 r.2.col.agCnt key ((n + 1) % 2 ^ 32) } }
    (((s1.onColl g r.1 (fun c => { c with agIn := c.agIn ++ [a] })).gather g r.1).dropStale g (BitVec.ofNat 32 n)).reap g r.1

/-- A die below says that one of its members has SRC 3, which AGREE has no field for (DESIGN CHOICE, log entry 82): the home
member refuses the collective, and any other die tells the die above. -/
def State.srcRefused (s : State) (g : BitVec 12) (k : Word) (l f : Nat) : State :=
  let mark (t : State) (n : Word) : State :=
    let t1 := t.onColl g n (fun c => { c with srcBad := true })
    let c := t1.coll g n
    match t1.chainAt (t1.group g) (t1.group g).home l with
    | none => t1
    | some ch =>
      if ch.id ≠ 5 then t1.sendUp ch g n .refuse
      else if c.st = .queued ∧ c.b = 0 ∧ c.passed = false ∧ c.decided.isNone then t1.refuseColl g n
      else t1
  match s.colls.find? (fun c => decide (c.g = g) && !c.old && c.agIn.any (fun a => decide (a.level = l) && decide (a.field = f) && decide (a.k = k))) with
  | some c => mark s c.k
  | none =>
    let r := s.pair g (BitVec.ofNat 32 (mget 0 s.col.agCnt (agKey g l f))) k
    mark r.2 r.1

/-! ### The fused issue (R88 to R93) -/

/-- Word 0 failed its complement (R91). R91 names open, queued and gathering collectives; one that is CLOSING or SUSPENDED ends
too (DESIGN CHOICE, log entry 83). -/
def State.badWord0 (s : State) (cp : Nat) (w c : Word) : State :=
  let s1 := (((s.logEv 0x04 3 1 cp w.toNat c.toNat).attn 0).status cp 4 0 0).onPort cp (fun p => { p with latched := true })
  (s.colls.filter (fun x => decide (x.st ≠ .ended) && (x.member? cp).isSome)).foldl (fun t x => t.report x.g x.k 2 1 cp) s1

/-- A member's record at its issue. -/
def State.newMember (s : State) (cp : Nat) (k : Word) (ws : List Word) (bad : Bool) : Member :=
  ⟨cp, k, ws, bad, 0, crc64Run 0#64 (leafId s.own cp), false, 0, 0, false, false, ExMem.zero⟩

/-- Process one fused issue at the head of the port's queue. A member whose collective has ended before admission gets its
abort at once (R93). -/
def State.issueNow (s : State) (cp : Nat) (ws cs : List Word) : State :=
  let g := isGroup ws
  if s.notReady cp then s.status cp 3 g 0
  else if wordOk ws cs 0 = false then s.badWord0 cp (wd ws 0) (wd cs 0)
  else if s.isMember g cp = false then (s.logEv 0x03 2 1 cp 0 (wd ws 0).toNat g).status cp 5 g 0
  else
    let k := mget 0#32 (s.port cp).seqs g.toNat
    let s1 := (s.onPort cp (fun p => { p with seqs := mput 0#32 p.seqs g.toNat (k + 1) })).status cp 0 g k
    let r := s1.pair g k k
    let m := s.newMember cp k ws (decide (cs ≠ compl ws))
    let add (c : Coll) : Coll := { c with members := c.members ++ [m], aw := if c.aw = [] then awords ws else c.aw }
    let s2 := (r.2.onColl g r.1 add).bindIssue cp g r.1 ws
    let c := s2.coll g r.1
    let s3 := s2.gather g r.1
    if c.st = .ended then
      match c.decided with
      | some code => (((s3.endMember c m ((abortWords g k (isOp ws) code.toNat 0).take 12)).endBinds g r.1)).reap g r.1
      | none => s3
    else s3

/-- Commands that waited behind a WAIT (R278), as far as the port's queue of issues takes them (R18). -/
def State.drain : Nat → State → Nat → State
  | 0, s, _ => s
  | n + 1, s, cp =>
    if (s.port cp).wait.isSome || decide (64 ≤ s.unadmitted cp) then s
    else
      match (s.port cp).cmdq with
      | [] => s
      | .issue ws cs :: r => State.drain n ((s.onPort cp (fun p => { p with cmdq := r })).issueNow cp ws cs) cp
      | .hoop w c ev :: r => State.drain n ((s.onPort cp (fun p => { p with cmdq := r })).hoopCmd cp w c ev) cp

/-- What may follow any change: queued commands, held data, releases, close rounds, openings, the next reserve round, records of
the update port, and the end of what has had its last token. -/
def State.settle (s : State) : State :=
  let s1 := s.ports.foldl (fun t p => if p.2.cmdq ≠ [] then State.drain 64 t p.1 else t) s
  let s2 := s1.flowOnce
  let s3 := s2.colls.foldl (fun t c => if c.st = .queued then
    (if c.b ≠ 0 then t.openTry c.g c.k else if c.round = 0 then t.startRound c.g c.k else t) else t) s2
  (State.updPump 8 s3).reapAll

end Sys2Proof.Machine
end

