-- ==== Sys2Proof/Machine/Invalidate.lean ====
section
/-! DEFINITION. Invalidating the structure image (R406, R430) and putting a checked image into service (R407). -/

namespace Sys2Proof.Machine

/-- A stake that drives electrical idle because no image is loaded (R180): its counters and its PHY pins stay. -/
def Stake.idled (x : Stake) : Stake :=
  { Stake.zero with corr := x.corr, uncorr := x.uncorr, crcfail := x.crcfail, replayC := x.replayC,
                    retrainC := x.retrainC, proto := x.proto, badctl := x.badctl, txdata := x.txdata,
                    rxdata := x.rxdata, rdy := x.rdy, flt := x.flt }

/-- End one collective with ABORT_IMAGE: the decider decides, and this die's members get the token at once (R406,
step 1). A collective that has been decided already keeps that outcome (R107). -/
def State.imageAbort (s : State) (g : BitVec 12) (k : Word) : State :=
  let c := s.coll g k
  if c.st = .ended then s
  else
    let s1 := if s.decider g k = s.own then s.decideAbort g k 1 9 0 s.own else s.report g k 1 9 0
    let code := ((s1.coll g k).decided.getD 1).toNat
    if code = 0 then s1.applyToken g k 0 (sealWords c) (compl (sealWords c))
    else
      let ws := (abortWords g k (isOp c.aw) code 0).take 12
      s1.applyToken g k 0 ws (compl ws)

/-- Something of an ended collective still waits on this die: a terminal token at a port, or a record of the update port. -/
def State.remains (s : State) (c : Coll) : Bool := c.members.any (s.tokenAt c) || s.updOwes c

/-- Once the image is gone, the collectives of which something still waits stay, and the entries of the others are free
(R406, R419, R420). -/
def State.dropColls (s : State) (keep : Bool) : State :=
  let s1 := (s.colls.filter (fun c => !(keep && s.remains c))).foldl (fun t c => t.freeEntryOf c) s
  { s1 with colls := (s1.colls.filter (fun c => keep && s.remains c)).map (fun c => { c with st := .ended, old := true, holds := false }) }

/-- The control messages of the die's own that wait to leave on a stake. -/
def Stake.ownCtl (x : Stake) : List TxFlit := x.txq.filter (fun f => decide (f.vc = 0) && f.rx.isNone)

/-- A stake once the image is gone: one in service still sends the control messages that step 1 has put in line, and those that
have no acknowledgement yet; then, as every other at once, it idles (R406, steps 1 and 4; log entry 87). -/
def Stake.shut (x : Stake) : Stake :=
  if x.st = .inService ∧ (x.ownCtl ≠ [] ∨ x.rbuf ≠ []) then
    { x with closing := true, txq := x.ownCtl, rxbuf := [], frags := [], relay := [] }
  else x.idled

/-- Steps 1 to 5 of R406. -/
def State.invalidate (s : State) : State :=
  let s1 := (s.colls.foldl (fun t c => t.imageAbort c.g c.k) s).dropColls true
  let s2 : State := { s1 with vc0 := [], col := { s1.col with susp := [], agCnt := [] } }
  let s3 := (List.range 64).foldl (fun t c => if (t.chan c).st = .disabled then t else t.disableChan c 1) s2
  let s4 := s3.clearAllHoops
  let s5 : State := { s4 with stakes := mmap Stake.zero (fun _ x => x.shut) s4.stakes }
  { s5 with img := { s5.img with st := .empty, cfg := Cfg.none, digest := 0, fileCrc := 0 }, pwr := { s5.pwr with ballEn := false } }

/-- UNCORR_CONFIG: the image is refused with REASON CRC (R430). -/
def State.configLost (s : State) (src unit : Nat) (sec : BitVec 8) (off : Word) : State :=
  let s1 := ((s.logEv 0x09 7 src unit sec.toNat off.toNat).attn 9).invalidate
  let s2 : State := { s1 with img := { s1.img with st := .refused, reason := 5, errsec := sec, erroff := off.setWidth 23 } }
  (s2.logEv 0x25 7 9 0 (5 + pl sec.toNat 8) (off.toNat % 2 ^ 23)).attn 6

/-- What the storage code reports at a site that holds a word of the collective. True when the step goes on. -/
def State.storage (s : State) (c : Coll) (src unit : Nat) : StorageEvent → State × Bool
  | .clean => (s, true)
  | .corrected => ({ s with gst := { s.gst with corr := satInc s.gst.corr } }, true)
  | .uncorrData a =>
    ((s.logEv 0x08 6 src unit c.k.toNat a.toNat c.g 2).report c.g c.k 2 src unit a, false)
  | .uncorrConfig sec off => (s.configLost src unit sec off, false)

/-- A port at a new image: counts from 0, no latch; what is left over is no longer held back (R407, R91). -/
def Port.renew (p : Port) : Port :=
  { p with seqs := [], latched := false, deliv := [], txHeld := none, discard := [],
           stq := p.stq.map (fun x => { x with gate := false }), rxq := p.rxq.map (fun x => { x with old := true }),
           tokq := p.tokq.map (fun x => { x with old := true }) }

/-- The policy of one hoop (Table HP-5). -/
def Hoop.policy (h : Hoop) (v : BitVec 64) : Hoop :=
  let w := v.toNat
  if w.testBit 13 then
    { h.cleared with st := .armed, target := BitVec.ofNat 12 (fld w 11 0), targetN := ~~~(BitVec.ofNat 12 (fld w 11 0)),
                     mode := w.testBit 12 }
  else { h.cleared with mode := w.testBit 12 }

/-- Lanes of logical stake `n` on its physical port (R168). -/
def Cfg.lanesOf (c : Cfg) (n : Nat) : BitVec 8 :=
  if c.stkSplit n then (if n % 2 = 0 then 0x0F else 0xF0) else (if n % 2 = 0 then 0xFF else 0)

/-- Lanes among `m` that the PHY holds ready and has not lost. -/
def Stake.lanesReady (x : Stake) (m : BitVec 8) : BitVec 8 := m &&& x.rdy &&& ~~~x.flt

/-- Training begins on the candidate lanes: at step 2 when a lane of them is ready, at step 1 otherwise (DESIGN CHOICE, log
entry 95: Table SK-11 does not say whether step 2 waits for every lane). -/
def Stake.train (x : Stake) (cand : BitVec 8) (attempt : Nat) : Stake :=
  { x with st := .training, step := if x.lanesReady cand = 0 then 1 else 2, attempt := attempt, peerBad := false, nak := false,
           cand := cand, flt := x.flt &&& ~~~cand, good := 0, laneRx := [], wordCnt := 0, marked := false, units := [], txd := [], stampDue := none, desk := [], aligned := false,
           mask := none, idSent := false, sinceLk := 0, idRx := none, idAck := false, pnum := 0, probeT := none,
           probeA := none, trips := [], phyRst := false, replay := none, replays := 0, replayF := none, peer := none, ctlq := [],
           linkDue := false }

/-- The hoops take the policy of the image (R289, R407). -/
def State.takePolicy (s : State) : State :=
  s.img.cfg.hoopPol.foldl (fun t x => t.setHoop x.1 ((t.hoop x.1).policy x.2)) s.clearAllHoops

/-- ENTER_SERVICE (R407). -/
def State.enterService (s : State) : State :=
  let s1 := s.takePolicy.updRenew
  let s2 : State := { s1.dropColls false with ports := mmap Port.zero (fun _ p => p.renew) s1.ports, col := { (s1.dropColls false).col with agCnt := [] },
                                              img := { s1.img with st := .inService, loads := satInc s1.img.loads } }
  (List.range 16).foldl (fun t n =>
    if t.img.cfg.stkEn n then t.setStake n ((t.stake n).idled.train (t.img.cfg.lanesOf n) 0) else t) s2

end Sys2Proof.Machine
end

