-- ==== Sys2Proof/Machine/CorePort.lean ====
section
/-! DEFINITION. The core port's commands (spec/14 R363 to R366, spec/04 R88 to R92, spec/10): fused issues, hoop
commands, send wales, and what the core takes. -/

namespace Sys2Proof.Machine

/-- The outcome of a command: its effect while the supply is present and RST_N is released (R390, R391), and no
effect otherwise. -/
def live (s : State) (f : State → State) : Host.Outcome State Fault Refusal := .next (if s.alive then f s else s)

/-- A command enters the port: nothing while CP_CMD_RDY is 0; behind a WAIT it waits (R18, R278, R363). -/
def State.command (s : State) (cp : Nat) (c : PortCmd) (now : State → State) : State :=
  if s.cmdBlocked cp then s
  else if (s.port cp).wait.isSome ∨ (s.port cp).cmdq ≠ [] then s.onPort cp (fun p => { p with cmdq := p.cmdq ++ [c] })
  else (now s).settle

/-- FUSED_ISSUE (R89 to R92). -/
def execFusedIssue (cp : Fin 1024) (words comps : List Word) (s : State) : Host.Outcome State Fault Refusal :=
  live s (fun s => s.command cp.val (.issue words comps) (fun t => t.issueNow cp.val words comps))

/-- ARM (R271, R272, Table HP-3). `r` is the complement of the word, and what the storage of the hoop reports when it is read (R283). -/
def execArm (cp : Fin 1024) (w : Word) (r : Word × StorageEvent) (s : State) : Host.Outcome State Fault Refusal :=
  live s (fun s => s.command cp.val (.hoop w r.1 r.2) (fun t => t.hoopCmd cp.val w r.1 r.2))

/-- SIGNAL (R280): no hoop is read until the signal arrives. -/
def execSignal (cp : Fin 1024) (w c : Word) (s : State) : Host.Outcome State Fault Refusal :=
  live s (fun s => s.command cp.val (.hoop w c .clean) (fun t => t.hoopCmd cp.val w c .clean))

/-- WAIT (R278, R279). -/
def execWait (cp : Fin 1024) (w : Word) (r : Word × StorageEvent) (s : State) : Host.Outcome State Fault Refusal :=
  live s (fun s => s.command cp.val (.hoop w r.1 r.2) (fun t => t.hoopCmd cp.val w r.1 r.2))

/-- DISARM (Table HP-3). -/
def execDisarm (cp : Fin 1024) (w : Word) (r : Word × StorageEvent) (s : State) : Host.Outcome State Fault Refusal :=
  live s (fun s => s.command cp.val (.hoop w r.1 r.2) (fun t => t.hoopCmd cp.val w r.1 r.2))

/-- A signal leaves the hoop network and is applied at its owner's store. One that no source has sent does not arrive. -/
def State.arriveSignal (s : State) (x : HoopSig) (ev : StorageEvent) : State :=
  match s.nextSignal x with
  | none => s
  | some y =>
    let s1 : State := { s with hoopNet := s.hoopNet.erase y }
    (s1.hoopStorage (y.owner.val * 48 + y.hoop.val) ev).applySignal y

/-- HOOP_SIGNAL_ARRIVAL (R275 to R277, R281, R283). -/
def execHoopSignalArrival (sig : HoopSig) (ev : StorageEvent) (s : State) : Host.Outcome State Fault Refusal :=
  live s (fun s => (s.arriveSignal sig ev).settle)

/-- HOOP_TIMEOUT (R279): nothing while the counter has not reached the timeout of a pending WAIT. -/
def execHoopTimeout (cp : Fin 1024) (s : State) : Host.Outcome State Fault Refusal :=
  live s (fun s => if s.waitExpired cp.val then (s.expireWait cp.val).settle else s)

/-- CTX_SWITCH at a port (R27, R290, Table HP-6). -/
def State.ctxSwitch (s : State) (cp : Nat) : State :=
  let s1 := (s.onPort cp (fun p => { p with cmdq := [] })).clearHoops cp
  (s.colls.filter (fun c => (decide (c.st = .gather) || decide (c.st = .queued)) && (c.member? cp).isSome)).foldl
    (fun t c => t.report c.g c.k 7 1 cp) s1

def execCtxSwitch (cp : Fin 1024) (s : State) : Host.Outcome State Fault Refusal := live s (fun s => s.ctxSwitch cp.val)

/-- SEND_WALE (R364): no transfer while the channel already holds a wale that cannot be taken. -/
def execSendWale (cp : Fin 1024) (g : BitVec 12) (data : List Byte) (s : State) : Host.Outcome State Fault Refusal :=
  live s (fun s => if (s.port cp.val).txHeld.isSome then s else (s.sendWale cp.val g data).settle)

/-- The receive wale that the port offers: the first one whose turn it is (R19). -/
def Port.rxNext (p : Port) : Option (Rx × List Rx) := takeFirst (fun r => r.old || p.may r.g r.k) p.rxq

/-- RX_WALE_TAKEN (R365). -/
def execRxWaleTaken (cp : Fin 1024) (s : State) : Host.Outcome State Fault Refusal :=
  live s (fun s =>
    match (s.port cp.val).rxNext with
    | none => s
    | some (r, rest) =>
      let s1 := s.onPort cp.val (fun p => { p with rxq := rest })
      s1.onColl r.g r.k (fun c => c.onMember cp.val (fun m => { m with took := m.took + 1 })))

/-- The core takes the first status that may leave (R366); REFUSED frees the next collective of its group (R19),
and the status that ended a WAIT lets WAKE fall (R286). -/
def Port.takeStatus (p : Port) : Port :=
  match takeFirst p.stReady p.stq with
  | none => p
  | some (x, rest) =>
    let k := p.wake && !x.wait
    let q := { p with stq := rest, wake := k, gate := p.gate || (p.wait.isSome && !k) }
    if x.code = 2 ∧ x.gate = true then q.passed x.grp x.arg else q

/-- STATUS_TAKEN. -/
def execStatusTaken (cp : Fin 1024) (s : State) : Host.Outcome State Fault Refusal :=
  live s (fun s => s.onPort cp.val Port.takeStatus)

/-- The token that is being transferred, or the first whose turn it is (R19), once the core has taken its collective's last
receive wale. Tokens leave in the order in which they were decided (R365). -/
def Port.tokNext (p : Port) : Option (Tok × List Tok) :=
  match takeFirst (fun t => decide (0 < t.pos)) p.tokq with
  | some r => some r
  | none => (takeFirst (fun t => t.old || p.may t.g t.k) p.tokq).filter (fun r => p.tokReady r.1)

/-- TERMINAL_TOKEN_TAKEN: one word of the token; with the sixteenth the token has left (R229, R365). -/
def State.takeToken (s : State) (cp : Nat) : State :=
  match (s.port cp).tokNext with
  | none => s
  | some (t, rest) =>
    if t.pos + 1 < 16 then
      s.onPort cp (fun p => { p with tokq := { t with pos := t.pos + 1 } :: rest })
    else
      let s1 := s.onPort cp (fun p => let q := { p with tokq := rest }; if t.old then q else q.passed t.g t.k)
      (s1.colls.foldl (fun u c => if c.g = t.g ∧ c.st = .ended then u.reap c.g c.k else u) s1).settle

def execTerminalTokenTaken (cp : Fin 1024) (s : State) : Host.Outcome State Fault Refusal := live s (fun s => s.takeToken cp.val)

end Sys2Proof.Machine
end

