-- ==== Sys2Proof/Machine/Collective.lean ====
section
/-! DEFINITION. The commands that carry a collective (spec/04, spec/08): combining, the messages of Table SK-15, the
timers, and the driver's aborts. -/

namespace Sys2Proof.Machine

/-- COMBINE_WALE (R38, R430): wale `wale` at a combining point, with what the storage code reports of its buffers. -/
def State.combineAt (s : State) (g : BitVec 12) (k : Word) (pt : Point) (wale : Nat) (ev : StorageEvent) : State :=
  match s.coll? g k with
  | none => s
  | some c =>
    if c.st ≠ .opened ∨ c.decided.isSome then s
    else
      let u := s.siteOf c pt
      let r := s.storage c u.1 u.2 ev
      if r.2 = false then r.1
      else
        match pt with
        | .token cp t => r.1.combineToken c cp t wale
        | p => r.1.combineTree c p wale

def execCombineWale (g : BitVec 12) (k : Word) (pt : Point) (wale : Nat) (ev : StorageEvent) (s : State) :
    Host.Outcome State Fault Refusal :=
  live s (fun s => (s.combineAt g k pt wale ev).settle)

/-- AGREE (R94): the agreement fields of the members below. -/
def State.onAgree (s : State) (m : Msg) : State :=
  match m.body with
  | .agree niss d c q aw awN =>
    s.agreeHere m.group m.seq ⟨m.level, m.srcf, m.seq, niss.toNat, c || decide (awN ≠ compl aw), d, q, aw⟩
  | _ => s

def execAgree (m : Msg) (s : State) : Host.Outcome State Fault Refusal := live s (fun s => ((s.takeMsg m).onAgree m).settle)

/-- REFUSE (R95); one that comes from below over an edge of the gather tree speaks of a member's SRC (log entry 82). -/
def State.onRefuse (s : State) (m : Msg) : State :=
  match m.body with
  | .refuse =>
    let grp := s.group m.group
    if m.level ≠ 0 ∧ (s.chainAt grp grp.home m.level).isSome then s.srcRefused m.group m.seq m.level m.srcf
    else s.applyRefuse m.group m.seq m.level
  | _ => s

def execRefuse (m : Msg) (s : State) : Host.Outcome State Fault Refusal := live s (fun s => ((s.takeMsg m).onRefuse m).settle)

/-- GATHER_LIMIT at the home member (R93); it does not run while the group is suspended (R117). -/
def State.gatherExpired (s : State) (c : Coll) : Bool :=
  match c.gStart with
  | some t => decide (c.st = .gather) && c.decided.isNone && decide ((s.group c.g).home = s.own)
      && !s.groupHeld c.g && s.reached (t + (s.group c.g).limit.setWidth 64)
  | none => false

def execGatherLimitExpiry (g : BitVec 12) (k : Word) (s : State) : Host.Outcome State Fault Refusal :=
  live s (fun s => match s.coll? g k with
    | some c => if s.gatherExpired c then s.decideAbort g k 6 0 0 s.own else s
    | none => s)

/-- RESERVE (R230). A complement that fails is R17's. -/
def State.onReserve (s : State) (m : Msg) : State :=
  match m.body with
  | .reserve aw awN =>
    if awN ≠ compl aw then s.report m.group m.seq 2 4 0 else s.reserveHere m.group m.seq aw m.round m.level
  | _ => s

def execReserve (m : Msg) (s : State) : Host.Outcome State Fault Refusal := live s (fun s => (s.takeMsg m).onReserve m)

/-- RESERVE_REPORT (R230, R231): to the home member from the root die it decides; over an edge from below it combines, with the
figures of the way down that edge. -/
def State.onReport (s : State) (m : Msg) : State :=
  match m.body, s.coll? m.group m.seq with
  | .report r, some c =>
    if c.round ≠ m.round ∨ c.st ≠ .queued ∨ c.b ≠ 0 ∨ c.decided.isSome then s
    else if m.level = 0 then
      (if (s.group c.g).home = s.own ∧ c.started = true then s.decideAdmission m.group m.seq r else s)
    else
      match (s.kids (s.group c.g) c.rd).find? (fun x => decide (x.1 = m.level) && decide (x.2.1 = m.srcf)), s.chainAt (s.group c.g) c.rd m.level with
      | some x, some ch =>
        (s.onColl m.group m.seq (fun c => { c with reps := c.reps ++ [(x.1, x.2.1, s.addDown c.g r x.2.2 x.1 c.aw)] })).reportChain m.group m.seq ch
      | _, _ => s
  | _, _ => s

def execReserveReport (m : Msg) (s : State) : Host.Outcome State Fault Refusal := live s (fun s => (s.takeMsg m).onReport m)

/-- ADMIT (R234). -/
def State.onAdmit (s : State) (m : Msg) : State :=
  match m.body with
  | .admission t d b => s.admitHere m.group m.seq t d b m.round m.level
  | _ => s

def execAdmission (m : Msg) (s : State) : Host.Outcome State Fault Refusal := live s (fun s => ((s.takeMsg m).onAdmit m).settle)

/-- RELEASE (Table PR-7). -/
def State.onRelease (s : State) (m : Msg) : State :=
  match m.body with
  | .release => s.releaseHere m.group m.seq m.round m.level
  | _ => s

def execReleaseReservation (m : Msg) (s : State) : Host.Outcome State Fault Refusal := live s (fun s => (s.takeMsg m).onRelease m)

/-- RESERVE_RETRY (R232). -/
def execReserveRetry (g : BitVec 12) (k : Word) (s : State) : Host.Outcome State Fault Refusal := live s (fun s => s.startRound g k)

/-- QUEUED_LONG (R232): 2^20 ns in QUEUED. -/
def State.queuedLong (s : State) (g : BitVec 12) (k : Word) : State :=
  match s.coll? g k with
  | none => s
  | some c =>
    match c.qStart with
    | none => s
    | some t =>
      if c.st = .queued ∧ c.qLong = false ∧ (s.group g).home = s.own ∧ s.groupHeld g = false ∧ s.reached (t + 0x100000#64) = true then
        let s1 := (s.logEv 0x0F 0 0 0 k.toNat 0 g).onColl g k (fun c => { c with qLong := true })
        { s1 with adm := { s1.adm with longq := satInc s1.adm.longq } }
      else s

def execQueuedLong (g : BitVec 12) (k : Word) (s : State) : Host.Outcome State Fault Refusal := live s (fun s => s.queuedLong g k)

/-- LAUNCH_FIRE (R100, R349). -/
def execLaunchFire (g : BitVec 12) (k : Word) (s : State) : Host.Outcome State Fault Refusal := live s (fun s => (s.openTry g k).settle)

/-- The root's deadline D − L_DN has been reached without a seal (R236). -/
def State.boundExpired (s : State) (c : Coll) : Bool :=
  (decide (c.st = .opened) || decide (c.st = .closing)) && decide (c.rd = s.own) && c.decided.isNone && !s.held c
    && s.reached (c.dl - BitVec.ofNat 64 c.ldn)

/-- BOUND_EXPIRY (R236). -/
def execBoundExpiry (g : BitVec 12) (k : Word) (s : State) : Host.Outcome State Fault Refusal :=
  live s (fun s => match s.coll? g k with
    | some c => if s.boundExpired c then s.decideAbort g k 8 0 0 s.own else s
    | none => s)

/-- LATE_REPORT (R107). -/
def State.lateReport (s : State) (m : Msg) (code src : Nat) (unit : BitVec 16) : State :=
  s.logEv 0x02 1 src unit.toNat m.seq.toNat (code + pl m.origin.toNat 16) m.group

/-- A fault report goes on toward the decider, up its tree (R107, R174); where it cannot, this die decides for its side. -/
def State.passFault (s : State) (m : Msg) (dec : Nat) : State :=
  let e := s.reportTo m.group dec
  match s.sendRaw e.2.2 { m with level := e.1, srcf := e.2.1 } with
  | .ok t => t
  | .fault => (s.logRoute m.group m.seq 0 e.2.2 0 e.1 1).cutSide m.group m.seq 1
  | .down _ => s.cutSide m.group m.seq 6

/-- A fault report (R107): the decider takes it, any other die passes it on. One that comes before any issue has reached the home
member ends the collective there (R27). The record of a routed operation's trap in STOP mode is the smallest candidate that the
root knows as it decides (R139). -/
def State.onFault (s0 : State) (m : Msg) : State :=
  match m.body with
  | .fault code src unit _ trap =>
    let dec := s0.decider m.group m.seq
    if dec ≠ s0.own then s0.passFault m dec
    else
      let s := s0.newRecord m.group m.seq
      match s.coll? m.group m.seq with
      | none => s.lateReport m code.toNat src.toNat unit
      | some c =>
        if c.decided.isSome then s.lateReport m code.toNat src.toNat unit
        else
          let s1 := if code = 5 then
              (match candMin c.cand trap with | some x => s.storeTrap m.group m.seq x | none => s)
            else s
          s1.decideAbort m.group m.seq code.toNat src.toNat unit.toNat m.origin.toNat
  | _ => s0

def execFault (m : Msg) (s : State) : Host.Outcome State Fault Refusal := live s (fun s => (s.takeMsg m).onFault m)

/-- The message comes from below over an edge of the collective's tree. -/
def State.fromKid (s : State) (c : Coll) (m : Msg) : Bool :=
  (s.kids (s.group c.g) c.rd).any (fun x => decide (x.1 = m.level) && decide (x.2.1 = m.srcf))

/-- A report has come over that edge before. -/
def hasFrom (m : Msg) (l : List (Nat × Nat × α)) : Bool := l.any (fun x => decide (x.1 = m.level) && decide (x.2.1 = m.srcf))

/-- CLOSE: close-round report (R22), SENT or CHECKED report (Table EX-7). Each is kept whole until its chain has all of
them. -/
def State.onClose (s : State) (m : Msg) : State :=
  match m.body, s.coll? m.group m.seq with
  | .close kind .., some c =>
    if c.decided.isSome ∨ c.st = .ended ∨ s.fromKid c m = false ∨ (isExch c.aw = decide (kind = 0)) then s
    else
      let f (c : Coll) : Coll :=
        if kind = 1 then (if hasFrom m c.sentIn then c else { c with sentIn := c.sentIn ++ [(m.level, m.srcf, m.body)] })
        else if hasFrom m c.closeIn then c
        else { c with closeIn := c.closeIn ++ [(m.level, m.srcf, m.body)] }
      (s.onColl m.group m.seq f).push m.group m.seq
  | _, _ => s

def execClose (m : Msg) (s : State) : Host.Outcome State Fault Refusal := live s (fun s => ((s.takeMsg m).onClose m).settle)

/-- ALL_SENT (Table EX-7, step 3). -/
def State.onAllSent (s : State) (m : Msg) : State :=
  match m.body with
  | .allSent => (s.applyAllSent m.group m.seq m.level).push m.group m.seq
  | _ => s

def execAllSent (m : Msg) (s : State) : Host.Outcome State Fault Refusal := live s (fun s => ((s.takeMsg m).onAllSent m).settle)

/-- TOKEN (R21, R105). -/
def State.onToken (s : State) (m : Msg) : State :=
  match m.body with
  | .token ws wsN => s.applyToken m.group m.seq m.level ws wsN
  | _ => s

def execToken (m : Msg) (s : State) : Host.Outcome State Fault Refusal := live s (fun s => ((s.takeMsg m).onToken m).settle)

/-- FPRINT (R356). -/
def State.onFprint (s : State) (m : Msg) : State :=
  match m.body, s.coll? m.group m.seq with
  | .fprint x n, some c =>
    if s.fromKid c m = false ∨ hasFrom m c.fpIn = true then s
    else (s.onColl m.group m.seq (fun c => { c with fpIn := c.fpIn ++ [(m.level, m.srcf, x, n.toNat)] })).push m.group m.seq
  | _, _ => s

def execFprint (m : Msg) (s : State) : Host.Outcome State Fault Refusal := live s (fun s => ((s.takeMsg m).onFprint m).settle)

/-- WCRED (R204): wale buffers freed at the die above. -/
def State.onWcred (s : State) (m : Msg) : State :=
  match m.body with
  | .wcred l _ n => s.onColl m.group m.seq (fun c => { c with credits := mput 0 c.credits l (mget 0 c.credits l - n) })
  | _ => s

def execWcred (m : Msg) (s : State) : Host.Outcome State Fault Refusal := live s (fun s => ((s.takeMsg m).onWcred m).settle)

/-- XCRED (Table EX-7): copies delivered and checked, or contributions accepted. A credit that names a core port which has
nothing outstanding counts for the first member that has (log entry 14). -/
def State.onXcred (s : State) (m : Msg) : State :=
  match m.body with
  | .xcred cp n =>
    let owing (x : Member) : Bool := decide (x.ex.owed ≠ 0)
    let ms := (s.coll m.group m.seq).members
    let who := ((ms.find? (fun x => decide (x.cp = cp) && owing x)).or (ms.find? owing)).map (fun x => x.cp)
    s.onEx m.group m.seq (who.getD cp) (fun x => { x with owed := x.owed - n })
  | _ => s

def execXcred (m : Msg) (s : State) : Host.Outcome State Fault Refusal := live s (fun s => ((s.takeMsg m).onXcred m).settle)

/-- LOST (R436). -/
def State.onLost (s : State) (m : Msg) : State :=
  match m.body with
  | .lost => s.applyLost m.group m.seq m.level
  | _ => s

def execLost (m : Msg) (s : State) : Host.Outcome State Fault Refusal := live s (fun s => (s.takeMsg m).onLost m)

/-! ### Driver aborts (R112, R420, R421) -/

/-- The collective that holds an entry. -/
def State.entryColl (s : State) (e : Nat) : Option Coll := s.colls.find? (fun c => decide (c.entry = some e))

/-- A write of ABORT to an entry (R420): it acts while the entry holds what the last latched read named. -/
def State.entryAbort (s : State) (e : Nat) (v : Word) : State :=
  match s.entryColl e with
  | some c => if wbit v 0 ∧ mget none s.ct.entryRead e = some (c.g, c.k) then s.report c.g c.k 7 0 0 else s
  | none => s

/-- ENTRY_ABORT (R420). -/
def execEntryAbort (entry : Fin 512) (v : Word) (s : State) : Host.Outcome State Fault Refusal :=
  live s (fun s => s.entryAbort entry.val v)

/-- COL_KILL (R421). -/
def State.colKill (s : State) (v : Word) : State :=
  let g : BitVec 12 := v.setWidth 12
  let k := s.col.killSeq
  let s1 : State := { s with col := { s.col with killGroup := g } }
  let setRes (t : State) (r : BitVec 2) : State := { t with col := { t.col with killRes := r } }
  if wbit v 12 = false then s1
  else
    match s.coll? g k with
    | some c =>
      if (s.group g).home = s.own ∧ (c.st = .queued ∨ c.isOpen = true) then setRes (s1.report g k 7 0 0) 1
      else setRes s1 2
    | none => setRes s1 2

def execColKill (v : Word) (s : State) : Host.Outcome State Fault Refusal := live s (fun s => s.colKill v)

end Sys2Proof.Machine
end

