-- ==== Sys2Proof/Machine/Time.lean ====
section
/-! DEFINITION. The global counter and its synchronisation (spec/13, R337 to R348). Times are counted in 2^−16 ns,
the fraction of the counter. -/

namespace Sys2Proof.Machine

/-- TM_DIE of the image. -/
def State.tm (s : State) : Nat := s.img.cfg.tmDie.toNat

/-- This die is the time master: its DIE_ID is TM_DIE of an image (R341). -/
def State.isMaster (s : State) : Bool := s.cfgShown && decide (s.own = s.tm)

/-- The stakes of the upstream stake's bond: those from which time may come (R341). -/
def State.upBond (s : State) : List Nat :=
  if s.isMaster then []
  else match s.routeNext s.tm with
    | .stake n => s.img.cfg.bondOf n
    | _ => []

/-- The upstream stake: of a bond the lowest-numbered member in service (R341). -/
def State.upstream (s : State) : Option Nat :=
  s.upBond.find? (fun m => decide ((s.stake m).st = .inService))

/-- A stamp: the counter, interpolated by `el` sixteenths of a nanosecond since the last REFCLK edge (R343). -/
def State.stamp (s : State) (el : Nat) : Nat := s.time.now.toNat + el * 2 ^ 12

/-! ### Sending (R341, R342) -/

/-- Queue one SYNC and its FOLLOW on stake `n`; the FOLLOW's T_DEP is filled when the SYNC leaves (R343). -/
def State.sendSync (s : State) (n : Nat) : State :=
  let h := if s.isMaster then 1 else (s.time.hops.toNat + 1) % 256
  let q := s.time.sseqTx.toNat
  let fl (b : List Byte) : List TxFlit := (segPayloads 6 0 0 0 b).map (txFlit 0 (s.img.cfg.stkPeer n) 0 0)
  { (s.enqueue n (fl (syncBytes q h s.tm) ++ fl (followBytes q h s.tm 0 0))) with
    time := { s.time with sseqTx := s.time.sseqTx + 1 } }

/-- The die sends time: it is the master, or LOCKED (R341). -/
def State.sendsTime (s : State) : Bool := s.inService && (s.isMaster || decide (s.time.st = .locked))

/-- SYNC_DUE: 8,192 ns of the die's own counter have passed. A stake in training waits for step 8 (Table SK-13). -/
def State.syncAll (s : State) : State :=
  if s.sendsTime = false ∨ s.time.stopped = true ∨ s.reached (s.time.syncAt + 8192#64) = false then s
  else
    let s1 : State := { s with time := { s.time with syncAt := s.nowInt } }
    (List.range 16).foldl (fun t n =>
      if t.upBond.contains n then t
      else match (t.stake n).st with
        | .inService => t.sendSync n
        | .training => t.onStake n (fun x => { x with syncDue := true })
        | _ => t) s1

def execSyncDue (s : State) : Host.Outcome State Fault Refusal := live s (fun s => s.syncAll)

/-! ### Receiving (R343 to R345) -/

/-- A SYNC is accepted on stake `n`; `usable` is false in the replay shadow (R344). -/
def State.onSync (s : State) (n : Nat) (sseq : BitVec 16) (hops : BitVec 8) (tArr : Nat) (usable : Bool) : State :=
  if s.upstream ≠ some n then s
  else
    let t := s.time
    let t1 := { t with syncRx := some ⟨sseq, hops, tArr, usable⟩ }
    { s with time := if usable then { t1 with hops := hops, lastUse := s.nowInt } else { t1 with reject := satInc t1.reject } }

/-- The usable state of a stake's receiver. -/
def Stake.usable (x : Stake) : Bool := !x.nak && !x.shadow

/-- SYNC (R343, R344). -/
def execSync (n : Fin 16) (sseq : BitVec 16) (hops : BitVec 8) (_master : BitVec 16) (el : BitVec 10) (s : State) :
    Host.Outcome State Fault Refusal :=
  live s (fun s => s.onSync n.val sseq hops (s.stamp el.toNat) (s.stake n.val).usable)

/-- A signed 80-bit difference of two stamps. -/
def stampDiff (a b : Nat) : Int := (BitVec.ofInt 80 (Int.ofNat a - Int.ofNat b)).toInt

/-- An offset as TIME_OFFSET shows it: signed sixteenths of a nanosecond, saturating (R360). -/
def off32 (off : Int) : Word := BitVec.ofInt 32 (max (-2147483648) (min 2147483647 (off / 4096)))

/-- Two offsets agree within 8 ns. -/
def agree8 (a b : Int) : Bool := decide ((a - b).natAbs ≤ 8 * 65536)

/-- TIME_STATUS.STATE as a number. -/
def SyncSt.code : SyncSt → Nat
  | .free => 0 | .locked => 1 | .holdover => 2

/-- The counter moves by a step; the span without a usable SYNC is measured past it (R345, R346). -/
def Time.move (t : Time) (off : Int) : Time :=
  { t with now := BitVec.ofInt 80 (Int.ofNat t.now.toNat + off), lastUse := BitVec.ofInt 64 (Int.ofNat t.lastUse.toNat + off / 65536) }

/-- A step adds the offset to the counter at one edge (R346); while REFCLK stands it waits for one (R340). -/
def State.timeStep (s : State) (off : Int) : State :=
  let s1 := s.logEv 0x20 5 12 0 (off32 off).toNat s.time.st.code
  let t := if s.time.stopped then { s1.time with stepDue := off } else s1.time.move off
  { s1 with time := { t with slew := 0, stepped := true, steps := satInc t.steps, st := .locked, rejOffs := [], syncCnt := satInc t.syncCnt } }

/-- A slew replaces the remaining correction (R346). -/
def State.timeSlew (s : State) (off : Int) : State :=
  { s with time := { s.time with slew := off, st := .locked, rejOffs := [], syncCnt := satInc s.time.syncCnt } }

/-- The offset's effect in the present state (Table TA-2). -/
def State.applyOffset (s0 : State) (off : Int) : State :=
  let prev := s0.time.prevOff
  let s : State := { s0 with time := { s0.time with offset := off32 off, prevOff := some off } }
  let near := decide (off.natAbs ≤ 32 * 65536)
  let again := match prev with | some p => agree8 p off | none => false
  match s.time.st with
  | .free => if again then s.timeStep off else s
  | .holdover => if near then s.timeSlew off else if again then s.timeStep off else s
  | .locked =>
    if near then s.timeSlew off
    else
      let l := (s.time.rejOffs ++ [off]).drop ((s.time.rejOffs.length + 1) - 3)
      let s1 : State := { s with time := { s.time with reject := satInc s.time.reject, rejOffs := l } }
      match l with
      | [a, b, c] => if agree8 a b && agree8 b c && agree8 a c then s1.timeStep off else s1
      | _ => s1

/-- A FOLLOW on the upstream stake (R343). -/
def State.onFollow (s : State) (n : Nat) (sseq : BitVec 16) (tDep : BitVec 64) (tDepF : BitVec 16) : State :=
  if s.upstream ≠ some n then s
  else
    match s.time.syncRx with
    | none => s
    | some r =>
      if r.sseq ≠ sseq then s
      else
        let s1 : State := { s with time := { s.time with syncRx := none } }
        if r.usable then
          s1.applyOffset (stampDiff (tDep.toNat * 65536 + tDepF.toNat + (s.stake n).hopdly.toNat * 4096) r.tArr)
        else s1

/-- FOLLOW (R343, R345, R346). -/
def execFollow (n : Fin 16) (sseq : BitVec 16) (_hops : BitVec 8) (_master : BitVec 16) (tDep : BitVec 64) (tDepF : BitVec 16)
    (s : State) : Host.Outcome State Fault Refusal :=
  live s (fun s => s.onFollow n.val sseq tDep tDepF)

/-- TIME_HOLDOVER (Table TA-2): a LOCKED die other than the master has had no usable SYNC for 32,768 ns. The master of the
last image stays the master while another is loaded. -/
def execTimeHoldover (s : State) : Host.Outcome State Fault Refusal :=
  live s (fun s =>
    if s.time.st = .locked ∧ s.isMaster = false ∧ s.wl.dieId ≠ s.time.tmDie ∧ s.reached (s.time.lastUse + 32768#64) = true then
      let s1 := s.logEv 0x1F 5 12 0 0 s.time.hops.toNat
      { s1 with time := { s1.time with st := .holdover, rejOffs := [] } }
    else s)

/-! ### REFCLK (R246, R340) -/

/-- REFCLK_LOST: the counter and its timers stop. -/
def State.refLost (s : State) : State :=
  if s.time.stopped then s
  else
    let s1 := ((s.logEv 0x1E 7 12 0 0 0).attn 7).logEv 0x1D 5 11 0 0 0
    { s1 with time := { s1.time with stopped := true, lost := true }, tilth := { s1.tilth with refLost := true } }

def execRefclkLost (s : State) : Host.Outcome State Fault Refusal := live s (fun s => s.refLost)

/-- REFCLK_RESTORED: the counter runs again (R260); LOST and REF_LOST stay until they are cleared. -/
def execRefclkRestored (s : State) : Host.Outcome State Fault Refusal :=
  live s (fun s => { s with time := { s.time with stopped := false } })

/-- A write of GC_PERIOD (R337, R392): ignored while an image is loaded and outside the legal range. -/
def State.gcPeriod (s : State) (v : Word) : State :=
  if (s.img.st = .empty ∨ s.img.st = .refused) ∧ 0x40000 ≤ v.toNat ∧ v.toNat ≤ 0x280000 then
    { s with time := { s.time with gcPer := v } }
  else s

/-- GC_PERIOD_WRITE. -/
def execGcPeriodWrite (v : Word) (s : State) : Host.Outcome State Fault Refusal := live s (fun s => s.gcPeriod v)

/-! ### The counter at an edge (R337, R346) -/

/-- The part of the remaining correction that one edge takes: sign(r) × min(|r|, GC_PERIOD / 64). -/
def slewPart (r : Int) (per : Nat) : Int :=
  if r < 0 then -(min (-r) (Int.ofNat (per / 64))) else min r (Int.ofNat (per / 64))

/-- One rising edge of REFCLK. -/
def Time.edge (t0 : Time) : Time :=
  let t := if t0.stepDue = 0 then t0 else { t0.move t0.stepDue with stepDue := 0 }
  let p := slewPart t.slew t.gcPer.toNat
  { t with now := BitVec.ofInt 80 (Int.ofNat t.now.toNat + Int.ofNat t.gcPer.toNat + p), slew := t.slew - p }

end Sys2Proof.Machine
end

