-- ==== Sys2Proof/Machine/Link.lean ====
section
/-! DEFINITION. The transmit side of a stake (spec/07 R195 to R206), retraining and going down (R171, R172, R208,
R214), and the flit of each slot. -/

namespace Sys2Proof.Machine

/-! ### Flits of one stake -/

/-- A header with the stake's acknowledgement (R196). -/
def Stake.hdr (x : Stake) (ftype : Nat) : FlitHdr :=
  ⟨ftype, 0, 0, if x.ackV then (x.rxSeq - 1#12).toNat else 0, x.ackV, 0, 0, 0, 0, false⟩

/-- A DATA flit as it leaves (R181, R200). -/
def Stake.dataFlit (x : Stake) (f : TxFlit) : List Byte :=
  mkFlit { x.hdr 1 with vc := f.vc, fseq := f.fseq.toNat, dest := f.dest.toNat, hop := f.hop, level := f.level, srcf := f.srcf } f.payload

/-- The LINK flit (Table SK-9). -/
def Stake.linkFlit (x : Stake) : List Byte :=
  mkFlit (x.hdr 2) ((x.freed.flatMap (fun c => toLe 2 c.toNat)) ++ toLe 2 (if x.nak then x.rxSeq.toNat else 0) ++ toLe 1 (b1 x.nak))

/-- An IDLE flit. -/
def Stake.idleFlit (x : Stake) : List Byte := mkFlit (x.hdr 0) []

/-- The payload of a TRAIN flit (Table SK-18). -/
def State.trainPayload (s : State) (n : Nat) : TrainOut → List Byte
  | .id =>
    let x := s.stake n
    toLe 2 1 ++ toLe 2 s.own ++ toLe 1 (n / 2) ++ toLe 1 n ++ toLe 4 (s.img.cfg.assign n).toNat ++ toLe 8 s.img.digest.toNat
      ++ toLe 1 (b1 (!x.served) + 2 * b1 x.idRx.isSome)
  | .probe p => toLe 2 2 ++ toLe 2 p
  | .ret p _ => toLe 2 3 ++ toLe 2 p
  | .hold p h => toLe 2 4 ++ toLe 2 p ++ toLe 4 h

/-! ### The lanes (R177 to R180, R185) -/

/-- The units of a flit (R185). -/
def unitsOf (w : List Byte) : List (BitVec 32) := (List.range 66).map (fun u => BitVec.ofNat 32 (leAt w (4 * u) 4))

/-- The word of the `j`-th of `l` lanes in use: 8 units of its own, the first lowest (R185). -/
def laneWord (l : Nat) (us : List (BitVec 32)) (j : Nat) : BitVec 256 :=
  (List.range 8).foldl (fun a i => a + BitVec.ofNat 256 ((us.getD (j + i * l) 0).toNat <<< (32 * i))) 0

/-- The lanes of a set, in ascending order. -/
def laneList (m : BitVec 8) : List Nat := (List.range 8).filter (fun i => m.getLsbD i)

/-- Lanes on which the stake drives words: the candidates while they train, the chosen set from the marker word on (R209). -/
def Stake.lanesUsed (x : Stake) : BitVec 8 :=
  match x.st with
  | .training => if x.phyRst ∨ x.step < 2 then 0 else if x.marked then x.lanes else x.cand
  | .inService => x.lanes
  | _ => 0

/-- SK_TX_IDLE of port `p`: every lane that no logical stake drives (R180; log entry 91). -/
def State.txIdle (s : State) (p : Nat) : BitVec 8 := ~~~((s.stake (2 * p)).lanesUsed ||| (s.stake (2 * p + 1)).lanesUsed)

/-- Put a flit on the line: it follows what is there, unit by unit (R185, R195). -/
def Stake.line (x : Stake) (w : List Byte) : Stake := { x with lineOut := w, units := x.units ++ unitsOf w }

def State.line (s : State) (n : Nat) (w : List Byte) : State := s.onStake n (fun x => x.line w)

/-- Drive the next word of every lane of the set from the units in line. -/
def Stake.wordRow (x : Stake) : Stake :=
  let ls := laneList x.lanes
  { x with txd := ls.zipIdx.foldl (fun m e => mput 0 m e.1 (laneWord ls.length x.units e.2)) [], units := x.units.drop (8 * ls.length) }

/-- The counter as interpolated at an SK_PCLK edge, in 2^−16 ns: the time since the last edge of REFCLK is a free value below
GC_PERIOD, in sixteenths of a nanosecond (R343; log entry 91). -/
def State.departStamp (s : State) : Nat × State :=
  let f := s.freeNext
  (s.stamp (f.1.toNat % max 1 (s.time.gcPer.toNat / 2 ^ 12)), f.2)

/-- The first segment of a flit. -/
def TxFlit.seg (f : TxFlit) : Option Seg := (segsIn f.payload).head?

/-- The flit is a control message of its own die of type `m`. -/
def TxFlit.ctl (f : TxFlit) (m : Nat) : Bool := f.rx.isNone && f.seg.any (fun x => decide (x.kind = 6) && decide (leAt x.body 0 2 = m))

/-- The PHY has taken the word that holds wire byte 0 of a flit (R343): a FOLLOW gets the departure stamp of its SYNC, a probe
its a1, and the return of a probe its hold time. -/
def State.departed (s : State) (n : Nat) : State :=
  match (s.stake n).stampDue with
  | none => s
  | some d =>
    let r := s.departStamp
    r.2.onStake n (fun x =>
      let y := { x with stampDue := none }
      match d with
      | .sync q => { y with txq := y.txq.map (fun f =>
          if f.ctl 0x11 && f.seg.any (fun z => decide (leAt z.body 2 2 = q)) then
            { f with payload := patch f.payload 16 (toLe 8 (r.1 / 65536) ++ toLe 2 (r.1 % 65536)) } else f) }
      | .probe p => if p = y.pnum then { y with probeT := some (r.1 / 4096), probeA := none } else y
      | .ret p a => { y with ctlq := .hold p (r.1 / 4096 - a) :: y.ctlq })

/-- Send the LINK flit (R202). -/
def State.sendLink (s : State) (n : Nat) : State :=
  s.onStake n (fun x => { x.line x.linkFlit with linkDue := false, linked := x.freed, sinceLk := 0 })

/-- Send a TRAIN flit (R210). -/
def State.sendTrain (s : State) (n : Nat) (t : TrainOut) : State :=
  let s1 := s.line n (mkFlit ((s.stake n).hdr 3) (s.trainPayload n t))
  s1.onStake n (fun x =>
    match t with
    | .id => { x with idSent := x.idSent || x.idRx.isSome, sinceLk := 0 }
    | .probe p => { x with stampDue := some (.probe p) }
    | .ret p a => { x with stampDue := some (.ret p a) }
    | .hold _ _ => x)

/-! ### Credits (R203, R204) -/

/-- Receive buffer of a virtual channel, in flits. -/
def vcBuf (vc : Nat) : Nat := if vc = 0 then 16 else 160

/-- The transmitter may send one more flit on the channel (R203). -/
def Stake.credit (x : Stake) (vc : Nat) : Bool := decide ((x.txCnt.getD vc 0 - x.txFreed.getD vc 0).toNat < vcBuf vc)

/-- The retry buffer of the stake (R197). -/
def State.retryCap (s : State) (n : Nat) : Nat := if s.img.cfg.stkSplit n then 256 else 512

/-! ### Arbitration (R108, R206, R223) -/

/-- The number under which a stake counts the flits of the collective that a segment names. -/
def Seg.coll (x : Seg) : Nat := x.group * 16 + x.ktag

/-- A control message that names a collective. -/
def Seg.names (x : Seg) : Bool := decide (x.kind = 6) && !([0x0E, 0x0F, 0x10, 0x11] : List Nat).contains (leAt x.body 0 2)

/-- A VC0 message of this die's own waits: fewer than 16 DATA flits of its collective have gone since the last one, and one of
them may go now (R223; log entry 92). -/
def Stake.limited (x : Stake) (f : TxFlit) : Bool :=
  f.rx.isNone && (match f.seg with
    | some sg => sg.names && decide (mget 16 x.sinceV0 sg.coll < 16)
        && x.txq.any (fun y => decide (y.vc ≠ 0) && x.credit y.vc && y.seg.any (fun z => decide (z.coll = sg.coll)))
    | none => false)

/-- The payload holds a down wale of the collective. -/
def holdsDown (c : Nat) (payload : List Byte) : Bool := (segsIn payload).any (fun z => decide (z.kind = 2) && decide (z.coll = c))

/-- A terminal token waits for the down wales toward the same die that were released before it (R108): those in line or, on
another member of the bond, not yet acknowledged, and those that still stand in a receive buffer here. -/
def State.downAhead (s : State) (n : Nat) (f : TxFlit) : Bool :=
  match f.seg with
  | some sg =>
    let ahead (dest : BitVec 16) (p : List Byte) : Bool := decide (dest = f.dest) && holdsDown sg.coll p
    decide (sg.kind = 6) && decide (leAt sg.body 0 2 = 8)
      && ((s.img.cfg.bondOf n).any (fun m => (s.stake m).txq.any (fun y => ahead y.dest y.payload)
            || (decide (m ≠ n) && (s.stake m).rbuf.any (fun y => ahead y.dest y.payload)))
        || s.stakes.any (fun e => e.2.rxbuf.any (fun y => ahead y.dest y.payload)
            || e.2.relay.any (fun r => r.2.any (fun y => ahead y.dest y.payload))))
  | none => false

/-- The flit may leave as the next one of its channel. -/
def State.mayLeave (s : State) (n : Nat) (f : TxFlit) : Bool := decide (f.vc ≠ 0) || (!(s.stake n).limited f && !s.downAhead n f)

/-- A virtual channel with a flit that may leave. -/
def State.vcReady (s : State) (n vc : Nat) : Bool :=
  (s.stake n).txq.any (fun f => decide (f.vc = vc) && s.mayLeave n f) && (s.stake n).credit vc

/-- The channel that sends next among those that are ready, and the stake with its rotation advanced. -/
def Stake.arbitrate (c : Cfg) (ready : Nat → Bool) (x : Stake) : Option Nat × Stake :=
  if ready 0 then (some 0, x)
  else if c.collFirst then
    if ready 1 then (some 1, x)
    else
      let a := if x.rrVc = 2 then 3 else 2
      if ready a then (some a, { x with rrVc := a })
      else if ready (5 - a) then (some (5 - a), { x with rrVc := 5 - a })
      else (none, x)
  else
    let cur := x.rrVc
    if ready cur && decide (0 < x.deficit.getD cur 0) then
      (some cur, { x with deficit := x.deficit.set cur (x.deficit.getD cur 0 - 1) })
    else
      let order := [1, 2, 3].map (fun i => (cur + i - 1) % 3 + 1)
      match order.find? ready with
      | some v => (some v, { x with rrVc := v, deficit := [0, 0, 0, 0].set v (c.weight v - 1) })
      | none => (none, x)

/-! ### One flit slot (R195) -/

/-- Alter data symbols of codeword 0 of a wire flit (Table RG-12a, KIND 2 and 3). -/
def alter (kind : Nat) (w : List Byte) : List Byte :=
  let w1 := w.set 0 (byteAt w 0 ^^^ 1#8)
  if kind = 3 then w1.set 4 (byteAt w1 4 ^^^ 2#8) else w1

/-- Put a DATA flit on the line, with an armed injection (R424). -/
def State.lineData (s : State) (n : Nat) (f : TxFlit) : State :=
  let w := (s.stake n).dataFlit f
  if s.dbg.armed ∧ (s.dbg.injKind = 2 ∨ s.dbg.injKind = 3) ∧ s.dbg.injUnit.toNat = n then
    { (s.line n (alter s.dbg.injKind.toNat w)) with dbg := { s.dbg with armed := false, injCnt := satInc s.dbg.injCnt } }
  else s.line n w

/-- The count of R223 after a flit of a collective has gone. -/
def Stake.countV0 (x : Stake) (f : TxFlit) : Map Nat :=
  match f.seg with
  | some sg =>
    if f.vc ≠ 0 then mput 16 x.sinceV0 sg.coll (min 16 (mget 16 x.sinceV0 sg.coll + 1))
    else if sg.names && f.rx.isNone then mput 16 x.sinceV0 sg.coll 0 else x.sinceV0
  | none => x.sinceV0

/-- The stamp that is due when the first word of a new flit is taken: that of a SYNC (R343). -/
def TxFlit.stamp (f : TxFlit) : Option StampFor :=
  if f.ctl 0x10 then some (.sync (leAt ((f.seg.map (fun x => x.body)).getD []) 2 2)) else none

/-- Send a new DATA flit of the channel (R196, R197, R203). -/
def State.sendNew (s : State) (n vc : Nat) : State :=
  let x := s.stake n
  match takeFirst (fun f => decide (f.vc = vc) && s.mayLeave n f) x.txq with
  | none => s
  | some (f, rest) =>
    let f' : TxFlit := { f with fseq := x.txSeq }
    let s1 := s.setStake n { x with
      txq := rest, txSeq := x.txSeq + 1, rbuf := x.rbuf ++ [{ f' with rx := none }], sinceV0 := x.countV0 f, stampDue := f.stamp,
      txCnt := x.txCnt.set vc (x.txCnt.getD vc 0 + 1), txdata := satInc x.txdata }
    let s2 := match f.rx with | some m => s1.onStake m (fun y => y.free vc) | none => s1
    s2.lineData n f'

/-- The flit slot of a stake in service: LINK when it is due, a TRAIN flit that waits, a replay, a new DATA flit, or IDLE (R195,
R199, R202). -/
def State.slotService (s : State) (n : Nat) : State :=
  let x := s.stake n
  if x.linkDue ∨ 63 ≤ x.sinceLk then s.sendLink n
  else
    let s0 := s.setStake n { x with sinceLk := x.sinceLk + 1 }
    match x.ctlq with
    | t :: r => (s0.onStake n (fun y => { y with ctlq := r })).sendTrain n t
    | [] =>
      match x.replay with
      | some i =>
        match x.rbuf[i]? with
        | some f => (s0.onStake n (fun y => { y with replay := if i + 1 < y.rbuf.length then some (i + 1) else none })).lineData n f
        | none => (s0.onStake n (fun y => { y with replay := none })).line n x.idleFlit
      | none =>
        if x.rbuf.length < s.retryCap n then
          let a := Stake.arbitrate s.img.cfg (s.vcReady n) (s0.stake n)
          match a.1 with
          | some vc => (s0.setStake n a.2).sendNew n vc
          | none => s0.line n x.idleFlit
        else s0.line n x.idleFlit

/-- The slot of a stake in training once framing has begun: the next TRAIN flit in line, an ID flit once every 64 slots of step
6 until the far end has acknowledged (R210), or IDLE. -/
def State.slotTraining (s : State) (n : Nat) : State :=
  let x := s.stake n
  let s0 := s.setStake n { x with sinceLk := x.sinceLk + 1 }
  match x.ctlq with
  | t :: r => (s0.onStake n (fun y => { y with ctlq := r })).sendTrain n t
  | [] => if x.step = 6 ∧ x.idAck = false ∧ 63 ≤ x.sinceLk then s0.sendTrain n .id else s0.line n x.idleFlit

/-! ### Training words (R209, R211, Table SK-17) -/

/-- One bit of PRBS31: the generator x^31 + x^28 + 1. -/
def prbsBit (r : Nat) : Nat := (r >>> 30 ^^^ r >>> 27) % 2

/-- `n` bits of the sequence from a register, the first lowest. -/
def prbs : Nat → Nat → Nat
  | 0, _ => 0
  | n + 1, r => prbsBit r + 2 * prbs n ((2 * r + prbsBit r) % 2 ^ 31)

/-- PATTERN of a word (R209). -/
def pattern (cnt port lane : Nat) : Nat := prbs 224 ((cnt * 256 + port * 8 + lane) % (2 ^ 31 - 1) + 1)

/-- Lanes that have passed this end's test so far. -/
def Stake.passMask (x : Stake) : BitVec 8 :=
  BitVec.ofNat 8 (((List.range 8).map (fun i => if x.cand.getLsbD i && (mget LaneRx.zero x.laneRx i).pass then 2 ^ i else 0)).foldl (fun a b => a + b) 0)

/-- The training word that lane `i` of stake `n` sends (Table SK-17): MARK once the width has been chosen. -/
def Stake.trainWord (x : Stake) (n i : Nat) : BitVec 256 :=
  BitVec.ofNat 256 (i + pl (n / 2) 3 + pl (b1 x.mask.isSome) 6 + pl (b1 (decide (6 ≤ x.step))) 7 + pl (x.mask.getD x.passMask).toNat 8
    + pl x.wordCnt.toNat 16 + pl (pattern x.wordCnt.toNat (n / 2) i) 32)

/-- The next training words, or the marker word on the chosen set, and CNT goes on (R209). -/
def Stake.trainRow (x : Stake) (n : Nat) : Stake :=
  let y : Stake := { x with marked := decide (6 ≤ x.step) }
  { y with txd := (laneList y.lanesUsed).foldl (fun m i => mput 0 m i (x.trainWord n i)) [], wordCnt := x.wordCnt + 1 }

/-! ### One edge of SK_PCLK (R177, R178, Table SK-2) -/

/-- The next words of flits: a new flit slot begins where the units in line do not fill them. -/
def State.flitRow (s : State) (n : Nat) (slot : State → Nat → State) : State :=
  (if (s.stake n).units.length < 8 * (laneList (s.stake n).lanes).length then slot s n else s).onStake n Stake.wordRow

/-- The PHY takes the words of stake `n`, and the block drives the next ones. -/
def State.pclk (s : State) (n : Nat) : State :=
  let x := s.stake n
  match x.st with
  | .training =>
    if x.lanesUsed = 0 then s
    else if x.marked then (s.departed n).flitRow n State.slotTraining
    else s.setStake n (x.trainRow n)
  | .inService => (s.departed n).flitRow n State.slotService
  | _ => s

/-- One edge of SK_PCLK at every port; bit `p` of `acc` is SK_TX_ACC of port `p`, and words stand while it is 0. -/
def State.pclks (s : State) (acc : BitVec 64) : State :=
  s.stakes.foldl (fun t x => if acc.getLsbD (x.1 / 2) then t.pclk x.1 else t) s

/-! ### Replay (R199 to R201) -/

/-- A retry of the flits from index `i` of the retry buffer onward; the sixteenth for the same oldest flit calls for
a retraining (R201). -/
def Stake.startReplay (x : Stake) (i : Nat) : Stake × Bool :=
  match x.rbuf[i]? with
  | none => (x, false)
  | some f =>
    let k := if x.replayF = some f.fseq then x.replays + 1 else 1
    ({ x with replay := some i, replayC := satInc x.replayC, replayF := some f.fseq, replays := k }, decide (16 ≤ k))

/-- An acknowledgement frees the flits it covers (R196, R197). -/
def Stake.acked (x : Stake) (ack : BitVec 12) : Stake :=
  let rest := x.rbuf.filter (fun f => precedes 12 ack.toNat f.fseq.toNat)
  let gone := x.rbuf.length - rest.length
  { x with rbuf := rest,
           replay := match x.replay with
             | some i => if i - gone < rest.length then some (i - gone) else none
             | none => none,
           replays := if gone = 0 then x.replays else 0, replayF := if gone = 0 then x.replayF else none }

/-! ### Going down (R171, R172) -/

/-- STK_WIDTH (Table RG-7). -/
def Stake.widthWord (x : Stake) : Nat := x.width + pl x.lanes.toNat 8 + pl x.good.toNat 16

/-- The k that a segment's KTAG names: that of a collective of `g` on this die, or the tag itself where the die holds
none (log entry 16). -/
def State.tagSeq (s : State) (g : BitVec 12) (tag : Nat) : Word :=
  ((s.colls.find? (fun c => decide (c.g = g) && decide (c.k.toNat % 16 = tag))).map (fun c => c.k)).getD (BitVec.ofNat 32 tag)

/-- Relayed flits that can no longer leave: their buffers are freed, and each one's collective hears of it (R172). -/
def State.dropRelays (s : State) (n : Nat) : State :=
  let x := s.stake n
  let gone := x.txq.filter (fun f => f.rx.isSome)
  gone.foldl (fun t f =>
    let t1 := match f.rx with | some m => t.onStake m (fun y => y.free f.vc) | none => t
    if leAt f.payload 0 1 % 16 = 6 then t1
    else
      let h := leAt f.payload 0 8
      let g : BitVec 12 := BitVec.ofNat 12 (fld h 27 16)
      t1.cutHere g (t1.tagSeq g (fld h 31 28)) n) (s.setStake n { x with txq := x.txq.filter (fun f => f.rx.isNone) })

/-- Flits that a stake has not sent, or has not had acknowledged, go to the other members of its bond: each wale of a stream to
the member that it names among those in service, other traffic in rotation (R170, R171). -/
def State.handOver (s : State) (n : Nat) (fs : List TxFlit) : State :=
  fs.foldl (fun t f =>
    let l := (t.img.cfg.bondOf n).headD n
    let r : Nat × State := match f.seg with
      | some x => if x.kind ≤ 4 then (x.wale, t) else if x.frag = 0 then t.rotation n else ((t.stake l).bondRR - 1, t)
      | none => t.rotation n
    match t.pick n r.1 with
    | some m => r.2.enqueue m [{ f with fseq := 0 }]
    | none => t) s

/-- A stake has left service: when other members of its bond are in service, what it has not sent goes on there, with what it
has sent and not had acknowledged when its lanes are lost (R171). Fragments of a wale that has begun stay where the rest of it is
to come. -/
def State.leaveBond (s : State) (n : Nat) (lost : Bool) : State :=
  if s.bondUp n = [] then s
  else
    let x := s.stake n
    if lost then (s.setStake n { x with rbuf := [], txq := [] }).handOver n (x.rbuf ++ x.txq)
    else
      let r := cutWales (fun (f : TxFlit) => f.vc) (fun f => f.payload) (fun _ => true) [] x.txq
      (s.setStake n { x with txq := r.1 }).handOver n r.2

/-- A stake whose image is gone idles at once when it leaves service (log entry 87). -/
def State.closed (s : State) (n : Nat) : State := if (s.stake n).closing then s.onStake n Stake.idled else s

/-- The stake goes down. Other members of its bond take its flits over (R171); without one, both the traffic and the
trees that use it are cut (R172, R436). -/
def State.goDown (s : State) (n attempts : Nat) : State :=
  let x := s.stake n
  let s1 := ((s.logEv 0x1B 4 4 n attempts 0).attn 4).setStake n
    { x with st := .down, step := 0, width := 0, lanes := 0, nak := false, replay := none, phyRst := false, ctlq := [], linkDue := false,
             syncDue := false, units := [], txd := [], stampDue := none }
  (if s1.bondUp n = [] then (s1.dropRelays n).cutAll n else s1.leaveBond n true).closed n

/-! ### Starting a training (R208, R214) -/

/-- FSEQ as STK_FSEQ shows it. -/
def Stake.fseqWord (x : Stake) : Nat := x.txSeq.toNat + pl x.rxSeq.toNat 16

/-- A retraining (R214, R418): counted and logged with its cause; the replay shadow begins (R344). -/
def State.retrain (s : State) (n cause : Nat) (cand : BitVec 8) : State :=
  let x := s.stake n
  (((s.logEv 0x17 4 4 n cause x.fseqWord).setStake n
    { x.train cand 0 with retrainC := satInc x.retrainC, badRun := [], slotRun := 0, shadow := true }).leaveBond n
      (decide (x.lanesReady cand = 0))).closed n

/-- A protocol error of Table SK-12: counted, logged, and the stake retrains. -/
def State.proto (s : State) (n ftype hdr : Nat) : State :=
  let x := s.stake n
  let s1 := (s.logEv 0x19 4 4 n ftype (hdr % 2 ^ 32)).setStake n { x with proto := satInc x.proto }
  if x.st = .inService then s1.retrain n 4 x.lanes else s1

end Sys2Proof.Machine
end

