-- ==== Sys2Proof/Machine/Stake.lean ====
section
/-! DEFINITION. The receive side of a stake (spec/07): flits and their acceptance, what an accepted DATA flit carries,
training, and the stake's own events. -/

namespace Sys2Proof.Machine

/-! ### What an accepted DATA flit carries (R161, R167, R188 to R194) -/

/-- The collective that a segment names. -/
def State.segColl (s : State) (x : Seg) : Option Coll :=
  s.colls.find? (fun c => decide (c.g.toNat = x.group) && decide (c.k.toNat % 16 = x.ktag))

/-- A route fault found on stake `n`: the entry and the report (R167). -/
def State.routeFault (s : State) (n : Nat) (h : RxHeld) (g : BitVec 12) (k : Word) (cond : Nat) : State :=
  (s.logRoute g k n h.dest.toNat h.hop h.level cond).report g k 1 4 n

/-- A good flit's segment fails unpacking or a complement check (Table SK-12): counted, and the collective's fault
report. -/
def State.badSeg (s : State) (n : Nat) (g : BitVec 12) (k : Word) (report : Bool) : State :=
  let s1 := s.onStake n (fun x => { x with proto := satInc x.proto })
  if report && (s1.coll? g k).isSome then s1.report g k 2 4 n else s1

/-- A residue mismatch in a wale that arrived on stake `n`: counted beside the entry and the report (Table SK-12, R52). -/
def State.badWord (s : State) (n : Nat) (c : Coll) (w lane : Nat) : State :=
  (s.onStake n (fun x => { x with proto := satInc x.proto })).residue c 0x05 4 n w lane

/-- A STEP partial of an absent marker's body: OR and AND send it behind raw wale 0, a routed operation sends nothing else (log
entry 13). -/
def Coll.stepApart (c : Coll) (l f : Nat) : Bool := isExch c.aw || (rawOp c.aw && c.rawIn.contains (l, f))

/-- An absent marker, or a STEP partial that travels apart, for a stage combine of this die (R194). -/
def State.markerArrive (s : State) (c : Coll) (l f : Nat) (body : List Byte) : State :=
  if c.stepApart l f then
    match markerStep body with
    | some v => State.passSteps 16 (s.onColl c.g c.k (fun c => { c with steps := c.steps ++ [(.stage l, f, v)] })) c.g c.k
    | none => s
  else
    State.passSteps 16 ((s.onColl c.g c.k (fun c => { c with
      bufs := c.bufs ++ [⟨.stage l, f, none, ⟨[], [], 0, 0, markerStep body, none⟩⟩] })).passMarkers 8 c.g c.k) c.g c.k

/-- A partial wale is at its input port; one that comes a second time, after a bond member has failed, is dropped (R171). -/
def State.waleArrive (s : State) (c : Coll) (l f w : Nat) (v : WaleV) : State :=
  if w < mget 0 c.fwd (siteKey (.stage l))
      ∨ c.bufs.any (fun b => decide (b.pt = .stage l) && decide (b.port = f) && decide (b.wale = some w)) = true then s
  else s.onColl c.g c.k (fun c => { c with bufs := c.bufs ++ [⟨.stage l, f, some w, v⟩],
                                           rawIn := if rawOp c.aw ∧ w = 0 then c.rawIn ++ [(l, f)] else c.rawIn })

/-- A partial or marker for a stage combine of this die (R160, R167, R191, R194). -/
def State.partialArrive (s : State) (n : Nat) (h : RxHeld) (x : Seg) : State :=
  match s.segColl x with
  | none => s
  | some c =>
    let grp := s.group c.g
    if c.decided.isSome ∨ c.st = .ended then s
    else if s.stageHere grp c.rd h.level = false then s.routeFault n h c.g c.k 3
    else if (grp.mask h.level).testBit h.srcf = false then s.routeFault n h c.g c.k 4
    else if x.kind = 4 then s.markerArrive c h.level h.srcf x.body
    else
      match partialOf (isOp c.aw) x.kind x.body with
      | none => s.badSeg n c.g c.k true
      | some v =>
        match badLane v.lanes with
        | some i => s.badWord n c x.wale i
        | none => s.waleArrive c h.level h.srcf x.wale v

/-- A converted wale on the down path, for the chain that feeds its level (R173). What comes after the chain's terminal token, or
a second time, is dropped. -/
def State.downSeg (s : State) (h : RxHeld) (x : Seg) : State :=
  match s.segColl x with
  | none => s
  | some c =>
    if c.tokSegs.contains h.level = true ∨ c.old = true ∨ x.wale < mget 0 c.downNext h.level
        ∨ c.down.any (fun d => decide (d.1 = h.level) && decide (d.2.1 = x.wale)) = true then s
    else (s.downArrive c.g c.k h.level x.wale x.body).push c.g c.k

/-- A wale of a routed operation (SKIND 0x5). -/
def State.exSeg (s : State) (n : Nat) (x : Seg) : State :=
  match s.segColl x with
  | none => s
  | some c =>
    if c.decided.isSome ∨ c.st = .ended then s
    else
      match exBadCopy x.body with
      | some none => s.badSeg n c.g c.k true
      | some (some lane) => s.badWord n c x.wale lane
      | none => (s.exArrive c.g c.k x.wale x.body).push c.g c.k

/-- Fields that travel with complements agree (R17). -/
def msgIntact (m : Msg) : Bool :=
  match m.body with
  | .agree _ _ _ _ aw awN => decide (awN = compl aw)
  | .reserve aw awN => decide (awN = compl aw)
  | .token ws wsN => decide (wsN = compl ws)
  | _ => true

/-- A control message (R193): SYNC and FOLLOW take effect, every other message waits for its command. -/
def State.msgSeg (s : State) (n : Nat) (h : RxHeld) (x : Seg) : State :=
  let b := x.body
  if leAt b 0 2 = 0x10 then
    s.onSync n (BitVec.ofNat 16 (leAt b 2 2)) (byteAt b 4) (s.stamp h.el) (s.stake n).usable
  else if leAt b 0 2 = 0x11 then
    s.onFollow n (BitVec.ofNat 16 (leAt b 2 2)) (BitVec.ofNat 64 (leAt b 8 8)) (BitVec.ofNat 16 (leAt b 16 2))
  else
    match msgOf h.level h.srcf b with
    | none => s.badSeg n (BitVec.ofNat 12 (leAt b 2 2)) (wordAt b 4) true
    | some m => (if msgIntact m then s else s.badSeg n m.group m.seq false).post m

/-- A whole wale or message has been put together. A control message that comes on another channel than VC0 counts as a reserved
SKIND does (Table SK-6; DESIGN CHOICE, log entry 94). -/
def State.segDone (s : State) (n : Nat) (h : RxHeld) (x : Seg) : State :=
  match x.kind with
  | 1 => s.partialArrive n h x
  | 2 => s.downSeg h x
  | 3 => s.partialArrive n h x
  | 4 => s.partialArrive n h x
  | 5 => s.exSeg n x
  | 6 => if h.vc = 0 then s.msgSeg n h x else s.badSeg n (BitVec.ofNat 12 x.group) (s.tagSeq (BitVec.ofNat 12 x.group) x.ktag) true
  | _ => s.badSeg n (BitVec.ofNat 12 x.group) (s.tagSeq (BitVec.ofNat 12 x.group) x.ktag) true

/-- The identity of the wale or message that a fragment belongs to. -/
def Seg.key (x : Seg) : Nat := x.kind + 16 * (x.group + 4096 * (x.ktag + 16 * x.wale))

/-- The open wale of channel `vc` that a fragment continues, and the stake that keeps it: this one, or a member of its bond whose
flits go on here (R171). -/
def State.openFrag (s : State) (n vc : Nat) (x : Seg) : Option (Nat × Frag) :=
  (n :: (s.img.cfg.bondOf n).filter (fun m => decide (m ≠ n))).findSome? (fun m => match mget none (s.stake m).frags vc with
    | some f => if f.hdr = x.key ∧ f.next = x.frag then some (m, f) else none
    | none => none)

/-- Keep, or drop, the open wale of a channel. -/
def State.setFrag (s : State) (n vc : Nat) (f : Option Frag) : State := s.onStake n (fun y => { y with frags := mput none y.frags vc f })

/-- One segment for this die: the first, a middle or the last fragment (R188). The flag is false where FRAG or LAST
is out of order. -/
def State.segTake (s : State) (n : Nat) (h : RxHeld) (x : Seg) : State × Bool :=
  if x.frag = 0 then
    if mget none (s.stake n).frags h.vc ≠ none then (s, false)
    else if x.last then (s.segDone n h x, true)
    else (s.setFrag n h.vc (some ⟨x.key, 1, x.body⟩), true)
  else
    match s.openFrag n h.vc x with
    | none => (s, false)
    | some (m, f) =>
      if x.last then ((s.setFrag m h.vc none).segDone n h { x with body := f.body ++ x.body }, true)
      else if x.frag = 3 then (s, false)
      else (s.setFrag m h.vc (some ⟨f.hdr, x.frag + 1, f.body ++ x.body⟩), true)

/-- The segments of a flit for this die, in order. -/
def State.segsTake (s : State) (n : Nat) (h : RxHeld) : List Seg → State × Bool
  | [] => (s, true)
  | x :: xs =>
    let r := s.segTake n h x
    if r.2 then State.segsTake r.1 n h xs else r

/-- The message of a payload that holds one. -/
def msgIn (h : RxHeld) (segs : List Seg) : Option Msg :=
  match segs with
  | [x] => if x.kind = 6 ∧ x.frag = 0 ∧ x.last = true then msgOf h.level h.srcf x.body else none
  | _ => none

/-- What a message that passes over this die does here, and the payload that goes on (log entry 19). -/
def State.relayPayload (s : State) (h : RxHeld) (segs : List Seg) : State × List Byte :=
  match msgIn h segs, segs with
  | some m, x :: _ =>
    let r := s.relayMsg h.dest.toNat m
    (r.1, if r.2 = m then h.payload else padTo 244 (Seg.bytes { x with body := msgBytes r.2 }))
  | _, _ => (s, h.payload)

/-- Relay a flit to another die (R161): the fragments of one wale leave together, over one member of a bond. A RESERVE that
cannot go on is answered with DOWN (R230). -/
def State.relayFlit (s0 : State) (n : Nat) (h : RxHeld) (segs : List Seg) : State :=
  let p := s0.relayPayload h segs
  let s := p.1
  let x := segs.head?
  let g : BitVec 12 := BitVec.ofNat 12 ((x.map (fun x => x.group)).getD 0)
  let k := s.tagSeq g ((x.map (fun x => x.ktag)).getD 0)
  let freeAll (t : State) (m : Nat) : State := (List.range m).foldl (fun t _ => t.onStake n (fun y => y.free h.vc)) t
  let fs := mget [] (s.stake n).relay h.vc ++ [⟨0, h.vc, h.dest, h.hop + 1, h.level, h.srcf, p.2, some n⟩]
  if 31 ≤ h.hop then freeAll (s0.routeFault n h g k 2) 1
  else if (segs.getLast?.map (fun x => x.last)).getD true = false then s.onStake n (fun y => { y with relay := mput [] y.relay h.vc fs })
  else
    let s1 := s.onStake n (fun y => { y with relay := mput [] y.relay h.vc [] })
    let w := match x with | some x => if x.kind ≤ 4 then some x.wale else none | none => none
    match s1.sendFlits h.dest.toNat w fs with
    | .ok t => t
    | .fault => freeAll (s1.routeFault n h g k 1) fs.length
    | .down m =>
      let isReserve := match msgIn h segs with | some ⟨_, _, _, _, _, _, .reserve _ _⟩ => true | _ => false
      freeAll (match msgIn h segs with
        | some msg => if isReserve then s1.bounceReserve msg h.dest.toNat else s1.cutHere g k m
        | none => s1.cutHere g k m) fs.length

/-- Take a flit out of its receive buffer (R161, R188): relayed, or taken apart here. A flit with a segment of a reserved SKIND or
of LEN over 236 is dropped whole, and counted (DESIGN CHOICE, log entry 94: R188 states no outcome). -/
def State.takeFlit (s : State) (n : Nat) (h : RxHeld) : State :=
  match segsOf 31 h.payload with
  | none => (s.badSeg n 0 0 false).onStake n (fun y => y.free h.vc)
  | some segs =>
    if h.dest.toNat ≠ s.own then s.relayFlit n h segs
    else
      let r := s.segsTake n h segs
      let s2 := r.1.onStake n (fun y => y.free h.vc)
      if r.2 then s2 else s2.proto n h.ftype h.bits

/-- What a flit holds can be taken: the way down that a down wale takes has room for it (R152, R238). -/
def State.rxRoom (s : State) (h : RxHeld) : Bool :=
  decide (h.dest.toNat ≠ s.own) || (segsIn h.payload).all (fun x =>
    decide (x.kind ≠ 2) || (match s.segColl x with
      | some c => decide ((c.down.filter (fun d => decide (d.1 = h.level))).length < max 1 s.img.cfg.bufs)
      | none => true))

/-- The flit of the channel that goes next: the oldest, but for down wales that must wait, which flits of other collectives pass
(R204; log entry 77). -/
def State.rxNext (s : State) (vc : Nat) : List Nat → List RxHeld → Option RxHeld
  | _, [] => none
  | skip, h :: hs =>
    if h.vc ≠ vc then s.rxNext vc skip hs
    else
      let ks := (segsIn h.payload).map Seg.coll
      if ks.any skip.contains = false ∧ s.rxRoom h = true then some h else s.rxNext vc (ks ++ skip) hs

/-- The flit starts a wale for this die, which the stake's receive buffer admits at its pace (R261). -/
def State.rxPaced (s : State) (h : RxHeld) : Bool :=
  decide (h.dest.toNat = s.own) && (segsIn h.payload).head?.any (fun x => decide (x.frag = 0) && decide (x.kind ≠ 6))

/-- Take what can be taken from the receive buffer of a channel, in order. -/
def State.rxPump : Nat → State → Nat → Nat → State
  | 0, s, _, _ => s
  | f + 1, s, n, vc =>
    match s.rxNext vc [] (s.stake n).rxbuf with
    | none => s
    | some h =>
      let a := if s.rxPaced h then s.opportunity (ptStake n) else (true, s)
      if a.1 then State.rxPump f ((a.2.onStake n (fun y => { y with rxbuf := y.rxbuf.erase h })).takeFlit n h) n vc else a.2

/-- Every channel of a stake. -/
def State.rxAll (s : State) (n : Nat) : State :=
  [1, 2, 3].foldl (fun t vc => State.rxPump (t.stake n).rxbuf.length t n vc) s

/-- An accepted DATA flit (R203): VC0 is taken in at once, the other channels from their receive buffers. A stake whose image is gone
takes nothing in (log entry 87). -/
def State.acceptFlit (s : State) (n el : Nat) (f : FlitHdr) (payload : List Byte) : State :=
  let h : RxHeld := ⟨f.ftype, f.bits, f.vc, BitVec.ofNat 16 f.dest, f.hop, f.level, f.srcf, el, payload⟩
  let s1 := s.onStake n (fun y => { y with held := y.held.set f.vc (y.held.getD f.vc 0 + 1) })
  if (s.stake n).closing then s1.onStake n (fun y => y.free f.vc)
  else if f.vc = 0 then s1.takeFlit n h
  else (s1.onStake n (fun y => { y with rxbuf := y.rxbuf ++ [h] })).rxAll n

/-! ### Acceptance (R198) -/

/-- Start or continue a NAK state: a LINK flit is due in the next slot (R198, R202, R344). -/
def Stake.nakStart (x : Stake) : Stake := if x.nak then x else { x with nak := true, shadow := true, linkDue := true }

/-- The stake receives flits: in service, or in training after the marker word. -/
def Stake.framed (x : Stake) : Bool := decide (x.st = .inService) || (decide (x.st = .training) && decide (6 ≤ x.step))

/-- A good DATA flit (R198, R203). -/
def State.goodData (s : State) (n el : Nat) (f : RxFlit) : State :=
  let x := s.stake n
  let seq : BitVec 12 := BitVec.ofNat 12 f.hdr.fseq
  if x.st ≠ .inService ∧ x.step < 7 then s
  else if seq = x.rxSeq then
    if vcBuf f.hdr.vc ≤ x.held.getD f.hdr.vc 0 then s.proto n f.hdr.ftype f.hdr.bits
    else
      (s.setStake n { x with rxSeq := x.rxSeq + 1, ackV := true, rxdata := satInc x.rxdata, nak := false }).acceptFlit n el f.hdr f.body
  else if precedes 12 seq.toNat x.rxSeq.toNat then s
  else s.setStake n x.nakStart

/-- LINK flit (R199, R202): cumulative credits, and a NAK that starts a replay. -/
def State.goodLink (s : State) (n : Nat) (f : RxFlit) : State :=
  let x := s.stake n
  let x1 := { x with txFreed := [0, 1, 2, 3].map (fun i => BitVec.ofNat 16 (leAt f.body (2 * i) 2)) }
  if x.st ≠ .inService ∨ (byteAt f.body 10).getLsbD 0 = false then s.setStake n x1
  else
    let nk : BitVec 12 := BitVec.ofNat 12 (leAt f.body 8 2)
    match x1.rbuf.findIdx? (fun y => decide (y.fseq = nk)) with
    | none => (s.setStake n x1).proto n f.hdr.ftype f.hdr.bits
    | some i =>
      let r := x1.startReplay i
      let s1 := s.setStake n r.1
      if r.2 then s1.retrain n 3 r.1.lanes else s1

/-! ### Training (R169, R208 to R213, R407, R432) -/

/-- The identity check of step 6 fails: the stake is down with PEER_BAD (R169, R407). -/
def State.peerBad (s : State) (n peer : Nat) (dieBad digBad : Bool) : State :=
  let s1 := s.logEv 0x1A 4 4 n (6 + 16 * b1 dieBad + 32 * b1 digBad) peer
  (s1.goDown n (s1.stake n).attempt).onStake n (fun x => { x with peerBad := true })

/-- The highest level at which two DIE_IDs differ; 0 where they are equal (R169). -/
def diffTop (a b : Nat) : Nat :=
  if subField 4 a ≠ subField 4 b then 4 else if subField 3 a ≠ subField 3 b then 3
  else if subField 2 a ≠ subField 2 b then 2 else if subField 1 a ≠ subField 1 b then 1 else 0

/-- A restarted peer (R432): both ends begin again at FSEQ 0 with every credit, and the trees that use the stake are
cut. -/
def State.peerRestarted (s : State) (n peer : Nat) : State :=
  let x := s.stake n
  let s1 := s.setStake n { x with
    rbuf := [], txSeq := 0, rxSeq := 0, ackV := false, txCnt := [0, 0, 0, 0], txFreed := [0, 0, 0, 0], freed := [0, 0, 0, 0],
    linked := [0, 0, 0, 0], held := [0, 0, 0, 0], rxbuf := [], frags := [], relay := [], sinceV0 := [] }
  let s2 : State := { s1 with stakes := mmap Stake.zero (fun _ y =>
    { y with txq := y.txq.map (fun f => if f.rx = some n then { f with rx := none } else f) }) s1.stakes }
  (s2.logEv 0x1A 4 4 n (6 + 64) peer).cutAll n

/-- A good ID flit (R169, R210, R407, R432). The one that brings ACK 1 is answered once more where no ID flit of this end has carried
ACK 1 yet, as the far end waits for that (log entry 17). -/
def State.goodId (s : State) (n : Nat) (b : List Byte) : State :=
  let x := s.stake n
  let die := leAt b 2 2
  let dieBad := decide (die ≠ s.img.cfg.stkPeer n) || decide (leAt b 8 2 ≠ s.own)
    || decide (s.img.cfg.stkLevel n ≠ diffTop s.own die)
  let digBad := decide (leAt b 10 8 ≠ s.img.digest.toNat)
  let fl := byteAt b 18
  let s1 := s.setStake n { x with peer := some (BitVec.ofNat 16 die) }
  if dieBad ∨ digBad then s1.peerBad n die dieBad digBad
  else
    let s2 := if x.served && fl.getLsbD 0 && x.idRx.isNone then s1.peerRestarted n die else s1
    s2.onStake n (fun x =>
      let y := { x with idRx := some (b.take 19), idAck := x.idAck || fl.getLsbD 1 }
      if y.idAck && decide (y.step = 6) then
        { y with step := 7, pnum := 0, ctlq := y.ctlq ++ (if y.idSent then [] else [.id]) ++ [.probe 0] }
      else y)

/-- ACK_TIMEOUT in ns of a round trip in sixteenths: twice it, a multiple of 8 ns, at least 200 ns (R199). -/
def ackTimeout (rtt : Nat) : Nat := max 200 (cdiv (2 * rtt) 128 * 8)

/-- Step 8 (R208): the stake enters service; the replay of what is unacknowledged comes first, and a SYNC that waited
goes out. -/
def State.stakeUp (s : State) (n rtt : Nat) : State :=
  let x := s.stake n
  let y : Stake := { x with st := .inService, step := 0, rtt := BitVec.ofNat 20 rtt, hopdly := BitVec.ofNat 20 (rtt / 2),
                            ackto := BitVec.ofNat 16 (ackTimeout rtt), served := true, syncDue := false, sinceLk := 0 }
  let s1 := s.setStake n (y.startReplay 0).1
  if x.syncDue ∧ s.sendsTime = true then s1.sendSync n else s1

/-- An attempt of Table SK-11 failed (R208): PHY reset, or down after the fourth. -/
def State.trainFail (s : State) (n : Nat) : State :=
  let x := s.stake n
  let s1 := s.logEv 0x1A 4 4 n x.step ((x.peer.map BitVec.toNat).getD 0)
  if 3 ≤ x.attempt then s1.goDown n 4
  else s1.setStake n { x.train x.cand (x.attempt + 1) with phyRst := true }

/-- The hold time of the current probe has come: one round trip is known (R213). -/
def State.probed (s : State) (n h : Nat) : State :=
  let x := s.stake n
  match x.probeT, x.probeA with
  | some a1, some a2 =>
    let ts := x.trips ++ [a2 - a1 - h]
    if ts.length < 16 then
      s.setStake n { x with trips := ts, pnum := x.pnum + 1, probeT := none, probeA := none, ctlq := x.ctlq ++ [.probe (x.pnum + 1)] }
    else
      let mean := ts.foldl (fun a b => a + b) 0 / 16
      let s1 := s.setStake n { x with trips := ts, probeT := none, probeA := none }
      if 16000 < mean then s1.trainFail n else s1.stakeUp n mean
  | _, _ => s

/-- A good TRAIN flit (Table SK-18). -/
def State.goodTrain (s : State) (n el : Nat) (f : RxFlit) : State :=
  let x := s.stake n
  let b := f.body
  let p := leAt b 2 2
  let tr := decide (x.st = .training)
  match leAt b 0 2 with
  | 1 => if tr then s.goodId n b else s
  | 2 => if tr && decide (x.step < 7) then s else s.setStake n { x with ctlq := x.ctlq ++ [.ret p (s.now16 + el)] }
  | 3 => if tr && decide (x.step = 7) && decide (p = x.pnum) && x.probeT.isSome then s.setStake n { x with probeA := some (s.now16 + el) } else s
  | 4 => if tr && decide (x.step = 7) && decide (p = x.pnum) then s.probed n (leAt b 4 4) else s
  | _ => s

/-! ### A flit arrives (R186, R187, R198) -/

/-- Which flit a command says arrives; of a good flit the header tells. -/
inductive FKind where
  | idle | data | link | train
  deriving DecidableEq, Repr

/-- Count what the code found, and the codeword rate of R214. -/
def Stake.count (x : Stake) (f : RxFlit) (ctl : Bool) : Stake :=
  let slot := x.slotRun + 1
  { x with corr := satAdd x.corr f.corr, uncorr := satAdd x.uncorr f.uncorr, crcfail := if f.crcBad then satInc x.crcfail else x.crcfail,
           badctl := if !f.good && ctl then satInc x.badctl else x.badctl, slotRun := slot,
           badRun := x.badRun.filter (fun b => decide (slot < b + 10000)) ++ List.replicate f.uncorr slot }

/-- A good flit by its header. -/
def State.goodFlit (s : State) (n el : Nat) (f : RxFlit) : State :=
  let s0 := if f.hdr.ackV then s.onStake n (fun x => x.acked (BitVec.ofNat 12 f.hdr.ack)) else s
  let s1 := if (s0.stake n).rbuf = [] ∧ (s0.stake n).txq = [] then s0.closed n else s0
  if f.hdr.resv ∨ 3 < f.hdr.ftype then s1.proto n f.hdr.ftype f.hdr.bits
  else
    match f.hdr.ftype with
    | 0 => s1
    | 1 => s1.goodData n el f
    | 2 => s1.goodLink n f
    | _ => s1.goodTrain n el f

/-- A flit of 264 wire bytes arrives on stake `n`. -/
def State.rxFlit (s : State) (n el : Nat) (k : FKind) (wire : List Byte) : State :=
  if (s.stake n).framed = false then s
  else
    let f := readFlit (padTo 264 wire)
    let s1 := s.onStake n (fun x => x.count f (decide (k ≠ .data)))
    let s2 := if f.good then s1.goodFlit n el f
      else if k = .data ∧ (s1.stake n).st = .inService then s1.onStake n Stake.nakStart else s1
    let x := s2.stake n
    ((if x.st = .inService ∧ 64 ≤ x.badRun.length then s2.retrain n 5 x.lanes else s2).rxAll n).settle

def execDataFlitReceive (n : Fin 16) (wire : List Byte) (el : BitVec 10) (s : State) : Host.Outcome State Fault Refusal :=
  live s (fun s => s.rxFlit n.val el.toNat .data wire)

def execLinkFlitReceive (n : Fin 16) (wire : List Byte) (s : State) : Host.Outcome State Fault Refusal :=
  live s (fun s => s.rxFlit n.val 0 .link wire)

def execTrainFlitReceive (n : Fin 16) (wire : List Byte) (el : BitVec 10) (s : State) : Host.Outcome State Fault Refusal :=
  live s (fun s => s.rxFlit n.val el.toNat .train wire)

def execIdleFlitReceive (n : Fin 16) (wire : List Byte) (s : State) : Host.Outcome State Fault Refusal :=
  live s (fun s => s.rxFlit n.val 0 .idle wire)

/-! ### Timers of a stake -/

/-- The stake is in service. -/
def State.up_ (s : State) (n : Nat) : Bool := decide ((s.stake n).st = .inService)

/-- ACK_TIMEOUT (R199, R201). -/
def execAckTimeout (n : Fin 16) (s : State) : Host.Outcome State Fault Refusal :=
  live s (fun s =>
    let x := s.stake n.val
    if s.up_ n.val = false ∨ x.rbuf = [] then s
    else
      let r := x.startReplay 0
      let s1 := s.setStake n.val r.1
      if r.2 then s1.retrain n.val 3 r.1.lanes else s1)

/-- NAK_REPEAT (R198). -/
def execNakRepeat (n : Fin 16) (s : State) : Host.Outcome State Fault Refusal :=
  live s (fun s => if s.up_ n.val ∧ (s.stake n.val).nak = true then s.sendLink n.val else s)

/-- LINK_FLIT_DUE (R202). -/
def execLinkFlitDue (n : Fin 16) (s : State) : Host.Outcome State Fault Refusal :=
  live s (fun s => if s.up_ n.val then s.sendLink n.val else s)

/-- REPLAY_SHADOW_END (R344): not before the NAK state or the training has ended. -/
def execReplayShadowEnd (n : Fin 16) (s : State) : Host.Outcome State Fault Refusal :=
  live s (fun s => if s.up_ n.val ∧ (s.stake n.val).nak = false then s.onStake n.val (fun x => { x with shadow := false }) else s)

/-- ID_FLIT_DUE (R210): every 64 flit slots of step 6 until the far end has acknowledged. -/
def execIdFlitDue (n : Fin 16) (s : State) : Host.Outcome State Fault Refusal :=
  live s (fun s =>
    let x := s.stake n.val
    if x.st = .training ∧ x.step = 6 ∧ x.idAck = false ∧ 63 ≤ x.sinceLk then s.sendTrain n.val .id else s)

/-- PROBE_RETRY (R210): the same PNUM again. -/
def execProbeRetry (n : Fin 16) (s : State) : Host.Outcome State Fault Refusal :=
  live s (fun s =>
    let x := s.stake n.val
    if x.st = .training ∧ x.step = 7 then s.sendTrain n.val (.probe x.pnum) else s)

/-! ### Training words (R209, R211, Table SK-17) -/

/-- The lane test of this end is complete: every ready candidate lane has passed, or 8 µs of deskew and 12 µs of test
have gone by, 15,625 words at 1.28 ns (Table SK-11; log entry 17). -/
def Stake.tested (x : Stake) : Bool :=
  let ls := (List.range 8).filter (fun i => (x.lanesReady x.cand).getLsbD i)
  ls.all (fun i => (mget LaneRx.zero x.laneRx i).pass) || ls.any (fun i => decide (15625 ≤ (mget LaneRx.zero x.laneRx i).seen))

/-- Lane sets of Table SK-12a, widest and lowest first. -/
def laneSets (all : BitVec 8) : List (Nat × BitVec 8) :=
  ([(8, [0xFF]), (4, [0x0F, 0xF0]), (2, [0x03, 0x0C, 0x30, 0xC0]), (1, [1, 2, 4, 8, 16, 32, 64, 128])] : List (Nat × List (BitVec 8))).flatMap
    (fun x => (x.2.filter (fun m => decide (m &&& all = m))).map (fun m => (x.1, m)))

/-- The widest set within the lanes (R211). -/
def widest (all used : BitVec 8) : Option (Nat × BitVec 8) := (laneSets all).find? (fun x => decide (x.2 &&& used = x.2))

/-- GOOD as the far end sent it with MASKV on a lane that passed. -/
def Stake.farMask (x : Stake) : Option (BitVec 8) :=
  (x.laneRx.find? (fun l => l.2.pass && l.2.maskV)).map (fun l => l.2.far)

/-- Step 5 (R211): masks exchanged and the width chosen; a narrower one is logged (Table SK-12). -/
def State.chooseWidth (s : State) (n : Nat) : State :=
  let x := s.stake n
  match x.farMask with
  | none => s
  | some far =>
    let good := x.cand &&& x.mask.getD 0 &&& far
    match widest (s.img.cfg.lanesOf n) good with
    | none => s.setStake n { x with good := good }
    | some (w, m) =>
      let y : Stake := { x with good := good, width := w, lanes := m, step := 6, ctlq := [.id] }
      let s1 := s.setStake n y
      if w < x.width then (s1.logEv 0x18 4 4 n x.widthWord y.widthWord).attn 4 else s1

/-- One lane's receiver after a word; the far end's GOOD is final with its first MASKV 1. -/
def LaneRx.take (l : LaneRx) (port lane : Nat) (w : Nat) : LaneRx :=
  let cnt := fld w 31 16
  let ok := decide (fld w 2 0 = lane) && decide (fld w 5 3 = port) && decide (l.cnt = some (BitVec.ofNat 16 cnt - 1#16))
    && decide (fld w 255 32 = pattern cnt port lane)
  let run := if ok then l.run + 1 else 0
  { cnt := some (BitVec.ofNat 16 cnt), seen := l.seen + 1, run := run, pass := l.pass || decide (4096 ≤ run),
    maskV := l.maskV || w.testBit 6, far := if w.testBit 6 ∧ l.maskV = false then BitVec.ofNat 8 (fld w 15 8) else l.far }

/-- CNT of a training word. -/
def cntOf (w : BitVec 256) : BitVec 16 := w.extractLsb' 16 16

/-- Words of one deskew buffer that precede a CNT have no counterpart on the other lanes and leave it. -/
def dropBefore (c : BitVec 16) (b : List (BitVec 256)) : List (BitVec 256) :=
  b.dropWhile (fun w => precedes 16 (cntOf w).toNat c.toNat)

/-- The deskew buffers of the ready candidate lanes (R178): once each holds the word of one CNT, that row leaves them and the lanes
are aligned. -/
def Stake.deskew (x : Stake) : Stake :=
  let ls := laneList (x.lanesReady x.cand)
  let heads := ls.map (fun i => (mget [] x.desk i).head?)
  if heads.all (fun h => h.isSome) = false then x
  else
    let late := (heads.filterMap id).foldl (fun a w => if precedes 16 a.toNat (cntOf w).toNat then cntOf w else a) (((heads.filterMap id).head?.map cntOf).getD 0)
    let d := ls.foldl (fun m i => mput [] m i (dropBefore late (mget [] m i))) x.desk
    if ls.all (fun i => decide ((mget [] d i).head?.map cntOf = some late)) then
      { x with aligned := true, desk := ls.foldl (fun m i => mput [] m i (mget [] m i).tail) d }
    else { x with desk := d }

/-- A word is taken from the PHY into the lane's deskew buffer, which holds 8 words: what lies further apart is lost (R178). -/
def Stake.takeWord (x : Stake) (lane : Nat) (w : BitVec 256) : Stake :=
  let b := mget [] x.desk lane ++ [w]
  { x with rxd := mput 0 x.rxd lane w, desk := mput [] x.desk lane (b.drop (b.length - 8)) }.deskew

/-- Steps 2 to 4 as the receiver goes on: words arrive, the ready lanes are deskewed, the test ends. -/
def Stake.trainStep (x : Stake) : Nat :=
  let ls := laneList (x.lanesReady x.cand)
  if x.tested then 5
  else if x.aligned || ls.any (fun i => decide (6250 ≤ (mget LaneRx.zero x.laneRx i).seen)) then 4
  else 3

/-- TRAINING_WORD on a lane (R209, R211): with the end of the lane test this end's mask is final. -/
def State.trainWord (s : State) (n lane : Nat) (w : BitVec 256) : State :=
  let x := s.stake n
  if x.st ≠ .training ∨ x.step < 2 ∨ 5 < x.step ∨ x.phyRst = true ∨ x.cand.getLsbD lane = false then s
  else
    let l := (mget LaneRx.zero x.laneRx lane).take (n / 2) lane w.toNat
    let y : Stake := ({ x with laneRx := mput LaneRx.zero x.laneRx lane l }).takeWord lane w
    let step := max y.step y.trainStep
    let s1 := s.setStake n { y with step := step, mask := if step = 5 ∧ y.mask = none then some y.passMask else y.mask }
    if step = 5 then s1.chooseWidth n else s1

def execTrainingWord (n : Fin 16) (lane : Fin 8) (w : BitVec 256) (s : State) : Host.Outcome State Fault Refusal :=
  live s (fun s => s.trainWord n.val lane.val w)

/-- TRAINING_TIMEOUT (R208): 50 µs since SK_PHY_RDY. -/
def execTrainingTimeout (n : Fin 16) (s : State) : Host.Outcome State Fault Refusal :=
  live s (fun s =>
    let x := s.stake n.val
    if x.st = .training ∧ x.phyRst = false ∧ 2 ≤ x.step then (s.trainFail n.val).settle else s)

/-- PHY_RESET_DONE (R208): the next attempt begins. -/
def execPhyResetDone (n : Fin 16) (s : State) : Host.Outcome State Fault Refusal :=
  live s (fun s =>
    let x := s.stake n.val
    if x.st = .training ∧ x.phyRst = true then s.setStake n.val { x.train x.cand x.attempt with phyRst := false } else s)

/-! ### The PHY's pins (Table SK-1, R172, R208, R214) -/

/-- The logical stakes of a physical port. -/
def portStakes (p : Nat) : List Nat := [2 * p, 2 * p + 1]

/-- SK_PHY_RDY_RISE: a stake that waits in step 1 goes on to step 2 with the first of its lanes (log entry 95). -/
def execSkPhyRdyRise (p : Fin 8) (lanes : BitVec 8) (s : State) : Host.Outcome State Fault Refusal :=
  live s (fun s => (portStakes p.val).foldl (fun t n =>
    t.onStake n (fun x =>
      let y := { x with rdy := x.rdy ||| lanes }
      if y.st = .training ∧ y.step = 1 ∧ y.phyRst = false ∧ y.lanesReady y.cand ≠ 0 then { y with step := 2 } else y)) s)

/-- A lane in use is lost (R172, R214): the stake retrains, or is down when it has lost every lane. -/
def State.laneLost (s : State) (n cause : Nat) (lanes : BitVec 8) : State :=
  let x := s.stake n
  if x.st ≠ .inService ∨ x.lanes &&& lanes = 0 then s
  else if x.lanesReady x.lanes = 0 ∧ s.bondUp n = [n] then s.goDown n 0
  else s.retrain n cause x.lanes

/-- SK_PHY_RDY_FALL. -/
def execSkPhyRdyFall (p : Fin 8) (lanes : BitVec 8) (s : State) : Host.Outcome State Fault Refusal :=
  live s (fun s => ((portStakes p.val).foldl (fun t n =>
    (t.onStake n (fun x => { x with rdy := x.rdy &&& ~~~lanes })).laneLost n 2 lanes) s).settle)

/-- SK_LANE_FLT. -/
def execSkLaneFlt (p : Fin 8) (lanes : BitVec 8) (s : State) : Host.Outcome State Fault Refusal :=
  live s (fun s => ((portStakes p.val).foldl (fun t n =>
    (t.onStake n (fun x => { x with flt := x.flt ||| lanes })).laneLost n 1 lanes) s).settle)

/-! ### STK_CTRL (R418) -/

/-- RETRAIN: a stake in service or down trains again on all of its lanes (R211, R212). -/
def State.retrainReq (s : State) (n : Nat) : State :=
  if s.img.cfg.stkEn n = false ∨ s.inService = false then s
  else if (s.stake n).st = .inService ∨ (s.stake n).st = .down then s.retrain n 6 (s.img.cfg.lanesOf n)
  else s

def execRetrain (n : Fin 16) (s : State) : Host.Outcome State Fault Refusal := live s (fun s => s.retrainReq n.val)

/-- CLRCNT: the counters at +0x030 to +0x050. -/
def Stake.clrcnt (x : Stake) : Stake :=
  { x with corr := 0, uncorr := 0, crcfail := 0, replayC := 0, retrainC := 0, proto := 0, badctl := 0, txdata := 0, rxdata := 0 }

def execClrcnt (n : Fin 16) (s : State) : Host.Outcome State Fault Refusal :=
  live s (fun s => s.onStake n.val Stake.clrcnt)

end Sys2Proof.Machine
end

