-- ==== Sys2Proof/Machine/Tilth.lean ====
section
/-! DEFINITION. Tilth monitors, tempering and the ageing history (spec/09, R241 to R258). -/

namespace Sys2Proof.Machine

/-! ### Tap sets (R242, R247 to R251) -/

/-- One tap set of a monitor. -/
def Mon.set (m : Mon) (b : Bool) : TapSet := if b then m.b else m.a

/-- Change one tap set. -/
def Mon.onSet (m : Mon) (b : Bool) (f : TapSet → TapSet) : Mon := if b then { m with b := f m.b } else { m with a := f m.a }

/-- The tap value that the set holds or is about to take. -/
def TapSet.cur (t : TapSet) : Nat := t.pend.getD t.tap

/-- The monitor takes samples: its node position exists, or it is that of a stake, feeder or exchange tile (R243,
Table TL-1). -/
def State.monLive (s : State) (i : Nat) : Bool :=
  if i < 1023 then
    let p := s.img.cfg.nodePos i
    s.cfgShown && decide (i ≤ s.img.cfg.slath) && decide (s.img.cfg.memPorts s.img.cfg.leaves.toNat p.1 p.2 ≠ [])
  else decide (1024 ≤ i) && decide (i ≤ 1036)

/-- Windows count anew for SETTLED: a tap set or τ has changed (R253). -/
def State.unsettle (s : State) : State :=
  { s with tilth := { s.tilth with mons := mmap Mon.zero (fun _ m => { m with quiet := 0 }) s.tilth.mons } }

/-- Tempering is settled: sixteen windows without a change (R253). -/
def State.settled (s : State) : Bool := s.tilth.mons.any (fun m => decide (16 ≤ m.2.quiet))

/-- τ within its range (R252). -/
def tauClamp (t : Nat) : Nat := max 600 (min 4095 t)

/-- τ takes a value. -/
def State.setTau (s : State) (t : Nat) : State :=
  if tauClamp t = s.tilth.tau then s
  else ({ s with tilth := { s.tilth with tau := tauClamp t } }).unsettle

/-- The tap set is held by TIL_FORCE (R269). -/
def State.isForced (s : State) (i : Nat) (b : Bool) : Bool := s.debug && decide (s.tilth.forced = some (i, b))

/-- Raise a tap set by `n` taps, not above 63, and τ with it (R252). A forced set stays. -/
def State.raiseTap (s : State) (i : Nat) (b : Bool) (n : Nat) : State :=
  if s.isForced i b then s
  else
    let old := ((s.mon i).set b).cur
    let new := min 63 (old + n)
    if new = old then s
    else (s.setMon i ((s.mon i).onSet b (fun t => { t with pend := some new }))).setTau (s.tilth.tau + 8 * (new - old))

/-- TAP_CHANGE_APPLY (R251): a pending change takes effect between two handshakes. -/
def State.applyTap (s : State) (i : Nat) (b : Bool) : State :=
  match ((s.mon i).set b).pend with
  | none => s
  | some v =>
    let s1 := s.setMon i ((s.mon i).onSet b (fun t => { t with tap := v, pend := none }))
    if v = ((s.mon i).set b).tap then s1
    else ({ s1 with tilth := { s1.tilth with dirty := true } }).unsettle

def execTapChangeApply (mon : Fin 1040) (setB : Bool) (s : State) : Host.Outcome State Fault Refusal :=
  live s (fun s => s.applyTap mon.val setB)

/-! ### Samples (R244, R248, R249) -/

/-- The minimum of a sample and what the window holds. -/
def smaller (a : Option Int) (b : Int) : Option Int := match a with | none => some b | some x => some (min x b)

/-- A slack as the reference delay line gives it, in steps of 4 ps, downward; and a handshake time, upward (R244; log entry 53). -/
def slack4 (x : Int) : Int := 4 * (x / 4)
def time4 (x : Nat) : Nat := 4 * cdiv x 4

/-- One sample of a tap set: slack and handshake time in ps. A negative slack is below SLACK_HARD too, and counts in both (log
entry 53). -/
def State.sample (s : State) (i : Nat) (b : Bool) (slack0 : Int) (tmax0 : Nat) : State :=
  if s.monLive i = false then s
  else
    let slack := slack4 slack0
    let tmax := time4 tmax0
    let s1 := s.setMon i ((s.mon i).onSet b (fun t => { t with smin := smaller t.smin slack, tmax := max t.tmax tmax, cnt := t.cnt + 1 }))
    if slack < 0 then
      let s2 := s1.raiseTap i b 8
      let s3 := (s2.logEv 0x1C 6 11 i (b1 b) ((s2.mon i).set b).cur).attn 5
      { s3 with tilth := { s3.tilth with neg := satInc s3.tilth.neg, hard := satInc s3.tilth.hard } }
    else if slack < 16 then
      let s2 := s1.raiseTap i b 4
      { s2 with tilth := { s2.tilth with hard := satInc s2.tilth.hard } }
    else s1

def execMonitorSample (mon : Fin 1040) (setB : Bool) (slack : Int) (tmax : Nat) (s : State) : Host.Outcome State Fault Refusal :=
  live s (fun s => s.sample mon.val setB slack tmax)

/-! ### The end of a window (R245, R247, R250, R252) -/

/-- Tempering of one tap set at the end of its window. A raise counts where a tap is raised. -/
def State.temper (s : State) (i : Nat) (b : Bool) : State :=
  let t := (s.mon i).set b
  let q := decide (256 ≤ t.cnt)
  let s1 : State := match t.smin with
    | some m =>
      if m < 40 ∧ s.isForced i b = false then
        let r := s.raiseTap i b (cdiv (64 - m).toNat 8)
        if t.cur < 63 then { r with tilth := { r.tilth with raise := satInc r.tilth.raise } } else r
      else s
    | none => s
  let high := match t.smin with | some m => decide (120 < m) | none => false
  let run := if q = false then t.run else if high then t.run + 1 else 0
  if run < 16 then s1.setMon i ((s1.mon i).onSet b (fun t => { t with run := run }))
  else
    let s2 := s1.setMon i ((s1.mon i).onSet b (fun t => { t with run := 0 }))
    if t.cur = 0 ∨ s.isForced i b = true then s2
    else
      let s3 := s2.setMon i ((s2.mon i).onSet b (fun t => { t with pend := some (t.cur - 1) }))
      { s3 with tilth := { s3.tilth with lower := satInc s3.tilth.lower } }

/-- The window's minimum over both sets in 4 ps units; none where the spec gives no figure (no sample, or negative). -/
def Mon.sminShown (m : Mon) : Option Nat :=
  let v := match m.a.smin, m.b.smin with
    | none, x => x
    | x, none => x
    | some x, some y => some (min x y)
  match v with
  | some x => if x < 0 then none else some (min 255 (x.toNat / 4))
  | none => none

/-- The largest TMAX over all monitors (R252). -/
def State.candidate (s : State) : Nat := s.tilth.mons.foldl (fun a m => max a m.2.lastTmax) 0

/-- τ at the end of a window of monitor `i`; `q` when the window qualifies for some tap set: one that does not breaks the run of
sixteen (R252). -/
def State.tauWindow (s : State) (i : Nat) (q : Bool) : State :=
  let c := s.candidate
  let setLow (n : Nat) : State := s.setMon i { s.mon i with low := n }
  if s.tilth.tau < c + 20 then
    let s1 : State := { s with tilth := { s.tilth with
      tauCand := 0, mons := mmap Mon.zero (fun _ m => { m with low := 0 }) s.tilth.mons } }
    if s.tilth.tau < c then s1.setTau c else s1
  else if q = false then setLow 0
  else
    let t := max s.tilth.tauCand c
    if (s.mon i).low + 1 < 16 then
      let s1 := setLow ((s.mon i).low + 1)
      { s1 with tilth := { s1.tilth with tauCand := t } }
    else
      let s1 : State := { s with tilth := { s.tilth with
        tauCand := 0, mons := mmap Mon.zero (fun _ m => { m with low := 0 }) s.tilth.mons } }
      s1.setTau t

/-- The window of monitor `i` has ended: by the counter, or by its samples; by samples alone while REFCLK is lost
(R245, Table TL-6). -/
def State.windowOver (s : State) (i : Nat) : Bool :=
  let m := s.mon i
  (!s.time.stopped && s.reached (m.start + 65536#64)) || decide (4096 ≤ m.a.cnt) || decide (4096 ≤ m.b.cnt)

/-- TILTH_WINDOW_END. -/
def State.windowEnd (s : State) (i : Nat) : State :=
  if s.windowOver i = false then s
  else
    let m := s.mon i
    let q := decide (256 ≤ m.a.cnt) || decide (256 ≤ m.b.cnt)
    let r : Nat × State := match m.sminShown with
      | some v => (v, s)
      | none => (s.freeNext.1.toNat % 256, s.freeNext.2)
    let s1 := r.2.setMon i { m with lastSmin := r.1, lastTmax := min 4095 (max m.a.tmax m.b.tmax), quiet := m.quiet + 1 }
    let s2 := ((s1.tauWindow i q).temper i false).temper i true
    let fresh (t : TapSet) : TapSet := { t with smin := none, tmax := 0, cnt := 0 }
    let m2 := s2.mon i
    let s3 := s2.setMon i { m2 with a := fresh m2.a, b := fresh m2.b, start := s.nowInt }
    { s3 with tilth := { s3.tilth with snapRdy := s3.tilth.snapRdy || s3.tilth.snapReq } }

def execTilthWindowEnd (mon : Fin 1040) (s : State) : Host.Outcome State Fault Refusal := live s (fun s => s.windowEnd mon.val)

/-- CALIBRATION (R246): every 2^20 ns, while REFCLK runs. -/
def execCalibration (s : State) : Host.Outcome State Fault Refusal :=
  live s (fun s =>
    if s.time.stopped = false ∧ s.reached (s.tilth.calib + 0x100000#64) = true then
      { s with tilth := { s.tilth with calib := s.nowInt } }
    else s)

/-! ### The ageing history (R255 to R258) -/

/-- The bits of word `w` of the window that are no reserved field: reserved bits ignore writes and read 0 (R10, Table TL-3). -/
def histMask (w : Nat) : Word :=
  if w = 2 then 0x0000FFFF else if w = 3 then 0x00000FFF else if w = 6 ∨ w = 7 then 0
  else if 8 ≤ w ∧ w ≤ 526 then 0x0FFF0FFF else 0xFFFFFFFF

/-- Word `w` of the window. -/
def State.histWord (s : State) (w : Nat) : Word := mget 0#32 s.tilth.hist w

/-- The first 527 words of the window as bytes. -/
def State.histBytes (s : State) : List Byte := wordsBytes ((List.range 527).map s.histWord)

/-- ENTRY of a monitor: its taps, and 0 for an unused one (Table TL-3). -/
def State.histEntry (s : State) (i : Nat) : Nat :=
  if i = 1023 ∨ 1037 ≤ i then 0 else (s.mon i).a.tap % 64 + pl ((s.mon i).b.tap % 64) 6

/-- Whole hours of the counter since the load. -/
def State.ageHours (s : State) : Word :=
  s.tilth.ageBase + BitVec.ofNat 32 ((s.nowInt - s.tilth.ageFrom).toNat / 3600000000000)

/-- The record of this instant without its CRC (Table TL-3). -/
def State.record (s : State) : List Word :=
  let w0 : Word := BitVec.ofNat 32 (1 + pl 1038 16)
  [w0, ~~~w0, BitVec.ofNat 32 s.own, BitVec.ofNat 32 s.tilth.tau, s.ageHours, s.tilth.saves + 1, 0, 0]
    ++ (List.range 519).map (fun i => BitVec.ofNat 32 (s.histEntry (2 * i) + pl (s.histEntry (2 * i + 1)) 16))

/-- SNAPSHOT_COPY (R256). -/
def State.snapCopy (s : State) : State :=
  if s.tilth.snapReq = false ∨ s.tilth.snapRdy = false then s
  else
    let ws := s.record
    let h := (ws ++ [crc32c (wordsBytes ws)]).zipIdx.foldl (fun m x => mput 0#32 m x.2 x.1) s.tilth.hist
    { s with tilth := { s.tilth with hist := h, dirty := false, snapReq := false, snapRdy := false, saves := s.tilth.saves + 1 } }

def execSnapshotCopy (s : State) : Host.Outcome State Fault Refusal := live s (fun s => s.snapCopy)

/-- Why a record is rejected: REASON of TIL_HIST_CTRL, 0 for a valid record (R257). -/
def State.histReason (s : State) : Nat :=
  let w := s.histWord
  if w 1 ≠ ~~~(w 0) then 1
  else if w 0 ≠ BitVec.ofNat 32 (1 + pl 1038 16) then 2
  else if wf_ (w 2) 15 0 ≠ s.own then 3
  else if w 527 ≠ crc32c s.histBytes then 4 else 0

/-- The taps of a monitor from the record: the stored value plus 8, not above 63. A set that TIL_FORCE holds stays at FTAP (R269). -/
def State.histMon (s : State) (i : Nat) : Mon :=
  let e := wf_ (s.histWord (8 + i / 2)) (if i % 2 = 0 then 15 else 31) (if i % 2 = 0 then 0 else 16)
  let m := s.mon i
  let load (b : Bool) (t : TapSet) (v : Nat) : TapSet := if s.isForced i b then t else { t with tap := min 63 (v + 8), pend := none }
  { m with a := load false m.a (e % 64), b := load true m.b (fld e 11 6) }

/-- LOAD of the window (R257, R392). -/
def State.histLoad (s : State) : State :=
  let st (t : State) (v : BitVec 2) (r : Nat) : State := { t with tilth := { t.tilth with hstate := v, hreason := BitVec.ofNat 3 r } }
  if s.img.st ≠ .empty ∧ s.img.st ≠ .refused then st s 3 0
  else
    let r := s.histReason
    if r ≠ 0 then st (s.logEv 0x21 5 11 0 r (wf_ (s.histWord 2) 15 0)) 2 r
    else
      let s1 := (List.range 1038).foldl (fun t i => if i = 1023 ∨ i = 1037 then t else t.setMon i (s.histMon i)) s
      let s2 := s1.setTau (wf_ (s.histWord 3) 11 0 + 64)
      let s3 : State := { s2 with tilth := { s2.tilth with ageBase := s.histWord 4, saves := s.histWord 5, ageFrom := s.nowInt, dirty := true } }
      st s3.unsettle 1 0

/-- A write of TIL_HIST_CTRL (Table TL-7). -/
def State.histCtrl (s : State) (v : Word) : State :=
  let s1 : State := if wbit v 0 then { s with tilth := { s.tilth with snapReq := true } } else s
  if wbit v 1 then s1.histLoad else s1

/-- SNAP (R256). -/
def execSnap (v : Word) (s : State) : Host.Outcome State Fault Refusal := live s (fun s => s.histCtrl v)

/-- HISTORY_LOAD (R257). -/
def execHistoryLoad (v : Word) (s : State) : Host.Outcome State Fault Refusal := live s (fun s => s.histCtrl v)

/-- TIL_FORCE (R269): acts only in debug mode; the forced value is applied under R251, and τ rises with a raise (R252). -/
def State.tilForce (s : State) (v : Word) : State :=
  if s.debug = false then s
  else
    let sel := (s.tilth.monSel.toNat, wbit v 1)
    let s1 : State := { s with tilth := { s.tilth with force := v.setWidth 8, forced := if wbit v 0 then some sel else none } }
    let old := ((s.mon sel.1).set sel.2).cur
    if wbit v 0 ∧ sel.1 < 1040 then
      let s2 := s1.setMon sel.1 ((s1.mon sel.1).onSet sel.2 (fun t => { t with pend := some (wf_ v 7 2) }))
      if old < wf_ v 7 2 then s2.setTau (s2.tilth.tau + 8 * (wf_ v 7 2 - old)) else s2
    else s1

def execTilForce (v : Word) (s : State) : Host.Outcome State Fault Refusal := live s (fun s => s.tilForce v)

end Sys2Proof.Machine
end

