-- ==== Sys2Proof/Machine/Power.lean ====
section
/-! DEFINITION. The power governor and THROTTLE (spec/09, R259 to R267). Currents are in mA, times in ns. -/

namespace Sys2Proof.Machine

/-- I_EST of an interval: handshakes of each class times the class's charge constant, over 32 ns (R259; the
constants are free values, log entry 3). -/
def iEstOf (counts : List Nat) : Nat := ((counts.zipIdx.map (fun x => x.1 * Config.chargeConst x.2)).foldl (fun a b => a + b) 0) / 32

/-- SLEW_LIMIT × 32 ns in mA: SLEW × 0.5 A/µs (R264). -/
def slewStep (slew : BitVec 7) : Nat := 16 * slew.toNat

/-- P for the next interval (R261): the THROTTLE cap, and I_ALLOW over I_FULL = 32 A × 800 ps / τ. -/
def paceOf (thr iAllow tau : Nat) : Nat := min (16 * (thr + 1)) (256 * iAllow * tau / 25600000)

/-- THROTTLE against THR_FLOOR: one entry for each continuous period below it (R267). -/
def State.floorCheck (s : State) : State :=
  let f := s.img.cfg.thrFloor
  if s.pwr.thr.toNat < f then
    let s1 := if s.pwr.belowRun then s else s.logEv 0x23 5 13 0 s.pwr.thr.toNat f
    { s1 with pwr := { s1.pwr with below := true, belowRun := true } }
  else { s with pwr := { s.pwr with belowRun := false } }

/-- An interval has passed: 32 ns of the counter, or, while REFCLK stands, of the control tile's own timer, whose end is the
command (R259, R260). -/
def State.intervalOver (s : State) : Bool := s.time.stopped || s.reached (s.pwr.start + 32#64)

/-- The end of one 32 ns interval (R259 to R265): `counts` are the handshakes completed in it by class, `demand` the
level that its admissions called for. The estimate rises by no more than SLEW_LIMIT × 32 ns (R262; log entry 93), and with
BALLAST_EN falls by no more. The SLEW of an interval is the one that stood when it began (R264). -/
def State.governor (s : State) (counts : List Nat) (demand : Nat) : State :=
  if s.intervalOver = false then s
  else
    let p := s.pwr
    let step := slewStep p.slewNow
    let sum := min (iEstOf counts) (p.iEst + step)
    let low := p.iEst - step
    let est := if p.ballEn then max sum low else sum
    let s1 : State := { s with pwr := { p with
      iEst := est, ballast := p.ballEn && decide (sum < low),
      paced := if p.pace.toNat < demand then satInc p.paced else p.paced, slewNow := p.slew, start := s.nowInt,
      pace := BitVec.ofNat 9 (paceOf p.thrMin.toNat (est + slewStep p.slew) s.tilth.tau), thrMin := p.thr } }
    s1.floorCheck

/-- GOVERNOR_INTERVAL (R259). -/
def execGovernorInterval (counts : List Nat) (demand : Nat) (s : State) : Host.Outcome State Fault Refusal :=
  live s (fun s => s.governor counts demand)

/-- THROTTLE_CHANGE (R265, R267): the smallest value sampled in the interval caps the next one. -/
def State.throttle (s : State) (v : BitVec 4) : State :=
  ({ s with pwr := { s.pwr with thr := v, thrMin := if v.toNat < s.pwr.thrMin.toNat then v else s.pwr.thrMin } }).floorCheck

def execThrottleChange (v : BitVec 4) (s : State) : Host.Outcome State Fault Refusal := live s (fun s => s.throttle v)

/-- Open-collective entries of this die in state OPEN, CLOSING or SUSPENDED (R264, R419). -/
def State.openEntries (s : State) : Nat :=
  (s.colls.filter (fun c => c.entry.isSome && decide (c.st ≠ .gather) && decide (c.st ≠ .queued))).length

/-- PWR_CFG_WRITE (R264). BALLAST_EN is an image field: it reads 0 before CHECKED (R412). -/
def State.pwrCfg (s : State) (v : Word) : State :=
  let n := wf_ v 6 0
  let ok := decide (1 ≤ n) && decide (n ≤ 64)
  let viol := ok && decide (n < s.pwr.slew.toNat) && decide (0 < s.openEntries)
  let s1 := if viol then s.logEv 0x22 5 13 0 n s.openEntries else s
  { s1 with pwr := { s1.pwr with
    slew := if ok then BitVec.ofNat 7 n else s1.pwr.slew, ballEn := if s.feat 9 && s.cfgShown then wbit v 7 else s1.pwr.ballEn,
    viol := s1.pwr.viol || viol } }

def execPwrCfgWrite (v : Word) (s : State) : Host.Outcome State Fault Refusal := live s (fun s => s.pwrCfg v)

end Sys2Proof.Machine
end

