-- ==== Sys2Proof/Machine/Image.lean ====
section
/-! DEFINITION. The structure image (spec/15, R397 to R407): framing, the load checks of Table SU-7, filling the
configuration, the sign-off and refusals. -/

namespace Sys2Proof.Machine

/-! ### Sections (R399, R400) -/

/-- One section as the loader finds it: TYPE, byte offset in the image, and its bytes. -/
structure Sec where
  ty    : Nat
  off   : Nat
  bytes : List Byte
  deriving DecidableEq, Repr

/-- Walk the sections; the second component is the offset of the first SHDR that fails a FRAME check. -/
def secWalk : Nat → List Byte → Nat → Option Nat → List Sec × Option Nat
  | 0, bs, off, _ => ([], if bs.isEmpty then none else some off)
  | n + 1, bs, off, prev =>
    if bs.isEmpty then ([], none)
    else
      let h := wordAt bs 0
      let ty := wf_ h 7 0
      let len := 64 * wf_ h 31 8
      let late := match prev with | some p => decide (ty ≤ p) | none => false
      if wordAt bs 4 ≠ ~~~h ∨ (8 < ty ∧ ty ≠ 0x7F) ∨ late = true ∨ len = 0 ∨ bs.length < len then ([], some off)
      else
        let r := secWalk n (bs.drop len) (off + len) (some ty)
        (⟨ty, off, bs.take len⟩ :: r.1, r.2)

/-- The section of a type; an absent one has no bytes. -/
def secOf (l : List Sec) (ty : Nat) : Sec := (l.find? (fun x => decide (x.ty = ty))).getD ⟨ty, 0, []⟩

def hasSec (l : List Sec) (ty : Nat) : Bool := l.any (fun x => decide (x.ty = ty))

/-- Byte offset of a section's CRC-32C. -/
def Sec.crcAt (x : Sec) : Nat := x.bytes.length - 4

/-- CRC-32C over every byte of the section before its CRC. -/
def Sec.crc (x : Sec) : Nat := (crc32c (x.bytes.take x.crcAt)).toNat

/-- `k` entries of `n` bytes; bytes past the end read 0. -/
def chunks (n : Nat) : Nat → List Byte → List (List Byte)
  | 0, _ => []
  | k + 1, bs => padTo n bs :: chunks n k (bs.drop n)

/-- Two blocks of bytes are complements of each other. -/
def complBytes (a b : List Byte) : Bool := decide (a.map (fun x => ~~~x) = b)

/-- The word at `lo` and its complement at `lo + 4` agree. -/
def complAt (bs : List Byte) (lo : Nat) : Bool := decide (wordAt bs (lo + 4) = ~~~(wordAt bs lo))

/-! ### The configuration that an image gives (Tables SU-5 and SU-6) -/

def tcfgNl (w : Word) : Nat := wf_ w 3 0
def tcfgCode (w : Word) (l : Nat) : Nat := wf_ w (2 * l + 3) (2 * l + 2)
def tcfgBufs (w : Word) : Nat := wf_ w 27 24
def tcfgRadix (w : Word) : List Nat := (List.range (tcfgNl w)).map (fun i => 2 ^ (tcfgCode w (i + 1) + 1))

/-- One group entry. -/
def groupOf (e : List Byte) : Group :=
  let h := wordAt e 0
  ⟨wbit h 12, wbit h 13, wordAt e 8, BitVec.ofNat 16 (leAt e 16 2), BitVec.ofNat 16 (leAt e 18 2), BitVec.ofNat 8 (leAt e 24 1),
    BitVec.ofNat 40 (leAt e 32 5), BitVec.ofNat 1024 (leAt e 64 128)⟩

def groupId (e : List Byte) : Nat := wf_ (wordAt e 0) 11 0

/-- The group entries of the GROUPS section. -/
def groupEntries (l : List Sec) : List (List Byte) :=
  let b := (secOf l 4).bytes
  let ng := leAt b 8 4
  if 1 ≤ ng ∧ ng ≤ 4096 then chunks 320 ng (b.drop 64) else []

/-- Entries of `n` bytes with their indices, where the word that `f` reads is not 0. -/
def listed (f : Nat → Nat) (es : List (List Byte)) : List (Nat × Nat) :=
  (es.zipIdx.map (fun x => (x.2, ofLe x.1))).filter (fun x => decide (f x.2 ≠ 0))

/-- The hoop policy entries that are not all zero. -/
def hoopEntries (l : List Sec) : Map (BitVec 64) :=
  if hasSec l 7 then (listed (fun v => v % 2 ^ 32) (chunks 8 49152 ((secOf l 7).bytes.drop 64))).map (fun x => (x.1, BitVec.ofNat 64 x.2))
  else []

/-- The expert-map entries that are not all zero. -/
def expertEntries (l : List Sec) : Map (BitVec 128) :=
  if hasSec l 8 then (listed (fun v => v % 2 ^ 64) (chunks 16 65536 ((secOf l 8).bytes.drop 64))).map (fun x => (x.1, BitVec.ofNat 128 x.2))
  else []

/-- The configuration of a checked image. -/
def cfgOf (l : List Sec) : Cfg :=
  let t := (secOf l 1).bytes
  let w := wordAt t 8
  let a := (secOf l 5).bytes
  { nl := tcfgNl w, radix := tcfgRadix w, bufs := tcfgBufs w, leaves := BitVec.ofNat 1024 (leAt t 64 128),
    stakes := if hasSec l 2 then wordsAt (secOf l 2).bytes 64 16 else [], arb := wordAt (secOf l 2).bytes 8,
    routes := if hasSec l 3 then wordsAt (secOf l 3).bytes 64 72 else [],
    groups := (groupEntries l).map (fun e => (groupId e, groupOf e)),
    adm0 := wordAt a 8, adm1 := wordAt a 12, adm2 := wordAt a 16, tmDie := BitVec.ofNat 16 (leAt (secOf l 6).bytes 8 2),
    hoopPol := hoopEntries l, hasMap := hasSec l 8, experts := expertEntries l }

/-! ### Load checks (Table SU-7); a fault is its section TYPE and its offset in the section -/

/-- A fault that lies in no byte of a section (R403). -/
def noByte : Nat × Nat := (0xFF, 0)

/-- Offsets, within one section, as faults of the image. -/
def faultsAt (l : List Sec) (ty : Nat) (offs : List Nat) : List (Nat × Nat) :=
  if hasSec l ty then offs.map (fun o => (ty, (secOf l ty).off + o)) else []

/-- `x` when the condition holds. -/
def failIf (b : Bool) (x : Nat) : List Nat := if b then [x] else []

/-- Checks 1 and 2, and an IMG_ADDR or IMG_LEN that breaks R399: what is known before any read. -/
def State.preFault (s : State) : Option (Nat × (Nat × Nat)) :=
  if s.accept &&& ~~~Config.featOffer ≠ 0 ∨ s.accept.getLsbD 0 = false then some (1, noByte)
  else if s.wl.ready = false then some (0xE, noByte)
  else if s.img.addr.toNat % 64 ≠ 0 ∨ s.img.len.toNat % 64 ≠ 0 ∨ s.img.len.toNat < 64 ∨ 4194304 < s.img.len.toNat then some (3, noByte)
  else none

/-- Check 4. -/
def crcFaults (l : List Sec) : List (Nat × Nat) :=
  (l.filter (fun x => decide (x.crc ≠ leAt x.bytes x.crcAt 4))).map (fun x => (x.ty, x.off + x.crcAt))

/-- Check 5. -/
def partialFaults (l : List Sec) (len : Nat) : List (Nat × Nat) :=
  let need := [0, 1, 4, 5, 6, 0x7F] ++ (if hasSec l 2 then [3] else [])
  if need.any (fun t => !hasSec l t) then [noByte]
  else
    let h := (secOf l 0).bytes
    faultsAt l 0 (failIf (decide (leAt h 40 4 ≠ len)) 40 ++ failIf (decide (leAt h 44 4 ≠ l.length)) 44)

/-- FILE_CRC recomputed: CRC-64 over every byte before TRAIL (R401). -/
def fileCrcOf (l : List Sec) : BitVec 64 :=
  (l.filter (fun x => decide (x.ty ≠ 0x7F))).foldl (fun c x => crc64Run c x.bytes) 0

/-- Check 6. -/
def fileFaults (l : List Sec) : List (Nat × Nat) :=
  faultsAt l 0x7F (failIf (decide ((fileCrcOf l).toNat ≠ leAt (secOf l 0x7F).bytes 8 8)) 8)

/-- Check 7. -/
def targetFaults (l : List Sec) (die : Nat) : List (Nat × Nat) :=
  let h := (secOf l 0).bytes
  faultsAt l 0 (failIf (!complAt h 8 || decide (leAt h 8 4 ≠ 1)) 8 ++ failIf (!complAt h 16 || decide (leAt h 16 2 ≠ die)) 16)

/-- Feature bits that the image uses (Table SU-3). -/
def featUsed (l : List Sec) (c : Cfg) : Nat :=
  let l4 := (List.range 16).any (fun n => c.stkEn n && decide (c.stkLevel n = 4)) || c.groups.any (fun g => g.2.active 4)
  1 + 2 * b1 (hasSec l 2 || hasSec l 3) + 4 * b1 l4 + 8 * b1 ((List.range 8).any (fun p => c.stkSplit (2 * p))) + 16 * b1 (hasSec l 8)

/-- Check 8. -/
def needFaults (l : List Sec) (c : Cfg) (accept : BitVec 64) : List (Nat × Nat) :=
  let req := BitVec.ofNat 64 (leAt (secOf l 0).bytes 32 8)
  faultsAt l 0 (failIf (decide (req &&& ~~~accept ≠ 0) || decide (BitVec.ofNat 64 (featUsed l c) &&& ~~~req ≠ 0)) 32)

/-- TCFG is legal (R149, R152, Table SU-6). -/
def tcfgOk (w : Word) : Bool :=
  let p := (tcfgRadix w).foldl (fun a b => a * b) 1
  decide (1 ≤ tcfgNl w) && decide (tcfgNl w ≤ 10)
    && (List.range 10).all (fun i => decide (tcfgCode w (i + 1) ≤ if i < tcfgNl w then 2 else 0))
    && decide (Config.placedPorts ≤ p) && decide (p ≤ 1024) && decide (2 ≤ tcfgBufs w) && decide (tcfgBufs w ≤ 8)

/-- Faults of the TREE body. -/
def treeFaults (l : List Sec) : List (Nat × Nat) :=
  let t := (secOf l 1).bytes
  let lv := padTo 128 (slice t 64 128)
  faultsAt l 1 (failIf (!complAt t 8 || !tcfgOk (wordAt t 8)) 8
    ++ failIf (!complBytes lv (padTo 128 (slice t 192 128)) || decide (2 ^ Config.placedPorts ≤ ofLe lv)) 64)

/-- A stake entry breaks R168, R170 or Table TR-5. -/
def stakeBad (c : Cfg) (n : Nat) : Bool :=
  let b := (List.range 16).filter (fun m => c.stkEn m && decide (c.stkBond m = c.stkBond n))
  let first := b.headD n
  c.stkEn n
    && (decide (c.stkLevel n = 0) || decide (4 < c.stkLevel n) || (decide (n % 2 = 1) && !c.stkSplit n)
      || (decide (c.stkBond n ≠ 0) && (decide (b.length < 2) || decide (8 ≤ b.idxOf n)
        || decide (c.stkPeer n ≠ c.stkPeer first) || decide (c.stkLevel n ≠ c.stkLevel first))))

/-- Faults of the STAKES body. -/
def stakeFaults (l : List Sec) (c : Cfg) : List (Nat × Nat) :=
  let w := c.arb
  faultsAt l 2 (failIf (!c.collFirst && (decide (wf_ w 15 8 = 0) || decide (wf_ w 23 16 = 0) || decide (wf_ w 31 24 = 0))) 8
    ++ ((List.range 16).filter (stakeBad c)).map (fun n => 64 + 4 * n))

/-- The level of a route-table entry by its place in the section. -/
def routeLevel (i : Nat) : Nat := if i < 8 then 1 else if i < 24 then 2 else if i < 40 then 3 else 4

/-- Faults of the ROUTES body (R163). -/
def routeFaults (l : List Sec) (c : Cfg) : List (Nat × Nat) :=
  faultsAt l 3 (((List.range 72).filter (fun i => decide (2 ^ fieldLo (routeLevel i) ≤ wf_ (wd c.routes i) 26 16))).map
    (fun i => 64 + 4 * i))

/-- Faults of one group entry, from byte 0 of the entry (R155, Table SU-6). -/
def groupFaults (die : Nat) (prev : Option Nat) (e : List Byte) : List Nat :=
  let g := groupOf e
  let bm := slice e 64 128
  failIf (!complAt e 0 || !g.v || (match prev with | some p => decide (groupId e ≤ p) | none => false)) 0
    ++ failIf (!complAt e 8) 8 ++ failIf (!complAt e 16) 16 ++ failIf (!complAt e 24) 24
    ++ failIf (decide (g.limit.toNat < 1000)) 32
    ++ failIf (!complBytes bm (slice e 192 128) || decide (g.memDie die ≠ decide (g.bitmap ≠ 0))) 64

/-- Faults of the GROUPS body. -/
def groupsFaults (l : List Sec) (die : Nat) : List (Nat × Nat) :=
  let es := groupEntries l
  let pv := none :: es.map (fun e => some (groupId e))
  faultsAt l 4 (failIf es.isEmpty 8
    ++ ((es.zip pv).zipIdx.flatMap (fun x => (groupFaults die x.1.2 x.1.1).map (fun o => 64 + 320 * x.2 + o))))

/-- `v` lies outside [lo, hi]. -/
def outside (v lo hi : Nat) : Bool := decide (v < lo) || decide (hi < v)

/-- Faults of the ADMISSION body (R240, Table PR-11). -/
def admFaults (l : List Sec) (c : Cfg) : List (Nat × Nat) :=
  let f (hi lo : Nat) : Nat := wf_ c.adm0 hi lo
  faultsAt l 5 (failIf (outside (f 7 0) 16 255 || outside (f 11 8) 1 15 || outside (f 15 12) 1 15 || outside (f 19 16) 1 15
      || outside (f 23 20) 1 15 || outside (f 27 24) 1 15) 8
    ++ failIf (decide (wf_ c.adm1 15 0 = 0)) 12
    ++ failIf (outside (wf_ c.adm2 10 0) 100 1600 || outside (wf_ c.adm2 21 11) 100 1600) 16)

/-- Faults of the TIME, HOOPS and EXPERTS bodies. -/
def tailFaults (l : List Sec) : List (Nat × Nat) :=
  faultsAt l 6 (failIf (!complAt (secOf l 6).bytes 8) 8)
    ++ faultsAt l 7 (((chunks 8 49152 ((secOf l 7).bytes.drop 64)).zipIdx.filter (fun x =>
        !complAt x.1 0 || (wbit (wordAt x.1 0) 13 && decide (wf_ (wordAt x.1 0) 11 0 = 0)))).map (fun x => 64 + 8 * x.2))
    ++ faultsAt l 8 ((chunks 16 65536 ((secOf l 8).bytes.drop 64)).zipIdx.flatMap (fun x =>
        failIf (decide (wordAt x.1 8 ≠ ~~~(wordAt x.1 0))) (64 + 16 * x.2)
          ++ failIf (decide (wordAt x.1 12 ≠ ~~~(wordAt x.1 4))) (68 + 16 * x.2)))

/-- Check 9. -/
def valueFaults (l : List Sec) (c : Cfg) (die : Nat) : List (Nat × Nat) :=
  treeFaults l ++ stakeFaults l c ++ routeFaults l c ++ groupsFaults l die ++ admFaults l c ++ tailFaults l

/-- Byte of a group entry that holds the mask of level `i` (Table SU-6). -/
def maskByte (i : Nat) : Nat := if i = 1 then 24 else if i = 4 then 8 else 16

/-- Check 10 (R157). -/
def ceilFaults (l : List Sec) (c : Cfg) (ceil : Nat) : List (Nat × Nat) :=
  faultsAt l 2 (((List.range 16).filter (fun n => c.stkEn n && decide (ceil < c.stkLevel n))).map (fun n => 64 + 4 * n))
    ++ faultsAt l 4 ((groupEntries l).zipIdx.flatMap (fun x =>
      ([4, 3, 2, 1].filter (fun i => (groupOf x.1).active i && decide (ceil < i))).map (fun i => 64 + 320 * x.2 + maskByte i)))

/-- Check 11 (R166). -/
def routeStakeFaults (l : List Sec) (c : Cfg) : List (Nat × Nat) :=
  faultsAt l 3 (((List.range 72).filter (fun i =>
    let e := wd c.routes i
    let n := wf_ e 3 0
    wbit e 4 && (!c.stkEn n || decide (routeLevel i < c.stkLevel n)))).map (fun i => 64 + 4 * i))

/-- Check 12 (R207). -/
def vcFaults (l : List Sec) (c : Cfg) : List (Nat × Nat) :=
  faultsAt l 2 (failIf ((List.range 16).any (fun n => c.stkEn n && decide (c.stkLevel n = 4)) && !c.collFirst) 8)

/-- The fault at the lowest byte offset of a check (R403). -/
def lowest (l : List (Nat × Nat)) : Option (Nat × Nat) :=
  l.foldl (fun a x => match a with | some y => if x.2 < y.2 then some x else some y | none => some x) none

/-- The first failing check of a list, with its REASON. -/
def firstFail : List (Nat × List (Nat × Nat)) → Option (Nat × (Nat × Nat))
  | [] => none
  | (r, l) :: rest => match lowest l with | some f => some (r, f) | none => firstFail rest

/-- The sections of an image, with the offset of a FRAME fault. -/
def sectionsOf (bs : List Byte) : List Sec × Option Nat := secWalk 11 bs 0 none

/-- Checks 3 to 12 over the bytes read in CHECK. -/
def State.checkImage (s : State) (bs : List Byte) : Option (Nat × (Nat × Nat)) :=
  let w := sectionsOf bs
  match w.2 with
  | some off => some (3, wf_ (wordAt (bs.drop off) 0) 7 0, off)
  | none =>
    let l := w.1
    match firstFail [(5, crcFaults l), (4, partialFaults l s.img.len.toNat), (6, fileFaults l), (7, targetFaults l s.own)] with
    | some f => some f
    | none =>
      let c := cfgOf l
      firstFail [(2, needFaults l c s.accept), (8, valueFaults l c s.own), (9, ceilFaults l c s.wl.ceil.toNat),
        (0xA, routeStakeFaults l c), (0xB, vcFaults l c)]

/-- Check 13: a CRC computed in APPLY differs from that of CHECK. -/
def changedFaults (a b : List Byte) : List (Nat × Nat) :=
  let l := (sectionsOf a).1
  let m := l.map (fun x => ({ x with bytes := slice b x.off x.bytes.length } : Sec))
  ((l.zip m).filter (fun x => decide (x.1.crc ≠ x.2.crc))).map (fun x => (x.1.ty, x.1.off + x.1.crcAt))
    ++ faultsAt l 0x7F (failIf (decide (fileCrcOf l ≠ fileCrcOf m)) 8)

/-! ### Loading (R402 to R406) -/

/-- Loader reads that are outstanding belong to no load any more. -/
def State.orphanLoader (s : State) : State :=
  { s with fdw := { s.fdw with reqs := s.fdw.reqs.map (fun r =>
      match r.kind with | .loadCheck _ => { r with kind := .orphan 64 } | .loadApply _ => { r with kind := .orphan 64 } | _ => r) } }

/-- Refuse the image (R403): STATE, REASON, ERRSEC and IMG_ERROFF, the entry and ATTN; anything applied is discarded. -/
def State.refuseImage (s : State) (reason : Nat) (at_ : Nat × Nat) : State :=
  let s1 := s.orphanLoader.clearAllHoops
  let s2 : State := { s1 with
    img := { s1.img with st := .refused, reason := BitVec.ofNat 4 reason, errsec := BitVec.ofNat 8 at_.1, erroff := BitVec.ofNat 23 at_.2,
                         cfg := Cfg.none, buf := [], buf2 := [], next := 0, digest := 0, fileCrc := 0 },
    pwr := { s1.pwr with ballEn := false } }
  ((s2.logEv 0x25 7 9 0 (reason + pl at_.1 8) at_.2).attn 6).floorCheck

/-- LOAD (R402, Table SU-10). -/
def State.load (s : State) (v : Word) : State :=
  if wbit v 0 = false ∨ s.wl.acc.isSome = true ∨ s.img.st = .check ∨ s.img.st = .apply ∨ s.img.st = .test then s
  else
    let s1 := if s.img.st = .inService ∨ s.img.st = .checked then s.invalidate else s
    let s2 : State := { s1 with
      img := { s1.img with st := .check, reason := 0, errsec := 0, erroff := 0, next := 0, buf := [], buf2 := [] },
      fdw := { s1.fdw with evtIn := mmap ⟨0, 0⟩ (fun _ e => { e with pend := 0 }) s1.fdw.evtIn },
      dbg := { s1.dbg with armed := false } }
    s2.floorCheck

def execLoad (v : Word) (s : State) : Host.Outcome State Fault Refusal := live s (fun s => s.load v)

/-- Beats of the image. -/
def State.imgBeats (s : State) : Nat := s.img.len.toNat / 64

/-- IMAGE_CHECK_DONE (R403): nothing until the whole image has been read, or a check before the first read has failed. -/
def State.checkDone (s : State) : State :=
  if s.img.st ≠ .check then s
  else
    match s.preFault with
    | some f => s.refuseImage f.1 f.2
    | none =>
      if s.img.buf.length < s.imgBeats then s
      else
        let bs := s.img.buf.flatMap (fun x => x.2)
        match s.checkImage bs with
        | some f => s.refuseImage f.1 f.2
        | none => { s with img := { s.img with st := .apply, next := 0, buf2 := [] } }

def execImageCheckDone (s : State) : Host.Outcome State Fault Refusal := live s (fun s => s.checkDone)

/-- The configuration stands and STATE reads CHECKED (R402 steps 3 and 4, R345, R412, Table TL-7). -/
def State.applied (s : State) (bs : List Byte) : State :=
  let l := (sectionsOf bs).1
  let s1 : State := { s with
    img := { s.img with st := .checked, cfg := cfgOf l, digest := BitVec.ofNat 64 (leAt (secOf l 0).bytes 24 8), fileCrc := fileCrcOf l,
                        buf := [], buf2 := [], next := 0 },
    pwr := { s.pwr with ballEn := s.feat 9 } }
  let s2 := s1.takePolicy
  ({ s2 with time := { s2.time with st := if s2.isMaster then .locked else s2.time.st } }).floorCheck

/-- IMAGE_APPLY_DONE (R402, check 13 of Table SU-7). -/
def State.applyDone (s : State) : State :=
  if s.img.st ≠ .apply ∨ s.img.buf2.length < s.imgBeats then s
  else
    let a := s.img.buf.flatMap (fun x => x.2)
    let b := s.img.buf2.flatMap (fun x => x.2)
    match lowest (changedFaults a b) with
    | some f => s.refuseImage 0xF f
    | none => s.applied b

def execImageApplyDone (s : State) : Host.Outcome State Fault Refusal := live s (fun s => s.applyDone)

/-- SIGNOFF (R404, R407): the write of IMG_SIGNOFF_HI. A TM_DIE other than the last one puts every die but the
master into FREE (R345). -/
def State.signoff (s : State) (v : Word) : State :=
  if s.img.st ≠ .checked then s
  else if v ++ s.img.signLo ≠ s.img.fileCrc then s.refuseImage 0xC noByte
  else
    let t := s.time
    let t1 : Time := if s.img.cfg.tmDie = t.tmDie ∨ s.isMaster = true then t
      else { t with st := .free, prevOff := none, syncRx := none, rejOffs := [] }
    ({ s with time := { t1 with tmDie := s.img.cfg.tmDie } }).enterService

def execSignoff (v : Word) (s : State) : Host.Outcome State Fault Refusal := live s (fun s => s.signoff v)

/-- A write of FEAT_ACCEPT_LO or _HI: only in EMPTY or REFUSED (R392). -/
def State.acceptWrite (s : State) (hi : Bool) (v : Word) : State :=
  if s.img.st = .empty ∨ s.img.st = .refused then
    { s with accept := if hi then v ++ s.accept.setWidth 32 else (s.accept >>> 32).setWidth 32 ++ v }
  else s

/-- FEAT_ACCEPT_WRITE. -/
def execFeatAcceptWrite (hi : Bool) (v : Word) (s : State) : Host.Outcome State Fault Refusal := live s (fun s => s.acceptWrite hi v)

end Sys2Proof.Machine
end

