-- ==== Sys2Proof/Machine/Suspend.lean ====
section
/-! DEFINITION. Suspending and resuming a group (R113 to R118, R422): the request, the record of Table CO-9, the
drain, the reload, and the DONE reports. -/

namespace Sys2Proof.Machine

def State.susp (s : State) (g : BitVec 12) : SuspG := mget SuspG.zero s.col.susp g.toNat
def State.setSusp (s : State) (g : BitVec 12) (x : SuspG) : State :=
  { s with col := { s.col with susp := mput SuspG.zero s.col.susp g.toNat x } }
/-- COL_SUSP_STATUS.STATE. -/
def State.suspState (s : State) (v : BitVec 3) : State := { s with col := { s.col with suspSt := v } }

/-- Set COL_SUSP_ST.STATE and the group that it is about. -/
def State.suspStart (s : State) (v : BitVec 3) (g : BitVec 12) : State :=
  { s with col := { s.col with suspSt := v, suspGrp := g } }

/-! ### The suspend record (Table CO-9) -/

/-- A record with its CRC-32C in the last four bytes of `n`. -/
def sealed (n : Nat) (bs : List Byte) : List Byte :=
  let b := padTo (n - 4) bs
  b ++ toLe 4 (crc32c b).toNat

/-- The header. -/
def State.suspHeader (s : State) (g : BitVec 12) (nc nw : Nat) : List Byte :=
  sealed 64 (toLe 4 g.toNat ++ toLe 4 (~~~(BitVec.ofNat 32 g.toNat)).toNat ++ toLe 8 s.img.digest.toNat ++ toLe 4 nc ++ toLe 4 nw
    ++ toLe 4 s.own)

/-- One collective entry; the fields "at the root" are 0 on other dies. RELEASED is what this die knows of it (log entry
86). -/
def State.suspColl (s : State) (c : Coll) : List Byte :=
  let root := decide (c.rd = s.own)
  let z (n : Nat) (v : Nat) : List Byte := toLe n (if root then v else 0)
  let st := if isStep c.aw then c.step else none
  sealed 128 (toLe 4 c.k.toNat ++ toLe 4 (~~~c.k).toNat ++ toLe 4 (b1 root) ++ toLe 4 (s.releasedHere c) ++ toLe 8 (c.remain % 2 ^ 40)
    ++ z 4 c.silt ++ z 4 c.osilt ++ z 4 c.contrib ++ z 8 c.digest.toNat ++ z 8 c.fp.toNat
    ++ z 4 (b1 c.noted + 2 * b1 st.isSome) ++ z 8 ((st.map (fun x => x.1.toNat)).getD 0) ++ wordsBytes (if root then c.trapWords else [0, 0, 0, 0]))

/-- One lane of a wale entry, 16 bytes. -/
def laneBytes : Lane → List Byte
  | .word w => toLe 16 (w.sig.toNat + pl w.exp.toNat 96 + pl (clsCode w.cls) 108 + pl w.res.toNat 110)
  | .raw p => toLe 16 p.toNat
  | .absent => toLe 16 0

/-- SITE word of a wale entry. The level of a stage combine goes into [21:19], and a wale held at the root slath
has SITE 3 (log entry 15). -/
def State.suspSite (s : State) (c : Coll) (pt : Option Point) (port : Nat) (mark raw : Bool) : Nat :=
  let x : Nat × Nat × Nat := match pt with
    | none => (3, s.img.cfg.slath, 0)
    | some (.stage l) => ((s.trapSite c (.stage l)).1, (s.trapSite c (.stage l)).2, l)
    | some p => ((s.trapSite c p).1, (s.trapSite c p).2, 0)
  x.1 + pl x.2.1 2 + pl port 12 + pl (b1 mark) 17 + pl (b1 raw) 18 + pl x.2.2 19

/-- The mask of present lanes travels in bytes [55:52] (log entry 15). -/
def presentMask (ls : List Lane) : Nat :=
  (ls.zipIdx.map (fun x => if x.1 = .absent then 0 else 2 ^ x.2)).foldl (fun a b => a + b) 0

/-- One wale entry of 704 bytes; a STEP partial that waits alone has both marks (log entry 15). -/
def State.suspWale (s : State) (c : Coll) (pt : Option Point) (port : Nat) (wale : Option Nat) (v : WaleV) (alone : Bool := false) :
    List Byte :=
  let raw := alone || v.lanes.any (fun l => match l with | .raw _ => true | _ => false)
  let mark := decide (wale = none) || decide (v.lanes = [])
  let st := v.step.getD (0, 0)
  let head := toLe 4 c.k.toNat ++ toLe 4 (s.suspSite c pt port mark raw) ++ toLe 4 (wale.getD 0) ++ toLe 4 v.silt ++ toLe 4 v.contrib
    ++ toLe 8 st.1.toNat ++ toLe 8 st.2.toNat ++ trapBytes c.g c.k v.trap ++ toLe 4 (presentMask v.lanes) ++ toLe 4 (b1 v.step.isSome)
  let lanes := (List.range 32).flatMap (fun i => laneBytes (v.lanes.getD i .absent))
  let idx := if isOp c.aw = 4 then wordsBytes ((List.range 32).map (fun i => v.idx.getD i 0xFFFFFFFF#32)) else padTo 128 []
  head ++ toLe 4 (crc32c (head ++ lanes ++ idx)).toNat ++ lanes ++ idx

/-- The wale entries of one collective. -/
def State.suspWales (s : State) (c : Coll) : List (List Byte) :=
  c.bufs.map (fun b => s.suspWale c (some b.pt) b.port b.wale b.v)
    ++ c.steps.map (fun x => s.suspWale c (some x.1) x.2.1 none ⟨[], [], 0, 0, some x.2.2, none⟩ true)
    ++ c.rootQ.map (fun x => s.suspWale c none 0 (some x.1) x.2)

/-- The whole record of the suspended collectives of `g` on this die. -/
def State.suspRecord (s : State) (g : BitVec 12) (cs : List Coll) : List Byte :=
  let ws := cs.flatMap s.suspWales
  s.suspHeader g cs.length ws.length ++ (cs.flatMap s.suspColl) ++ ws.flatten

/-! ### Requests (R113, R114, R422) -/

/-- The block handles a request: COL_SUSP_STATUS reads DRAINING or RELOADING (R114). -/
def State.suspHandling (s : State) : Bool := decide (s.col.suspSt = 1) || decide (s.col.suspSt = 2)

/-- A write of COL_SUSP_CTRL. -/
def State.suspRequest (s : State) (v : Word) : State :=
  let g : BitVec 12 := v.setWidth 12
  let op := wf_ v 13 12
  let s1 : State := { s with col := { s.col with suspGroup := g, suspOp := BitVec.ofNat 2 op } }
  if wbit v 14 = false ∨ op = 0 ∨ op = 3 ∨ s.suspHandling = true then s1
  else
    let s2 : State := { s1 with col := { s1.col with suspGrp := g } }
    if s.feat 7 = false ∨ (s.group g).v = false then s2.suspState 6
    else if op = 1 ∧ (s.susp g).st ≠ .none then s2.suspState 4
    else if op = 2 ∧ (s.susp g).st ≠ .suspended then s2.suspState 5
    else (s2.suspState (if op = 1 then 1 else 2)).sendAll (s.group g).dieList g 0 (.susp (BitVec.ofNat 8 op) s.col.suspAddr)

/-- SUSPEND (R113). -/
def execSuspend (v : Word) (s : State) : Host.Outcome State Fault Refusal := live s (fun s => s.suspRequest v)

/-- RESUME (R113). -/
def execResume (v : Word) (s : State) : Host.Outcome State Fault Refusal := live s (fun s => s.suspRequest v)

/-- A suspended collective's bound timer stops at what is left of it (R115 step 3). -/
def State.stopTimer (s : State) (c : Coll) : Coll :=
  { c with remain := if precedes 64 s.nowInt.toNat c.dl.toNat then (c.dl - s.nowInt).toNat else 0 }

/-- SUSP reaches a die of the group (R115 steps 1 to 3; R116). The block that handles another request, of another group,
ignores it (R114). -/
def State.onSusp (s : State) (m : Msg) : State :=
  match m.body with
  | .susp op addr =>
    let g := m.group
    let x := s.susp g
    let y : SuspG := { x with addr := addr, mine := decide (m.origin.toNat = s.own), req := m.origin, own := false, fail := false, size := 0 }
    if s.suspHandling && decide (s.col.suspGrp ≠ g) then s
    else if op = 1 ∧ x.st = .none then
      let s1 := (s.setSusp g { y with st := .draining, since := s.nowInt }).suspStart 1 g
      let s2 : State := { s1 with colls := s1.colls.map (fun c => if c.g = g ∧ s1.held c = true then s1.stopTimer c else c) }
      s2.chans.foldl (fun t e => t.pauseChan e.1) s2
    else if op = 2 ∧ x.st = .suspended then (s.setSusp g { y with st := .reloading, need := 1 }).suspStart 2 g
    else s
  | _ => s

def execSusp (m : Msg) (s : State) : Host.Outcome State Fault Refusal := live s (fun s => (s.takeMsg m).onSusp m)

/-! ### DONE reports (Table CO-10) -/

/-- Dies covered, largest record and failure of a chain of the gather tree: its inputs, and this die where the chain holds
it. -/
def SuspG.sum (x : SuspG) (ch : Chain) : Nat × Nat × Bool :=
  (ofChain ch x.doneIn).foldl (fun a y => (a.1 + y.1, max a.2.1 y.2.1, a.2.2 || y.2.2))
    (if ch.mem then (1, x.size, x.fail) else (0, 0, false))

/-- One chain of the gather tree reports DONE once this die and the dies below it are done; the home die tells the requesting
die, which shows the outcome. -/
def State.suspChain (s : State) (g : BitVec 12) (ch : Chain) : State :=
  let x := s.susp g
  let grp := s.group g
  if x.doneUp.contains ch.id = true ∨ (ch.mem && !x.own) = true
      ∨ (s.kidsOf grp grp.home ch).all (fun k => x.doneIn.any (fun y => decide (y.1 = k.1) && decide (y.2.1 = k.2.1))) = false then s
  else
    let r := x.sum ch
    let b : Body := .suspDone (if r.2.2 then 6 else 3) (BitVec.ofNat 32 r.1) (BitVec.ofNat 32 r.2.1)
    let s1 := s.setSusp g { x with doneUp := x.doneUp ++ [ch.id], doneIn := x.doneIn.filter (fun y => !ch.levels.contains y.1) }
    if ch.id ≠ 5 then s1.sendUp ch g 0 b
    else if x.mine then (s1.setSusp g { s1.susp g with mine := false }).suspState (if r.2.2 then 6 else 3)
    else s1.send x.req.toNat g 0 b

/-- DONE reports of every chain; with the last of them the die is ready for the next request. -/
def State.suspReport (s : State) (g : BitVec 12) : State :=
  let grp := s.group g
  let l := s.chains grp grp.home
  let s1 := l.foldl (fun t ch => t.suspChain g ch) s
  let x := s1.susp g
  if l.all (fun ch => x.doneUp.contains ch.id) then s1.setSusp g { x with own := false, doneUp := [] } else s1

/-- SUSP_DONE (R114): from below over an edge of the gather tree, or at the requesting die from the home die. -/
def State.onSuspDone (s : State) (m : Msg) : State :=
  match m.body with
  | .suspDone st nd bytes =>
    let g := m.group
    let x := s.susp g
    if m.level ≠ 0 then
      (s.setSusp g { x with doneIn := x.doneIn ++ [(m.level, m.srcf, nd.toNat, bytes.toNat, decide (st = 6))] }).suspReport g
    else if x.mine then (s.setSusp g { x with mine := false }).suspState (st.setWidth 3)
    else s
  | _ => s

def execSuspDone (m : Msg) (s : State) : Host.Outcome State Fault Refusal := live s (fun s => (s.takeMsg m).onSuspDone m)

/-- This die has done its part: status, record size, report. -/
def State.suspOwnDone (s : State) (g : BitVec 12) (fail : Bool) (size : Nat) : State :=
  let x := s.susp g
  let s1 := s.setSusp g { x with own := true, fail := fail, size := size, need := 0 }
  (if x.mine then s1 else s1.suspState (if fail then 6 else 3)).suspReport g

/-! ### The drain and the record (R115 steps 4 to 6) -/

/-- Flits of the collective's wales stand anywhere in the stake: waiting, unacknowledged, accepted, or part of a wale that is
coming in or passing through. -/
def stakeBusy (x : Stake) (c : Coll) : Bool :=
  let mine (p : List Byte) : Bool := (segsIn p).any (fun sg => sg.of c.g c.k && decide (sg.kind ≠ 6))
  x.txq.any (fun f => mine f.payload) || x.rbuf.any (fun f => mine f.payload) || x.rxbuf.any (fun f => mine f.payload)
    || x.relay.any (fun e => e.2.any (fun f => mine f.payload))
    || x.frags.any (fun e => e.2.any (fun f => decide (fld f.hdr 27 16 = c.g.toNat) && decide (fld f.hdr 31 28 = c.k.toNat % 16)))

/-- A combining point has all its inputs for its next wale, and room for the result. -/
def State.canCombine (s : State) (c : Coll) (pt : Point) : Bool :=
  (match s.inputs c pt (mget 0 c.fwd (siteKey pt)) with | some ins => ins.any (fun b => b.wale.isSome) | none => false)
    && s.room c (s.fromPoint c pt).2

/-- The collective is quiescent on this die: what was released has been delivered, nothing of it is on the way, and nothing more
combines. -/
def State.atRest (s : State) (c : Coll) : Bool :=
  decide (c.down = []) && !s.stakes.any (fun e => stakeBusy e.2 c) && !c.bufs.any (fun b => s.canCombine c b.pt)

/-- The group is quiescent on this die: what runs on has its token, and the rest is quiet. -/
def State.drained (s : State) (g : BitVec 12) : Bool :=
  s.colls.all (fun c => decide (c.g ≠ g) || !c.isOpen || (s.held c && s.atRest c))

/-- The fingerprint terms that the root has received are part of its running state: the record holds their XOR. -/
def Coll.foldFp (c : Coll) : Coll :=
  { c with fp := c.fpIn.foldl (fun a x => a ^^^ x.2.2.1) c.fp, fpIn := c.fpIn.map (fun x => (x.1, x.2.1, 0, x.2.2.2)) }

/-- SUSPEND_DRAIN_DONE: the collectives become SUSPENDED and the record stands ready. -/
def State.drainDone (s : State) (g : BitVec 12) : State :=
  if (s.susp g).st ≠ .draining ∨ s.drained g = false then s
  else
    let mine (c : Coll) : Bool := decide (c.g = g) && s.held c
    let s0 : State := { s with colls := s.colls.map (fun c => if mine c ∧ c.rd = s.own then c.foldFp else c) }
    let rec_ := s.suspRecord g (s0.colls.filter mine)
    let s1 : State := { s0 with colls := s0.colls.map (fun c => if mine c then { c with st := .suspended, bufs := [], rootQ := [], steps := [] } else c) }
    let s2 : State := { s1 with col := { s1.col with suspSize := BitVec.ofNat 25 rec_.length } }
    s2.setSusp g { s.susp g with st := .writing, record := rec_, next := 0 }

def execSuspendDrainDone (g : BitVec 12) (s : State) : Host.Outcome State Fault Refusal := live s (fun s => s.drainDone g)

/-- Transfers of the suspend engine are outstanding. -/
def State.suspBusy (s : State) : Bool :=
  s.fdw.reqs.any (fun r => match r.kind with | .suspWr _ => true | .suspRd _ => true | _ => false)

/-- SUSPEND_RECORD_WRITTEN: every beat has its response. -/
def State.recordWritten (s : State) (g : BitVec 12) : State :=
  let x := s.susp g
  if x.st ≠ .writing ∨ 64 * x.next < x.record.length ∨ s.suspBusy = true then s
  else (s.setSusp g { x with st := .suspended, record := [], next := 0 }).suspOwnDone g x.fail x.record.length

def execSuspendRecordWritten (g : BitVec 12) (s : State) : Host.Outcome State Fault Refusal := live s (fun s => s.recordWritten g)

/-! ### The reload (R116) -/

/-- A record's CRC. -/
def sealOk (bs : List Byte) : Bool := decide (leAt bs (bs.length - 4) 4 = (crc32c (bs.take (bs.length - 4))).toNat)

/-- Beats of the record that a header announces. -/
def recordBeats (h : List Byte) : Nat := 1 + 2 * min (leAt h 16 4) 512 + 11 * min (leAt h 20 4) 32768

/-- Why a reload fails: the abort code, and the record entry. A header that names another group, or more entries than Table
CO-9 allows, has failed a check too, and the header is checked before IMG_DIGEST (DESIGN CHOICE, log entry 90: R116 lists
neither). -/
def State.reloadFault (s : State) (g : BitVec 12) (bs : List Byte) : Option (Nat × Nat) :=
  let h := bs.take 64
  let nc := leAt h 16 4
  let nw := leAt h 20 4
  let entry (i : Nat) : List Byte := slice bs (64 + 128 * i) 128
  let wale (i : Nat) : List Byte := slice bs (64 + 128 * nc + 704 * i) 704
  let waleOk (w : List Byte) : Bool :=
    decide (leAt w 60 4 = (crc32c (w.take 60 ++ w.drop 64)).toNat)
      && ((leAt w 4 4).testBit 17 || (leAt w 4 4).testBit 18
        || (badLane ((List.range 32).map (fun i => laneOf (leAt w (64 + 16 * i) 16)))).isNone)
  if wordAt h 4 ≠ ~~~(wordAt h 0) ∨ sealOk h = false ∨ 512 < nc ∨ 32768 < nw ∨ leAt h 24 4 % 65536 ≠ s.own
      ∨ leAt h 0 4 % 4096 ≠ g.toNat then some (2, 0)
  else if leAt h 8 8 ≠ s.img.digest.toNat then some (1, 0)
  else
    match (List.range nc).find? (fun i => !sealOk (entry i) || decide (wordAt (entry i) 4 ≠ ~~~(wordAt (entry i) 0))) with
    | some i => some (2, i)
    | none =>
      match (List.range nw).find? (fun i => !waleOk (wale i)) with
      | some i => some (2, nc + i)
      | none => none
where
  /-- A loam word from 16 bytes. -/
  laneOf (v : Nat) : Lane :=
    .word ⟨BitVec.ofNat 96 v, BitVec.ofNat 12 (v >>> 96), codeCls (fld v 109 108), BitVec.ofNat 8 (v >>> 110)⟩

/-- The site of a wale entry: none for the root slath. -/
def siteOfWord (v : Nat) : Option Point :=
  if fld v 1 0 = 3 then none
  else if fld v 21 19 ≠ 0 then some (.stage (fld v 21 19))
  else some (.node (fld v 11 2))

/-- The wale of an entry. -/
def waleOf (op : Nat) (w : List Byte) : WaleV :=
  let v := leAt w 4 4
  let mask := leAt w 52 4
  let lane (i : Nat) : Lane :=
    if mask.testBit i = false then .absent
    else if v.testBit 18 then .raw (wordAt w (64 + 16 * i)) else State.reloadFault.laneOf (leAt w (64 + 16 * i) 16)
  let st : Option (BitVec 64 × BitVec 64) :=
    if leAt w 56 4 = 1 then some (BitVec.ofNat 64 (leAt w 20 8), BitVec.ofNat 64 (leAt w 28 8)) else none
  ⟨if v.testBit 17 then [] else (List.range 32).map lane, if op = 4 ∧ v.testBit 17 = false then wordsAt w 576 32 else [],
    leAt w 12 4, leAt w 16 4, st, wordsCand (wordsAt w 36 4) 0⟩

/-- Restore one collective from its entry and its wales (R116). What has come in from dies that resumed earlier stays, behind
what the record holds (R118). -/
def State.restore (s : State) (g : BitVec 12) (e : List Byte) (ws : List (List Byte)) : State :=
  let k := wordAt e 0
  s.onColl g k (fun c =>
    if c.st ≠ .suspended then c
    else
      let all := ws.filter (fun w => decide (wordAt w 0 = k))
      let alone (w : List Byte) : Bool := (leAt w 4 4).testBit 17 && (leAt w 4 4).testBit 18
      let mine := all.filter (fun w => !alone w)
      let vs := mine.map (fun w => (siteOfWord (leAt w 4 4), fld (leAt w 4 4) 16 12,
        if (leAt w 4 4).testBit 17 then none else some (leAt w 8 4), waleOf (isOp c.aw) w))
      let root := decide (wordAt e 8 = 1)
      let f := leAt e 52 4
      let c1 : Coll := { c with
        st := .opened, dl := s.nowInt + BitVec.ofNat 64 (leAt e 16 8 % 2 ^ 40), remain := 0,
        bufs := vs.filterMap (fun x => x.1.map (fun p => (⟨p, x.2.1, x.2.2.1, x.2.2.2⟩ : Buf))) ++ c.bufs,
        rootQ := vs.filterMap (fun x => if x.1.isNone then some (x.2.2.1.getD 0, x.2.2.2) else none) ++ c.rootQ,
        steps := (all.filter alone).filterMap (fun w => (siteOfWord (leAt w 4 4)).bind (fun p =>
          (waleOf (isOp c.aw) w).step.map (fun x => (p, fld (leAt w 4 4) 16 12, x)))) ++ c.steps }
      if root then
        { c1 with released := leAt e 12 4, silt := leAt e 24 4, osilt := leAt e 28 4, contrib := leAt e 32 4,
                  digest := BitVec.ofNat 64 (leAt e 36 8), fp := BitVec.ofNat 64 (leAt e 44 8), noted := f.testBit 0,
                  step := if f.testBit 1 then some (BitVec.ofNat 64 (leAt e 56 8), BitVec.ofNat 64 (leAt e 56 8)) else none,
                  trap := wordsCand (wordsAt e 64 4) 0 }
      else c1)

/-- A start time, moved on by the time that the suspension has lasted since (R117). -/
def State.moved (s : State) (since t : BitVec 64) : BitVec 64 :=
  if precedes 64 t.toNat since.toNat then t + (s.nowInt - since) else if s.reached t then s.nowInt else t

/-- The suspension counts against no timer: GATHER_LIMIT, LONG_QUEUE, and the bound of a collective that was admitted but not
yet OPEN. One whose LAUNCH passed meanwhile is admitted now (R117, R237). -/
def State.shiftTimers (s : State) (g : BitVec 12) (since : BitVec 64) : State :=
  { s with colls := s.colls.map (fun c =>
      if c.g ≠ g ∨ (c.st ≠ .gather ∧ c.st ≠ .queued) then c
      else
        let t := s.moved since c.tAdm
        { c with gStart := c.gStart.map (s.moved since), qStart := c.qStart.map (s.moved since),
                 tAdm := if c.b = 0 then c.tAdm else t, dl := if c.b = 0 then c.dl else c.dl + (t - c.tAdm) }) }

/-- RESUME_RELOAD_DONE (R116): the checks, then the collectives open again, or end. -/
def State.reloadDone (s : State) (g : BitVec 12) : State :=
  let x := s.susp g
  if x.st ≠ .reloading ∨ x.next < x.need ∨ s.suspBusy = true then s
  else
    let bs := (List.range x.need).flatMap (fun i => mget [] x.got i)
    let fault := if x.fail then some (2, 0) else s.reloadFault g bs
    let s1 := (s.setSusp g { x with st := .none, got := [], next := 0, fail := false }).shiftTimers g x.since
    match fault with
    | some (code, entry) =>
      let s2 := s1.logEv 0x26 1 0 0 entry 0 g (BitVec.ofNat 8 code)
      let s3 := (s.colls.filter (fun c => decide (c.g = g) && decide (c.st = .suspended))).foldl
        (fun t c => t.report g c.k code 0 0) s2
      (s3.suspOwnDone g true 0).settle
    | none =>
      let nc := leAt bs 16 4
      let ws := (List.range (leAt bs 20 4)).map (fun i => slice bs (64 + 128 * nc + 704 * i) 704)
      let s2 := (List.range nc).foldl (fun t i => t.restore g (slice bs (64 + 128 * i) 128) ws) s1
      (s2.suspOwnDone g false bs.length).settle

def execResumeReloadDone (g : BitVec 12) (s : State) : Host.Outcome State Fault Refusal := live s (fun s => s.reloadDone g)

end Sys2Proof.Machine
end

