-- ==== Sys2Proof/Machine/FeederExec.lean ====
section
/-! DEFINITION. The feeder's commands (spec/11): FD_CTRL, the memory ports' requests and responses, EVT_IN, EVT_OUT
and counter triggers; the memory traffic of the loader and of the suspend engine. -/

namespace Sys2Proof.Machine

/-! ### FD_CTRL (Table FD-7) -/

/-- A write of FD_CTRL: PRI; DISABLE (R318), then EN (R319). -/
def State.fdCtrl (s : State) (c : Nat) (v : Word) : State :=
  let s1 := s.onChan c (fun x => { x with pri := BitVec.ofNat 2 (wf_ v 3 2) })
  let s2 := if wbit v 1 then s1.disableChan c 7 else s1
  (if wbit v 0 then s2.enableChan c else s2).settle

/-- FD_EN (R319). -/
def execFdEn (c : Fin 64) (v : Word) (s : State) : Host.Outcome State Fault Refusal := live s (fun s => s.fdCtrl c.val v)

/-- FD_DISABLE (R318). -/
def execFdDisable (c : Fin 64) (v : Word) (s : State) : Host.Outcome State Fault Refusal := live s (fun s => s.fdCtrl c.val v)

/-- FD_PRI_WRITE (R296). -/
def execFdPriWrite (c : Fin 64) (v : Word) (s : State) : Host.Outcome State Fault Refusal := live s (fun s => s.fdCtrl c.val v)

/-! ### Requests (R297, R298, R370, R371) -/

/-- Port `p` is ready and has fewer than 256 requests outstanding. -/
def State.portRoom (s : State) (rdy : BitVec 4) (p : Nat) : Bool :=
  rdy.getLsbD p && decide ((s.fdw.reqs.filter (fun r => decide (r.port = p))).length < 256)

/-- The port whose turn it is; a port that cannot accept is skipped (R298). -/
def State.nextMem (s : State) (rdy : BitVec 4) : Option Nat :=
  ((List.range 4).map (fun i => (s.fdw.rrPort + i) % 4)).find? (s.portRoom rdy)

/-- A tag that no outstanding request of the port has. -/
def State.freeTag (s : State) (p : Nat) : Nat :=
  ((List.range 256).find? (fun t => !s.fdw.reqs.any (fun r => decide (r.port = p) && decide (r.tag = t)))).getD 0

/-- Send one request on port `p` (Table PI-3); the rotation of R298 goes on behind it. `wbe` is MP_WBE: 0 for a read. -/
def State.request (s : State) (p : Nat) (wr : Bool) (addr : BitVec 44) (kind : ReqKind) (data : List Byte) (wbe : BitVec 64) : State :=
  { s with fdw := { s.fdw with reqs := s.fdw.reqs ++ [⟨p, s.freeTag p, wr, addr, kind, data, wbe⟩], rrPort := (p + 1) % 4 } }

/-- MP_WBE of a write of a whole beat. -/
def wholeBeat : BitVec 64 := 0xFFFFFFFFFFFFFFFF

/-- The beat that carries a CKSUM, in bytes [63:60], and its byte enables (R314). -/
def cksumBeat (crc : BitVec 32) : List Byte := List.replicate 60 0 ++ toLe 4 (crc ^^^ 0xFFFFFFFF#32).toNat
def cksumWbe : BitVec 64 := 0xF000000000000000

/-- The byte address of a SINK beat: by the loop nest, or from DST or SRC of the descriptor (R300, R308). -/
def Chan.sinkAddr (x : Chan) : SinkAt → Int
  | .walk => dWalk x.desc x.issued
  | .dst off => Int.ofNat (dDst x.desc + off)
  | .src off => Int.ofNat (dSrc x.desc + off)

/-- The image beat that the loader asks for next. -/
def State.loaderBeat (s : State) : Option ReqKind :=
  if s.imgBeats ≤ s.img.next ∨ s.preFault.isSome = true then none
  else if s.img.st = .check then some (.loadCheck s.img.next)
  else if s.img.st = .apply then some (.loadApply s.img.next) else none

/-- The suspend engine's next transfer: its group, and the beats of a write (R115, R116). -/
def State.suspBeat (s : State) : Option (Nat × SuspG) :=
  s.col.susp.find? (fun x => (decide (x.2.st = .writing) && decide (64 * x.2.next < x.2.record.length))
    || (decide (x.2.st = .reloading) && decide (x.2.next < x.2.need)))

/-- What channel `c` would send on port `p`, or on the port that carried its last write. -/
inductive ChanReq where
  | read (beat : Nat)
  | write
  | readBack (port : Nat)
  | cksum
  | range (addr : Int)
  deriving DecidableEq, Repr

/-- The channel's next transfer, if it has one ready. -/
def State.chanReq (s : State) (rdy : BitVec 4) (c : Nat) : Option ChanReq :=
  let x := s.chan c
  if x.st ≠ .active ∨ x.desc = [] then none
  else
    match x.endPh with
    | .rbReq => match x.lastWr with
      | some w => if s.portRoom rdy w.1 then some (.readBack w.1) else none
      | none => none
    | .ckReq => some .cksum
    | .none =>
      if dKind x.desc = 0 then
        if dTotal x.desc ≤ x.issued ∨ 64 ≤ x.issued - x.moved then none
        else
          let a := dWalk x.desc x.issued
          if inSpace a then some (.read x.issued) else if x.moved = x.issued then some (.range a) else none
      else
        match x.sinkq with
        | [] => none
        | (ad, _) :: _ =>
          if inSpace (x.sinkAddr ad) then some .write else some (.range (x.sinkAddr ad))
    | _ => none

/-- The channels in the order of R297: by PRI, then within each PRI in rotation after the one of it that was granted last. -/
def State.chanOrder (s : State) : List Nat :=
  [3, 2, 1, 0].flatMap (fun p =>
    ((List.range 64).map (fun i => (mget 63 s.fdw.rrChan p + 1 + i) % 64)).filter (fun c => decide ((s.chan c).pri.toNat = p)))

/-- One beat of a SINK channel leaves on port `p` (R300, R308, R314). -/
def State.sinkWrite (s : State) (p c : Nat) : State :=
  let x := s.chan c
  match x.sinkq with
  | [] => s
  | (ad, bs) :: rest =>
    let addr := BitVec.ofInt 44 (x.sinkAddr ad)
    let y : Chan := { x with sinkq := rest, issued := x.issued + 1, unacked := x.unacked + 1, beats := satInc x.beats,
                             crc := crc32Run x.crc bs, lastWr := some (p, addr, bs) }
    ((((s.setChan c y).request p true addr (.sink c) bs wholeBeat).fillChan c).sinkEnd c)

/-- Carry out the transfer that channel `c` was granted. -/
def State.chanSend (s : State) (p c : Nat) (q : ChanReq) : State :=
  let x := s.chan c
  let s1 : State := { s with fdw := { s.fdw with rrChan := mput 63 s.fdw.rrChan x.pri.toNat c } }
  match q with
  | .read n => (s1.setChan c { x with issued := n + 1 }).request p false (BitVec.ofInt 44 (dWalk x.desc n)) (.feed c n) [] 0
  | .write => s1.sinkWrite p c
  | .readBack rp =>
    let a := match x.lastWr with | some w => w.2.1 | none => 0
    let s2 := (s1.setChan c { x with endPh := .rbWait }).request rp false a (.readBack c) [] 0
    { s2 with fdw := { s2.fdw with rrPort := s1.fdw.rrPort } }
  | .cksum =>
    (s1.setChan c { x with endPh := .ckWait }).request p true x.cur (.cksum c) (cksumBeat x.crc) cksumWbe
  | .range a => s1.halt c 4 (BitVec.ofInt 44 a).toNat

/-- The channel whose descriptor fetch is due, lowest first. -/
def State.fetchDue (s : State) : Option (Nat × BitVec 44) :=
  (List.range 64).findSome? (fun c => (s.chan c).fetchA.map (fun a => (c, a)))

/-- FEEDER_BEAT_REQUEST: one request slot, to the loader, the suspend engine, a descriptor fetch, or a channel. -/
def State.beatRequest (s : State) (rdy : BitVec 4) : State :=
  match s.nextMem rdy with
  | none => s
  | some p =>
    match s.loaderBeat with
    | some k =>
      let a : BitVec 44 := s.img.addr + BitVec.ofNat 44 (64 * s.img.next)
      let s1 := s.request p false a k [] 0
      { s1 with img := { s1.img with next := s.img.next + 1 } }
    | none =>
      match s.suspBeat with
      | some (g, x) =>
        let gid : BitVec 12 := BitVec.ofNat 12 g
        let a : BitVec 44 := x.addr + BitVec.ofNat 44 (64 * x.next)
        let s1 := s.setSusp gid { x with next := x.next + 1 }
        if x.st = .writing then s1.request p true a (.suspWr x.next) (padTo 64 (slice x.record (64 * x.next) 64)) wholeBeat
        else s1.request p false a (.suspRd x.next) [] 0
      | none =>
        match s.fetchDue with
        | some (c, a) =>
          (s.onChan c (fun x => { x with fetchA := none })).request p false a (.desc c (decide ((s.chan c).desc ≠ []))) [] 0
        | none =>
          match s.chanOrder.findSome? (fun c => (s.chanReq rdy c).map (fun q => (c, q))) with
          | some (c, q) => s.chanSend p c q
          | none => s

def execFeederBeatRequest (rdy : BitVec 4) (s : State) : Host.Outcome State Fault Refusal :=
  live s (fun s => (s.beatRequest rdy).settle)

/-! ### Responses (R371, Table FD-4) -/

/-- TYPE of the section that holds byte `at_`, as far as the headers read in CHECK tell; 0xFF otherwise. -/
def State.sectionAt (s : State) : Nat → Nat → Nat → Nat
  | 0, _, _ => 0xFF
  | n + 1, off, at_ =>
    let b := mget [] s.img.buf (off / 64)
    let len := 64 * wf_ (wordAt b 0) 31 8
    if b = [] ∨ len = 0 ∨ wordAt b 4 ≠ ~~~(wordAt b 0) then 0xFF
    else if at_ < off + len then wf_ (wordAt b 0) 7 0
    else s.sectionAt n (off + len) at_

/-- MEMERR of the loader (Table SU-7). -/
def State.loaderError (s : State) (beat : Nat) : State := s.refuseImage 0xD (s.sectionAt 11 0 (64 * beat), 64 * beat)

/-- The group of a suspend transfer: the one whose record covers the address. -/
def State.suspOf (s : State) (st : SuspSt) (beat : Nat) (addr : BitVec 44) : Option (BitVec 12 × SuspG) :=
  (s.col.susp.find? (fun x => decide (x.2.st = st) && decide (x.2.addr + BitVec.ofNat 44 (64 * beat) = addr))).map
    (fun x => (BitVec.ofNat 12 x.1, x.2))

/-- The member of a binding has its data in memory, checked: its report of the close round may go (R307). -/
def State.sunk (s : State) (b : Bind) : State :=
  s.onColl b.g b.k (fun c => c.onMember b.cp (fun m => { m with sunk := true }))

/-- The binding has been given its last wale, and all of it has been written. -/
def Chan.ends (x : Chan) : Bool := x.actBind.any (fun b => b.ended && decide (b.pend = [])) && decide (x.sinkq = [])

/-- The read-back of a SINK channel has matched. After a probe the binding of a routed operation goes on (R140, R307). Otherwise
the binding ends when all of it has been written (R305, R313), and the descriptor when its last beat has moved, or with the
binding of a routed operation (R308, R312). -/
def State.readBackOk (s : State) (c : Nat) : State :=
  let x := s.chan c
  let ends := x.ends
  let s1 := s.setChan c { x with endPh := .none, endFor := .desc }
  let s2 := match x.actBind with | some b => if ends || decide (x.endFor = EndFor.probe) then s1.sunk b else s1 | none => s1
  match x.endFor with
  | .probe => s2.sinkEnd c
  | .bind =>
    if x.actBind.any (fun b => b.routed) then ((s2.dropBind c).finishDesc c).sinkEnd c else (s2.popBind c).sinkEnd c
  | .desc => ((if ends then s2.dropBind c else s2).finishDesc c).sinkEnd c

/-- What a matching response does (Table FD-4, R300, R302, R403, R115, R116). -/
def State.respond (s : State) (r : Req) (err : Bool) (data : List Byte) : State :=
  match r.kind with
  | .loadCheck b =>
    if err then s.loaderError b else { s with img := { s.img with buf := mput [] s.img.buf b data } }
  | .loadApply b =>
    if err then s.loaderError b else { s with img := { s.img with buf2 := mput [] s.img.buf2 b data } }
  | .desc c _ =>
    if err then s.halt c 5 r.addr.toNat
    else
      let d := wordsAt data 0 16
      if (s.chan c).desc = [] then s.makeCurrent c r.addr d (s.pastAtFetch d)
      else s.onChan c (fun x => { x with nextD := some d, nextPast := s.pastAtFetch d })
  | .feed c b =>
    if err then s.halt c 5 r.addr.toNat else s.onChan c (fun x => { x with staged := mput [] x.staged b data })
  | .sink c =>
    if err then s.halt c 5 r.addr.toNat
    else
      s.onChan c (fun x =>
        let e : EndPh := if x.unacked ≤ 1 ∧ x.endPh = .waitWr then .rbReq else x.endPh
        { x with unacked := x.unacked - 1, endPh := e })
  | .readBack c =>
    if err then s.halt c 5 r.addr.toNat
    else match (s.chan c).lastWr with
      | some w => if w.2.2 = data then s.readBackOk c else s.halt c 6 r.addr.toNat
      | none => s
  | .cksum c => if err then s.halt c 5 r.addr.toNat else (s.complete c).sinkEnd c
  | .suspWr b =>
    match s.suspOf .writing b r.addr with
    | some (g, x) => if err then s.setSusp g { x with fail := true } else s
    | none => s
  | .suspRd b =>
    match s.suspOf .reloading b r.addr with
    | some (g, x) =>
      if err then s.setSusp g { x with fail := true }
      else s.setSusp g { x with got := mput [] x.got b data, need := if b = 0 then recordBeats data else x.need }
    | none => s
  | .orphan _ => s

/-- A response with an unknown tag or of the wrong kind (R371): the entry, ATTN, and MEMERR on every channel with a
request outstanding on that port. -/
def State.badResponse (s : State) (m : Nat) (tag wr : Nat) : State :=
  let s1 := (s.logEv 0x12 3 6 m tag wr).attn 1
  (List.range 64).foldl (fun t c =>
    match s.fdw.reqs.find? (fun r => decide (r.port = m) && decide (r.kind ≠ .orphan c) && decide (r.kind.chan? = some c)) with
    | some r => t.halt c 5 r.addr.toNat
    | none => t) s1

/-- MEMORY_RESPONSE (R371). -/
def State.memResponse (s : State) (m : Nat) (tag : Nat) (wr err : Bool) (data : List Byte) : State :=
  match s.fdw.reqs.find? (fun r => decide (r.port = m) && decide (r.tag = tag)) with
  | some r =>
    if r.wr = wr then
      ({ s with fdw := { s.fdw with reqs := s.fdw.reqs.erase r } } : State).respond r err (padTo 64 data)
    else s.badResponse m tag (b1 wr)
  | none => s.badResponse m tag (b1 wr)

def execMemoryResponse (m : Fin 4) (tag : BitVec 8) (wr err : Bool) (data : List Byte) (s : State) :
    Host.Outcome State Fault Refusal :=
  live s (fun s => (s.memResponse m.val tag.toNat wr err data).settle)

/-! ### Triggers and events (R310, R311, R316) -/

/-- COUNTER_TRIGGER (Table FD-3): nothing until the counter has reached TCMP. -/
def execCounterTrigger (c : Fin 64) (s : State) : Host.Outcome State Fault Refusal :=
  live s (fun s => if dTkind (s.chan c.val).desc = 2 then (s.tryTrigger c.val).settle else s)

/-- A rising edge on an EVT_IN line; `close` when it comes less than 4 ns after the last recognised one (R311). -/
def State.onEvt (s : State) (l : Nat) (close : Bool) : State :=
  let e := s.evtIn l
  let more : EvtIn := { e with overrun := min (e.overrun + 1) 0xFFFF }
  if close ∨ 255 ≤ e.pend then s.setEvtIn l more
  else (State.evtServe 64 (s.setEvtIn l { e with pend := e.pend + 1 }) l).settle

def execEvtIn (line : Fin 16) (close : Bool) (s : State) : Host.Outcome State Fault Refusal :=
  live s (fun s => s.onEvt line.val close)

/-- EVT_OUT_PULSE_END (R316). -/
def execEvtOutPulseEnd (line : Fin 17) (s : State) : Host.Outcome State Fault Refusal := live s (fun s => s.pulseEnd line.val)

/-- A write of FD_EVT_STAT (Table FD-8). -/
def State.evtClr (s : State) (l : Nat) (v : Word) : State := if wbit v 24 then s.setEvtIn l ⟨0, 0⟩ else s

/-- FD_EVT_CLR (R311). -/
def execFdEvtClr (line : Fin 16) (v : Word) (s : State) : Host.Outcome State Fault Refusal :=
  live s (fun s => s.evtClr line.val v)

/-- UPDATE_BEAT_TAKEN (R331, R333). -/
def execUpdateBeatTaken (s : State) : Host.Outcome State Fault Refusal := live s (fun s => s.updTake.settle)

end Sys2Proof.Machine
end

