-- ==== Sys2Proof/Machine/Fuse.lean ====
section
/-! DEFINITION. Supply, reset and the write-limited settings (spec/15 R390 to R396, spec/14 R372, R374, R378). -/

namespace Sys2Proof.Machine

/-! ### Supply and reset -/

/-- The levels at the block's inputs that no reset changes: DBG_EN, THROTTLE, SK_PHY_RDY and SK_LANE_FLT. -/
def State.keepPins (s t : State) : State :=
  { t with dbg := { t.dbg with pin := s.dbg.pin }, pwr := { t.pwr with thr := s.pwr.thr, thrMin := s.pwr.thr },
           stakes := mmap Stake.zero (fun _ x => { Stake.zero with rdy := x.rdy, flt := x.flt }) s.stakes,
           wrap := { s.wrap with bist := [], sweep := [] } }

/-- RST_N is 0: every register holds its reset value (R391). The queue of commands and the count of free values are
the model's own and stay. -/
def State.resetAll (s : State) : State :=
  s.keepPins { State.reset with pending := s.pending, free := s.free }

/-- RESET_ASSERT (R391, R410): loads, accesses and a fuse program in progress are abandoned (R396). -/
def execResetAssert (s : State) : Host.Outcome State Fault Refusal := .next s.resetAll

/-- RESET_RELEASE (Table SU-1 steps 2 and 3): the reset-time fuse reads begin with slot 0 of DIE_ID. -/
def execResetRelease (s : State) : Host.Outcome State Fault Refusal :=
  .next (if s.powered ∧ s.inReset = true then
      { s with inReset := false, wl := { s.wl with acc := some ⟨.scan, 0, 0, false⟩ } }
    else s)

/-- VDD_SZ_REMOVAL (R390): every bit of the block's state is lost. -/
def execVddSzRemoval (s : State) : Host.Outcome State Fault Refusal :=
  .next { State.reset with pending := s.pending, free := s.free, powered := false }

/-! ### Slots and effective values (R393, R395) -/

def Wl.setSlot (w : Wl) (n : Nat) (x : WlLog) : Wl := { w with log := mput WlLog.zero w.log n x }

/-- The content of the highest slot of a setting that reads FU_BLANK 0 and FU_ERR 0. -/
def Wl.effective (w : Wl) (sel : Nat) : Option (BitVec 16) :=
  [3, 2, 1, 0].findSome? (fun i => let x := w.slot (4 * sel + i); if x.blank = false ∧ x.err = false then some x.value else none)

/-- All eight slots have been read: the effective values stand and READY is 1. -/
def Wl.finish (w : Wl) : Wl :=
  let d := w.effective 0
  let c := w.effective 1
  { w with acc := none, ready := true, dieId := d.getD 0, dieSet := d.isSome, ceil := (c.getD 0).setWidth 3, lvlSet := c.isSome }

/-- The scan goes on with the next slot, or ends. -/
def Wl.scanNext (w : Wl) (n : Nat) : Wl := if n < 7 then { w with acc := some ⟨.scan, n + 1, 0, false⟩ } else w.finish

/-- A program fails (R396): LAST, the entry and ATTN. `bits` are ARG0's [1] timeout and [2] read-back differs. -/
def State.progFail (s : State) (a : FuseAcc) (bits : Nat) : State :=
  let s1 := (s.logEv 0x24 3 10 a.slot (1 + bits) a.value.toNat).attn 8
  { s1 with wl := { s1.wl with last := 2, acc := none } }

/-- The read-back of a program (R395, R396). -/
def State.progEnd (s : State) (a : FuseAcc) (rdata : BitVec 16) (blank err : Bool) : State :=
  let w := s.wl.setSlot a.slot ⟨rdata, blank, err, true⟩
  let match_ := decide (rdata = a.value) && !err
  let w1 : Wl := if !match_ then w
    else if a.slot < 4 then { w with dieId := a.value, dieSet := true } else { w with ceil := a.value.setWidth 3, lvlSet := true }
  let s1 : State := { s with wl := w1 }
  if match_ && !a.failed then { s1 with wl := { w1 with last := 1, acc := none } }
  else s1.progFail a (if rdata = a.value then 0 else 4)

/-- FUSE_ACK (R374, R393, R395). -/
def State.fuseAck (s : State) (rdata : BitVec 16) (blank err : Bool) : State :=
  match s.wl.acc with
  | none => s
  | some a =>
    match a.op with
    | .scan => { s with wl := (s.wl.setSlot a.slot ⟨rdata, blank, err, false⟩).scanNext a.slot }
    | .program => { s with wl := { s.wl with acc := some { a with op := .readback, failed := err } } }
    | .readback => s.progEnd a rdata blank err

def execFuseAck (rdata : BitVec 16) (blank err : Bool) (s : State) : Host.Outcome State Fault Refusal :=
  live s (fun s => s.fuseAck rdata blank err)

/-- FUSE_TIMEOUT (R374): the access fails with FU_ERR 1. -/
def State.fuseTimeout (s : State) : State :=
  match s.wl.acc with
  | none => s
  | some a =>
    match a.op with
    | .scan =>
      let s1 := s.logEv 0x24 3 10 a.slot 2 0
      { s1 with wl := (s1.wl.setSlot a.slot { s1.wl.slot a.slot with err := true }).scanNext a.slot }
    | _ =>
      let s1 : State := { s with wl := s.wl.setSlot a.slot { s.wl.slot a.slot with blank := false, err := true, now := true } }
      s1.progFail a 2

def execFuseTimeout (s : State) : Host.Outcome State Fault Refusal := live s (fun s => s.fuseTimeout)

/-- A write of WL_PROG (R395, Table SU-10). -/
def State.wlProg (s : State) (v : Word) : State :=
  let sel := b1 (wbit v 16)
  let value : BitVec 16 := v.setWidth 16
  let s1 : State := { s with wl := { s.wl with value := value, sel := wbit v 16 } }
  if wbit v 17 = false then s1
  else if (s.img.st ≠ .empty ∧ s.img.st ≠ .refused) ∨ s.wl.acc.isSome = true ∨ (sel = 1 ∧ 4 < value.toNat) then
    { s with wl := { s.wl with last := 3 } }
  else
    match s.wl.blankSlot sel with
    | none => { s with wl := { s.wl with last := 3 } }
    | some i => { s1 with wl := { s1.wl with acc := some ⟨.program, 4 * sel + i, value, false⟩ } }

def execWlProg (v : Word) (s : State) : Host.Outcome State Fault Refusal := live s (fun s => s.wlProg v)

end Sys2Proof.Machine
end

