-- ==== Sys2Proof/Machine/Debug.lean ====
section
/-! DEFINITION. Debug mode (R411, R424), the debug forces on hoops (R293, Table HP-8), and the control port's read of
a hoop entry (R283, R292). -/

namespace Sys2Proof.Machine

/-! ### HP_FORCE (R293) -/

/-- SET_COUNT: COUNT takes VALUE; a pending WAIT is released when the hoop is satisfied. -/
def State.forceCount (s : State) (idx : Nat) : State :=
  let s1 := s.logEv 0x16 0 2 idx 1 s.dbg.forceVal.toNat
  (s1.setHoop idx { s1.hoop idx with count := s.dbg.forceVal }).hoopRelease idx

/-- SET_TARGET: TARGET with a fresh complement, MODE, ARMED. VALUE 0 is ignored. -/
def State.forceTarget (s : State) (idx : Nat) : State :=
  if s.dbg.forceVal = 0 then s
  else
    let s1 := s.logEv 0x16 0 2 idx 2 s.dbg.forceVal.toNat
    let h := (s1.hoop idx).renew
    let v := s.dbg.forceVal
    (s1.setHoop idx { h with target := v, targetN := ~~~v, mode := s.dbg.forceMode, st := .armed }).hoopRelease idx

/-- RELEASE: a pending WAIT ends with RELEASED; COUNT, TARGET and STATE stay. -/
def State.forceRelease (s : State) (idx : Nat) : State :=
  let s1 := s.logEv 0x16 0 2 idx 3 s.dbg.forceVal.toNat
  if s1.waitsOn idx then (s1.setHoop idx { s1.hoop idx with waiting := false }).endWait (idx / 48) 9 else s1

/-- A write of HP_FORCE: ignored outside debug mode and for an INDEX above 49,151. -/
def State.hpForce (s : State) (v : Word) : State :=
  let idx := wf_ v 15 0
  if s.debug = false ∨ 49151 < idx then s
  else
    let s1 : State := { s with dbg := { s.dbg with forceIdx := v.setWidth 16, forceMode := wbit v 18 } }
    let act := wf_ v 17 16
    if act = 1 then (s1.forceCount idx).settle
    else if act = 2 then (s1.forceTarget idx).settle
    else if act = 3 then (s1.forceRelease idx).settle
    else s1

/-- SET_COUNT. -/
def execSetCount (v : Word) (s : State) : Host.Outcome State Fault Refusal := live s (fun s => s.hpForce v)

/-- SET_TARGET. -/
def execSetTarget (v : Word) (s : State) : Host.Outcome State Fault Refusal := live s (fun s => s.hpForce v)

/-- RELEASE. -/
def execDebugRelease (v : Word) (s : State) : Host.Outcome State Fault Refusal := live s (fun s => s.hpForce v)

/-! ### DBG_INJECT and DBG_EN (R411, R424) -/

/-- A write of DBG_INJECT: in debug mode KIND and UNIT take their values, and GO arms kinds 1 to 3. -/
def State.dbgInject (s : State) (v : Word) : State :=
  if s.debug = false then s
  else
    let kind := wf_ v 3 0
    { s with dbg := { s.dbg with injKind := BitVec.ofNat 4 kind, injUnit := BitVec.ofNat 10 (wf_ v 13 4),
                                 armed := s.dbg.armed || (wbit v 14 && decide (1 ≤ kind) && decide (kind ≤ 3)) } }

def execDbgInject (v : Word) (s : State) : Host.Outcome State Fault Refusal := live s (fun s => s.dbgInject v)

/-- DBG_EN_CHANGE: when it falls, an arming is dropped (Table RG-13). -/
def execDbgEnChange (level : Bool) (s : State) : Host.Outcome State Fault Refusal :=
  live s (fun s => { s with dbg := { s.dbg with pin := level, armed := s.dbg.armed && level } })

/-! ### The hoop window (R283, R292, R412) -/

/-- A word of a hoop entry as the control port shows it: TARGET, STATE and MODE read 0 before CHECKED (R412). -/
def State.hoopWord (s : State) (idx : Nat) (hi : Bool) : Word :=
  let h := s.hoop idx
  if hi then h.word1
  else if s.cfgShown then h.word0 else h.word0 &&& 0xF4000FFF#32

/-- A control-port read of a hoop entry checks TARGET against its complement (R283). -/
def State.hoopRead (s : State) (idx : Nat) (hi : Bool) (ev : StorageEvent) : State × Word :=
  let s1 := s.hoopStorage idx ev
  let s2 := if (s1.hoop idx).st ≠ .fault ∧ (s1.hoop idx).ok = false then s1.hoopFault idx else s1
  (s2, s2.hoopWord idx hi)

/-- The outcome of a control-port access: CT_RDATA and CT_ERR (R373). -/
def State.ctDone (s : State) (rdata : Word) (err : Bool) : State := { s with ct := { s.ct with rdata := rdata, err := err } }

/-- HOOP_ENTRY_READ (R283, R292). -/
def execHoopEntryRead (idx : Fin 49152) (hi : Bool) (ev : StorageEvent) (s : State) : Host.Outcome State Fault Refusal :=
  live s (fun s =>
    let r := s.hoopRead idx.val hi ev
    (r.1.ctDone r.2 false).settle)

end Sys2Proof.Machine
end

