-- ==== Sys2Proof/Machine/Regs.lean ====
section
/-! DEFINITION. The register map (spec/16): what every offset of the 1 MiB window reads, the latched groups (R414), and
what a write does. Offsets are byte offsets. -/

namespace Sys2Proof.Machine

/-! ### Words of the small regions -/

/-- Bits [31:0] and [63:32] of a 64-bit value. -/
def lo32 (v : BitVec 64) : Word := v.setWidth 32
def hi32 (v : BitVec 64) : Word := (v >>> 32).setWidth 32

/-- Low and high words of a 44-bit address. -/
def addrLo (a : BitVec 44) : Word := a.setWidth 32
def addrHi (a : BitVec 44) : Word := (a >>> 32).setWidth 32

/-- A number as a register word. -/
def w32 (n : Nat) : Word := BitVec.ofNat 32 n

/-- Identity and features (Table SU-4). -/
def State.readId (s : State) (o : Nat) : Option Word :=
  if o = 0 then some Config.version
  else if o = 4 then some (w32 Config.placedPorts)
  else if o = 8 then some (lo32 Config.featOffer)
  else if o = 0xC then some (hi32 Config.featOffer)
  else if o = 0x10 then some (lo32 s.accept)
  else if o = 0x14 then some (hi32 s.accept)
  else none

/-- Image loader (Table SU-8). -/
def State.readImg (s : State) (o : Nat) : Option Word :=
  let i := s.img
  if o = 0 then some (addrLo i.addr)
  else if o = 4 then some (addrHi i.addr)
  else if o = 8 then some (w32 i.len.toNat)
  else if o = 0xC then some 0
  else if o = 0x10 then some (w32 (i.st.code + pl i.reason.toNat 4 + pl i.errsec.toNat 8))
  else if o = 0x14 then some (w32 i.erroff.toNat)
  else if o = 0x18 then some (lo32 i.digest)
  else if o = 0x1C then some (hi32 i.digest)
  else if o = 0x20 then some (lo32 i.fileCrc)
  else if o = 0x24 then some (hi32 i.fileCrc)
  else if o = 0x28 ∨ o = 0x2C then some 0
  else if o = 0x30 then some i.loads
  else none

/-- Collectives in QUEUED whose home member is on this die. -/
def State.queuedHere (s : State) : Nat := (s.colls.filter (fun c => decide (c.st = .queued) && decide ((s.group c.g).home = s.own))).length

/-- Global status (Table RG-3). -/
def State.readGst (s : State) (o : Nat) : Option Word :=
  let g := s.gst
  if o = 0 then some (w32 (b1 g.level + 2 * b1 s.debug + 4 * b1 s.inTest + pl s.openEntries 3))
  else if o = 4 then some (w32 g.attn.toNat)
  else if o = 8 then some (w32 g.attnEn.toNat)
  else if o = 0xC then some (w32 s.queuedHere)
  else if o = 0x10 then some (w32 g.logWr.toNat)
  else if o = 0x14 then some (w32 g.logRd.toNat)
  else if o = 0x18 then some g.logLost
  else if o = 0x1C then some g.corr
  else none

/-- One word of an error-log entry (Table RG-4). -/
def LogEntry.word (e : LogEntry) (i : Nat) : Word :=
  if i = 0 then w32 (e.code.toNat + pl e.abort.toNat 8 + pl e.group.toNat 16 + pl e.cls.toNat 28 + pl (b1 e.v) 31)
  else if i = 1 then e.arg0
  else if i = 2 then e.arg1
  else if i = 3 then w32 (e.unit.toNat + pl e.src.toNat 16)
  else if i = 4 then lo32 e.time
  else if i = 5 then hi32 e.time
  else 0

/-- WL_LOG as a register word. -/
def WlLog.word (x : WlLog) : Word := w32 (x.value.toNat + pl (b1 x.blank) 16 + pl (b1 x.err) 17 + pl (b1 x.now) 18)

/-- Write-limited settings (Table SU-2). -/
def State.readWl (s : State) (o : Nat) : Option Word :=
  let w := s.wl
  if o = 0 then some (w32 (w.dieId.toNat + pl (b1 w.dieSet) 16))
  else if o = 4 then some (w32 (w.ceil.toNat + pl (b1 w.lvlSet) 3))
  else if o = 8 then some (w32 (w.value.toNat + pl (b1 w.sel) 16))
  else if o = 0xC then
    some (w32 (b1 w.ready + 2 * b1 w.acc.isSome + 4 * b1 (w.locked 0) + 8 * b1 (w.locked 1) + pl w.last.toNat 4))
  else if 0x10 ≤ o ∧ o < 0x30 then some (w.slot ((o - 0x10) / 4)).word
  else none

/-- Time and audit (Table TA-6). -/
def State.readTime (s : State) (o : Nat) : Option Word :=
  let t := s.time
  if o = 0 then some (lo32 s.nowInt)
  else if o = 4 then some (hi32 s.nowInt)
  else if o = 8 then some t.gcPer
  else if o = 0xC then
    some (w32 (t.st.code + 4 * b1 s.isMaster + 8 * b1 t.lost + 16 * b1 t.stepped + pl (if s.isMaster then 0 else t.hops.toNat) 5))
  else if o = 0x10 then some t.offset
  else if o = 0x14 then some t.steps
  else if o = 0x18 then some t.syncCnt
  else if o = 0x1C then some t.reject
  else if o = 0x20 then some (w32 s.tm)
  else none

/-- Admission (Tables PR-11 and RG-5). -/
def State.readAdm (s : State) (o : Nat) : Option Word :=
  let a := s.adm
  if o = 0 then some s.img.cfg.adm0
  else if o = 4 then some s.img.cfg.adm1
  else if o = 8 then some s.img.cfg.adm2
  else if o = 0x10 then some a.admitted
  else if o = 0x14 then some a.refused
  else if o = 0x18 then some a.full
  else if o = 0x1C then some a.timeout
  else if o = 0x20 then some a.longq
  else if o = 0x24 then some (w32 a.tauRes.toNat)
  else if o = 0x28 then some (lo32 (a.lastB.setWidth 64))
  else if o = 0x2C then some (hi32 (a.lastB.setWidth 64))
  else if o = 0x30 then some (lo32 (a.lastBest.setWidth 64))
  else if o = 0x34 then some (hi32 (a.lastBest.setWidth 64))
  else none

/-- TIL_MON_DATA of the selected monitor. -/
def State.monData (s : State) : Word :=
  let m := s.mon s.tilth.monSel.toNat
  w32 (m.a.tap % 64 + pl (m.b.tap % 64) 6 + pl (m.lastSmin % 256) 12 + pl (m.lastTmax % 4096) 20)

/-- Tilth (Table TL-7). -/
def State.readTil (s : State) (o : Nat) : Option Word :=
  let t := s.tilth
  if o = 0 then some (w32 (t.tau % 4096 + pl (b1 s.settled) 12))
  else if o = 4 then some (w32 (b1 t.refLost + 2 * b1 t.dirty))
  else if o = 8 then some (w32 (pl t.hstate.toNat 2 + pl t.hreason.toNat 4))
  else if o = 0xC then some t.raise
  else if o = 0x10 then some t.lower
  else if o = 0x14 then some t.hard
  else if o = 0x18 then some t.neg
  else if o = 0x1C then some (w32 t.monSel.toNat)
  else if o = 0x20 then some s.monData
  else if o = 0x24 then some (w32 t.force.toNat)
  else none

/-- Power (Table TL-7); I_EST is shown in units of 0.125 A. -/
def State.readPwr (s : State) (o : Nat) : Option Word :=
  let p := s.pwr
  if o = 0 then some (w32 (p.slew.toNat + pl (b1 (p.ballEn && s.cfgShown)) 7))
  else if o = 4 then
    some (w32 (p.pace.toNat + pl p.thr.toNat 9 + pl (b1 p.below) 13 + pl (b1 p.viol) 14 + pl (b1 p.ballast) 15 + pl (p.iEst / 125 % 65536) 16))
  else if o = 8 then some p.paced
  else none

/-! ### Feeder (Tables FD-7 and FD-8) -/

/-- FD_STATUS. -/
def State.fdStatus (s : State) (c : Nat) : Word :=
  let x := s.chan c
  w32 (x.view + pl (b1 (s.quiet c)) 3 + pl (b1 x.late) 4 + pl x.err.toNat 8 + pl (dTag x.desc) 16)

/-- FD_BIND. -/
def State.fdBind (s : State) (c : Nat) : Word :=
  let x := s.chan c
  let cp := (x.binds.head?.map (fun b => b.cp)).getD 0
  let pend := x.binds.length - b1 x.bound.isSome
  match x.bound with
  | some b => w32 (b.g.toNat + pl cp 12 + pl 1 22 + pl (min pend 63) 23)
  | none => w32 (pl cp 12 + pl (min pend 63) 23)

/-- One channel window. -/
def State.readChan (s : State) (c o : Nat) : Option Word :=
  let x := s.chan c
  if o = 0 then some (w32 (b1 (decide (x.st ≠ .disabled) && decide (x.st ≠ .halted)) + pl x.pri.toNat 2))
  else if o = 8 then some (addrLo x.head)
  else if o = 0xC then some (addrHi x.head)
  else if o = 0x10 then some (s.fdStatus c)
  else if o = 0x18 then some (addrLo x.cur)
  else if o = 0x1C then some (addrHi x.cur)
  else if o = 0x20 then some x.beats
  else if o = 0x24 then some x.crc
  else if o = 0x28 then some (w32 x.done.toNat)
  else if o = 0x2C then some (s.fdBind c)
  else if o = 0x30 then some ((x.bound.map (fun b => b.k)).getD 0)
  else if o = 0x38 then some (addrLo x.errAddr)
  else if o = 0x3C then some (addrHi x.errAddr)
  else none

/-- FD_EVT_STAT n. -/
def State.evtWord (s : State) (n : Nat) : Word := w32 ((s.evtIn n).pend % 256 + pl ((s.evtIn n).overrun % 65536) 8)

/-! ### Stakes (Tables RG-7 and RG-8) -/

/-- STK_STATUS. -/
def Stake.status (x : Stake) : Word :=
  w32 (x.st.code + pl (if x.st = .training then x.step % 16 else 0) 2 + pl (min x.attempt 3) 6 + pl (b1 x.peerBad) 8 + pl (b1 x.nak) 9
    + pl (b1 x.shadow) 10)

/-- The assignment entry of stake `n` without its reserved bits (R10, Table TR-5). -/
def Cfg.assignWord (c : Cfg) (n : Nat) : Word := c.assign n &&& (if n % 2 = 0 then 0xFFFF00FF#32 else 0xFFFF00FD#32)

/-- One stake window. -/
def State.readStake (s : State) (n o : Nat) : Option Word :=
  let x := s.stake n
  if o = 0 then some 0
  else if o = 4 then some x.status
  else if o = 8 then some (s.img.cfg.assignWord n)
  else if o = 0xC then some (w32 (x.width % 16 + pl x.lanes.toNat 8 + pl x.good.toNat 16))
  else if o = 0x10 then some (w32 x.rtt.toNat)
  else if o = 0x14 then some (w32 x.hopdly.toNat)
  else if o = 0x18 then some (w32 x.ackto.toNat)
  else if o = 0x1C then some (match x.peer with | some d => w32 (d.toNat + 65536) | none => 0)
  else if o = 0x20 then some (w32 (x.txSeq.toNat + pl x.rxSeq.toNat 16))
  else if o = 0x24 then some (w32 (x.rbuf.length % 1024))
  else if o = 0x30 then some x.corr
  else if o = 0x34 then some x.uncorr
  else if o = 0x38 then some x.crcfail
  else if o = 0x3C then some x.replayC
  else if o = 0x40 then some x.retrainC
  else if o = 0x44 then some x.proto
  else if o = 0x48 then some x.badctl
  else if o = 0x4C then some x.txdata
  else if o = 0x50 then some x.rxdata
  else none

/-- Route tables and arbitration, from 0x8_4000, without reserved bits (Tables RG-8, TR-4, SU-6). -/
def State.readRoute (s : State) (o : Nat) : Option Word :=
  if o < 0x120 then some (wd s.img.cfg.routes (o / 4) &&& 0x07FF001F#32)
  else if o = 0x200 then some (s.img.cfg.arb &&& 0xFFFFFF01#32)
  else none

/-! ### The open-collective table and its control (Tables RG-9 and RG-10) -/

/-- The collective that holds entry `e`, once it has been admitted. -/
def State.entryUsed (s : State) (e : Nat) : Option Coll :=
  s.colls.find? (fun c => decide (c.entry = some e) && decide (c.st ≠ .gather) && decide (c.st ≠ .queued))

/-- Words 0 to 9 of an entry in use. R43 has the root report the silt total "in the collective status" too: Table RG-9 gives it
no field, and it is shown in the seal, the SEAL record and the suspend record alone (DESIGN CHOICE, log entry 97). -/
def State.entryWord (s : State) (c : Coll) (i : Nat) : Word :=
  if i = 0 then
    w32 (c.entryState + pl (b1 (decide (c.rd = s.own))) 3 + pl (b1 (decide ((s.group c.g).home = s.own))) 4
      + pl (b1 (!(s.group c.g).memDie s.own)) 5 + pl (b1 (isExch c.aw)) 6 + pl (isOp c.aw) 8 + pl c.g.toNat 12)
  else if i = 1 then c.k
  else if i = 2 then w32 c.b
  else if i = 3 then w32 (c.b / 2 ^ 32 % 256)
  else if i = 4 then lo32 c.tAdm
  else if i = 5 then hi32 c.tAdm
  else if i = 6 then lo32 c.dl
  else if i = 7 then hi32 c.dl
  else if i = 8 then (if c.rd = s.own then w32 c.released else 0)
  else if i = 9 then w32 (c.wales % 65536)
  else 0

/-- Word `i` of entry `e`; a trap record stays until the entry is taken again (R420). -/
def State.readEntry (s : State) (e i : Nat) : Word :=
  match s.entryUsed e with
  | some c => if 12 ≤ i then wd c.trapWords (i - 12) else s.entryWord c i
  | none => if 12 ≤ i then wd (mget [0, 0, 0, 0] s.col.entryTrap e) (i - 12) else 0

/-- Collective control. -/
def State.readCol (s : State) (o : Nat) : Option Word :=
  let c := s.col
  if o = 0 then some (addrLo c.suspAddr)
  else if o = 4 then some (addrHi c.suspAddr)
  else if o = 8 then some (w32 (c.suspGroup.toNat + pl c.suspOp.toNat 12))
  else if o = 0xC then some (w32 (c.suspSt.toNat + pl c.suspGrp.toNat 4))
  else if o = 0x10 then some (w32 c.suspSize.toNat)
  else if o = 0x14 then some (w32 (c.killGroup.toNat + pl c.killRes.toNat 13))
  else if o = 0x18 then some c.killSeq
  else if 0x20 ≤ o ∧ o < 0x30 then some (wd c.lastTrap ((o - 0x20) / 4))
  else none

/-! ### Exchange, update port, debug (Tables RG-11, UP-4, RG-12, HP-8) -/

/-- The stored bytes of the selected expert-map entry, complements included (R423). -/
def State.mapWord (s : State) (i : Nat) : Word :=
  if s.img.cfg.hasMap = false then 0
  else
    match s.img.cfg.experts.find? (fun x => decide (x.1 = s.exc.mapSel.toNat)) with
    | some (_, v) => (v >>> (32 * i)).setWidth 32
    | none => if i < 2 then 0 else 0xFFFFFFFF

def State.readExc (s : State) (o : Nat) : Option Word :=
  let x := s.exc
  if o = 0 then some (w32 (b1 s.img.cfg.hasMap + 2 * b1 (s.feat 4)))
  else if o = 4 then some (w32 x.mapSel.toNat)
  else if 8 ≤ o ∧ o < 0x18 then some (s.mapWord ((o - 8) / 4))
  else if o = 0x18 then some x.placed
  else if o = 0x1C then some x.dropped
  else if o = 0x20 then some x.slots
  else if o = 0x24 then some x.tokens
  else none

/-- UPD_STATUS.OPEN. -/
def State.updOpen (s : State) : Nat :=
  (s.colls.filter (fun c => c.toUpd && c.entry.isSome && decide (c.st ≠ .gather) && decide (c.st ≠ .queued) && decide (c.rd = s.own)
    && !c.updEnd)).length + (s.upd.fifo.filter (fun b => b.old && b.eor && decide (b.kind ≠ 0))).length

def State.readUpd (s : State) (o : Nat) : Option Word :=
  let u := s.upd
  if o = 0 then some (w32 (b1 u.elide))
  else if o = 4 then some (w32 (min s.updOpen 255 + pl (min u.fifo.length 128) 8 + pl (b1 u.fifo.isEmpty) 16))
  else if o = 8 then some u.records
  else if o = 0xC then some u.seals
  else if o = 0x10 then some u.aborts
  else if o = 0x14 then some u.elided
  else if o = 0x18 then some u.stall
  else if o = 0x1C then some u.skewCnt
  else if o = 0x20 then some (w32 (u.skewG.toNat + pl (b1 u.skewV) 31))
  else if o = 0x24 then some u.skewSeq
  else if o = 0x28 then some (lo32 u.skewMin)
  else if o = 0x2C then some (hi32 u.skewMin)
  else if o = 0x30 then some (lo32 u.skewMax)
  else if o = 0x34 then some (hi32 u.skewMax)
  else none

def State.readDbg (s : State) (o : Nat) : Option Word :=
  let d := s.dbg
  if o = 0 then some (w32 (b1 s.debug + 2 * b1 d.pin))
  else if o = 0x10 then some (w32 d.forceVal.toNat)
  else if o = 0x14 then some (w32 (d.forceIdx.toNat + pl (b1 d.forceMode) 18))
  else if o = 0x20 then some (w32 (d.injKind.toNat + pl d.injUnit.toNat 4 + pl (b1 d.armed) 15))
  else if o = 0x24 then some d.injCnt
  else none

/-! ### The whole map (Table RG-2) -/

/-- What the register at a byte offset holds now; none where no register is (R413). -/
def State.regNow (s : State) (o : Nat) : Option Word :=
  if o < 0x1000 then s.readId o
  else if o < 0x2000 then s.readImg (o - 0x1000)
  else if o < 0x2800 then s.readGst (o - 0x2000)
  else if o < 0x3000 then some ((mget LogEntry.zero s.gst.log ((o - 0x2800) / 32)).word (o / 4 % 8))
  else if o < 0x4000 then s.readWl (o - 0x3000)
  else if o < 0x8000 then s.readTime (o - 0x4000)
  else if o < 0x9000 then s.readAdm (o - 0x8000)
  else if o < 0x9400 then s.readTil (o - 0x9000)
  else if o < 0xA000 then (if o < 0x9C40 then some (s.histWord ((o - 0x9400) / 4)) else none)
  else if o < 0x10000 then s.readPwr (o - 0xA000)
  else if o < 0x14000 then s.readChan ((o - 0x10000) / 256) (o % 256)
  else if o < 0x20000 then
    (if o < 0x14040 then some (s.evtWord ((o - 0x14000) / 4)) else if o = 0x14040 then some s.fdw.evoLost else none)
  else if o < 0x80000 then
    (if (o - 0x20000) / 8 < 48 * Config.placedPorts then some (s.hoopWord ((o - 0x20000) / 8) (decide (o % 8 = 4))) else none)
  else if o < 0x84000 then s.readStake ((o - 0x80000) / 1024) (o % 1024)
  else if o < 0x90000 then s.readRoute (o - 0x84000)
  else if o < 0x98000 then some (s.readEntry ((o - 0x90000) / 64) (o / 4 % 16))
  else if o < 0xA0000 then s.readCol (o - 0x98000)
  else if o < 0xB0000 then s.readExc (o - 0xA0000)
  else if o < 0xC0000 then s.readUpd (o - 0xB0000)
  else s.readDbg (o - 0xC0000)

/-! ### Latched groups (R414) -/

/-- The latched group that holds an offset: the offset of its lowest word, and its words. -/
def latchGroup (o : Nat) : Option (Nat × Nat) :=
  if 0x90000 ≤ o ∧ o < 0x98000 then some (o / 64 * 64, 16)
  else if 0x10000 ≤ o ∧ o < 0x14000 then
    (let x := o % 256
     if x = 8 ∨ x = 0xC ∨ x = 0x18 ∨ x = 0x1C ∨ x = 0x38 ∨ x = 0x3C then some (o / 8 * 8, 2) else none)
  else if 0xB0020 ≤ o ∧ o < 0xB0038 then some (0xB0020, 6)
  else if [0x4000, 0x1000, 0x1018, 0x1020, 0x1028, 0x8028, 0x8030, 0x98000].contains (o / 8 * 8) then some (o / 8 * 8, 2)
  else none

/-- Latch the other words of a group as they stand. -/
def State.latch (s : State) (base : Nat) : Nat → State
  | 0 => s
  | n + 1 =>
    let t := s.latch base n
    if n = 0 then t
    else { t with ct := { t.ct with latch := mput none t.ct.latch (base / 4 + n) (some ((s.regNow (base + 4 * n)).getD 0)) } }

/-- What an entry read names for a later ABORT write (R420). -/
def State.noteEntry (s : State) (e : Nat) : State :=
  { s with ct := { s.ct with entryRead := mput none s.ct.entryRead e ((s.entryUsed e).map (fun c => (c.g, c.k))) } }

/-- A control-port read (R373, R414): the state after it and its value; none where no register is. -/
def State.ctRead (s : State) (o : Nat) : State × Option Word :=
  if 0x20000 ≤ o ∧ o < 0x80000 ∧ (o - 0x20000) / 8 < 48 * Config.placedPorts then
    let r := s.hoopRead ((o - 0x20000) / 8) (decide (o % 8 = 4)) .clean
    (r.1, some r.2)
  else
    match latchGroup o with
    | none => (s, s.regNow o)
    | some (base, n) =>
      if o = base then
        let s1 := s.latch base n
        (if 0x90000 ≤ o ∧ o < 0x98000 then s1.noteEntry ((o - 0x90000) / 64) else s1, s.regNow o)
      else
        match mget none s.ct.latch (o / 4) with
        | some w => (s, some w)
        | none => (s, s.regNow o)

/-- LATCHED_GROUP_READ: one control-port read at CT_ADDR. -/
def State.readAccess (s : State) (addr : BitVec 18) : State :=
  let r := s.ctRead (4 * addr.toNat)
  r.1.ctDone (r.2.getD 0) r.2.isNone

def execLatchedGroupRead (addr : BitVec 18) (s : State) : Host.Outcome State Fault Refusal :=
  live s (fun s => (s.readAccess addr).settle)

/-! ### Writes (R411, R415) -/

/-- GST_LOG_RD (R417): only forward, within the unread span. -/
def Gst.writeRd (g : Gst) (v : Word) : Gst :=
  let n : BitVec 7 := v.setWidth 7
  if (n - g.logRd).toNat ≤ (g.logWr - g.logRd).toNat then { g with logRd := n } else g

/-- GST_LOG_RD_WRITE (R417). -/
def execGstLogRdWrite (v : Word) (s : State) : Host.Outcome State Fault Refusal :=
  live s (fun s => { s with gst := s.gst.writeRd v })

/-- Bits [31:6] of an address register. -/
def setAddrLo (a : BitVec 44) (v : Word) : BitVec 44 := BitVec.ofNat 44 (a.toNat / 2 ^ 32 * 2 ^ 32 + v.toNat / 64 * 64)

/-- Bits [43:32] of an address register. -/
def setAddrHi (a : BitVec 44) (v : Word) : BitVec 44 := BitVec.ofNat 44 (wf_ v 11 0 * 2 ^ 32 + a.toNat % 2 ^ 32)

def State.writeImg (s : State) (o : Nat) (v : Word) : State :=
  if o = 0 then { s with img := { s.img with addr := setAddrLo s.img.addr v } }
  else if o = 4 then { s with img := { s.img with addr := setAddrHi s.img.addr v } }
  else if o = 8 then { s with img := { s.img with len := v.setWidth 23 } }
  else if o = 0xC then s.load v
  else if o = 0x28 then (if s.img.st = .checked then { s with img := { s.img with signLo := v } } else s)
  else if o = 0x2C then s.signoff v
  else s

def State.writeGst (s : State) (o : Nat) (v : Word) : State :=
  if o = 4 then { s with gst := { s.gst with attn := s.gst.attn &&& ~~~(v.setWidth 11) } }
  else if o = 8 then { s with gst := { s.gst with attnEn := v.setWidth 11 } }
  else if o = 0x14 then { s with gst := s.gst.writeRd v }
  else s

def State.writeTime (s : State) (o : Nat) (v : Word) : State :=
  if o = 8 then s.gcPeriod v
  else if o = 0xC then
    { s with time := { s.time with lost := s.time.lost && !wbit v 3, stepped := s.time.stepped && !wbit v 4 } }
  else s

def State.writeTil (s : State) (o : Nat) (v : Word) : State :=
  if o = 4 then { s with tilth := { s.tilth with refLost := s.tilth.refLost && !wbit v 0 } }
  else if o = 8 then s.histCtrl v
  else if o = 0x1C then { s with tilth := { s.tilth with monSel := v.setWidth 11 } }
  else if o = 0x24 then s.tilForce v
  else s

def State.writePwr (s : State) (o : Nat) (v : Word) : State :=
  if o = 0 then s.pwrCfg v
  else if o = 4 then { s with pwr := { s.pwr with below := s.pwr.below && !wbit v 13, viol := s.pwr.viol && !wbit v 14 } }
  else s

def State.writeChan (s : State) (c o : Nat) (v : Word) : State :=
  if o = 0 then s.fdCtrl c v
  else if o = 8 then s.onChan c (fun x => { x with head := setAddrLo x.head v })
  else if o = 0xC then s.onChan c (fun x => { x with head := setAddrHi x.head v })
  else if o = 0x10 then s.onChan c (fun x => { x with late := x.late && !wbit v 4 })
  else s

/-- W1C bits of a hoop entry (Table HP-7). -/
def Hoop.w1c (h : Hoop) (v : Word) : Hoop :=
  { h with ovr := h.ovr && !wbit v 28, stale := h.stale && !wbit v 29, excess := h.excess && !wbit v 30 }

/-- STK_CTRL: RETRAIN and CLRCNT (R418). -/
def State.stkCtrl (s : State) (n : Nat) (v : Word) : State :=
  let s1 := if wbit v 1 then s.onStake n Stake.clrcnt else s
  if wbit v 0 then s1.retrainReq n else s1

def State.writeCol (s : State) (o : Nat) (v : Word) : State :=
  if o = 0 then { s with col := { s.col with suspAddr := setAddrLo s.col.suspAddr v } }
  else if o = 4 then { s with col := { s.col with suspAddr := setAddrHi s.col.suspAddr v } }
  else if o = 8 then s.suspRequest v
  else if o = 0x14 then s.colKill v
  else if o = 0x18 then { s with col := { s.col with killSeq := v } }
  else s

def State.writeDbg (s : State) (o : Nat) (v : Word) : State :=
  if o = 0x10 then (if s.debug then { s with dbg := { s.dbg with forceVal := v.setWidth 12 } } else s)
  else if o = 0x14 then s.hpForce v
  else if o = 0x20 then s.dbgInject v
  else s

/-- A write to the register at a byte offset. A write to a read-only register or to no register changes nothing. -/
def State.regWrite (s : State) (o : Nat) (v : Word) : State :=
  if o < 0x1000 then (if o = 0x10 then s.acceptWrite false v else if o = 0x14 then s.acceptWrite true v else s)
  else if o < 0x2000 then s.writeImg (o - 0x1000) v
  else if o < 0x2800 then s.writeGst (o - 0x2000) v
  else if o < 0x3000 then s
  else if o < 0x4000 then (if o = 0x3008 then s.wlProg v else s)
  else if o < 0x8000 then s.writeTime (o - 0x4000) v
  else if o < 0x9000 then s
  else if o < 0x9400 then s.writeTil (o - 0x9000) v
  else if o < 0xA000 then
    (if o < 0x9C40 then { s with tilth := { s.tilth with hist := mput 0#32 s.tilth.hist ((o - 0x9400) / 4) (v &&& histMask ((o - 0x9400) / 4)) } } else s)
  else if o < 0x10000 then s.writePwr (o - 0xA000) v
  else if o < 0x14000 then s.writeChan ((o - 0x10000) / 256) (o % 256) v
  else if o < 0x20000 then (if o < 0x14040 then s.evtClr ((o - 0x14000) / 4) v else s)
  else if o < 0x80000 then
    (let i := (o - 0x20000) / 8
     if o % 8 = 0 ∧ i < 48 * Config.placedPorts then s.setHoop i ((s.hoop i).w1c v) else s)
  else if o < 0x84000 then (if o % 1024 = 0 then s.stkCtrl ((o - 0x80000) / 1024) v else s)
  else if o < 0x90000 then s
  else if o < 0x98000 then (if o % 64 = 0x28 then s.entryAbort ((o - 0x90000) / 64) v else s)
  else if o < 0xA0000 then s.writeCol (o - 0x98000) v
  else if o < 0xB0000 then (if o = 0xA0004 then { s with exc := { s.exc with mapSel := v.setWidth 16 } } else s)
  else if o < 0xC0000 then
    (if o = 0xB0000 then { s with upd := { s.upd with elide := wbit v 0 } }
     else if o = 0xB0020 then { s with upd := { s.upd with skewV := s.upd.skewV && !wbit v 31 } } else s)
  else s.writeDbg (o - 0xC0000) v

/-- A control-port write at CT_ADDR (R373): CT_ERR where no register is. -/
def State.writeAccess (s : State) (addr : BitVec 18) (v : Word) : State :=
  let o := 4 * addr.toNat
  (s.regWrite o v).ctDone 0 (s.regNow o).isNone

/-- REGISTER_WRITE (R411). -/
def execRegisterWrite (addr : BitVec 18) (v : Word) (s : State) : Host.Outcome State Fault Refusal :=
  live s (fun s => s.writeAccess addr v)

end Sys2Proof.Machine
end

