-- ==== Sys2Proof/Machine/Wrapper.lean ====
section
/-! DEFINITION. The IEEE 1500 wrapper (spec/14 R385 to R388). -/

namespace Sys2Proof.Machine

/-- The data registers of the wrapper (Table PI-13). -/
inductive WrapReg where
  | bypass | boundary | mbist | sweep | idcode | ctrl
  deriving DecidableEq, Repr

/-- The data register that a code selects; a reserved code acts as WS_BYPASS (R386). -/
def wrapReg (code : BitVec 4) : WrapReg :=
  if code = 1 ∨ code = 2 then .boundary
  else if code = 3 then .mbist
  else if code = 4 then .sweep
  else if code = 5 then .idcode
  else if code = 6 then .ctrl
  else .bypass

/-- The wrapper instruction register takes a code, and a reserved one as WS_BYPASS (R386). -/
def State.wir (s : State) (code : BitVec 4) : State :=
  { s with wrap := { s.wrap with ir := if wrapReg code = .bypass then 0 else code } }

/-- What block output cell `i` shows outside: the cell under WS_EXTEST, and the block's own level otherwise. -/
def State.outCell (s : State) (i : Nat) (own : Bool) : Bool := if s.wrap.ir = 1 then Config.boundaryCell s.wrap.cells i else own

/-- What the block sees at input cell `i`: the cell under WS_INTEST, and the pin otherwise. -/
def State.inCell (s : State) (i : Nat) (pin : Bool) : Bool := if s.wrap.ir = 2 then Config.boundaryCell s.wrap.cells i else pin

/-- Test state (R388): the image is invalidated and the block answers nothing until a reset. -/
def State.enterTest (s : State) : State :=
  if s.img.st = .test then s
  else
    let s1 := if s.img.st = .inService ∨ s.img.st = .checked then s.invalidate else s.orphanLoader
    { s1 with img := { s1.img with st := .test, buf := [], buf2 := [], next := 0 } }

/-- The boundary cells capture: block inputs under WS_EXTEST, block outputs under WS_INTEST; their other half holds what was
shifted in. The spec gives no levels (log entry 4). -/
def State.capture (s : State) : State := { s with wrap := { s.wrap with cells := s.free }, free := s.free + 1 }

/-- The bits of a tile's self-test, and of its sweep, as reported; which bit is which is not stated (log entry 4). -/
def bistOf (w : BitVec 8) : Bist := ⟨w.getLsbD 0, w.getLsbD 1, w.getLsbD 2, w.extractLsb' 3 5⟩
def sweepOf (w : BitVec 16) : Sweep := ⟨w.setWidth 6, w.getLsbD 6, w.extractLsb' 7 9⟩

/-- The SRAM self-test of every one of the 160 tiles runs and reports. -/
def State.mbist (s : State) : State :=
  { s with wrap := { s.wrap with bist := (List.range 160).foldl (fun m i => mput Bist.zero m i (bistOf (Config.mbistResult s.free i))) s.wrap.bist },
           free := s.free + 1 }

/-- Every tile sweeps its tap sets and reports the lowest passing tap. -/
def State.dlysweep (s : State) : State :=
  { s with wrap := { s.wrap with sweep := (List.range 160).foldl (fun m i => mput Sweep.zero m i (sweepOf (Config.sweepResult s.free i))) s.wrap.sweep },
           free := s.free + 1 }

/-- WS_BYPASS: the bypass bit of every tile stands between WSI and WSO, with no effect on operation. -/
def execWsBypass (s : State) : Host.Outcome State Fault Refusal :=
  live s (fun s => let t := s.wir 0; { t with wrap := { t.wrap with bypass := Config.bypassBits t.free }, free := t.free + 1 })

/-- WS_EXTEST. -/
def execWsExtest (s : State) : Host.Outcome State Fault Refusal := live s (fun s => (s.enterTest.wir 1).capture)

/-- WS_INTEST. -/
def execWsIntest (s : State) : Host.Outcome State Fault Refusal := live s (fun s => (s.enterTest.wir 2).capture)

/-- SZ_MBIST. -/
def execSzMbist (s : State) : Host.Outcome State Fault Refusal := live s (fun s => (s.enterTest.wir 3).mbist)

/-- SZ_DLYSWEEP (R244): its results are not tilth history. -/
def execSzDlysweep (s : State) : Host.Outcome State Fault Refusal := live s (fun s => (s.enterTest.wir 4).dlysweep)

/-- SZ_IDCODE returns VERSION. -/
def execSzIdcode (s : State) : Host.Outcome State Fault Refusal :=
  live s (fun s => let t := s.wir 5; { t with wrap := { t.wrap with idcode := Config.version } })

/-- What the next capture loads after an access: CT_ERR, the address, and the read data (R387). -/
def ctrlWord (err : Bool) (addr : BitVec 18) (data : Word) : BitVec 51 :=
  BitVec.ofNat 51 (b1 err + pl addr.toNat 1 + pl data.toNat 19)

/-- SZ_CTRL (R387): one control-port access; `busy` when the previous access has not completed. -/
def State.szCtrl (s : State) (r : BitVec 51) (busy : Bool) : State :=
  let s0 := s.wir 6
  if busy then { s0 with wrap := { s0.wrap with szctrl := 1 } }
  else
    let addr : BitVec 18 := BitVec.ofNat 18 (fld r.toNat 18 1)
    let v : Word := BitVec.ofNat 32 (fld r.toNat 50 19)
    let s1 := if r.getLsbD 0 then s0.writeAccess addr v else (s0.readAccess addr).settle
    { s1 with wrap := { s1.wrap with szctrl := ctrlWord s1.ct.err addr s1.ct.rdata } }

def execSzCtrl (r : BitVec 51) (busy : Bool) (s : State) : Host.Outcome State Fault Refusal := live s (fun s => s.szCtrl r busy)

end Sys2Proof.Machine
end

