-- ==== Sys2Proof/Machine/Dispatch.lean ====
section
/-! DEFINITION. The dispatch: one arm for each command, each a direct call of that command's meaning. -/

namespace Sys2Proof.Machine

/-- What a command does to the state (everything but the queue). -/
def exec (i : Instr) (s : State) : Host.Outcome State Fault Refusal :=
  match i with
  | .fusedIssue x0 x1 x2 => Sys2Proof.Machine.execFusedIssue x0 x1 x2 s
  | .arm x0 x1 x2 => Sys2Proof.Machine.execArm x0 x1 x2 s
  | .signal x0 x1 x2 => Sys2Proof.Machine.execSignal x0 x1 x2 s
  | .wait x0 x1 x2 => Sys2Proof.Machine.execWait x0 x1 x2 s
  | .disarm x0 x1 x2 => Sys2Proof.Machine.execDisarm x0 x1 x2 s
  | .hoopSignalArrival x0 x1 => Sys2Proof.Machine.execHoopSignalArrival x0 x1 s
  | .hoopTimeout x0 => Sys2Proof.Machine.execHoopTimeout x0 s
  | .ctxSwitch x0 => Sys2Proof.Machine.execCtxSwitch x0 s
  | .sendWale x0 x1 x2 => Sys2Proof.Machine.execSendWale x0 x1 x2 s
  | .combineWale x0 x1 x2 x3 x4 => Sys2Proof.Machine.execCombineWale x0 x1 x2 x3 x4 s
  | .rxWaleTaken x0 => Sys2Proof.Machine.execRxWaleTaken x0 s
  | .statusTaken x0 => Sys2Proof.Machine.execStatusTaken x0 s
  | .terminalTokenTaken x0 => Sys2Proof.Machine.execTerminalTokenTaken x0 s
  | .agree x0 => Sys2Proof.Machine.execAgree x0 s
  | .refuse x0 => Sys2Proof.Machine.execRefuse x0 s
  | .gatherLimitExpiry x0 x1 => Sys2Proof.Machine.execGatherLimitExpiry x0 x1 s
  | .reserve x0 => Sys2Proof.Machine.execReserve x0 s
  | .reserveReport x0 => Sys2Proof.Machine.execReserveReport x0 s
  | .admission x0 => Sys2Proof.Machine.execAdmission x0 s
  | .releaseReservation x0 => Sys2Proof.Machine.execReleaseReservation x0 s
  | .reserveRetry x0 x1 => Sys2Proof.Machine.execReserveRetry x0 x1 s
  | .queuedLong x0 x1 => Sys2Proof.Machine.execQueuedLong x0 x1 s
  | .launchFire x0 x1 => Sys2Proof.Machine.execLaunchFire x0 x1 s
  | .boundExpiry x0 x1 => Sys2Proof.Machine.execBoundExpiry x0 x1 s
  | .fault x0 => Sys2Proof.Machine.execFault x0 s
  | .close x0 => Sys2Proof.Machine.execClose x0 s
  | .allSent x0 => Sys2Proof.Machine.execAllSent x0 s
  | .token x0 => Sys2Proof.Machine.execToken x0 s
  | .fprint x0 => Sys2Proof.Machine.execFprint x0 s
  | .wcred x0 => Sys2Proof.Machine.execWcred x0 s
  | .xcred x0 => Sys2Proof.Machine.execXcred x0 s
  | .lost x0 => Sys2Proof.Machine.execLost x0 s
  | .entryAbort x0 x1 => Sys2Proof.Machine.execEntryAbort x0 x1 s
  | .colKill x0 => Sys2Proof.Machine.execColKill x0 s
  | .suspend x0 => Sys2Proof.Machine.execSuspend x0 s
  | .resume x0 => Sys2Proof.Machine.execResume x0 s
  | .susp x0 => Sys2Proof.Machine.execSusp x0 s
  | .suspendDrainDone x0 => Sys2Proof.Machine.execSuspendDrainDone x0 s
  | .suspendRecordWritten x0 => Sys2Proof.Machine.execSuspendRecordWritten x0 s
  | .resumeReloadDone x0 => Sys2Proof.Machine.execResumeReloadDone x0 s
  | .suspDone x0 => Sys2Proof.Machine.execSuspDone x0 s
  | .dataFlitReceive x0 x1 x2 => Sys2Proof.Machine.execDataFlitReceive x0 x1 x2 s
  | .linkFlitReceive x0 x1 => Sys2Proof.Machine.execLinkFlitReceive x0 x1 s
  | .ackTimeout x0 => Sys2Proof.Machine.execAckTimeout x0 s
  | .nakRepeat x0 => Sys2Proof.Machine.execNakRepeat x0 s
  | .linkFlitDue x0 => Sys2Proof.Machine.execLinkFlitDue x0 s
  | .replayShadowEnd x0 => Sys2Proof.Machine.execReplayShadowEnd x0 s
  | .trainFlitReceive x0 x1 x2 => Sys2Proof.Machine.execTrainFlitReceive x0 x1 x2 s
  | .idFlitDue x0 => Sys2Proof.Machine.execIdFlitDue x0 s
  | .probeRetry x0 => Sys2Proof.Machine.execProbeRetry x0 s
  | .trainingWord x0 x1 x2 => Sys2Proof.Machine.execTrainingWord x0 x1 x2 s
  | .trainingTimeout x0 => Sys2Proof.Machine.execTrainingTimeout x0 s
  | .phyResetDone x0 => Sys2Proof.Machine.execPhyResetDone x0 s
  | .skPhyRdyRise x0 x1 => Sys2Proof.Machine.execSkPhyRdyRise x0 x1 s
  | .skPhyRdyFall x0 x1 => Sys2Proof.Machine.execSkPhyRdyFall x0 x1 s
  | .skLaneFlt x0 x1 => Sys2Proof.Machine.execSkLaneFlt x0 x1 s
  | .retrain x0 => Sys2Proof.Machine.execRetrain x0 s
  | .clrcnt x0 => Sys2Proof.Machine.execClrcnt x0 s
  | .syncDue => Sys2Proof.Machine.execSyncDue s
  | .sync x0 x1 x2 x3 x4 => Sys2Proof.Machine.execSync x0 x1 x2 x3 x4 s
  | .follow x0 x1 x2 x3 x4 x5 => Sys2Proof.Machine.execFollow x0 x1 x2 x3 x4 x5 s
  | .timeHoldover => Sys2Proof.Machine.execTimeHoldover s
  | .refclkLost => Sys2Proof.Machine.execRefclkLost s
  | .refclkRestored => Sys2Proof.Machine.execRefclkRestored s
  | .calibration => Sys2Proof.Machine.execCalibration s
  | .monitorSample x0 x1 x2 x3 => Sys2Proof.Machine.execMonitorSample x0 x1 x2 x3 s
  | .tilthWindowEnd x0 => Sys2Proof.Machine.execTilthWindowEnd x0 s
  | .tapChangeApply x0 x1 => Sys2Proof.Machine.execTapChangeApply x0 x1 s
  | .snap x0 => Sys2Proof.Machine.execSnap x0 s
  | .snapshotCopy => Sys2Proof.Machine.execSnapshotCopy s
  | .historyLoad x0 => Sys2Proof.Machine.execHistoryLoad x0 s
  | .tilForce x0 => Sys2Proof.Machine.execTilForce x0 s
  | .governorInterval x0 x1 => Sys2Proof.Machine.execGovernorInterval x0 x1 s
  | .throttleChange x0 => Sys2Proof.Machine.execThrottleChange x0 s
  | .pwrCfgWrite x0 => Sys2Proof.Machine.execPwrCfgWrite x0 s
  | .fdEn x0 x1 => Sys2Proof.Machine.execFdEn x0 x1 s
  | .fdDisable x0 x1 => Sys2Proof.Machine.execFdDisable x0 x1 s
  | .fdPriWrite x0 x1 => Sys2Proof.Machine.execFdPriWrite x0 x1 s
  | .feederBeatRequest x0 => Sys2Proof.Machine.execFeederBeatRequest x0 s
  | .memoryResponse x0 x1 x2 x3 x4 => Sys2Proof.Machine.execMemoryResponse x0 x1 x2 x3 x4 s
  | .counterTrigger x0 => Sys2Proof.Machine.execCounterTrigger x0 s
  | .evtIn x0 x1 => Sys2Proof.Machine.execEvtIn x0 x1 s
  | .evtOutPulseEnd x0 => Sys2Proof.Machine.execEvtOutPulseEnd x0 s
  | .fdEvtClr x0 x1 => Sys2Proof.Machine.execFdEvtClr x0 x1 s
  | .updateBeatTaken => Sys2Proof.Machine.execUpdateBeatTaken s
  | .resetAssert => Sys2Proof.Machine.execResetAssert s
  | .resetRelease => Sys2Proof.Machine.execResetRelease s
  | .fuseAck x0 x1 x2 => Sys2Proof.Machine.execFuseAck x0 x1 x2 s
  | .fuseTimeout => Sys2Proof.Machine.execFuseTimeout s
  | .wlProg x0 => Sys2Proof.Machine.execWlProg x0 s
  | .gcPeriodWrite x0 => Sys2Proof.Machine.execGcPeriodWrite x0 s
  | .featAcceptWrite x0 x1 => Sys2Proof.Machine.execFeatAcceptWrite x0 x1 s
  | .load x0 => Sys2Proof.Machine.execLoad x0 s
  | .imageCheckDone => Sys2Proof.Machine.execImageCheckDone s
  | .imageApplyDone => Sys2Proof.Machine.execImageApplyDone s
  | .signoff x0 => Sys2Proof.Machine.execSignoff x0 s
  | .gstLogRdWrite x0 => Sys2Proof.Machine.execGstLogRdWrite x0 s
  | .setCount x0 => Sys2Proof.Machine.execSetCount x0 s
  | .setTarget x0 => Sys2Proof.Machine.execSetTarget x0 s
  | .debugRelease x0 => Sys2Proof.Machine.execDebugRelease x0 s
  | .dbgInject x0 => Sys2Proof.Machine.execDbgInject x0 s
  | .dbgEnChange x0 => Sys2Proof.Machine.execDbgEnChange x0 s
  | .latchedGroupRead x0 => Sys2Proof.Machine.execLatchedGroupRead x0 s
  | .registerWrite x0 x1 => Sys2Proof.Machine.execRegisterWrite x0 x1 s
  | .wsBypass => Sys2Proof.Machine.execWsBypass s
  | .wsExtest => Sys2Proof.Machine.execWsExtest s
  | .wsIntest => Sys2Proof.Machine.execWsIntest s
  | .szMbist => Sys2Proof.Machine.execSzMbist s
  | .szDlysweep => Sys2Proof.Machine.execSzDlysweep s
  | .szIdcode => Sys2Proof.Machine.execSzIdcode s
  | .szCtrl x0 x1 => Sys2Proof.Machine.execSzCtrl x0 x1 s
  | .idleFlitReceive x0 x1 => Sys2Proof.Machine.execIdleFlitReceive x0 x1 s
  | .hoopEntryRead x0 x1 x2 => Sys2Proof.Machine.execHoopEntryRead x0 x1 x2 s
  | .vddSzRemoval => Sys2Proof.Machine.execVddSzRemoval s

end Sys2Proof.Machine
end

