-- ==== Sys2Proof/Machine/Tick.lean ====
section
/-! DEFINITION. What the block does by its own clocks while no command waits (log entry 5). -/

namespace Sys2Proof.Machine

/-- One cycle of the update port in which the beat that stands there is not taken (Table UP-4, UPD_STALL). -/
def State.updCycle (s : State) : State :=
  if s.upd.fifo.isEmpty then s else { s with upd := { s.upd with stall := satInc s.upd.stall } }

/-- One tick: an edge of REFCLK while it runs (R337, R346); one SK_PCLK cycle of every stake, in which the PHY takes the lane
words where the free value `acc` says so (SK_TX_ACC, R178, log entry 91) and the receiver hands on what its points admit;
what that lets happen; and one cycle of the update port. -/
def State.tick (s : State) : State :=
  if s.alive then
    let s1 : State := if s.time.stopped then s else { s with time := s.time.edge }
    let f := s1.freeNext
    let s2 := f.2.pclks f.1
    ((List.range 16).foldl (fun t n => t.rxAll n) s2).settle.updCycle
  else s

end Sys2Proof.Machine
end

