-- ==== Sys2Proof/Safety.lean ====
section
/-! DEFINITION. What counts as a safe state of the block, in the terms that the statements use: the ranges that the
spec gives to control registers, and the canonical form of the tables. -/

namespace Sys2Proof.Machine

/-- The error log is a ring of 64 entries: at most 64 are unread (R417). -/
def State.logOk (s : State) : Prop := s.gst.unread ≤ 64

/-- GC_PERIOD lies in its legal range (R337), SLEW in 1 to 64 (R264). -/
def State.rangesOk (s : State) : Prop :=
  0x40000 ≤ s.time.gcPer.toNat ∧ s.time.gcPer.toNat ≤ 0x280000 ∧ 1 ≤ s.pwr.slew.toNat ∧ s.pwr.slew.toNat ≤ 64

/-- The tables of feeder channels, hoops, core ports, stakes, error-log entries, event lines, suspended groups,
trap records, slack monitors, ageing history, pacing accumulators, channel rotations, agreements counted and tile results are each in the
canonical form of a sparse map. -/
def State.canon (s : State) : Prop :=
  mwf Chan.zero s.chans = true ∧ mwf Hoop.zero s.hoops = true ∧ mwf Port.zero s.ports = true
    ∧ mwf Stake.zero s.stakes = true ∧ mwf LogEntry.zero s.gst.log = true ∧ mwf ⟨0, 0⟩ s.fdw.evtIn = true
    ∧ mwf ⟨false, []⟩ s.fdw.evtOut = true ∧ mwf SuspG.zero s.col.susp = true
    ∧ mwf [0, 0, 0, 0] s.col.entryTrap = true ∧ mwf Mon.zero s.tilth.mons = true ∧ mwf 0#32 s.tilth.hist = true
    ∧ mwf 0 s.pwr.accs = true ∧ mwf 63 s.fdw.rrChan = true ∧ mwf 0 s.col.agCnt = true
    ∧ mwf Bist.zero s.wrap.bist = true ∧ mwf Sweep.zero s.wrap.sweep = true

/-- The invariant of the block: canonical tables, an error log within its ring, control registers within range. -/
def State.Inv (s : State) : Prop := s.canon ∧ s.logOk ∧ s.rangesOk

/-- The part of the state that commands about collectives, core ports, hoops, feeder channels and stakes never write: the power
registers without the accumulators of the pacing points (R261). -/
structure Calm where
  pending : List Instr
  powered : Bool
  inReset : Bool
  ct      : Ct
  accept  : BitVec 64
  img     : Img
  wl      : Wl
  time    : Time
  tilth   : Tilth
  pwr     : Pwr
  dbg     : Dbg
  wrap    : Wrap
  free    : Nat

def State.calm (s : State) : Calm :=
  ⟨s.pending, s.powered, s.inReset, s.ct, s.accept, s.img, s.wl, s.time, s.tilth, { s.pwr with accs := [] }, s.dbg, s.wrap, s.free⟩

/-- A port's outputs only grow, and its latch stays set. -/
structure PortGrows (p r : Port) : Prop where
  latched : p.latched = true → r.latched = true
  stq : p.stq <+: r.stq
  rxq : p.rxq <+: r.rxq
  tokq : p.tokq <+: r.tokq

/-- The frame of a command about collectives, core ports, hoops, feeder channels or stakes: the registers of `Calm` are
equal; ATTN bits, NOT_READY latches, statuses, receive wales and terminal tokens are never withdrawn; the sequence
numbers and the hoops of a port outside `q` that holds no waiting command stay as they are. -/
structure Frame (q : Nat → Bool) (s t : State) : Prop where
  calm : t.calm = s.calm
  attn : ∀ i, s.gst.attn.getLsbD i = true → t.gst.attn.getLsbD i = true
  attnEn : t.gst.attnEn = s.gst.attnEn
  logRd : t.gst.logRd = s.gst.logRd
  ports : ∀ i, PortGrows (s.port i) (t.port i)
  seqs : ∀ i, q i = false → (s.port i).cmdq = [] → (t.port i).seqs = (s.port i).seqs
  hoops : ∀ i, q (i / 48) = false → (s.port (i / 48)).cmdq = [] → t.hoop i = s.hoop i

/-- The components of the state. -/
inductive Fld where
  | pending | powered | inReset | gst | ct | accept | img | wl | time
  | adm | tilth | pwr | chans | fdw | hoops | hoopNet | ports | colls
  | col | stakes | exc | upd | dbg | wrap | vc0 | free
  deriving DecidableEq, Repr

/-- The states agree in every component that the list does not name. -/
structure Only (w : List Fld) (s t : State) : Prop where
  pending : Fld.pending ∉ w → t.pending = s.pending
  powered : Fld.powered ∉ w → t.powered = s.powered
  inReset : Fld.inReset ∉ w → t.inReset = s.inReset
  gst : Fld.gst ∉ w → t.gst = s.gst
  ct : Fld.ct ∉ w → t.ct = s.ct
  accept : Fld.accept ∉ w → t.accept = s.accept
  img : Fld.img ∉ w → t.img = s.img
  wl : Fld.wl ∉ w → t.wl = s.wl
  time : Fld.time ∉ w → t.time = s.time
  adm : Fld.adm ∉ w → t.adm = s.adm
  tilth : Fld.tilth ∉ w → t.tilth = s.tilth
  pwr : Fld.pwr ∉ w → t.pwr = s.pwr
  chans : Fld.chans ∉ w → t.chans = s.chans
  fdw : Fld.fdw ∉ w → t.fdw = s.fdw
  hoops : Fld.hoops ∉ w → t.hoops = s.hoops
  hoopNet : Fld.hoopNet ∉ w → t.hoopNet = s.hoopNet
  ports : Fld.ports ∉ w → t.ports = s.ports
  colls : Fld.colls ∉ w → t.colls = s.colls
  col : Fld.col ∉ w → t.col = s.col
  stakes : Fld.stakes ∉ w → t.stakes = s.stakes
  exc : Fld.exc ∉ w → t.exc = s.exc
  upd : Fld.upd ∉ w → t.upd = s.upd
  dbg : Fld.dbg ∉ w → t.dbg = s.dbg
  wrap : Fld.wrap ∉ w → t.wrap = s.wrap
  vc0 : Fld.vc0 ∉ w → t.vc0 = s.vc0
  free : Fld.free ∉ w → t.free = s.free

/-- The components that a command may change: the statement `Obligations.CommandFrame` says that it changes
no other. -/
def Sys2Proof.Instr.writes (c : Instr) : List Fld :=
  match c with
  | .fusedIssue _ _ _ => [.gst, .adm, .pwr, .chans, .fdw, .hoops, .hoopNet, .ports, .colls, .col, .stakes, .exc, .upd, .vc0]
  | .arm _ _ _ => [.gst, .adm, .pwr, .chans, .fdw, .hoops, .hoopNet, .ports, .colls, .col, .stakes, .exc, .upd, .vc0]
  | .signal _ _ _ => [.gst, .adm, .pwr, .chans, .fdw, .hoops, .hoopNet, .ports, .colls, .col, .stakes, .exc, .upd, .vc0]
  | .wait _ _ _ => [.gst, .adm, .pwr, .chans, .fdw, .hoops, .hoopNet, .ports, .colls, .col, .stakes, .exc, .upd, .vc0]
  | .disarm _ _ _ => [.gst, .adm, .pwr, .chans, .fdw, .hoops, .hoopNet, .ports, .colls, .col, .stakes, .exc, .upd, .vc0]
  | .hoopSignalArrival _ _ => [.gst, .adm, .pwr, .chans, .fdw, .hoops, .hoopNet, .ports, .colls, .col, .stakes, .exc, .upd, .vc0]
  | .hoopTimeout _ => [.gst, .adm, .pwr, .chans, .fdw, .hoops, .hoopNet, .ports, .colls, .col, .stakes, .exc, .upd, .vc0]
  | .ctxSwitch _ => [.gst, .hoops, .ports, .colls, .stakes, .vc0]
  | .sendWale _ _ _ => [.gst, .adm, .pwr, .chans, .fdw, .hoops, .hoopNet, .ports, .colls, .col, .stakes, .exc, .upd, .vc0]
  | .combineWale _ _ _ _ _ => [.gst, .img, .adm, .pwr, .chans, .fdw, .hoops, .hoopNet, .ports, .colls, .col, .stakes, .exc, .upd, .dbg, .vc0, .free]
  | .rxWaleTaken _ => [.ports, .colls]
  | .statusTaken _ => [.ports]
  | .terminalTokenTaken _ => [.gst, .adm, .pwr, .chans, .fdw, .hoops, .hoopNet, .ports, .colls, .col, .stakes, .exc, .upd, .vc0]
  | .agree _ => [.gst, .adm, .pwr, .chans, .fdw, .hoops, .hoopNet, .ports, .colls, .col, .stakes, .exc, .upd, .vc0]
  | .refuse _ => [.gst, .adm, .pwr, .chans, .fdw, .hoops, .hoopNet, .ports, .colls, .col, .stakes, .exc, .upd, .vc0]
  | .gatherLimitExpiry _ _ => [.gst, .adm, .colls, .stakes, .upd, .vc0]
  | .reserve _ => [.gst, .adm, .colls, .stakes, .vc0]
  | .reserveReport _ => [.gst, .adm, .colls, .stakes, .upd, .vc0]
  | .admission _ => [.gst, .adm, .pwr, .chans, .fdw, .hoops, .hoopNet, .ports, .colls, .col, .stakes, .exc, .upd, .vc0]
  | .releaseReservation _ => [.gst, .colls, .stakes, .vc0]
  | .reserveRetry _ _ => [.gst, .colls, .stakes, .vc0]
  | .queuedLong _ _ => [.gst, .adm, .colls]
  | .launchFire _ _ => [.gst, .adm, .pwr, .chans, .fdw, .hoops, .hoopNet, .ports, .colls, .col, .stakes, .exc, .upd, .vc0]
  | .boundExpiry _ _ => [.gst, .adm, .colls, .stakes, .upd, .vc0]
  | .fault _ => [.gst, .adm, .colls, .col, .stakes, .upd, .vc0]
  | .close _ => [.gst, .adm, .pwr, .chans, .fdw, .hoops, .hoopNet, .ports, .colls, .col, .stakes, .exc, .upd, .vc0]
  | .allSent _ => [.gst, .adm, .pwr, .chans, .fdw, .hoops, .hoopNet, .ports, .colls, .col, .stakes, .exc, .upd, .vc0]
  | .token _ => [.gst, .adm, .pwr, .chans, .fdw, .hoops, .hoopNet, .ports, .colls, .col, .stakes, .exc, .upd, .vc0]
  | .fprint _ => [.gst, .adm, .pwr, .chans, .fdw, .hoops, .hoopNet, .ports, .colls, .col, .stakes, .exc, .upd, .vc0]
  | .wcred _ => [.gst, .adm, .pwr, .chans, .fdw, .hoops, .hoopNet, .ports, .colls, .col, .stakes, .exc, .upd, .vc0]
  | .xcred _ => [.gst, .adm, .pwr, .chans, .fdw, .hoops, .hoopNet, .ports, .colls, .col, .stakes, .exc, .upd, .vc0]
  | .lost _ => [.gst, .chans, .fdw, .ports, .colls, .col, .stakes, .vc0]
  | .entryAbort _ _ => [.gst, .colls, .stakes, .vc0]
  | .colKill _ => [.gst, .colls, .col, .stakes, .vc0]
  | .suspend _ => [.gst, .colls, .col, .stakes, .vc0]
  | .resume _ => [.gst, .colls, .col, .stakes, .vc0]
  | .susp _ => [.chans, .colls, .col, .vc0]
  | .suspendDrainDone _ => [.colls, .col]
  | .suspendRecordWritten _ => [.gst, .colls, .col, .stakes, .vc0]
  | .resumeReloadDone _ => [.gst, .adm, .pwr, .chans, .fdw, .hoops, .hoopNet, .ports, .colls, .col, .stakes, .exc, .upd, .vc0]
  | .suspDone _ => [.gst, .colls, .col, .stakes, .vc0]
  | .dataFlitReceive _ _ _ => [.gst, .time, .adm, .pwr, .chans, .fdw, .hoops, .hoopNet, .ports, .colls, .col, .stakes, .exc, .upd, .vc0, .free]
  | .linkFlitReceive _ _ => [.gst, .time, .adm, .pwr, .chans, .fdw, .hoops, .hoopNet, .ports, .colls, .col, .stakes, .exc, .upd, .vc0, .free]
  | .ackTimeout _ => [.gst, .stakes]
  | .nakRepeat _ => [.stakes]
  | .linkFlitDue _ => [.stakes]
  | .replayShadowEnd _ => [.stakes]
  | .trainFlitReceive _ _ _ => [.gst, .time, .adm, .pwr, .chans, .fdw, .hoops, .hoopNet, .ports, .colls, .col, .stakes, .exc, .upd, .vc0, .free]
  | .idFlitDue _ => [.stakes]
  | .probeRetry _ => [.stakes]
  | .trainingWord _ _ _ => [.gst, .stakes]
  | .trainingTimeout _ => [.gst, .adm, .pwr, .chans, .fdw, .hoops, .hoopNet, .ports, .colls, .col, .stakes, .exc, .upd, .vc0]
  | .phyResetDone _ => [.stakes]
  | .skPhyRdyRise _ _ => [.stakes]
  | .skPhyRdyFall _ _ => [.gst, .adm, .pwr, .chans, .fdw, .hoops, .hoopNet, .ports, .colls, .col, .stakes, .exc, .upd, .vc0]
  | .skLaneFlt _ _ => [.gst, .adm, .pwr, .chans, .fdw, .hoops, .hoopNet, .ports, .colls, .col, .stakes, .exc, .upd, .vc0]
  | .retrain _ => [.gst, .stakes]
  | .clrcnt _ => [.stakes]
  | .syncDue => [.time, .stakes]
  | .sync _ _ _ _ _ => [.time]
  | .follow _ _ _ _ _ _ => [.gst, .time]
  | .timeHoldover => [.gst, .time]
  | .refclkLost => [.gst, .time, .tilth]
  | .refclkRestored => [.time]
  | .calibration => [.tilth]
  | .monitorSample _ _ _ _ => [.gst, .tilth]
  | .tilthWindowEnd _ => [.tilth, .free]
  | .tapChangeApply _ _ => [.tilth]
  | .snap _ => [.gst, .tilth]
  | .snapshotCopy => [.tilth]
  | .historyLoad _ => [.gst, .tilth]
  | .tilForce _ => [.tilth]
  | .governorInterval _ _ => [.gst, .pwr]
  | .throttleChange _ => [.gst, .pwr]
  | .pwrCfgWrite _ => [.gst, .pwr]
  | .fdEn _ _ => [.gst, .adm, .pwr, .chans, .fdw, .hoops, .hoopNet, .ports, .colls, .col, .stakes, .exc, .upd, .vc0, .free]
  | .fdDisable _ _ => [.gst, .adm, .pwr, .chans, .fdw, .hoops, .hoopNet, .ports, .colls, .col, .stakes, .exc, .upd, .vc0, .free]
  | .fdPriWrite _ _ => [.gst, .adm, .pwr, .chans, .fdw, .hoops, .hoopNet, .ports, .colls, .col, .stakes, .exc, .upd, .vc0, .free]
  | .feederBeatRequest _ => [.gst, .img, .adm, .pwr, .chans, .fdw, .hoops, .hoopNet, .ports, .colls, .col, .stakes, .exc, .upd, .vc0]
  | .memoryResponse _ _ _ _ _ => [.gst, .img, .adm, .pwr, .chans, .fdw, .hoops, .hoopNet, .ports, .colls, .col, .stakes, .exc, .upd, .vc0]
  | .counterTrigger _ => [.gst, .adm, .pwr, .chans, .fdw, .hoops, .hoopNet, .ports, .colls, .col, .stakes, .exc, .upd, .vc0]
  | .evtIn _ _ => [.gst, .adm, .pwr, .chans, .fdw, .hoops, .hoopNet, .ports, .colls, .col, .stakes, .exc, .upd, .vc0]
  | .evtOutPulseEnd _ => [.fdw]
  | .fdEvtClr _ _ => [.fdw]
  | .updateBeatTaken => [.gst, .adm, .pwr, .chans, .fdw, .hoops, .hoopNet, .ports, .colls, .col, .stakes, .exc, .upd, .vc0]
  | .resetAssert => [.powered, .inReset, .gst, .ct, .accept, .img, .wl, .time, .adm, .tilth, .pwr, .chans, .fdw, .hoops, .hoopNet, .ports, .colls, .col, .stakes, .exc, .upd, .dbg, .wrap, .vc0]
  | .resetRelease => [.inReset, .wl]
  | .fuseAck _ _ _ => [.gst, .wl]
  | .fuseTimeout => [.gst, .wl]
  | .wlProg _ => [.wl]
  | .gcPeriodWrite _ => [.time]
  | .featAcceptWrite _ _ => [.accept]
  | .load _ => [.gst, .img, .adm, .pwr, .chans, .fdw, .hoops, .hoopNet, .ports, .colls, .col, .stakes, .upd, .dbg, .vc0, .free]
  | .imageCheckDone => [.gst, .img, .pwr, .fdw, .hoops, .ports]
  | .imageApplyDone => [.gst, .img, .time, .pwr, .fdw, .hoops, .ports]
  | .signoff _ => [.gst, .img, .time, .pwr, .fdw, .hoops, .ports, .colls, .col, .stakes, .upd]
  | .gstLogRdWrite _ => [.gst]
  | .setCount _ => [.gst, .adm, .pwr, .chans, .fdw, .hoops, .hoopNet, .ports, .colls, .col, .stakes, .exc, .upd, .dbg, .vc0]
  | .setTarget _ => [.gst, .adm, .pwr, .chans, .fdw, .hoops, .hoopNet, .ports, .colls, .col, .stakes, .exc, .upd, .dbg, .vc0]
  | .debugRelease _ => [.gst, .adm, .pwr, .chans, .fdw, .hoops, .hoopNet, .ports, .colls, .col, .stakes, .exc, .upd, .dbg, .vc0]
  | .dbgInject _ => [.dbg]
  | .dbgEnChange _ => [.dbg]
  | .latchedGroupRead _ => [.gst, .ct, .adm, .pwr, .chans, .fdw, .hoops, .hoopNet, .ports, .colls, .col, .stakes, .exc, .upd, .vc0]
  | .registerWrite _ _ => [.gst, .ct, .accept, .img, .wl, .time, .adm, .tilth, .pwr, .chans, .fdw, .hoops, .hoopNet, .ports, .colls, .col, .stakes, .exc, .upd, .dbg, .vc0, .free]
  | .wsBypass => [.wrap, .free]
  | .wsExtest => [.gst, .img, .adm, .pwr, .chans, .fdw, .hoops, .hoopNet, .ports, .colls, .col, .stakes, .upd, .wrap, .vc0, .free]
  | .wsIntest => [.gst, .img, .adm, .pwr, .chans, .fdw, .hoops, .hoopNet, .ports, .colls, .col, .stakes, .upd, .wrap, .vc0, .free]
  | .szMbist => [.gst, .img, .adm, .pwr, .chans, .fdw, .hoops, .hoopNet, .ports, .colls, .col, .stakes, .upd, .wrap, .vc0, .free]
  | .szDlysweep => [.gst, .img, .adm, .pwr, .chans, .fdw, .hoops, .hoopNet, .ports, .colls, .col, .stakes, .upd, .wrap, .vc0, .free]
  | .szIdcode => [.wrap]
  | .szCtrl _ _ => [.gst, .ct, .accept, .img, .wl, .time, .adm, .tilth, .pwr, .chans, .fdw, .hoops, .hoopNet, .ports, .colls, .col, .stakes, .exc, .upd, .dbg, .wrap, .vc0, .free]
  | .idleFlitReceive _ _ => [.gst, .time, .adm, .pwr, .chans, .fdw, .hoops, .hoopNet, .ports, .colls, .col, .stakes, .exc, .upd, .vc0, .free]
  | .hoopEntryRead _ _ _ => [.gst, .ct, .adm, .pwr, .chans, .fdw, .hoops, .hoopNet, .ports, .colls, .col, .stakes, .exc, .upd, .vc0]
  | .vddSzRemoval => [.powered, .inReset, .gst, .ct, .accept, .img, .wl, .time, .adm, .tilth, .pwr, .chans, .fdw, .hoops, .hoopNet, .ports, .colls, .col, .stakes, .exc, .upd, .dbg, .wrap, .vc0]

/-- A collective's record without the legs that the die forwards for others: what a message that cannot leave changes
is the legs alone. -/
def Coll.core (c : Coll) : Coll := { c with legs := [] }

/-- The storage code reports an uncorrectable symbol. -/
def evUncorr : StorageEvent → Bool
  | .uncorrData _ => true
  | .uncorrConfig _ _ => true
  | _ => false

/-- Which of a hoop's flags, stale counter and last source it hits (log entry 89). -/
def evHits : StorageEvent → BitVec 3
  | .uncorrData a => a.setWidth 3
  | .uncorrConfig _ a => a.setWidth 3
  | _ => 0

/-- The core port processes a command at once: the block runs, CP_CMD_RDY is 1, and nothing waits before it. -/
def State.portReady (s : State) (cp : Nat) : Prop :=
  s.alive = true ∧ s.cmdBlocked cp = false ∧ (s.port cp).wait = none ∧ (s.port cp).cmdq = []

end Sys2Proof.Machine
end

