-- ==== Sys2Proof/Certificates/Slice0/Obligations.lean ====
section
/-! DEFINITION. The statements for the provers. Times are counted in 2^−16 ns where a counter stands beside its fraction.
A command answers `Host.Outcome.next`; what follows a command of itself (data that can move, openings, the next commands
of a queue) is `State.settle`, whose own frame is `Obligations.SettleFrame`. -/

open Sys2Proof Sys2Proof.Machine

/-! ### The machine -/

/-- The command at the front of the queue is what a step runs, on the queue's rest. -/
def Obligations.StepRunsFrontCommand : Prop :=
  ∀ (s : State) (c : Instr) (rest : List Instr), s.pending = c :: rest → step s = exec c { s with pending := rest }

/-- R337, R340, R346: on an empty queue a step is one tick of the block's clocks (the model's choice, log entry 5). While REFCLK
runs the counter advances by GC_PERIOD, by a step that waits for an edge, and by the part of the remaining correction, at most
GC_PERIOD / 64, which is taken from it. While REFCLK stands, and without supply or in reset, the counter stands. No tick changes
the settings, the image, the control port's outputs, the tilth state, the wrapper or the queue. -/
def Obligations.IdleTickAdvancesCounter : Prop :=
  ∀ s : State, s.pending = [] → ∃ t, step s = .next t
    ∧ (s.alive = true → s.time.stopped = false →
        t.time.now = BitVec.ofInt 80 (Int.ofNat s.time.now.toNat + s.time.stepDue + Int.ofNat s.time.gcPer.toNat
          + slewPart s.time.slew s.time.gcPer.toNat)
        ∧ t.time.slew = s.time.slew - slewPart s.time.slew s.time.gcPer.toNat
        ∧ t.time = { s.time with now := t.time.now, slew := t.time.slew, stepDue := 0, lastUse := t.time.lastUse }
        ∧ (s.time.stepDue = 0 → t.time.lastUse = s.time.lastUse))
    ∧ (s.alive = false → t = s)
    ∧ (s.alive = true → s.time.stopped = true → t.time = s.time)
    ∧ (slewPart s.time.slew s.time.gcPer.toNat).natAbs ≤ s.time.gcPer.toNat / 64
    ∧ t.pending = [] ∧ t.powered = s.powered ∧ t.inReset = s.inReset ∧ t.ct = s.ct ∧ t.accept = s.accept ∧ t.img = s.img ∧ t.wl = s.wl
    ∧ t.tilth = s.tilth ∧ t.wrap = s.wrap ∧ t.pwr = { s.pwr with accs := t.pwr.accs }

/-- R412, R337, R264, Table RG-3: the values that the spec gives for reset. -/
def Obligations.ResetValues : Prop :=
  State.reset.img.st = .empty ∧ State.reset.accept = 0 ∧ State.reset.gst.attn = 0 ∧ State.reset.gst.attnEn = 0x7FF
    ∧ State.reset.gst.unread = 0 ∧ State.reset.time.gcPer = 0xA0000 ∧ State.reset.time.now = 0 ∧ State.reset.time.st = .free
    ∧ State.reset.pwr.slew = 8 ∧ State.reset.colls = [] ∧ State.reset.pending = []
    ∧ (∀ i, State.reset.hoop i = Hoop.zero) ∧ (∀ i, State.reset.port i = Port.zero) ∧ (∀ i, State.reset.chan i = Chan.zero)
    ∧ (∀ i, State.reset.stake i = Stake.zero)

/-- The state after reset has the invariant. -/
def Obligations.ResetHasInv : Prop := State.reset.Inv

/-- Every step keeps the invariant: canonical tables, at most 64 unread log entries (R417), GC_PERIOD and SLEW within
their ranges (R337, R264), whatever commands wait and whatever state the block is in. -/
def Obligations.StepKeepsInv : Prop := ∀ s t : State, s.Inv → step s = .next t → t.Inv

/-- Every command is carried out: it answers a next state, and it leaves the queue of the commands that wait. -/
def Obligations.EveryCommandCompletes : Prop := ∀ (c : Instr) (s : State), ∃ t, exec c s = .next t ∧ t.pending = s.pending

/-- The frame of every command: from every state it leaves every component of the state as it was but those that
`Instr.writes` names for it. -/
def Obligations.CommandFrame : Prop := ∀ (c : Instr) (s t : State), exec c s = .next t → Only c.writes s t

/-- R392: FEAT_ACCEPT changes only by its own write while IMG_STATUS.STATE is EMPTY or REFUSED (the write command, or an
access through the control port or the wrapper to its two addresses), by RST_N, or by removal of the supply. -/
def Obligations.FeatAcceptChangesOnlyByItsWrite : Prop :=
  ∀ s t : State, step s = .next t → t.accept ≠ s.accept →
    ∃ c rest, s.pending = c :: rest ∧
      (c = .resetAssert ∨ c = .vddSzRemoval ∨
        (s.alive = true ∧ (s.img.st = .empty ∨ s.img.st = .refused) ∧
          ((∃ hi v, c = .featAcceptWrite hi v) ∨ (∃ a v, c = .registerWrite a v ∧ (a = 0x4#18 ∨ a = 0x5#18)) ∨
            (∃ r, c = .szCtrl r false ∧ r.getLsbD 0 = true ∧
              (BitVec.ofNat 18 (fld r.toNat 18 1) = 0x4#18 ∨ BitVec.ofNat 18 (fld r.toNat 18 1) = 0x5#18)))))

/-- R416: an ATTN bit that is set stays set at every step until the driver writes 1 to it (a write of GST_ATTN through
the control port or the wrapper), RST_N, or removal of the supply. -/
def Obligations.AttnBitStaysUntilCleared : Prop :=
  ∀ (s t : State) (i : Nat), step s = .next t → s.gst.attn.getLsbD i = true → t.gst.attn.getLsbD i = false →
    ∃ c rest, s.pending = c :: rest ∧
      (c = .resetAssert ∨ c = .vddSzRemoval ∨
        (s.alive = true ∧ ((∃ v, c = .registerWrite 0x801#18 v ∧ v.getLsbD i = true) ∨
          (∃ r, c = .szCtrl r false ∧ r.getLsbD 0 = true ∧ BitVec.ofNat 18 (fld r.toNat 18 1) = 0x801#18
            ∧ (BitVec.ofNat 32 (fld r.toNat 50 19)).getLsbD i = true))))

/-- R390, R391: without its supply, or while RST_N is 0, no command has an effect but the two reset events and the
removal of the supply. -/
def Obligations.DeadBlockIgnoresCommands : Prop :=
  ∀ (c : Instr) (s : State), s.alive = false → c ≠ .resetAssert → c ≠ .resetRelease → c ≠ .vddSzRemoval → exec c s = .next s

/-- What follows a command of itself keeps the frame: nothing that the core has been given is withdrawn, and a port
that holds no waiting command keeps its sequence numbers and its hoops. -/
def Obligations.SettleFrame : Prop := ∀ s : State, s.canon → Frame (fun _ => false) s s.settle

/-! ### Core ports and hoops -/

/-- R89, R90: a fused issue whose word 0 passes its check, at an enabled port whose core is a member of the group, is
answered ACCEPTED with the port's next sequence number of that group, and the count goes up by 1. No other group's count
changes. -/
def Obligations.FusedIssueTakesNextSequenceNumber : Prop :=
  ∀ (s : State) (cp : Fin 1024) (ws cs : List Word), s.canon → s.portReady cp.val → s.notReady cp.val = false →
    wordOk ws cs 0 = true → s.isMember (isGroup ws) cp.val = true →
    ∃ t, exec (.fusedIssue cp ws cs) s = .next t
      ∧ (s.port cp.val).stq ++ [⟨0, isGroup ws, mget 0#32 (s.port cp.val).seqs (isGroup ws).toNat, false, false⟩] <+: (t.port cp.val).stq
      ∧ (t.port cp.val).seqs = mput 0#32 (s.port cp.val).seqs (isGroup ws).toNat (mget 0#32 (s.port cp.val).seqs (isGroup ws).toNat + 1#32)
      ∧ Frame (fun i => decide (i = cp.val)) s t

/-- R88, R91, R110: where a fused issue is turned away it takes no sequence number. Before an image, or latched: NOT_READY.
Word 0 that fails its complement: CMD_CORRUPT, with ATTN CMD, and the port is latched. Not a member: NOT_MEMBER. -/
def Obligations.FusedIssueTurnedAway : Prop :=
  ∀ (s : State) (cp : Fin 1024) (ws cs : List Word), s.canon → s.portReady cp.val →
    (s.notReady cp.val = true ∨ wordOk ws cs 0 = false ∨ s.isMember (isGroup ws) cp.val = false) →
    ∃ t, exec (.fusedIssue cp ws cs) s = .next t
      ∧ (t.port cp.val).seqs = (s.port cp.val).seqs
      ∧ (s.notReady cp.val = true → (s.port cp.val).stq ++ [⟨3, isGroup ws, 0, false, false⟩] <+: (t.port cp.val).stq)
      ∧ (s.notReady cp.val = false → wordOk ws cs 0 = false →
          (s.port cp.val).stq ++ [⟨4, 0, 0, false, false⟩] <+: (t.port cp.val).stq ∧ (t.port cp.val).latched = true
          ∧ t.gst.attn.getLsbD 0 = true)
      ∧ (s.notReady cp.val = false → wordOk ws cs 0 = true →
          (s.port cp.val).stq ++ [⟨5, isGroup ws, 0, false, false⟩] <+: (t.port cp.val).stq)
      ∧ Frame (fun _ => false) s t

/-- Table HP-3, ARM: a DISARMED hoop becomes ARMED with TARGET and MODE of the command, HOOP_OK; an ARMED or faulted
one is unchanged, HOOP_CONFLICT. No other hoop of the port changes. R283: an ARM that finds a TARGET that differs from its complement, or a
storage error that cannot be corrected, puts the hoop into FAULT with ATTN, and is answered HOOP_CONFLICT. Table HP-3, DISARM: in every state the hoop
becomes DISARMED, COUNT and TARGET 0 with TARGET's complement fresh, flags, stale counter and last source kept, or, R283,
written as 0 where their storage was uncorrectable, before or in this access (log entry 89); HOOP_OK. -/
def Obligations.ArmAndDisarmSetTheHoop : Prop :=
  (∀ (s : State) (cp : Fin 1024) (w : Word) (ev : StorageEvent), s.canon → s.portReady cp.val → s.notReady cp.val = false →
    s.hoopBad w = false → hcOp w = 0 → (s.hoop (cp.val * 48 + hcHoop w)).ok = true → evUncorr ev = false →
    ∃ t, exec (.arm cp w (~~~w, ev)) s = .next t
      ∧ ((s.hoop (cp.val * 48 + hcHoop w)).st = .disarmed →
          t.hoop (cp.val * 48 + hcHoop w) = { s.hoop (cp.val * 48 + hcHoop w) with
            st := .armed, count := 0, target := BitVec.ofNat 12 (hcArg w), targetN := ~~~(BitVec.ofNat 12 (hcArg w)), mode := hcMode w }
          ∧ (s.port cp.val).stq ++ [⟨8, 0, hoopArg cp.val (hcHoop w), false, false⟩] <+: (t.port cp.val).stq)
      ∧ ((s.hoop (cp.val * 48 + hcHoop w)).st ≠ .disarmed →
          t.hoop (cp.val * 48 + hcHoop w) = s.hoop (cp.val * 48 + hcHoop w)
          ∧ (s.port cp.val).stq ++ [⟨0xD, 0, hoopArg cp.val (hcHoop w), false, false⟩] <+: (t.port cp.val).stq)
      ∧ (∀ h < 48, h ≠ hcHoop w → t.hoop (cp.val * 48 + h) = s.hoop (cp.val * 48 + h))
      ∧ Frame (fun i => decide (i = cp.val)) s t)
  ∧ (∀ (s : State) (cp : Fin 1024) (w : Word) (ev : StorageEvent), s.canon → s.portReady cp.val → s.notReady cp.val = false →
    s.hoopBad w = false → hcOp w = 0 → (s.hoop (cp.val * 48 + hcHoop w)).ok = false ∨ evUncorr ev = true →
    ∃ t, exec (.arm cp w (~~~w, ev)) s = .next t
      ∧ t.hoop (cp.val * 48 + hcHoop w) = { s.hoop (cp.val * 48 + hcHoop w) with
          st := .fault, waiting := (s.hoop (cp.val * 48 + hcHoop w)).waiting && decide ((s.hoop (cp.val * 48 + hcHoop w)).st = .fault)
          lost := (s.hoop (cp.val * 48 + hcHoop w)).lost ||| evHits ev }
      ∧ ((s.hoop (cp.val * 48 + hcHoop w)).st ≠ .fault → t.gst.attn.getLsbD 2 = true)
      ∧ (s.port cp.val).stq ++ [⟨0xD, 0, hoopArg cp.val (hcHoop w), false, false⟩] <+: (t.port cp.val).stq
      ∧ (∀ h < 48, h ≠ hcHoop w → t.hoop (cp.val * 48 + h) = s.hoop (cp.val * 48 + h))
      ∧ Frame (fun i => decide (i = cp.val)) s t)
  ∧ (∀ (s : State) (cp : Fin 1024) (w : Word) (ev : StorageEvent), s.canon → s.portReady cp.val → s.notReady cp.val = false →
    s.hoopBad w = false → hcOp w = 3 →
    ∃ t, exec (.disarm cp w (~~~w, ev)) s = .next t
      ∧ (t.hoop (cp.val * 48 + hcHoop w)).st = .disarmed ∧ (t.hoop (cp.val * 48 + hcHoop w)).count = 0
      ∧ (t.hoop (cp.val * 48 + hcHoop w)).target = 0 ∧ (t.hoop (cp.val * 48 + hcHoop w)).ok = true
      ∧ (((s.hoop (cp.val * 48 + hcHoop w)).lost ||| evHits ev) = 0 →
          (t.hoop (cp.val * 48 + hcHoop w)).stale = (s.hoop (cp.val * 48 + hcHoop w)).stale
          ∧ (t.hoop (cp.val * 48 + hcHoop w)).ovr = (s.hoop (cp.val * 48 + hcHoop w)).ovr
          ∧ (t.hoop (cp.val * 48 + hcHoop w)).excess = (s.hoop (cp.val * 48 + hcHoop w)).excess
          ∧ (t.hoop (cp.val * 48 + hcHoop w)).staleCnt = (s.hoop (cp.val * 48 + hcHoop w)).staleCnt
          ∧ (t.hoop (cp.val * 48 + hcHoop w)).lastSrc = (s.hoop (cp.val * 48 + hcHoop w)).lastSrc)
      ∧ (((s.hoop (cp.val * 48 + hcHoop w)).lost ||| evHits ev).getLsbD 0 = true → (t.hoop (cp.val * 48 + hcHoop w)).stale = false
          ∧ (t.hoop (cp.val * 48 + hcHoop w)).ovr = false ∧ (t.hoop (cp.val * 48 + hcHoop w)).excess = false)
      ∧ (((s.hoop (cp.val * 48 + hcHoop w)).lost ||| evHits ev).getLsbD 1 = true → (t.hoop (cp.val * 48 + hcHoop w)).staleCnt = 0)
      ∧ (((s.hoop (cp.val * 48 + hcHoop w)).lost ||| evHits ev).getLsbD 2 = true → (t.hoop (cp.val * 48 + hcHoop w)).lastV = false)
      ∧ (t.hoop (cp.val * 48 + hcHoop w)).lost = 0
      ∧ (s.port cp.val).stq ++ [⟨8, 0, hoopArg cp.val (hcHoop w), false, false⟩] <+: (t.port cp.val).stq
      ∧ (∀ h < 48, h ≠ hcHoop w → t.hoop (cp.val * 48 + h) = s.hoop (cp.val * 48 + h))
      ∧ Frame (fun i => decide (i = cp.val)) s t)

/-- R280: a SIGNAL enters the hoop network behind those already under way; no hoop and no status queue has changed
when it has left the head of the queue. Table HP-3, SIGNAL at the owner's store, on an ARMED hoop that no WAIT is
pending on: COUNT goes up by the increment, or saturates at 4,095 and sets OVERSIGNAL; a core that signals receives
HOOP_OK or HOOP_OVER; the last source is recorded. R281: what arrives is the oldest signal under way from that source to that hoop;
where none is, the arrival changes nothing. -/
def Obligations.SignalIsSentAndCounts : Prop :=
  (∀ (s : State) (cp : Fin 1024) (w : Word), s.portReady cp.val → s.notReady cp.val = false → s.hoopBad w = false →
    hcOp w = 1 →
    ∃ x : HoopSig, x.owner.val = hcCp w ∧ x.hoop.val = hcHoop w ∧ x.src = .core cp ∧ x.inc.toNat = hcArg w
      ∧ exec (.signal cp w (~~~w)) s = .next (State.settle { s with hoopNet := s.hoopNet ++ [x] }))
  ∧ (∀ (s : State) (x : HoopSig) (ev : StorageEvent), s.alive = true → s.nextSignal x = none →
    exec (.hoopSignalArrival x ev) s = .next s.settle)
  ∧ (∀ (s : State) (y x : HoopSig), s.canon → s.alive = true → s.nextSignal y = some x →
    (s.hoop (x.owner.val * 48 + x.hoop.val)).st = .armed → (s.hoop (x.owner.val * 48 + x.hoop.val)).ok = true →
    s.waitsOn (x.owner.val * 48 + x.hoop.val) = false → (s.port x.owner.val).cmdq = [] →
    ∃ t, exec (.hoopSignalArrival y .clean) s = .next t
      ∧ ((s.hoop (x.owner.val * 48 + x.hoop.val)).count.toNat + x.inc.toNat ≤ 4095 →
          (t.hoop (x.owner.val * 48 + x.hoop.val)).count.toNat = (s.hoop (x.owner.val * 48 + x.hoop.val)).count.toNat + x.inc.toNat
          ∧ (t.hoop (x.owner.val * 48 + x.hoop.val)).ovr = (s.hoop (x.owner.val * 48 + x.hoop.val)).ovr
          ∧ ∀ cp, x.src = .core cp → (s.port cp.val).stq ++ [⟨8, 0, hoopArg x.owner.val x.hoop.val, false, false⟩] <+: (t.port cp.val).stq)
      ∧ (4095 < (s.hoop (x.owner.val * 48 + x.hoop.val)).count.toNat + x.inc.toNat →
          (t.hoop (x.owner.val * 48 + x.hoop.val)).count = 4095
          ∧ (t.hoop (x.owner.val * 48 + x.hoop.val)).ovr = true
          ∧ ∀ cp, x.src = .core cp → (s.port cp.val).stq ++ [⟨0xB, 0, hoopArg x.owner.val x.hoop.val, false, false⟩] <+: (t.port cp.val).stq)
      ∧ (t.hoop (x.owner.val * 48 + x.hoop.val)).st = .armed
      ∧ (t.hoop (x.owner.val * 48 + x.hoop.val)).target = (s.hoop (x.owner.val * 48 + x.hoop.val)).target
      ∧ (t.hoop (x.owner.val * 48 + x.hoop.val)).lastV = true
      ∧ (∀ h < 48, h ≠ x.hoop.val → t.hoop (x.owner.val * 48 + h) = s.hoop (x.owner.val * 48 + h))
      ∧ Frame (fun i => decide (i = x.owner.val)) s t)

/-- Table HP-3, WAIT on a hoop that is satisfied and whose TARGET passes its check: released at once by MODE (R277),
RELEASED, and WAIT_GATE does not rise. R278, R286: a WAIT on an ARMED hoop that is not satisfied stays at the head of
the queue: WAITING is 1, WAIT_GATE rises once WAKE is low (log entry 88), and its timeout runs from now. COUNT, TARGET and STATE are unchanged.
R283: a release that finds a TARGET that differs from its complement, and a WAIT that finds a storage error that cannot be corrected, put
the hoop into FAULT with ATTN, HOOP_FAULT. On a DISARMED hoop a WAIT is answered HOOP_CONFLICT, on a faulted one HOOP_FAULT, and the hoop is
unchanged. -/
def Obligations.WaitReleasesOrStalls : Prop :=
  (∀ (s : State) (cp : Fin 1024) (w : Word) (ev : StorageEvent), s.canon → s.portReady cp.val → s.notReady cp.val = false →
    s.hoopBad w = false → hcOp w = 2 → (s.hoop (cp.val * 48 + hcHoop w)).sat = true → (s.hoop (cp.val * 48 + hcHoop w)).ok = true →
    evUncorr ev = false →
    ∃ t, exec (.wait cp w (~~~w, ev)) s = .next t
      ∧ ((s.hoop (cp.val * 48 + hcHoop w)).mode = true →
          (t.hoop (cp.val * 48 + hcHoop w)).st = .armed
          ∧ (t.hoop (cp.val * 48 + hcHoop w)).count = (s.hoop (cp.val * 48 + hcHoop w)).count - (s.hoop (cp.val * 48 + hcHoop w)).target)
      ∧ ((s.hoop (cp.val * 48 + hcHoop w)).mode = false →
          (t.hoop (cp.val * 48 + hcHoop w)).st = .disarmed ∧ (t.hoop (cp.val * 48 + hcHoop w)).count = 0)
      ∧ (t.hoop (cp.val * 48 + hcHoop w)).target = (s.hoop (cp.val * 48 + hcHoop w)).target
      ∧ (t.hoop (cp.val * 48 + hcHoop w)).mode = (s.hoop (cp.val * 48 + hcHoop w)).mode
      ∧ (s.port cp.val).stq ++ [⟨9, 0, hoopArg cp.val (hcHoop w), false, false⟩] <+: (t.port cp.val).stq
      ∧ Frame (fun i => decide (i = cp.val)) s t)
  ∧ (∀ (s : State) (cp : Fin 1024) (w : Word) (ev : StorageEvent), s.canon → s.portReady cp.val → s.notReady cp.val = false →
    s.hoopBad w = false → hcOp w = 2 → (s.hoop (cp.val * 48 + hcHoop w)).st = .armed → (s.hoop (cp.val * 48 + hcHoop w)).sat = false →
    evUncorr ev = false →
    ∃ u : State, exec (.wait cp w (~~~w, ev)) s = .next u.settle
      ∧ u.hoop (cp.val * 48 + hcHoop w) = { s.hoop (cp.val * 48 + hcHoop w) with waiting := true }
      ∧ (u.port cp.val).wait = some ⟨hcHoop w, s.nowInt, BitVec.ofNat 12 (hcArg w)⟩
      ∧ (u.port cp.val).gate = !(s.port cp.val).wake ∧ (u.port cp.val).stq = (s.port cp.val).stq
      ∧ u = { s with hoops := u.hoops, ports := u.ports,
                     gst := { s.gst with corr := if ev = .corrected then satInc s.gst.corr else s.gst.corr } }
      ∧ (∀ i, i ≠ cp.val → u.port i = s.port i) ∧ (∀ i, i ≠ cp.val * 48 + hcHoop w → u.hoop i = s.hoop i)
      ∧ (u.settle.hoop (cp.val * 48 + hcHoop w) = u.hoop (cp.val * 48 + hcHoop w)))
  ∧ (∀ (s : State) (cp : Fin 1024) (w : Word) (ev : StorageEvent), s.canon → s.portReady cp.val → s.notReady cp.val = false →
    s.hoopBad w = false → hcOp w = 2 → (s.hoop (cp.val * 48 + hcHoop w)).st ≠ .fault →
    (evUncorr ev = true ∨ ((s.hoop (cp.val * 48 + hcHoop w)).sat = true ∧ (s.hoop (cp.val * 48 + hcHoop w)).ok = false)) →
    ∃ t, exec (.wait cp w (~~~w, ev)) s = .next t
      ∧ t.hoop (cp.val * 48 + hcHoop w) = { s.hoop (cp.val * 48 + hcHoop w) with
          st := .fault, waiting := false, lost := (s.hoop (cp.val * 48 + hcHoop w)).lost ||| evHits ev }
      ∧ t.gst.attn.getLsbD 2 = true
      ∧ (s.port cp.val).stq ++ [⟨0xE, 0, hoopArg cp.val (hcHoop w), false, false⟩] <+: (t.port cp.val).stq
      ∧ Frame (fun i => decide (i = cp.val)) s t)
  ∧ (∀ (s : State) (cp : Fin 1024) (w : Word) (ev : StorageEvent), s.canon → s.portReady cp.val → s.notReady cp.val = false →
    s.hoopBad w = false → hcOp w = 2 → evUncorr ev = false → (s.hoop (cp.val * 48 + hcHoop w)).st ≠ .armed →
    ∃ t, exec (.wait cp w (~~~w, ev)) s = .next t
      ∧ t.hoop (cp.val * 48 + hcHoop w) = s.hoop (cp.val * 48 + hcHoop w)
      ∧ (s.port cp.val).stq ++ [⟨if (s.hoop (cp.val * 48 + hcHoop w)).st = .fault then 0xE else 0xD, 0,
          hoopArg cp.val (hcHoop w), false, false⟩] <+: (t.port cp.val).stq
      ∧ Frame (fun i => decide (i = cp.val)) s t)

/-- R279: a WAIT whose ARG × 256 ns have passed ends with HOOP_TIMEOUT; COUNT, TARGET and STATE are unchanged. -/
def Obligations.WaitTimeoutLeavesHoop : Prop :=
  ∀ (s : State) (cp : Fin 1024) (w : Waiting), s.canon → s.alive = true → (s.port cp.val).wait = some w → w.arg ≠ 0 →
    s.reached (w.start + BitVec.ofNat 64 (w.arg.toNat * 256)) = true → (s.port cp.val).cmdq = [] → w.hoop < 48 →
    ∃ t, exec (.hoopTimeout cp) s = .next t
      ∧ t.hoop (cp.val * 48 + w.hoop) = { s.hoop (cp.val * 48 + w.hoop) with waiting := false }
      ∧ (s.port cp.val).stq ++ [⟨0xF, 0, hoopArg cp.val w.hoop, false, (s.port cp.val).gate⟩] <+: (t.port cp.val).stq
      ∧ (∀ h < 48, h ≠ w.hoop → t.hoop (cp.val * 48 + h) = s.hoop (cp.val * 48 + h))
      ∧ Frame (fun i => decide (i = cp.val)) s t

/-- Table HP-6, R27: CTX_SWITCH discards the commands that wait at the port, clears its 48 hoops to DISARMED (the last
source stays, where R283 does not take it), and ends its pending WAIT with CLEARED. -/
def Obligations.CtxSwitchClearsPort : Prop :=
  ∀ (s : State) (cp : Fin 1024), s.canon → s.alive = true →
    ∃ t, exec (.ctxSwitch cp) s = .next t
      ∧ (∀ h < 48, t.hoop (cp.val * 48 + h) = { Hoop.zero with
          lastSrc := if (s.hoop (cp.val * 48 + h)).lost.getLsbD 2 then 0 else (s.hoop (cp.val * 48 + h)).lastSrc
          lastFd := (s.hoop (cp.val * 48 + h)).lastFd && !(s.hoop (cp.val * 48 + h)).lost.getLsbD 2
          lastV := (s.hoop (cp.val * 48 + h)).lastV && !(s.hoop (cp.val * 48 + h)).lost.getLsbD 2 })
      ∧ (t.port cp.val).cmdq = [] ∧ (t.port cp.val).wait = none
      ∧ (∀ w, (s.port cp.val).wait = some w →
          (s.port cp.val).stq ++ [⟨6, 0, hoopArg cp.val w.hoop, false, (s.port cp.val).gate⟩] <+: (t.port cp.val).stq)
      ∧ Frame (fun i => decide (i = cp.val)) s t

/-- R365: the core takes the receive wale whose turn it is (R19), and no other; the member's count of wales taken
goes up by 1. R366, R19: the core takes the first status that may leave; an ADMITTED or REFUSED of a later collective
waits its turn. A REFUSED that is taken gives the turn to the next collective of its group. R229: a terminal token
leaves word by word; until the sixteenth word only its position moves, and nothing else changes. R365: tokens leave in the order
of their decision; one whose collective still has a receive wale at the port starts neither, nor lets a later one start. -/
def Obligations.CoreTakesInTurn : Prop :=
  (∀ (s : State) (cp : Fin 1024) (r : Rx) (a b : List Rx), s.canon → s.alive = true → (s.port cp.val).rxq = a ++ r :: b →
    (∀ x ∈ a, x.old = false ∧ x.k ≠ (s.port cp.val).turn x.g) → (r.old = true ∨ r.k = (s.port cp.val).turn r.g) →
    ∃ t, exec (.rxWaleTaken cp) s = .next t ∧ t.port cp.val = { s.port cp.val with rxq := a ++ b }
      ∧ (∀ i, i ≠ cp.val → t.port i = s.port i) ∧ t = { s with ports := t.ports, colls := t.colls }
      ∧ t.coll? r.g r.k = (s.coll? r.g r.k).map (fun c => c.onMember cp.val (fun m => { m with took := m.took + 1 }))
      ∧ (∀ g k, ¬(g = r.g ∧ k = r.k) → t.coll? g k = s.coll? g k))
  ∧ (∀ (s : State) (cp : Fin 1024) (x : Status) (a b : List Status), s.canon → s.alive = true →
    (s.port cp.val).stq = a ++ x :: b →
    (∀ y ∈ a, y.gate = true ∧ y.arg ≠ (s.port cp.val).turn y.grp) → (x.gate = false ∨ x.arg = (s.port cp.val).turn x.grp) →
    ∃ t, exec (.statusTaken cp) s = .next t ∧ (t.port cp.val).stq = a ++ b
      ∧ (x.code = 2 → x.gate = true → (t.port cp.val).deliv = mput 0#32 (s.port cp.val).deliv x.grp.toNat (x.arg + 1#32))
      ∧ (x.code ≠ 2 ∨ x.gate = false → (t.port cp.val).deliv = (s.port cp.val).deliv)
      ∧ (x.wait = true → (t.port cp.val).wake = false ∧ (t.port cp.val).gate = ((s.port cp.val).gate || (s.port cp.val).wait.isSome))
      ∧ (x.wait = false → (t.port cp.val).wake = (s.port cp.val).wake)
      ∧ (t.port cp.val).seqs = (s.port cp.val).seqs ∧ (t.port cp.val).rxq = (s.port cp.val).rxq
      ∧ (t.port cp.val).tokq = (s.port cp.val).tokq ∧ (t.port cp.val).latched = (s.port cp.val).latched
      ∧ (∀ i, i ≠ cp.val → t.port i = s.port i) ∧ t = { s with ports := t.ports })
  ∧ (∀ (s : State) (cp : Fin 1024) (x : Tok) (b : List Tok), s.canon → s.alive = true → (s.port cp.val).tokq = x :: b →
    (0 < x.pos ∨ ((∀ y ∈ b, y.pos = 0) ∧ (x.old = true ∨ x.k = (s.port cp.val).turn x.g)
      ∧ ∀ r ∈ (s.port cp.val).rxq, ¬(r.g = x.g ∧ r.k = x.k))) → x.pos + 1 < 16 →
    ∃ t, exec (.terminalTokenTaken cp) s = .next t ∧ (t.port cp.val) = { s.port cp.val with tokq := { x with pos := x.pos + 1 } :: b }
      ∧ (∀ i, i ≠ cp.val → t.port i = s.port i) ∧ t = { s with ports := t.ports })
  ∧ (∀ (s : State) (cp : Fin 1024) (x : Tok) (b : List Tok), s.alive = true → (s.port cp.val).tokq = x :: b → (∀ y ∈ x :: b, y.pos = 0) →
    (x.old = true ∨ x.k = (s.port cp.val).turn x.g) → (∃ r ∈ (s.port cp.val).rxq, r.g = x.g ∧ r.k = x.k ∧ r.old = x.old) →
    exec (.terminalTokenTaken cp) s = .next s)

/-! ### Collectives: gather, admission, the open life, and their ends -/

/-- R15, R94: an AGREE from a die below, over an edge of this member die's gather tree, belongs to the collective at the position
that the count of that edge gives, and is recorded there with its SEQ, its flags and its agreed words; agreed words that
fail their complements set CORRUPT. While every chain of the gather tree still misses an input nothing else follows of it. R94, R95,
R126: with its last input the home member decides on all of them: a corrupted input, or an expert map that fails its
complement under a routed operation, code 2; a different word or SEQ, code 3; a condition of refusal, REFUSE; otherwise
the collective is QUEUED and its time in QUEUED runs from now. -/
def Obligations.AgreementGathersAtHome : Prop :=
  ∀ (s : State) (m : Msg) (c c1 : Coll) (n : Nat) (niss : Word) (dis cor dist : Bool) (aw awN : List Word),
    s.alive = true → m.body = .agree niss dis cor dist aw awN →
    (s.kids (s.group m.group) (s.group m.group).home).any (fun x => decide (x.1 = m.level) && decide (x.2.1 = m.srcf)) = true →
    n = mget 0 s.col.agCnt (agKey m.group m.level m.srcf) →
    s.colls.find? (fun x => decide (x.g = m.group) && decide (x.pos = BitVec.ofNat 32 n) && !x.old) = some c →
    s.coll? m.group c.k = some c → c.st = .gather → (s.group m.group).memDie s.own = true →
    c1 = { c with
      agIn := c.agIn ++ [⟨m.level, m.srcf, m.seq, niss.toNat, cor || decide (awN ≠ compl aw), dis, dist, aw⟩]
      gStart := if (s.group m.group).home = s.own then some (c.gStart.getD s.nowInt) else c.gStart } →
    ((∀ ch ∈ s.chains (s.group m.group) (s.group m.group).home, s.agReady c1 ch = false) →
      exec (.agree m) s = .next (State.settle (State.putColl { s with
        vc0 := s.vc0.erase m
        col := { s.col with agCnt := mput 0 s.col.agCnt (agKey m.group m.level m.srcf) ((n + 1) % 2 ^ 32) } } c1)))
    ∧ (∀ (ch : Chain) (a : AgIn) (rest : List AgIn), (s.group m.group).home = s.own → s.chains (s.group m.group) s.own = [ch] → ch.id = 5 →
      c.decided = none → c.agSent = [] → s.agReady c1 ch = true → c1.agAll ch = a :: rest →
      ∃ (u : State) (c' : Coll), exec (.agree m) s = .next u.settle ∧ u.coll? m.group c.k = some c'
        ∧ ((rest.foldl agJoin a).bad = true → c'.decided = some 2)
        ∧ ((rest.foldl agJoin a).bad = false → ((rest.foldl agJoin a).dist || (rest.foldl agJoin a).dis) = true → c'.decided = some 3)
        ∧ ((rest.foldl agJoin a).bad = false → ((rest.foldl agJoin a).dist || (rest.foldl agJoin a).dis) = false →
            isExch a.aw = true → s.img.cfg.mapOk = false → c'.decided = some 2)
        ∧ ((rest.foldl agJoin a).bad = false → ((rest.foldl agJoin a).dist || (rest.foldl agJoin a).dis) = false →
            (isExch a.aw = false ∨ s.img.cfg.mapOk = true) →
            (s.refusable m.group a.aw (c.srcBad || c.members.any Member.src3) = true →
              c'.decided = none ∧ ∃ v, u.vc0 = v ++ [⟨m.group, c.k, s.wl.dieId, 0, 0, 0, .refuse⟩])
            ∧ (s.refusable m.group a.aw (c.srcBad || c.members.any Member.src3) = false →
              c'.decided = none ∧ c'.st = .queued ∧ c'.qStart = some s.nowInt)))

/-- R95: where REFUSE reaches every chain of a die's gather tree, each of the die's members without an outcome receives REFUSED with its own
SEQ, and the collective leaves the die. A REFUSE of a collective that the die does not know changes nothing. -/
def Obligations.RefuseEndsMembers : Prop :=
  ∀ (s : State) (m : Msg), s.canon → s.alive = true → m.body = .refuse →
    (m.level = 0 ∨ s.chainAt (s.group m.group) (s.group m.group).home m.level = none) →
    (∀ c : Coll, s.coll? m.group m.seq = some c → (c.st = .gather ∨ c.st = .queued) → c.adm = false → c.tokSegs = [] →
      (∀ ch ∈ s.chains (s.group m.group) (s.group m.group).home, m.level = 0 ∨ ch.id = m.level) →
      (c.members ≠ [] → ∃ ch ∈ s.chains (s.group m.group) (s.group m.group).home, ch.mem = true) →
      ∃ u : State, exec (.refuse m) s = .next u.settle ∧ u.coll? m.group m.seq = none
        ∧ (∀ x ∈ c.members, x.ended = false → ⟨2, m.group, x.k, true, false⟩ ∈ (u.port x.cp).stq)
        ∧ (∀ i, (s.port i).stq <+: (u.port i).stq))
    ∧ (s.coll? m.group m.seq = none → exec (.refuse m) s = .next (State.settle { s with vc0 := s.vc0.erase m }))

/-- R93, R236: GATHER_LIMIT decides ABORT_MEMBER (6) at the home die and BOUND_EXPIRY decides ABORT_TIMEOUT (8) at the root,
where the conditions hold and nothing has been decided; the token starts from this die, and no other collective's record
changes but in its legs. -/
def Obligations.ExpiryDecidesAbort : Prop :=
  ∀ (s : State) (g : BitVec 12) (k : Word) (c : Coll), s.alive = true → s.coll? g k = some c →
    (s.gatherExpired c = true → c.adm = false → ∃ t, exec (.gatherLimitExpiry g k) s = .next t
      ∧ (t.coll? g k).map Coll.core = some { c.core with decided := some 6 }
      ∧ (∃ v, t.vc0 = v ++ [⟨g, k, s.wl.dieId, 0, 0, 0, abortBody g k (isOp c.aw) 6⟩])
      ∧ (∀ g' k', ¬(g' = g ∧ k' = k) → (t.coll? g' k').map Coll.core = (s.coll? g' k').map Coll.core))
    ∧ (s.boundExpired c = true → ∃ t, exec (.boundExpiry g k) s = .next t
      ∧ (t.coll? g k).map (fun c => (c.st, c.decided)) = some (c.st, some 8)
      ∧ (∃ v, t.vc0 = v ++ [⟨g, k, s.wl.dieId, 0, 0, 0, abortBody g k (isOp c.aw) 8⟩])
      ∧ t.adm.timeout = satInc s.adm.timeout)
    ∧ (s.gatherExpired c = false → exec (.gatherLimitExpiry g k) s = .next s)
    ∧ (s.boundExpired c = false → exec (.boundExpiry g k) s = .next s)

/-- R230, R348: RESERVE makes the collective QUEUED with the round of the message; with the first chain that it reaches the die takes
all that the collective needs there or nothing, counts FULL in the second case, and records its TAU; with a further chain of the
round it takes nothing more. A complement that fails takes nothing. R232, R233: RESERVE_RETRY starts the next round of the first
collective of its group at the home die. RELEASE gives back what the round took at a die that holds a member. QUEUED_LONG is logged
and counted once; no time in a suspension counts for it (R117). -/
def Obligations.ReserveRounds : Prop :=
  (∀ (s : State) (m : Msg) (aw awN : List Word) (c0 c1 c2 : Coll) (ch : Chain) (l : List Chain), s.alive = true → m.body = .reserve aw awN →
    c0 = s.recOf m.group m.seq → c1 = { c0.inRound m.round with aw := aw, st := .queued } →
    c2 = { c1 with holds := false, v1ref := [] } →
    (awN = compl aw → c0.settled = false →
      (s.fromAbove m.group c1.rd m.level).filter (fun ch => !c1.resv.contains ch.id) = ch :: l →
      ∃ (t : State) (c' : Coll), exec (.reserve m) s = .next t ∧ t.coll? m.group m.seq = some c'
        ∧ c'.st = .queued ∧ c'.round = m.round ∧ c'.aw = aw ∧ c'.members = c0.members
        ∧ (c1.resv = [] → c'.holds = ((s.takeMsg m).putColl c2).fits c2
          ∧ t.adm = { s.adm with full := if ((s.takeMsg m).putColl c2).fits c2 then s.adm.full else satInc s.adm.full,
                                 tauRes := BitVec.ofNat 12 s.tilth.tau })
        ∧ (c1.resv ≠ [] → c'.holds = c1.holds ∧ t.adm = s.adm))
    ∧ (awN ≠ compl aw → s.decider m.group m.seq = s.own →
      exec (.reserve m) s = .next { s with vc0 := s.vc0.erase m ++ [(s.takeMsg m).faultMsg m.group m.seq 2 4 0 0 none] }))
  ∧ (∀ (s : State) (g : BitVec 12) (k : Word) (c : Coll), s.alive = true → s.coll? g k = some c → c.st = .queued →
    (s.group g).home = s.own → c.decided = none → c.b = 0 → c.passed = false → s.firstOf g k = true → s.groupHeld g = false →
    c.started = false → s.canReach c.rd = true →
    ∃ t, exec (.reserveRetry g k) s = .next t
      ∧ (t.coll? g k).map Coll.core = some { (c.inRound (c.round + 1)).core with started := true }
      ∧ (c.rd = s.own → t.vc0 = s.vc0 ++ [⟨g, k, s.wl.dieId, c.round + 1, 0, 0, .reserve c.aw (compl c.aw)⟩]))
  ∧ (∀ (s : State) (m : Msg) (c : Coll) (ch : Chain), s.alive = true → m.body = .release → s.coll? m.group m.seq = some c →
    c.isOpen = false → c.round = m.round → (s.group m.group).memDie s.own = true →
    s.fromAbove m.group c.rd m.level = [ch] →
    ∃ t, exec (.releaseReservation m) s = .next t
      ∧ (t.coll? m.group m.seq).map Coll.core
          = some { c.core with
              holds := false, rep := none, kids := [], reps := [], tried := [], resv := c.resv.filter (fun i => decide (i ≠ ch.id))
              v1ref := if c.resv.contains ch.id then c.v1ref else [] })
  ∧ (∀ (s : State) (g : BitVec 12) (k : Word) (c : Coll) (x : BitVec 64), s.canon → s.alive = true → s.coll? g k = some c →
    c.qStart = some x → c.st = .queued → (s.group g).home = s.own → s.reached (x + 0x100000#64) = true →
    (c.qLong = true ∨ s.groupHeld g = true → exec (.queuedLong g k) s = .next s)
    ∧ (c.qLong = false → s.groupHeld g = false → ∃ t, exec (.queuedLong g k) s = .next t ∧ t.coll? g k = some { c with qLong := true }
        ∧ t.adm = { s.adm with longq := satInc s.adm.longq }
        ∧ (s.gst.unread < 64 → mget LogEntry.zero t.gst.log (s.gst.logWr.toNat % 64) =
            { LogEntry.zero with v := true, code := 0x0F, group := g, arg0 := k, time := s.nowInt })))

/-- R231, R233: the report of the whole tree, from the root die, decides at the home member. A stake down: ABORT_MEMBER. A bound above
2^40 even with nothing else open: REFUSE. A bound of at most 2^40, no FULL and no suspension of the group: admitted, counted, with the
bound recorded; ADMIT goes to the root. Otherwise the round is over, RELEASE goes to the root, and the collective stays QUEUED. -/
def Obligations.ReserveReportDecides : Prop :=
  ∀ (s : State) (m : Msg) (r : Report) (c : Coll) (b best : Nat), s.alive = true → m.body = .report r →
    s.coll? m.group m.seq = some c → m.level = 0 → c.round = m.round → c.st = .queued → c.b = 0 → c.decided = none →
    (s.group m.group).home = s.own → c.started = true →
    b = (s.takeMsg m).bound m.group c.aw r ((s.takeMsg m).homeHop c.rd) false →
    best = (s.takeMsg m).bound m.group c.aw r ((s.takeMsg m).homeHop c.rd) true →
    ∃ (t : State) (c' : Coll), exec (.reserveReport m) s = .next t ∧ t.coll? m.group m.seq = some c'
      ∧ c'.st = .queued ∧ t.adm.lastBest = BitVec.ofNat 40 (min best (2 ^ 40 - 1))
      ∧ (r.down = true → c'.decided = some 6)
      ∧ (r.down = false → c'.decided = none)
      ∧ (r.down = false → 2 ^ 40 < best → t.adm.refused = satInc s.adm.refused
          ∧ ∃ v, t.vc0 = v ++ [⟨m.group, m.seq, s.wl.dieId, 0, 0, 0, .refuse⟩])
      ∧ (r.down = false → best ≤ 2 ^ 40 → b ≤ 2 ^ 40 → r.full = false → s.groupHeld m.group = false →
          t.adm.admitted = satInc s.adm.admitted ∧ t.adm.lastB = BitVec.ofNat 40 (min b (2 ^ 40 - 1))
          ∧ c'.passed = true ∧ c'.started = false
          ∧ (c.rd = s.own → ∃ v, t.vc0 = v ++ [⟨m.group, m.seq, s.wl.dieId, c.round, 0, 0,
              .admission (s.admTime c.aw) (s.admTime c.aw + BitVec.ofNat 64 b) b⟩]))
      ∧ (r.down = false → best ≤ 2 ^ 40 → (2 ^ 40 < b ∨ r.full = true ∨ s.groupHeld m.group = true) →
          t.adm.admitted = s.adm.admitted ∧ t.adm.refused = s.adm.refused ∧ c'.started = false ∧ c'.passed = c.passed
          ∧ (c.rd = s.own → ∃ v, t.vc0 = v ++ [⟨m.group, m.seq, s.wl.dieId, c.round, 0, 0, .release⟩]))

/-- R234: ADMIT is recorded at a die of the round; until the counter reaches T_ADM, or while the group is suspended, the
collective does not open. R100, R234: once T_ADM has come, LAUNCH_FIRE opens it, and each member of this die receives
ADMITTED with its own SEQ. -/
def Obligations.AdmissionOpensAtItsTime : Prop :=
  (∀ (s : State) (m : Msg) (c : Coll) (tm d : BitVec 64) (b : Nat), s.alive = true → m.body = .admission tm d b →
    s.coll? m.group m.seq = some c → c.st = .queued → c.b = 0 → c.decided = none → c.round = m.round →
    (s.reached tm = false ∨ s.groupHeld m.group = true) →
    ∃ u : State, exec (.admission m) s = .next u.settle
      ∧ (u.coll? m.group m.seq).map Coll.core = some { c.core with tAdm := tm, dl := d, b := b, v1since := [], v1ref := [] }
      ∧ u.ports = s.ports)
  ∧ (∀ (s : State) (g : BitVec 12) (k : Word) (c : Coll), s.canon → s.alive = true → s.coll? g k = some c → c.st = .queued →
    (s.reached c.tAdm = false ∨ s.groupHeld g = true → exec (.launchFire g k) s = .next s.settle)
    ∧ (c.b ≠ 0 → c.decided = none → s.reached c.tAdm = true → s.groupHeld g = false →
        ∃ t, exec (.launchFire g k) s = .next t
          ∧ (∀ x ∈ c.members, ⟨1, g, x.k, true, false⟩ ∈ (t.port x.cp).stq) ∧ Frame (fun _ => false) s t))

/-- R107, R27: at the decider the first fault report of a collective decides it with its code, a collective of which some issue has
still to come included; a report of a collective that is decided, or that has ended there, is logged as LATE_REPORT and changes
nothing else. -/
def Obligations.FaultReportDecidesOnce : Prop :=
  ∀ (s : State) (m : Msg) (code src : BitVec 8) (unit : BitVec 16) (arg : Word) (trap : Option Cand), s.canon → s.alive = true →
    m.body = .fault code src unit arg trap → s.decider m.group m.seq = s.own →
    (((s.coll? m.group m.seq = none ∧ s.awaits m.group m.seq = false) ∨ (∃ c, s.coll? m.group m.seq = some c ∧ c.decided.isSome = true)) →
      ∃ t, exec (.fault m) s = .next t ∧ t = { s with gst := t.gst, vc0 := s.vc0.erase m }
        ∧ (s.gst.unread < 64 → mget LogEntry.zero t.gst.log (s.gst.logWr.toNat % 64) =
            { LogEntry.zero with
              v := true, code := 0x02, group := m.group, cls := 1, arg0 := m.seq, unit := unit
              arg1 := BitVec.ofNat 32 (code.toNat + pl m.origin.toNat 16)
              src := BitVec.ofNat 4 src.toNat, time := s.nowInt }))
    ∧ (∀ c, s.coll? m.group m.seq = some c → c.decided = none →
      ∃ t, exec (.fault m) s = .next t
        ∧ (t.coll? m.group m.seq).map (fun c => (c.st, c.decided)) = some (c.st, some code)
        ∧ ∃ v, t.vc0 = v ++ [⟨m.group, m.seq, s.wl.dieId, 0, 0, 0, abortBody m.group m.seq (isOp c.aw) code.toNat⟩])
    ∧ (s.coll? m.group m.seq = none → s.awaits m.group m.seq = true →
      ∃ t, exec (.fault m) s = .next t ∧ (t.coll? m.group m.seq).map (fun c => c.decided) = some (some code))

/-- R22, R356, Table EX-7: a close-round, SENT or CHECKED report and a fingerprint report from a die below count once for their edge of the
tree; a report that comes again, or over no edge of the tree, changes nothing. KIND 0 belongs to an ordinary collective, the others to a
routed operation. -/
def Obligations.ReportsCountOnce : Prop :=
  ∀ (s : State) (m : Msg) (c : Coll), s.alive = true → s.coll? m.group m.seq = some c →
    (∀ kind nmem fp dg con silt osilt sent rcv trap, m.body = .close kind nmem fp dg con silt osilt sent rcv trap →
      (c.decided.isSome = true ∨ c.st = .ended ∨ s.fromKid c m = false ∨ isExch c.aw = decide (kind = 0) →
        exec (.close m) s = .next (State.settle { s with vc0 := s.vc0.erase m }))
      ∧ (c.decided = none → c.st ≠ .ended → s.fromKid c m = true → isExch c.aw ≠ decide (kind = 0) →
        exec (.close m) s = .next (State.settle (State.push (State.putColl { s with vc0 := s.vc0.erase m }
          (if kind = 1 then (if hasFrom m c.sentIn then c else { c with sentIn := c.sentIn ++ [(m.level, m.srcf, m.body)] })
           else if hasFrom m c.closeIn then c else { c with closeIn := c.closeIn ++ [(m.level, m.srcf, m.body)] })) m.group m.seq))))
    ∧ (∀ fp n, m.body = .fprint fp n →
      (s.fromKid c m = false ∨ hasFrom m c.fpIn = true → exec (.fprint m) s = .next (State.settle { s with vc0 := s.vc0.erase m }))
      ∧ (s.fromKid c m = true → hasFrom m c.fpIn = false →
          exec (.fprint m) s = .next (State.settle (State.push (State.putColl { s with vc0 := s.vc0.erase m }
            { c with fpIn := c.fpIn ++ [(m.level, m.srcf, fp, n.toNat)] }) m.group m.seq))))

/-- R204, Table EX-7: WCRED gives wale credits back to the collective's path of that level, XCRED to the source member's stream (a
member that has something outstanding), and ALL_SENT marks the routed operation complete and is passed to the dies below. -/
def Obligations.CreditsReturn : Prop :=
  ∀ (s : State) (m : Msg) (c : Coll), s.alive = true → s.coll? m.group m.seq = some c →
    (∀ l p n, m.body = .wcred l p n → exec (.wcred m) s = .next (State.settle (State.putColl { s with vc0 := s.vc0.erase m }
      { c with credits := mput 0 c.credits l (mget 0 c.credits l - n) })))
    ∧ (∀ cp n, m.body = .xcred cp n → (∃ x ∈ c.members, x.cp = cp ∧ x.ex.owed ≠ 0) →
      exec (.xcred m) s = .next (State.settle (State.putColl { s with vc0 := s.vc0.erase m }
        (c.onMember cp (fun x => { x with ex := { x.ex with owed := x.ex.owed - n } })))))
    ∧ (m.body = .allSent → c.st = .opened → c.decided = none → c.allSent = false →
      c.members.all (fun x => x.ex.toks.all (fun t => t.routes.all (fun r => !r.placed || r.got.isSome))) = true →
      ∃ u : State, exec (.allSent m) s = .next (State.settle (u.push m.group m.seq))
        ∧ (u.coll? m.group m.seq).map Coll.core = some { c.core with allSent := true } ∧ u.ports = s.ports)

/-- R21, R105, R108, R110, R436: the terminal token of a collective, once it may act at the chain that holds this die's members (nothing of
that chain's down wales waits), is carried out: each member that has no outcome gets its token, with its own SEQ and, R105, its own
RX_WALES, and no other port gets one. A token that fails its complements, and LOST, latch the port of each such member instead. After
each of the three no member is left without its end. A token or LOST for a collective that the die does not know changes nothing. -/
def Obligations.TerminalTokenReachesMembers : Prop :=
  ∀ (s : State) (m : Msg), s.canon → s.alive = true →
    (∀ (c : Coll) (ch : Chain) (l : List Chain), s.coll? m.group m.seq = some c → c.st ≠ .ended → s.addressed c m.level = ch :: l →
      ch.mem = true → c.tokSegs.contains ch.id = false → (m.level = 0 ∨ s.tokWaits c ch.id = false) →
      (∀ ws, m.body = .token ws (compl ws) → (wf_ (wd ws 1) 23 16 ≠ 0 ∨ isExch c.aw = false ∨ s.img.cfg.mapOk = true) →
        ∃ u : State, exec (.token m) s = .next u.settle
          ∧ (∀ x ∈ c.members, x.ended = false →
              (wf_ (wd ws 1) 23 16 ≠ 0 →
                ⟨m.group, x.k, abortWords m.group x.k (wf_ (wd ws 1) 15 12) (wf_ (wd ws 1) 23 16) x.rx, 0, false⟩ ∈ (u.port x.cp).tokq)
              ∧ (wf_ (wd ws 1) 23 16 = 0 → ∃ w4 : List Word,
                ⟨m.group, x.k, x.k :: ((ws.take 5).drop 1 ++ [BitVec.ofNat 32 x.rx] ++ (ws.take 12).drop 6 ++ w4), 0, false⟩
                  ∈ (u.port x.cp).tokq))
          ∧ (∀ i, (∀ x ∈ c.members, x.ended = false → x.cp ≠ i) → (u.port i).tokq = (s.port i).tokq)
          ∧ (∀ c', u.coll? m.group m.seq = some c' → c'.members.all (fun x => x.ended) = true))
      ∧ (∀ ws wsN, m.body = .token ws wsN → wsN ≠ compl ws →
        ∃ u : State, exec (.token m) s = .next u.settle ∧ (∀ x ∈ c.members, x.ended = false → (u.port x.cp).latched = true)
          ∧ (∀ c', u.coll? m.group m.seq = some c' → c'.members.all (fun x => x.ended) = true))
      ∧ (m.body = .lost →
        ∃ u : State, exec (.lost m) s = .next u.settle ∧ (∀ x ∈ c.members, x.ended = false → (u.port x.cp).latched = true)
          ∧ (∀ i, (u.port i).tokq = (s.port i).tokq)
          ∧ (∀ c', u.coll? m.group m.seq = some c' → c'.members.all (fun x => x.ended) = true)))
    ∧ (s.coll? m.group m.seq = none →
      (m.body = .lost → exec (.lost m) s = .next (State.settle { s with vc0 := s.vc0.erase m }))
      ∧ (∀ ws wsN, m.body = .token ws wsN → (wf_ (wd ws 1) 23 16 = 0 ∨ s.awaits m.group m.seq = false) →
        exec (.token m) s = .next (State.settle { s with vc0 := s.vc0.erase m })))

/-- R420, R421: a driver's ABORT of an entry acts while the entry holds what the last latched read named, and COL_KILL acts at
the home die on a collective that is QUEUED or OPEN (CLOSING and SUSPENDED included): each makes an ABORT_SOFTWARE (7) report to the
decider. COL_KILL shows in RESULT whether it did. -/
def Obligations.DriverAbortsReport : Prop :=
  ∀ (s : State) (c : Coll) (v : Word), s.alive = true →
    (∀ e : Fin 512, s.entryColl e.val = some c → v.getLsbD 0 = true →
      (mget none s.ct.entryRead e.val = some (c.g, c.k) → s.decider c.g c.k = s.own →
        exec (.entryAbort e v) s = .next (s.post (s.faultMsg c.g c.k 7 0 0 0 none)))
      ∧ (mget none s.ct.entryRead e.val ≠ some (c.g, c.k) → exec (.entryAbort e v) s = .next s))
    ∧ (v.getLsbD 12 = true →
      (s.coll? (v.setWidth 12) s.col.killSeq = none →
        exec (.colKill v) s = .next { s with col := { s.col with killGroup := v.setWidth 12, killRes := 2 } })
      ∧ (s.coll? (v.setWidth 12) s.col.killSeq = some c →
        ((s.group (v.setWidth 12)).home = s.own → (c.st = .queued ∨ c.isOpen = true) → s.decider (v.setWidth 12) s.col.killSeq = s.own →
          exec (.colKill v) s = .next { s with
            col := { s.col with killGroup := v.setWidth 12, killRes := 1 },
            vc0 := s.vc0 ++ [s.faultMsg (v.setWidth 12) s.col.killSeq 7 0 0 0 none] })
        ∧ ((s.group (v.setWidth 12)).home ≠ s.own ∨ (c.st ≠ .queued ∧ c.isOpen = false) →
          exec (.colKill v) s = .next { s with col := { s.col with killGroup := v.setWidth 12, killRes := 2 } })))

/-! ### The datapath -/

/-- R38: the output of combine_sum and its silt events do not depend on the order of the ports. -/
def Obligations.CombineSumIgnoresPortOrder : Prop :=
  ∀ ws vs : List Loam, ws.Perm vs → combineSum ws = combineSum vs ∧ nanCreated ws = nanCreated vs

/-- R50, R51, R52: on words that pass R51, at most 32 of them, no combining point raises an error of its own: the
predicted residue of a sum and the carried residue of a compare are those of the output, and the two logic trees
agree. So a mismatch means that something else than the inputs is wrong. R51: what a combining point forwards passes
R51 at the next one. -/
def Obligations.CombineRaisesNoFalseAlarm : Prop :=
  (∀ (op : Nat) (ins : List (Lane × Word)), op ≤ 6 → ins.length ≤ 32 →
    (∀ x ∈ ins, ∀ w, x.1 = .word w → w.resOk = true) →
    (combineLane op ins).resOk = true ∧ (combineLane op ins).dualOk = true)
  ∧ (∀ (op : Nat) (ins : List (Lane × Word)) (w : Loam), op ≤ 6 → ins.length ≤ 32 →
    (∀ x ∈ ins, ∀ w, x.1 = .word w → w.resOk = true) → (combineLane op ins).out = .word w → w.resOk = true)

/-- R38, R49, R430: COMBINE_WALE at the top node of a die that is the root, with every input there and room at the root: the
inputs of that wale leave their buffers, the node's count goes up, and the combined wale stands at the root. An uncorrectable
symbol in a data buffer is logged and reported with ABORT_CORRUPT instead, and combines nothing. -/
def Obligations.CombineWaleMovesUp : Prop :=
  ∀ (s : State) (g : BitVec 12) (k : Word) (i w : Nat) (c : Coll), s.canon → s.alive = true → s.coll? g k = some c → c.st = .opened →
    c.decided = none →
    (∀ ins r, s.fromPoint c (.node i) = ([], .root) → s.inputs c (.node i) w = some ins → (∃ b ∈ ins, b.wale.isSome = true) →
      mget 0 c.fwd i = w → c.rootQ.length < s.img.cfg.bufs → isOp c.aw ≠ 7 → c.steps = [] → s.dbg.armed = false →
      combineWales (isOp c.aw) w (ins.map (fun b => b.v)) 1 i s.own false = (r, none) →
      ∃ (u : State) (c' : Coll), exec (.combineWale g k (.node i) w .clean) s = .next u.settle ∧ u.coll? g k = some c'
        ∧ c' = { c with rootQ := c.rootQ ++ [(w, r)], bufs := dropInputs (.node i) w c.bufs, fwd := mput 0 c.fwd i (w + 1) }
        ∧ u = { s with colls := u.colls })
    ∧ (∀ a, s.decider g k = s.own →
      ∃ u : State, exec (.combineWale g k (.node i) w (.uncorrData a)) s = .next u.settle
        ∧ u = { s with gst := u.gst, vc0 := s.vc0 ++ [s.faultMsg g k 2 3 i a none] }
        ∧ (s.gst.unread < 64 → mget LogEntry.zero u.gst.log (s.gst.logWr.toNat % 64) =
            { LogEntry.zero with
              v := true, code := 0x08, abort := 2, group := g, cls := 6, arg0 := k, arg1 := a, unit := BitVec.ofNat 16 i
              src := 3, time := s.nowInt }))

/-- R364, R109, R261: a send wale goes to the collective that the port owes data, when its leaf has room and the port's accumulator at
the pace P has reached a whole wale; data still owed to an aborted collective is discarded first; a wale that nothing takes yet is held
at the port; one that nothing is owed for is logged as STRAY_WALE with ATTN bit 1 and changes nothing else. While a wale is held no
other is taken. -/
def Obligations.SendWaleGoesWhereItIsOwed : Prop :=
  ∀ (s : State) (cp : Fin 1024) (g : BitVec 12) (data : List Byte) (acc : Nat), s.canon → s.alive = true →
    acc = mget 0 s.pwr.accs cp.val + s.pwr.pace.toNat →
    ((s.port cp.val).txHeld.isSome = true → exec (.sendWale cp g data) s = .next s)
    ∧ ((s.port cp.val).txHeld = none →
      ((s.port cp.val).owes g ≠ [] → ∃ u : State, exec (.sendWale cp g data) s = .next u.settle
        ∧ u.port cp.val = (s.port cp.val).discardOne g data ∧ u = { s with ports := u.ports })
      ∧ ((s.port cp.val).owes g = [] →
        (∀ c m, s.owedColl cp.val g = some (c, m) → s.leafRoom c m = true → 256 ≤ acc →
          exec (.sendWale cp g data) s = .next (State.settle (State.supply { s with
            pwr := { s.pwr with accs := mput 0 s.pwr.accs cp.val (acc - 256) } } c m data)))
        ∧ (∀ c m, s.owedColl cp.val g = some (c, m) → s.leafRoom c m = true → acc < 256 →
          ∃ u : State, exec (.sendWale cp g data) s = .next u.settle
            ∧ u.port cp.val = { s.port cp.val with txHeld := some (g, data) }
            ∧ u = { s with ports := u.ports, pwr := { s.pwr with accs := mput 0 s.pwr.accs cp.val acc } })
        ∧ (∀ c m, s.owedColl cp.val g = some (c, m) → s.leafRoom c m = false →
          ∃ u : State, exec (.sendWale cp g data) s = .next u.settle
            ∧ u.port cp.val = { s.port cp.val with txHeld := some (g, data) } ∧ u = { s with ports := u.ports })
        ∧ (s.owedColl cp.val g = none → s.pendingColl cp.val g = true →
          ∃ u : State, exec (.sendWale cp g data) s = .next u.settle
            ∧ u.port cp.val = { s.port cp.val with txHeld := some (g, data) } ∧ u = { s with ports := u.ports })
        ∧ (s.owedColl cp.val g = none → s.pendingColl cp.val g = false →
          ∃ u : State, exec (.sendWale cp g data) s = .next u.settle
            ∧ u.gst.attn.getLsbD 1 = true ∧ u = { s with gst := u.gst })))

/-! ### Suspending a group -/

/-- R113, R114, R422: a SUSPEND or RESUME request. While one is under way only GROUP and OP are stored. Without the feature, or for a
group that the image does not define: FAIL. SUSPEND of a group that is not running: 4; RESUME of one that is not suspended: 5.
Otherwise the status is DRAINING or RELOADING and SUSP goes to every die of the group. -/
def Obligations.SuspendAndResumeAreRequested : Prop :=
  ∀ (s : State) (v : Word) (g : BitVec 12) (op : Nat) (c : Instr), s.canon → s.alive = true → (c = .suspend v ∨ c = .resume v) →
    g = v.setWidth 12 → op = wf_ v 13 12 → v.getLsbD 14 = true → op = 1 ∨ op = 2 →
    ∃ t, exec c s = .next t ∧ t.col.suspGroup = g ∧ t.col.suspOp = BitVec.ofNat 2 op ∧ t.col.susp = s.col.susp
      ∧ (s.col.suspSt = 1 ∨ s.col.suspSt = 2 → t.col.suspSt = s.col.suspSt ∧ t.vc0 = s.vc0)
      ∧ (s.col.suspSt ≠ 1 → s.col.suspSt ≠ 2 → t.col.suspGrp = g
        ∧ ((s.feat 7 = false ∨ (s.group g).v = false) → t.col.suspSt = 6 ∧ t.vc0 = s.vc0)
        ∧ (s.feat 7 = true → (s.group g).v = true →
          (op = 1 → (s.susp g).st ≠ .none → t.col.suspSt = 4 ∧ t.vc0 = s.vc0)
          ∧ (op = 2 → (s.susp g).st ≠ .suspended → t.col.suspSt = 5 ∧ t.vc0 = s.vc0)
          ∧ ((op = 1 ∧ (s.susp g).st = .none) ∨ (op = 2 ∧ (s.susp g).st = .suspended) →
              t.col.suspSt = BitVec.ofNat 3 op
              ∧ ((s.group g).dieList = [s.own] →
                  t.vc0 = s.vc0 ++ [⟨g, 0, s.wl.dieId, 0, 0, 0, .susp (BitVec.ofNat 8 op) s.col.suspAddr⟩]))))

/-- R114, R115, R116: SUSP with OP 1 starts the drain of a running group on the die and stops the bound timers of what it holds;
SUSPEND_DRAIN_DONE makes every collective that the suspension holds SUSPENDED, empties its buffers and shows the size of the
record; SUSPEND_RECORD_WRITTEN makes the group suspended; SUSP with OP 2 starts the reload; RESUME_RELOAD_DONE ends the
suspension, with the RELOAD error in the log where a check of the record or one of its reads fails. A block that handles a request of
another group ignores SUSP. R114: a DONE report of a die below is kept by its edge of the gather tree; one for the requesting die
shows the outcome of the whole group there. -/
def Obligations.SuspensionRunsItsCourse : Prop :=
  (∀ (s : State) (g : BitVec 12), s.canon → s.alive = true →
    (∀ m op addr, m.body = .susp op addr → m.group = g →
      (s.suspHandling = true → s.col.suspGrp ≠ g → exec (.susp m) s = .next { s with vc0 := s.vc0.erase m })
      ∧ ((s.suspHandling = false ∨ s.col.suspGrp = g) →
        (op = 1 → (s.susp g).st = .none → ∃ t, exec (.susp m) s = .next t ∧ t.col.suspSt = 1 ∧ t.col.suspGrp = g
          ∧ t.susp g = { s.susp g with
              st := .draining, addr := addr, mine := decide (m.origin.toNat = s.own), req := m.origin, own := false, fail := false
              size := 0, since := s.nowInt }
          ∧ (∀ k c, s.coll? g k = some c → (c.isOpen = false → t.coll? g k = some c)
              ∧ (c.isOpen = true → (t.coll? g k).map (fun x => { x with remain := 0 }) = some { c with remain := 0 })))
        ∧ (op = 2 → (s.susp g).st = .suspended → ∃ t, exec (.susp m) s = .next t ∧ t.col.suspSt = 2 ∧ t.col.suspGrp = g
          ∧ t.susp g = { s.susp g with
              st := .reloading, addr := addr, mine := decide (m.origin.toNat = s.own), req := m.origin, own := false, fail := false
              size := 0, need := 1 }
          ∧ t.colls = s.colls)))
    ∧ ((s.susp g).st = .draining → s.drained g = true → ∃ t, exec (.suspendDrainDone g) s = .next t
        ∧ (t.susp g).st = .writing
        ∧ (∀ k c, s.coll? g k = some c → s.held c = true → (t.coll? g k).map (fun x => (x.st, x.bufs, x.rootQ, x.steps)) = some (.suspended, [], [], []))
        ∧ (∀ g' k c, s.coll? g' k = some c → (g' ≠ g ∨ s.held c = false) → t.coll? g' k = some c)
        ∧ t.col.suspSize = BitVec.ofNat 25 (t.susp g).record.length ∧ t = { s with colls := t.colls, col := t.col })
    ∧ ((s.susp g).st = .writing → (s.susp g).record.length ≤ 64 * (s.susp g).next → s.suspBusy = false →
        ∃ t, exec (.suspendRecordWritten g) s = .next t ∧ (t.susp g).st = .suspended ∧ (t.susp g).record = [])
    ∧ ((s.susp g).st = .reloading → (s.susp g).need ≤ (s.susp g).next → s.suspBusy = false →
        ((s.susp g).fail = true →
          ∃ t : State, exec (.resumeReloadDone g) s = .next t ∧ (t.susp g).st = .none
            ∧ (s.gst.unread < 64 → mget LogEntry.zero t.gst.log (s.gst.logWr.toNat % 64) =
                { LogEntry.zero with v := true, code := 0x26, abort := 2, group := g, cls := 1, time := s.nowInt }))
        ∧ ((s.susp g).fail = false → s.reloadFault g ((List.range (s.susp g).need).flatMap (fun i => mget [] (s.susp g).got i)) = none →
          ∃ u : State, exec (.resumeReloadDone g) s = .next u.settle ∧ (u.susp g).st = .none)))
  ∧ (∀ (s : State) (m : Msg) (st : BitVec 8) (nd bytes : Word), s.canon → s.alive = true → m.body = .suspDone st nd bytes →
    (m.level ≠ 0 → exec (.suspDone m) s = .next (State.suspReport (State.setSusp { s with vc0 := s.vc0.erase m } m.group { s.susp m.group with
        doneIn := (s.susp m.group).doneIn ++ [(m.level, m.srcf, nd.toNat, bytes.toNat, decide (st = 6))] }) m.group))
    ∧ (m.level = 0 →
      ((s.susp m.group).mine = true → ∃ t, exec (.suspDone m) s = .next t ∧ t.col.suspSt = st.setWidth 3
        ∧ t.susp m.group = { s.susp m.group with mine := false })
      ∧ ((s.susp m.group).mine = false → exec (.suspDone m) s = .next { s with vc0 := s.vc0.erase m })))

/-! ### Stakes -/

/-- R181, R184, R185, R186, R187: a flit that crosses the wire unchanged is good at the receiver, without a correction, with the header and
the payload that were sent. Its 66 units of four bytes hold the wire bytes in order, and unit `i` of the word of the `j`-th of `l` lanes is
unit `j + i l`. -/
def Obligations.FlitRoundTrip : Prop :=
  ∀ (h : FlitHdr) (p : List Byte), h.ftype < 16 → h.vc < 4 → h.fseq < 4096 → h.ack < 4096 → h.dest < 65536 → h.hop < 32 →
    h.level < 8 → h.srcf < 32 → h.resv = false → p.length ≤ 244 →
    (readFlit (mkFlit h p)).good = true ∧ (readFlit (mkFlit h p)).corr = 0 ∧ (readFlit (mkFlit h p)).hdr = h
      ∧ (readFlit (mkFlit h p)).body = padTo 244 p
      ∧ (mkFlit h p).length = 264 ∧ (unitsOf (mkFlit h p)).flatMap (fun u => toLe 4 u.toNat) = mkFlit h p
      ∧ ∀ l j i, i < 8 → (laneWord l (unitsOf (mkFlit h p)) j).extractLsb' (32 * i) 32 = (unitsOf (mkFlit h p)).getD (j + i * l) 0

/-- R186: any one wrong symbol of a codeword, a check symbol included, is corrected. -/
def Obligations.OneWrongSymbolIsCorrected : Prop :=
  ∀ (d : List Byte) (i : Nat) (e : Byte), d.length = 64 → i < 66 → e ≠ 0 →
    decodeCodeword (d ++ checkSymbols d) = .ok d
      ∧ decodeCodeword ((d ++ checkSymbols d).set i (byteAt (d ++ checkSymbols d) i ^^^ e)) = .corrected d

/-- R198, R203, R344: a DATA flit at a stake in service. Good and with the expected FSEQ, into a buffer with room: the expected FSEQ goes
up by 1, RXDATA counts, a NAK state ends; a flit without a segment frees its buffer at once. No flit waits in its receive buffer before
(`x.rxbuf = []`). A good flit that has been accepted before
changes nothing but the counts of the code. A good flit out of order, or a flit that is not good, starts a NAK state: a LINK flit is due
and the replay shadow begins. -/
def Obligations.DataFlitAcceptance : Prop :=
  ∀ (s : State) (n : Fin 16) (wire : List Byte) (el : BitVec 10) (x y : Stake) (f : RxFlit), s.canon → s.alive = true →
    x = s.stake n.val → x.st = .inService → x.closing = false → x.rxbuf = [] → f = readFlit (padTo 264 wire) → y = x.count f false →
    y.badRun.length < 64 →
    ∃ u : State, exec (.dataFlitReceive n wire el) s = .next u.settle
      ∧ (f.good = true → f.hdr.ftype = 1 → f.hdr.ackV = false → f.hdr.resv = false →
          ((BitVec.ofNat 12 f.hdr.fseq = x.rxSeq → x.held.getD f.hdr.vc 0 < vcBuf f.hdr.vc → f.hdr.dest = s.own → segsOf 31 f.body = some [] →
              u.stake n.val = Stake.free { y with rxSeq := x.rxSeq + 1, ackV := true, rxdata := satInc x.rxdata, nak := false,
                                                  held := x.held.set f.hdr.vc (x.held.getD f.hdr.vc 0 + 1) } f.hdr.vc
              ∧ (∀ i, i ≠ n.val → u.stake i = s.stake i) ∧ u = { s with stakes := u.stakes })
          ∧ (BitVec.ofNat 12 f.hdr.fseq ≠ x.rxSeq → precedes 12 (BitVec.ofNat 12 f.hdr.fseq).toNat x.rxSeq.toNat = true →
              u = s.setStake n.val y)
          ∧ (BitVec.ofNat 12 f.hdr.fseq ≠ x.rxSeq → precedes 12 (BitVec.ofNat 12 f.hdr.fseq).toNat x.rxSeq.toNat = false →
              u.stake n.val = y.nakStart ∧ (∀ i, i ≠ n.val → u.stake i = s.stake i) ∧ u = { s with stakes := u.stakes })))
      ∧ (f.good = false →
          u.stake n.val = y.nakStart ∧ (∀ i, i ≠ n.val → u.stake i = s.stake i) ∧ u = { s with stakes := u.stakes })

/-- R196, R197, R202, R210: control flits that are good, at a stake in service. Any flit with an acknowledgement frees the flits that it
covers; IDLE does nothing more. LINK without NAK takes over the four credit counters. A PROBE is answered by a PROBE_RET that waits to
leave. -/
def Obligations.ControlFlitsTakeEffect : Prop :=
  ∀ (s : State) (n : Fin 16) (wire : List Byte) (el : BitVec 10) (x y : Stake) (f : RxFlit), s.canon → s.alive = true →
    x = s.stake n.val → x.st = .inService → x.closing = false → x.rxbuf = [] → f = readFlit (padTo 264 wire) → f.good = true →
    f.hdr.resv = false →
    y = (if f.hdr.ackV then (x.count f true).acked (BitVec.ofNat 12 f.hdr.ack) else x.count f true) → y.badRun.length < 64 →
    (f.hdr.ftype = 0 → ∃ u : State, exec (.idleFlitReceive n wire) s = .next u.settle ∧ u.stake n.val = y
      ∧ (∀ i, i ≠ n.val → u.stake i = s.stake i) ∧ u = { s with stakes := u.stakes })
    ∧ (f.hdr.ftype = 2 → (byteAt f.body 10).getLsbD 0 = false →
      ∃ u : State, exec (.linkFlitReceive n wire) s = .next u.settle
        ∧ u.stake n.val = { y with txFreed := [BitVec.ofNat 16 (leAt f.body 0 2), BitVec.ofNat 16 (leAt f.body 2 2),
                                               BitVec.ofNat 16 (leAt f.body 4 2), BitVec.ofNat 16 (leAt f.body 6 2)] }
        ∧ (∀ i, i ≠ n.val → u.stake i = s.stake i) ∧ u = { s with stakes := u.stakes })
    ∧ (f.hdr.ftype = 3 → leAt f.body 0 2 = 2 →
      ∃ u : State, exec (.trainFlitReceive n wire el) s = .next u.settle
        ∧ u.stake n.val = { y with ctlq := y.ctlq ++ [.ret (leAt f.body 2 2) (s.now16 + el.toNat)] }
        ∧ (∀ i, i ≠ n.val → u.stake i = s.stake i) ∧ u = { s with stakes := u.stakes })

/-- R199, R201, R202, R198, R344, R418: the timers of a stake in service, and CLRCNT. ACK_TIMEOUT starts a replay from the oldest
flit. LINK_FLIT_DUE, and NAK_REPEAT in a NAK state, put a LINK flit on the line. REPLAY_SHADOW_END outside a NAK state ends the
shadow. CLRCNT clears the counters and nothing else. -/
def Obligations.StakeTimersAct : Prop :=
  ∀ (s : State) (n : Fin 16) (x : Stake), s.canon → s.alive = true → x = s.stake n.val →
    exec (.clrcnt n) s = .next (s.setStake n.val { x with
        corr := 0, uncorr := 0, crcfail := 0, replayC := 0, retrainC := 0, proto := 0, badctl := 0, txdata := 0, rxdata := 0 })
    ∧ (x.st = .inService →
      (∀ f fs, x.rbuf = f :: fs → (if x.replayF = some f.fseq then x.replays + 1 else 1) < 16 →
        exec (.ackTimeout n) s = .next (s.setStake n.val { x with
          replay := some 0, replayC := satInc x.replayC, replayF := some f.fseq
          replays := if x.replayF = some f.fseq then x.replays + 1 else 1 }))
      ∧ (x.rbuf = [] → exec (.ackTimeout n) s = .next s)
      ∧ exec (.linkFlitDue n) s = .next (s.setStake n.val { x with
          lineOut := x.linkFlit, units := x.units ++ unitsOf x.linkFlit, linkDue := false, linked := x.freed, sinceLk := 0 })
      ∧ (x.nak = true → exec (.nakRepeat n) s = .next (s.setStake n.val { x with
          lineOut := x.linkFlit, units := x.units ++ unitsOf x.linkFlit, linkDue := false, linked := x.freed, sinceLk := 0 })
        ∧ exec (.replayShadowEnd n) s = .next s)
      ∧ (x.nak = false → exec (.replayShadowEnd n) s = .next (s.setStake n.val { x with shadow := false })
        ∧ exec (.nakRepeat n) s = .next s))

/-- R208, R209, R210: training. ID_FLIT_DUE in step 6, 64 flit slots after the last ID flit, puts an ID flit on the line until the far end
has acknowledged; PROBE_RETRY in step 7 sends the probe again, and its departure stamp is due. A training word reaches its lane's receiver. TRAINING_TIMEOUT ends an attempt: PHY reset and the next
attempt, or, after the fourth, the stake is down with ATTN bit 4. PHY_RESET_DONE lets the next attempt begin. -/
def Obligations.TrainingAdvances : Prop :=
  ∀ (s : State) (n : Fin 16) (x : Stake), s.canon → s.alive = true → x = s.stake n.val → x.st = .training →
    (x.step = 6 → x.idAck = false → 63 ≤ x.sinceLk → ∃ t, exec (.idFlitDue n) s = .next t
      ∧ t.stake n.val = { x with
          lineOut := mkFlit (x.hdr 3) (s.trainPayload n.val .id), units := x.units ++ unitsOf (mkFlit (x.hdr 3) (s.trainPayload n.val .id))
          idSent := x.idSent || x.idRx.isSome, sinceLk := 0 }
      ∧ t = { s with stakes := t.stakes })
    ∧ (x.step ≠ 6 ∨ x.idAck = true ∨ x.sinceLk < 63 → exec (.idFlitDue n) s = .next s)
    ∧ (x.step = 7 → ∃ t, exec (.probeRetry n) s = .next t
      ∧ t.stake n.val = { x with
          lineOut := mkFlit (x.hdr 3) (s.trainPayload n.val (.probe x.pnum))
          units := x.units ++ unitsOf (mkFlit (x.hdr 3) (s.trainPayload n.val (.probe x.pnum))), stampDue := some (.probe x.pnum) }
      ∧ t = { s with stakes := t.stakes })
    ∧ (∀ lane w, 2 ≤ x.step → x.step ≤ 5 → x.phyRst = false → x.cand.getLsbD lane.val = true →
      ∃ t, exec (.trainingWord n lane w) s = .next t
        ∧ (t.stake n.val).laneRx
            = mput LaneRx.zero x.laneRx lane.val ((mget LaneRx.zero x.laneRx lane.val).take (n.val / 2) lane.val w.toNat)
        ∧ (t.stake n.val).rxd = mput 0 x.rxd lane.val w
        ∧ x.step ≤ (t.stake n.val).step)
    ∧ (2 ≤ x.step → x.phyRst = false →
      ∃ u : State, exec (.trainingTimeout n) s = .next u.settle
        ∧ (x.attempt < 3 → u.stake n.val = { x.train x.cand (x.attempt + 1) with phyRst := true } ∧ u = { s with stakes := u.stakes, gst := u.gst })
        ∧ (3 ≤ x.attempt → u.gst.attn.getLsbD 4 = true))
    ∧ (x.phyRst = true → exec (.phyResetDone n) s = .next (s.setStake n.val { x.train x.cand x.attempt with phyRst := false }))

/-- Table SK-1, R172, R178, R180, R208, R214, R418: the PHY's pins and RETRAIN, on a stake of a physical port whose other half is idle and
that is alone in its bond. Lanes that become ready take a training stake from step 1 to step 2. A lane in use that falls or that is reported
faulty makes a stake in service train again on its lanes while another of them is ready, counted and logged. RETRAIN trains again on all
lanes of the stake. A lane that no stake of its port drives is idle, and lane words stand while the PHY does not take them. -/
def Obligations.PhyPinsAndRetrain : Prop :=
  ∀ (s : State) (p : Fin 8) (lanes : BitVec 8) (x : Stake), s.canon → s.alive = true → x = s.stake (2 * p.val) →
    (∃ t, exec (.skPhyRdyRise p lanes) s = .next t
      ∧ (t.stake (2 * p.val)).rdy = x.rdy ||| lanes
      ∧ (x.st = .training → x.step = 1 → x.phyRst = false → Stake.lanesReady { x with rdy := x.rdy ||| lanes } x.cand ≠ 0 →
          (t.stake (2 * p.val)).step = 2)
      ∧ (x.st ≠ .training → t.stake (2 * p.val) = { x with rdy := x.rdy ||| lanes })
      ∧ t = { s with stakes := t.stakes })
    ∧ (x.st = .inService → x.lanes &&& lanes ≠ 0 → (s.stake (2 * p.val + 1)).st = .idle → s.bondUp (2 * p.val) = [2 * p.val] →
      x.closing = false →
      (Stake.lanesReady { x with rdy := x.rdy &&& ~~~lanes } x.lanes ≠ 0 →
        ∃ u : State, exec (.skPhyRdyFall p lanes) s = .next u.settle
          ∧ u.stake (2 * p.val) = { Stake.train { x with rdy := x.rdy &&& ~~~lanes } x.lanes 0 with
              retrainC := satInc x.retrainC, badRun := [], slotRun := 0, shadow := true })
      ∧ (Stake.lanesReady { x with flt := x.flt ||| lanes } x.lanes ≠ 0 →
        ∃ u : State, exec (.skLaneFlt p lanes) s = .next u.settle
          ∧ u.stake (2 * p.val) = { Stake.train { x with flt := x.flt ||| lanes } x.lanes 0 with
              retrainC := satInc x.retrainC, badRun := [], slotRun := 0, shadow := true }))
    ∧ (x.st = .idle ∨ x.st = .down ∨ (x.st = .training ∧ x.phyRst = true) → (s.stake (2 * p.val + 1)).st = .idle →
        s.txIdle p.val = 0xFF)
    ∧ (x.st = .inService → (s.stake (2 * p.val + 1)).st = .idle → s.txIdle p.val = ~~~x.lanes)
    ∧ (∀ acc : BitVec 64, acc.getLsbD p.val = false →
        ((s.pclks acc).stake (2 * p.val)).txd = x.txd ∧ ((s.pclks acc).stake (2 * p.val)).units = x.units)
    ∧ (∀ n : Fin 16, s.inService = true → s.img.cfg.stkEn n.val = true → ((s.stake n.val).st = .inService ∨ (s.stake n.val).st = .down) →
      (∀ m ∈ s.bondUp n.val, m = n.val) → (s.stake n.val).closing = false →
      ∃ t, exec (.retrain n) s = .next t
        ∧ t.stake n.val = { (s.stake n.val).train (s.img.cfg.lanesOf n.val) 0 with
            retrainC := satInc (s.stake n.val).retrainC, badRun := [], slotRun := 0, shadow := true }
        ∧ (s.gst.unread < 64 → mget LogEntry.zero t.gst.log (s.gst.logWr.toNat % 64) =
            { LogEntry.zero with
              v := true, code := 0x17, cls := 4, src := 4, unit := BitVec.ofNat 16 n.val, arg0 := 6
              arg1 := BitVec.ofNat 32 (s.stake n.val).fseqWord, time := s.nowInt })
        ∧ t = { s with stakes := t.stakes, gst := t.gst })

/-! ### Global time -/

/-- R343, R344: a SYNC counts only on the upstream stake. In the replay shadow it is rejected and counted; otherwise
its HOPS and its time are kept, and it waits for its FOLLOW. R343, R345, R346, Table TA-2: the FOLLOW of a usable
SYNC on the upstream stake gives an offset, which acts by the state of the die's time: FREE steps at the second of
two offsets within 8 ns; LOCKED and HOLDOVER slew within 32 ns; HOLDOVER steps beyond that as FREE does; LOCKED
rejects, and steps at the third of three rejected offsets within 8 ns. The counter changes at a step alone, and while REFCLK stands (R340)
the step waits. The span without a usable SYNC is measured past the step. -/
def Obligations.TimeMessagesAct : Prop :=
  (∀ (s : State) (n : Fin 16) (q : BitVec 16) (h : BitVec 8) (ms : BitVec 16) (el : BitVec 10), s.alive = true →
    (s.upstream ≠ some n.val → exec (.sync n q h ms el) s = .next s)
    ∧ (s.upstream = some n.val → (s.stake n.val).nak = false → (s.stake n.val).shadow = false →
      exec (.sync n q h ms el) s = .next { s with time := { s.time with
        syncRx := some ⟨q, h, s.time.now.toNat + el.toNat * 4096, true⟩, hops := h, lastUse := s.nowInt } })
    ∧ (s.upstream = some n.val → ((s.stake n.val).nak = true ∨ (s.stake n.val).shadow = true) →
      exec (.sync n q h ms el) s = .next { s with time := { s.time with
        syncRx := some ⟨q, h, s.time.now.toNat + el.toNat * 4096, false⟩, reject := satInc s.time.reject } }))
  ∧ (∀ (s : State) (n : Fin 16) (q : BitVec 16) (h : BitVec 8) (ms : BitVec 16) (td : BitVec 64) (tf : BitVec 16) (r : SyncRec) (off : Int),
    s.alive = true → s.upstream = some n.val → s.time.syncRx = some r → r.sseq = q → r.usable = true →
    off = stampDiff (td.toNat * 65536 + tf.toNat + (s.stake n.val).hopdly.toNat * 4096) r.tArr →
    ∃ t, exec (.follow n q h ms td tf) s = .next t ∧ t.time.offset = off32 off ∧ t.time.prevOff = some off ∧ t.time.syncRx = none
      ∧ ((s.time.st = .free ∧ s.time.prevOff.any (fun p => agree8 p off) = true)
          ∨ (s.time.st = .holdover ∧ 32 * 65536 < off.natAbs ∧ s.time.prevOff.any (fun p => agree8 p off) = true)
          ∨ (s.time.st = .locked ∧ 32 * 65536 < off.natAbs ∧ ∃ a b, s.time.rejOffs = [a, b] ∧ agree8 a b = true ∧ agree8 b off = true
              ∧ agree8 a off = true) →
          (s.time.stopped = false → t.time.now = BitVec.ofInt 80 (Int.ofNat s.time.now.toNat + off)
            ∧ t.time.lastUse = BitVec.ofInt 64 (Int.ofNat s.time.lastUse.toNat + off / 65536))
          ∧ (s.time.stopped = true → t.time.now = s.time.now ∧ t.time.stepDue = off) ∧ t.time.st = .locked ∧ t.time.slew = 0
          ∧ t.time.stepped = true ∧ t.time.steps = satInc s.time.steps ∧ t.time.rejOffs = [])
      ∧ (s.time.st ≠ .free → off.natAbs ≤ 32 * 65536 →
          t.time.now = s.time.now ∧ t.time.st = .locked ∧ t.time.slew = off ∧ t.time.rejOffs = [] ∧ t.gst = s.gst)
      ∧ ((s.time.st = .free ∨ (s.time.st = .holdover ∧ 32 * 65536 < off.natAbs)) → s.time.prevOff.any (fun p => agree8 p off) = false →
          t.time.now = s.time.now ∧ t.time.st = s.time.st ∧ t.time.slew = s.time.slew ∧ t.gst = s.gst)
      ∧ (s.time.st = .locked → 32 * 65536 < off.natAbs → s.time.rejOffs.length < 2 →
          t.time.now = s.time.now ∧ t.time.st = .locked ∧ t.time.rejOffs = s.time.rejOffs ++ [off] ∧ t.time.reject = satInc s.time.reject))

/-- R341, R342, R340, R337, Table TA-2: the other events of time. SYNC_DUE sends SYNC and FOLLOW on every stake in service
outside the upstream bond, and makes a stake in training send them later. TIME_HOLDOVER takes a LOCKED die that is not the master to
HOLDOVER. REFCLK_LOST stops the counter, with LOST, REF_LOST and ATTN bit 7; REFCLK_RESTORED lets it run. GC_PERIOD changes before an image
alone, and within its range. -/
def Obligations.TimeEventsAct : Prop :=
  ∀ s : State, s.canon → s.alive = true →
    (s.sendsTime = true → s.time.stopped = false → s.reached (s.time.syncAt + 8192#64) = true →
      ∃ t, exec .syncDue s = .next t ∧ t.time.syncAt = s.nowInt ∧ t.time.now = s.time.now
        ∧ ∀ n < 16, (s.upBond.contains n = false → (s.stake n).st = .inService →
              (s.stake n).txq <+: (t.stake n).txq ∧ (t.stake n).txq.length = (s.stake n).txq.length + 2)
            ∧ (s.upBond.contains n = false → (s.stake n).st = .training → t.stake n = { s.stake n with syncDue := true })
            ∧ (s.upBond.contains n = true → t.stake n = s.stake n))
    ∧ ((s.sendsTime = false ∨ s.time.stopped = true ∨ s.reached (s.time.syncAt + 8192#64) = false) → exec .syncDue s = .next s)
    ∧ (s.time.st = .locked → s.isMaster = false → s.wl.dieId ≠ s.time.tmDie → s.reached (s.time.lastUse + 32768#64) = true →
        ∃ t, exec .timeHoldover s = .next t ∧ t = { s with gst := t.gst, time := { s.time with st := .holdover, rejOffs := [] } }
          ∧ (s.gst.unread < 64 → mget LogEntry.zero t.gst.log (s.gst.logWr.toNat % 64) =
              { LogEntry.zero with
                v := true, code := 0x1F, cls := 5, src := 12, arg1 := BitVec.ofNat 32 s.time.hops.toNat, time := s.nowInt }))
    ∧ ((s.time.st ≠ .locked ∨ s.isMaster = true ∨ s.wl.dieId = s.time.tmDie ∨ s.reached (s.time.lastUse + 32768#64) = false) → exec .timeHoldover s = .next s)
    ∧ (s.time.stopped = false → ∃ t, exec .refclkLost s = .next t
        ∧ t = { s with gst := t.gst, time := { s.time with stopped := true, lost := true }, tilth := { s.tilth with refLost := true } }
        ∧ t.gst.attn.getLsbD 7 = true)
    ∧ exec .refclkRestored s = .next { s with time := { s.time with stopped := false } }
    ∧ (∀ v, exec (.gcPeriodWrite v) s = .next
        (if (s.img.st = .empty ∨ s.img.st = .refused) ∧ 0x40000 ≤ v.toNat ∧ v.toNat ≤ 0x280000 then
          { s with time := { s.time with gcPer := v } } else s))

/-! ### Tilth and power -/

/-- R244, R248, R249, R251, R252, R246, R269: a sample of a live monitor is taken in steps of 4 ps; one below 16 ps counts TIL_HARD and
raises its tap set by 4 taps; below 0 by 8 taps, with TIL_NEG, a log entry and ATTN bit 5; the change waits for TAP_CHANGE_APPLY. A sample
of 16 ps or more changes no tap. TIL_FORCE acts in debug mode alone, and τ rises with the taps that it raises. CALIBRATION restarts its own
2^20 ns. -/
def Obligations.SamplesRaiseTaps : Prop :=
  ∀ (s : State) (i : Fin 1040) (b : Bool), s.canon → s.alive = true →
    (∀ slack tmax, s.monLive i.val = true → s.isForced i.val b = false → ((s.mon i.val).set b).cur < 63 →
      ∃ t, exec (.monitorSample i b slack tmax) s = .next t
        ∧ ((t.mon i.val).set b).cnt = ((s.mon i.val).set b).cnt + 1
        ∧ ((t.mon i.val).set b).tmax = max ((s.mon i.val).set b).tmax (4 * cdiv tmax 4)
        ∧ ((t.mon i.val).set b).smin = smaller ((s.mon i.val).set b).smin (4 * (slack / 4))
        ∧ ((t.mon i.val).set b).tap = ((s.mon i.val).set b).tap
        ∧ (slack < 0 → ((t.mon i.val).set b).pend = some (min 63 (((s.mon i.val).set b).cur + 8)) ∧ t.gst.attn.getLsbD 5 = true
            ∧ t.tilth.neg = satInc s.tilth.neg ∧ t.tilth.hard = satInc s.tilth.hard)
        ∧ (0 ≤ slack → slack < 16 → ((t.mon i.val).set b).pend = some (min 63 (((s.mon i.val).set b).cur + 4)) ∧ t.gst = s.gst
            ∧ t.tilth.hard = satInc s.tilth.hard)
        ∧ (16 ≤ slack → ((t.mon i.val).set b).pend = ((s.mon i.val).set b).pend ∧ t.tilth.tau = s.tilth.tau ∧ t.gst = s.gst))
    ∧ (∀ slack tmax, s.monLive i.val = false → exec (.monitorSample i b slack tmax) s = .next s)
    ∧ (∀ v, ((s.mon i.val).set b).pend = some v → ∃ t, exec (.tapChangeApply i b) s = .next t
        ∧ ((t.mon i.val).set b).tap = v ∧ ((t.mon i.val).set b).pend = none ∧ t.tilth.tau = s.tilth.tau
        ∧ (v ≠ ((s.mon i.val).set b).tap → t.tilth.dirty = true))
    ∧ (((s.mon i.val).set b).pend = none → exec (.tapChangeApply i b) s = .next s)
    ∧ (∀ v : Word, (s.debug = false → exec (.tilForce v) s = .next s)
        ∧ (s.debug = true → s.tilth.monSel.toNat = i.val → b = v.getLsbD 1 → v.getLsbD 0 = true →
          ∃ t, exec (.tilForce v) s = .next t ∧ t.tilth.forced = some (i.val, b)
            ∧ ((t.mon i.val).set b).pend = some ((v.toNat / 4) % 64)
            ∧ t.tilth.tau = (if ((s.mon i.val).set b).cur < v.toNat / 4 % 64 then
                tauClamp (s.tilth.tau + 8 * (v.toNat / 4 % 64 - ((s.mon i.val).set b).cur)) else s.tilth.tau)))
    ∧ (s.time.stopped = false → s.reached (s.tilth.calib + 0x100000#64) = true →
        exec .calibration s = .next { s with tilth := { s.tilth with calib := s.nowInt } })

/-- R245, R247, R250, R252: the end of a monitor's window. Its figures are kept and a new window begins; where the spec gives no SMIN the
figure is a free value. A minimum below 40 ps raises the tap set toward 64 ps; the sixteenth qualifying window above 120 ps lowers it by
one tap. A window that does not qualify breaks the run of windows that may lower τ. τ is never below the largest handshake time of the window. -/
def Obligations.WindowEndTempers : Prop :=
  ∀ (s : State) (i : Fin 1040) (b : Bool), s.canon → s.alive = true →
    (s.windowOver i.val = false → exec (.tilthWindowEnd i) s = .next s)
    ∧ (s.windowOver i.val = true → ∃ t, exec (.tilthWindowEnd i) s = .next t
      ∧ (t.mon i.val).start = s.nowInt ∧ ((t.mon i.val).set b).smin = none ∧ ((t.mon i.val).set b).tmax = 0 ∧ ((t.mon i.val).set b).cnt = 0
      ∧ ((t.mon i.val).set b).tap = ((s.mon i.val).set b).tap
      ∧ (t.mon i.val).lastTmax = min 4095 (max (s.mon i.val).a.tmax (s.mon i.val).b.tmax)
      ∧ (t.mon i.val).lastTmax ≤ t.tilth.tau
      ∧ ((s.mon i.val).a.cnt < 256 → (s.mon i.val).b.cnt < 256 → (t.mon i.val).low = 0)
      ∧ (∀ v, (s.mon i.val).sminShown = some v → (t.mon i.val).lastSmin = v ∧ t.free = s.free)
      ∧ ((s.mon i.val).sminShown = none → (t.mon i.val).lastSmin = (Config.freeValue s.free).toNat % 256 ∧ t.free = s.free + 1)
      ∧ (∀ m, ((s.mon i.val).set b).smin = some m → m < 40 → s.isForced i.val b = false → ((s.mon i.val).set b).cur < 63 →
          ((s.mon i.val).set b).run < 16 →
          ((t.mon i.val).set b).pend = some (min 63 (((s.mon i.val).set b).cur + cdiv (64 - m).toNat 8)))
      ∧ (∀ m, ((s.mon i.val).set b).smin = some m → 120 < m → 256 ≤ ((s.mon i.val).set b).cnt → s.isForced i.val b = false →
          ((s.mon i.val).set b).cur ≠ 0 →
          (((s.mon i.val).set b).run = 15 → ((t.mon i.val).set b).pend = some (((s.mon i.val).set b).cur - 1) ∧ ((t.mon i.val).set b).run = 0)
          ∧ (((s.mon i.val).set b).run < 15 → ((t.mon i.val).set b).pend = ((s.mon i.val).set b).pend
              ∧ ((t.mon i.val).set b).run = ((s.mon i.val).set b).run + 1)))

/-- R255, R256, R257: SNAP asks for a record; SNAPSHOT_COPY, after a window has ended, writes a record into the window that passes every check
of a load on this die. HISTORY_LOAD of a valid record before an image takes each tap plus 8 and τ plus 64 within their ranges (R269: a set that
TIL_FORCE holds stays), and of an invalid one
changes no tap and shows REJECTED with the reason; once an image is loaded it only shows that it was ignored. -/
def Obligations.HistoryRecordRoundTrip : Prop :=
  (∀ (s : State) (v : Word), s.alive = true → v.getLsbD 0 = true → v.getLsbD 1 = false →
    exec (.snap v) s = .next { s with tilth := { s.tilth with snapReq := true } })
  ∧ (∀ s : State, s.canon → s.alive = true →
    (s.tilth.snapReq = true → s.tilth.snapRdy = true → ∃ t, exec .snapshotCopy s = .next t
      ∧ t.histReason = 0 ∧ t.tilth.dirty = false ∧ t.tilth.saves = s.tilth.saves + 1 ∧ t.histWord 3 = BitVec.ofNat 32 s.tilth.tau
      ∧ t = { s with tilth := { s.tilth with
          hist := t.tilth.hist, dirty := false, snapReq := false, snapRdy := false, saves := s.tilth.saves + 1 } })
    ∧ ((s.tilth.snapReq = false ∨ s.tilth.snapRdy = false) → exec .snapshotCopy s = .next s))
  ∧ (∀ (s : State) (v : Word), s.canon → s.alive = true → v.getLsbD 0 = false → v.getLsbD 1 = true →
    ((s.img.st ≠ .empty ∧ s.img.st ≠ .refused) →
      exec (.historyLoad v) s = .next { s with tilth := { s.tilth with hstate := 3, hreason := 0 } })
    ∧ ((s.img.st = .empty ∨ s.img.st = .refused) → s.histReason ≠ 0 → ∃ t, exec (.historyLoad v) s = .next t
        ∧ t = { s with gst := t.gst, tilth := { s.tilth with hstate := 2, hreason := BitVec.ofNat 3 s.histReason } })
    ∧ ((s.img.st = .empty ∨ s.img.st = .refused) → s.histReason = 0 → ∃ t, exec (.historyLoad v) s = .next t
        ∧ t.tilth.hstate = 1 ∧ t.tilth.tau = tauClamp (wf_ (s.histWord 3) 11 0 + 64) ∧ t.tilth.saves = s.histWord 5
        ∧ (∀ i < 1037, i ≠ 1023 → ∀ b,
            (s.isForced i b = true → (t.mon i).set b = (s.mon i).set b)
            ∧ (s.isForced i b = false → ((t.mon i).set b).tap
                = min 63 (wf_ (s.histWord (8 + i / 2)) (16 * (i % 2) + (if b then 11 else 5)) (16 * (i % 2) + (if b then 6 else 0)) + 8)
              ∧ ((t.mon i).set b).pend = none))))

/-- R259, R261, R262, R264, R265, R267: the governor. Once 32 ns have passed, I_EST comes from the interval's handshakes: it rises by no more
than one slew step, and ballast holds it up to one slew step below the last one; the slew step of an interval is the one that stood when it
began. The pace of the next interval comes from I_EST plus one slew step and from the smallest THROTTLE of the interval. Before that the
command changes nothing. A THROTTLE below THR_FLOOR is logged once for each period. SLEW takes values in 1 to 64 alone, and lowering it while
collectives are open is a violation. -/
def Obligations.GovernorPacesLoad : Prop :=
  ∀ s : State, s.alive = true →
    (∀ counts demand, s.time.stopped = false → s.reached (s.pwr.start + 32#64) = false →
      exec (.governorInterval counts demand) s = .next s)
    ∧ (∀ counts demand sum, s.time.stopped = true ∨ s.reached (s.pwr.start + 32#64) = true →
      sum = min (iEstOf counts) (s.pwr.iEst + 16 * s.pwr.slewNow.toNat) →
      ∃ t, exec (.governorInterval counts demand) s = .next t
      ∧ t.pwr.iEst = (if s.pwr.ballEn then max sum (s.pwr.iEst - 16 * s.pwr.slewNow.toNat) else sum)
      ∧ t.pwr.iEst ≤ s.pwr.iEst + 16 * s.pwr.slewNow.toNat
      ∧ t.pwr.ballast = (s.pwr.ballEn && decide (sum < s.pwr.iEst - 16 * s.pwr.slewNow.toNat))
      ∧ t.pwr.pace = BitVec.ofNat 9 (min (16 * (s.pwr.thrMin.toNat + 1)) (256 * (t.pwr.iEst + 16 * s.pwr.slew.toNat) * s.tilth.tau / 25600000))
      ∧ t.pwr.paced = (if s.pwr.pace.toNat < demand then satInc s.pwr.paced else s.pwr.paced)
      ∧ t.pwr.thr = s.pwr.thr ∧ t.pwr.thrMin = s.pwr.thr ∧ t.pwr.slew = s.pwr.slew ∧ t.pwr.slewNow = s.pwr.slew
      ∧ t.pwr.start = s.nowInt)
    ∧ (∀ v : BitVec 4, ∃ t, exec (.throttleChange v) s = .next t ∧ t.pwr.thr = v
      ∧ t.pwr.thrMin.toNat = min v.toNat s.pwr.thrMin.toNat
      ∧ (v.toNat < s.img.cfg.thrFloor → t.pwr.below = true ∧ t.pwr.belowRun = true ∧ (s.pwr.belowRun = true → t.gst = s.gst))
      ∧ (s.img.cfg.thrFloor ≤ v.toNat → t.pwr.below = s.pwr.below ∧ t.pwr.belowRun = false ∧ t.gst = s.gst))
    ∧ (∀ v : Word, ∃ t, exec (.pwrCfgWrite v) s = .next t
      ∧ t.pwr.slew = (if 1 ≤ v.toNat % 128 ∧ v.toNat % 128 ≤ 64 then BitVec.ofNat 7 (v.toNat % 128) else s.pwr.slew)
      ∧ t.pwr.slewNow = s.pwr.slewNow
      ∧ t.pwr.ballEn = (if s.feat 9 = true ∧ s.cfgShown = true then v.getLsbD 7 else s.pwr.ballEn)
      ∧ (s.openEntries = 0 → t.pwr.viol = s.pwr.viol ∧ t.gst = s.gst)
      ∧ (0 < s.openEntries → 1 ≤ v.toNat % 128 → v.toNat % 128 < s.pwr.slew.toNat → v.toNat % 128 ≤ 64 → t.pwr.viol = true))

/-! ### Feeder and update port -/

/-- R296, R318, R319: a write of FD_CTRL, through each of its three rows. EN in service starts a channel that is not running from FD_HEAD:
WAIT_TRIG, no error, a fetch of the descriptor there. DISABLE takes the channel to DISABLED with nothing bound, and FD_BEATS and FD_CRC
are free values. Each write stores PRI. -/
def Obligations.ChannelControl : Prop :=
  ∀ (s : State) (c : Fin 64) (v : Word) (i : Instr) (x : Chan), s.canon → s.alive = true → x = s.chan c.val →
    (i = .fdEn c v ∨ i = .fdDisable c v ∨ i = .fdPriWrite c v) →
    ∃ u : State, exec i s = .next u.settle
      ∧ (u.chan c.val).pri = BitVec.ofNat 2 (v.toNat / 4 % 4)
      ∧ (v.getLsbD 1 = false → v.getLsbD 0 = true → s.inService = true →
          (x.st = .disabled ∨ x.st = .halted ∨ x.st = .idle ∨ x.st = .waitTrig) →
          u.chan c.val = { x with
            pri := BitVec.ofNat 2 (v.toNat / 4 % 4), st := .waitTrig, err := 0, late := false, crc := 0xFFFFFFFF, cur := x.head
            desc := [], nextD := none, fetchA := some x.head, beats := 0, issued := 0, moved := 0, staged := [], unacked := 0
            endPh := .none, endFor := .desc, lastWr := none })
      ∧ (v.getLsbD 1 = false → v.getLsbD 0 = true → (s.inService = false ∨ x.st = .active ∨ x.st = .paused) →
          u.chan c.val = { x with pri := BitVec.ofNat 2 (v.toNat / 4 % 4) })
      ∧ (v.getLsbD 1 = true → v.getLsbD 0 = false →
          (u.chan c.val).st = .disabled ∧ (u.chan c.val).binds = [] ∧ (u.chan c.val).fetchA = none ∧ (u.chan c.val).head = x.head
          ∧ (u.chan c.val).beats = (Config.freeValue s.free).setWidth 32
          ∧ (u.chan c.val).crc = (Config.freeValue (s.free + 1)).setWidth 32 ∧ u.free = s.free + 3)
      ∧ (v.getLsbD 1 = false → v.getLsbD 0 = false → u = s.setChan c.val { x with pri := BitVec.ofNat 2 (v.toNat / 4 % 4) })

/-- R297, R298, R370: one request slot goes to the image loader before a descriptor fetch, on the port whose turn it is, with a tag of its own; the
rotation goes on behind that port. With no port ready nothing is sent. R371, R302: a response that matches a request takes it off the
list; read data is kept by beat; a read that fails halts its channel with MEMERR; a response that matches none is logged with ATTN bit 1. -/
def Obligations.MemoryRequestsAndResponses : Prop :=
  (∀ (s : State) (rdy : BitVec 4), s.canon → s.alive = true →
    (s.nextMem rdy = none → exec (.feederBeatRequest rdy) s = .next s.settle)
    ∧ (∀ p k, s.nextMem rdy = some p → s.loaderBeat = some k →
      exec (.feederBeatRequest rdy) s = .next (State.settle { s with
        fdw := { s.fdw with
          reqs := s.fdw.reqs ++ [⟨p, s.freeTag p, false, s.img.addr + BitVec.ofNat 44 (64 * s.img.next), k, [], 0⟩], rrPort := (p + 1) % 4 }
        img := { s.img with next := s.img.next + 1 } }))
    ∧ (∀ p c a, s.nextMem rdy = some p → s.loaderBeat = none → s.suspBeat = none → s.fetchDue = some (c, a) →
      ∃ u : State, exec (.feederBeatRequest rdy) s = .next u.settle
        ∧ u.fdw = { s.fdw with reqs := s.fdw.reqs ++ [⟨p, s.freeTag p, false, a, .desc c (decide ((s.chan c).desc ≠ [])), [], 0⟩]
                               rrPort := (p + 1) % 4 }
        ∧ u.chan c = { s.chan c with fetchA := none } ∧ u = { s with fdw := u.fdw, chans := u.chans }))
  ∧ (∀ (s : State) (m : Fin 4) (tag : BitVec 8) (wr err : Bool) (data : List Byte), s.canon → s.alive = true →
    ∃ u : State, exec (.memoryResponse m tag wr err data) s = .next u.settle
      ∧ (∀ r c b, s.fdw.reqs.find? (fun r => decide (r.port = m.val) && decide (r.tag = tag.toNat)) = some r → r.wr = wr → r.kind = .feed c b →
        (err = false → u.chan c = { s.chan c with staged := mput [] (s.chan c).staged b (padTo 64 data) }
          ∧ u = { s with chans := u.chans, fdw := { s.fdw with reqs := s.fdw.reqs.erase r } })
        ∧ (err = true → (u.chan c).st = .halted ∧ (u.chan c).err = 5 ∧ (u.chan c).errAddr = r.addr ∧ (u.chan c).binds = []
          ∧ u.gst.attn.getLsbD 3 = true))
      ∧ ((∀ r, s.fdw.reqs.find? (fun r => decide (r.port = m.val) && decide (r.tag = tag.toNat)) = some r → r.wr ≠ wr) →
        u.gst.attn.getLsbD 1 = true
        ∧ (s.gst.unread < 64 → mget LogEntry.zero u.gst.log (s.gst.logWr.toNat % 64) =
            { LogEntry.zero with
              v := true, code := 0x12, cls := 3, src := 6, unit := BitVec.ofNat 16 m.val, arg0 := BitVec.ofNat 32 tag.toNat
              arg1 := BitVec.ofNat 32 (if wr then 1 else 0), time := s.nowInt })))

/-- R310, R311, R316, R331: triggers, event lines and the update port. COUNTER_TRIGGER starts a waiting descriptor once the counter has reached TCMP.
An edge on EVT_IN starts the lowest waiting channel or is counted as pending; one that comes too soon, or above 255, is counted as OVERRUN.
The end of a pulse starts the next one in line. FD_EVT_CLR clears a line. The companion takes the update beat that is offered; the last beat of
a record counts it. -/
def Obligations.EventsAndUpdateBeats : Prop :=
  ∀ s : State, s.canon → s.alive = true →
    (∀ c : Fin 64, (dTkind (s.chan c.val).desc ≠ 2 → exec (.counterTrigger c) s = .next s)
      ∧ (dTkind (s.chan c.val).desc = 2 → s.reached (dTcmp (s.chan c.val).desc) = false → exec (.counterTrigger c) s = .next s.settle)
      ∧ (dTkind (s.chan c.val).desc = 2 → s.reached (dTcmp (s.chan c.val).desc) = true → (s.chan c.val).st = .waitTrig →
          (s.chan c.val).desc ≠ [] → (s.chan c.val).binds = [] →
          ∃ u : State, exec (.counterTrigger c) s = .next u.settle ∧ (u.chan c.val).st = .active ∧ (u.chan c.val).beats = 0
            ∧ (u.chan c.val).desc = (s.chan c.val).desc ∧ (∀ i, i ≠ c.val → u.chan i = s.chan i) ∧ u = { s with chans := u.chans }))
    ∧ (∀ (l : Fin 16) (close : Bool),
        (close = true ∨ 255 ≤ (s.evtIn l.val).pend → exec (.evtIn l close) s =
          .next (s.setEvtIn l.val ⟨(s.evtIn l.val).pend, min ((s.evtIn l.val).overrun + 1) 0xFFFF⟩))
        ∧ (close = false → (s.evtIn l.val).pend < 255 → s.evtWaiter l.val = none → exec (.evtIn l close) s =
          .next (State.settle (s.setEvtIn l.val ⟨(s.evtIn l.val).pend + 1, (s.evtIn l.val).overrun⟩)))
        ∧ (∀ c, close = false → (s.evtIn l.val).pend = 0 → s.evtWaiter l.val = some c → (s.chan c).binds = [] →
          ∃ u : State, exec (.evtIn l close) s = .next u.settle ∧ (u.chan c).st = .active ∧ (u.evtIn l.val).pend = 0))
    ∧ (∀ l : Fin 17, ∃ t, exec (.evtOutPulseEnd l) s = .next t ∧ t = { s with fdw := { s.fdw with evtOut := t.fdw.evtOut } }
        ∧ (∀ c q, s.evtOut l.val = ⟨true, c :: q⟩ → t.evtOut l.val = ⟨true, q⟩)
        ∧ (((s.evtOut l.val).high = false ∨ (s.evtOut l.val).queued = []) → t.evtOut l.val = ⟨false, []⟩))
    ∧ (∀ (l : Fin 16) (v : Word), exec (.fdEvtClr l v) s = .next (if v.getLsbD 24 = true then s.setEvtIn l.val ⟨0, 0⟩ else s))
    ∧ (s.upd.fifo = [] → exec .updateBeatTaken s = .next s.settle)
    ∧ (∀ b bs, s.upd.fifo = b :: bs → ∃ u : State, exec .updateBeatTaken s = .next u.settle ∧ bs <+: u.upd.fifo
        ∧ u.upd.records = (if b.eor = true ∧ b.kind = 0 then satInc s.upd.records else s.upd.records)
        ∧ u.upd.seals = (if b.eor = true ∧ b.kind = 1 then satInc s.upd.seals else s.upd.seals)
        ∧ u.upd.aborts = (if b.eor = true ∧ b.kind ≠ 0 ∧ b.kind ≠ 1 then satInc s.upd.aborts else s.upd.aborts))

/-! ### Set-up: fuses, image, debug, registers, wrapper, reset -/

/-- R374, R393, R395, R396, Table SU-10: the write-limited settings. Each reset-time read logs its slot and goes on; after slot 7 the highest slot
that is neither blank nor in error is in effect and READY is 1. A program that is acknowledged is read back; a read-back that differs, or a timeout, ends
it with LAST failed, a log entry and ATTN bit 8. WL_PROG with GO starts a program of the lowest blank slot or shows that it was turned away. -/
def Obligations.FuseAccessesRun : Prop :=
  ∀ s : State, s.alive = true →
    (∀ (a : FuseAcc) (r : BitVec 16) (blank err : Bool), s.wl.acc = some a →
      (a.op = .scan → a.slot < 7 → exec (.fuseAck r blank err) s = .next { s with wl := { s.wl with
          log := mput WlLog.zero s.wl.log a.slot ⟨r, blank, err, false⟩, acc := some ⟨.scan, a.slot + 1, 0, false⟩ } })
      ∧ (a.op = .scan → a.slot = 7 → ∃ t, exec (.fuseAck r blank err) s = .next t ∧ t.wl.ready = true ∧ t.wl.acc = none
          ∧ t.wl.log = mput WlLog.zero s.wl.log 7 ⟨r, blank, err, false⟩
          ∧ t.wl.dieId = (t.wl.effective 0).getD 0 ∧ t.wl.dieSet = (t.wl.effective 0).isSome
          ∧ t.wl.ceil = ((t.wl.effective 1).getD 0).setWidth 3 ∧ t = { s with wl := t.wl })
      ∧ (a.op = .program → exec (.fuseAck r blank err) s = .next { s with wl := { s.wl with
          acc := some { a with op := .readback, failed := err } } })
      ∧ (a.op = .readback → ∃ t, exec (.fuseAck r blank err) s = .next t ∧ t.wl.acc = none
          ∧ (r = a.value → err = false → a.failed = false → t.wl.last = 1 ∧ t.gst = s.gst
              ∧ (a.slot < 4 → t.wl.dieId = a.value) ∧ (4 ≤ a.slot → t.wl.ceil = a.value.setWidth 3))
          ∧ ((r ≠ a.value ∨ err = true) → t.wl.last = 2 ∧ t.gst.attn.getLsbD 8 = true ∧ t.wl.dieId = s.wl.dieId ∧ t.wl.ceil = s.wl.ceil))
      ∧ (a.op = .scan → a.slot < 7 → ∃ t, exec .fuseTimeout s = .next t
          ∧ t.wl = { s.wl with log := mput WlLog.zero s.wl.log a.slot { s.wl.slot a.slot with err := true }
                               acc := some ⟨.scan, a.slot + 1, 0, false⟩ })
      ∧ (a.op ≠ .scan → ∃ t, exec .fuseTimeout s = .next t ∧ t.wl.last = 2 ∧ t.wl.acc = none ∧ t.gst.attn.getLsbD 8 = true))
    ∧ (s.wl.acc = none → (∀ r blank err, exec (.fuseAck r blank err) s = .next s) ∧ exec .fuseTimeout s = .next s)
    ∧ (∀ v : Word,
      (v.getLsbD 17 = false → exec (.wlProg v) s = .next { s with wl := { s.wl with value := v.setWidth 16, sel := v.getLsbD 16 } })
      ∧ (v.getLsbD 17 = true → ((s.img.st ≠ .empty ∧ s.img.st ≠ .refused) ∨ s.wl.acc ≠ none
            ∨ s.wl.blankSlot (if v.getLsbD 16 then 1 else 0) = none ∨ (v.getLsbD 16 = true ∧ 4 < v.toNat % 65536)) →
          exec (.wlProg v) s = .next { s with wl := { s.wl with last := 3 } })
      ∧ (∀ i, v.getLsbD 17 = true → (s.img.st = .empty ∨ s.img.st = .refused) → s.wl.acc = none →
          s.wl.blankSlot (if v.getLsbD 16 then 1 else 0) = some i → (v.getLsbD 16 = true → v.toNat % 65536 ≤ 4) →
          exec (.wlProg v) s = .next { s with wl := { s.wl with
            value := v.setWidth 16, sel := v.getLsbD 16
            acc := some ⟨.program, 4 * (if v.getLsbD 16 then 1 else 0) + i, v.setWidth 16, false⟩ } }))

/-- R392, R402, R403, R404, R407, R412: the life of a structure image. LOAD starts CHECK, after invalidating an image that stands. A check that fails
refuses the image with its REASON and ATTN bit 6, and no configuration stands; a CRC that differs in APPLY does so with REASON CHANGED.
A sign-off that matches FILE_CRC enters service with no collective; another one refuses the image. FEAT_ACCEPT is written before an image alone. -/
def Obligations.ImageLifeCycle : Prop :=
  ∀ s : State, s.alive = true →
    (∀ v : Word, (v.getLsbD 0 = false ∨ s.wl.acc.isSome = true ∨ s.img.st = .check ∨ s.img.st = .apply ∨ s.img.st = .test →
        exec (.load v) s = .next s)
      ∧ (v.getLsbD 0 = true → s.wl.acc = none → s.img.st ≠ .check → s.img.st ≠ .apply → s.img.st ≠ .test →
        ∃ t, exec (.load v) s = .next t ∧ t.img.st = .check ∧ t.img.reason = 0 ∧ t.img.next = 0 ∧ t.img.buf = [] ∧ t.dbg.armed = false
          ∧ t.accept = s.accept ∧ t.img.addr = s.img.addr ∧ t.img.len = s.img.len
          ∧ ((s.img.st = .inService ∨ s.img.st = .checked) → t.img.cfg = Cfg.none ∧ t.img.digest = 0)))
    ∧ (s.img.st ≠ .check → exec .imageCheckDone s = .next s)
    ∧ (s.img.st = .check → ∃ t, exec .imageCheckDone s = .next t
        ∧ (∀ f, s.preFault = some f → t.img.st = .refused ∧ t.img.reason = BitVec.ofNat 4 f.1 ∧ t.gst.attn.getLsbD 6 = true
            ∧ t.img.cfg = Cfg.none)
        ∧ (s.preFault = none → s.img.buf.length < s.imgBeats → t = s)
        ∧ (s.preFault = none → s.imgBeats ≤ s.img.buf.length →
            (∀ f, s.checkImage (s.img.buf.flatMap (fun x => x.2)) = some f → t.img.st = .refused ∧ t.img.reason = BitVec.ofNat 4 f.1
              ∧ t.img.errsec = BitVec.ofNat 8 f.2.1 ∧ t.img.erroff = BitVec.ofNat 23 f.2.2 ∧ t.gst.attn.getLsbD 6 = true
              ∧ t.img.cfg = Cfg.none)
            ∧ (s.checkImage (s.img.buf.flatMap (fun x => x.2)) = none → t = { s with img := { s.img with st := .apply, next := 0, buf2 := [] } })))
    ∧ (s.img.st ≠ .apply ∨ s.img.buf2.length < s.imgBeats → exec .imageApplyDone s = .next s)
    ∧ (s.img.st = .apply → s.imgBeats ≤ s.img.buf2.length → ∃ t, exec .imageApplyDone s = .next t
        ∧ (∀ f, lowest (changedFaults (s.img.buf.flatMap (fun x => x.2)) (s.img.buf2.flatMap (fun x => x.2))) = some f →
            t.img.st = .refused ∧ t.img.reason = 0xF ∧ t.gst.attn.getLsbD 6 = true ∧ t.img.cfg = Cfg.none)
        ∧ (lowest (changedFaults (s.img.buf.flatMap (fun x => x.2)) (s.img.buf2.flatMap (fun x => x.2))) = none →
            t.img.st = .checked ∧ t.img.cfg = cfgOf (sectionsOf (s.img.buf2.flatMap (fun x => x.2))).1
            ∧ t.img.fileCrc = fileCrcOf (sectionsOf (s.img.buf2.flatMap (fun x => x.2))).1 ∧ t.colls = s.colls))
    ∧ (∀ v : Word, (s.img.st ≠ .checked → exec (.signoff v) s = .next s)
      ∧ (s.img.st = .checked → ∃ t, exec (.signoff v) s = .next t
        ∧ (v ++ s.img.signLo = s.img.fileCrc → t.img.st = .inService ∧ t.img.loads = satInc s.img.loads ∧ t.colls = []
            ∧ t.img.cfg = s.img.cfg ∧ t.time.tmDie = s.img.cfg.tmDie)
        ∧ (v ++ s.img.signLo ≠ s.img.fileCrc → t.img.st = .refused ∧ t.img.reason = 0xC ∧ t.gst.attn.getLsbD 6 = true
            ∧ t.img.cfg = Cfg.none)))
    ∧ (∀ (hi : Bool) (v : Word), exec (.featAcceptWrite hi v) s = .next
        (if s.img.st = .empty ∨ s.img.st = .refused then
          { s with accept := if hi then v ++ s.accept.setWidth 32 else (s.accept >>> 32).setWidth 32 ++ v } else s))

/-- R293, R411, R424, Table HP-8: outside debug mode the forces and the injection do nothing. In debug mode, on a hoop that no WAIT is pending on,
SET_COUNT sets COUNT and SET_TARGET arms the hoop with TARGET and its complement; RELEASE ends a pending WAIT with RELEASED. Each is
logged. DBG_INJECT arms kinds 1 to 3; DBG_EN falling drops the arming. -/
def Obligations.DebugForces : Prop :=
  ∀ (s : State) (v : Word), s.canon → s.alive = true →
    (s.debug = false → exec (.setCount v) s = .next s ∧ exec (.setTarget v) s = .next s ∧ exec (.debugRelease v) s = .next s
        ∧ exec (.dbgInject v) s = .next s)
    ∧ (s.debug = true → v.toNat % 65536 ≤ 49151 → s.waitsOn (v.toNat % 65536) = false →
      (v.toNat / 65536 % 4 = 1 → ∃ u : State, exec (.setCount v) s = .next u.settle
        ∧ u.hoop (v.toNat % 65536) = { s.hoop (v.toNat % 65536) with count := s.dbg.forceVal }
        ∧ (s.gst.unread < 64 → mget LogEntry.zero u.gst.log (s.gst.logWr.toNat % 64) =
            { LogEntry.zero with
              v := true, code := 0x16, src := 2, unit := BitVec.ofNat 16 (v.toNat % 65536), arg0 := 1
              arg1 := BitVec.ofNat 32 s.dbg.forceVal.toNat, time := s.nowInt }))
      ∧ (v.toNat / 65536 % 4 = 2 → s.dbg.forceVal ≠ 0 → ∃ u : State, exec (.setTarget v) s = .next u.settle
        ∧ (u.hoop (v.toNat % 65536)).target = s.dbg.forceVal ∧ (u.hoop (v.toNat % 65536)).ok = true
        ∧ (u.hoop (v.toNat % 65536)).mode = v.getLsbD 18 ∧ (u.hoop (v.toNat % 65536)).st = .armed
        ∧ (u.hoop (v.toNat % 65536)).count = (s.hoop (v.toNat % 65536)).count
        ∧ ((s.hoop (v.toNat % 65536)).lost = 0 → u.hoop (v.toNat % 65536) = { s.hoop (v.toNat % 65536) with
            target := s.dbg.forceVal, targetN := ~~~s.dbg.forceVal, mode := v.getLsbD 18, st := .armed }))
      ∧ (v.toNat / 65536 % 4 = 2 → s.dbg.forceVal = 0 → ∃ u : State, exec (.setTarget v) s = .next u.settle
        ∧ u.hoops = s.hoops ∧ u.gst = s.gst))
    ∧ (∀ w, s.debug = true → v.toNat % 65536 ≤ 49151 → v.toNat / 65536 % 4 = 3 → (s.port (v.toNat % 65536 / 48)).wait = some w →
        w.hoop = v.toNat % 65536 % 48 → ∃ u : State, exec (.debugRelease v) s = .next u.settle
          ∧ u.hoop (v.toNat % 65536) = { s.hoop (v.toNat % 65536) with waiting := false }
          ∧ (u.port (v.toNat % 65536 / 48)).wait = none
          ∧ (u.port (v.toNat % 65536 / 48)).stq = (s.port (v.toNat % 65536 / 48)).stq ++
              [⟨9, 0, hoopArg (v.toNat % 65536 / 48) w.hoop, false, (s.port (v.toNat % 65536 / 48)).gate⟩])
    ∧ (s.debug = true → ∃ t, exec (.dbgInject v) s = .next t ∧ t = { s with dbg := t.dbg } ∧ t.dbg.pin = s.dbg.pin
        ∧ t.dbg.injKind = BitVec.ofNat 4 (v.toNat % 16) ∧ t.dbg.injUnit = BitVec.ofNat 10 (v.toNat / 16 % 1024)
        ∧ t.dbg.armed = (s.dbg.armed || (v.getLsbD 14 && decide (1 ≤ v.toNat % 16) && decide (v.toNat % 16 ≤ 3))))
    ∧ (∀ level, exec (.dbgEnChange level) s = .next { s with dbg := { s.dbg with pin := level, armed := s.dbg.armed && level } })

/-- R283, R292, R411, R414, R416, R417: accesses of the control port. GST_LOG_RD moves forward within the unread entries alone. A write of GST_ATTN
clears the bits written as 1, and bit 0 of GST_STATUS reads 1 exactly while a cause that is enabled is set. A read of the low word of the counter latches the high word, and a read of the high word gives what was latched. A
read of a hoop whose TARGET passes its check changes nothing; one whose TARGET fails it takes the hoop to FAULT with ATTN bit 2. -/
def Obligations.RegisterAccesses : Prop :=
  ∀ s : State, s.canon → s.alive = true →
    (∀ v : Word, exec (.gstLogRdWrite v) s = .next (if (v.setWidth 7 - s.gst.logRd).toNat ≤ s.gst.unread then
        { s with gst := { s.gst with logRd := v.setWidth 7 } } else s))
    ∧ (∀ v : Word, exec (.registerWrite 0x801 v) s = .next { s with
        gst := { s.gst with attn := s.gst.attn &&& ~~~(v.setWidth 11) }, ct := { s.ct with rdata := 0, err := false } })
    ∧ (∃ u : State, exec (.latchedGroupRead 0x800) s = .next u.settle ∧ u = { s with ct := u.ct }
        ∧ u.ct.rdata.getLsbD 0 = decide (s.gst.attn &&& s.gst.attnEn ≠ 0))
    ∧ (∃ u : State, exec (.latchedGroupRead 0x1000) s = .next u.settle ∧ u.ct.rdata = s.nowInt.setWidth 32 ∧ u.ct.err = false
        ∧ mget none u.ct.latch 0x1001 = some ((s.nowInt >>> 32).setWidth 32) ∧ u = { s with ct := u.ct })
    ∧ (∀ w, mget none s.ct.latch 0x1001 = some w → exec (.latchedGroupRead 0x1001) s = .next (State.settle { s with
        ct := { s.ct with rdata := w, err := false } }))
    ∧ (∀ (i : Fin 49152) (hi : Bool),
        ((s.hoop i.val).st = .fault ∨ (s.hoop i.val).ok = true → exec (.hoopEntryRead i hi .clean) s = .next (State.settle { s with
          ct := { s.ct with rdata := s.hoopWord i.val hi, err := false } }))
        ∧ ((s.hoop i.val).st ≠ .fault → (s.hoop i.val).ok = false → ∃ u : State, exec (.hoopEntryRead i hi .clean) s = .next u.settle
          ∧ (u.hoop i.val).st = .fault ∧ (u.hoop i.val).count = (s.hoop i.val).count ∧ u.gst.attn.getLsbD 2 = true ∧ u.ct.err = false))

/-- R386, R387, R388, Table PI-13: the wrapper. WS_BYPASS and SZ_IDCODE take the code and their data register, the bypass bit of every tile
and VERSION, and touch nothing of the block. WS_EXTEST, WS_INTEST, SZ_MBIST and SZ_DLYSWEEP put the block in test state: no image is in
service, every core port is NOT_READY, and after an image that stood every stake idles or only sends out what it holds. Under WS_EXTEST the
cells drive the outputs, under WS_INTEST the inputs; SZ_MBIST reports run, done and fail of each of the 160 tiles and SZ_DLYSWEEP the lowest passing tap of
each. Their levels and results are free values (log entry 4). SZ_CTRL makes one access, the write or the read of the control port, and its next capture holds CT_ERR, the address
and the read data; while the last one is not complete it makes none. -/
def Obligations.WrapperInstructions : Prop :=
  ∀ s : State, s.canon → s.alive = true →
    exec .wsBypass s = .next { s with wrap := { s.wrap with ir := 0, bypass := Config.bypassBits s.free }, free := s.free + 1 }
    ∧ exec .szIdcode s = .next { s with wrap := { s.wrap with ir := 5, idcode := Config.version } }
    ∧ (∀ c : Instr, c = .wsExtest ∨ c = .wsIntest ∨ c = .szMbist ∨ c = .szDlysweep →
        ∃ t, exec c s = .next t ∧ t.img.st = .test ∧ t.inService = false ∧ (∀ cp, t.notReady cp = true)
          ∧ t.tilth = s.tilth ∧ t.time = s.time ∧ t.wl = s.wl ∧ t.accept = s.accept
          ∧ (s.img.st = .inService ∨ s.img.st = .checked → ∀ n, (t.stake n).st = .idle ∨ (t.stake n).closing = true)
          ∧ (c = .wsExtest → t.wrap.ir = 1 ∧ ∃ n, ∀ i own pin, t.outCell i own = Config.boundaryCell n i ∧ t.inCell i pin = pin)
          ∧ (c = .wsIntest → t.wrap.ir = 2 ∧ ∃ n, ∀ i own pin, t.inCell i pin = Config.boundaryCell n i ∧ t.outCell i own = own)
          ∧ (c = .szMbist → t.wrap.ir = 3 ∧ t.wrap.sweep = s.wrap.sweep
              ∧ ∃ n, ∀ i < 160, mget Bist.zero t.wrap.bist i = bistOf (Config.mbistResult n i))
          ∧ (c = .szDlysweep → t.wrap.ir = 4 ∧ t.wrap.bist = s.wrap.bist
              ∧ ∃ n, ∀ i < 160, mget Sweep.zero t.wrap.sweep i = sweepOf (Config.sweepResult n i)))
    ∧ (∀ r : BitVec 51, exec (.szCtrl r true) s = .next { s with wrap := { s.wrap with ir := 6, szctrl := 1 } })
    ∧ (∀ r : BitVec 51, ∃ u : State,
        exec (if r.getLsbD 0 then .registerWrite (BitVec.ofNat 18 (r.toNat / 2)) (BitVec.ofNat 32 (r.toNat / 2 ^ 19))
              else .latchedGroupRead (BitVec.ofNat 18 (r.toNat / 2))) { s with wrap := { s.wrap with ir := 6 } } = .next u
        ∧ exec (.szCtrl r false) s = .next { u with wrap := { u.wrap with
            szctrl := BitVec.ofNat 51 ((if u.ct.err then 1 else 0) + r.toNat / 2 % 2 ^ 18 * 2 + u.ct.rdata.toNat * 2 ^ 19) } }
        ∧ u.wrap = { s.wrap with ir := 6 })

/-- R390, R391, R410, Table SU-1: reset and supply. RST_N at 0 gives every register its reset value and keeps the levels of the input pins; its release
begins the reads of the write-limited slots with slot 0. Without the supply everything is lost. -/
def Obligations.ResetAndSupply : Prop :=
  ∀ s : State, s.canon →
    (∃ t, exec .resetAssert s = .next t ∧ t.inReset = true ∧ t.gst = State.reset.gst ∧ t.img = State.reset.img ∧ t.accept = 0 ∧ t.colls = []
      ∧ t.wl = State.reset.wl ∧ t.time = State.reset.time ∧ t.adm = State.reset.adm ∧ t.tilth = State.reset.tilth ∧ t.fdw = State.reset.fdw
      ∧ t.col = State.reset.col ∧ t.exc = State.reset.exc ∧ t.upd = State.reset.upd ∧ t.vc0 = [] ∧ t.dbg = { State.reset.dbg with pin := s.dbg.pin }
      ∧ t.pwr = { State.reset.pwr with thr := s.pwr.thr, thrMin := s.pwr.thr }
      ∧ (∀ i, t.port i = Port.zero ∧ t.chan i = Chan.zero ∧ t.hoop i = Hoop.zero)
      ∧ (∀ n, t.stake n = { Stake.zero with rdy := (s.stake n).rdy, flt := (s.stake n).flt }))
    ∧ (s.powered = true → s.inReset = true → exec .resetRelease s = .next { s with
        inReset := false, wl := { s.wl with acc := some ⟨.scan, 0, 0, false⟩ } })
    ∧ (s.powered = false ∨ s.inReset = false → exec .resetRelease s = .next s)
    ∧ exec .vddSzRemoval s = .next { State.reset with pending := s.pending, free := s.free, powered := false }

/-- R1, R2: VERSION (address 0) reads 0x0002_0100 in every state of the block: major release 2, minor release 1, correction
level 0. A write to it changes no register. -/
def Obligations.VersionReadsRelease : Prop :=
  ∀ s : State, s.alive = true →
    (∃ u : State, exec (.latchedGroupRead 0#18) s = .next u.settle ∧ u.ct.rdata = 0x00020100#32 ∧ u.ct.err = false
      ∧ fld u.ct.rdata.toNat 31 16 = 2 ∧ fld u.ct.rdata.toNat 15 8 = 1 ∧ fld u.ct.rdata.toNat 7 0 = 0 ∧ u = { s with ct := u.ct })
    ∧ (∀ v, exec (.registerWrite 0#18 v) s = .next { s with ct := { s.ct with rdata := 0, err := false } })

/-- R392: a write to GC_PERIOD, FEAT_ACCEPT_LO or FEAT_ACCEPT_HI is ignored unless STATE reads EMPTY or REFUSED, whether it comes as
its own command or through the control port. In those two states FEAT_ACCEPT takes the value written, and GC_PERIOD takes it
within its range. An ageing-history LOAD is ignored once STATE has left them, and STATE of TIL_HIST_CTRL then reads LATE (3). -/
def Obligations.SettingsIgnoredOnceLoaded : Prop :=
  ∀ (s : State) (v : Word), s.alive = true →
    (s.img.st ≠ .empty → s.img.st ≠ .refused →
      exec (.gcPeriodWrite v) s = .next s
      ∧ (∀ hi, exec (.featAcceptWrite hi v) s = .next s)
      ∧ (∀ a : BitVec 18, a = 4 ∨ a = 5 ∨ a = 0x1002 →
          exec (.registerWrite a v) s = .next { s with ct := { s.ct with rdata := 0, err := false } })
      ∧ (v.getLsbD 0 = false → v.getLsbD 1 = true →
          exec (.historyLoad v) s = .next { s with tilth := { s.tilth with hstate := 3, hreason := 0 } }))
    ∧ ((s.img.st = .empty ∨ s.img.st = .refused) →
      exec (.featAcceptWrite false v) s = .next { s with accept := (s.accept >>> 32).setWidth 32 ++ v }
      ∧ exec (.featAcceptWrite true v) s = .next { s with accept := v ++ s.accept.setWidth 32 }
      ∧ (0x40000 ≤ v.toNat → v.toNat ≤ 0x280000 → exec (.gcPeriodWrite v) s = .next { s with time := { s.time with gcPer := v } })
      ∧ (v.toNat < 0x40000 ∨ 0x280000 < v.toNat → exec (.gcPeriodWrite v) s = .next s))
end

