-- ==== Sys2Proof/Laws/Only.lean ====
section
/-! SUPPORT. `Only w s t`: how it composes, and the changes of one component. -/

namespace Sys2Proof.Machine

/-- Every component of `a` is one of `b`. -/
def Fld.sub (a b : List Fld) : Bool := a.all (fun f => b.contains f)

theorem Fld.sub_mem {a b : List Fld} (h : Fld.sub a b = true) {f : Fld} (hf : f ∉ b) : f ∉ a := fun ha => by
  unfold Fld.sub at h
  rw [List.all_eq_true] at h
  exact hf (List.contains_iff_mem.mp (h f ha))

theorem Fld.sub_trans {a b c : List Fld} (h : Fld.sub a b = true) (k : Fld.sub b c = true) : Fld.sub a c = true := by
  unfold Fld.sub at *
  rw [List.all_eq_true] at *
  exact fun f hf => k f (List.contains_iff_mem.mp (h f hf))

theorem Fld.sub_contains {a b : List Fld} (h : Fld.sub a b = true) {f : Fld} (hf : a.contains f = true) : b.contains f = true := by
  unfold Fld.sub at h
  rw [List.all_eq_true] at h
  exact h f (List.contains_iff_mem.mp hf)

variable {w w' : List Fld} {s t u v : State}

theorem Only.refl : Only w s s := ⟨fun _ => rfl, fun _ => rfl, fun _ => rfl, fun _ => rfl, fun _ => rfl, fun _ => rfl, fun _ => rfl, fun _ => rfl, fun _ => rfl, fun _ => rfl, fun _ => rfl, fun _ => rfl, fun _ => rfl, fun _ => rfl, fun _ => rfl, fun _ => rfl, fun _ => rfl, fun _ => rfl, fun _ => rfl, fun _ => rfl, fun _ => rfl, fun _ => rfl, fun _ => rfl, fun _ => rfl, fun _ => rfl, fun _ => rfl⟩

theorem Only.mono (h : Only w' s t) (hs : Fld.sub w' w = true) : Only w s t where
  pending := fun x => h.pending (Fld.sub_mem hs x)
  powered := fun x => h.powered (Fld.sub_mem hs x)
  inReset := fun x => h.inReset (Fld.sub_mem hs x)
  gst := fun x => h.gst (Fld.sub_mem hs x)
  ct := fun x => h.ct (Fld.sub_mem hs x)
  accept := fun x => h.accept (Fld.sub_mem hs x)
  img := fun x => h.img (Fld.sub_mem hs x)
  wl := fun x => h.wl (Fld.sub_mem hs x)
  time := fun x => h.time (Fld.sub_mem hs x)
  adm := fun x => h.adm (Fld.sub_mem hs x)
  tilth := fun x => h.tilth (Fld.sub_mem hs x)
  pwr := fun x => h.pwr (Fld.sub_mem hs x)
  chans := fun x => h.chans (Fld.sub_mem hs x)
  fdw := fun x => h.fdw (Fld.sub_mem hs x)
  hoops := fun x => h.hoops (Fld.sub_mem hs x)
  hoopNet := fun x => h.hoopNet (Fld.sub_mem hs x)
  ports := fun x => h.ports (Fld.sub_mem hs x)
  colls := fun x => h.colls (Fld.sub_mem hs x)
  col := fun x => h.col (Fld.sub_mem hs x)
  stakes := fun x => h.stakes (Fld.sub_mem hs x)
  exc := fun x => h.exc (Fld.sub_mem hs x)
  upd := fun x => h.upd (Fld.sub_mem hs x)
  dbg := fun x => h.dbg (Fld.sub_mem hs x)
  wrap := fun x => h.wrap (Fld.sub_mem hs x)
  vc0 := fun x => h.vc0 (Fld.sub_mem hs x)
  free := fun x => h.free (Fld.sub_mem hs x)

theorem Only.trans (h : Only w s u) (k : Only w u v) : Only w s v where
  pending := fun x => (k.pending x).trans (h.pending x)
  powered := fun x => (k.powered x).trans (h.powered x)
  inReset := fun x => (k.inReset x).trans (h.inReset x)
  gst := fun x => (k.gst x).trans (h.gst x)
  ct := fun x => (k.ct x).trans (h.ct x)
  accept := fun x => (k.accept x).trans (h.accept x)
  img := fun x => (k.img x).trans (h.img x)
  wl := fun x => (k.wl x).trans (h.wl x)
  time := fun x => (k.time x).trans (h.time x)
  adm := fun x => (k.adm x).trans (h.adm x)
  tilth := fun x => (k.tilth x).trans (h.tilth x)
  pwr := fun x => (k.pwr x).trans (h.pwr x)
  chans := fun x => (k.chans x).trans (h.chans x)
  fdw := fun x => (k.fdw x).trans (h.fdw x)
  hoops := fun x => (k.hoops x).trans (h.hoops x)
  hoopNet := fun x => (k.hoopNet x).trans (h.hoopNet x)
  ports := fun x => (k.ports x).trans (h.ports x)
  colls := fun x => (k.colls x).trans (h.colls x)
  col := fun x => (k.col x).trans (h.col x)
  stakes := fun x => (k.stakes x).trans (h.stakes x)
  exc := fun x => (k.exc x).trans (h.exc x)
  upd := fun x => (k.upd x).trans (h.upd x)
  dbg := fun x => (k.dbg x).trans (h.dbg x)
  wrap := fun x => (k.wrap x).trans (h.wrap x)
  vc0 := fun x => (k.vc0 x).trans (h.vc0 x)
  free := fun x => (k.free x).trans (h.free x)

/-- A further operation, of fewer components. -/
theorem Only.next (h : Only w s u) (k : Only w' u v) (hs : Fld.sub w' w = true) : Only w s v := h.trans (k.mono hs)

theorem Only.foldl {β : Type} (h : Only w s u) (f : State → β → State) (l : List β)
    (hf : ∀ t x, Only w s t → Only w s (f t x)) : Only w s (l.foldl f u) := by
  induction l generalizing u with
  | nil => exact h
  | cons x l ih => exact ih (hf u x h)

theorem Only.ite {c : Prop} [Decidable c] (h1 : c → Only w s t) (h2 : ¬c → Only w s u) :
    Only w s (if c then t else u) := by
  split
  · exact h1 ‹_›
  · exact h2 ‹_›

theorem Only.put_pending (h : Only w s u) (x : List Instr) (hm : w.contains .pending = true) : Only w s { u with pending := x } :=
  h.trans ⟨fun n => absurd (List.contains_iff_mem.mp hm) n, fun _ => rfl, fun _ => rfl, fun _ => rfl, fun _ => rfl, fun _ => rfl, fun _ => rfl, fun _ => rfl, fun _ => rfl, fun _ => rfl, fun _ => rfl, fun _ => rfl, fun _ => rfl, fun _ => rfl, fun _ => rfl, fun _ => rfl, fun _ => rfl, fun _ => rfl, fun _ => rfl, fun _ => rfl, fun _ => rfl, fun _ => rfl, fun _ => rfl, fun _ => rfl, fun _ => rfl, fun _ => rfl⟩

theorem Only.put_powered (h : Only w s u) (x : Bool) (hm : w.contains .powered = true) : Only w s { u with powered := x } :=
  h.trans ⟨fun _ => rfl, fun n => absurd (List.contains_iff_mem.mp hm) n, fun _ => rfl, fun _ => rfl, fun _ => rfl, fun _ => rfl, fun _ => rfl, fun _ => rfl, fun _ => rfl, fun _ => rfl, fun _ => rfl, fun _ => rfl, fun _ => rfl, fun _ => rfl, fun _ => rfl, fun _ => rfl, fun _ => rfl, fun _ => rfl, fun _ => rfl, fun _ => rfl, fun _ => rfl, fun _ => rfl, fun _ => rfl, fun _ => rfl, fun _ => rfl, fun _ => rfl⟩

theorem Only.put_inReset (h : Only w s u) (x : Bool) (hm : w.contains .inReset = true) : Only w s { u with inReset := x } :=
  h.trans ⟨fun _ => rfl, fun _ => rfl, fun n => absurd (List.contains_iff_mem.mp hm) n, fun _ => rfl, fun _ => rfl, fun _ => rfl, fun _ => rfl, fun _ => rfl, fun _ => rfl, fun _ => rfl, fun _ => rfl, fun _ => rfl, fun _ => rfl, fun _ => rfl, fun _ => rfl, fun _ => rfl, fun _ => rfl, fun _ => rfl, fun _ => rfl, fun _ => rfl, fun _ => rfl, fun _ => rfl, fun _ => rfl, fun _ => rfl, fun _ => rfl, fun _ => rfl⟩

theorem Only.put_gst (h : Only w s u) (x : Gst) (hm : w.contains .gst = true) : Only w s { u with gst := x } :=
  h.trans ⟨fun _ => rfl, fun _ => rfl, fun _ => rfl, fun n => absurd (List.contains_iff_mem.mp hm) n, fun _ => rfl, fun _ => rfl, fun _ => rfl, fun _ => rfl, fun _ => rfl, fun _ => rfl, fun _ => rfl, fun _ => rfl, fun _ => rfl, fun _ => rfl, fun _ => rfl, fun _ => rfl, fun _ => rfl, fun _ => rfl, fun _ => rfl, fun _ => rfl, fun _ => rfl, fun _ => rfl, fun _ => rfl, fun _ => rfl, fun _ => rfl, fun _ => rfl⟩

theorem Only.put_ct (h : Only w s u) (x : Ct) (hm : w.contains .ct = true) : Only w s { u with ct := x } :=
  h.trans ⟨fun _ => rfl, fun _ => rfl, fun _ => rfl, fun _ => rfl, fun n => absurd (List.contains_iff_mem.mp hm) n, fun _ => rfl, fun _ => rfl, fun _ => rfl, fun _ => rfl, fun _ => rfl, fun _ => rfl, fun _ => rfl, fun _ => rfl, fun _ => rfl, fun _ => rfl, fun _ => rfl, fun _ => rfl, fun _ => rfl, fun _ => rfl, fun _ => rfl, fun _ => rfl, fun _ => rfl, fun _ => rfl, fun _ => rfl, fun _ => rfl, fun _ => rfl⟩

theorem Only.put_accept (h : Only w s u) (x : BitVec 64) (hm : w.contains .accept = true) : Only w s { u with accept := x } :=
  h.trans ⟨fun _ => rfl, fun _ => rfl, fun _ => rfl, fun _ => rfl, fun _ => rfl, fun n => absurd (List.contains_iff_mem.mp hm) n, fun _ => rfl, fun _ => rfl, fun _ => rfl, fun _ => rfl, fun _ => rfl, fun _ => rfl, fun _ => rfl, fun _ => rfl, fun _ => rfl, fun _ => rfl, fun _ => rfl, fun _ => rfl, fun _ => rfl, fun _ => rfl, fun _ => rfl, fun _ => rfl, fun _ => rfl, fun _ => rfl, fun _ => rfl, fun _ => rfl⟩

theorem Only.put_img (h : Only w s u) (x : Img) (hm : w.contains .img = true) : Only w s { u with img := x } :=
  h.trans ⟨fun _ => rfl, fun _ => rfl, fun _ => rfl, fun _ => rfl, fun _ => rfl, fun _ => rfl, fun n => absurd (List.contains_iff_mem.mp hm) n, fun _ => rfl, fun _ => rfl, fun _ => rfl, fun _ => rfl, fun _ => rfl, fun _ => rfl, fun _ => rfl, fun _ => rfl, fun _ => rfl, fun _ => rfl, fun _ => rfl, fun _ => rfl, fun _ => rfl, fun _ => rfl, fun _ => rfl, fun _ => rfl, fun _ => rfl, fun _ => rfl, fun _ => rfl⟩

theorem Only.put_wl (h : Only w s u) (x : Wl) (hm : w.contains .wl = true) : Only w s { u with wl := x } :=
  h.trans ⟨fun _ => rfl, fun _ => rfl, fun _ => rfl, fun _ => rfl, fun _ => rfl, fun _ => rfl, fun _ => rfl, fun n => absurd (List.contains_iff_mem.mp hm) n, fun _ => rfl, fun _ => rfl, fun _ => rfl, fun _ => rfl, fun _ => rfl, fun _ => rfl, fun _ => rfl, fun _ => rfl, fun _ => rfl, fun _ => rfl, fun _ => rfl, fun _ => rfl, fun _ => rfl, fun _ => rfl, fun _ => rfl, fun _ => rfl, fun _ => rfl, fun _ => rfl⟩

theorem Only.put_time (h : Only w s u) (x : Time) (hm : w.contains .time = true) : Only w s { u with time := x } :=
  h.trans ⟨fun _ => rfl, fun _ => rfl, fun _ => rfl, fun _ => rfl, fun _ => rfl, fun _ => rfl, fun _ => rfl, fun _ => rfl, fun n => absurd (List.contains_iff_mem.mp hm) n, fun _ => rfl, fun _ => rfl, fun _ => rfl, fun _ => rfl, fun _ => rfl, fun _ => rfl, fun _ => rfl, fun _ => rfl, fun _ => rfl, fun _ => rfl, fun _ => rfl, fun _ => rfl, fun _ => rfl, fun _ => rfl, fun _ => rfl, fun _ => rfl, fun _ => rfl⟩

theorem Only.put_adm (h : Only w s u) (x : Adm) (hm : w.contains .adm = true) : Only w s { u with adm := x } :=
  h.trans ⟨fun _ => rfl, fun _ => rfl, fun _ => rfl, fun _ => rfl, fun _ => rfl, fun _ => rfl, fun _ => rfl, fun _ => rfl, fun _ => rfl, fun n => absurd (List.contains_iff_mem.mp hm) n, fun _ => rfl, fun _ => rfl, fun _ => rfl, fun _ => rfl, fun _ => rfl, fun _ => rfl, fun _ => rfl, fun _ => rfl, fun _ => rfl, fun _ => rfl, fun _ => rfl, fun _ => rfl, fun _ => rfl, fun _ => rfl, fun _ => rfl, fun _ => rfl⟩

theorem Only.put_tilth (h : Only w s u) (x : Tilth) (hm : w.contains .tilth = true) : Only w s { u with tilth := x } :=
  h.trans ⟨fun _ => rfl, fun _ => rfl, fun _ => rfl, fun _ => rfl, fun _ => rfl, fun _ => rfl, fun _ => rfl, fun _ => rfl, fun _ => rfl, fun _ => rfl, fun n => absurd (List.contains_iff_mem.mp hm) n, fun _ => rfl, fun _ => rfl, fun _ => rfl, fun _ => rfl, fun _ => rfl, fun _ => rfl, fun _ => rfl, fun _ => rfl, fun _ => rfl, fun _ => rfl, fun _ => rfl, fun _ => rfl, fun _ => rfl, fun _ => rfl, fun _ => rfl⟩

theorem Only.put_pwr (h : Only w s u) (x : Pwr) (hm : w.contains .pwr = true) : Only w s { u with pwr := x } :=
  h.trans ⟨fun _ => rfl, fun _ => rfl, fun _ => rfl, fun _ => rfl, fun _ => rfl, fun _ => rfl, fun _ => rfl, fun _ => rfl, fun _ => rfl, fun _ => rfl, fun _ => rfl, fun n => absurd (List.contains_iff_mem.mp hm) n, fun _ => rfl, fun _ => rfl, fun _ => rfl, fun _ => rfl, fun _ => rfl, fun _ => rfl, fun _ => rfl, fun _ => rfl, fun _ => rfl, fun _ => rfl, fun _ => rfl, fun _ => rfl, fun _ => rfl, fun _ => rfl⟩

theorem Only.put_chans (h : Only w s u) (x : Map Chan) (hm : w.contains .chans = true) : Only w s { u with chans := x } :=
  h.trans ⟨fun _ => rfl, fun _ => rfl, fun _ => rfl, fun _ => rfl, fun _ => rfl, fun _ => rfl, fun _ => rfl, fun _ => rfl, fun _ => rfl, fun _ => rfl, fun _ => rfl, fun _ => rfl, fun n => absurd (List.contains_iff_mem.mp hm) n, fun _ => rfl, fun _ => rfl, fun _ => rfl, fun _ => rfl, fun _ => rfl, fun _ => rfl, fun _ => rfl, fun _ => rfl, fun _ => rfl, fun _ => rfl, fun _ => rfl, fun _ => rfl, fun _ => rfl⟩

theorem Only.put_fdw (h : Only w s u) (x : FdWide) (hm : w.contains .fdw = true) : Only w s { u with fdw := x } :=
  h.trans ⟨fun _ => rfl, fun _ => rfl, fun _ => rfl, fun _ => rfl, fun _ => rfl, fun _ => rfl, fun _ => rfl, fun _ => rfl, fun _ => rfl, fun _ => rfl, fun _ => rfl, fun _ => rfl, fun _ => rfl, fun n => absurd (List.contains_iff_mem.mp hm) n, fun _ => rfl, fun _ => rfl, fun _ => rfl, fun _ => rfl, fun _ => rfl, fun _ => rfl, fun _ => rfl, fun _ => rfl, fun _ => rfl, fun _ => rfl, fun _ => rfl, fun _ => rfl⟩

theorem Only.put_hoops (h : Only w s u) (x : Map Hoop) (hm : w.contains .hoops = true) : Only w s { u with hoops := x } :=
  h.trans ⟨fun _ => rfl, fun _ => rfl, fun _ => rfl, fun _ => rfl, fun _ => rfl, fun _ => rfl, fun _ => rfl, fun _ => rfl, fun _ => rfl, fun _ => rfl, fun _ => rfl, fun _ => rfl, fun _ => rfl, fun _ => rfl, fun n => absurd (List.contains_iff_mem.mp hm) n, fun _ => rfl, fun _ => rfl, fun _ => rfl, fun _ => rfl, fun _ => rfl, fun _ => rfl, fun _ => rfl, fun _ => rfl, fun _ => rfl, fun _ => rfl, fun _ => rfl⟩

theorem Only.put_hoopNet (h : Only w s u) (x : List HoopSig) (hm : w.contains .hoopNet = true) : Only w s { u with hoopNet := x } :=
  h.trans ⟨fun _ => rfl, fun _ => rfl, fun _ => rfl, fun _ => rfl, fun _ => rfl, fun _ => rfl, fun _ => rfl, fun _ => rfl, fun _ => rfl, fun _ => rfl, fun _ => rfl, fun _ => rfl, fun _ => rfl, fun _ => rfl, fun _ => rfl, fun n => absurd (List.contains_iff_mem.mp hm) n, fun _ => rfl, fun _ => rfl, fun _ => rfl, fun _ => rfl, fun _ => rfl, fun _ => rfl, fun _ => rfl, fun _ => rfl, fun _ => rfl, fun _ => rfl⟩

theorem Only.put_ports (h : Only w s u) (x : Map Port) (hm : w.contains .ports = true) : Only w s { u with ports := x } :=
  h.trans ⟨fun _ => rfl, fun _ => rfl, fun _ => rfl, fun _ => rfl, fun _ => rfl, fun _ => rfl, fun _ => rfl, fun _ => rfl, fun _ => rfl, fun _ => rfl, fun _ => rfl, fun _ => rfl, fun _ => rfl, fun _ => rfl, fun _ => rfl, fun _ => rfl, fun n => absurd (List.contains_iff_mem.mp hm) n, fun _ => rfl, fun _ => rfl, fun _ => rfl, fun _ => rfl, fun _ => rfl, fun _ => rfl, fun _ => rfl, fun _ => rfl, fun _ => rfl⟩

theorem Only.put_colls (h : Only w s u) (x : List Coll) (hm : w.contains .colls = true) : Only w s { u with colls := x } :=
  h.trans ⟨fun _ => rfl, fun _ => rfl, fun _ => rfl, fun _ => rfl, fun _ => rfl, fun _ => rfl, fun _ => rfl, fun _ => rfl, fun _ => rfl, fun _ => rfl, fun _ => rfl, fun _ => rfl, fun _ => rfl, fun _ => rfl, fun _ => rfl, fun _ => rfl, fun _ => rfl, fun n => absurd (List.contains_iff_mem.mp hm) n, fun _ => rfl, fun _ => rfl, fun _ => rfl, fun _ => rfl, fun _ => rfl, fun _ => rfl, fun _ => rfl, fun _ => rfl⟩

theorem Only.put_col (h : Only w s u) (x : ColCtl) (hm : w.contains .col = true) : Only w s { u with col := x } :=
  h.trans ⟨fun _ => rfl, fun _ => rfl, fun _ => rfl, fun _ => rfl, fun _ => rfl, fun _ => rfl, fun _ => rfl, fun _ => rfl, fun _ => rfl, fun _ => rfl, fun _ => rfl, fun _ => rfl, fun _ => rfl, fun _ => rfl, fun _ => rfl, fun _ => rfl, fun _ => rfl, fun _ => rfl, fun n => absurd (List.contains_iff_mem.mp hm) n, fun _ => rfl, fun _ => rfl, fun _ => rfl, fun _ => rfl, fun _ => rfl, fun _ => rfl, fun _ => rfl⟩

theorem Only.put_stakes (h : Only w s u) (x : Map Stake) (hm : w.contains .stakes = true) : Only w s { u with stakes := x } :=
  h.trans ⟨fun _ => rfl, fun _ => rfl, fun _ => rfl, fun _ => rfl, fun _ => rfl, fun _ => rfl, fun _ => rfl, fun _ => rfl, fun _ => rfl, fun _ => rfl, fun _ => rfl, fun _ => rfl, fun _ => rfl, fun _ => rfl, fun _ => rfl, fun _ => rfl, fun _ => rfl, fun _ => rfl, fun _ => rfl, fun n => absurd (List.contains_iff_mem.mp hm) n, fun _ => rfl, fun _ => rfl, fun _ => rfl, fun _ => rfl, fun _ => rfl, fun _ => rfl⟩

theorem Only.put_exc (h : Only w s u) (x : Exc) (hm : w.contains .exc = true) : Only w s { u with exc := x } :=
  h.trans ⟨fun _ => rfl, fun _ => rfl, fun _ => rfl, fun _ => rfl, fun _ => rfl, fun _ => rfl, fun _ => rfl, fun _ => rfl, fun _ => rfl, fun _ => rfl, fun _ => rfl, fun _ => rfl, fun _ => rfl, fun _ => rfl, fun _ => rfl, fun _ => rfl, fun _ => rfl, fun _ => rfl, fun _ => rfl, fun _ => rfl, fun n => absurd (List.contains_iff_mem.mp hm) n, fun _ => rfl, fun _ => rfl, fun _ => rfl, fun _ => rfl, fun _ => rfl⟩

theorem Only.put_upd (h : Only w s u) (x : Upd) (hm : w.contains .upd = true) : Only w s { u with upd := x } :=
  h.trans ⟨fun _ => rfl, fun _ => rfl, fun _ => rfl, fun _ => rfl, fun _ => rfl, fun _ => rfl, fun _ => rfl, fun _ => rfl, fun _ => rfl, fun _ => rfl, fun _ => rfl, fun _ => rfl, fun _ => rfl, fun _ => rfl, fun _ => rfl, fun _ => rfl, fun _ => rfl, fun _ => rfl, fun _ => rfl, fun _ => rfl, fun _ => rfl, fun n => absurd (List.contains_iff_mem.mp hm) n, fun _ => rfl, fun _ => rfl, fun _ => rfl, fun _ => rfl⟩

theorem Only.put_dbg (h : Only w s u) (x : Dbg) (hm : w.contains .dbg = true) : Only w s { u with dbg := x } :=
  h.trans ⟨fun _ => rfl, fun _ => rfl, fun _ => rfl, fun _ => rfl, fun _ => rfl, fun _ => rfl, fun _ => rfl, fun _ => rfl, fun _ => rfl, fun _ => rfl, fun _ => rfl, fun _ => rfl, fun _ => rfl, fun _ => rfl, fun _ => rfl, fun _ => rfl, fun _ => rfl, fun _ => rfl, fun _ => rfl, fun _ => rfl, fun _ => rfl, fun _ => rfl, fun n => absurd (List.contains_iff_mem.mp hm) n, fun _ => rfl, fun _ => rfl, fun _ => rfl⟩

theorem Only.put_wrap (h : Only w s u) (x : Wrap) (hm : w.contains .wrap = true) : Only w s { u with wrap := x } :=
  h.trans ⟨fun _ => rfl, fun _ => rfl, fun _ => rfl, fun _ => rfl, fun _ => rfl, fun _ => rfl, fun _ => rfl, fun _ => rfl, fun _ => rfl, fun _ => rfl, fun _ => rfl, fun _ => rfl, fun _ => rfl, fun _ => rfl, fun _ => rfl, fun _ => rfl, fun _ => rfl, fun _ => rfl, fun _ => rfl, fun _ => rfl, fun _ => rfl, fun _ => rfl, fun _ => rfl, fun n => absurd (List.contains_iff_mem.mp hm) n, fun _ => rfl, fun _ => rfl⟩

theorem Only.put_vc0 (h : Only w s u) (x : List Msg) (hm : w.contains .vc0 = true) : Only w s { u with vc0 := x } :=
  h.trans ⟨fun _ => rfl, fun _ => rfl, fun _ => rfl, fun _ => rfl, fun _ => rfl, fun _ => rfl, fun _ => rfl, fun _ => rfl, fun _ => rfl, fun _ => rfl, fun _ => rfl, fun _ => rfl, fun _ => rfl, fun _ => rfl, fun _ => rfl, fun _ => rfl, fun _ => rfl, fun _ => rfl, fun _ => rfl, fun _ => rfl, fun _ => rfl, fun _ => rfl, fun _ => rfl, fun _ => rfl, fun n => absurd (List.contains_iff_mem.mp hm) n, fun _ => rfl⟩

theorem Only.put_free (h : Only w s u) (x : Nat) (hm : w.contains .free = true) : Only w s { u with free := x } :=
  h.trans ⟨fun _ => rfl, fun _ => rfl, fun _ => rfl, fun _ => rfl, fun _ => rfl, fun _ => rfl, fun _ => rfl, fun _ => rfl, fun _ => rfl, fun _ => rfl, fun _ => rfl, fun _ => rfl, fun _ => rfl, fun _ => rfl, fun _ => rfl, fun _ => rfl, fun _ => rfl, fun _ => rfl, fun _ => rfl, fun _ => rfl, fun _ => rfl, fun _ => rfl, fun _ => rfl, fun _ => rfl, fun _ => rfl, fun n => absurd (List.contains_iff_mem.mp hm) n⟩

/-! ### Changes of several components at once -/

theorem Only.put_col_vc0 (h : Only w s u) (x0 : ColCtl) (x1 : List Msg)
    (h0 : w.contains .col = true) (h1 : w.contains .vc0 = true) :
    Only w s { u with col := x0, vc0 := x1 } :=
  h.trans ⟨fun _ => rfl, fun _ => rfl, fun _ => rfl, fun _ => rfl, fun _ => rfl, fun _ => rfl, fun _ => rfl, fun _ => rfl, fun _ => rfl, fun _ => rfl, fun _ => rfl, fun _ => rfl, fun _ => rfl, fun _ => rfl, fun _ => rfl, fun _ => rfl, fun _ => rfl, fun _ => rfl, fun n => absurd (List.contains_iff_mem.mp h0) n, fun _ => rfl, fun _ => rfl, fun _ => rfl, fun _ => rfl, fun _ => rfl, fun n => absurd (List.contains_iff_mem.mp h1) n, fun _ => rfl⟩

theorem Only.put_img_fdw_dbg (h : Only w s u) (x0 : Img) (x1 : FdWide) (x2 : Dbg)
    (h0 : w.contains .img = true) (h1 : w.contains .fdw = true) (h2 : w.contains .dbg = true) :
    Only w s { u with img := x0, fdw := x1, dbg := x2 } :=
  h.trans ⟨fun _ => rfl, fun _ => rfl, fun _ => rfl, fun _ => rfl, fun _ => rfl, fun _ => rfl, fun n => absurd (List.contains_iff_mem.mp h0) n, fun _ => rfl, fun _ => rfl, fun _ => rfl, fun _ => rfl, fun _ => rfl, fun _ => rfl, fun n => absurd (List.contains_iff_mem.mp h1) n, fun _ => rfl, fun _ => rfl, fun _ => rfl, fun _ => rfl, fun _ => rfl, fun _ => rfl, fun _ => rfl, fun _ => rfl, fun n => absurd (List.contains_iff_mem.mp h2) n, fun _ => rfl, fun _ => rfl, fun _ => rfl⟩

theorem Only.put_img_ports_col (h : Only w s u) (x0 : Img) (x1 : Map Port) (x2 : ColCtl)
    (h0 : w.contains .img = true) (h1 : w.contains .ports = true) (h2 : w.contains .col = true) :
    Only w s { u with img := x0, ports := x1, col := x2 } :=
  h.trans ⟨fun _ => rfl, fun _ => rfl, fun _ => rfl, fun _ => rfl, fun _ => rfl, fun _ => rfl, fun n => absurd (List.contains_iff_mem.mp h0) n, fun _ => rfl, fun _ => rfl, fun _ => rfl, fun _ => rfl, fun _ => rfl, fun _ => rfl, fun _ => rfl, fun _ => rfl, fun _ => rfl, fun n => absurd (List.contains_iff_mem.mp h1) n, fun _ => rfl, fun n => absurd (List.contains_iff_mem.mp h2) n, fun _ => rfl, fun _ => rfl, fun _ => rfl, fun _ => rfl, fun _ => rfl, fun _ => rfl, fun _ => rfl⟩

theorem Only.put_img_pwr (h : Only w s u) (x0 : Img) (x1 : Pwr)
    (h0 : w.contains .img = true) (h1 : w.contains .pwr = true) :
    Only w s { u with img := x0, pwr := x1 } :=
  h.trans ⟨fun _ => rfl, fun _ => rfl, fun _ => rfl, fun _ => rfl, fun _ => rfl, fun _ => rfl, fun n => absurd (List.contains_iff_mem.mp h0) n, fun _ => rfl, fun _ => rfl, fun _ => rfl, fun _ => rfl, fun n => absurd (List.contains_iff_mem.mp h1) n, fun _ => rfl, fun _ => rfl, fun _ => rfl, fun _ => rfl, fun _ => rfl, fun _ => rfl, fun _ => rfl, fun _ => rfl, fun _ => rfl, fun _ => rfl, fun _ => rfl, fun _ => rfl, fun _ => rfl, fun _ => rfl⟩

theorem Only.put_inReset_wl (h : Only w s u) (x0 : Bool) (x1 : Wl)
    (h0 : w.contains .inReset = true) (h1 : w.contains .wl = true) :
    Only w s { u with inReset := x0, wl := x1 } :=
  h.trans ⟨fun _ => rfl, fun _ => rfl, fun n => absurd (List.contains_iff_mem.mp h0) n, fun _ => rfl, fun _ => rfl, fun _ => rfl, fun _ => rfl, fun n => absurd (List.contains_iff_mem.mp h1) n, fun _ => rfl, fun _ => rfl, fun _ => rfl, fun _ => rfl, fun _ => rfl, fun _ => rfl, fun _ => rfl, fun _ => rfl, fun _ => rfl, fun _ => rfl, fun _ => rfl, fun _ => rfl, fun _ => rfl, fun _ => rfl, fun _ => rfl, fun _ => rfl, fun _ => rfl, fun _ => rfl⟩

theorem Only.put_time_tilth (h : Only w s u) (x0 : Time) (x1 : Tilth)
    (h0 : w.contains .time = true) (h1 : w.contains .tilth = true) :
    Only w s { u with time := x0, tilth := x1 } :=
  h.trans ⟨fun _ => rfl, fun _ => rfl, fun _ => rfl, fun _ => rfl, fun _ => rfl, fun _ => rfl, fun _ => rfl, fun _ => rfl, fun n => absurd (List.contains_iff_mem.mp h0) n, fun _ => rfl, fun n => absurd (List.contains_iff_mem.mp h1) n, fun _ => rfl, fun _ => rfl, fun _ => rfl, fun _ => rfl, fun _ => rfl, fun _ => rfl, fun _ => rfl, fun _ => rfl, fun _ => rfl, fun _ => rfl, fun _ => rfl, fun _ => rfl, fun _ => rfl, fun _ => rfl, fun _ => rfl⟩

theorem Only.put_wrap_free (h : Only w s u) (x0 : Wrap) (x1 : Nat)
    (h0 : w.contains .wrap = true) (h1 : w.contains .free = true) :
    Only w s { u with wrap := x0, free := x1 } :=
  h.trans ⟨fun _ => rfl, fun _ => rfl, fun _ => rfl, fun _ => rfl, fun _ => rfl, fun _ => rfl, fun _ => rfl, fun _ => rfl, fun _ => rfl, fun _ => rfl, fun _ => rfl, fun _ => rfl, fun _ => rfl, fun _ => rfl, fun _ => rfl, fun _ => rfl, fun _ => rfl, fun _ => rfl, fun _ => rfl, fun _ => rfl, fun _ => rfl, fun _ => rfl, fun _ => rfl, fun n => absurd (List.contains_iff_mem.mp h0) n, fun _ => rfl, fun n => absurd (List.contains_iff_mem.mp h1) n⟩

end Sys2Proof.Machine
end

