-- ==== Sys2Proof/Laws/OnlyOps.lean ====
section
/-! SUPPORT. One lemma per operation and per command: the components that it may change. -/

namespace Sys2Proof.Machine

/-- What a send answers when it has sent: a state that agrees but in these components. -/
def Sent.Only (w : List Fld) (s : State) : Sent → Prop
  | .ok t => Machine.Only w s t
  | _ => True

theorem Sent.Only.ok {w : List Fld} {s t : State} {r : Sent} (h : Sent.Only w s r) (e : r = .ok t) : Machine.Only w s t := by
  subst e; exact h

/-- A command answers a next state that agrees with the present one but in these components. -/
def NextOnly (w : List Fld) (s : State) (r : Host.Outcome State Fault Refusal) : Prop := ∃ t, r = .next t ∧ Only w s t

theorem live_only {w : List Fld} {s : State} {f : State → State} (h : Only w s (f s)) : NextOnly w s (live s f) := by
  unfold live
  split
  · exact ⟨_, rfl, h⟩
  · exact ⟨_, rfl, .refl⟩

theorem State.sendFlits_only {w : List Fld} {s u : State} (h : Only w s u) (dest : Nat) (i : Option Nat) (fs : List TxFlit)
    (hs : Fld.sub [.stakes] w = true := by decide) : Sent.Only w s (u.sendFlits dest i fs) := by
  have hm : w.contains .stakes = true := Fld.sub_contains hs (by decide)
  unfold State.sendFlits
  split
  · trivial
  · trivial
  · dsimp only
    split
    · cases i <;> exact (h.put_stakes _ hm).put_stakes _ hm
    · trivial

theorem State.sendSeg_only {w : List Fld} {s u : State} (h : Only w s u) (dest vc level srcf : Nat) (i : Option Nat) (kind : Nat)
    (g : BitVec 12) (k : Word) (wale : Nat) (body : List Byte) (hs : Fld.sub [.stakes] w = true := by decide) :
    Sent.Only w s (u.sendSeg dest vc level srcf i kind g k wale body) := by
  exact State.sendFlits_only h _ _ _ hs

theorem State.sendRaw_only {w : List Fld} {s u : State} (h : Only w s u) (dest : Nat) (m : Msg)
    (hs : Fld.sub [.stakes, .vc0] w = true := by decide) : Sent.Only w s (u.sendRaw dest m) := by
  unfold State.sendRaw
  split
  · exact Machine.Only.put_vc0 h _ (Fld.sub_contains hs (by decide))
  · exact State.sendSeg_only h _ _ _ _ _ _ _ _ _ _ (Fld.sub_trans (by decide) hs)

theorem State.setPort_only {w : List Fld} {s u : State} (h : Only w s u) (x1 : Nat) (x2 : Port)
    (hs : Fld.sub [.ports] w = true := by decide) : Only w s (State.setPort u x1 x2) := by
  unfold State.setPort
  repeat' first
    | with_reducible assumption
    | with_reducible apply Only.foldl
    | (with_reducible refine Only.ite (fun _ => ?_) (fun _ => ?_))
    | split
    | ((with_reducible refine Only.put_ports ?_ _ ?hm); case hm => exact Fld.sub_contains hs (by decide))
    | exact Fld.sub_trans (by decide) hs
    | intro _
    | dsimp only

theorem State.onPort_only {w : List Fld} {s u : State} (h : Only w s u) (x1 : Nat) (x2 : Port → Port)
    (hs : Fld.sub [.ports] w = true := by decide) : Only w s (State.onPort u x1 x2) := by
  unfold State.onPort
  repeat' first
    | with_reducible assumption
    | with_reducible apply Only.foldl
    | with_reducible apply State.setPort_only
    | (with_reducible refine Only.ite (fun _ => ?_) (fun _ => ?_))
    | split
    | exact Fld.sub_trans (by decide) hs
    | intro _
    | dsimp only

theorem State.attn_only {w : List Fld} {s u : State} (h : Only w s u) (x1 : Nat)
    (hs : Fld.sub [.gst] w = true := by decide) : Only w s (State.attn u x1) := by
  unfold State.attn
  repeat' first
    | with_reducible assumption
    | with_reducible apply Only.foldl
    | (with_reducible refine Only.ite (fun _ => ?_) (fun _ => ?_))
    | split
    | ((with_reducible refine Only.put_gst ?_ _ ?hm); case hm => exact Fld.sub_contains hs (by decide))
    | exact Fld.sub_trans (by decide) hs
    | intro _
    | dsimp only

theorem State.status_only {w : List Fld} {s u : State} (h : Only w s u) (x1 : Nat) (x2 : Nat) (x3 : BitVec 12) (x4 : Word) (x5 : optParam Bool false) (x6 : optParam Bool false)
    (hs : Fld.sub [.ports] w = true := by decide) : Only w s (State.status u x1 x2 x3 x4 x5 x6) := by
  unfold State.status
  repeat' first
    | with_reducible assumption
    | with_reducible apply Only.foldl
    | with_reducible apply State.onPort_only
    | (with_reducible refine Only.ite (fun _ => ?_) (fun _ => ?_))
    | split
    | exact Fld.sub_trans (by decide) hs
    | intro _
    | dsimp only

theorem State.endWait_only {w : List Fld} {s u : State} (h : Only w s u) (x1 : Nat) (x2 : Nat)
    (hs : Fld.sub [.ports] w = true := by decide) : Only w s (State.endWait u x1 x2) := by
  unfold State.endWait
  repeat' first
    | with_reducible assumption
    | with_reducible apply Only.foldl
    | with_reducible apply State.status_only
    | with_reducible apply State.onPort_only
    | (with_reducible refine Only.ite (fun _ => ?_) (fun _ => ?_))
    | split
    | exact Fld.sub_trans (by decide) hs
    | intro _
    | dsimp only

theorem State.logWrite_only {w : List Fld} {s u : State} (h : Only w s u) (x1 : LogEntry)
    (hs : Fld.sub [.gst] w = true := by decide) : Only w s (State.logWrite u x1) := by
  unfold State.logWrite
  repeat' first
    | with_reducible assumption
    | with_reducible apply Only.foldl
    | (with_reducible refine Only.ite (fun _ => ?_) (fun _ => ?_))
    | split
    | ((with_reducible refine Only.put_gst ?_ _ ?hm); case hm => exact Fld.sub_contains hs (by decide))
    | exact Fld.sub_trans (by decide) hs
    | intro _
    | dsimp only

theorem State.logEv_only {w : List Fld} {s u : State} (h : Only w s u) (x1 : Nat) (x2 : Nat) (x3 : Nat) (x4 : Nat) (x5 : Nat) (x6 : Nat) (x7 : optParam (BitVec 12) 0#12) (x8 : optParam (BitVec 8) 0#8)
    (hs : Fld.sub [.gst] w = true := by decide) : Only w s (State.logEv u x1 x2 x3 x4 x5 x6 x7 x8) := by
  unfold State.logEv
  repeat' first
    | with_reducible assumption
    | with_reducible apply Only.foldl
    | with_reducible apply State.logWrite_only
    | (with_reducible refine Only.ite (fun _ => ?_) (fun _ => ?_))
    | split
    | exact Fld.sub_trans (by decide) hs
    | intro _
    | dsimp only

theorem State.setHoop_only {w : List Fld} {s u : State} (h : Only w s u) (x1 : Nat) (x2 : Hoop)
    (hs : Fld.sub [.hoops] w = true := by decide) : Only w s (State.setHoop u x1 x2) := by
  unfold State.setHoop
  repeat' first
    | with_reducible assumption
    | with_reducible apply Only.foldl
    | (with_reducible refine Only.ite (fun _ => ?_) (fun _ => ?_))
    | split
    | ((with_reducible refine Only.put_hoops ?_ _ ?hm); case hm => exact Fld.sub_contains hs (by decide))
    | exact Fld.sub_trans (by decide) hs
    | intro _
    | dsimp only

theorem State.hoopFault_only {w : List Fld} {s u : State} (h : Only w s u) (x1 : Nat)
    (hs : Fld.sub [.gst, .hoops, .ports] w = true := by decide) : Only w s (State.hoopFault u x1) := by
  unfold State.hoopFault
  repeat' first
    | with_reducible assumption
    | with_reducible apply Only.foldl
    | with_reducible apply State.setHoop_only
    | with_reducible apply State.logEv_only
    | with_reducible apply State.endWait_only
    | with_reducible apply State.attn_only
    | (with_reducible refine Only.ite (fun _ => ?_) (fun _ => ?_))
    | split
    | exact Fld.sub_trans (by decide) hs
    | intro _
    | dsimp only

theorem State.signal_only {w : List Fld} {s u : State} (h : Only w s u) (x1 : HoopSig)
    (hs : Fld.sub [.hoopNet] w = true := by decide) : Only w s (State.signal u x1) := by
  unfold State.signal
  repeat' first
    | with_reducible assumption
    | with_reducible apply Only.foldl
    | (with_reducible refine Only.ite (fun _ => ?_) (fun _ => ?_))
    | split
    | ((with_reducible refine Only.put_hoopNet ?_ _ ?hm); case hm => exact Fld.sub_contains hs (by decide))
    | exact Fld.sub_trans (by decide) hs
    | intro _
    | dsimp only

theorem State.hoopLost_only {w : List Fld} {s u : State} (h : Only w s u) (x1 : Nat) (x2 : BitVec 3)
    (hs : Fld.sub [.gst, .hoops, .ports] w = true := by decide) : Only w s (State.hoopLost u x1 x2) := by
  unfold State.hoopLost
  repeat' first
    | with_reducible assumption
    | with_reducible apply Only.foldl
    | with_reducible apply State.hoopFault_only
    | with_reducible apply State.setHoop_only
    | (with_reducible refine Only.ite (fun _ => ?_) (fun _ => ?_))
    | split
    | exact Fld.sub_trans (by decide) hs
    | intro _
    | dsimp only

theorem State.hoopStorage_only {w : List Fld} {s u : State} (h : Only w s u) (x1 : Nat) (x2 : StorageEvent)
    (hs : Fld.sub [.gst, .hoops, .ports] w = true := by decide) : Only w s (State.hoopStorage u x1 x2) := by
  unfold State.hoopStorage
  repeat' first
    | with_reducible assumption
    | with_reducible apply Only.foldl
    | with_reducible apply State.hoopLost_only
    | (with_reducible refine Only.ite (fun _ => ?_) (fun _ => ?_))
    | split
    | ((with_reducible refine Only.put_gst ?_ _ ?hm); case hm => exact Fld.sub_contains hs (by decide))
    | exact Fld.sub_trans (by decide) hs
    | intro _
    | dsimp only

theorem State.hoopCmd_only {w : List Fld} {s u : State} (h : Only w s u) (x1 : Nat) (x2 : Word) (x3 : Word) (x4 : StorageEvent)
    (hs : Fld.sub [.gst, .hoops, .hoopNet, .ports] w = true := by decide) : Only w s (State.hoopCmd u x1 x2 x3 x4) := by
  unfold State.hoopCmd
  repeat' first
    | with_reducible assumption
    | with_reducible apply Only.foldl
    | with_reducible apply State.signal_only
    | with_reducible apply State.hoopStorage_only
    | with_reducible apply State.hoopFault_only
    | with_reducible apply State.setHoop_only
    | with_reducible apply State.logEv_only
    | with_reducible apply State.status_only
    | with_reducible apply State.attn_only
    | with_reducible apply State.onPort_only
    | (with_reducible refine Only.ite (fun _ => ?_) (fun _ => ?_))
    | split
    | exact Fld.sub_trans (by decide) hs
    | intro _
    | dsimp only

theorem State.putColl_only {w : List Fld} {s u : State} (h : Only w s u) (x1 : Coll)
    (hs : Fld.sub [.colls] w = true := by decide) : Only w s (State.putColl u x1) := by
  unfold State.putColl
  repeat' first
    | with_reducible assumption
    | with_reducible apply Only.foldl
    | (with_reducible refine Only.ite (fun _ => ?_) (fun _ => ?_))
    | split
    | ((with_reducible refine Only.put_colls ?_ _ ?hm); case hm => exact Fld.sub_contains hs (by decide))
    | exact Fld.sub_trans (by decide) hs
    | intro _
    | dsimp only

theorem State.onColl_only {w : List Fld} {s u : State} (h : Only w s u) (x1 : BitVec 12) (x2 : Word) (x3 : Coll → Coll)
    (hs : Fld.sub [.colls] w = true := by decide) : Only w s (State.onColl u x1 x2 x3) := by
  unfold State.onColl
  repeat' first
    | with_reducible assumption
    | with_reducible apply Only.foldl
    | with_reducible apply State.putColl_only
    | (with_reducible refine Only.ite (fun _ => ?_) (fun _ => ?_))
    | split
    | exact Fld.sub_trans (by decide) hs
    | intro _
    | dsimp only

theorem State.post_only {w : List Fld} {s u : State} (h : Only w s u) (x1 : Msg)
    (hs : Fld.sub [.vc0] w = true := by decide) : Only w s (State.post u x1) := by
  unfold State.post
  repeat' first
    | with_reducible assumption
    | with_reducible apply Only.foldl
    | (with_reducible refine Only.ite (fun _ => ?_) (fun _ => ?_))
    | split
    | ((with_reducible refine Only.put_vc0 ?_ _ ?hm); case hm => exact Fld.sub_contains hs (by decide))
    | exact Fld.sub_trans (by decide) hs
    | intro _
    | dsimp only

theorem State.setStake_only {w : List Fld} {s u : State} (h : Only w s u) (x1 : Nat) (x2 : Stake)
    (hs : Fld.sub [.stakes] w = true := by decide) : Only w s (State.setStake u x1 x2) := by
  unfold State.setStake
  repeat' first
    | with_reducible assumption
    | with_reducible apply Only.foldl
    | (with_reducible refine Only.ite (fun _ => ?_) (fun _ => ?_))
    | split
    | ((with_reducible refine Only.put_stakes ?_ _ ?hm); case hm => exact Fld.sub_contains hs (by decide))
    | exact Fld.sub_trans (by decide) hs
    | intro _
    | dsimp only

theorem State.onStake_only {w : List Fld} {s u : State} (h : Only w s u) (x1 : Nat) (x2 : Stake → Stake)
    (hs : Fld.sub [.stakes] w = true := by decide) : Only w s (State.onStake u x1 x2) := by
  unfold State.onStake
  repeat' first
    | with_reducible assumption
    | with_reducible apply Only.foldl
    | with_reducible apply State.setStake_only
    | (with_reducible refine Only.ite (fun _ => ?_) (fun _ => ?_))
    | split
    | exact Fld.sub_trans (by decide) hs
    | intro _
    | dsimp only

theorem State.enqueue_only {w : List Fld} {s u : State} (h : Only w s u) (x1 : Nat) (x2 : List TxFlit)
    (hs : Fld.sub [.stakes] w = true := by decide) : Only w s (State.enqueue u x1 x2) := by
  unfold State.enqueue
  repeat' first
    | with_reducible assumption
    | with_reducible apply Only.foldl
    | with_reducible apply State.onStake_only
    | (with_reducible refine Only.ite (fun _ => ?_) (fun _ => ?_))
    | split
    | exact Fld.sub_trans (by decide) hs
    | intro _
    | dsimp only

theorem State.rotation_only {w : List Fld} {s u : State} (h : Only w s u) (x1 : Nat)
    (hs : Fld.sub [.stakes] w = true := by decide) : Only w s (State.rotation u x1).2 := by
  unfold State.rotation
  repeat' first
    | with_reducible assumption
    | with_reducible apply Only.foldl
    | with_reducible apply State.onStake_only
    | (with_reducible refine Only.ite (fun _ => ?_) (fun _ => ?_))
    | split
    | exact Fld.sub_trans (by decide) hs
    | intro _
    | dsimp only

theorem State.sendIf_only {w : List Fld} {s u : State} (h : Only w s u) (x1 : Nat) (x2 : Msg)
    (hs : Fld.sub [.stakes, .vc0] w = true := by decide) : Only w s (State.sendIf u x1 x2) := by
  unfold State.sendIf
  repeat' first
    | with_reducible assumption
    | with_reducible apply Only.foldl
    | (with_reducible refine Only.ite (fun _ => ?_) (fun _ => ?_))
    | split
    | with_reducible apply State.sendRaw_only
    | (refine Sent.Only.ok (State.sendRaw_only ?_ _ _ ?_) (by assumption))
    | exact Fld.sub_trans (by decide) hs
    | intro _
    | dsimp only

theorem State.cutLegs_only {w : List Fld} {s u : State} (h : Only w s u) (x1 : Coll)
    (hs : Fld.sub [.colls, .stakes, .vc0] w = true := by decide) : Only w s (State.cutLegs u x1) := by
  unfold State.cutLegs
  repeat' first
    | with_reducible assumption
    | with_reducible apply Only.foldl
    | with_reducible apply State.sendIf_only
    | with_reducible apply State.onColl_only
    | (with_reducible refine Only.ite (fun _ => ?_) (fun _ => ?_))
    | split
    | exact Fld.sub_trans (by decide) hs
    | intro _
    | dsimp only

theorem State.cutSide_only {w : List Fld} {s u : State} (h : Only w s u) (x1 : BitVec 12) (x2 : Word) (x3 : Nat)
    (hs : Fld.sub [.colls, .stakes, .vc0] w = true := by decide) : Only w s (State.cutSide u x1 x2 x3) := by
  unfold State.cutSide
  repeat' first
    | with_reducible assumption
    | with_reducible apply Only.foldl
    | with_reducible apply State.cutLegs_only
    | with_reducible apply State.post_only
    | (with_reducible refine Only.ite (fun _ => ?_) (fun _ => ?_))
    | split
    | exact Fld.sub_trans (by decide) hs
    | intro _
    | dsimp only

theorem State.logRoute_only {w : List Fld} {s u : State} (h : Only w s u) (x1 : BitVec 12) (x2 : Word) (x3 : Nat) (x4 : Nat) (x5 : Nat) (x6 : Nat) (x7 : Nat)
    (hs : Fld.sub [.gst] w = true := by decide) : Only w s (State.logRoute u x1 x2 x3 x4 x5 x6 x7) := by
  unfold State.logRoute
  repeat' first
    | with_reducible assumption
    | with_reducible apply Only.foldl
    | with_reducible apply State.logEv_only
    | (with_reducible refine Only.ite (fun _ => ?_) (fun _ => ?_))
    | split
    | exact Fld.sub_trans (by decide) hs
    | intro _
    | dsimp only

theorem State.report_only {w : List Fld} {s u : State} (h : Only w s u) (x1 : BitVec 12) (x2 : Word) (x3 : Nat) (x4 : Nat) (x5 : Nat) (x6 : optParam Word 0) (x7 : optParam (Option Cand) none)
    (hs : Fld.sub [.gst, .colls, .stakes, .vc0] w = true := by decide) : Only w s (State.report u x1 x2 x3 x4 x5 x6 x7) := by
  unfold State.report
  repeat' first
    | with_reducible assumption
    | with_reducible apply Only.foldl
    | with_reducible apply State.logRoute_only
    | with_reducible apply State.cutSide_only
    | with_reducible apply State.post_only
    | (with_reducible refine Only.ite (fun _ => ?_) (fun _ => ?_))
    | split
    | with_reducible apply State.sendRaw_only
    | (refine Sent.Only.ok (State.sendRaw_only ?_ _ _ ?_) (by assumption))
    | exact Fld.sub_trans (by decide) hs
    | intro _
    | dsimp only

theorem State.badWord0_only {w : List Fld} {s u : State} (h : Only w s u) (x1 : Nat) (x2 : Word) (x3 : Word)
    (hs : Fld.sub [.gst, .ports, .colls, .stakes, .vc0] w = true := by decide) : Only w s (State.badWord0 u x1 x2 x3) := by
  unfold State.badWord0
  repeat' first
    | with_reducible assumption
    | with_reducible apply Only.foldl
    | with_reducible apply State.report_only
    | with_reducible apply State.logEv_only
    | with_reducible apply State.status_only
    | with_reducible apply State.attn_only
    | with_reducible apply State.onPort_only
    | (with_reducible refine Only.ite (fun _ => ?_) (fun _ => ?_))
    | split
    | exact Fld.sub_trans (by decide) hs
    | intro _
    | dsimp only

theorem State.orphan_only {w : List Fld} {s u : State} (h : Only w s u) (x1 : Nat)
    (hs : Fld.sub [.fdw] w = true := by decide) : Only w s (State.orphan u x1) := by
  unfold State.orphan
  repeat' first
    | with_reducible assumption
    | with_reducible apply Only.foldl
    | (with_reducible refine Only.ite (fun _ => ?_) (fun _ => ?_))
    | split
    | ((with_reducible refine Only.put_fdw ?_ _ ?hm); case hm => exact Fld.sub_contains hs (by decide))
    | exact Fld.sub_trans (by decide) hs
    | intro _
    | dsimp only

theorem State.setEvtOut_only {w : List Fld} {s u : State} (h : Only w s u) (x1 : Nat) (x2 : EvtOut)
    (hs : Fld.sub [.fdw] w = true := by decide) : Only w s (State.setEvtOut u x1 x2) := by
  unfold State.setEvtOut
  repeat' first
    | with_reducible assumption
    | with_reducible apply Only.foldl
    | (with_reducible refine Only.ite (fun _ => ?_) (fun _ => ?_))
    | split
    | ((with_reducible refine Only.put_fdw ?_ _ ?hm); case hm => exact Fld.sub_contains hs (by decide))
    | exact Fld.sub_trans (by decide) hs
    | intro _
    | dsimp only

theorem State.pulse_only {w : List Fld} {s u : State} (h : Only w s u) (x1 : Nat) (x2 : Nat)
    (hs : Fld.sub [.fdw] w = true := by decide) : Only w s (State.pulse u x1 x2) := by
  unfold State.pulse
  repeat' first
    | with_reducible assumption
    | with_reducible apply Only.foldl
    | with_reducible apply State.setEvtOut_only
    | (with_reducible refine Only.ite (fun _ => ?_) (fun _ => ?_))
    | split
    | ((with_reducible refine Only.put_fdw ?_ _ ?hm); case hm => exact Fld.sub_contains hs (by decide))
    | exact Fld.sub_trans (by decide) hs
    | intro _
    | dsimp only

theorem State.setChan_only {w : List Fld} {s u : State} (h : Only w s u) (x1 : Nat) (x2 : Chan)
    (hs : Fld.sub [.chans] w = true := by decide) : Only w s (State.setChan u x1 x2) := by
  unfold State.setChan
  repeat' first
    | with_reducible assumption
    | with_reducible apply Only.foldl
    | (with_reducible refine Only.ite (fun _ => ?_) (fun _ => ?_))
    | split
    | ((with_reducible refine Only.put_chans ?_ _ ?hm); case hm => exact Fld.sub_contains hs (by decide))
    | exact Fld.sub_trans (by decide) hs
    | intro _
    | dsimp only

theorem State.halt_only {w : List Fld} {s u : State} (h : Only w s u) (x1 : Nat) (x2 : Nat) (x3 : Nat) (x4 : optParam (Option (BitVec 12 × Word)) none)
    (hs : Fld.sub [.gst, .chans, .fdw, .colls, .stakes, .vc0] w = true := by decide) : Only w s (State.halt u x1 x2 x3 x4) := by
  unfold State.halt
  repeat' first
    | with_reducible assumption
    | with_reducible apply Only.foldl
    | with_reducible apply State.setChan_only
    | with_reducible apply State.pulse_only
    | with_reducible apply State.orphan_only
    | with_reducible apply State.report_only
    | with_reducible apply State.logEv_only
    | with_reducible apply State.attn_only
    | (with_reducible refine Only.ite (fun _ => ?_) (fun _ => ?_))
    | split
    | exact Fld.sub_trans (by decide) hs
    | intro _
    | dsimp only

theorem State.setEvtIn_only {w : List Fld} {s u : State} (h : Only w s u) (x1 : Nat) (x2 : EvtIn)
    (hs : Fld.sub [.fdw] w = true := by decide) : Only w s (State.setEvtIn u x1 x2) := by
  unfold State.setEvtIn
  repeat' first
    | with_reducible assumption
    | with_reducible apply Only.foldl
    | (with_reducible refine Only.ite (fun _ => ?_) (fun _ => ?_))
    | split
    | ((with_reducible refine Only.put_fdw ?_ _ ?hm); case hm => exact Fld.sub_contains hs (by decide))
    | exact Fld.sub_trans (by decide) hs
    | intro _
    | dsimp only

theorem State.onChan_only {w : List Fld} {s u : State} (h : Only w s u) (x1 : Nat) (x2 : Chan → Chan)
    (hs : Fld.sub [.chans] w = true := by decide) : Only w s (State.onChan u x1 x2) := by
  unfold State.onChan
  repeat' first
    | with_reducible assumption
    | with_reducible apply Only.foldl
    | with_reducible apply State.setChan_only
    | (with_reducible refine Only.ite (fun _ => ?_) (fun _ => ?_))
    | split
    | exact Fld.sub_trans (by decide) hs
    | intro _
    | dsimp only

theorem State.pauseChan_only {w : List Fld} {s u : State} (h : Only w s u) (x1 : Nat)
    (hs : Fld.sub [.chans] w = true := by decide) : Only w s (State.pauseChan u x1) := by
  unfold State.pauseChan
  repeat' first
    | with_reducible assumption
    | with_reducible apply Only.foldl
    | with_reducible apply State.onChan_only
    | (with_reducible refine Only.ite (fun _ => ?_) (fun _ => ?_))
    | split
    | exact Fld.sub_trans (by decide) hs
    | intro _
    | dsimp only

theorem State.checkBind_only {w : List Fld} {s u : State} (h : Only w s u) (x1 : Nat)
    (hs : Fld.sub [.gst, .chans, .fdw, .colls, .stakes, .vc0] w = true := by decide) : Only w s (State.checkBind u x1) := by
  unfold State.checkBind
  repeat' first
    | with_reducible assumption
    | with_reducible apply Only.foldl
    | with_reducible apply State.pauseChan_only
    | with_reducible apply State.halt_only
    | with_reducible apply State.setChan_only
    | (with_reducible refine Only.ite (fun _ => ?_) (fun _ => ?_))
    | split
    | exact Fld.sub_trans (by decide) hs
    | intro _
    | dsimp only

theorem State.startDesc_only {w : List Fld} {s u : State} (h : Only w s u) (x1 : Nat) (x2 : Bool)
    (hs : Fld.sub [.gst, .chans, .fdw, .colls, .stakes, .vc0] w = true := by decide) : Only w s (State.startDesc u x1 x2) := by
  unfold State.startDesc
  repeat' first
    | with_reducible assumption
    | with_reducible apply Only.foldl
    | with_reducible apply State.checkBind_only
    | with_reducible apply State.setChan_only
    | (with_reducible refine Only.ite (fun _ => ?_) (fun _ => ?_))
    | split
    | exact Fld.sub_trans (by decide) hs
    | intro _
    | dsimp only

theorem State.evtServe_only {w : List Fld} {s u : State} (h : Only w s u) (x0 : Nat) (x2 : Nat)
    (hs : Fld.sub [.gst, .chans, .fdw, .colls, .stakes, .vc0] w = true := by decide) : Only w s (State.evtServe x0 u x2) := by
  induction x0 generalizing u x2 with
  | zero => unfold State.evtServe; exact h
  | succ n ih =>
    unfold State.evtServe
    repeat' first
      | with_reducible assumption
      | with_reducible apply Only.foldl
      | with_reducible apply ih
      | with_reducible apply State.startDesc_only
      | with_reducible apply State.setEvtIn_only
      | (with_reducible refine Only.ite (fun _ => ?_) (fun _ => ?_))
      | split
      | exact Fld.sub_trans (by decide) hs
      | intro _
      | dsimp only

theorem State.tryTrigger_only {w : List Fld} {s u : State} (h : Only w s u) (x1 : Nat)
    (hs : Fld.sub [.gst, .chans, .fdw, .colls, .stakes, .vc0] w = true := by decide) : Only w s (State.tryTrigger u x1) := by
  unfold State.tryTrigger
  repeat' first
    | with_reducible assumption
    | with_reducible apply Only.foldl
    | with_reducible apply State.evtServe_only
    | with_reducible apply State.startDesc_only
    | (with_reducible refine Only.ite (fun _ => ?_) (fun _ => ?_))
    | split
    | exact Fld.sub_trans (by decide) hs
    | intro _
    | dsimp only

theorem State.bind_only {w : List Fld} {s u : State} (h : Only w s u) (x1 : Nat) (x2 : Bind)
    (hs : Fld.sub [.gst, .chans, .fdw, .colls, .stakes, .vc0] w = true := by decide) : Only w s (State.bind u x1 x2) := by
  unfold State.bind
  repeat' first
    | with_reducible assumption
    | with_reducible apply Only.foldl
    | with_reducible apply State.tryTrigger_only
    | with_reducible apply State.halt_only
    | with_reducible apply State.setChan_only
    | with_reducible apply State.report_only
    | (with_reducible refine Only.ite (fun _ => ?_) (fun _ => ?_))
    | split
    | exact Fld.sub_trans (by decide) hs
    | intro _
    | dsimp only

theorem State.bindIssue_only {w : List Fld} {s u : State} (h : Only w s u) (x1 : Nat) (x2 : BitVec 12) (x3 : Word) (x4 : List Word)
    (hs : Fld.sub [.gst, .chans, .fdw, .colls, .stakes, .vc0] w = true := by decide) : Only w s (State.bindIssue u x1 x2 x3 x4) := by
  unfold State.bindIssue
  repeat' first
    | with_reducible assumption
    | with_reducible apply Only.foldl
    | with_reducible apply State.bind_only
    | (with_reducible refine Only.ite (fun _ => ?_) (fun _ => ?_))
    | split
    | exact Fld.sub_trans (by decide) hs
    | intro _
    | dsimp only

theorem State.endBinds_only {w : List Fld} {s u : State} (h : Only w s u) (x1 : BitVec 12) (x2 : Word)
    (hs : Fld.sub [.gst, .chans, .fdw, .colls, .stakes, .vc0] w = true := by decide) : Only w s (State.endBinds u x1 x2) := by
  unfold State.endBinds
  repeat' first
    | with_reducible assumption
    | with_reducible apply Only.foldl
    | with_reducible apply State.halt_only
    | (with_reducible refine Only.ite (fun _ => ?_) (fun _ => ?_))
    | split
    | exact Fld.sub_trans (by decide) hs
    | intro _
    | dsimp only

theorem State.fillChan_only {w : List Fld} {s u : State} (h : Only w s u) (x1 : Nat)
    (hs : Fld.sub [.chans] w = true := by decide) : Only w s (State.fillChan u x1) := by
  unfold State.fillChan
  repeat' first
    | with_reducible assumption
    | with_reducible apply Only.foldl
    | with_reducible apply State.onChan_only
    | (with_reducible refine Only.ite (fun _ => ?_) (fun _ => ?_))
    | split
    | exact Fld.sub_trans (by decide) hs
    | intro _
    | dsimp only

theorem State.dropBind_only {w : List Fld} {s u : State} (h : Only w s u) (x1 : Nat)
    (hs : Fld.sub [.chans] w = true := by decide) : Only w s (State.dropBind u x1) := by
  unfold State.dropBind
  repeat' first
    | with_reducible assumption
    | with_reducible apply Only.foldl
    | with_reducible apply State.fillChan_only
    | with_reducible apply State.onChan_only
    | (with_reducible refine Only.ite (fun _ => ?_) (fun _ => ?_))
    | split
    | exact Fld.sub_trans (by decide) hs
    | intro _
    | dsimp only

theorem State.chanTriggers_only {w : List Fld} {s u : State} (h : Only w s u) 
    (hs : Fld.sub [.gst, .chans, .fdw, .colls, .stakes, .vc0] w = true := by decide) : Only w s (State.chanTriggers u) := by
  unfold State.chanTriggers
  repeat' first
    | with_reducible assumption
    | with_reducible apply Only.foldl
    | with_reducible apply State.tryTrigger_only
    | (with_reducible refine Only.ite (fun _ => ?_) (fun _ => ?_))
    | split
    | exact Fld.sub_trans (by decide) hs
    | intro _
    | dsimp only

theorem State.makeCurrent_only {w : List Fld} {s u : State} (h : Only w s u) (x1 : Nat) (x2 : BitVec 44) (x3 : List Word) (x4 : Bool)
    (hs : Fld.sub [.gst, .chans, .fdw, .colls, .stakes, .vc0] w = true := by decide) : Only w s (State.makeCurrent u x1 x2 x3 x4) := by
  unfold State.makeCurrent
  repeat' first
    | with_reducible assumption
    | with_reducible apply Only.foldl
    | with_reducible apply State.tryTrigger_only
    | with_reducible apply State.halt_only
    | with_reducible apply State.setChan_only
    | (with_reducible refine Only.ite (fun _ => ?_) (fun _ => ?_))
    | split
    | exact Fld.sub_trans (by decide) hs
    | intro _
    | dsimp only

theorem State.complete_only {w : List Fld} {s u : State} (h : Only w s u) (x1 : Nat)
    (hs : Fld.sub [.gst, .chans, .fdw, .hoopNet, .colls, .stakes, .vc0] w = true := by decide) : Only w s (State.complete u x1) := by
  unfold State.complete
  repeat' first
    | with_reducible assumption
    | with_reducible apply Only.foldl
    | with_reducible apply State.makeCurrent_only
    | with_reducible apply State.chanTriggers_only
    | with_reducible apply State.setChan_only
    | with_reducible apply State.pulse_only
    | with_reducible apply State.signal_only
    | (with_reducible refine Only.ite (fun _ => ?_) (fun _ => ?_))
    | split
    | exact Fld.sub_trans (by decide) hs
    | intro _
    | dsimp only

theorem State.finishDesc_only {w : List Fld} {s u : State} (h : Only w s u) (x1 : Nat)
    (hs : Fld.sub [.gst, .chans, .fdw, .hoopNet, .colls, .stakes, .vc0] w = true := by decide) : Only w s (State.finishDesc u x1) := by
  unfold State.finishDesc
  repeat' first
    | with_reducible assumption
    | with_reducible apply Only.foldl
    | with_reducible apply State.complete_only
    | with_reducible apply State.setChan_only
    | (with_reducible refine Only.ite (fun _ => ?_) (fun _ => ?_))
    | split
    | exact Fld.sub_trans (by decide) hs
    | intro _
    | dsimp only

theorem State.popBind_only {w : List Fld} {s u : State} (h : Only w s u) (x1 : Nat)
    (hs : Fld.sub [.gst, .chans, .fdw, .colls, .stakes, .vc0] w = true := by decide) : Only w s (State.popBind u x1) := by
  unfold State.popBind
  repeat' first
    | with_reducible assumption
    | with_reducible apply Only.foldl
    | with_reducible apply State.dropBind_only
    | with_reducible apply State.checkBind_only
    | (with_reducible refine Only.ite (fun _ => ?_) (fun _ => ?_))
    | split
    | exact Fld.sub_trans (by decide) hs
    | intro _
    | dsimp only

theorem State.sinkStart_only {w : List Fld} {s u : State} (h : Only w s u) (x1 : Nat) (x2 : EndFor)
    (hs : Fld.sub [.chans] w = true := by decide) : Only w s (State.sinkStart u x1 x2) := by
  unfold State.sinkStart
  repeat' first
    | with_reducible assumption
    | with_reducible apply Only.foldl
    | with_reducible apply State.onChan_only
    | (with_reducible refine Only.ite (fun _ => ?_) (fun _ => ?_))
    | split
    | exact Fld.sub_trans (by decide) hs
    | intro _
    | dsimp only

theorem State.sinkEnd_only {w : List Fld} {s u : State} (h : Only w s u) (x1 : Nat)
    (hs : Fld.sub [.gst, .chans, .fdw, .hoopNet, .colls, .stakes, .vc0] w = true := by decide) : Only w s (State.sinkEnd u x1) := by
  unfold State.sinkEnd
  repeat' first
    | with_reducible assumption
    | with_reducible apply Only.foldl
    | with_reducible apply State.sinkStart_only
    | with_reducible apply State.popBind_only
    | with_reducible apply State.finishDesc_only
    | with_reducible apply State.dropBind_only
    | (with_reducible refine Only.ite (fun _ => ?_) (fun _ => ?_))
    | split
    | exact Fld.sub_trans (by decide) hs
    | intro _
    | dsimp only

theorem State.giveSink_only {w : List Fld} {s u : State} (h : Only w s u) (x1 : Coll) (x2 : Member) (x3 : List (SinkAt × List Byte)) (x4 : Bool)
    (hs : Fld.sub [.gst, .chans, .fdw, .hoopNet, .colls, .stakes, .vc0] w = true := by decide) : Only w s (State.giveSink u x1 x2 x3 x4) := by
  unfold State.giveSink
  repeat' first
    | with_reducible assumption
    | with_reducible apply Only.foldl
    | with_reducible apply State.sinkEnd_only
    | with_reducible apply State.fillChan_only
    | with_reducible apply State.onChan_only
    | (with_reducible refine Only.ite (fun _ => ?_) (fun _ => ?_))
    | split
    | exact Fld.sub_trans (by decide) hs
    | intro _
    | dsimp only

theorem State.oweRest_only {w : List Fld} {s u : State} (h : Only w s u) (x1 : Coll) (x2 : Member)
    (hs : Fld.sub [.ports] w = true := by decide) : Only w s (State.oweRest u x1 x2) := by
  unfold State.oweRest
  repeat' first
    | with_reducible assumption
    | with_reducible apply Only.foldl
    | with_reducible apply State.onPort_only
    | (with_reducible refine Only.ite (fun _ => ?_) (fun _ => ?_))
    | split
    | exact Fld.sub_trans (by decide) hs
    | intro _
    | dsimp only

theorem State.putTok_only {w : List Fld} {s u : State} (h : Only w s u) (x1 : Nat) (x2 : BitVec 12) (x3 : Word) (x4 : List Word)
    (hs : Fld.sub [.ports] w = true := by decide) : Only w s (State.putTok u x1 x2 x3 x4) := by
  unfold State.putTok
  repeat' first
    | with_reducible assumption
    | with_reducible apply Only.foldl
    | with_reducible apply State.onPort_only
    | (with_reducible refine Only.ite (fun _ => ?_) (fun _ => ?_))
    | split
    | exact Fld.sub_trans (by decide) hs
    | intro _
    | dsimp only

theorem State.rxWale_only {w : List Fld} {s u : State} (h : Only w s u) (x1 : Nat) (x2 : BitVec 12) (x3 : Word) (x4 : Nat) (x5 : List Byte)
    (hs : Fld.sub [.ports] w = true := by decide) : Only w s (State.rxWale u x1 x2 x3 x4 x5) := by
  unfold State.rxWale
  repeat' first
    | with_reducible assumption
    | with_reducible apply Only.foldl
    | with_reducible apply State.onPort_only
    | (with_reducible refine Only.ite (fun _ => ?_) (fun _ => ?_))
    | split
    | exact Fld.sub_trans (by decide) hs
    | intro _
    | dsimp only

theorem State.endMember_only {w : List Fld} {s u : State} (h : Only w s u) (x1 : Coll) (x2 : Member) (x3 : List Word)
    (hs : Fld.sub [.gst, .chans, .fdw, .hoopNet, .ports, .colls, .stakes, .vc0] w = true := by decide) : Only w s (State.endMember u x1 x2 x3) := by
  unfold State.endMember
  repeat' first
    | with_reducible assumption
    | with_reducible apply Only.foldl
    | with_reducible apply State.rxWale_only
    | with_reducible apply State.putTok_only
    | with_reducible apply State.oweRest_only
    | with_reducible apply State.giveSink_only
    | with_reducible apply State.onColl_only
    | (with_reducible refine Only.ite (fun _ => ?_) (fun _ => ?_))
    | split
    | exact Fld.sub_trans (by decide) hs
    | intro _
    | dsimp only

theorem State.cutHere_only {w : List Fld} {s u : State} (h : Only w s u) (x1 : BitVec 12) (x2 : Word) (x3 : Nat)
    (hs : Fld.sub [.gst, .colls, .stakes, .vc0] w = true := by decide) : Only w s (State.cutHere u x1 x2 x3) := by
  unfold State.cutHere
  repeat' first
    | with_reducible assumption
    | with_reducible apply Only.foldl
    | with_reducible apply State.report_only
    | with_reducible apply State.cutSide_only
    | (with_reducible refine Only.ite (fun _ => ?_) (fun _ => ?_))
    | split
    | exact Fld.sub_trans (by decide) hs
    | intro _
    | dsimp only

theorem State.orFail_only {w : List Fld} {s u : State} (h : Only w s u) (x1 : BitVec 12) (x2 : Word) (x3 : Nat) (x4 : Nat) (x5 : Sent) (hr : Sent.Only w s x5)
    (hs : Fld.sub [.gst, .colls, .stakes, .vc0] w = true := by decide) : Only w s (State.orFail u x1 x2 x3 x4 x5) := by
  cases x5 with
  | ok t => exact hr
  | fault => exact State.report_only (State.logRoute_only h _ _ _ _ _ _ _ (Fld.sub_trans (by decide) hs)) _ _ _ _ _ _ _ (Fld.sub_trans (by decide) hs)
  | down n => exact State.cutHere_only h _ _ _ (Fld.sub_trans (by decide) hs)

theorem State.send_only {w : List Fld} {s u : State} (h : Only w s u) (x1 : Nat) (x2 : BitVec 12) (x3 : Word) (x4 : Body) (x5 : optParam (BitVec 16) 0)
    (hs : Fld.sub [.gst, .colls, .stakes, .vc0] w = true := by decide) : Only w s (State.send u x1 x2 x3 x4 x5) := by
  unfold State.send
  repeat' first
    | with_reducible assumption
    | with_reducible apply Only.foldl
    | with_reducible apply State.orFail_only
    | (with_reducible refine Only.ite (fun _ => ?_) (fun _ => ?_))
    | split
    | exact True.intro
    | with_reducible apply State.sendRaw_only
    | (refine Sent.Only.ok (State.sendRaw_only ?_ _ _ ?_) (by assumption))
    | exact Fld.sub_trans (by decide) hs
    | intro _
    | dsimp only

theorem State.releaseRound_only {w : List Fld} {s u : State} (h : Only w s u) (x1 : BitVec 12) (x2 : Word)
    (hs : Fld.sub [.gst, .colls, .stakes, .vc0] w = true := by decide) : Only w s (State.releaseRound u x1 x2) := by
  unfold State.releaseRound
  repeat' first
    | with_reducible assumption
    | with_reducible apply Only.foldl
    | with_reducible apply State.send_only
    | (with_reducible refine Only.ite (fun _ => ?_) (fun _ => ?_))
    | split
    | exact Fld.sub_trans (by decide) hs
    | intro _
    | dsimp only

theorem State.updEmit_only {w : List Fld} {s u : State} (h : Only w s u) (x1 : Coll)
    (hs : Fld.sub [.colls, .upd] w = true := by decide) : Only w s (State.updEmit u x1) := by
  unfold State.updEmit
  repeat' first
    | with_reducible assumption
    | with_reducible apply Only.foldl
    | with_reducible apply State.putColl_only
    | (with_reducible refine Only.ite (fun _ => ?_) (fun _ => ?_))
    | split
    | ((with_reducible refine Only.put_upd ?_ _ ?hm); case hm => exact Fld.sub_contains hs (by decide))
    | exact Fld.sub_trans (by decide) hs
    | intro _
    | dsimp only

theorem State.updPump_only {w : List Fld} {s u : State} (h : Only w s u) (x0 : Nat)
    (hs : Fld.sub [.colls, .upd] w = true := by decide) : Only w s (State.updPump x0 u) := by
  induction x0 generalizing u  with
  | zero => unfold State.updPump; exact h
  | succ n ih =>
    unfold State.updPump
    repeat' first
      | with_reducible assumption
      | with_reducible apply Only.foldl
      | with_reducible apply ih
      | with_reducible apply State.updEmit_only
      | (with_reducible refine Only.ite (fun _ => ?_) (fun _ => ?_))
      | split
      | exact Fld.sub_trans (by decide) hs
      | intro _
      | dsimp only

theorem State.updPut_only {w : List Fld} {s u : State} (h : Only w s u) (x1 : BitVec 12) (x2 : Word) (x3 : URec) (x4 : Bool)
    (hs : Fld.sub [.colls, .upd] w = true := by decide) : Only w s (State.updPut u x1 x2 x3 x4) := by
  unfold State.updPut
  repeat' first
    | with_reducible assumption
    | with_reducible apply Only.foldl
    | with_reducible apply State.updPump_only
    | with_reducible apply State.onColl_only
    | (with_reducible refine Only.ite (fun _ => ?_) (fun _ => ?_))
    | split
    | exact Fld.sub_trans (by decide) hs
    | intro _
    | dsimp only

theorem State.decideAbort_only {w : List Fld} {s u : State} (h : Only w s u) (x1 : BitVec 12) (x2 : Word) (x3 : Nat) (x4 : Nat) (x5 : Nat) (x6 : Nat)
    (hs : Fld.sub [.gst, .adm, .colls, .stakes, .upd, .vc0] w = true := by decide) : Only w s (State.decideAbort u x1 x2 x3 x4 x5 x6) := by
  unfold State.decideAbort
  repeat' first
    | with_reducible assumption
    | with_reducible apply Only.foldl
    | with_reducible apply State.updPut_only
    | with_reducible apply State.releaseRound_only
    | with_reducible apply State.post_only
    | with_reducible apply State.onColl_only
    | with_reducible apply State.logEv_only
    | (with_reducible refine Only.ite (fun _ => ?_) (fun _ => ?_))
    | split
    | ((with_reducible refine Only.put_adm ?_ _ ?hm); case hm => exact Fld.sub_contains hs (by decide))
    | exact Fld.sub_trans (by decide) hs
    | intro _
    | dsimp only

theorem State.refuseColl_only {w : List Fld} {s u : State} (h : Only w s u) (x1 : BitVec 12) (x2 : Word)
    (hs : Fld.sub [.gst, .adm, .colls, .stakes, .vc0] w = true := by decide) : Only w s (State.refuseColl u x1 x2) := by
  unfold State.refuseColl
  repeat' first
    | with_reducible assumption
    | with_reducible apply Only.foldl
    | with_reducible apply State.releaseRound_only
    | with_reducible apply State.post_only
    | (with_reducible refine Only.ite (fun _ => ?_) (fun _ => ?_))
    | split
    | ((with_reducible refine Only.put_adm ?_ _ ?hm); case hm => exact Fld.sub_contains hs (by decide))
    | exact Fld.sub_trans (by decide) hs
    | intro _
    | dsimp only

theorem State.startRound_only {w : List Fld} {s u : State} (h : Only w s u) (x1 : BitVec 12) (x2 : Word)
    (hs : Fld.sub [.gst, .colls, .stakes, .vc0] w = true := by decide) : Only w s (State.startRound u x1 x2) := by
  unfold State.startRound
  repeat' first
    | with_reducible assumption
    | with_reducible apply Only.foldl
    | with_reducible apply State.send_only
    | with_reducible apply State.onColl_only
    | (with_reducible refine Only.ite (fun _ => ?_) (fun _ => ?_))
    | split
    | exact Fld.sub_trans (by decide) hs
    | intro _
    | dsimp only

theorem State.agDecide_only {w : List Fld} {s u : State} (h : Only w s u) (x1 : BitVec 12) (x2 : Word) (x3 : AgIn)
    (hs : Fld.sub [.gst, .adm, .colls, .stakes, .upd, .vc0] w = true := by decide) : Only w s (State.agDecide u x1 x2 x3) := by
  unfold State.agDecide
  repeat' first
    | with_reducible assumption
    | with_reducible apply Only.foldl
    | with_reducible apply State.startRound_only
    | with_reducible apply State.refuseColl_only
    | with_reducible apply State.decideAbort_only
    | with_reducible apply State.onColl_only
    | with_reducible apply State.logEv_only
    | (with_reducible refine Only.ite (fun _ => ?_) (fun _ => ?_))
    | split
    | exact Fld.sub_trans (by decide) hs
    | intro _
    | dsimp only

theorem State.logMismatch_only {w : List Fld} {s u : State} (h : Only w s u) (x1 : BitVec 12) (x2 : Word) (x3 : Nat)
    (hs : Fld.sub [.gst] w = true := by decide) : Only w s (State.logMismatch u x1 x2 x3) := by
  unfold State.logMismatch
  repeat' first
    | with_reducible assumption
    | with_reducible apply Only.foldl
    | with_reducible apply State.logEv_only
    | (with_reducible refine Only.ite (fun _ => ?_) (fun _ => ?_))
    | split
    | exact Fld.sub_trans (by decide) hs
    | intro _
    | dsimp only

theorem State.sendEdge_only {w : List Fld} {s u : State} (h : Only w s u) (x1 : Nat) (x2 : Nat) (x3 : Nat) (x4 : BitVec 12) (x5 : Word) (x6 : Body) (x7 : optParam (BitVec 16) 0)
    (hs : Fld.sub [.gst, .colls, .stakes, .vc0] w = true := by decide) : Only w s (State.sendEdge u x1 x2 x3 x4 x5 x6 x7) := by
  unfold State.sendEdge
  repeat' first
    | with_reducible assumption
    | with_reducible apply Only.foldl
    | with_reducible apply State.orFail_only
    | (with_reducible refine Only.ite (fun _ => ?_) (fun _ => ?_))
    | split
    | exact True.intro
    | with_reducible apply State.sendRaw_only
    | (refine Sent.Only.ok (State.sendRaw_only ?_ _ _ ?_) (by assumption))
    | exact Fld.sub_trans (by decide) hs
    | intro _
    | dsimp only

theorem State.sendUp_only {w : List Fld} {s u : State} (h : Only w s u) (x1 : Chain) (x2 : BitVec 12) (x3 : Word) (x4 : Body) (x5 : optParam (BitVec 16) 0)
    (hs : Fld.sub [.gst, .colls, .stakes, .vc0] w = true := by decide) : Only w s (State.sendUp u x1 x2 x3 x4 x5) := by
  unfold State.sendUp
  repeat' first
    | with_reducible assumption
    | with_reducible apply Only.foldl
    | with_reducible apply State.sendEdge_only
    | (with_reducible refine Only.ite (fun _ => ?_) (fun _ => ?_))
    | split
    | exact Fld.sub_trans (by decide) hs
    | intro _
    | dsimp only

theorem State.gatherChain_only {w : List Fld} {s u : State} (h : Only w s u) (x1 : BitVec 12) (x2 : Word) (x3 : Chain)
    (hs : Fld.sub [.gst, .adm, .colls, .stakes, .upd, .vc0] w = true := by decide) : Only w s (State.gatherChain u x1 x2 x3) := by
  unfold State.gatherChain
  repeat' first
    | with_reducible assumption
    | with_reducible apply Only.foldl
    | with_reducible apply State.sendUp_only
    | with_reducible apply State.logMismatch_only
    | with_reducible apply State.agDecide_only
    | with_reducible apply State.onColl_only
    | (with_reducible refine Only.ite (fun _ => ?_) (fun _ => ?_))
    | split
    | exact Fld.sub_trans (by decide) hs
    | intro _
    | dsimp only

theorem State.gather_only {w : List Fld} {s u : State} (h : Only w s u) (x1 : BitVec 12) (x2 : Word)
    (hs : Fld.sub [.gst, .adm, .colls, .stakes, .upd, .vc0] w = true := by decide) : Only w s (State.gather u x1 x2) := by
  unfold State.gather
  repeat' first
    | with_reducible assumption
    | with_reducible apply Only.foldl
    | with_reducible apply State.gatherChain_only
    | (with_reducible refine Only.ite (fun _ => ?_) (fun _ => ?_))
    | split
    | exact Fld.sub_trans (by decide) hs
    | intro _
    | dsimp only

theorem State.pair_only {w : List Fld} {s u : State} (h : Only w s u) (x1 : BitVec 12) (x2 : Word) (x3 : Word)
    (hs : Fld.sub [.colls] w = true := by decide) : Only w s (State.pair u x1 x2 x3).2 := by
  unfold State.pair
  repeat' first
    | with_reducible assumption
    | with_reducible apply Only.foldl
    | with_reducible apply State.onColl_only
    | (with_reducible refine Only.ite (fun _ => ?_) (fun _ => ?_))
    | split
    | ((with_reducible refine Only.put_colls ?_ _ ?hm); case hm => exact Fld.sub_contains hs (by decide))
    | exact Fld.sub_trans (by decide) hs
    | intro _
    | dsimp only

theorem State.freeEntryOf_only {w : List Fld} {s u : State} (h : Only w s u) (x1 : Coll)
    (hs : Fld.sub [.col] w = true := by decide) : Only w s (State.freeEntryOf u x1) := by
  unfold State.freeEntryOf
  repeat' first
    | with_reducible assumption
    | with_reducible apply Only.foldl
    | (with_reducible refine Only.ite (fun _ => ?_) (fun _ => ?_))
    | split
    | ((with_reducible refine Only.put_col ?_ _ ?hm); case hm => exact Fld.sub_contains hs (by decide))
    | exact Fld.sub_trans (by decide) hs
    | intro _
    | dsimp only

theorem State.reap_only {w : List Fld} {s u : State} (h : Only w s u) (x1 : BitVec 12) (x2 : Word)
    (hs : Fld.sub [.colls, .col] w = true := by decide) : Only w s (State.reap u x1 x2) := by
  unfold State.reap
  repeat' first
    | with_reducible assumption
    | with_reducible apply Only.foldl
    | with_reducible apply State.freeEntryOf_only
    | with_reducible apply State.onColl_only
    | (with_reducible refine Only.ite (fun _ => ?_) (fun _ => ?_))
    | split
    | ((with_reducible refine Only.put_colls ?_ _ ?hm); case hm => exact Fld.sub_contains hs (by decide))
    | exact Fld.sub_trans (by decide) hs
    | intro _
    | dsimp only

theorem State.issueNow_only {w : List Fld} {s u : State} (h : Only w s u) (x1 : Nat) (x2 : List Word) (x3 : List Word)
    (hs : Fld.sub [.gst, .adm, .chans, .fdw, .hoopNet, .ports, .colls, .col, .stakes, .upd, .vc0] w = true := by decide) : Only w s (State.issueNow u x1 x2 x3) := by
  unfold State.issueNow
  repeat' first
    | with_reducible assumption
    | with_reducible apply Only.foldl
    | with_reducible apply State.reap_only
    | with_reducible apply State.pair_only
    | with_reducible apply State.gather_only
    | with_reducible apply State.endMember_only
    | with_reducible apply State.endBinds_only
    | with_reducible apply State.bindIssue_only
    | with_reducible apply State.badWord0_only
    | with_reducible apply State.onColl_only
    | with_reducible apply State.logEv_only
    | with_reducible apply State.status_only
    | with_reducible apply State.onPort_only
    | (with_reducible refine Only.ite (fun _ => ?_) (fun _ => ?_))
    | split
    | exact Fld.sub_trans (by decide) hs
    | intro _
    | dsimp only

theorem State.drain_only {w : List Fld} {s u : State} (h : Only w s u) (x0 : Nat) (x2 : Nat)
    (hs : Fld.sub [.gst, .adm, .chans, .fdw, .hoops, .hoopNet, .ports, .colls, .col, .stakes, .upd, .vc0] w = true := by decide) : Only w s (State.drain x0 u x2) := by
  induction x0 generalizing u x2 with
  | zero => unfold State.drain; exact h
  | succ n ih =>
    unfold State.drain
    repeat' first
      | with_reducible assumption
      | with_reducible apply Only.foldl
      | with_reducible apply ih
      | with_reducible apply State.issueNow_only
      | with_reducible apply State.hoopCmd_only
      | with_reducible apply State.onPort_only
      | (with_reducible refine Only.ite (fun _ => ?_) (fun _ => ?_))
      | split
      | exact Fld.sub_trans (by decide) hs
      | intro _
      | dsimp only

theorem State.feedEnd_only {w : List Fld} {s u : State} (h : Only w s u) (x1 : Nat)
    (hs : Fld.sub [.gst, .chans, .fdw, .hoopNet, .colls, .stakes, .vc0] w = true := by decide) : Only w s (State.feedEnd u x1) := by
  unfold State.feedEnd
  repeat' first
    | with_reducible assumption
    | with_reducible apply Only.foldl
    | with_reducible apply State.finishDesc_only
    | (with_reducible refine Only.ite (fun _ => ?_) (fun _ => ?_))
    | split
    | exact Fld.sub_trans (by decide) hs
    | intro _
    | dsimp only

theorem State.opportunity_only {w : List Fld} {s u : State} (h : Only w s u) (x1 : Nat)
    (hs : Fld.sub [.pwr] w = true := by decide) : Only w s (State.opportunity u x1).2 := by
  unfold State.opportunity
  repeat' first
    | with_reducible assumption
    | with_reducible apply Only.foldl
    | (with_reducible refine Only.ite (fun _ => ?_) (fun _ => ?_))
    | split
    | ((with_reducible refine Only.put_pwr ?_ _ ?hm); case hm => exact Fld.sub_contains hs (by decide))
    | exact Fld.sub_trans (by decide) hs
    | intro _
    | dsimp only

theorem State.countWale_only {w : List Fld} {s u : State} (h : Only w s u) (x1 : Coll) (x2 : Member) (x3 : List Byte)
    (hs : Fld.sub [.colls] w = true := by decide) : Only w s (State.countWale u x1 x2 x3) := by
  unfold State.countWale
  repeat' first
    | with_reducible assumption
    | with_reducible apply Only.foldl
    | with_reducible apply State.onColl_only
    | (with_reducible refine Only.ite (fun _ => ?_) (fun _ => ?_))
    | split
    | exact Fld.sub_trans (by decide) hs
    | intro _
    | dsimp only

theorem State.latchSkew_only {w : List Fld} {s u : State} (h : Only w s u) (x1 : BitVec 12) (x2 : Word) (x3 : BitVec 64) (x4 : BitVec 64)
    (hs : Fld.sub [.upd] w = true := by decide) : Only w s (State.latchSkew u x1 x2 x3 x4) := by
  unfold State.latchSkew
  repeat' first
    | with_reducible assumption
    | with_reducible apply Only.foldl
    | (with_reducible refine Only.ite (fun _ => ?_) (fun _ => ?_))
    | split
    | ((with_reducible refine Only.put_upd ?_ _ ?hm); case hm => exact Fld.sub_contains hs (by decide))
    | exact Fld.sub_trans (by decide) hs
    | intro _
    | dsimp only

theorem State.stepSkew_only {w : List Fld} {s u : State} (h : Only w s u) (x1 : BitVec 12) (x2 : Word) (x3 : BitVec 64) (x4 : BitVec 64)
    (hs : Fld.sub [.gst, .adm, .colls, .stakes, .upd, .vc0] w = true := by decide) : Only w s (State.stepSkew u x1 x2 x3 x4) := by
  unfold State.stepSkew
  repeat' first
    | with_reducible assumption
    | with_reducible apply Only.foldl
    | with_reducible apply State.latchSkew_only
    | with_reducible apply State.decideAbort_only
    | with_reducible apply State.logEv_only
    | (with_reducible refine Only.ite (fun _ => ?_) (fun _ => ?_))
    | split
    | exact Fld.sub_trans (by decide) hs
    | intro _
    | dsimp only

theorem State.takeStep_only {w : List Fld} {s u : State} (h : Only w s u) (x1 : BitVec 12) (x2 : Word) (x3 : BitVec 64 × BitVec 64)
    (hs : Fld.sub [.gst, .adm, .colls, .stakes, .upd, .vc0] w = true := by decide) : Only w s (State.takeStep u x1 x2 x3) := by
  unfold State.takeStep
  repeat' first
    | with_reducible assumption
    | with_reducible apply Only.foldl
    | with_reducible apply State.stepSkew_only
    | with_reducible apply State.onColl_only
    | (with_reducible refine Only.ite (fun _ => ?_) (fun _ => ?_))
    | split
    | exact Fld.sub_trans (by decide) hs
    | intro _
    | dsimp only

theorem State.rootArrive_only {w : List Fld} {s u : State} (h : Only w s u) (x1 : BitVec 12) (x2 : Word) (x3 : Nat) (x4 : WaleV)
    (hs : Fld.sub [.gst, .adm, .colls, .stakes, .upd, .vc0] w = true := by decide) : Only w s (State.rootArrive u x1 x2 x3 x4) := by
  unfold State.rootArrive
  repeat' first
    | with_reducible assumption
    | with_reducible apply Only.foldl
    | with_reducible apply State.takeStep_only
    | with_reducible apply State.onColl_only
    | (with_reducible refine Only.ite (fun _ => ?_) (fun _ => ?_))
    | split
    | exact Fld.sub_trans (by decide) hs
    | intro _
    | dsimp only

theorem State.handTo_only {w : List Fld} {s u : State} (h : Only w s u) (x1 : Coll) (x2 : Tgt) (x3 : Option Nat) (x4 : WaleV)
    (hs : Fld.sub [.gst, .adm, .colls, .stakes, .upd, .vc0] w = true := by decide) : Only w s (State.handTo u x1 x2 x3 x4) := by
  unfold State.handTo
  repeat' first
    | with_reducible assumption
    | with_reducible apply Only.foldl
    | with_reducible apply State.rootArrive_only
    | with_reducible apply State.orFail_only
    | with_reducible apply State.onColl_only
    | (with_reducible refine Only.ite (fun _ => ?_) (fun _ => ?_))
    | split
    | exact True.intro
    | with_reducible apply State.sendSeg_only
    | (refine Sent.Only.ok (State.sendSeg_only ?_ _ _ _ _ _ _ _ _ _ _ ?_) (by assumption))
    | exact Fld.sub_trans (by decide) hs
    | intro _
    | dsimp only

theorem State.residue_only {w : List Fld} {s u : State} (h : Only w s u) (x1 : Coll) (x2 : Nat) (x3 : Nat) (x4 : Nat) (x5 : Nat) (x6 : Nat)
    (hs : Fld.sub [.gst, .colls, .stakes, .vc0] w = true := by decide) : Only w s (State.residue u x1 x2 x3 x4 x5 x6) := by
  unfold State.residue
  repeat' first
    | with_reducible assumption
    | with_reducible apply Only.foldl
    | with_reducible apply State.report_only
    | with_reducible apply State.logEv_only
    | (with_reducible refine Only.ite (fun _ => ?_) (fun _ => ?_))
    | split
    | exact Fld.sub_trans (by decide) hs
    | intro _
    | dsimp only

theorem State.forward_only {w : List Fld} {s u : State} (h : Only w s u) (x1 : Coll) (x2 : List Nat × Tgt) (x3 : Option Nat) (x4 : WaleV)
    (hs : Fld.sub [.gst, .adm, .colls, .stakes, .upd, .vc0] w = true := by decide) : Only w s (State.forward u x1 x2 x3 x4) := by
  unfold State.forward
  repeat' first
    | with_reducible assumption
    | with_reducible apply Only.foldl
    | with_reducible apply State.residue_only
    | with_reducible apply State.handTo_only
    | with_reducible apply State.onColl_only
    | (with_reducible refine Only.ite (fun _ => ?_) (fun _ => ?_))
    | split
    | exact Fld.sub_trans (by decide) hs
    | intro _
    | dsimp only

theorem State.stepTo_only {w : List Fld} {s u : State} (h : Only w s u) (x1 : Coll) (x2 : Tgt) (x3 : BitVec 64 × BitVec 64)
    (hs : Fld.sub [.gst, .adm, .colls, .stakes, .upd, .vc0] w = true := by decide) : Only w s (State.stepTo u x1 x2 x3) := by
  unfold State.stepTo
  repeat' first
    | with_reducible assumption
    | with_reducible apply Only.foldl
    | with_reducible apply State.takeStep_only
    | with_reducible apply State.orFail_only
    | with_reducible apply State.onColl_only
    | (with_reducible refine Only.ite (fun _ => ?_) (fun _ => ?_))
    | split
    | exact True.intro
    | with_reducible apply State.sendSeg_only
    | (refine Sent.Only.ok (State.sendSeg_only ?_ _ _ _ _ _ _ _ _ _ _ ?_) (by assumption))
    | exact Fld.sub_trans (by decide) hs
    | intro _
    | dsimp only

theorem State.passSteps_only {w : List Fld} {s u : State} (h : Only w s u) (x0 : Nat) (x2 : BitVec 12) (x3 : Word)
    (hs : Fld.sub [.gst, .adm, .colls, .stakes, .upd, .vc0] w = true := by decide) : Only w s (State.passSteps x0 u x2 x3) := by
  induction x0 generalizing u x2 x3 with
  | zero => unfold State.passSteps; exact h
  | succ n ih =>
    unfold State.passSteps
    repeat' first
      | with_reducible assumption
      | with_reducible apply Only.foldl
      | with_reducible apply ih
      | with_reducible apply State.stepTo_only
      | with_reducible apply State.onColl_only
      | (with_reducible refine Only.ite (fun _ => ?_) (fun _ => ?_))
      | split
      | exact Fld.sub_trans (by decide) hs
      | intro _
      | dsimp only

theorem State.deliverWale_only {w : List Fld} {s u : State} (h : Only w s u) (x1 : BitVec 12) (x2 : Word) (x3 : Chain) (x4 : Nat) (x5 : Nat) (x6 : List Byte)
    (hs : Fld.sub [.gst, .chans, .fdw, .hoopNet, .ports, .colls, .stakes, .vc0] w = true := by decide) : Only w s (State.deliverWale u x1 x2 x3 x4 x5 x6) := by
  unfold State.deliverWale
  repeat' first
    | with_reducible assumption
    | with_reducible apply Only.foldl
    | with_reducible apply State.orFail_only
    | with_reducible apply State.rxWale_only
    | with_reducible apply State.giveSink_only
    | with_reducible apply State.onColl_only
    | (with_reducible refine Only.ite (fun _ => ?_) (fun _ => ?_))
    | split
    | exact True.intro
    | with_reducible apply State.sendSeg_only
    | (refine Sent.Only.ok (State.sendSeg_only ?_ _ _ _ _ _ _ _ _ _ _ ?_) (by assumption))
    | exact Fld.sub_trans (by decide) hs
    | intro _
    | dsimp only

theorem State.release_only {w : List Fld} {s u : State} (h : Only w s u) (x1 : BitVec 12) (x2 : Word) (x3 : Nat) (x4 : List Byte) (x5 : Option (List Byte)) (x6 : Nat)
    (hs : Fld.sub [.gst, .chans, .fdw, .hoopNet, .ports, .colls, .stakes, .upd, .vc0] w = true := by decide) : Only w s (State.release u x1 x2 x3 x4 x5 x6) := by
  unfold State.release
  repeat' first
    | with_reducible assumption
    | with_reducible apply Only.foldl
    | with_reducible apply State.deliverWale_only
    | with_reducible apply State.updPut_only
    | with_reducible apply State.onColl_only
    | (with_reducible refine Only.ite (fun _ => ?_) (fun _ => ?_))
    | split
    | exact Fld.sub_trans (by decide) hs
    | intro _
    | dsimp only

theorem State.contribute_only {w : List Fld} {s u : State} (h : Only w s u) (x1 : Coll) (x2 : Member) (x3 : List Byte)
    (hs : Fld.sub [.gst, .adm, .chans, .fdw, .hoopNet, .ports, .colls, .stakes, .upd, .vc0] w = true := by decide) : Only w s (State.contribute u x1 x2 x3) := by
  unfold State.contribute
  repeat' first
    | with_reducible assumption
    | with_reducible apply Only.foldl
    | with_reducible apply State.release_only
    | with_reducible apply State.passSteps_only
    | with_reducible apply State.stepTo_only
    | with_reducible apply State.forward_only
    | with_reducible apply State.residue_only
    | with_reducible apply State.countWale_only
    | with_reducible apply State.onColl_only
    | (with_reducible refine Only.ite (fun _ => ?_) (fun _ => ?_))
    | split
    | exact Fld.sub_trans (by decide) hs
    | intro _
    | dsimp only

theorem State.exCorrupt_only {w : List Fld} {s u : State} (h : Only w s u) (x1 : BitVec 12) (x2 : Word) (x3 : Nat) (x4 : Word)
    (hs : Fld.sub [.gst, .colls, .stakes, .vc0] w = true := by decide) : Only w s (State.exCorrupt u x1 x2 x3 x4) := by
  unfold State.exCorrupt
  repeat' first
    | with_reducible assumption
    | with_reducible apply Only.foldl
    | with_reducible apply State.report_only
    | with_reducible apply State.logEv_only
    | (with_reducible refine Only.ite (fun _ => ?_) (fun _ => ?_))
    | split
    | exact Fld.sub_trans (by decide) hs
    | intro _
    | dsimp only

theorem State.exMismatch_only {w : List Fld} {s u : State} (h : Only w s u) (x1 : BitVec 12) (x2 : Word) (x3 : Nat)
    (hs : Fld.sub [.gst, .colls, .stakes, .vc0] w = true := by decide) : Only w s (State.exMismatch u x1 x2 x3) := by
  unfold State.exMismatch
  repeat' first
    | with_reducible assumption
    | with_reducible apply Only.foldl
    | with_reducible apply State.report_only
    | with_reducible apply State.logEv_only
    | (with_reducible refine Only.ite (fun _ => ?_) (fun _ => ?_))
    | split
    | exact Fld.sub_trans (by decide) hs
    | intro _
    | dsimp only

theorem State.onEx_only {w : List Fld} {s u : State} (h : Only w s u) (x1 : BitVec 12) (x2 : Word) (x3 : Nat) (x4 : ExMem → ExMem)
    (hs : Fld.sub [.colls] w = true := by decide) : Only w s (State.onEx u x1 x2 x3 x4) := by
  unfold State.onEx
  repeat' first
    | with_reducible assumption
    | with_reducible apply Only.foldl
    | with_reducible apply State.onColl_only
    | (with_reducible refine Only.ite (fun _ => ?_) (fun _ => ?_))
    | split
    | exact Fld.sub_trans (by decide) hs
    | intro _
    | dsimp only

theorem State.xcredit_only {w : List Fld} {s u : State} (h : Only w s u) (x1 : BitVec 12) (x2 : Word) (x3 : Nat) (x4 : Nat)
    (hs : Fld.sub [.gst, .colls, .stakes, .vc0] w = true := by decide) : Only w s (State.xcredit u x1 x2 x3 x4) := by
  unfold State.xcredit
  repeat' first
    | with_reducible assumption
    | with_reducible apply Only.foldl
    | with_reducible apply State.send_only
    | (with_reducible refine Only.ite (fun _ => ?_) (fun _ => ?_))
    | split
    | exact Fld.sub_trans (by decide) hs
    | intro _
    | dsimp only

theorem State.exAccept_only {w : List Fld} {s u : State} (h : Only w s u) (x1 : BitVec 12) (x2 : Word) (x3 : Nat) (x4 : Nat) (x5 : List Byte) (x6 : List (List Byte))
    (hs : Fld.sub [.gst, .colls, .stakes, .vc0] w = true := by decide) : Only w s (State.exAccept u x1 x2 x3 x4 x5 x6) := by
  unfold State.exAccept
  repeat' first
    | with_reducible assumption
    | with_reducible apply Only.foldl
    | with_reducible apply State.xcredit_only
    | with_reducible apply State.onEx_only
    | with_reducible apply State.exMismatch_only
    | (with_reducible refine Only.ite (fun _ => ?_) (fun _ => ?_))
    | split
    | exact Fld.sub_trans (by decide) hs
    | intro _
    | dsimp only

theorem State.exEarly_only {w : List Fld} {s u : State} (h : Only w s u) (x1 : BitVec 12) (x2 : Word) (x3 : Nat)
    (hs : Fld.sub [.gst, .colls, .stakes, .vc0] w = true := by decide) : Only w s (State.exEarly u x1 x2 x3) := by
  unfold State.exEarly
  repeat' first
    | with_reducible assumption
    | with_reducible apply Only.foldl
    | with_reducible apply State.exAccept_only
    | with_reducible apply State.onEx_only
    | (with_reducible refine Only.ite (fun _ => ?_) (fun _ => ?_))
    | split
    | exact Fld.sub_trans (by decide) hs
    | intro _
    | dsimp only

theorem State.exFin_only {w : List Fld} {s u : State} (h : Only w s u) (x1 : BitVec 12) (x2 : Word) (x3 : Nat)
    (hs : Fld.sub [.colls] w = true := by decide) : Only w s (State.exFin u x1 x2 x3) := by
  unfold State.exFin
  repeat' first
    | with_reducible assumption
    | with_reducible apply Only.foldl
    | with_reducible apply State.onColl_only
    | (with_reducible refine Only.ite (fun _ => ?_) (fun _ => ?_))
    | split
    | exact Fld.sub_trans (by decide) hs
    | intro _
    | dsimp only

theorem State.exTerm_only {w : List Fld} {s u : State} (h : Only w s u) (x1 : BitVec 12) (x2 : Word) (x3 : Nat) (x4 : List Byte)
    (hs : Fld.sub [.colls] w = true := by decide) : Only w s (State.exTerm u x1 x2 x3 x4) := by
  unfold State.exTerm
  repeat' first
    | with_reducible assumption
    | with_reducible apply Only.foldl
    | with_reducible apply State.onColl_only
    | (with_reducible refine Only.ite (fun _ => ?_) (fun _ => ?_))
    | split
    | exact Fld.sub_trans (by decide) hs
    | intro _
    | dsimp only

theorem State.exCount_only {w : List Fld} {s u : State} (h : Only w s u) (x1 : Exc → Exc)
    (hs : Fld.sub [.exc] w = true := by decide) : Only w s (State.exCount u x1) := by
  unfold State.exCount
  repeat' first
    | with_reducible assumption
    | with_reducible apply Only.foldl
    | (with_reducible refine Only.ite (fun _ => ?_) (fun _ => ?_))
    | split
    | ((with_reducible refine Only.put_exc ?_ _ ?hm); case hm => exact Fld.sub_contains hs (by decide))
    | exact Fld.sub_trans (by decide) hs
    | intro _
    | dsimp only

theorem State.exDeliver_only {w : List Fld} {s u : State} (h : Only w s u) (x1 : BitVec 12) (x2 : Word) (x3 : Nat) (x4 : Nat) (x5 : List Byte) (x6 : List (List Byte))
    (hs : Fld.sub [.gst, .chans, .fdw, .hoopNet, .ports, .colls, .stakes, .vc0] w = true := by decide) : Only w s (State.exDeliver u x1 x2 x3 x4 x5 x6) := by
  unfold State.exDeliver
  repeat' first
    | with_reducible assumption
    | with_reducible apply Only.foldl
    | with_reducible apply State.rxWale_only
    | with_reducible apply State.giveSink_only
    | with_reducible apply State.onColl_only
    | (with_reducible refine Only.ite (fun _ => ?_) (fun _ => ?_))
    | split
    | exact Fld.sub_trans (by decide) hs
    | intro _
    | dsimp only

theorem State.exToken_only {w : List Fld} {s u : State} (h : Only w s u) (x1 : BitVec 12) (x2 : Word) (x3 : Nat) (x4 : Nat) (x5 : List (List Byte))
    (hs : Fld.sub [.gst, .chans, .fdw, .hoopNet, .ports, .colls, .stakes, .exc, .vc0] w = true := by decide) : Only w s (State.exToken u x1 x2 x3 x4 x5) := by
  unfold State.exToken
  repeat' first
    | with_reducible assumption
    | with_reducible apply Only.foldl
    | with_reducible apply State.exDeliver_only
    | with_reducible apply State.exCount_only
    | with_reducible apply State.onEx_only
    | (with_reducible refine Only.ite (fun _ => ?_) (fun _ => ?_))
    | split
    | exact Fld.sub_trans (by decide) hs
    | intro _
    | dsimp only

theorem State.exList_only {w : List Fld} {s u : State} (h : Only w s u) (x1 : BitVec 12) (x2 : Word) (x3 : Nat) (x4 : List Byte)
    (hs : Fld.sub [.gst, .chans, .fdw, .hoopNet, .ports, .colls, .stakes, .exc, .vc0] w = true := by decide) : Only w s (State.exList u x1 x2 x3 x4) := by
  unfold State.exList
  repeat' first
    | with_reducible assumption
    | with_reducible apply Only.foldl
    | with_reducible apply State.exToken_only
    | with_reducible apply State.exTerm_only
    | with_reducible apply State.exEarly_only
    | with_reducible apply State.onEx_only
    | (with_reducible refine Only.ite (fun _ => ?_) (fun _ => ?_))
    | split
    | exact Fld.sub_trans (by decide) hs
    | intro _
    | dsimp only

theorem State.exHeader_only {w : List Fld} {s u : State} (h : Only w s u) (x1 : BitVec 12) (x2 : Word) (x3 : Nat) (x4 : List Byte)
    (hs : Fld.sub [.gst, .chans, .fdw, .hoopNet, .ports, .colls, .stakes, .exc, .vc0] w = true := by decide) : Only w s (State.exHeader u x1 x2 x3 x4) := by
  unfold State.exHeader
  repeat' first
    | with_reducible assumption
    | with_reducible apply Only.foldl
    | with_reducible apply State.exList_only
    | with_reducible apply State.exFin_only
    | with_reducible apply State.exEarly_only
    | with_reducible apply State.onEx_only
    | with_reducible apply State.exMismatch_only
    | with_reducible apply State.exCorrupt_only
    | (with_reducible refine Only.ite (fun _ => ?_) (fun _ => ?_))
    | split
    | exact Fld.sub_trans (by decide) hs
    | intro _
    | dsimp only

theorem State.exOsilt_only {w : List Fld} {s u : State} (h : Only w s u) (x1 : BitVec 12) (x2 : Word) (x3 : Nat)
    (hs : Fld.sub [.colls] w = true := by decide) : Only w s (State.exOsilt u x1 x2 x3) := by
  unfold State.exOsilt
  repeat' first
    | with_reducible assumption
    | with_reducible apply Only.foldl
    | with_reducible apply State.onColl_only
    | (with_reducible refine Only.ite (fun _ => ?_) (fun _ => ?_))
    | split
    | exact Fld.sub_trans (by decide) hs
    | intro _
    | dsimp only

theorem State.exResidue_only {w : List Fld} {s u : State} (h : Only w s u) (x1 : Coll) (x2 : Nat) (x3 : Nat) (x4 : Nat) (x5 : Nat)
    (hs : Fld.sub [.gst, .colls, .stakes, .vc0] w = true := by decide) : Only w s (State.exResidue u x1 x2 x3 x4 x5) := by
  unfold State.exResidue
  repeat' first
    | with_reducible assumption
    | with_reducible apply Only.foldl
    | with_reducible apply State.residue_only
    | (with_reducible refine Only.ite (fun _ => ?_) (fun _ => ?_))
    | split
    | exact Fld.sub_trans (by decide) hs
    | intro _
    | dsimp only

theorem State.exSendWale_only {w : List Fld} {s u : State} (h : Only w s u) (x1 : BitVec 12) (x2 : Word) (x3 : Nat) (x4 : Nat) (x5 : Nat × List Byte)
    (hs : Fld.sub [.gst, .colls, .stakes, .vc0] w = true := by decide) : Only w s (State.exSendWale u x1 x2 x3 x4 x5) := by
  unfold State.exSendWale
  repeat' first
    | with_reducible assumption
    | with_reducible apply Only.foldl
    | with_reducible apply State.orFail_only
    | with_reducible apply State.onColl_only
    | (with_reducible refine Only.ite (fun _ => ?_) (fun _ => ?_))
    | split
    | exact True.intro
    | with_reducible apply State.sendSeg_only
    | (refine Sent.Only.ok (State.sendSeg_only ?_ _ _ _ _ _ _ _ _ _ _ ?_) (by assumption))
    | exact Fld.sub_trans (by decide) hs
    | intro _
    | dsimp only

theorem State.exSlot_only {w : List Fld} {s u : State} (h : Only w s u) (x1 : BitVec 12) (x2 : Word) (x3 : Nat) (x4 : List Byte) (x5 : List (List Byte))
    (hs : Fld.sub [.gst, .chans, .fdw, .hoopNet, .ports, .colls, .stakes, .exc, .vc0] w = true := by decide) : Only w s (State.exSlot u x1 x2 x3 x4 x5) := by
  unfold State.exSlot
  repeat' first
    | with_reducible assumption
    | with_reducible apply Only.foldl
    | with_reducible apply State.exDeliver_only
    | with_reducible apply State.exCount_only
    | with_reducible apply State.xcredit_only
    | with_reducible apply State.onEx_only
    | with_reducible apply State.exCorrupt_only
    | (with_reducible refine Only.ite (fun _ => ?_) (fun _ => ?_))
    | split
    | exact Fld.sub_trans (by decide) hs
    | intro _
    | dsimp only

theorem State.exUnit_only {w : List Fld} {s u : State} (h : Only w s u) (x1 : BitVec 12) (x2 : Word) (x3 : Nat) (x4 : Nat) (x5 : List Byte) (x6 : List (List Byte))
    (hs : Fld.sub [.gst, .chans, .fdw, .hoopNet, .ports, .colls, .stakes, .exc, .vc0] w = true := by decide) : Only w s (State.exUnit u x1 x2 x3 x4 x5 x6) := by
  unfold State.exUnit
  repeat' first
    | with_reducible assumption
    | with_reducible apply Only.foldl
    | with_reducible apply State.exSlot_only
    | with_reducible apply State.exAccept_only
    | with_reducible apply State.exMismatch_only
    | with_reducible apply State.exCorrupt_only
    | (with_reducible refine Only.ite (fun _ => ?_) (fun _ => ?_))
    | split
    | exact Fld.sub_trans (by decide) hs
    | intro _
    | dsimp only

theorem State.exSend_only {w : List Fld} {s u : State} (h : Only w s u) (x1 : BitVec 12) (x2 : Word) (x3 : Nat) (x4 : Nat) (x5 : Nat) (x6 : List Byte) (x7 : List (Nat × List Byte)) (x8 : List (List Byte))
    (hs : Fld.sub [.gst, .chans, .fdw, .hoopNet, .ports, .colls, .stakes, .exc, .vc0] w = true := by decide) : Only w s (State.exSend u x1 x2 x3 x4 x5 x6 x7 x8) := by
  unfold State.exSend
  repeat' first
    | with_reducible assumption
    | with_reducible apply Only.foldl
    | with_reducible apply State.exUnit_only
    | with_reducible apply State.exSendWale_only
    | (with_reducible refine Only.ite (fun _ => ?_) (fun _ => ?_))
    | split
    | exact Fld.sub_trans (by decide) hs
    | intro _
    | dsimp only

theorem State.exTrap_only {w : List Fld} {s u : State} (h : Only w s u) (x1 : BitVec 12) (x2 : Word) (x3 : Option Cand)
    (hs : Fld.sub [.gst, .colls, .stakes, .vc0] w = true := by decide) : Only w s (State.exTrap u x1 x2 x3) := by
  unfold State.exTrap
  repeat' first
    | with_reducible assumption
    | with_reducible apply Only.foldl
    | with_reducible apply State.report_only
    | with_reducible apply State.onColl_only
    | (with_reducible refine Only.ite (fun _ => ?_) (fun _ => ?_))
    | split
    | exact Fld.sub_trans (by decide) hs
    | intro _
    | dsimp only

theorem State.exSendCopy_only {w : List Fld} {s u : State} (h : Only w s u) (x1 : BitVec 12) (x2 : Word) (x3 : Nat) (x4 : Nat) (x5 : Nat) (x6 : List Byte) (x7 : List (List Byte)) (x8 : Nat) (x9 : Nat) (x10 : Nat)
    (hs : Fld.sub [.gst, .chans, .fdw, .hoopNet, .ports, .colls, .stakes, .exc, .vc0] w = true := by decide) : Only w s (State.exSendCopy u x1 x2 x3 x4 x5 x6 x7 x8 x9 x10) := by
  unfold State.exSendCopy
  repeat' first
    | with_reducible assumption
    | with_reducible apply Only.foldl
    | with_reducible apply State.exTrap_only
    | with_reducible apply State.exSend_only
    | with_reducible apply State.exResidue_only
    | with_reducible apply State.exOsilt_only
    | (with_reducible refine Only.ite (fun _ => ?_) (fun _ => ?_))
    | split
    | exact Fld.sub_trans (by decide) hs
    | intro _
    | dsimp only

theorem State.exPlace_only {w : List Fld} {s u : State} (h : Only w s u) (x1 : BitVec 12) (x2 : Word) (x3 : Nat) (x4 : Nat) (x5 : List Byte) (x6 : List (List Byte)) (x7 : Nat)
    (hs : Fld.sub [.gst, .chans, .fdw, .hoopNet, .ports, .colls, .stakes, .exc, .vc0] w = true := by decide) : Only w s (State.exPlace u x1 x2 x3 x4 x5 x6 x7) := by
  unfold State.exPlace
  repeat' first
    | with_reducible assumption
    | with_reducible apply Only.foldl
    | with_reducible apply State.exSendCopy_only
    | with_reducible apply State.exCount_only
    | with_reducible apply State.onEx_only
    | with_reducible apply State.exMismatch_only
    | with_reducible apply State.exCorrupt_only
    | (with_reducible refine Only.ite (fun _ => ?_) (fun _ => ?_))
    | split
    | exact Fld.sub_trans (by decide) hs
    | intro _
    | dsimp only

theorem State.exOwn_only {w : List Fld} {s u : State} (h : Only w s u) (x1 : BitVec 12) (x2 : Word) (x3 : Nat) (x4 : List Byte) (x5 : List (List Byte))
    (hs : Fld.sub [.gst, .chans, .fdw, .hoopNet, .ports, .colls, .stakes, .exc, .vc0] w = true := by decide) : Only w s (State.exOwn u x1 x2 x3 x4 x5) := by
  unfold State.exOwn
  repeat' first
    | with_reducible assumption
    | with_reducible apply Only.foldl
    | with_reducible apply State.exPlace_only
    | with_reducible apply State.exSend_only
    | with_reducible apply State.exTerm_only
    | with_reducible apply State.onEx_only
    | with_reducible apply State.exMismatch_only
    | (with_reducible refine Only.ite (fun _ => ?_) (fun _ => ?_))
    | split
    | exact Fld.sub_trans (by decide) hs
    | intro _
    | dsimp only

theorem State.exSupply_only {w : List Fld} {s u : State} (h : Only w s u) (x1 : BitVec 12) (x2 : Word) (x3 : Nat) (x4 : List Byte)
    (hs : Fld.sub [.gst, .chans, .fdw, .hoopNet, .ports, .colls, .stakes, .exc, .vc0] w = true := by decide) : Only w s (State.exSupply u x1 x2 x3 x4) := by
  unfold State.exSupply
  repeat' first
    | with_reducible assumption
    | with_reducible apply Only.foldl
    | with_reducible apply State.exOwn_only
    | with_reducible apply State.exHeader_only
    | with_reducible apply State.onEx_only
    | with_reducible apply State.onColl_only
    | (with_reducible refine Only.ite (fun _ => ?_) (fun _ => ?_))
    | split
    | exact Fld.sub_trans (by decide) hs
    | intro _
    | dsimp only

theorem State.releaseSeal_only {w : List Fld} {s u : State} (h : Only w s u) (x1 : BitVec 12) (x2 : Word)
    (hs : Fld.sub [.colls, .upd, .vc0] w = true := by decide) : Only w s (State.releaseSeal u x1 x2) := by
  unfold State.releaseSeal
  repeat' first
    | with_reducible assumption
    | with_reducible apply Only.foldl
    | with_reducible apply State.updPut_only
    | with_reducible apply State.post_only
    | with_reducible apply State.onColl_only
    | (with_reducible refine Only.ite (fun _ => ?_) (fun _ => ?_))
    | split
    | exact Fld.sub_trans (by decide) hs
    | intro _
    | dsimp only

theorem State.closeChain_only {w : List Fld} {s u : State} (h : Only w s u) (x1 : BitVec 12) (x2 : Word) (x3 : Chain)
    (hs : Fld.sub [.gst, .colls, .stakes, .upd, .vc0] w = true := by decide) : Only w s (State.closeChain u x1 x2 x3) := by
  unfold State.closeChain
  repeat' first
    | with_reducible assumption
    | with_reducible apply Only.foldl
    | with_reducible apply State.releaseSeal_only
    | with_reducible apply State.sendUp_only
    | with_reducible apply State.onColl_only
    | (with_reducible refine Only.ite (fun _ => ?_) (fun _ => ?_))
    | split
    | exact Fld.sub_trans (by decide) hs
    | intro _
    | dsimp only

theorem State.closeTry_only {w : List Fld} {s u : State} (h : Only w s u) (x1 : BitVec 12) (x2 : Word)
    (hs : Fld.sub [.gst, .colls, .stakes, .upd, .vc0] w = true := by decide) : Only w s (State.closeTry u x1 x2) := by
  unfold State.closeTry
  repeat' first
    | with_reducible assumption
    | with_reducible apply Only.foldl
    | with_reducible apply State.closeChain_only
    | (with_reducible refine Only.ite (fun _ => ?_) (fun _ => ?_))
    | split
    | exact Fld.sub_trans (by decide) hs
    | intro _
    | dsimp only

theorem State.downPump_only {w : List Fld} {s u : State} (h : Only w s u) (x0 : Nat) (x2 : BitVec 12) (x3 : Word) (x4 : Nat)
    (hs : Fld.sub [.gst, .chans, .fdw, .hoopNet, .ports, .colls, .stakes, .vc0] w = true := by decide) : Only w s (State.downPump x0 u x2 x3 x4) := by
  induction x0 generalizing u x2 x3 x4 with
  | zero => unfold State.downPump; exact h
  | succ n ih =>
    unfold State.downPump
    repeat' first
      | with_reducible assumption
      | with_reducible apply Only.foldl
      | with_reducible apply ih
      | with_reducible apply State.deliverWale_only
      | with_reducible apply State.onColl_only
      | (with_reducible refine Only.ite (fun _ => ?_) (fun _ => ?_))
      | split
      | exact Fld.sub_trans (by decide) hs
      | intro _
      | dsimp only

theorem State.downAll_only {w : List Fld} {s u : State} (h : Only w s u) (x1 : BitVec 12) (x2 : Word)
    (hs : Fld.sub [.gst, .chans, .fdw, .hoopNet, .ports, .colls, .stakes, .vc0] w = true := by decide) : Only w s (State.downAll u x1 x2) := by
  unfold State.downAll
  repeat' first
    | with_reducible assumption
    | with_reducible apply Only.foldl
    | with_reducible apply State.downPump_only
    | (with_reducible refine Only.ite (fun _ => ?_) (fun _ => ?_))
    | split
    | exact Fld.sub_trans (by decide) hs
    | intro _
    | dsimp only

theorem State.fpChain_only {w : List Fld} {s u : State} (h : Only w s u) (x1 : BitVec 12) (x2 : Word) (x3 : Chain)
    (hs : Fld.sub [.gst, .colls, .stakes, .vc0] w = true := by decide) : Only w s (State.fpChain u x1 x2 x3) := by
  unfold State.fpChain
  repeat' first
    | with_reducible assumption
    | with_reducible apply Only.foldl
    | with_reducible apply State.sendUp_only
    | with_reducible apply State.onColl_only
    | (with_reducible refine Only.ite (fun _ => ?_) (fun _ => ?_))
    | split
    | exact Fld.sub_trans (by decide) hs
    | intro _
    | dsimp only

theorem State.fpTry_only {w : List Fld} {s u : State} (h : Only w s u) (x1 : BitVec 12) (x2 : Word)
    (hs : Fld.sub [.gst, .colls, .stakes, .vc0] w = true := by decide) : Only w s (State.fpTry u x1 x2) := by
  unfold State.fpTry
  repeat' first
    | with_reducible assumption
    | with_reducible apply Only.foldl
    | with_reducible apply State.fpChain_only
    | with_reducible apply State.onColl_only
    | (with_reducible refine Only.ite (fun _ => ?_) (fun _ => ?_))
    | split
    | exact Fld.sub_trans (by decide) hs
    | intro _
    | dsimp only

theorem State.storeTrap_only {w : List Fld} {s u : State} (h : Only w s u) (x1 : BitVec 12) (x2 : Word) (x3 : Cand)
    (hs : Fld.sub [.gst, .colls, .col] w = true := by decide) : Only w s (State.storeTrap u x1 x2 x3) := by
  unfold State.storeTrap
  repeat' first
    | with_reducible assumption
    | with_reducible apply Only.foldl
    | with_reducible apply State.onColl_only
    | with_reducible apply State.logEv_only
    | (with_reducible refine Only.ite (fun _ => ?_) (fun _ => ?_))
    | split
    | ((with_reducible refine Only.put_col ?_ _ ?hm); case hm => exact Fld.sub_contains hs (by decide))
    | exact Fld.sub_trans (by decide) hs
    | intro _
    | dsimp only

theorem State.raiseTrap_only {w : List Fld} {s u : State} (h : Only w s u) (x1 : BitVec 12) (x2 : Word) (x3 : Cand)
    (hs : Fld.sub [.gst, .adm, .colls, .col, .stakes, .upd, .vc0] w = true := by decide) : Only w s (State.raiseTrap u x1 x2 x3) := by
  unfold State.raiseTrap
  repeat' first
    | with_reducible assumption
    | with_reducible apply Only.foldl
    | with_reducible apply State.storeTrap_only
    | with_reducible apply State.decideAbort_only
    | with_reducible apply State.onColl_only
    | (with_reducible refine Only.ite (fun _ => ?_) (fun _ => ?_))
    | split
    | exact Fld.sub_trans (by decide) hs
    | intro _
    | dsimp only

theorem State.rootTake_only {w : List Fld} {s u : State} (h : Only w s u) (x1 : BitVec 12) (x2 : Word)
    (hs : Fld.sub [.gst, .adm, .colls, .col, .stakes, .upd, .vc0] w = true := by decide) : Only w s (State.rootTake u x1 x2) := by
  unfold State.rootTake
  repeat' first
    | with_reducible assumption
    | with_reducible apply Only.foldl
    | with_reducible apply State.raiseTrap_only
    | with_reducible apply State.storeTrap_only
    | with_reducible apply State.takeStep_only
    | with_reducible apply State.onColl_only
    | (with_reducible refine Only.ite (fun _ => ?_) (fun _ => ?_))
    | split
    | exact Fld.sub_trans (by decide) hs
    | intro _
    | dsimp only

theorem State.updAdmits_only {w : List Fld} {s u : State} (h : Only w s u) (x1 : Coll) (x2 : Bool)
    (hs : Fld.sub [.pwr] w = true := by decide) : Only w s (State.updAdmits u x1 x2).2 := by
  unfold State.updAdmits
  repeat' first
    | with_reducible assumption
    | with_reducible apply Only.foldl
    | with_reducible apply State.opportunity_only
    | (with_reducible refine Only.ite (fun _ => ?_) (fun _ => ?_))
    | split
    | exact Fld.sub_trans (by decide) hs
    | intro _
    | dsimp only

theorem State.rootPump_only {w : List Fld} {s u : State} (h : Only w s u) (x0 : Nat) (x2 : BitVec 12) (x3 : Word)
    (hs : Fld.sub [.gst, .adm, .pwr, .chans, .fdw, .hoopNet, .ports, .colls, .col, .stakes, .upd, .vc0] w = true := by decide) : Only w s (State.rootPump x0 u x2 x3) := by
  induction x0 generalizing u x2 x3 with
  | zero => unfold State.rootPump; exact h
  | succ n ih =>
    unfold State.rootPump
    repeat' first
      | with_reducible assumption
      | with_reducible apply Only.foldl
      | with_reducible apply ih
      | with_reducible apply State.updAdmits_only
      | with_reducible apply State.rootTake_only
      | with_reducible apply State.release_only
      | with_reducible apply State.onColl_only
      | (with_reducible refine Only.ite (fun _ => ?_) (fun _ => ?_))
      | split
      | exact Fld.sub_trans (by decide) hs
      | intro _
      | dsimp only

theorem State.advance_only {w : List Fld} {s u : State} (h : Only w s u) (x1 : BitVec 12) (x2 : Word)
    (hs : Fld.sub [.gst, .adm, .pwr, .chans, .fdw, .hoopNet, .ports, .colls, .col, .stakes, .upd, .vc0] w = true := by decide) : Only w s (State.advance u x1 x2) := by
  unfold State.advance
  repeat' first
    | with_reducible assumption
    | with_reducible apply Only.foldl
    | with_reducible apply State.rootPump_only
    | with_reducible apply State.fpTry_only
    | with_reducible apply State.downAll_only
    | with_reducible apply State.closeTry_only
    | (with_reducible refine Only.ite (fun _ => ?_) (fun _ => ?_))
    | split
    | exact Fld.sub_trans (by decide) hs
    | intro _
    | dsimp only

theorem State.checkedTry_only {w : List Fld} {s u : State} (h : Only w s u) (x1 : BitVec 12) (x2 : Word) (x3 : Chain)
    (hs : Fld.sub [.gst, .adm, .colls, .col, .stakes, .upd, .vc0] w = true := by decide) : Only w s (State.checkedTry u x1 x2 x3) := by
  unfold State.checkedTry
  repeat' first
    | with_reducible assumption
    | with_reducible apply Only.foldl
    | with_reducible apply State.raiseTrap_only
    | with_reducible apply State.releaseSeal_only
    | with_reducible apply State.sendUp_only
    | with_reducible apply State.onColl_only
    | (with_reducible refine Only.ite (fun _ => ?_) (fun _ => ?_))
    | split
    | exact Fld.sub_trans (by decide) hs
    | intro _
    | dsimp only

theorem State.exTake_only {w : List Fld} {s u : State} (h : Only w s u) (x1 : BitVec 12) (x2 : Word) (x3 : List Byte)
    (hs : Fld.sub [.gst, .chans, .fdw, .hoopNet, .ports, .colls, .stakes, .exc, .vc0] w = true := by decide) : Only w s (State.exTake u x1 x2 x3) := by
  unfold State.exTake
  repeat' first
    | with_reducible assumption
    | with_reducible apply Only.foldl
    | with_reducible apply State.exUnit_only
    | with_reducible apply State.exOsilt_only
    | with_reducible apply State.onEx_only
    | with_reducible apply State.exMismatch_only
    | (with_reducible refine Only.ite (fun _ => ?_) (fun _ => ?_))
    | split
    | exact Fld.sub_trans (by decide) hs
    | intro _
    | dsimp only

theorem State.exPump_only {w : List Fld} {s u : State} (h : Only w s u) (x0 : Nat) (x2 : BitVec 12) (x3 : Word)
    (hs : Fld.sub [.gst, .chans, .fdw, .hoopNet, .ports, .colls, .stakes, .exc, .vc0] w = true := by decide) : Only w s (State.exPump x0 u x2 x3) := by
  induction x0 generalizing u x2 x3 with
  | zero => unfold State.exPump; exact h
  | succ n ih =>
    unfold State.exPump
    repeat' first
      | with_reducible assumption
      | with_reducible apply Only.foldl
      | with_reducible apply ih
      | with_reducible apply State.exTake_only
      | with_reducible apply State.onColl_only
      | (with_reducible refine Only.ite (fun _ => ?_) (fun _ => ?_))
      | split
      | exact Fld.sub_trans (by decide) hs
      | intro _
      | dsimp only

theorem State.exStep_only {w : List Fld} {s u : State} (h : Only w s u) (x1 : BitVec 12) (x2 : Word) (x3 : Chain)
    (hs : Fld.sub [.gst, .colls, .stakes, .vc0] w = true := by decide) : Only w s (State.exStep u x1 x2 x3) := by
  unfold State.exStep
  repeat' first
    | with_reducible assumption
    | with_reducible apply Only.foldl
    | with_reducible apply State.orFail_only
    | with_reducible apply State.onColl_only
    | (with_reducible refine Only.ite (fun _ => ?_) (fun _ => ?_))
    | split
    | exact True.intro
    | with_reducible apply State.sendSeg_only
    | (refine Sent.Only.ok (State.sendSeg_only ?_ _ _ _ _ _ _ _ _ _ _ ?_) (by assumption))
    | exact Fld.sub_trans (by decide) hs
    | intro _
    | dsimp only

theorem State.probeSink_only {w : List Fld} {s u : State} (h : Only w s u) (x1 : Coll) (x2 : Member)
    (hs : Fld.sub [.chans] w = true := by decide) : Only w s (State.probeSink u x1 x2) := by
  unfold State.probeSink
  repeat' first
    | with_reducible assumption
    | with_reducible apply Only.foldl
    | with_reducible apply State.sinkStart_only
    | (with_reducible refine Only.ite (fun _ => ?_) (fun _ => ?_))
    | split
    | exact Fld.sub_trans (by decide) hs
    | intro _
    | dsimp only

theorem State.sentTry_only {w : List Fld} {s u : State} (h : Only w s u) (x1 : BitVec 12) (x2 : Word) (x3 : Chain)
    (hs : Fld.sub [.gst, .adm, .colls, .stakes, .upd, .vc0] w = true := by decide) : Only w s (State.sentTry u x1 x2 x3) := by
  unfold State.sentTry
  repeat' first
    | with_reducible assumption
    | with_reducible apply Only.foldl
    | with_reducible apply State.stepSkew_only
    | with_reducible apply State.sendUp_only
    | with_reducible apply State.post_only
    | with_reducible apply State.onColl_only
    | (with_reducible refine Only.ite (fun _ => ?_) (fun _ => ?_))
    | split
    | exact Fld.sub_trans (by decide) hs
    | intro _
    | dsimp only

theorem State.exAdvance_only {w : List Fld} {s u : State} (h : Only w s u) (x1 : BitVec 12) (x2 : Word)
    (hs : Fld.sub [.gst, .adm, .chans, .fdw, .hoopNet, .ports, .colls, .col, .stakes, .exc, .upd, .vc0] w = true := by decide) : Only w s (State.exAdvance u x1 x2) := by
  unfold State.exAdvance
  repeat' first
    | with_reducible assumption
    | with_reducible apply Only.foldl
    | with_reducible apply State.sentTry_only
    | with_reducible apply State.probeSink_only
    | with_reducible apply State.exStep_only
    | with_reducible apply State.exPump_only
    | with_reducible apply State.checkedTry_only
    | (with_reducible refine Only.ite (fun _ => ?_) (fun _ => ?_))
    | split
    | exact Fld.sub_trans (by decide) hs
    | intro _
    | dsimp only

theorem State.purge_only {w : List Fld} {s u : State} (h : Only w s u) (x1 : BitVec 12) (x2 : Word)
    (hs : Fld.sub [.stakes] w = true := by decide) : Only w s (State.purge u x1 x2) := by
  unfold State.purge
  repeat' first
    | with_reducible assumption
    | with_reducible apply Only.foldl
    | with_reducible apply State.onStake_only
    | with_reducible apply State.setStake_only
    | (with_reducible refine Only.ite (fun _ => ?_) (fun _ => ?_))
    | split
    | exact Fld.sub_trans (by decide) hs
    | intro _
    | dsimp only

theorem State.endColl_only {w : List Fld} {s u : State} (h : Only w s u) (x1 : BitVec 12) (x2 : Word) (x3 : BitVec 8)
    (hs : Fld.sub [.colls, .stakes] w = true := by decide) : Only w s (State.endColl u x1 x2 x3) := by
  unfold State.endColl
  repeat' first
    | with_reducible assumption
    | with_reducible apply Only.foldl
    | with_reducible apply State.purge_only
    | with_reducible apply State.onColl_only
    | (with_reducible refine Only.ite (fun _ => ?_) (fun _ => ?_))
    | split
    | exact Fld.sub_trans (by decide) hs
    | intro _
    | dsimp only

theorem State.endIdle_only {w : List Fld} {s u : State} (h : Only w s u) (x1 : Nat)
    (hs : Fld.sub [.gst, .chans, .fdw, .hoopNet, .colls, .stakes, .vc0] w = true := by decide) : Only w s (State.endIdle u x1) := by
  unfold State.endIdle
  repeat' first
    | with_reducible assumption
    | with_reducible apply Only.foldl
    | with_reducible apply State.popBind_only
    | with_reducible apply State.finishDesc_only
    | with_reducible apply State.dropBind_only
    | (with_reducible refine Only.ite (fun _ => ?_) (fun _ => ?_))
    | split
    | exact Fld.sub_trans (by decide) hs
    | intro _
    | dsimp only

theorem State.dropIdle_only {w : List Fld} {s u : State} (h : Only w s u) (x1 : BitVec 12) (x2 : Word)
    (hs : Fld.sub [.gst, .chans, .fdw, .hoopNet, .colls, .stakes, .vc0] w = true := by decide) : Only w s (State.dropIdle u x1 x2) := by
  unfold State.dropIdle
  repeat' first
    | with_reducible assumption
    | with_reducible apply Only.foldl
    | with_reducible apply State.endIdle_only
    | with_reducible apply State.onChan_only
    | (with_reducible refine Only.ite (fun _ => ?_) (fun _ => ?_))
    | split
    | exact Fld.sub_trans (by decide) hs
    | intro _
    | dsimp only

theorem State.sealLost_only {w : List Fld} {s u : State} (h : Only w s u) (x1 : BitVec 12) (x2 : Word) (x3 : Nat)
    (hs : Fld.sub [.gst, .ports, .colls] w = true := by decide) : Only w s (State.sealLost u x1 x2 x3) := by
  unfold State.sealLost
  repeat' first
    | with_reducible assumption
    | with_reducible apply Only.foldl
    | with_reducible apply State.onColl_only
    | with_reducible apply State.logEv_only
    | with_reducible apply State.attn_only
    | with_reducible apply State.onPort_only
    | (with_reducible refine Only.ite (fun _ => ?_) (fun _ => ?_))
    | split
    | exact Fld.sub_trans (by decide) hs
    | intro _
    | dsimp only

theorem State.timeoutSite_only {w : List Fld} {s u : State} (h : Only w s u) (x1 : Coll)
    (hs : Fld.sub [.gst] w = true := by decide) : Only w s (State.timeoutSite u x1) := by
  unfold State.timeoutSite
  repeat' first
    | with_reducible assumption
    | with_reducible apply Only.foldl
    | with_reducible apply State.logEv_only
    | (with_reducible refine Only.ite (fun _ => ?_) (fun _ => ?_))
    | split
    | exact Fld.sub_trans (by decide) hs
    | intro _
    | dsimp only

theorem State.tokenHere_only {w : List Fld} {s u : State} (h : Only w s u) (x1 : BitVec 12) (x2 : Word) (x3 : List Word) (x4 : Bool)
    (hs : Fld.sub [.gst, .chans, .fdw, .hoopNet, .ports, .colls, .stakes, .vc0] w = true := by decide) : Only w s (State.tokenHere u x1 x2 x3 x4) := by
  unfold State.tokenHere
  repeat' first
    | with_reducible assumption
    | with_reducible apply Only.foldl
    | with_reducible apply State.timeoutSite_only
    | with_reducible apply State.sealLost_only
    | with_reducible apply State.dropIdle_only
    | with_reducible apply State.endMember_only
    | with_reducible apply State.endBinds_only
    | with_reducible apply State.onColl_only
    | (with_reducible refine Only.ite (fun _ => ?_) (fun _ => ?_))
    | split
    | exact Fld.sub_trans (by decide) hs
    | intro _
    | dsimp only

theorem State.tokChain_only {w : List Fld} {s u : State} (h : Only w s u) (x1 : BitVec 12) (x2 : Word) (x3 : Chain) (x4 : List Word) (x5 : List Word)
    (hs : Fld.sub [.gst, .chans, .fdw, .hoopNet, .ports, .colls, .col, .stakes, .upd, .vc0] w = true := by decide) : Only w s (State.tokChain u x1 x2 x3 x4 x5) := by
  unfold State.tokChain
  repeat' first
    | with_reducible assumption
    | with_reducible apply Only.foldl
    | with_reducible apply State.tokenHere_only
    | with_reducible apply State.endColl_only
    | with_reducible apply State.reap_only
    | with_reducible apply State.sendEdge_only
    | with_reducible apply State.updPut_only
    | with_reducible apply State.onColl_only
    | (with_reducible refine Only.ite (fun _ => ?_) (fun _ => ?_))
    | split
    | exact Fld.sub_trans (by decide) hs
    | intro _
    | dsimp only

theorem State.tokTry_only {w : List Fld} {s u : State} (h : Only w s u) (x1 : BitVec 12) (x2 : Word)
    (hs : Fld.sub [.gst, .chans, .fdw, .hoopNet, .ports, .colls, .col, .stakes, .upd, .vc0] w = true := by decide) : Only w s (State.tokTry u x1 x2) := by
  unfold State.tokTry
  repeat' first
    | with_reducible assumption
    | with_reducible apply Only.foldl
    | with_reducible apply State.tokChain_only
    | with_reducible apply State.onColl_only
    | (with_reducible refine Only.ite (fun _ => ?_) (fun _ => ?_))
    | split
    | exact Fld.sub_trans (by decide) hs
    | intro _
    | dsimp only

theorem State.push_only {w : List Fld} {s u : State} (h : Only w s u) (x1 : BitVec 12) (x2 : Word)
    (hs : Fld.sub [.gst, .adm, .pwr, .chans, .fdw, .hoopNet, .ports, .colls, .col, .stakes, .exc, .upd, .vc0] w = true := by decide) : Only w s (State.push u x1 x2) := by
  unfold State.push
  repeat' first
    | with_reducible assumption
    | with_reducible apply Only.foldl
    | with_reducible apply State.tokTry_only
    | with_reducible apply State.exAdvance_only
    | with_reducible apply State.advance_only
    | (with_reducible refine Only.ite (fun _ => ?_) (fun _ => ?_))
    | split
    | exact Fld.sub_trans (by decide) hs
    | intro _
    | dsimp only

theorem State.supply_only {w : List Fld} {s u : State} (h : Only w s u) (x1 : Coll) (x2 : Member) (x3 : List Byte)
    (hs : Fld.sub [.gst, .adm, .pwr, .chans, .fdw, .hoopNet, .ports, .colls, .col, .stakes, .exc, .upd, .vc0] w = true := by decide) : Only w s (State.supply u x1 x2 x3) := by
  unfold State.supply
  repeat' first
    | with_reducible assumption
    | with_reducible apply Only.foldl
    | with_reducible apply State.push_only
    | with_reducible apply State.exSupply_only
    | with_reducible apply State.contribute_only
    | (with_reducible refine Only.ite (fun _ => ?_) (fun _ => ?_))
    | split
    | exact Fld.sub_trans (by decide) hs
    | intro _
    | dsimp only

theorem State.takeBeat_only {w : List Fld} {s u : State} (h : Only w s u) (x1 : Nat)
    (hs : Fld.sub [.chans] w = true := by decide) : Only w s (State.takeBeat u x1) := by
  unfold State.takeBeat
  repeat' first
    | with_reducible assumption
    | with_reducible apply Only.foldl
    | with_reducible apply State.setChan_only
    | (with_reducible refine Only.ite (fun _ => ?_) (fun _ => ?_))
    | split
    | exact Fld.sub_trans (by decide) hs
    | intro _
    | dsimp only

theorem State.feedPump_only {w : List Fld} {s u : State} (h : Only w s u) (x0 : Nat) (x2 : Nat)
    (hs : Fld.sub [.gst, .adm, .pwr, .chans, .fdw, .hoopNet, .ports, .colls, .col, .stakes, .exc, .upd, .vc0] w = true := by decide) : Only w s (State.feedPump x0 u x2) := by
  induction x0 generalizing u x2 with
  | zero => unfold State.feedPump; exact h
  | succ n ih =>
    unfold State.feedPump
    repeat' first
      | with_reducible assumption
      | with_reducible apply Only.foldl
      | with_reducible apply ih
      | with_reducible apply State.takeBeat_only
      | with_reducible apply State.supply_only
      | with_reducible apply State.opportunity_only
      | with_reducible apply State.feedEnd_only
      | with_reducible apply State.popBind_only
      | with_reducible apply State.setChan_only
      | (with_reducible refine Only.ite (fun _ => ?_) (fun _ => ?_))
      | split
      | exact Fld.sub_trans (by decide) hs
      | intro _
      | dsimp only

theorem State.chanFlow_only {w : List Fld} {s u : State} (h : Only w s u) (x1 : Nat)
    (hs : Fld.sub [.gst, .adm, .pwr, .chans, .fdw, .hoopNet, .ports, .colls, .col, .stakes, .exc, .upd, .vc0] w = true := by decide) : Only w s (State.chanFlow u x1) := by
  unfold State.chanFlow
  repeat' first
    | with_reducible assumption
    | with_reducible apply Only.foldl
    | with_reducible apply State.feedPump_only
    | with_reducible apply State.sinkEnd_only
    | with_reducible apply State.fillChan_only
    | with_reducible apply State.onChan_only
    | (with_reducible refine Only.ite (fun _ => ?_) (fun _ => ?_))
    | split
    | exact Fld.sub_trans (by decide) hs
    | intro _
    | dsimp only

theorem State.stray_only {w : List Fld} {s u : State} (h : Only w s u) (x1 : Nat) (x2 : BitVec 12)
    (hs : Fld.sub [.gst] w = true := by decide) : Only w s (State.stray u x1 x2) := by
  unfold State.stray
  repeat' first
    | with_reducible assumption
    | with_reducible apply Only.foldl
    | with_reducible apply State.logEv_only
    | with_reducible apply State.attn_only
    | (with_reducible refine Only.ite (fun _ => ?_) (fun _ => ?_))
    | split
    | exact Fld.sub_trans (by decide) hs
    | intro _
    | dsimp only

theorem State.sendWale_only {w : List Fld} {s u : State} (h : Only w s u) (x1 : Nat) (x2 : BitVec 12) (x3 : List Byte)
    (hs : Fld.sub [.gst, .adm, .pwr, .chans, .fdw, .hoopNet, .ports, .colls, .col, .stakes, .exc, .upd, .vc0] w = true := by decide) : Only w s (State.sendWale u x1 x2 x3) := by
  unfold State.sendWale
  repeat' first
    | with_reducible assumption
    | with_reducible apply Only.foldl
    | with_reducible apply State.stray_only
    | with_reducible apply State.supply_only
    | with_reducible apply State.opportunity_only
    | with_reducible apply State.onPort_only
    | (with_reducible refine Only.ite (fun _ => ?_) (fun _ => ?_))
    | split
    | exact Fld.sub_trans (by decide) hs
    | intro _
    | dsimp only

theorem State.retryHeld_only {w : List Fld} {s u : State} (h : Only w s u) (x1 : Nat)
    (hs : Fld.sub [.gst, .adm, .pwr, .chans, .fdw, .hoopNet, .ports, .colls, .col, .stakes, .exc, .upd, .vc0] w = true := by decide) : Only w s (State.retryHeld u x1) := by
  unfold State.retryHeld
  repeat' first
    | with_reducible assumption
    | with_reducible apply Only.foldl
    | with_reducible apply State.sendWale_only
    | with_reducible apply State.onPort_only
    | (with_reducible refine Only.ite (fun _ => ?_) (fun _ => ?_))
    | split
    | exact Fld.sub_trans (by decide) hs
    | intro _
    | dsimp only

theorem State.flowOnce_only {w : List Fld} {s u : State} (h : Only w s u) 
    (hs : Fld.sub [.gst, .adm, .pwr, .chans, .fdw, .hoopNet, .ports, .colls, .col, .stakes, .exc, .upd, .vc0] w = true := by decide) : Only w s (State.flowOnce u) := by
  unfold State.flowOnce
  repeat' first
    | with_reducible assumption
    | with_reducible apply Only.foldl
    | with_reducible apply State.retryHeld_only
    | with_reducible apply State.chanFlow_only
    | with_reducible apply State.push_only
    | (with_reducible refine Only.ite (fun _ => ?_) (fun _ => ?_))
    | split
    | exact Fld.sub_trans (by decide) hs
    | intro _
    | dsimp only

theorem State.activate_only {w : List Fld} {s u : State} (h : Only w s u) (x1 : BitVec 12) (x2 : Word)
    (hs : Fld.sub [.gst, .chans, .fdw, .colls, .stakes, .vc0] w = true := by decide) : Only w s (State.activate u x1 x2) := by
  unfold State.activate
  repeat' first
    | with_reducible assumption
    | with_reducible apply Only.foldl
    | with_reducible apply State.checkBind_only
    | with_reducible apply State.setChan_only
    | (with_reducible refine Only.ite (fun _ => ?_) (fun _ => ?_))
    | split
    | exact Fld.sub_trans (by decide) hs
    | intro _
    | dsimp only

theorem State.passMarkers_only {w : List Fld} {s u : State} (h : Only w s u) (x0 : Nat) (x2 : BitVec 12) (x3 : Word)
    (hs : Fld.sub [.gst, .adm, .colls, .stakes, .upd, .vc0] w = true := by decide) : Only w s (State.passMarkers x0 u x2 x3) := by
  induction x0 generalizing u x2 x3 with
  | zero => unfold State.passMarkers; exact h
  | succ n ih =>
    unfold State.passMarkers
    repeat' first
      | with_reducible assumption
      | with_reducible apply Only.foldl
      | with_reducible apply ih
      | with_reducible apply State.forward_only
      | with_reducible apply State.onColl_only
      | (with_reducible refine Only.ite (fun _ => ?_) (fun _ => ?_))
      | split
      | exact Fld.sub_trans (by decide) hs
      | intro _
      | dsimp only

theorem State.startMember_only {w : List Fld} {s u : State} (h : Only w s u) (x1 : BitVec 12) (x2 : Word) (x3 : Member)
    (hs : Fld.sub [.gst, .adm, .ports, .colls, .stakes, .upd, .vc0] w = true := by decide) : Only w s (State.startMember u x1 x2 x3) := by
  unfold State.startMember
  repeat' first
    | with_reducible assumption
    | with_reducible apply Only.foldl
    | with_reducible apply State.passMarkers_only
    | with_reducible apply State.passSteps_only
    | with_reducible apply State.forward_only
    | with_reducible apply State.onColl_only
    | with_reducible apply State.status_only
    | (with_reducible refine Only.ite (fun _ => ?_) (fun _ => ?_))
    | split
    | exact Fld.sub_trans (by decide) hs
    | intro _
    | dsimp only

theorem State.openColl_only {w : List Fld} {s u : State} (h : Only w s u) (x1 : BitVec 12) (x2 : Word)
    (hs : Fld.sub [.gst, .adm, .pwr, .chans, .fdw, .hoopNet, .ports, .colls, .col, .stakes, .exc, .upd, .vc0] w = true := by decide) : Only w s (State.openColl u x1 x2) := by
  unfold State.openColl
  repeat' first
    | with_reducible assumption
    | with_reducible apply Only.foldl
    | with_reducible apply State.startMember_only
    | with_reducible apply State.activate_only
    | with_reducible apply State.push_only
    | with_reducible apply State.onColl_only
    | (with_reducible refine Only.ite (fun _ => ?_) (fun _ => ?_))
    | split
    | ((with_reducible refine Only.put_col ?_ _ ?hm); case hm => exact Fld.sub_contains hs (by decide))
    | exact Fld.sub_trans (by decide) hs
    | intro _
    | dsimp only

theorem State.openTry_only {w : List Fld} {s u : State} (h : Only w s u) (x1 : BitVec 12) (x2 : Word)
    (hs : Fld.sub [.gst, .adm, .pwr, .chans, .fdw, .hoopNet, .ports, .colls, .col, .stakes, .exc, .upd, .vc0] w = true := by decide) : Only w s (State.openTry u x1 x2) := by
  unfold State.openTry
  repeat' first
    | with_reducible assumption
    | with_reducible apply Only.foldl
    | with_reducible apply State.openColl_only
    | (with_reducible refine Only.ite (fun _ => ?_) (fun _ => ?_))
    | split
    | exact Fld.sub_trans (by decide) hs
    | intro _
    | dsimp only

theorem State.reapAll_only {w : List Fld} {s u : State} (h : Only w s u) 
    (hs : Fld.sub [.colls, .col] w = true := by decide) : Only w s (State.reapAll u) := by
  unfold State.reapAll
  repeat' first
    | with_reducible assumption
    | with_reducible apply Only.foldl
    | with_reducible apply State.reap_only
    | (with_reducible refine Only.ite (fun _ => ?_) (fun _ => ?_))
    | split
    | exact Fld.sub_trans (by decide) hs
    | intro _
    | dsimp only

theorem State.settle_only {w : List Fld} {s u : State} (h : Only w s u) 
    (hs : Fld.sub [.gst, .adm, .pwr, .chans, .fdw, .hoops, .hoopNet, .ports, .colls, .col, .stakes, .exc, .upd, .vc0] w = true := by decide) : Only w s (State.settle u) := by
  unfold State.settle
  repeat' first
    | with_reducible assumption
    | with_reducible apply Only.foldl
    | with_reducible apply State.reapAll_only
    | with_reducible apply State.openTry_only
    | with_reducible apply State.flowOnce_only
    | with_reducible apply State.drain_only
    | with_reducible apply State.startRound_only
    | with_reducible apply State.updPump_only
    | (with_reducible refine Only.ite (fun _ => ?_) (fun _ => ?_))
    | split
    | exact Fld.sub_trans (by decide) hs
    | intro _
    | dsimp only

theorem execFusedIssue_only (s : State) (x0 : Fin 1024) (x1 : List Word) (x2 : List Word) :
    NextOnly [.gst, .adm, .pwr, .chans, .fdw, .hoops, .hoopNet, .ports, .colls, .col, .stakes, .exc, .upd, .vc0] s (execFusedIssue x0 x1 x2 s) := by
  unfold execFusedIssue
  refine live_only ?_
  unfold State.command
  refine Only.ite (fun _ => .refl) (fun _ => Only.ite (fun _ => State.onPort_only .refl _ _) (fun _ => State.settle_only (State.issueNow_only .refl _ _ _)))

theorem execArm_only (s : State) (x0 : Fin 1024) (x1 : Word) (x2 : Word × StorageEvent) :
    NextOnly [.gst, .adm, .pwr, .chans, .fdw, .hoops, .hoopNet, .ports, .colls, .col, .stakes, .exc, .upd, .vc0] s (execArm x0 x1 x2 s) := by
  unfold execArm
  refine live_only ?_
  unfold State.command
  refine Only.ite (fun _ => .refl) (fun _ => Only.ite (fun _ => State.onPort_only .refl _ _) (fun _ => State.settle_only (State.hoopCmd_only .refl _ _ _ _)))

theorem execSignal_only (s : State) (x0 : Fin 1024) (x1 : Word) (x2 : Word) :
    NextOnly [.gst, .adm, .pwr, .chans, .fdw, .hoops, .hoopNet, .ports, .colls, .col, .stakes, .exc, .upd, .vc0] s (execSignal x0 x1 x2 s) := by
  unfold execSignal
  refine live_only ?_
  unfold State.command
  refine Only.ite (fun _ => .refl) (fun _ => Only.ite (fun _ => State.onPort_only .refl _ _) (fun _ => State.settle_only (State.hoopCmd_only .refl _ _ _ _)))

theorem execWait_only (s : State) (x0 : Fin 1024) (x1 : Word) (x2 : Word × StorageEvent) :
    NextOnly [.gst, .adm, .pwr, .chans, .fdw, .hoops, .hoopNet, .ports, .colls, .col, .stakes, .exc, .upd, .vc0] s (execWait x0 x1 x2 s) := by
  unfold execWait
  refine live_only ?_
  unfold State.command
  refine Only.ite (fun _ => .refl) (fun _ => Only.ite (fun _ => State.onPort_only .refl _ _) (fun _ => State.settle_only (State.hoopCmd_only .refl _ _ _ _)))

theorem execDisarm_only (s : State) (x0 : Fin 1024) (x1 : Word) (x2 : Word × StorageEvent) :
    NextOnly [.gst, .adm, .pwr, .chans, .fdw, .hoops, .hoopNet, .ports, .colls, .col, .stakes, .exc, .upd, .vc0] s (execDisarm x0 x1 x2 s) := by
  unfold execDisarm
  refine live_only ?_
  unfold State.command
  refine Only.ite (fun _ => .refl) (fun _ => Only.ite (fun _ => State.onPort_only .refl _ _) (fun _ => State.settle_only (State.hoopCmd_only .refl _ _ _ _)))

theorem State.hoopFlag_only {w : List Fld} {s u : State} (h : Only w s u) (x1 : Nat) (x2 : Hoop)
    (hs : Fld.sub [.gst] w = true := by decide) : Only w s (State.hoopFlag u x1 x2) := by
  unfold State.hoopFlag
  repeat' first
    | with_reducible assumption
    | with_reducible apply Only.foldl
    | with_reducible apply State.logEv_only
    | (with_reducible refine Only.ite (fun _ => ?_) (fun _ => ?_))
    | split
    | exact Fld.sub_trans (by decide) hs
    | intro _
    | dsimp only

theorem State.hoopRelease_only {w : List Fld} {s u : State} (h : Only w s u) (x1 : Nat)
    (hs : Fld.sub [.gst, .hoops, .ports] w = true := by decide) : Only w s (State.hoopRelease u x1) := by
  unfold State.hoopRelease
  repeat' first
    | with_reducible assumption
    | with_reducible apply Only.foldl
    | with_reducible apply State.hoopFault_only
    | with_reducible apply State.setHoop_only
    | with_reducible apply State.endWait_only
    | (with_reducible refine Only.ite (fun _ => ?_) (fun _ => ?_))
    | split
    | exact Fld.sub_trans (by decide) hs
    | intro _
    | dsimp only

theorem State.applySignal_only {w : List Fld} {s u : State} (h : Only w s u) (x1 : HoopSig)
    (hs : Fld.sub [.gst, .hoops, .ports] w = true := by decide) : Only w s (State.applySignal u x1) := by
  unfold State.applySignal
  repeat' first
    | with_reducible assumption
    | with_reducible apply Only.foldl
    | with_reducible apply State.hoopRelease_only
    | with_reducible apply State.hoopFlag_only
    | with_reducible apply State.hoopFault_only
    | with_reducible apply State.setHoop_only
    | with_reducible apply State.status_only
    | (with_reducible refine Only.ite (fun _ => ?_) (fun _ => ?_))
    | split
    | exact Fld.sub_trans (by decide) hs
    | intro _
    | dsimp only

theorem State.arriveSignal_only {w : List Fld} {s u : State} (h : Only w s u) (x1 : HoopSig) (x2 : StorageEvent)
    (hs : Fld.sub [.gst, .hoops, .hoopNet, .ports] w = true := by decide) : Only w s (State.arriveSignal u x1 x2) := by
  unfold State.arriveSignal
  repeat' first
    | with_reducible assumption
    | with_reducible apply Only.foldl
    | with_reducible apply State.hoopStorage_only
    | with_reducible apply State.applySignal_only
    | (with_reducible refine Only.ite (fun _ => ?_) (fun _ => ?_))
    | split
    | ((with_reducible refine Only.put_hoopNet ?_ _ ?hm); case hm => exact Fld.sub_contains hs (by decide))
    | exact Fld.sub_trans (by decide) hs
    | intro _
    | dsimp only

theorem execHoopSignalArrival_only (s : State) (x0 : HoopSig) (x1 : StorageEvent) :
    NextOnly [.gst, .adm, .pwr, .chans, .fdw, .hoops, .hoopNet, .ports, .colls, .col, .stakes, .exc, .upd, .vc0] s (execHoopSignalArrival x0 x1 s) := by
  unfold execHoopSignalArrival
  refine live_only ?_
  repeat' first
    | with_reducible assumption
    | with_reducible exact Only.refl
    | with_reducible apply Only.foldl
    | with_reducible apply State.arriveSignal_only
    | with_reducible apply State.settle_only
    | (with_reducible refine Only.ite (fun _ => ?_) (fun _ => ?_))
    | split
    | decide
    | intro _
    | dsimp only

theorem State.expireWait_only {w : List Fld} {s u : State} (h : Only w s u) (x1 : Nat)
    (hs : Fld.sub [.hoops, .ports] w = true := by decide) : Only w s (State.expireWait u x1) := by
  unfold State.expireWait
  repeat' first
    | with_reducible assumption
    | with_reducible apply Only.foldl
    | with_reducible apply State.setHoop_only
    | with_reducible apply State.endWait_only
    | (with_reducible refine Only.ite (fun _ => ?_) (fun _ => ?_))
    | split
    | exact Fld.sub_trans (by decide) hs
    | intro _
    | dsimp only

theorem execHoopTimeout_only (s : State) (x0 : Fin 1024) :
    NextOnly [.gst, .adm, .pwr, .chans, .fdw, .hoops, .hoopNet, .ports, .colls, .col, .stakes, .exc, .upd, .vc0] s (execHoopTimeout x0 s) := by
  unfold execHoopTimeout
  refine live_only ?_
  repeat' first
    | with_reducible assumption
    | with_reducible exact Only.refl
    | with_reducible apply Only.foldl
    | with_reducible apply State.expireWait_only
    | with_reducible apply State.settle_only
    | (with_reducible refine Only.ite (fun _ => ?_) (fun _ => ?_))
    | split
    | decide
    | intro _
    | dsimp only

theorem State.clearHoops_only {w : List Fld} {s u : State} (h : Only w s u) (x1 : Nat)
    (hs : Fld.sub [.hoops, .ports] w = true := by decide) : Only w s (State.clearHoops u x1) := by
  unfold State.clearHoops
  repeat' first
    | with_reducible assumption
    | with_reducible apply Only.foldl
    | with_reducible apply State.setHoop_only
    | with_reducible apply State.endWait_only
    | (with_reducible refine Only.ite (fun _ => ?_) (fun _ => ?_))
    | split
    | exact Fld.sub_trans (by decide) hs
    | intro _
    | dsimp only

theorem State.ctxSwitch_only {w : List Fld} {s u : State} (h : Only w s u) (x1 : Nat)
    (hs : Fld.sub [.gst, .hoops, .ports, .colls, .stakes, .vc0] w = true := by decide) : Only w s (State.ctxSwitch u x1) := by
  unfold State.ctxSwitch
  repeat' first
    | with_reducible assumption
    | with_reducible apply Only.foldl
    | with_reducible apply State.clearHoops_only
    | with_reducible apply State.report_only
    | with_reducible apply State.onPort_only
    | (with_reducible refine Only.ite (fun _ => ?_) (fun _ => ?_))
    | split
    | exact Fld.sub_trans (by decide) hs
    | intro _
    | dsimp only

theorem execCtxSwitch_only (s : State) (x0 : Fin 1024) :
    NextOnly [.gst, .hoops, .ports, .colls, .stakes, .vc0] s (execCtxSwitch x0 s) := by
  unfold execCtxSwitch
  refine live_only ?_
  repeat' first
    | with_reducible assumption
    | with_reducible exact Only.refl
    | with_reducible apply Only.foldl
    | with_reducible apply State.ctxSwitch_only
    | (with_reducible refine Only.ite (fun _ => ?_) (fun _ => ?_))
    | split
    | decide
    | intro _
    | dsimp only

theorem execSendWale_only (s : State) (x0 : Fin 1024) (x1 : BitVec 12) (x2 : List Byte) :
    NextOnly [.gst, .adm, .pwr, .chans, .fdw, .hoops, .hoopNet, .ports, .colls, .col, .stakes, .exc, .upd, .vc0] s (execSendWale x0 x1 x2 s) := by
  unfold execSendWale
  refine live_only ?_
  repeat' first
    | with_reducible assumption
    | with_reducible exact Only.refl
    | with_reducible apply Only.foldl
    | with_reducible apply State.settle_only
    | with_reducible apply State.sendWale_only
    | (with_reducible refine Only.ite (fun _ => ?_) (fun _ => ?_))
    | split
    | decide
    | intro _
    | dsimp only

theorem State.combineToken_only {w : List Fld} {s u : State} (h : Only w s u) (x1 : Coll) (x2 : Nat) (x3 : Nat) (x4 : Nat)
    (hs : Fld.sub [.gst, .pwr, .chans, .fdw, .hoopNet, .ports, .colls, .stakes, .exc, .vc0] w = true := by decide) : Only w s (State.combineToken u x1 x2 x3 x4) := by
  unfold State.combineToken
  repeat' first
    | with_reducible assumption
    | with_reducible apply Only.foldl
    | with_reducible apply State.exTrap_only
    | with_reducible apply State.exResidue_only
    | with_reducible apply State.exToken_only
    | with_reducible apply State.onEx_only
    | with_reducible apply State.residue_only
    | with_reducible apply State.opportunity_only
    | with_reducible apply State.onColl_only
    | (with_reducible refine Only.ite (fun _ => ?_) (fun _ => ?_))
    | split
    | exact Fld.sub_trans (by decide) hs
    | intro _
    | dsimp only

theorem State.injected_only {w : List Fld} {s u : State} (h : Only w s u) 
    (hs : Fld.sub [.dbg] w = true := by decide) : Only w s (State.injected u) := by
  unfold State.injected
  repeat' first
    | with_reducible assumption
    | with_reducible apply Only.foldl
    | (with_reducible refine Only.ite (fun _ => ?_) (fun _ => ?_))
    | split
    | ((with_reducible refine Only.put_dbg ?_ _ ?hm); case hm => exact Fld.sub_contains hs (by decide))
    | exact Fld.sub_trans (by decide) hs
    | intro _
    | dsimp only

theorem State.wcredit_only {w : List Fld} {s u : State} (h : Only w s u) (x1 : Coll) (x2 : Point) (x3 : List Buf)
    (hs : Fld.sub [.gst, .colls, .stakes, .vc0] w = true := by decide) : Only w s (State.wcredit u x1 x2 x3) := by
  unfold State.wcredit
  repeat' first
    | with_reducible assumption
    | with_reducible apply Only.foldl
    | with_reducible apply State.send_only
    | (with_reducible refine Only.ite (fun _ => ?_) (fun _ => ?_))
    | split
    | exact Fld.sub_trans (by decide) hs
    | intro _
    | dsimp only

theorem State.combineTree_only {w : List Fld} {s u : State} (h : Only w s u) (x1 : Coll) (x2 : Point) (x3 : Nat)
    (hs : Fld.sub [.gst, .adm, .colls, .stakes, .upd, .dbg, .vc0] w = true := by decide) : Only w s (State.combineTree u x1 x2 x3) := by
  unfold State.combineTree
  repeat' first
    | with_reducible assumption
    | with_reducible apply Only.foldl
    | with_reducible apply State.wcredit_only
    | with_reducible apply State.injected_only
    | with_reducible apply State.passSteps_only
    | with_reducible apply State.forward_only
    | with_reducible apply State.residue_only
    | with_reducible apply State.onColl_only
    | (with_reducible refine Only.ite (fun _ => ?_) (fun _ => ?_))
    | split
    | exact Fld.sub_trans (by decide) hs
    | intro _
    | dsimp only

theorem State.clearAllHoops_only {w : List Fld} {s u : State} (h : Only w s u) 
    (hs : Fld.sub [.hoops, .ports] w = true := by decide) : Only w s (State.clearAllHoops u) := by
  unfold State.clearAllHoops
  repeat' first
    | with_reducible assumption
    | with_reducible apply Only.foldl
    | with_reducible apply State.endWait_only
    | (with_reducible refine Only.ite (fun _ => ?_) (fun _ => ?_))
    | split
    | ((with_reducible refine Only.put_hoops ?_ _ ?hm); case hm => exact Fld.sub_contains hs (by decide))
    | exact Fld.sub_trans (by decide) hs
    | intro _
    | dsimp only

theorem State.dropPulses_only {w : List Fld} {s u : State} (h : Only w s u) (x1 : Nat)
    (hs : Fld.sub [.fdw] w = true := by decide) : Only w s (State.dropPulses u x1) := by
  unfold State.dropPulses
  repeat' first
    | with_reducible assumption
    | with_reducible apply Only.foldl
    | with_reducible apply State.setEvtOut_only
    | (with_reducible refine Only.ite (fun _ => ?_) (fun _ => ?_))
    | split
    | exact Fld.sub_trans (by decide) hs
    | intro _
    | dsimp only

theorem State.freeNext_only {w : List Fld} {s u : State} (h : Only w s u) 
    (hs : Fld.sub [.free] w = true := by decide) : Only w s (State.freeNext u).2 := by
  unfold State.freeNext
  repeat' first
    | with_reducible assumption
    | with_reducible apply Only.foldl
    | (with_reducible refine Only.ite (fun _ => ?_) (fun _ => ?_))
    | split
    | ((with_reducible refine Only.put_free ?_ _ ?hm); case hm => exact Fld.sub_contains hs (by decide))
    | exact Fld.sub_trans (by decide) hs
    | intro _
    | dsimp only

theorem State.disableChan_only {w : List Fld} {s u : State} (h : Only w s u) (x1 : Nat) (x2 : Nat)
    (hs : Fld.sub [.gst, .chans, .fdw, .colls, .stakes, .vc0, .free] w = true := by decide) : Only w s (State.disableChan u x1 x2) := by
  unfold State.disableChan
  repeat' first
    | with_reducible assumption
    | with_reducible apply Only.foldl
    | with_reducible apply State.freeNext_only
    | with_reducible apply State.dropPulses_only
    | with_reducible apply State.setChan_only
    | with_reducible apply State.orphan_only
    | with_reducible apply State.report_only
    | (with_reducible refine Only.ite (fun _ => ?_) (fun _ => ?_))
    | split
    | exact Fld.sub_trans (by decide) hs
    | intro _
    | dsimp only

theorem State.dropColls_only {w : List Fld} {s u : State} (h : Only w s u) (x1 : Bool)
    (hs : Fld.sub [.colls, .col] w = true := by decide) : Only w s (State.dropColls u x1) := by
  unfold State.dropColls
  repeat' first
    | with_reducible assumption
    | with_reducible apply Only.foldl
    | with_reducible apply State.freeEntryOf_only
    | (with_reducible refine Only.ite (fun _ => ?_) (fun _ => ?_))
    | split
    | ((with_reducible refine Only.put_colls ?_ _ ?hm); case hm => exact Fld.sub_contains hs (by decide))
    | exact Fld.sub_trans (by decide) hs
    | intro _
    | dsimp only

theorem State.newRecord_only {w : List Fld} {s u : State} (h : Only w s u) (x1 : BitVec 12) (x2 : Word)
    (hs : Fld.sub [.colls] w = true := by decide) : Only w s (State.newRecord u x1 x2) := by
  unfold State.newRecord
  repeat' first
    | with_reducible assumption
    | with_reducible apply Only.foldl
    | (with_reducible refine Only.ite (fun _ => ?_) (fun _ => ?_))
    | split
    | ((with_reducible refine Only.put_colls ?_ _ ?hm); case hm => exact Fld.sub_contains hs (by decide))
    | exact Fld.sub_trans (by decide) hs
    | intro _
    | dsimp only

theorem State.applyToken_only {w : List Fld} {s u : State} (h : Only w s u) (x1 : BitVec 12) (x2 : Word) (x3 : Nat) (x4 : List Word) (x5 : List Word)
    (hs : Fld.sub [.gst, .chans, .fdw, .hoopNet, .ports, .colls, .col, .stakes, .upd, .vc0] w = true := by decide) : Only w s (State.applyToken u x1 x2 x3 x4 x5) := by
  unfold State.applyToken
  repeat' first
    | with_reducible assumption
    | with_reducible apply Only.foldl
    | with_reducible apply State.newRecord_only
    | with_reducible apply State.tokChain_only
    | with_reducible apply State.onColl_only
    | (with_reducible refine Only.ite (fun _ => ?_) (fun _ => ?_))
    | split
    | exact Fld.sub_trans (by decide) hs
    | intro _
    | dsimp only

theorem State.imageAbort_only {w : List Fld} {s u : State} (h : Only w s u) (x1 : BitVec 12) (x2 : Word)
    (hs : Fld.sub [.gst, .adm, .chans, .fdw, .hoopNet, .ports, .colls, .col, .stakes, .upd, .vc0] w = true := by decide) : Only w s (State.imageAbort u x1 x2) := by
  unfold State.imageAbort
  repeat' first
    | with_reducible assumption
    | with_reducible apply Only.foldl
    | with_reducible apply State.applyToken_only
    | with_reducible apply State.decideAbort_only
    | with_reducible apply State.report_only
    | (with_reducible refine Only.ite (fun _ => ?_) (fun _ => ?_))
    | split
    | exact Fld.sub_trans (by decide) hs
    | intro _
    | dsimp only

theorem State.invalidate_only {w : List Fld} {s u : State} (h : Only w s u) 
    (hs : Fld.sub [.gst, .img, .adm, .pwr, .chans, .fdw, .hoops, .hoopNet, .ports, .colls, .col, .stakes, .upd, .vc0, .free] w = true := by decide) : Only w s (State.invalidate u) := by
  unfold State.invalidate
  repeat' first
    | with_reducible assumption
    | with_reducible apply Only.foldl
    | with_reducible apply State.imageAbort_only
    | with_reducible apply State.dropColls_only
    | with_reducible apply State.disableChan_only
    | with_reducible apply State.clearAllHoops_only
    | (with_reducible refine Only.ite (fun _ => ?_) (fun _ => ?_))
    | split
    | ((with_reducible refine Only.put_col_vc0 ?_ _ _ ?h0 ?h1); (case h0 => exact Fld.sub_contains hs (by decide)); (case h1 => exact Fld.sub_contains hs (by decide)))
    | ((with_reducible refine Only.put_img_pwr ?_ _ _ ?h0 ?h1); (case h0 => exact Fld.sub_contains hs (by decide)); (case h1 => exact Fld.sub_contains hs (by decide)))
    | ((with_reducible refine Only.put_col ?_ _ ?hm); case hm => exact Fld.sub_contains hs (by decide))
    | ((with_reducible refine Only.put_vc0 ?_ _ ?hm); case hm => exact Fld.sub_contains hs (by decide))
    | ((with_reducible refine Only.put_img ?_ _ ?hm); case hm => exact Fld.sub_contains hs (by decide))
    | ((with_reducible refine Only.put_pwr ?_ _ ?hm); case hm => exact Fld.sub_contains hs (by decide))
    | ((with_reducible refine Only.put_stakes ?_ _ ?hm); case hm => exact Fld.sub_contains hs (by decide))
    | exact Fld.sub_trans (by decide) hs
    | intro _
    | dsimp only

theorem State.configLost_only {w : List Fld} {s u : State} (h : Only w s u) (x1 : Nat) (x2 : Nat) (x3 : BitVec 8) (x4 : Word)
    (hs : Fld.sub [.gst, .img, .adm, .pwr, .chans, .fdw, .hoops, .hoopNet, .ports, .colls, .col, .stakes, .upd, .vc0, .free] w = true := by decide) : Only w s (State.configLost u x1 x2 x3 x4) := by
  unfold State.configLost
  repeat' first
    | with_reducible assumption
    | with_reducible apply Only.foldl
    | with_reducible apply State.invalidate_only
    | with_reducible apply State.logEv_only
    | with_reducible apply State.attn_only
    | (with_reducible refine Only.ite (fun _ => ?_) (fun _ => ?_))
    | split
    | ((with_reducible refine Only.put_img ?_ _ ?hm); case hm => exact Fld.sub_contains hs (by decide))
    | exact Fld.sub_trans (by decide) hs
    | intro _
    | dsimp only

theorem State.storage_only {w : List Fld} {s u : State} (h : Only w s u) (x1 : Coll) (x2 : Nat) (x3 : Nat) (x4 : StorageEvent)
    (hs : Fld.sub [.gst, .img, .adm, .pwr, .chans, .fdw, .hoops, .hoopNet, .ports, .colls, .col, .stakes, .upd, .vc0, .free] w = true := by decide) : Only w s (State.storage u x1 x2 x3 x4).1 := by
  unfold State.storage
  repeat' first
    | with_reducible assumption
    | with_reducible apply Only.foldl
    | with_reducible apply State.configLost_only
    | with_reducible apply State.report_only
    | with_reducible apply State.logEv_only
    | (with_reducible refine Only.ite (fun _ => ?_) (fun _ => ?_))
    | split
    | ((with_reducible refine Only.put_gst ?_ _ ?hm); case hm => exact Fld.sub_contains hs (by decide))
    | exact Fld.sub_trans (by decide) hs
    | intro _
    | dsimp only

theorem State.combineAt_only {w : List Fld} {s u : State} (h : Only w s u) (x1 : BitVec 12) (x2 : Word) (x3 : Point) (x4 : Nat) (x5 : StorageEvent)
    (hs : Fld.sub [.gst, .img, .adm, .pwr, .chans, .fdw, .hoops, .hoopNet, .ports, .colls, .col, .stakes, .exc, .upd, .dbg, .vc0, .free] w = true := by decide) : Only w s (State.combineAt u x1 x2 x3 x4 x5) := by
  unfold State.combineAt
  repeat' first
    | with_reducible assumption
    | with_reducible apply Only.foldl
    | with_reducible apply State.storage_only
    | with_reducible apply State.combineTree_only
    | with_reducible apply State.combineToken_only
    | (with_reducible refine Only.ite (fun _ => ?_) (fun _ => ?_))
    | split
    | exact Fld.sub_trans (by decide) hs
    | intro _
    | dsimp only

theorem execCombineWale_only (s : State) (x0 : BitVec 12) (x1 : Word) (x2 : Point) (x3 : Nat) (x4 : StorageEvent) :
    NextOnly [.gst, .img, .adm, .pwr, .chans, .fdw, .hoops, .hoopNet, .ports, .colls, .col, .stakes, .exc, .upd, .dbg, .vc0, .free] s (execCombineWale x0 x1 x2 x3 x4 s) := by
  unfold execCombineWale
  refine live_only ?_
  repeat' first
    | with_reducible assumption
    | with_reducible exact Only.refl
    | with_reducible apply Only.foldl
    | with_reducible apply State.combineAt_only
    | with_reducible apply State.settle_only
    | (with_reducible refine Only.ite (fun _ => ?_) (fun _ => ?_))
    | split
    | decide
    | intro _
    | dsimp only

theorem execRxWaleTaken_only (s : State) (x0 : Fin 1024) :
    NextOnly [.ports, .colls] s (execRxWaleTaken x0 s) := by
  unfold execRxWaleTaken
  refine live_only ?_
  repeat' first
    | with_reducible assumption
    | with_reducible exact Only.refl
    | with_reducible apply Only.foldl
    | with_reducible apply State.onColl_only
    | with_reducible apply State.onPort_only
    | (with_reducible refine Only.ite (fun _ => ?_) (fun _ => ?_))
    | split
    | decide
    | intro _
    | dsimp only

theorem execStatusTaken_only (s : State) (x0 : Fin 1024) :
    NextOnly [.ports] s (execStatusTaken x0 s) := by
  unfold execStatusTaken
  refine live_only ?_
  repeat' first
    | with_reducible assumption
    | with_reducible exact Only.refl
    | with_reducible apply Only.foldl
    | with_reducible apply State.onPort_only
    | (with_reducible refine Only.ite (fun _ => ?_) (fun _ => ?_))
    | split
    | decide
    | intro _
    | dsimp only

theorem State.takeToken_only {w : List Fld} {s u : State} (h : Only w s u) (x1 : Nat)
    (hs : Fld.sub [.gst, .adm, .pwr, .chans, .fdw, .hoops, .hoopNet, .ports, .colls, .col, .stakes, .exc, .upd, .vc0] w = true := by decide) : Only w s (State.takeToken u x1) := by
  unfold State.takeToken
  repeat' first
    | with_reducible assumption
    | with_reducible apply Only.foldl
    | with_reducible apply State.settle_only
    | with_reducible apply State.reap_only
    | with_reducible apply State.onPort_only
    | (with_reducible refine Only.ite (fun _ => ?_) (fun _ => ?_))
    | split
    | exact Fld.sub_trans (by decide) hs
    | intro _
    | dsimp only

theorem execTerminalTokenTaken_only (s : State) (x0 : Fin 1024) :
    NextOnly [.gst, .adm, .pwr, .chans, .fdw, .hoops, .hoopNet, .ports, .colls, .col, .stakes, .exc, .upd, .vc0] s (execTerminalTokenTaken x0 s) := by
  unfold execTerminalTokenTaken
  refine live_only ?_
  repeat' first
    | with_reducible assumption
    | with_reducible exact Only.refl
    | with_reducible apply Only.foldl
    | with_reducible apply State.takeToken_only
    | (with_reducible refine Only.ite (fun _ => ?_) (fun _ => ?_))
    | split
    | decide
    | intro _
    | dsimp only

theorem State.dropStale_only {w : List Fld} {s u : State} (h : Only w s u) (x1 : BitVec 12) (x2 : Word)
    (hs : Fld.sub [.colls] w = true := by decide) : Only w s (State.dropStale u x1 x2) := by
  unfold State.dropStale
  repeat' first
    | with_reducible assumption
    | with_reducible apply Only.foldl
    | (with_reducible refine Only.ite (fun _ => ?_) (fun _ => ?_))
    | split
    | ((with_reducible refine Only.put_colls ?_ _ ?hm); case hm => exact Fld.sub_contains hs (by decide))
    | exact Fld.sub_trans (by decide) hs
    | intro _
    | dsimp only

theorem State.agreeHere_only {w : List Fld} {s u : State} (h : Only w s u) (x1 : BitVec 12) (x2 : Word) (x3 : AgIn)
    (hs : Fld.sub [.gst, .adm, .colls, .col, .stakes, .upd, .vc0] w = true := by decide) : Only w s (State.agreeHere u x1 x2 x3) := by
  unfold State.agreeHere
  repeat' first
    | with_reducible assumption
    | with_reducible apply Only.foldl
    | with_reducible apply State.dropStale_only
    | with_reducible apply State.reap_only
    | with_reducible apply State.pair_only
    | with_reducible apply State.gather_only
    | with_reducible apply State.onColl_only
    | (with_reducible refine Only.ite (fun _ => ?_) (fun _ => ?_))
    | split
    | ((with_reducible refine Only.put_col ?_ _ ?hm); case hm => exact Fld.sub_contains hs (by decide))
    | exact Fld.sub_trans (by decide) hs
    | intro _
    | dsimp only

theorem State.onAgree_only {w : List Fld} {s u : State} (h : Only w s u) (x1 : Msg)
    (hs : Fld.sub [.gst, .adm, .colls, .col, .stakes, .upd, .vc0] w = true := by decide) : Only w s (State.onAgree u x1) := by
  unfold State.onAgree
  repeat' first
    | with_reducible assumption
    | with_reducible apply Only.foldl
    | with_reducible apply State.agreeHere_only
    | (with_reducible refine Only.ite (fun _ => ?_) (fun _ => ?_))
    | split
    | exact Fld.sub_trans (by decide) hs
    | intro _
    | dsimp only

theorem State.takeMsg_only {w : List Fld} {s u : State} (h : Only w s u) (x1 : Msg)
    (hs : Fld.sub [.vc0] w = true := by decide) : Only w s (State.takeMsg u x1) := by
  unfold State.takeMsg
  repeat' first
    | with_reducible assumption
    | with_reducible apply Only.foldl
    | (with_reducible refine Only.ite (fun _ => ?_) (fun _ => ?_))
    | split
    | ((with_reducible refine Only.put_vc0 ?_ _ ?hm); case hm => exact Fld.sub_contains hs (by decide))
    | exact Fld.sub_trans (by decide) hs
    | intro _
    | dsimp only

theorem execAgree_only (s : State) (x0 : Msg) :
    NextOnly [.gst, .adm, .pwr, .chans, .fdw, .hoops, .hoopNet, .ports, .colls, .col, .stakes, .exc, .upd, .vc0] s (execAgree x0 s) := by
  unfold execAgree
  refine live_only ?_
  repeat' first
    | with_reducible assumption
    | with_reducible exact Only.refl
    | with_reducible apply Only.foldl
    | with_reducible apply State.takeMsg_only
    | with_reducible apply State.onAgree_only
    | with_reducible apply State.settle_only
    | (with_reducible refine Only.ite (fun _ => ?_) (fun _ => ?_))
    | split
    | decide
    | intro _
    | dsimp only

theorem State.refuseChain_only {w : List Fld} {s u : State} (h : Only w s u) (x1 : BitVec 12) (x2 : Word) (x3 : Chain)
    (hs : Fld.sub [.gst, .ports, .colls, .stakes, .vc0] w = true := by decide) : Only w s (State.refuseChain u x1 x2 x3) := by
  unfold State.refuseChain
  repeat' first
    | with_reducible assumption
    | with_reducible apply Only.foldl
    | with_reducible apply State.sendEdge_only
    | with_reducible apply State.onColl_only
    | with_reducible apply State.status_only
    | (with_reducible refine Only.ite (fun _ => ?_) (fun _ => ?_))
    | split
    | exact Fld.sub_trans (by decide) hs
    | intro _
    | dsimp only

theorem State.applyRefuse_only {w : List Fld} {s u : State} (h : Only w s u) (x1 : BitVec 12) (x2 : Word) (x3 : Nat)
    (hs : Fld.sub [.gst, .chans, .fdw, .ports, .colls, .stakes, .vc0] w = true := by decide) : Only w s (State.applyRefuse u x1 x2 x3) := by
  unfold State.applyRefuse
  repeat' first
    | with_reducible assumption
    | with_reducible apply Only.foldl
    | with_reducible apply State.refuseChain_only
    | with_reducible apply State.endBinds_only
    | (with_reducible refine Only.ite (fun _ => ?_) (fun _ => ?_))
    | split
    | ((with_reducible refine Only.put_colls ?_ _ ?hm); case hm => exact Fld.sub_contains hs (by decide))
    | exact Fld.sub_trans (by decide) hs
    | intro _
    | dsimp only

theorem State.srcRefused_only {w : List Fld} {s u : State} (h : Only w s u) (x1 : BitVec 12) (x2 : Word) (x3 : Nat) (x4 : Nat)
    (hs : Fld.sub [.gst, .adm, .colls, .stakes, .vc0] w = true := by decide) : Only w s (State.srcRefused u x1 x2 x3 x4) := by
  unfold State.srcRefused
  repeat' first
    | with_reducible assumption
    | with_reducible apply Only.foldl
    | with_reducible apply State.pair_only
    | with_reducible apply State.sendUp_only
    | with_reducible apply State.refuseColl_only
    | with_reducible apply State.onColl_only
    | (with_reducible refine Only.ite (fun _ => ?_) (fun _ => ?_))
    | split
    | exact Fld.sub_trans (by decide) hs
    | intro _
    | dsimp only

theorem State.onRefuse_only {w : List Fld} {s u : State} (h : Only w s u) (x1 : Msg)
    (hs : Fld.sub [.gst, .adm, .chans, .fdw, .ports, .colls, .stakes, .vc0] w = true := by decide) : Only w s (State.onRefuse u x1) := by
  unfold State.onRefuse
  repeat' first
    | with_reducible assumption
    | with_reducible apply Only.foldl
    | with_reducible apply State.srcRefused_only
    | with_reducible apply State.applyRefuse_only
    | (with_reducible refine Only.ite (fun _ => ?_) (fun _ => ?_))
    | split
    | exact Fld.sub_trans (by decide) hs
    | intro _
    | dsimp only

theorem execRefuse_only (s : State) (x0 : Msg) :
    NextOnly [.gst, .adm, .pwr, .chans, .fdw, .hoops, .hoopNet, .ports, .colls, .col, .stakes, .exc, .upd, .vc0] s (execRefuse x0 s) := by
  unfold execRefuse
  refine live_only ?_
  repeat' first
    | with_reducible assumption
    | with_reducible exact Only.refl
    | with_reducible apply Only.foldl
    | with_reducible apply State.onRefuse_only
    | with_reducible apply State.takeMsg_only
    | with_reducible apply State.settle_only
    | (with_reducible refine Only.ite (fun _ => ?_) (fun _ => ?_))
    | split
    | decide
    | intro _
    | dsimp only

theorem execGatherLimitExpiry_only (s : State) (x0 : BitVec 12) (x1 : Word) :
    NextOnly [.gst, .adm, .colls, .stakes, .upd, .vc0] s (execGatherLimitExpiry x0 x1 s) := by
  unfold execGatherLimitExpiry
  refine live_only ?_
  repeat' first
    | with_reducible assumption
    | with_reducible exact Only.refl
    | with_reducible apply Only.foldl
    | with_reducible apply State.decideAbort_only
    | (with_reducible refine Only.ite (fun _ => ?_) (fun _ => ?_))
    | split
    | decide
    | intro _
    | dsimp only

theorem State.reportChain_only {w : List Fld} {s u : State} (h : Only w s u) (x1 : BitVec 12) (x2 : Word) (x3 : Chain)
    (hs : Fld.sub [.gst, .colls, .stakes, .vc0] w = true := by decide) : Only w s (State.reportChain u x1 x2 x3) := by
  unfold State.reportChain
  repeat' first
    | with_reducible assumption
    | with_reducible apply Only.foldl
    | with_reducible apply State.sendEdge_only
    | with_reducible apply State.send_only
    | with_reducible apply State.onColl_only
    | (with_reducible refine Only.ite (fun _ => ?_) (fun _ => ?_))
    | split
    | exact Fld.sub_trans (by decide) hs
    | intro _
    | dsimp only

theorem State.sendDown_only {w : List Fld} {s u : State} (h : Only w s u) (x1 : List (Nat × Nat × Nat)) (x2 : BitVec 12) (x3 : Word) (x4 : Body) (x5 : optParam (BitVec 16) 0)
    (hs : Fld.sub [.gst, .colls, .stakes, .vc0] w = true := by decide) : Only w s (State.sendDown u x1 x2 x3 x4 x5) := by
  unfold State.sendDown
  repeat' first
    | with_reducible assumption
    | with_reducible apply Only.foldl
    | with_reducible apply State.sendEdge_only
    | (with_reducible refine Only.ite (fun _ => ?_) (fun _ => ?_))
    | split
    | exact Fld.sub_trans (by decide) hs
    | intro _
    | dsimp only

theorem State.reserveChain_only {w : List Fld} {s u : State} (h : Only w s u) (x1 : BitVec 12) (x2 : Word) (x3 : Chain)
    (hs : Fld.sub [.gst, .colls, .stakes, .vc0] w = true := by decide) : Only w s (State.reserveChain u x1 x2 x3) := by
  unfold State.reserveChain
  repeat' first
    | with_reducible assumption
    | with_reducible apply Only.foldl
    | with_reducible apply State.sendDown_only
    | with_reducible apply State.reportChain_only
    | with_reducible apply State.orFail_only
    | with_reducible apply State.onColl_only
    | (with_reducible refine Only.ite (fun _ => ?_) (fun _ => ?_))
    | split
    | exact True.intro
    | exact Fld.sub_trans (by decide) hs
    | intro _
    | dsimp only

theorem State.retake_only {w : List Fld} {s u : State} (h : Only w s u) (x1 : Coll)
    (hs : Fld.sub [.adm, .colls] w = true := by decide) : Only w s (State.retake u x1) := by
  unfold State.retake
  repeat' first
    | with_reducible assumption
    | with_reducible apply Only.foldl
    | with_reducible apply State.putColl_only
    | (with_reducible refine Only.ite (fun _ => ?_) (fun _ => ?_))
    | split
    | ((with_reducible refine Only.put_adm ?_ _ ?hm); case hm => exact Fld.sub_contains hs (by decide))
    | exact Fld.sub_trans (by decide) hs
    | intro _
    | dsimp only

theorem State.reserveHere_only {w : List Fld} {s u : State} (h : Only w s u) (x1 : BitVec 12) (x2 : Word) (x3 : List Word) (x4 : BitVec 16) (x5 : Nat)
    (hs : Fld.sub [.gst, .adm, .colls, .stakes, .vc0] w = true := by decide) : Only w s (State.reserveHere u x1 x2 x3 x4 x5) := by
  unfold State.reserveHere
  repeat' first
    | with_reducible assumption
    | with_reducible apply Only.foldl
    | with_reducible apply State.retake_only
    | with_reducible apply State.reserveChain_only
    | with_reducible apply State.putColl_only
    | (with_reducible refine Only.ite (fun _ => ?_) (fun _ => ?_))
    | split
    | exact Fld.sub_trans (by decide) hs
    | intro _
    | dsimp only

theorem State.onReserve_only {w : List Fld} {s u : State} (h : Only w s u) (x1 : Msg)
    (hs : Fld.sub [.gst, .adm, .colls, .stakes, .vc0] w = true := by decide) : Only w s (State.onReserve u x1) := by
  unfold State.onReserve
  repeat' first
    | with_reducible assumption
    | with_reducible apply Only.foldl
    | with_reducible apply State.reserveHere_only
    | with_reducible apply State.report_only
    | (with_reducible refine Only.ite (fun _ => ?_) (fun _ => ?_))
    | split
    | exact Fld.sub_trans (by decide) hs
    | intro _
    | dsimp only

theorem execReserve_only (s : State) (x0 : Msg) :
    NextOnly [.gst, .adm, .colls, .stakes, .vc0] s (execReserve x0 s) := by
  unfold execReserve
  refine live_only ?_
  repeat' first
    | with_reducible assumption
    | with_reducible exact Only.refl
    | with_reducible apply Only.foldl
    | with_reducible apply State.onReserve_only
    | with_reducible apply State.takeMsg_only
    | (with_reducible refine Only.ite (fun _ => ?_) (fun _ => ?_))
    | split
    | decide
    | intro _
    | dsimp only

theorem State.decideAdmission_only {w : List Fld} {s u : State} (h : Only w s u) (x1 : BitVec 12) (x2 : Word) (x3 : Report)
    (hs : Fld.sub [.gst, .adm, .colls, .stakes, .upd, .vc0] w = true := by decide) : Only w s (State.decideAdmission u x1 x2 x3) := by
  unfold State.decideAdmission
  repeat' first
    | with_reducible assumption
    | with_reducible apply Only.foldl
    | with_reducible apply State.refuseColl_only
    | with_reducible apply State.decideAbort_only
    | with_reducible apply State.send_only
    | with_reducible apply State.onColl_only
    | (with_reducible refine Only.ite (fun _ => ?_) (fun _ => ?_))
    | split
    | ((with_reducible refine Only.put_adm ?_ _ ?hm); case hm => exact Fld.sub_contains hs (by decide))
    | exact Fld.sub_trans (by decide) hs
    | intro _
    | dsimp only

theorem State.onReport_only {w : List Fld} {s u : State} (h : Only w s u) (x1 : Msg)
    (hs : Fld.sub [.gst, .adm, .colls, .stakes, .upd, .vc0] w = true := by decide) : Only w s (State.onReport u x1) := by
  unfold State.onReport
  repeat' first
    | with_reducible assumption
    | with_reducible apply Only.foldl
    | with_reducible apply State.decideAdmission_only
    | with_reducible apply State.reportChain_only
    | with_reducible apply State.onColl_only
    | (with_reducible refine Only.ite (fun _ => ?_) (fun _ => ?_))
    | split
    | exact Fld.sub_trans (by decide) hs
    | intro _
    | dsimp only

theorem execReserveReport_only (s : State) (x0 : Msg) :
    NextOnly [.gst, .adm, .colls, .stakes, .upd, .vc0] s (execReserveReport x0 s) := by
  unfold execReserveReport
  refine live_only ?_
  repeat' first
    | with_reducible assumption
    | with_reducible exact Only.refl
    | with_reducible apply Only.foldl
    | with_reducible apply State.onReport_only
    | with_reducible apply State.takeMsg_only
    | (with_reducible refine Only.ite (fun _ => ?_) (fun _ => ?_))
    | split
    | decide
    | intro _
    | dsimp only

theorem State.chargeVc1_only {w : List Fld} {s u : State} (h : Only w s u) (x1 : Coll)
    (hs : Fld.sub [.colls] w = true := by decide) : Only w s (State.chargeVc1 u x1) := by
  unfold State.chargeVc1
  repeat' first
    | with_reducible assumption
    | with_reducible apply Only.foldl
    | (with_reducible refine Only.ite (fun _ => ?_) (fun _ => ?_))
    | split
    | ((with_reducible refine Only.put_colls ?_ _ ?hm); case hm => exact Fld.sub_contains hs (by decide))
    | exact Fld.sub_trans (by decide) hs
    | intro _
    | dsimp only

theorem State.admitOne_only {w : List Fld} {s u : State} (h : Only w s u) (x1 : BitVec 12) (x2 : Word) (x3 : BitVec 64) (x4 : BitVec 64) (x5 : Nat)
    (hs : Fld.sub [.gst, .adm, .pwr, .chans, .fdw, .hoopNet, .ports, .colls, .col, .stakes, .exc, .upd, .vc0] w = true := by decide) : Only w s (State.admitOne u x1 x2 x3 x4 x5) := by
  unfold State.admitOne
  repeat' first
    | with_reducible assumption
    | with_reducible apply Only.foldl
    | with_reducible apply State.chargeVc1_only
    | with_reducible apply State.openTry_only
    | with_reducible apply State.onColl_only
    | (with_reducible refine Only.ite (fun _ => ?_) (fun _ => ?_))
    | split
    | exact Fld.sub_trans (by decide) hs
    | intro _
    | dsimp only

theorem State.admitHere_only {w : List Fld} {s u : State} (h : Only w s u) (x1 : BitVec 12) (x2 : Word) (x3 : BitVec 64) (x4 : BitVec 64) (x5 : Nat) (x6 : BitVec 16) (x7 : Nat)
    (hs : Fld.sub [.gst, .adm, .pwr, .chans, .fdw, .hoopNet, .ports, .colls, .col, .stakes, .exc, .upd, .vc0] w = true := by decide) : Only w s (State.admitHere u x1 x2 x3 x4 x5 x6 x7) := by
  unfold State.admitHere
  repeat' first
    | with_reducible assumption
    | with_reducible apply Only.foldl
    | with_reducible apply State.admitOne_only
    | with_reducible apply State.sendDown_only
    | (with_reducible refine Only.ite (fun _ => ?_) (fun _ => ?_))
    | split
    | exact Fld.sub_trans (by decide) hs
    | intro _
    | dsimp only

theorem State.onAdmit_only {w : List Fld} {s u : State} (h : Only w s u) (x1 : Msg)
    (hs : Fld.sub [.gst, .adm, .pwr, .chans, .fdw, .hoopNet, .ports, .colls, .col, .stakes, .exc, .upd, .vc0] w = true := by decide) : Only w s (State.onAdmit u x1) := by
  unfold State.onAdmit
  repeat' first
    | with_reducible assumption
    | with_reducible apply Only.foldl
    | with_reducible apply State.admitHere_only
    | (with_reducible refine Only.ite (fun _ => ?_) (fun _ => ?_))
    | split
    | exact Fld.sub_trans (by decide) hs
    | intro _
    | dsimp only

theorem execAdmission_only (s : State) (x0 : Msg) :
    NextOnly [.gst, .adm, .pwr, .chans, .fdw, .hoops, .hoopNet, .ports, .colls, .col, .stakes, .exc, .upd, .vc0] s (execAdmission x0 s) := by
  unfold execAdmission
  refine live_only ?_
  repeat' first
    | with_reducible assumption
    | with_reducible exact Only.refl
    | with_reducible apply Only.foldl
    | with_reducible apply State.onAdmit_only
    | with_reducible apply State.takeMsg_only
    | with_reducible apply State.settle_only
    | (with_reducible refine Only.ite (fun _ => ?_) (fun _ => ?_))
    | split
    | decide
    | intro _
    | dsimp only

theorem State.dropIf_only {w : List Fld} {s u : State} (h : Only w s u) (x1 : BitVec 12) (x2 : Word)
    (hs : Fld.sub [.colls] w = true := by decide) : Only w s (State.dropIf u x1 x2) := by
  unfold State.dropIf
  repeat' first
    | with_reducible assumption
    | with_reducible apply Only.foldl
    | (with_reducible refine Only.ite (fun _ => ?_) (fun _ => ?_))
    | split
    | ((with_reducible refine Only.put_colls ?_ _ ?hm); case hm => exact Fld.sub_contains hs (by decide))
    | exact Fld.sub_trans (by decide) hs
    | intro _
    | dsimp only

theorem State.releaseHere_only {w : List Fld} {s u : State} (h : Only w s u) (x1 : BitVec 12) (x2 : Word) (x3 : BitVec 16) (x4 : Nat)
    (hs : Fld.sub [.gst, .colls, .stakes, .vc0] w = true := by decide) : Only w s (State.releaseHere u x1 x2 x3 x4) := by
  unfold State.releaseHere
  repeat' first
    | with_reducible assumption
    | with_reducible apply Only.foldl
    | with_reducible apply State.dropIf_only
    | with_reducible apply State.sendDown_only
    | with_reducible apply State.onColl_only
    | (with_reducible refine Only.ite (fun _ => ?_) (fun _ => ?_))
    | split
    | exact Fld.sub_trans (by decide) hs
    | intro _
    | dsimp only

theorem State.onRelease_only {w : List Fld} {s u : State} (h : Only w s u) (x1 : Msg)
    (hs : Fld.sub [.gst, .colls, .stakes, .vc0] w = true := by decide) : Only w s (State.onRelease u x1) := by
  unfold State.onRelease
  repeat' first
    | with_reducible assumption
    | with_reducible apply Only.foldl
    | with_reducible apply State.releaseHere_only
    | (with_reducible refine Only.ite (fun _ => ?_) (fun _ => ?_))
    | split
    | exact Fld.sub_trans (by decide) hs
    | intro _
    | dsimp only

theorem execReleaseReservation_only (s : State) (x0 : Msg) :
    NextOnly [.gst, .colls, .stakes, .vc0] s (execReleaseReservation x0 s) := by
  unfold execReleaseReservation
  refine live_only ?_
  repeat' first
    | with_reducible assumption
    | with_reducible exact Only.refl
    | with_reducible apply Only.foldl
    | with_reducible apply State.onRelease_only
    | with_reducible apply State.takeMsg_only
    | (with_reducible refine Only.ite (fun _ => ?_) (fun _ => ?_))
    | split
    | decide
    | intro _
    | dsimp only

theorem execReserveRetry_only (s : State) (x0 : BitVec 12) (x1 : Word) :
    NextOnly [.gst, .colls, .stakes, .vc0] s (execReserveRetry x0 x1 s) := by
  unfold execReserveRetry
  refine live_only ?_
  repeat' first
    | with_reducible assumption
    | with_reducible exact Only.refl
    | with_reducible apply Only.foldl
    | with_reducible apply State.startRound_only
    | (with_reducible refine Only.ite (fun _ => ?_) (fun _ => ?_))
    | split
    | decide
    | intro _
    | dsimp only

theorem State.queuedLong_only {w : List Fld} {s u : State} (h : Only w s u) (x1 : BitVec 12) (x2 : Word)
    (hs : Fld.sub [.gst, .adm, .colls] w = true := by decide) : Only w s (State.queuedLong u x1 x2) := by
  unfold State.queuedLong
  repeat' first
    | with_reducible assumption
    | with_reducible apply Only.foldl
    | with_reducible apply State.onColl_only
    | with_reducible apply State.logEv_only
    | (with_reducible refine Only.ite (fun _ => ?_) (fun _ => ?_))
    | split
    | ((with_reducible refine Only.put_adm ?_ _ ?hm); case hm => exact Fld.sub_contains hs (by decide))
    | exact Fld.sub_trans (by decide) hs
    | intro _
    | dsimp only

theorem execQueuedLong_only (s : State) (x0 : BitVec 12) (x1 : Word) :
    NextOnly [.gst, .adm, .colls] s (execQueuedLong x0 x1 s) := by
  unfold execQueuedLong
  refine live_only ?_
  repeat' first
    | with_reducible assumption
    | with_reducible exact Only.refl
    | with_reducible apply Only.foldl
    | with_reducible apply State.queuedLong_only
    | (with_reducible refine Only.ite (fun _ => ?_) (fun _ => ?_))
    | split
    | decide
    | intro _
    | dsimp only

theorem execLaunchFire_only (s : State) (x0 : BitVec 12) (x1 : Word) :
    NextOnly [.gst, .adm, .pwr, .chans, .fdw, .hoops, .hoopNet, .ports, .colls, .col, .stakes, .exc, .upd, .vc0] s (execLaunchFire x0 x1 s) := by
  unfold execLaunchFire
  refine live_only ?_
  repeat' first
    | with_reducible assumption
    | with_reducible exact Only.refl
    | with_reducible apply Only.foldl
    | with_reducible apply State.settle_only
    | with_reducible apply State.openTry_only
    | (with_reducible refine Only.ite (fun _ => ?_) (fun _ => ?_))
    | split
    | decide
    | intro _
    | dsimp only

theorem execBoundExpiry_only (s : State) (x0 : BitVec 12) (x1 : Word) :
    NextOnly [.gst, .adm, .colls, .stakes, .upd, .vc0] s (execBoundExpiry x0 x1 s) := by
  unfold execBoundExpiry
  refine live_only ?_
  repeat' first
    | with_reducible assumption
    | with_reducible exact Only.refl
    | with_reducible apply Only.foldl
    | with_reducible apply State.decideAbort_only
    | (with_reducible refine Only.ite (fun _ => ?_) (fun _ => ?_))
    | split
    | decide
    | intro _
    | dsimp only

theorem State.lateReport_only {w : List Fld} {s u : State} (h : Only w s u) (x1 : Msg) (x2 : Nat) (x3 : Nat) (x4 : BitVec 16)
    (hs : Fld.sub [.gst] w = true := by decide) : Only w s (State.lateReport u x1 x2 x3 x4) := by
  unfold State.lateReport
  repeat' first
    | with_reducible assumption
    | with_reducible apply Only.foldl
    | with_reducible apply State.logEv_only
    | (with_reducible refine Only.ite (fun _ => ?_) (fun _ => ?_))
    | split
    | exact Fld.sub_trans (by decide) hs
    | intro _
    | dsimp only

theorem State.passFault_only {w : List Fld} {s u : State} (h : Only w s u) (x1 : Msg) (x2 : Nat)
    (hs : Fld.sub [.gst, .colls, .stakes, .vc0] w = true := by decide) : Only w s (State.passFault u x1 x2) := by
  unfold State.passFault
  repeat' first
    | with_reducible assumption
    | with_reducible apply Only.foldl
    | with_reducible apply State.logRoute_only
    | with_reducible apply State.cutSide_only
    | (with_reducible refine Only.ite (fun _ => ?_) (fun _ => ?_))
    | split
    | with_reducible apply State.sendRaw_only
    | (refine Sent.Only.ok (State.sendRaw_only ?_ _ _ ?_) (by assumption))
    | exact Fld.sub_trans (by decide) hs
    | intro _
    | dsimp only

theorem State.onFault_only {w : List Fld} {s u : State} (h : Only w s u) (x1 : Msg)
    (hs : Fld.sub [.gst, .adm, .colls, .col, .stakes, .upd, .vc0] w = true := by decide) : Only w s (State.onFault u x1) := by
  unfold State.onFault
  repeat' first
    | with_reducible assumption
    | with_reducible apply Only.foldl
    | with_reducible apply State.passFault_only
    | with_reducible apply State.lateReport_only
    | with_reducible apply State.newRecord_only
    | with_reducible apply State.storeTrap_only
    | with_reducible apply State.decideAbort_only
    | (with_reducible refine Only.ite (fun _ => ?_) (fun _ => ?_))
    | split
    | exact Fld.sub_trans (by decide) hs
    | intro _
    | dsimp only

theorem execFault_only (s : State) (x0 : Msg) :
    NextOnly [.gst, .adm, .colls, .col, .stakes, .upd, .vc0] s (execFault x0 s) := by
  unfold execFault
  refine live_only ?_
  repeat' first
    | with_reducible assumption
    | with_reducible exact Only.refl
    | with_reducible apply Only.foldl
    | with_reducible apply State.onFault_only
    | with_reducible apply State.takeMsg_only
    | (with_reducible refine Only.ite (fun _ => ?_) (fun _ => ?_))
    | split
    | decide
    | intro _
    | dsimp only

theorem State.onClose_only {w : List Fld} {s u : State} (h : Only w s u) (x1 : Msg)
    (hs : Fld.sub [.gst, .adm, .pwr, .chans, .fdw, .hoopNet, .ports, .colls, .col, .stakes, .exc, .upd, .vc0] w = true := by decide) : Only w s (State.onClose u x1) := by
  unfold State.onClose
  repeat' first
    | with_reducible assumption
    | with_reducible apply Only.foldl
    | with_reducible apply State.push_only
    | with_reducible apply State.onColl_only
    | (with_reducible refine Only.ite (fun _ => ?_) (fun _ => ?_))
    | split
    | exact Fld.sub_trans (by decide) hs
    | intro _
    | dsimp only

theorem execClose_only (s : State) (x0 : Msg) :
    NextOnly [.gst, .adm, .pwr, .chans, .fdw, .hoops, .hoopNet, .ports, .colls, .col, .stakes, .exc, .upd, .vc0] s (execClose x0 s) := by
  unfold execClose
  refine live_only ?_
  repeat' first
    | with_reducible assumption
    | with_reducible exact Only.refl
    | with_reducible apply Only.foldl
    | with_reducible apply State.onClose_only
    | with_reducible apply State.takeMsg_only
    | with_reducible apply State.settle_only
    | (with_reducible refine Only.ite (fun _ => ?_) (fun _ => ?_))
    | split
    | decide
    | intro _
    | dsimp only

theorem State.applyAllSent_only {w : List Fld} {s u : State} (h : Only w s u) (x1 : BitVec 12) (x2 : Word) (x3 : Nat)
    (hs : Fld.sub [.gst, .colls, .stakes, .vc0] w = true := by decide) : Only w s (State.applyAllSent u x1 x2 x3) := by
  unfold State.applyAllSent
  repeat' first
    | with_reducible assumption
    | with_reducible apply Only.foldl
    | with_reducible apply State.sendDown_only
    | with_reducible apply State.exMismatch_only
    | with_reducible apply State.onColl_only
    | (with_reducible refine Only.ite (fun _ => ?_) (fun _ => ?_))
    | split
    | exact Fld.sub_trans (by decide) hs
    | intro _
    | dsimp only

theorem State.onAllSent_only {w : List Fld} {s u : State} (h : Only w s u) (x1 : Msg)
    (hs : Fld.sub [.gst, .adm, .pwr, .chans, .fdw, .hoopNet, .ports, .colls, .col, .stakes, .exc, .upd, .vc0] w = true := by decide) : Only w s (State.onAllSent u x1) := by
  unfold State.onAllSent
  repeat' first
    | with_reducible assumption
    | with_reducible apply Only.foldl
    | with_reducible apply State.applyAllSent_only
    | with_reducible apply State.push_only
    | (with_reducible refine Only.ite (fun _ => ?_) (fun _ => ?_))
    | split
    | exact Fld.sub_trans (by decide) hs
    | intro _
    | dsimp only

theorem execAllSent_only (s : State) (x0 : Msg) :
    NextOnly [.gst, .adm, .pwr, .chans, .fdw, .hoops, .hoopNet, .ports, .colls, .col, .stakes, .exc, .upd, .vc0] s (execAllSent x0 s) := by
  unfold execAllSent
  refine live_only ?_
  repeat' first
    | with_reducible assumption
    | with_reducible exact Only.refl
    | with_reducible apply Only.foldl
    | with_reducible apply State.onAllSent_only
    | with_reducible apply State.takeMsg_only
    | with_reducible apply State.settle_only
    | (with_reducible refine Only.ite (fun _ => ?_) (fun _ => ?_))
    | split
    | decide
    | intro _
    | dsimp only

theorem State.onToken_only {w : List Fld} {s u : State} (h : Only w s u) (x1 : Msg)
    (hs : Fld.sub [.gst, .chans, .fdw, .hoopNet, .ports, .colls, .col, .stakes, .upd, .vc0] w = true := by decide) : Only w s (State.onToken u x1) := by
  unfold State.onToken
  repeat' first
    | with_reducible assumption
    | with_reducible apply Only.foldl
    | with_reducible apply State.applyToken_only
    | (with_reducible refine Only.ite (fun _ => ?_) (fun _ => ?_))
    | split
    | exact Fld.sub_trans (by decide) hs
    | intro _
    | dsimp only

theorem execToken_only (s : State) (x0 : Msg) :
    NextOnly [.gst, .adm, .pwr, .chans, .fdw, .hoops, .hoopNet, .ports, .colls, .col, .stakes, .exc, .upd, .vc0] s (execToken x0 s) := by
  unfold execToken
  refine live_only ?_
  repeat' first
    | with_reducible assumption
    | with_reducible exact Only.refl
    | with_reducible apply Only.foldl
    | with_reducible apply State.onToken_only
    | with_reducible apply State.takeMsg_only
    | with_reducible apply State.settle_only
    | (with_reducible refine Only.ite (fun _ => ?_) (fun _ => ?_))
    | split
    | decide
    | intro _
    | dsimp only

theorem State.onFprint_only {w : List Fld} {s u : State} (h : Only w s u) (x1 : Msg)
    (hs : Fld.sub [.gst, .adm, .pwr, .chans, .fdw, .hoopNet, .ports, .colls, .col, .stakes, .exc, .upd, .vc0] w = true := by decide) : Only w s (State.onFprint u x1) := by
  unfold State.onFprint
  repeat' first
    | with_reducible assumption
    | with_reducible apply Only.foldl
    | with_reducible apply State.push_only
    | with_reducible apply State.onColl_only
    | (with_reducible refine Only.ite (fun _ => ?_) (fun _ => ?_))
    | split
    | exact Fld.sub_trans (by decide) hs
    | intro _
    | dsimp only

theorem execFprint_only (s : State) (x0 : Msg) :
    NextOnly [.gst, .adm, .pwr, .chans, .fdw, .hoops, .hoopNet, .ports, .colls, .col, .stakes, .exc, .upd, .vc0] s (execFprint x0 s) := by
  unfold execFprint
  refine live_only ?_
  repeat' first
    | with_reducible assumption
    | with_reducible exact Only.refl
    | with_reducible apply Only.foldl
    | with_reducible apply State.onFprint_only
    | with_reducible apply State.takeMsg_only
    | with_reducible apply State.settle_only
    | (with_reducible refine Only.ite (fun _ => ?_) (fun _ => ?_))
    | split
    | decide
    | intro _
    | dsimp only

theorem State.onWcred_only {w : List Fld} {s u : State} (h : Only w s u) (x1 : Msg)
    (hs : Fld.sub [.colls] w = true := by decide) : Only w s (State.onWcred u x1) := by
  unfold State.onWcred
  repeat' first
    | with_reducible assumption
    | with_reducible apply Only.foldl
    | with_reducible apply State.onColl_only
    | (with_reducible refine Only.ite (fun _ => ?_) (fun _ => ?_))
    | split
    | exact Fld.sub_trans (by decide) hs
    | intro _
    | dsimp only

theorem execWcred_only (s : State) (x0 : Msg) :
    NextOnly [.gst, .adm, .pwr, .chans, .fdw, .hoops, .hoopNet, .ports, .colls, .col, .stakes, .exc, .upd, .vc0] s (execWcred x0 s) := by
  unfold execWcred
  refine live_only ?_
  repeat' first
    | with_reducible assumption
    | with_reducible exact Only.refl
    | with_reducible apply Only.foldl
    | with_reducible apply State.onWcred_only
    | with_reducible apply State.takeMsg_only
    | with_reducible apply State.settle_only
    | (with_reducible refine Only.ite (fun _ => ?_) (fun _ => ?_))
    | split
    | decide
    | intro _
    | dsimp only

theorem State.onXcred_only {w : List Fld} {s u : State} (h : Only w s u) (x1 : Msg)
    (hs : Fld.sub [.colls] w = true := by decide) : Only w s (State.onXcred u x1) := by
  unfold State.onXcred
  repeat' first
    | with_reducible assumption
    | with_reducible apply Only.foldl
    | with_reducible apply State.onEx_only
    | (with_reducible refine Only.ite (fun _ => ?_) (fun _ => ?_))
    | split
    | exact Fld.sub_trans (by decide) hs
    | intro _
    | dsimp only

theorem execXcred_only (s : State) (x0 : Msg) :
    NextOnly [.gst, .adm, .pwr, .chans, .fdw, .hoops, .hoopNet, .ports, .colls, .col, .stakes, .exc, .upd, .vc0] s (execXcred x0 s) := by
  unfold execXcred
  refine live_only ?_
  repeat' first
    | with_reducible assumption
    | with_reducible exact Only.refl
    | with_reducible apply Only.foldl
    | with_reducible apply State.onXcred_only
    | with_reducible apply State.takeMsg_only
    | with_reducible apply State.settle_only
    | (with_reducible refine Only.ite (fun _ => ?_) (fun _ => ?_))
    | split
    | decide
    | intro _
    | dsimp only

theorem State.lostChain_only {w : List Fld} {s u : State} (h : Only w s u) (x1 : BitVec 12) (x2 : Word) (x3 : Chain)
    (hs : Fld.sub [.gst, .chans, .fdw, .ports, .colls, .col, .stakes, .vc0] w = true := by decide) : Only w s (State.lostChain u x1 x2 x3) := by
  unfold State.lostChain
  repeat' first
    | with_reducible assumption
    | with_reducible apply Only.foldl
    | with_reducible apply State.sendDown_only
    | with_reducible apply State.sealLost_only
    | with_reducible apply State.endColl_only
    | with_reducible apply State.reap_only
    | with_reducible apply State.endBinds_only
    | with_reducible apply State.onColl_only
    | (with_reducible refine Only.ite (fun _ => ?_) (fun _ => ?_))
    | split
    | exact Fld.sub_trans (by decide) hs
    | intro _
    | dsimp only

theorem State.applyLost_only {w : List Fld} {s u : State} (h : Only w s u) (x1 : BitVec 12) (x2 : Word) (x3 : Nat)
    (hs : Fld.sub [.gst, .chans, .fdw, .ports, .colls, .col, .stakes, .vc0] w = true := by decide) : Only w s (State.applyLost u x1 x2 x3) := by
  unfold State.applyLost
  repeat' first
    | with_reducible assumption
    | with_reducible apply Only.foldl
    | with_reducible apply State.lostChain_only
    | (with_reducible refine Only.ite (fun _ => ?_) (fun _ => ?_))
    | split
    | exact Fld.sub_trans (by decide) hs
    | intro _
    | dsimp only

theorem State.onLost_only {w : List Fld} {s u : State} (h : Only w s u) (x1 : Msg)
    (hs : Fld.sub [.gst, .chans, .fdw, .ports, .colls, .col, .stakes, .vc0] w = true := by decide) : Only w s (State.onLost u x1) := by
  unfold State.onLost
  repeat' first
    | with_reducible assumption
    | with_reducible apply Only.foldl
    | with_reducible apply State.applyLost_only
    | (with_reducible refine Only.ite (fun _ => ?_) (fun _ => ?_))
    | split
    | exact Fld.sub_trans (by decide) hs
    | intro _
    | dsimp only

theorem execLost_only (s : State) (x0 : Msg) :
    NextOnly [.gst, .chans, .fdw, .ports, .colls, .col, .stakes, .vc0] s (execLost x0 s) := by
  unfold execLost
  refine live_only ?_
  repeat' first
    | with_reducible assumption
    | with_reducible exact Only.refl
    | with_reducible apply Only.foldl
    | with_reducible apply State.onLost_only
    | with_reducible apply State.takeMsg_only
    | (with_reducible refine Only.ite (fun _ => ?_) (fun _ => ?_))
    | split
    | decide
    | intro _
    | dsimp only

theorem State.entryAbort_only {w : List Fld} {s u : State} (h : Only w s u) (x1 : Nat) (x2 : Word)
    (hs : Fld.sub [.gst, .colls, .stakes, .vc0] w = true := by decide) : Only w s (State.entryAbort u x1 x2) := by
  unfold State.entryAbort
  repeat' first
    | with_reducible assumption
    | with_reducible apply Only.foldl
    | with_reducible apply State.report_only
    | (with_reducible refine Only.ite (fun _ => ?_) (fun _ => ?_))
    | split
    | exact Fld.sub_trans (by decide) hs
    | intro _
    | dsimp only

theorem execEntryAbort_only (s : State) (x0 : Fin 512) (x1 : Word) :
    NextOnly [.gst, .colls, .stakes, .vc0] s (execEntryAbort x0 x1 s) := by
  unfold execEntryAbort
  refine live_only ?_
  repeat' first
    | with_reducible assumption
    | with_reducible exact Only.refl
    | with_reducible apply Only.foldl
    | with_reducible apply State.entryAbort_only
    | (with_reducible refine Only.ite (fun _ => ?_) (fun _ => ?_))
    | split
    | decide
    | intro _
    | dsimp only

theorem State.colKill_only {w : List Fld} {s u : State} (h : Only w s u) (x1 : Word)
    (hs : Fld.sub [.gst, .colls, .col, .stakes, .vc0] w = true := by decide) : Only w s (State.colKill u x1) := by
  unfold State.colKill
  repeat' first
    | with_reducible assumption
    | with_reducible apply Only.foldl
    | with_reducible apply State.report_only
    | (with_reducible refine Only.ite (fun _ => ?_) (fun _ => ?_))
    | split
    | ((with_reducible refine Only.put_col ?_ _ ?hm); case hm => exact Fld.sub_contains hs (by decide))
    | exact Fld.sub_trans (by decide) hs
    | intro _
    | dsimp only

theorem execColKill_only (s : State) (x0 : Word) :
    NextOnly [.gst, .colls, .col, .stakes, .vc0] s (execColKill x0 s) := by
  unfold execColKill
  refine live_only ?_
  repeat' first
    | with_reducible assumption
    | with_reducible exact Only.refl
    | with_reducible apply Only.foldl
    | with_reducible apply State.colKill_only
    | (with_reducible refine Only.ite (fun _ => ?_) (fun _ => ?_))
    | split
    | decide
    | intro _
    | dsimp only

theorem State.sendAll_only {w : List Fld} {s u : State} (h : Only w s u) (x1 : List Nat) (x2 : BitVec 12) (x3 : Word) (x4 : Body) (x5 : optParam (BitVec 16) 0)
    (hs : Fld.sub [.gst, .colls, .stakes, .vc0] w = true := by decide) : Only w s (State.sendAll u x1 x2 x3 x4 x5) := by
  unfold State.sendAll
  repeat' first
    | with_reducible assumption
    | with_reducible apply Only.foldl
    | with_reducible apply State.send_only
    | (with_reducible refine Only.ite (fun _ => ?_) (fun _ => ?_))
    | split
    | exact Fld.sub_trans (by decide) hs
    | intro _
    | dsimp only

theorem State.suspState_only {w : List Fld} {s u : State} (h : Only w s u) (x1 : BitVec 3)
    (hs : Fld.sub [.col] w = true := by decide) : Only w s (State.suspState u x1) := by
  unfold State.suspState
  repeat' first
    | with_reducible assumption
    | with_reducible apply Only.foldl
    | (with_reducible refine Only.ite (fun _ => ?_) (fun _ => ?_))
    | split
    | ((with_reducible refine Only.put_col ?_ _ ?hm); case hm => exact Fld.sub_contains hs (by decide))
    | exact Fld.sub_trans (by decide) hs
    | intro _
    | dsimp only

theorem State.suspRequest_only {w : List Fld} {s u : State} (h : Only w s u) (x1 : Word)
    (hs : Fld.sub [.gst, .colls, .col, .stakes, .vc0] w = true := by decide) : Only w s (State.suspRequest u x1) := by
  unfold State.suspRequest
  repeat' first
    | with_reducible assumption
    | with_reducible apply Only.foldl
    | with_reducible apply State.suspState_only
    | with_reducible apply State.sendAll_only
    | (with_reducible refine Only.ite (fun _ => ?_) (fun _ => ?_))
    | split
    | ((with_reducible refine Only.put_col ?_ _ ?hm); case hm => exact Fld.sub_contains hs (by decide))
    | exact Fld.sub_trans (by decide) hs
    | intro _
    | dsimp only

theorem execSuspend_only (s : State) (x0 : Word) :
    NextOnly [.gst, .colls, .col, .stakes, .vc0] s (execSuspend x0 s) := by
  unfold execSuspend
  refine live_only ?_
  repeat' first
    | with_reducible assumption
    | with_reducible exact Only.refl
    | with_reducible apply Only.foldl
    | with_reducible apply State.suspRequest_only
    | (with_reducible refine Only.ite (fun _ => ?_) (fun _ => ?_))
    | split
    | decide
    | intro _
    | dsimp only

theorem execResume_only (s : State) (x0 : Word) :
    NextOnly [.gst, .colls, .col, .stakes, .vc0] s (execResume x0 s) := by
  unfold execResume
  refine live_only ?_
  repeat' first
    | with_reducible assumption
    | with_reducible exact Only.refl
    | with_reducible apply Only.foldl
    | with_reducible apply State.suspRequest_only
    | (with_reducible refine Only.ite (fun _ => ?_) (fun _ => ?_))
    | split
    | decide
    | intro _
    | dsimp only

theorem State.setSusp_only {w : List Fld} {s u : State} (h : Only w s u) (x1 : BitVec 12) (x2 : SuspG)
    (hs : Fld.sub [.col] w = true := by decide) : Only w s (State.setSusp u x1 x2) := by
  unfold State.setSusp
  repeat' first
    | with_reducible assumption
    | with_reducible apply Only.foldl
    | (with_reducible refine Only.ite (fun _ => ?_) (fun _ => ?_))
    | split
    | ((with_reducible refine Only.put_col ?_ _ ?hm); case hm => exact Fld.sub_contains hs (by decide))
    | exact Fld.sub_trans (by decide) hs
    | intro _
    | dsimp only

theorem State.suspStart_only {w : List Fld} {s u : State} (h : Only w s u) (x1 : BitVec 3) (x2 : BitVec 12)
    (hs : Fld.sub [.col] w = true := by decide) : Only w s (State.suspStart u x1 x2) := by
  unfold State.suspStart
  repeat' first
    | with_reducible assumption
    | with_reducible apply Only.foldl
    | (with_reducible refine Only.ite (fun _ => ?_) (fun _ => ?_))
    | split
    | ((with_reducible refine Only.put_col ?_ _ ?hm); case hm => exact Fld.sub_contains hs (by decide))
    | exact Fld.sub_trans (by decide) hs
    | intro _
    | dsimp only

theorem State.onSusp_only {w : List Fld} {s u : State} (h : Only w s u) (x1 : Msg)
    (hs : Fld.sub [.chans, .colls, .col] w = true := by decide) : Only w s (State.onSusp u x1) := by
  unfold State.onSusp
  repeat' first
    | with_reducible assumption
    | with_reducible apply Only.foldl
    | with_reducible apply State.suspStart_only
    | with_reducible apply State.setSusp_only
    | with_reducible apply State.pauseChan_only
    | (with_reducible refine Only.ite (fun _ => ?_) (fun _ => ?_))
    | split
    | ((with_reducible refine Only.put_colls ?_ _ ?hm); case hm => exact Fld.sub_contains hs (by decide))
    | exact Fld.sub_trans (by decide) hs
    | intro _
    | dsimp only

theorem execSusp_only (s : State) (x0 : Msg) :
    NextOnly [.chans, .colls, .col, .vc0] s (execSusp x0 s) := by
  unfold execSusp
  refine live_only ?_
  repeat' first
    | with_reducible assumption
    | with_reducible exact Only.refl
    | with_reducible apply Only.foldl
    | with_reducible apply State.onSusp_only
    | with_reducible apply State.takeMsg_only
    | (with_reducible refine Only.ite (fun _ => ?_) (fun _ => ?_))
    | split
    | decide
    | intro _
    | dsimp only

theorem State.drainDone_only {w : List Fld} {s u : State} (h : Only w s u) (x1 : BitVec 12)
    (hs : Fld.sub [.colls, .col] w = true := by decide) : Only w s (State.drainDone u x1) := by
  unfold State.drainDone
  repeat' first
    | with_reducible assumption
    | with_reducible apply Only.foldl
    | with_reducible apply State.setSusp_only
    | (with_reducible refine Only.ite (fun _ => ?_) (fun _ => ?_))
    | split
    | ((with_reducible refine Only.put_colls ?_ _ ?hm); case hm => exact Fld.sub_contains hs (by decide))
    | ((with_reducible refine Only.put_col ?_ _ ?hm); case hm => exact Fld.sub_contains hs (by decide))
    | exact Fld.sub_trans (by decide) hs
    | intro _
    | dsimp only

theorem execSuspendDrainDone_only (s : State) (x0 : BitVec 12) :
    NextOnly [.colls, .col] s (execSuspendDrainDone x0 s) := by
  unfold execSuspendDrainDone
  refine live_only ?_
  repeat' first
    | with_reducible assumption
    | with_reducible exact Only.refl
    | with_reducible apply Only.foldl
    | with_reducible apply State.drainDone_only
    | (with_reducible refine Only.ite (fun _ => ?_) (fun _ => ?_))
    | split
    | decide
    | intro _
    | dsimp only

theorem State.suspChain_only {w : List Fld} {s u : State} (h : Only w s u) (x1 : BitVec 12) (x2 : Chain)
    (hs : Fld.sub [.gst, .colls, .col, .stakes, .vc0] w = true := by decide) : Only w s (State.suspChain u x1 x2) := by
  unfold State.suspChain
  repeat' first
    | with_reducible assumption
    | with_reducible apply Only.foldl
    | with_reducible apply State.setSusp_only
    | with_reducible apply State.suspState_only
    | with_reducible apply State.sendUp_only
    | with_reducible apply State.send_only
    | (with_reducible refine Only.ite (fun _ => ?_) (fun _ => ?_))
    | split
    | exact Fld.sub_trans (by decide) hs
    | intro _
    | dsimp only

theorem State.suspReport_only {w : List Fld} {s u : State} (h : Only w s u) (x1 : BitVec 12)
    (hs : Fld.sub [.gst, .colls, .col, .stakes, .vc0] w = true := by decide) : Only w s (State.suspReport u x1) := by
  unfold State.suspReport
  repeat' first
    | with_reducible assumption
    | with_reducible apply Only.foldl
    | with_reducible apply State.suspChain_only
    | with_reducible apply State.setSusp_only
    | (with_reducible refine Only.ite (fun _ => ?_) (fun _ => ?_))
    | split
    | exact Fld.sub_trans (by decide) hs
    | intro _
    | dsimp only

theorem State.suspOwnDone_only {w : List Fld} {s u : State} (h : Only w s u) (x1 : BitVec 12) (x2 : Bool) (x3 : Nat)
    (hs : Fld.sub [.gst, .colls, .col, .stakes, .vc0] w = true := by decide) : Only w s (State.suspOwnDone u x1 x2 x3) := by
  unfold State.suspOwnDone
  repeat' first
    | with_reducible assumption
    | with_reducible apply Only.foldl
    | with_reducible apply State.suspReport_only
    | with_reducible apply State.setSusp_only
    | with_reducible apply State.suspState_only
    | (with_reducible refine Only.ite (fun _ => ?_) (fun _ => ?_))
    | split
    | exact Fld.sub_trans (by decide) hs
    | intro _
    | dsimp only

theorem State.recordWritten_only {w : List Fld} {s u : State} (h : Only w s u) (x1 : BitVec 12)
    (hs : Fld.sub [.gst, .colls, .col, .stakes, .vc0] w = true := by decide) : Only w s (State.recordWritten u x1) := by
  unfold State.recordWritten
  repeat' first
    | with_reducible assumption
    | with_reducible apply Only.foldl
    | with_reducible apply State.suspOwnDone_only
    | with_reducible apply State.setSusp_only
    | (with_reducible refine Only.ite (fun _ => ?_) (fun _ => ?_))
    | split
    | exact Fld.sub_trans (by decide) hs
    | intro _
    | dsimp only

theorem execSuspendRecordWritten_only (s : State) (x0 : BitVec 12) :
    NextOnly [.gst, .colls, .col, .stakes, .vc0] s (execSuspendRecordWritten x0 s) := by
  unfold execSuspendRecordWritten
  refine live_only ?_
  repeat' first
    | with_reducible assumption
    | with_reducible exact Only.refl
    | with_reducible apply Only.foldl
    | with_reducible apply State.recordWritten_only
    | (with_reducible refine Only.ite (fun _ => ?_) (fun _ => ?_))
    | split
    | decide
    | intro _
    | dsimp only

theorem State.restore_only {w : List Fld} {s u : State} (h : Only w s u) (x1 : BitVec 12) (x2 : List Byte) (x3 : List (List Byte))
    (hs : Fld.sub [.colls] w = true := by decide) : Only w s (State.restore u x1 x2 x3) := by
  unfold State.restore
  repeat' first
    | with_reducible assumption
    | with_reducible apply Only.foldl
    | with_reducible apply State.onColl_only
    | (with_reducible refine Only.ite (fun _ => ?_) (fun _ => ?_))
    | split
    | exact Fld.sub_trans (by decide) hs
    | intro _
    | dsimp only

theorem State.shiftTimers_only {w : List Fld} {s u : State} (h : Only w s u) (x1 : BitVec 12) (x2 : BitVec 64)
    (hs : Fld.sub [.colls] w = true := by decide) : Only w s (State.shiftTimers u x1 x2) := by
  unfold State.shiftTimers
  repeat' first
    | with_reducible assumption
    | with_reducible apply Only.foldl
    | (with_reducible refine Only.ite (fun _ => ?_) (fun _ => ?_))
    | split
    | ((with_reducible refine Only.put_colls ?_ _ ?hm); case hm => exact Fld.sub_contains hs (by decide))
    | exact Fld.sub_trans (by decide) hs
    | intro _
    | dsimp only

theorem State.reloadDone_only {w : List Fld} {s u : State} (h : Only w s u) (x1 : BitVec 12)
    (hs : Fld.sub [.gst, .adm, .pwr, .chans, .fdw, .hoops, .hoopNet, .ports, .colls, .col, .stakes, .exc, .upd, .vc0] w = true := by decide) : Only w s (State.reloadDone u x1) := by
  unfold State.reloadDone
  repeat' first
    | with_reducible assumption
    | with_reducible apply Only.foldl
    | with_reducible apply State.shiftTimers_only
    | with_reducible apply State.restore_only
    | with_reducible apply State.suspOwnDone_only
    | with_reducible apply State.setSusp_only
    | with_reducible apply State.settle_only
    | with_reducible apply State.report_only
    | with_reducible apply State.logEv_only
    | (with_reducible refine Only.ite (fun _ => ?_) (fun _ => ?_))
    | split
    | exact Fld.sub_trans (by decide) hs
    | intro _
    | dsimp only

theorem execResumeReloadDone_only (s : State) (x0 : BitVec 12) :
    NextOnly [.gst, .adm, .pwr, .chans, .fdw, .hoops, .hoopNet, .ports, .colls, .col, .stakes, .exc, .upd, .vc0] s (execResumeReloadDone x0 s) := by
  unfold execResumeReloadDone
  refine live_only ?_
  repeat' first
    | with_reducible assumption
    | with_reducible exact Only.refl
    | with_reducible apply Only.foldl
    | with_reducible apply State.reloadDone_only
    | (with_reducible refine Only.ite (fun _ => ?_) (fun _ => ?_))
    | split
    | decide
    | intro _
    | dsimp only

theorem State.onSuspDone_only {w : List Fld} {s u : State} (h : Only w s u) (x1 : Msg)
    (hs : Fld.sub [.gst, .colls, .col, .stakes, .vc0] w = true := by decide) : Only w s (State.onSuspDone u x1) := by
  unfold State.onSuspDone
  repeat' first
    | with_reducible assumption
    | with_reducible apply Only.foldl
    | with_reducible apply State.suspReport_only
    | with_reducible apply State.setSusp_only
    | with_reducible apply State.suspState_only
    | (with_reducible refine Only.ite (fun _ => ?_) (fun _ => ?_))
    | split
    | exact Fld.sub_trans (by decide) hs
    | intro _
    | dsimp only

theorem execSuspDone_only (s : State) (x0 : Msg) :
    NextOnly [.gst, .colls, .col, .stakes, .vc0] s (execSuspDone x0 s) := by
  unfold execSuspDone
  refine live_only ?_
  repeat' first
    | with_reducible assumption
    | with_reducible exact Only.refl
    | with_reducible apply Only.foldl
    | with_reducible apply State.onSuspDone_only
    | with_reducible apply State.takeMsg_only
    | (with_reducible refine Only.ite (fun _ => ?_) (fun _ => ?_))
    | split
    | decide
    | intro _
    | dsimp only

theorem State.closed_only {w : List Fld} {s u : State} (h : Only w s u) (x1 : Nat)
    (hs : Fld.sub [.stakes] w = true := by decide) : Only w s (State.closed u x1) := by
  unfold State.closed
  repeat' first
    | with_reducible assumption
    | with_reducible apply Only.foldl
    | with_reducible apply State.onStake_only
    | (with_reducible refine Only.ite (fun _ => ?_) (fun _ => ?_))
    | split
    | exact Fld.sub_trans (by decide) hs
    | intro _
    | dsimp only

theorem State.badSeg_only {w : List Fld} {s u : State} (h : Only w s u) (x1 : Nat) (x2 : BitVec 12) (x3 : Word) (x4 : Bool)
    (hs : Fld.sub [.gst, .colls, .stakes, .vc0] w = true := by decide) : Only w s (State.badSeg u x1 x2 x3 x4) := by
  unfold State.badSeg
  repeat' first
    | with_reducible assumption
    | with_reducible apply Only.foldl
    | with_reducible apply State.report_only
    | with_reducible apply State.onStake_only
    | (with_reducible refine Only.ite (fun _ => ?_) (fun _ => ?_))
    | split
    | exact Fld.sub_trans (by decide) hs
    | intro _
    | dsimp only

theorem State.handOver_only {w : List Fld} {s u : State} (h : Only w s u) (x1 : Nat) (x2 : List TxFlit)
    (hs : Fld.sub [.stakes] w = true := by decide) : Only w s (State.handOver u x1 x2) := by
  unfold State.handOver
  repeat' first
    | with_reducible assumption
    | with_reducible apply Only.foldl
    | with_reducible apply State.rotation_only
    | with_reducible apply State.enqueue_only
    | (with_reducible refine Only.ite (fun _ => ?_) (fun _ => ?_))
    | split
    | exact Fld.sub_trans (by decide) hs
    | intro _
    | dsimp only

theorem State.leaveBond_only {w : List Fld} {s u : State} (h : Only w s u) (x1 : Nat) (x2 : Bool)
    (hs : Fld.sub [.stakes] w = true := by decide) : Only w s (State.leaveBond u x1 x2) := by
  unfold State.leaveBond
  repeat' first
    | with_reducible assumption
    | with_reducible apply Only.foldl
    | with_reducible apply State.handOver_only
    | with_reducible apply State.setStake_only
    | (with_reducible refine Only.ite (fun _ => ?_) (fun _ => ?_))
    | split
    | exact Fld.sub_trans (by decide) hs
    | intro _
    | dsimp only

theorem State.retrain_only {w : List Fld} {s u : State} (h : Only w s u) (x1 : Nat) (x2 : Nat) (x3 : BitVec 8)
    (hs : Fld.sub [.gst, .stakes] w = true := by decide) : Only w s (State.retrain u x1 x2 x3) := by
  unfold State.retrain
  repeat' first
    | with_reducible assumption
    | with_reducible apply Only.foldl
    | with_reducible apply State.leaveBond_only
    | with_reducible apply State.closed_only
    | with_reducible apply State.setStake_only
    | with_reducible apply State.logEv_only
    | (with_reducible refine Only.ite (fun _ => ?_) (fun _ => ?_))
    | split
    | exact Fld.sub_trans (by decide) hs
    | intro _
    | dsimp only

theorem State.proto_only {w : List Fld} {s u : State} (h : Only w s u) (x1 : Nat) (x2 : Nat) (x3 : Nat)
    (hs : Fld.sub [.gst, .stakes] w = true := by decide) : Only w s (State.proto u x1 x2 x3) := by
  unfold State.proto
  repeat' first
    | with_reducible assumption
    | with_reducible apply Only.foldl
    | with_reducible apply State.retrain_only
    | with_reducible apply State.setStake_only
    | with_reducible apply State.logEv_only
    | (with_reducible refine Only.ite (fun _ => ?_) (fun _ => ?_))
    | split
    | exact Fld.sub_trans (by decide) hs
    | intro _
    | dsimp only

theorem State.bounceReserve_only {w : List Fld} {s u : State} (h : Only w s u) (x1 : Msg) (x2 : Nat)
    (hs : Fld.sub [.stakes, .vc0] w = true := by decide) : Only w s (State.bounceReserve u x1 x2) := by
  unfold State.bounceReserve
  repeat' first
    | with_reducible assumption
    | with_reducible apply Only.foldl
    | with_reducible apply State.sendIf_only
    | (with_reducible refine Only.ite (fun _ => ?_) (fun _ => ?_))
    | split
    | exact Fld.sub_trans (by decide) hs
    | intro _
    | dsimp only

theorem State.endLeg_only {w : List Fld} {s u : State} (h : Only w s u) (x1 : BitVec 12) (x2 : Word) (x3 : Nat) (x4 : Nat) (x5 : Nat) (x6 : BitVec 8)
    (hs : Fld.sub [.colls, .col, .stakes] w = true := by decide) : Only w s (State.endLeg u x1 x2 x3 x4 x5 x6) := by
  unfold State.endLeg
  repeat' first
    | with_reducible assumption
    | with_reducible apply Only.foldl
    | with_reducible apply State.endColl_only
    | with_reducible apply State.purge_only
    | with_reducible apply State.reap_only
    | with_reducible apply State.onColl_only
    | (with_reducible refine Only.ite (fun _ => ?_) (fun _ => ?_))
    | split
    | exact Fld.sub_trans (by decide) hs
    | intro _
    | dsimp only

theorem State.relayRelease_only {w : List Fld} {s u : State} (h : Only w s u) (x1 : BitVec 12) (x2 : Word) (x3 : BitVec 16) (x4 : Nat) (x5 : Nat) (x6 : Nat)
    (hs : Fld.sub [.colls] w = true := by decide) : Only w s (State.relayRelease u x1 x2 x3 x4 x5 x6) := by
  unfold State.relayRelease
  repeat' first
    | with_reducible assumption
    | with_reducible apply Only.foldl
    | with_reducible apply State.dropIf_only
    | with_reducible apply State.onColl_only
    | (with_reducible refine Only.ite (fun _ => ?_) (fun _ => ?_))
    | split
    | exact Fld.sub_trans (by decide) hs
    | intro _
    | dsimp only

theorem State.relayReport_only {w : List Fld} {s u : State} (h : Only w s u) (x1 : BitVec 12) (x2 : Word) (x3 : BitVec 16) (x4 : Nat) (x5 : Nat) (x6 : Nat) (x7 : Report)
    (hs : Fld.sub [.adm, .colls, .free] w = true := by decide) : Only w s (State.relayReport u x1 x2 x3 x4 x5 x6 x7).1 := by
  unfold State.relayReport
  repeat' first
    | with_reducible assumption
    | with_reducible apply Only.foldl
    | with_reducible apply State.retake_only
    | with_reducible apply State.freeNext_only
    | with_reducible apply State.putColl_only
    | (with_reducible refine Only.ite (fun _ => ?_) (fun _ => ?_))
    | split
    | exact Fld.sub_trans (by decide) hs
    | intro _
    | dsimp only

theorem State.relayReserve_only {w : List Fld} {s u : State} (h : Only w s u) (x1 : BitVec 12) (x2 : Word) (x3 : List Word) (x4 : BitVec 16) (x5 : Nat) (x6 : Nat) (x7 : Nat)
    (hs : Fld.sub [.adm, .colls] w = true := by decide) : Only w s (State.relayReserve u x1 x2 x3 x4 x5 x6 x7) := by
  unfold State.relayReserve
  repeat' first
    | with_reducible assumption
    | with_reducible apply Only.foldl
    | with_reducible apply State.retake_only
    | with_reducible apply State.putColl_only
    | (with_reducible refine Only.ite (fun _ => ?_) (fun _ => ?_))
    | split
    | exact Fld.sub_trans (by decide) hs
    | intro _
    | dsimp only

theorem State.relayMsg_only {w : List Fld} {s u : State} (h : Only w s u) (x1 : Nat) (x2 : Msg)
    (hs : Fld.sub [.gst, .adm, .pwr, .chans, .fdw, .hoopNet, .ports, .colls, .col, .stakes, .exc, .upd, .vc0, .free] w = true := by decide) : Only w s (State.relayMsg u x1 x2).1 := by
  unfold State.relayMsg
  repeat' first
    | with_reducible assumption
    | with_reducible apply Only.foldl
    | with_reducible apply State.relayReserve_only
    | with_reducible apply State.relayReport_only
    | with_reducible apply State.relayRelease_only
    | with_reducible apply State.endLeg_only
    | with_reducible apply State.admitOne_only
    | with_reducible apply State.onColl_only
    | (with_reducible refine Only.ite (fun _ => ?_) (fun _ => ?_))
    | split
    | exact Fld.sub_trans (by decide) hs
    | intro _
    | dsimp only

theorem State.relayPayload_only {w : List Fld} {s u : State} (h : Only w s u) (x1 : RxHeld) (x2 : List Seg)
    (hs : Fld.sub [.gst, .adm, .pwr, .chans, .fdw, .hoopNet, .ports, .colls, .col, .stakes, .exc, .upd, .vc0, .free] w = true := by decide) : Only w s (State.relayPayload u x1 x2).1 := by
  unfold State.relayPayload
  repeat' first
    | with_reducible assumption
    | with_reducible apply Only.foldl
    | with_reducible apply State.relayMsg_only
    | (with_reducible refine Only.ite (fun _ => ?_) (fun _ => ?_))
    | split
    | exact Fld.sub_trans (by decide) hs
    | intro _
    | dsimp only

theorem State.routeFault_only {w : List Fld} {s u : State} (h : Only w s u) (x1 : Nat) (x2 : RxHeld) (x3 : BitVec 12) (x4 : Word) (x5 : Nat)
    (hs : Fld.sub [.gst, .colls, .stakes, .vc0] w = true := by decide) : Only w s (State.routeFault u x1 x2 x3 x4 x5) := by
  unfold State.routeFault
  repeat' first
    | with_reducible assumption
    | with_reducible apply Only.foldl
    | with_reducible apply State.report_only
    | with_reducible apply State.logRoute_only
    | (with_reducible refine Only.ite (fun _ => ?_) (fun _ => ?_))
    | split
    | exact Fld.sub_trans (by decide) hs
    | intro _
    | dsimp only

theorem State.relayFlit_only {w : List Fld} {s u : State} (h : Only w s u) (x1 : Nat) (x2 : RxHeld) (x3 : List Seg)
    (hs : Fld.sub [.gst, .adm, .pwr, .chans, .fdw, .hoopNet, .ports, .colls, .col, .stakes, .exc, .upd, .vc0, .free] w = true := by decide) : Only w s (State.relayFlit u x1 x2 x3) := by
  unfold State.relayFlit
  repeat' first
    | with_reducible assumption
    | with_reducible apply Only.foldl
    | with_reducible apply State.routeFault_only
    | with_reducible apply State.relayPayload_only
    | with_reducible apply State.bounceReserve_only
    | with_reducible apply State.cutHere_only
    | with_reducible apply State.onStake_only
    | (with_reducible refine Only.ite (fun _ => ?_) (fun _ => ?_))
    | split
    | with_reducible apply State.sendFlits_only
    | (refine Sent.Only.ok (State.sendFlits_only ?_ _ _ _ ?_) (by assumption))
    | exact Fld.sub_trans (by decide) hs
    | intro _
    | dsimp only

theorem State.downArrive_only {w : List Fld} {s u : State} (h : Only w s u) (x1 : BitVec 12) (x2 : Word) (x3 : Nat) (x4 : Nat) (x5 : List Byte)
    (hs : Fld.sub [.colls] w = true := by decide) : Only w s (State.downArrive u x1 x2 x3 x4 x5) := by
  unfold State.downArrive
  repeat' first
    | with_reducible assumption
    | with_reducible apply Only.foldl
    | with_reducible apply State.onColl_only
    | (with_reducible refine Only.ite (fun _ => ?_) (fun _ => ?_))
    | split
    | exact Fld.sub_trans (by decide) hs
    | intro _
    | dsimp only

theorem State.downSeg_only {w : List Fld} {s u : State} (h : Only w s u) (x1 : RxHeld) (x2 : Seg)
    (hs : Fld.sub [.gst, .adm, .pwr, .chans, .fdw, .hoopNet, .ports, .colls, .col, .stakes, .exc, .upd, .vc0] w = true := by decide) : Only w s (State.downSeg u x1 x2) := by
  unfold State.downSeg
  repeat' first
    | with_reducible assumption
    | with_reducible apply Only.foldl
    | with_reducible apply State.downArrive_only
    | with_reducible apply State.push_only
    | (with_reducible refine Only.ite (fun _ => ?_) (fun _ => ?_))
    | split
    | exact Fld.sub_trans (by decide) hs
    | intro _
    | dsimp only

theorem State.badWord_only {w : List Fld} {s u : State} (h : Only w s u) (x1 : Nat) (x2 : Coll) (x3 : Nat) (x4 : Nat)
    (hs : Fld.sub [.gst, .colls, .stakes, .vc0] w = true := by decide) : Only w s (State.badWord u x1 x2 x3 x4) := by
  unfold State.badWord
  repeat' first
    | with_reducible assumption
    | with_reducible apply Only.foldl
    | with_reducible apply State.residue_only
    | with_reducible apply State.onStake_only
    | (with_reducible refine Only.ite (fun _ => ?_) (fun _ => ?_))
    | split
    | exact Fld.sub_trans (by decide) hs
    | intro _
    | dsimp only

theorem State.exArrive_only {w : List Fld} {s u : State} (h : Only w s u) (x1 : BitVec 12) (x2 : Word) (x3 : Nat) (x4 : List Byte)
    (hs : Fld.sub [.colls] w = true := by decide) : Only w s (State.exArrive u x1 x2 x3 x4) := by
  unfold State.exArrive
  repeat' first
    | with_reducible assumption
    | with_reducible apply Only.foldl
    | with_reducible apply State.onColl_only
    | (with_reducible refine Only.ite (fun _ => ?_) (fun _ => ?_))
    | split
    | exact Fld.sub_trans (by decide) hs
    | intro _
    | dsimp only

theorem State.exSeg_only {w : List Fld} {s u : State} (h : Only w s u) (x1 : Nat) (x2 : Seg)
    (hs : Fld.sub [.gst, .adm, .pwr, .chans, .fdw, .hoopNet, .ports, .colls, .col, .stakes, .exc, .upd, .vc0] w = true := by decide) : Only w s (State.exSeg u x1 x2) := by
  unfold State.exSeg
  repeat' first
    | with_reducible assumption
    | with_reducible apply Only.foldl
    | with_reducible apply State.exArrive_only
    | with_reducible apply State.badWord_only
    | with_reducible apply State.badSeg_only
    | with_reducible apply State.push_only
    | (with_reducible refine Only.ite (fun _ => ?_) (fun _ => ?_))
    | split
    | exact Fld.sub_trans (by decide) hs
    | intro _
    | dsimp only

theorem State.timeSlew_only {w : List Fld} {s u : State} (h : Only w s u) (x1 : Int)
    (hs : Fld.sub [.time] w = true := by decide) : Only w s (State.timeSlew u x1) := by
  unfold State.timeSlew
  repeat' first
    | with_reducible assumption
    | with_reducible apply Only.foldl
    | (with_reducible refine Only.ite (fun _ => ?_) (fun _ => ?_))
    | split
    | ((with_reducible refine Only.put_time ?_ _ ?hm); case hm => exact Fld.sub_contains hs (by decide))
    | exact Fld.sub_trans (by decide) hs
    | intro _
    | dsimp only

theorem State.timeStep_only {w : List Fld} {s u : State} (h : Only w s u) (x1 : Int)
    (hs : Fld.sub [.gst, .time] w = true := by decide) : Only w s (State.timeStep u x1) := by
  unfold State.timeStep
  repeat' first
    | with_reducible assumption
    | with_reducible apply Only.foldl
    | with_reducible apply State.logEv_only
    | (with_reducible refine Only.ite (fun _ => ?_) (fun _ => ?_))
    | split
    | ((with_reducible refine Only.put_time ?_ _ ?hm); case hm => exact Fld.sub_contains hs (by decide))
    | exact Fld.sub_trans (by decide) hs
    | intro _
    | dsimp only

theorem State.applyOffset_only {w : List Fld} {s u : State} (h : Only w s u) (x1 : Int)
    (hs : Fld.sub [.gst, .time] w = true := by decide) : Only w s (State.applyOffset u x1) := by
  unfold State.applyOffset
  repeat' first
    | with_reducible assumption
    | with_reducible apply Only.foldl
    | with_reducible apply State.timeStep_only
    | with_reducible apply State.timeSlew_only
    | (with_reducible refine Only.ite (fun _ => ?_) (fun _ => ?_))
    | split
    | ((with_reducible refine Only.put_time ?_ _ ?hm); case hm => exact Fld.sub_contains hs (by decide))
    | exact Fld.sub_trans (by decide) hs
    | intro _
    | dsimp only

theorem State.onFollow_only {w : List Fld} {s u : State} (h : Only w s u) (x1 : Nat) (x2 : BitVec 16) (x3 : BitVec 64) (x4 : BitVec 16)
    (hs : Fld.sub [.gst, .time] w = true := by decide) : Only w s (State.onFollow u x1 x2 x3 x4) := by
  unfold State.onFollow
  repeat' first
    | with_reducible assumption
    | with_reducible apply Only.foldl
    | with_reducible apply State.applyOffset_only
    | (with_reducible refine Only.ite (fun _ => ?_) (fun _ => ?_))
    | split
    | ((with_reducible refine Only.put_time ?_ _ ?hm); case hm => exact Fld.sub_contains hs (by decide))
    | exact Fld.sub_trans (by decide) hs
    | intro _
    | dsimp only

theorem State.onSync_only {w : List Fld} {s u : State} (h : Only w s u) (x1 : Nat) (x2 : BitVec 16) (x3 : BitVec 8) (x4 : Nat) (x5 : Bool)
    (hs : Fld.sub [.time] w = true := by decide) : Only w s (State.onSync u x1 x2 x3 x4 x5) := by
  unfold State.onSync
  repeat' first
    | with_reducible assumption
    | with_reducible apply Only.foldl
    | (with_reducible refine Only.ite (fun _ => ?_) (fun _ => ?_))
    | split
    | ((with_reducible refine Only.put_time ?_ _ ?hm); case hm => exact Fld.sub_contains hs (by decide))
    | exact Fld.sub_trans (by decide) hs
    | intro _
    | dsimp only

theorem State.msgSeg_only {w : List Fld} {s u : State} (h : Only w s u) (x1 : Nat) (x2 : RxHeld) (x3 : Seg)
    (hs : Fld.sub [.gst, .time, .colls, .stakes, .vc0] w = true := by decide) : Only w s (State.msgSeg u x1 x2 x3) := by
  unfold State.msgSeg
  repeat' first
    | with_reducible assumption
    | with_reducible apply Only.foldl
    | with_reducible apply State.onSync_only
    | with_reducible apply State.onFollow_only
    | with_reducible apply State.badSeg_only
    | with_reducible apply State.post_only
    | (with_reducible refine Only.ite (fun _ => ?_) (fun _ => ?_))
    | split
    | exact Fld.sub_trans (by decide) hs
    | intro _
    | dsimp only

theorem State.markerArrive_only {w : List Fld} {s u : State} (h : Only w s u) (x1 : Coll) (x2 : Nat) (x3 : Nat) (x4 : List Byte)
    (hs : Fld.sub [.gst, .adm, .colls, .stakes, .upd, .vc0] w = true := by decide) : Only w s (State.markerArrive u x1 x2 x3 x4) := by
  unfold State.markerArrive
  repeat' first
    | with_reducible assumption
    | with_reducible apply Only.foldl
    | with_reducible apply State.passMarkers_only
    | with_reducible apply State.passSteps_only
    | with_reducible apply State.onColl_only
    | (with_reducible refine Only.ite (fun _ => ?_) (fun _ => ?_))
    | split
    | exact Fld.sub_trans (by decide) hs
    | intro _
    | dsimp only

theorem State.waleArrive_only {w : List Fld} {s u : State} (h : Only w s u) (x1 : Coll) (x2 : Nat) (x3 : Nat) (x4 : Nat) (x5 : WaleV)
    (hs : Fld.sub [.colls] w = true := by decide) : Only w s (State.waleArrive u x1 x2 x3 x4 x5) := by
  unfold State.waleArrive
  repeat' first
    | with_reducible assumption
    | with_reducible apply Only.foldl
    | with_reducible apply State.onColl_only
    | (with_reducible refine Only.ite (fun _ => ?_) (fun _ => ?_))
    | split
    | exact Fld.sub_trans (by decide) hs
    | intro _
    | dsimp only

theorem State.partialArrive_only {w : List Fld} {s u : State} (h : Only w s u) (x1 : Nat) (x2 : RxHeld) (x3 : Seg)
    (hs : Fld.sub [.gst, .adm, .colls, .stakes, .upd, .vc0] w = true := by decide) : Only w s (State.partialArrive u x1 x2 x3) := by
  unfold State.partialArrive
  repeat' first
    | with_reducible assumption
    | with_reducible apply Only.foldl
    | with_reducible apply State.waleArrive_only
    | with_reducible apply State.markerArrive_only
    | with_reducible apply State.badWord_only
    | with_reducible apply State.routeFault_only
    | with_reducible apply State.badSeg_only
    | (with_reducible refine Only.ite (fun _ => ?_) (fun _ => ?_))
    | split
    | exact Fld.sub_trans (by decide) hs
    | intro _
    | dsimp only

theorem State.segDone_only {w : List Fld} {s u : State} (h : Only w s u) (x1 : Nat) (x2 : RxHeld) (x3 : Seg)
    (hs : Fld.sub [.gst, .time, .adm, .pwr, .chans, .fdw, .hoopNet, .ports, .colls, .col, .stakes, .exc, .upd, .vc0] w = true := by decide) : Only w s (State.segDone u x1 x2 x3) := by
  unfold State.segDone
  repeat' first
    | with_reducible assumption
    | with_reducible apply Only.foldl
    | with_reducible apply State.partialArrive_only
    | with_reducible apply State.msgSeg_only
    | with_reducible apply State.exSeg_only
    | with_reducible apply State.downSeg_only
    | with_reducible apply State.badSeg_only
    | (with_reducible refine Only.ite (fun _ => ?_) (fun _ => ?_))
    | split
    | exact Fld.sub_trans (by decide) hs
    | intro _
    | dsimp only

theorem State.setFrag_only {w : List Fld} {s u : State} (h : Only w s u) (x1 : Nat) (x2 : Nat) (x3 : Option Frag)
    (hs : Fld.sub [.stakes] w = true := by decide) : Only w s (State.setFrag u x1 x2 x3) := by
  unfold State.setFrag
  repeat' first
    | with_reducible assumption
    | with_reducible apply Only.foldl
    | with_reducible apply State.onStake_only
    | (with_reducible refine Only.ite (fun _ => ?_) (fun _ => ?_))
    | split
    | exact Fld.sub_trans (by decide) hs
    | intro _
    | dsimp only

theorem State.segTake_only {w : List Fld} {s u : State} (h : Only w s u) (x1 : Nat) (x2 : RxHeld) (x3 : Seg)
    (hs : Fld.sub [.gst, .time, .adm, .pwr, .chans, .fdw, .hoopNet, .ports, .colls, .col, .stakes, .exc, .upd, .vc0] w = true := by decide) : Only w s (State.segTake u x1 x2 x3).1 := by
  unfold State.segTake
  repeat' first
    | with_reducible assumption
    | with_reducible apply Only.foldl
    | with_reducible apply State.setFrag_only
    | with_reducible apply State.segDone_only
    | (with_reducible refine Only.ite (fun _ => ?_) (fun _ => ?_))
    | split
    | exact Fld.sub_trans (by decide) hs
    | intro _
    | dsimp only

theorem State.segsTake_only {w : List Fld} {s u : State} (h : Only w s u) (x1 : Nat) (x2 : RxHeld) (x3 : List Seg)
    (hs : Fld.sub [.gst, .time, .adm, .pwr, .chans, .fdw, .hoopNet, .ports, .colls, .col, .stakes, .exc, .upd, .vc0] w = true := by decide) : Only w s (State.segsTake u x1 x2 x3).1 := by
  induction x3 generalizing u with
  | nil => exact h
  | cons y ys ih =>
    unfold State.segsTake
    dsimp only
    have h1 := State.segTake_only h x1 x2 y (Fld.sub_trans (by decide) hs)
    split
    · exact ih h1
    · exact h1

theorem State.takeFlit_only {w : List Fld} {s u : State} (h : Only w s u) (x1 : Nat) (x2 : RxHeld)
    (hs : Fld.sub [.gst, .time, .adm, .pwr, .chans, .fdw, .hoopNet, .ports, .colls, .col, .stakes, .exc, .upd, .vc0, .free] w = true := by decide) : Only w s (State.takeFlit u x1 x2) := by
  unfold State.takeFlit
  repeat' first
    | with_reducible assumption
    | with_reducible apply Only.foldl
    | with_reducible apply State.segsTake_only
    | with_reducible apply State.relayFlit_only
    | with_reducible apply State.proto_only
    | with_reducible apply State.badSeg_only
    | with_reducible apply State.onStake_only
    | (with_reducible refine Only.ite (fun _ => ?_) (fun _ => ?_))
    | split
    | exact Fld.sub_trans (by decide) hs
    | intro _
    | dsimp only

theorem State.rxPump_only {w : List Fld} {s u : State} (h : Only w s u) (x0 : Nat) (x2 : Nat) (x3 : Nat)
    (hs : Fld.sub [.gst, .time, .adm, .pwr, .chans, .fdw, .hoopNet, .ports, .colls, .col, .stakes, .exc, .upd, .vc0, .free] w = true := by decide) : Only w s (State.rxPump x0 u x2 x3) := by
  induction x0 generalizing u x2 x3 with
  | zero => unfold State.rxPump; exact h
  | succ n ih =>
    unfold State.rxPump
    repeat' first
      | with_reducible assumption
      | with_reducible apply Only.foldl
      | with_reducible apply ih
      | with_reducible apply State.takeFlit_only
      | with_reducible apply State.opportunity_only
      | with_reducible apply State.onStake_only
      | (with_reducible refine Only.ite (fun _ => ?_) (fun _ => ?_))
      | split
      | exact Fld.sub_trans (by decide) hs
      | intro _
      | dsimp only

theorem State.rxAll_only {w : List Fld} {s u : State} (h : Only w s u) (x1 : Nat)
    (hs : Fld.sub [.gst, .time, .adm, .pwr, .chans, .fdw, .hoopNet, .ports, .colls, .col, .stakes, .exc, .upd, .vc0, .free] w = true := by decide) : Only w s (State.rxAll u x1) := by
  unfold State.rxAll
  repeat' first
    | with_reducible assumption
    | with_reducible apply Only.foldl
    | with_reducible apply State.rxPump_only
    | (with_reducible refine Only.ite (fun _ => ?_) (fun _ => ?_))
    | split
    | exact Fld.sub_trans (by decide) hs
    | intro _
    | dsimp only

theorem State.acceptFlit_only {w : List Fld} {s u : State} (h : Only w s u) (x1 : Nat) (x2 : Nat) (x3 : FlitHdr) (x4 : List Byte)
    (hs : Fld.sub [.gst, .time, .adm, .pwr, .chans, .fdw, .hoopNet, .ports, .colls, .col, .stakes, .exc, .upd, .vc0, .free] w = true := by decide) : Only w s (State.acceptFlit u x1 x2 x3 x4) := by
  unfold State.acceptFlit
  repeat' first
    | with_reducible assumption
    | with_reducible apply Only.foldl
    | with_reducible apply State.rxAll_only
    | with_reducible apply State.takeFlit_only
    | with_reducible apply State.onStake_only
    | (with_reducible refine Only.ite (fun _ => ?_) (fun _ => ?_))
    | split
    | exact Fld.sub_trans (by decide) hs
    | intro _
    | dsimp only

theorem State.goodData_only {w : List Fld} {s u : State} (h : Only w s u) (x1 : Nat) (x2 : Nat) (x3 : RxFlit)
    (hs : Fld.sub [.gst, .time, .adm, .pwr, .chans, .fdw, .hoopNet, .ports, .colls, .col, .stakes, .exc, .upd, .vc0, .free] w = true := by decide) : Only w s (State.goodData u x1 x2 x3) := by
  unfold State.goodData
  repeat' first
    | with_reducible assumption
    | with_reducible apply Only.foldl
    | with_reducible apply State.acceptFlit_only
    | with_reducible apply State.proto_only
    | with_reducible apply State.setStake_only
    | (with_reducible refine Only.ite (fun _ => ?_) (fun _ => ?_))
    | split
    | exact Fld.sub_trans (by decide) hs
    | intro _
    | dsimp only

theorem State.goodLink_only {w : List Fld} {s u : State} (h : Only w s u) (x1 : Nat) (x2 : RxFlit)
    (hs : Fld.sub [.gst, .stakes] w = true := by decide) : Only w s (State.goodLink u x1 x2) := by
  unfold State.goodLink
  repeat' first
    | with_reducible assumption
    | with_reducible apply Only.foldl
    | with_reducible apply State.proto_only
    | with_reducible apply State.retrain_only
    | with_reducible apply State.setStake_only
    | (with_reducible refine Only.ite (fun _ => ?_) (fun _ => ?_))
    | split
    | exact Fld.sub_trans (by decide) hs
    | intro _
    | dsimp only

theorem State.cut_only {w : List Fld} {s u : State} (h : Only w s u) (x1 : Coll) (x2 : Nat)
    (hs : Fld.sub [.gst, .colls, .stakes, .vc0] w = true := by decide) : Only w s (State.cut u x1 x2) := by
  unfold State.cut
  repeat' first
    | with_reducible assumption
    | with_reducible apply Only.foldl
    | with_reducible apply State.cutHere_only
    | (with_reducible refine Only.ite (fun _ => ?_) (fun _ => ?_))
    | split
    | exact Fld.sub_trans (by decide) hs
    | intro _
    | dsimp only

theorem State.cutAll_only {w : List Fld} {s u : State} (h : Only w s u) (x1 : Nat)
    (hs : Fld.sub [.gst, .colls, .stakes, .vc0] w = true := by decide) : Only w s (State.cutAll u x1) := by
  unfold State.cutAll
  repeat' first
    | with_reducible assumption
    | with_reducible apply Only.foldl
    | with_reducible apply State.cut_only
    | (with_reducible refine Only.ite (fun _ => ?_) (fun _ => ?_))
    | split
    | exact Fld.sub_trans (by decide) hs
    | intro _
    | dsimp only

theorem State.dropRelays_only {w : List Fld} {s u : State} (h : Only w s u) (x1 : Nat)
    (hs : Fld.sub [.gst, .colls, .stakes, .vc0] w = true := by decide) : Only w s (State.dropRelays u x1) := by
  unfold State.dropRelays
  repeat' first
    | with_reducible assumption
    | with_reducible apply Only.foldl
    | with_reducible apply State.cutHere_only
    | with_reducible apply State.onStake_only
    | with_reducible apply State.setStake_only
    | (with_reducible refine Only.ite (fun _ => ?_) (fun _ => ?_))
    | split
    | exact Fld.sub_trans (by decide) hs
    | intro _
    | dsimp only

theorem State.goDown_only {w : List Fld} {s u : State} (h : Only w s u) (x1 : Nat) (x2 : Nat)
    (hs : Fld.sub [.gst, .colls, .stakes, .vc0] w = true := by decide) : Only w s (State.goDown u x1 x2) := by
  unfold State.goDown
  repeat' first
    | with_reducible assumption
    | with_reducible apply Only.foldl
    | with_reducible apply State.dropRelays_only
    | with_reducible apply State.cutAll_only
    | with_reducible apply State.leaveBond_only
    | with_reducible apply State.closed_only
    | with_reducible apply State.setStake_only
    | with_reducible apply State.logEv_only
    | with_reducible apply State.attn_only
    | (with_reducible refine Only.ite (fun _ => ?_) (fun _ => ?_))
    | split
    | exact Fld.sub_trans (by decide) hs
    | intro _
    | dsimp only

theorem State.peerBad_only {w : List Fld} {s u : State} (h : Only w s u) (x1 : Nat) (x2 : Nat) (x3 : Bool) (x4 : Bool)
    (hs : Fld.sub [.gst, .colls, .stakes, .vc0] w = true := by decide) : Only w s (State.peerBad u x1 x2 x3 x4) := by
  unfold State.peerBad
  repeat' first
    | with_reducible assumption
    | with_reducible apply Only.foldl
    | with_reducible apply State.goDown_only
    | with_reducible apply State.onStake_only
    | with_reducible apply State.logEv_only
    | (with_reducible refine Only.ite (fun _ => ?_) (fun _ => ?_))
    | split
    | exact Fld.sub_trans (by decide) hs
    | intro _
    | dsimp only

theorem State.peerRestarted_only {w : List Fld} {s u : State} (h : Only w s u) (x1 : Nat) (x2 : Nat)
    (hs : Fld.sub [.gst, .colls, .stakes, .vc0] w = true := by decide) : Only w s (State.peerRestarted u x1 x2) := by
  unfold State.peerRestarted
  repeat' first
    | with_reducible assumption
    | with_reducible apply Only.foldl
    | with_reducible apply State.cutAll_only
    | with_reducible apply State.setStake_only
    | with_reducible apply State.logEv_only
    | (with_reducible refine Only.ite (fun _ => ?_) (fun _ => ?_))
    | split
    | ((with_reducible refine Only.put_stakes ?_ _ ?hm); case hm => exact Fld.sub_contains hs (by decide))
    | exact Fld.sub_trans (by decide) hs
    | intro _
    | dsimp only

theorem State.goodId_only {w : List Fld} {s u : State} (h : Only w s u) (x1 : Nat) (x2 : List Byte)
    (hs : Fld.sub [.gst, .colls, .stakes, .vc0] w = true := by decide) : Only w s (State.goodId u x1 x2) := by
  unfold State.goodId
  repeat' first
    | with_reducible assumption
    | with_reducible apply Only.foldl
    | with_reducible apply State.peerRestarted_only
    | with_reducible apply State.peerBad_only
    | with_reducible apply State.onStake_only
    | with_reducible apply State.setStake_only
    | (with_reducible refine Only.ite (fun _ => ?_) (fun _ => ?_))
    | split
    | exact Fld.sub_trans (by decide) hs
    | intro _
    | dsimp only

theorem State.sendSync_only {w : List Fld} {s u : State} (h : Only w s u) (x1 : Nat)
    (hs : Fld.sub [.time, .stakes] w = true := by decide) : Only w s (State.sendSync u x1) := by
  unfold State.sendSync
  repeat' first
    | with_reducible assumption
    | with_reducible apply Only.foldl
    | with_reducible apply State.enqueue_only
    | (with_reducible refine Only.ite (fun _ => ?_) (fun _ => ?_))
    | split
    | ((with_reducible refine Only.put_time ?_ _ ?hm); case hm => exact Fld.sub_contains hs (by decide))
    | exact Fld.sub_trans (by decide) hs
    | intro _
    | dsimp only

theorem State.stakeUp_only {w : List Fld} {s u : State} (h : Only w s u) (x1 : Nat) (x2 : Nat)
    (hs : Fld.sub [.time, .stakes] w = true := by decide) : Only w s (State.stakeUp u x1 x2) := by
  unfold State.stakeUp
  repeat' first
    | with_reducible assumption
    | with_reducible apply Only.foldl
    | with_reducible apply State.sendSync_only
    | with_reducible apply State.setStake_only
    | (with_reducible refine Only.ite (fun _ => ?_) (fun _ => ?_))
    | split
    | exact Fld.sub_trans (by decide) hs
    | intro _
    | dsimp only

theorem State.trainFail_only {w : List Fld} {s u : State} (h : Only w s u) (x1 : Nat)
    (hs : Fld.sub [.gst, .colls, .stakes, .vc0] w = true := by decide) : Only w s (State.trainFail u x1) := by
  unfold State.trainFail
  repeat' first
    | with_reducible assumption
    | with_reducible apply Only.foldl
    | with_reducible apply State.goDown_only
    | with_reducible apply State.setStake_only
    | with_reducible apply State.logEv_only
    | (with_reducible refine Only.ite (fun _ => ?_) (fun _ => ?_))
    | split
    | exact Fld.sub_trans (by decide) hs
    | intro _
    | dsimp only

theorem State.probed_only {w : List Fld} {s u : State} (h : Only w s u) (x1 : Nat) (x2 : Nat)
    (hs : Fld.sub [.gst, .time, .colls, .stakes, .vc0] w = true := by decide) : Only w s (State.probed u x1 x2) := by
  unfold State.probed
  repeat' first
    | with_reducible assumption
    | with_reducible apply Only.foldl
    | with_reducible apply State.trainFail_only
    | with_reducible apply State.stakeUp_only
    | with_reducible apply State.setStake_only
    | (with_reducible refine Only.ite (fun _ => ?_) (fun _ => ?_))
    | split
    | exact Fld.sub_trans (by decide) hs
    | intro _
    | dsimp only

theorem State.goodTrain_only {w : List Fld} {s u : State} (h : Only w s u) (x1 : Nat) (x2 : Nat) (x3 : RxFlit)
    (hs : Fld.sub [.gst, .time, .colls, .stakes, .vc0] w = true := by decide) : Only w s (State.goodTrain u x1 x2 x3) := by
  unfold State.goodTrain
  repeat' first
    | with_reducible assumption
    | with_reducible apply Only.foldl
    | with_reducible apply State.probed_only
    | with_reducible apply State.goodId_only
    | with_reducible apply State.setStake_only
    | (with_reducible refine Only.ite (fun _ => ?_) (fun _ => ?_))
    | split
    | exact Fld.sub_trans (by decide) hs
    | intro _
    | dsimp only

theorem State.goodFlit_only {w : List Fld} {s u : State} (h : Only w s u) (x1 : Nat) (x2 : Nat) (x3 : RxFlit)
    (hs : Fld.sub [.gst, .time, .adm, .pwr, .chans, .fdw, .hoopNet, .ports, .colls, .col, .stakes, .exc, .upd, .vc0, .free] w = true := by decide) : Only w s (State.goodFlit u x1 x2 x3) := by
  unfold State.goodFlit
  repeat' first
    | with_reducible assumption
    | with_reducible apply Only.foldl
    | with_reducible apply State.goodTrain_only
    | with_reducible apply State.goodLink_only
    | with_reducible apply State.goodData_only
    | with_reducible apply State.proto_only
    | with_reducible apply State.closed_only
    | with_reducible apply State.onStake_only
    | (with_reducible refine Only.ite (fun _ => ?_) (fun _ => ?_))
    | split
    | exact Fld.sub_trans (by decide) hs
    | intro _
    | dsimp only

theorem State.rxFlit_only {w : List Fld} {s u : State} (h : Only w s u) (x1 : Nat) (x2 : Nat) (x3 : FKind) (x4 : List Byte)
    (hs : Fld.sub [.gst, .time, .adm, .pwr, .chans, .fdw, .hoops, .hoopNet, .ports, .colls, .col, .stakes, .exc, .upd, .vc0, .free] w = true := by decide) : Only w s (State.rxFlit u x1 x2 x3 x4) := by
  unfold State.rxFlit
  repeat' first
    | with_reducible assumption
    | with_reducible apply Only.foldl
    | with_reducible apply State.goodFlit_only
    | with_reducible apply State.rxAll_only
    | with_reducible apply State.retrain_only
    | with_reducible apply State.settle_only
    | with_reducible apply State.onStake_only
    | (with_reducible refine Only.ite (fun _ => ?_) (fun _ => ?_))
    | split
    | exact Fld.sub_trans (by decide) hs
    | intro _
    | dsimp only

theorem execDataFlitReceive_only (s : State) (x0 : Fin 16) (x1 : List Byte) (x2 : BitVec 10) :
    NextOnly [.gst, .time, .adm, .pwr, .chans, .fdw, .hoops, .hoopNet, .ports, .colls, .col, .stakes, .exc, .upd, .vc0, .free] s (execDataFlitReceive x0 x1 x2 s) := by
  unfold execDataFlitReceive
  refine live_only ?_
  repeat' first
    | with_reducible assumption
    | with_reducible exact Only.refl
    | with_reducible apply Only.foldl
    | with_reducible apply State.rxFlit_only
    | (with_reducible refine Only.ite (fun _ => ?_) (fun _ => ?_))
    | split
    | decide
    | intro _
    | dsimp only

theorem execLinkFlitReceive_only (s : State) (x0 : Fin 16) (x1 : List Byte) :
    NextOnly [.gst, .time, .adm, .pwr, .chans, .fdw, .hoops, .hoopNet, .ports, .colls, .col, .stakes, .exc, .upd, .vc0, .free] s (execLinkFlitReceive x0 x1 s) := by
  unfold execLinkFlitReceive
  refine live_only ?_
  repeat' first
    | with_reducible assumption
    | with_reducible exact Only.refl
    | with_reducible apply Only.foldl
    | with_reducible apply State.rxFlit_only
    | (with_reducible refine Only.ite (fun _ => ?_) (fun _ => ?_))
    | split
    | decide
    | intro _
    | dsimp only

theorem execAckTimeout_only (s : State) (x0 : Fin 16) :
    NextOnly [.gst, .stakes] s (execAckTimeout x0 s) := by
  unfold execAckTimeout
  refine live_only ?_
  repeat' first
    | with_reducible assumption
    | with_reducible exact Only.refl
    | with_reducible apply Only.foldl
    | with_reducible apply State.retrain_only
    | with_reducible apply State.setStake_only
    | (with_reducible refine Only.ite (fun _ => ?_) (fun _ => ?_))
    | split
    | decide
    | intro _
    | dsimp only

theorem State.sendLink_only {w : List Fld} {s u : State} (h : Only w s u) (x1 : Nat)
    (hs : Fld.sub [.stakes] w = true := by decide) : Only w s (State.sendLink u x1) := by
  unfold State.sendLink
  repeat' first
    | with_reducible assumption
    | with_reducible apply Only.foldl
    | with_reducible apply State.onStake_only
    | (with_reducible refine Only.ite (fun _ => ?_) (fun _ => ?_))
    | split
    | exact Fld.sub_trans (by decide) hs
    | intro _
    | dsimp only

theorem execNakRepeat_only (s : State) (x0 : Fin 16) :
    NextOnly [.stakes] s (execNakRepeat x0 s) := by
  unfold execNakRepeat
  refine live_only ?_
  repeat' first
    | with_reducible assumption
    | with_reducible exact Only.refl
    | with_reducible apply Only.foldl
    | with_reducible apply State.sendLink_only
    | (with_reducible refine Only.ite (fun _ => ?_) (fun _ => ?_))
    | split
    | decide
    | intro _
    | dsimp only

theorem execLinkFlitDue_only (s : State) (x0 : Fin 16) :
    NextOnly [.stakes] s (execLinkFlitDue x0 s) := by
  unfold execLinkFlitDue
  refine live_only ?_
  repeat' first
    | with_reducible assumption
    | with_reducible exact Only.refl
    | with_reducible apply Only.foldl
    | with_reducible apply State.sendLink_only
    | (with_reducible refine Only.ite (fun _ => ?_) (fun _ => ?_))
    | split
    | decide
    | intro _
    | dsimp only

theorem execReplayShadowEnd_only (s : State) (x0 : Fin 16) :
    NextOnly [.stakes] s (execReplayShadowEnd x0 s) := by
  unfold execReplayShadowEnd
  refine live_only ?_
  repeat' first
    | with_reducible assumption
    | with_reducible exact Only.refl
    | with_reducible apply Only.foldl
    | with_reducible apply State.onStake_only
    | (with_reducible refine Only.ite (fun _ => ?_) (fun _ => ?_))
    | split
    | decide
    | intro _
    | dsimp only

theorem execTrainFlitReceive_only (s : State) (x0 : Fin 16) (x1 : List Byte) (x2 : BitVec 10) :
    NextOnly [.gst, .time, .adm, .pwr, .chans, .fdw, .hoops, .hoopNet, .ports, .colls, .col, .stakes, .exc, .upd, .vc0, .free] s (execTrainFlitReceive x0 x1 x2 s) := by
  unfold execTrainFlitReceive
  refine live_only ?_
  repeat' first
    | with_reducible assumption
    | with_reducible exact Only.refl
    | with_reducible apply Only.foldl
    | with_reducible apply State.rxFlit_only
    | (with_reducible refine Only.ite (fun _ => ?_) (fun _ => ?_))
    | split
    | decide
    | intro _
    | dsimp only

theorem State.line_only {w : List Fld} {s u : State} (h : Only w s u) (x1 : Nat) (x2 : List Byte)
    (hs : Fld.sub [.stakes] w = true := by decide) : Only w s (State.line u x1 x2) := by
  unfold State.line
  repeat' first
    | with_reducible assumption
    | with_reducible apply Only.foldl
    | with_reducible apply State.onStake_only
    | (with_reducible refine Only.ite (fun _ => ?_) (fun _ => ?_))
    | split
    | exact Fld.sub_trans (by decide) hs
    | intro _
    | dsimp only

theorem State.sendTrain_only {w : List Fld} {s u : State} (h : Only w s u) (x1 : Nat) (x2 : TrainOut)
    (hs : Fld.sub [.stakes] w = true := by decide) : Only w s (State.sendTrain u x1 x2) := by
  unfold State.sendTrain
  repeat' first
    | with_reducible assumption
    | with_reducible apply Only.foldl
    | with_reducible apply State.line_only
    | with_reducible apply State.onStake_only
    | (with_reducible refine Only.ite (fun _ => ?_) (fun _ => ?_))
    | split
    | exact Fld.sub_trans (by decide) hs
    | intro _
    | dsimp only

theorem execIdFlitDue_only (s : State) (x0 : Fin 16) :
    NextOnly [.stakes] s (execIdFlitDue x0 s) := by
  unfold execIdFlitDue
  refine live_only ?_
  repeat' first
    | with_reducible assumption
    | with_reducible exact Only.refl
    | with_reducible apply Only.foldl
    | with_reducible apply State.sendTrain_only
    | (with_reducible refine Only.ite (fun _ => ?_) (fun _ => ?_))
    | split
    | decide
    | intro _
    | dsimp only

theorem execProbeRetry_only (s : State) (x0 : Fin 16) :
    NextOnly [.stakes] s (execProbeRetry x0 s) := by
  unfold execProbeRetry
  refine live_only ?_
  repeat' first
    | with_reducible assumption
    | with_reducible exact Only.refl
    | with_reducible apply Only.foldl
    | with_reducible apply State.sendTrain_only
    | (with_reducible refine Only.ite (fun _ => ?_) (fun _ => ?_))
    | split
    | decide
    | intro _
    | dsimp only

theorem State.chooseWidth_only {w : List Fld} {s u : State} (h : Only w s u) (x1 : Nat)
    (hs : Fld.sub [.gst, .stakes] w = true := by decide) : Only w s (State.chooseWidth u x1) := by
  unfold State.chooseWidth
  repeat' first
    | with_reducible assumption
    | with_reducible apply Only.foldl
    | with_reducible apply State.setStake_only
    | with_reducible apply State.logEv_only
    | with_reducible apply State.attn_only
    | (with_reducible refine Only.ite (fun _ => ?_) (fun _ => ?_))
    | split
    | exact Fld.sub_trans (by decide) hs
    | intro _
    | dsimp only

theorem State.trainWord_only {w : List Fld} {s u : State} (h : Only w s u) (x1 : Nat) (x2 : Nat) (x3 : BitVec 256)
    (hs : Fld.sub [.gst, .stakes] w = true := by decide) : Only w s (State.trainWord u x1 x2 x3) := by
  unfold State.trainWord
  repeat' first
    | with_reducible assumption
    | with_reducible apply Only.foldl
    | with_reducible apply State.chooseWidth_only
    | with_reducible apply State.setStake_only
    | (with_reducible refine Only.ite (fun _ => ?_) (fun _ => ?_))
    | split
    | exact Fld.sub_trans (by decide) hs
    | intro _
    | dsimp only

theorem execTrainingWord_only (s : State) (x0 : Fin 16) (x1 : Fin 8) (x2 : BitVec 256) :
    NextOnly [.gst, .stakes] s (execTrainingWord x0 x1 x2 s) := by
  unfold execTrainingWord
  refine live_only ?_
  repeat' first
    | with_reducible assumption
    | with_reducible exact Only.refl
    | with_reducible apply Only.foldl
    | with_reducible apply State.trainWord_only
    | (with_reducible refine Only.ite (fun _ => ?_) (fun _ => ?_))
    | split
    | decide
    | intro _
    | dsimp only

theorem execTrainingTimeout_only (s : State) (x0 : Fin 16) :
    NextOnly [.gst, .adm, .pwr, .chans, .fdw, .hoops, .hoopNet, .ports, .colls, .col, .stakes, .exc, .upd, .vc0] s (execTrainingTimeout x0 s) := by
  unfold execTrainingTimeout
  refine live_only ?_
  repeat' first
    | with_reducible assumption
    | with_reducible exact Only.refl
    | with_reducible apply Only.foldl
    | with_reducible apply State.trainFail_only
    | with_reducible apply State.settle_only
    | (with_reducible refine Only.ite (fun _ => ?_) (fun _ => ?_))
    | split
    | decide
    | intro _
    | dsimp only

theorem execPhyResetDone_only (s : State) (x0 : Fin 16) :
    NextOnly [.stakes] s (execPhyResetDone x0 s) := by
  unfold execPhyResetDone
  refine live_only ?_
  repeat' first
    | with_reducible assumption
    | with_reducible exact Only.refl
    | with_reducible apply Only.foldl
    | with_reducible apply State.setStake_only
    | (with_reducible refine Only.ite (fun _ => ?_) (fun _ => ?_))
    | split
    | decide
    | intro _
    | dsimp only

theorem execSkPhyRdyRise_only (s : State) (x0 : Fin 8) (x1 : BitVec 8) :
    NextOnly [.stakes] s (execSkPhyRdyRise x0 x1 s) := by
  unfold execSkPhyRdyRise
  refine live_only ?_
  repeat' first
    | with_reducible assumption
    | with_reducible exact Only.refl
    | with_reducible apply Only.foldl
    | with_reducible apply State.onStake_only
    | (with_reducible refine Only.ite (fun _ => ?_) (fun _ => ?_))
    | split
    | decide
    | intro _
    | dsimp only

theorem State.laneLost_only {w : List Fld} {s u : State} (h : Only w s u) (x1 : Nat) (x2 : Nat) (x3 : BitVec 8)
    (hs : Fld.sub [.gst, .colls, .stakes, .vc0] w = true := by decide) : Only w s (State.laneLost u x1 x2 x3) := by
  unfold State.laneLost
  repeat' first
    | with_reducible assumption
    | with_reducible apply Only.foldl
    | with_reducible apply State.goDown_only
    | with_reducible apply State.retrain_only
    | (with_reducible refine Only.ite (fun _ => ?_) (fun _ => ?_))
    | split
    | exact Fld.sub_trans (by decide) hs
    | intro _
    | dsimp only

theorem execSkPhyRdyFall_only (s : State) (x0 : Fin 8) (x1 : BitVec 8) :
    NextOnly [.gst, .adm, .pwr, .chans, .fdw, .hoops, .hoopNet, .ports, .colls, .col, .stakes, .exc, .upd, .vc0] s (execSkPhyRdyFall x0 x1 s) := by
  unfold execSkPhyRdyFall
  refine live_only ?_
  repeat' first
    | with_reducible assumption
    | with_reducible exact Only.refl
    | with_reducible apply Only.foldl
    | with_reducible apply State.laneLost_only
    | with_reducible apply State.settle_only
    | with_reducible apply State.onStake_only
    | (with_reducible refine Only.ite (fun _ => ?_) (fun _ => ?_))
    | split
    | decide
    | intro _
    | dsimp only

theorem execSkLaneFlt_only (s : State) (x0 : Fin 8) (x1 : BitVec 8) :
    NextOnly [.gst, .adm, .pwr, .chans, .fdw, .hoops, .hoopNet, .ports, .colls, .col, .stakes, .exc, .upd, .vc0] s (execSkLaneFlt x0 x1 s) := by
  unfold execSkLaneFlt
  refine live_only ?_
  repeat' first
    | with_reducible assumption
    | with_reducible exact Only.refl
    | with_reducible apply Only.foldl
    | with_reducible apply State.laneLost_only
    | with_reducible apply State.settle_only
    | with_reducible apply State.onStake_only
    | (with_reducible refine Only.ite (fun _ => ?_) (fun _ => ?_))
    | split
    | decide
    | intro _
    | dsimp only

theorem State.retrainReq_only {w : List Fld} {s u : State} (h : Only w s u) (x1 : Nat)
    (hs : Fld.sub [.gst, .stakes] w = true := by decide) : Only w s (State.retrainReq u x1) := by
  unfold State.retrainReq
  repeat' first
    | with_reducible assumption
    | with_reducible apply Only.foldl
    | with_reducible apply State.retrain_only
    | (with_reducible refine Only.ite (fun _ => ?_) (fun _ => ?_))
    | split
    | exact Fld.sub_trans (by decide) hs
    | intro _
    | dsimp only

theorem execRetrain_only (s : State) (x0 : Fin 16) :
    NextOnly [.gst, .stakes] s (execRetrain x0 s) := by
  unfold execRetrain
  refine live_only ?_
  repeat' first
    | with_reducible assumption
    | with_reducible exact Only.refl
    | with_reducible apply Only.foldl
    | with_reducible apply State.retrainReq_only
    | (with_reducible refine Only.ite (fun _ => ?_) (fun _ => ?_))
    | split
    | decide
    | intro _
    | dsimp only

theorem execClrcnt_only (s : State) (x0 : Fin 16) :
    NextOnly [.stakes] s (execClrcnt x0 s) := by
  unfold execClrcnt
  refine live_only ?_
  repeat' first
    | with_reducible assumption
    | with_reducible exact Only.refl
    | with_reducible apply Only.foldl
    | with_reducible apply State.onStake_only
    | (with_reducible refine Only.ite (fun _ => ?_) (fun _ => ?_))
    | split
    | decide
    | intro _
    | dsimp only

theorem State.syncAll_only {w : List Fld} {s u : State} (h : Only w s u) 
    (hs : Fld.sub [.time, .stakes] w = true := by decide) : Only w s (State.syncAll u) := by
  unfold State.syncAll
  repeat' first
    | with_reducible assumption
    | with_reducible apply Only.foldl
    | with_reducible apply State.sendSync_only
    | with_reducible apply State.onStake_only
    | (with_reducible refine Only.ite (fun _ => ?_) (fun _ => ?_))
    | split
    | ((with_reducible refine Only.put_time ?_ _ ?hm); case hm => exact Fld.sub_contains hs (by decide))
    | exact Fld.sub_trans (by decide) hs
    | intro _
    | dsimp only

theorem execSyncDue_only (s : State)  :
    NextOnly [.time, .stakes] s (execSyncDue s) := by
  unfold execSyncDue
  refine live_only ?_
  repeat' first
    | with_reducible assumption
    | with_reducible exact Only.refl
    | with_reducible apply Only.foldl
    | with_reducible apply State.syncAll_only
    | (with_reducible refine Only.ite (fun _ => ?_) (fun _ => ?_))
    | split
    | decide
    | intro _
    | dsimp only

theorem execSync_only (s : State) (x0 : Fin 16) (x1 : BitVec 16) (x2 : BitVec 8) (x3 : BitVec 16) (x4 : BitVec 10) :
    NextOnly [.time] s (execSync x0 x1 x2 x3 x4 s) := by
  unfold execSync
  refine live_only ?_
  repeat' first
    | with_reducible assumption
    | with_reducible exact Only.refl
    | with_reducible apply Only.foldl
    | with_reducible apply State.onSync_only
    | (with_reducible refine Only.ite (fun _ => ?_) (fun _ => ?_))
    | split
    | decide
    | intro _
    | dsimp only

theorem execFollow_only (s : State) (x0 : Fin 16) (x1 : BitVec 16) (x2 : BitVec 8) (x3 : BitVec 16) (x4 : BitVec 64) (x5 : BitVec 16) :
    NextOnly [.gst, .time] s (execFollow x0 x1 x2 x3 x4 x5 s) := by
  unfold execFollow
  refine live_only ?_
  repeat' first
    | with_reducible assumption
    | with_reducible exact Only.refl
    | with_reducible apply Only.foldl
    | with_reducible apply State.onFollow_only
    | (with_reducible refine Only.ite (fun _ => ?_) (fun _ => ?_))
    | split
    | decide
    | intro _
    | dsimp only

theorem execTimeHoldover_only (s : State)  :
    NextOnly [.gst, .time] s (execTimeHoldover s) := by
  unfold execTimeHoldover
  refine live_only ?_
  repeat' first
    | with_reducible assumption
    | with_reducible exact Only.refl
    | with_reducible apply Only.foldl
    | with_reducible apply State.logEv_only
    | (with_reducible refine Only.ite (fun _ => ?_) (fun _ => ?_))
    | split
    | ((with_reducible refine Only.put_time ?_ _ ?hm); case hm => decide)
    | decide
    | intro _
    | dsimp only

theorem State.refLost_only {w : List Fld} {s u : State} (h : Only w s u) 
    (hs : Fld.sub [.gst, .time, .tilth] w = true := by decide) : Only w s (State.refLost u) := by
  unfold State.refLost
  repeat' first
    | with_reducible assumption
    | with_reducible apply Only.foldl
    | with_reducible apply State.logEv_only
    | with_reducible apply State.attn_only
    | (with_reducible refine Only.ite (fun _ => ?_) (fun _ => ?_))
    | split
    | ((with_reducible refine Only.put_time_tilth ?_ _ _ ?h0 ?h1); (case h0 => exact Fld.sub_contains hs (by decide)); (case h1 => exact Fld.sub_contains hs (by decide)))
    | ((with_reducible refine Only.put_time ?_ _ ?hm); case hm => exact Fld.sub_contains hs (by decide))
    | ((with_reducible refine Only.put_tilth ?_ _ ?hm); case hm => exact Fld.sub_contains hs (by decide))
    | exact Fld.sub_trans (by decide) hs
    | intro _
    | dsimp only

theorem execRefclkLost_only (s : State)  :
    NextOnly [.gst, .time, .tilth] s (execRefclkLost s) := by
  unfold execRefclkLost
  refine live_only ?_
  repeat' first
    | with_reducible assumption
    | with_reducible exact Only.refl
    | with_reducible apply Only.foldl
    | with_reducible apply State.refLost_only
    | (with_reducible refine Only.ite (fun _ => ?_) (fun _ => ?_))
    | split
    | decide
    | intro _
    | dsimp only

theorem execRefclkRestored_only (s : State)  :
    NextOnly [.time] s (execRefclkRestored s) := by
  unfold execRefclkRestored
  refine live_only ?_
  repeat' first
    | with_reducible assumption
    | with_reducible exact Only.refl
    | with_reducible apply Only.foldl
    | (with_reducible refine Only.ite (fun _ => ?_) (fun _ => ?_))
    | split
    | ((with_reducible refine Only.put_time ?_ _ ?hm); case hm => decide)
    | decide
    | intro _
    | dsimp only

theorem execCalibration_only (s : State)  :
    NextOnly [.tilth] s (execCalibration s) := by
  unfold execCalibration
  refine live_only ?_
  repeat' first
    | with_reducible assumption
    | with_reducible exact Only.refl
    | with_reducible apply Only.foldl
    | (with_reducible refine Only.ite (fun _ => ?_) (fun _ => ?_))
    | split
    | ((with_reducible refine Only.put_tilth ?_ _ ?hm); case hm => decide)
    | decide
    | intro _
    | dsimp only

theorem State.setMon_only {w : List Fld} {s u : State} (h : Only w s u) (x1 : Nat) (x2 : Mon)
    (hs : Fld.sub [.tilth] w = true := by decide) : Only w s (State.setMon u x1 x2) := by
  unfold State.setMon
  repeat' first
    | with_reducible assumption
    | with_reducible apply Only.foldl
    | (with_reducible refine Only.ite (fun _ => ?_) (fun _ => ?_))
    | split
    | ((with_reducible refine Only.put_tilth ?_ _ ?hm); case hm => exact Fld.sub_contains hs (by decide))
    | exact Fld.sub_trans (by decide) hs
    | intro _
    | dsimp only

theorem State.unsettle_only {w : List Fld} {s u : State} (h : Only w s u) 
    (hs : Fld.sub [.tilth] w = true := by decide) : Only w s (State.unsettle u) := by
  unfold State.unsettle
  repeat' first
    | with_reducible assumption
    | with_reducible apply Only.foldl
    | (with_reducible refine Only.ite (fun _ => ?_) (fun _ => ?_))
    | split
    | ((with_reducible refine Only.put_tilth ?_ _ ?hm); case hm => exact Fld.sub_contains hs (by decide))
    | exact Fld.sub_trans (by decide) hs
    | intro _
    | dsimp only

theorem State.setTau_only {w : List Fld} {s u : State} (h : Only w s u) (x1 : Nat)
    (hs : Fld.sub [.tilth] w = true := by decide) : Only w s (State.setTau u x1) := by
  unfold State.setTau
  repeat' first
    | with_reducible assumption
    | with_reducible apply Only.foldl
    | with_reducible apply State.unsettle_only
    | (with_reducible refine Only.ite (fun _ => ?_) (fun _ => ?_))
    | split
    | ((with_reducible refine Only.put_tilth ?_ _ ?hm); case hm => exact Fld.sub_contains hs (by decide))
    | exact Fld.sub_trans (by decide) hs
    | intro _
    | dsimp only

theorem State.raiseTap_only {w : List Fld} {s u : State} (h : Only w s u) (x1 : Nat) (x2 : Bool) (x3 : Nat)
    (hs : Fld.sub [.tilth] w = true := by decide) : Only w s (State.raiseTap u x1 x2 x3) := by
  unfold State.raiseTap
  repeat' first
    | with_reducible assumption
    | with_reducible apply Only.foldl
    | with_reducible apply State.setTau_only
    | with_reducible apply State.setMon_only
    | (with_reducible refine Only.ite (fun _ => ?_) (fun _ => ?_))
    | split
    | exact Fld.sub_trans (by decide) hs
    | intro _
    | dsimp only

theorem State.sample_only {w : List Fld} {s u : State} (h : Only w s u) (x1 : Nat) (x2 : Bool) (x3 : Int) (x4 : Nat)
    (hs : Fld.sub [.gst, .tilth] w = true := by decide) : Only w s (State.sample u x1 x2 x3 x4) := by
  unfold State.sample
  repeat' first
    | with_reducible assumption
    | with_reducible apply Only.foldl
    | with_reducible apply State.raiseTap_only
    | with_reducible apply State.setMon_only
    | with_reducible apply State.logEv_only
    | with_reducible apply State.attn_only
    | (with_reducible refine Only.ite (fun _ => ?_) (fun _ => ?_))
    | split
    | ((with_reducible refine Only.put_tilth ?_ _ ?hm); case hm => exact Fld.sub_contains hs (by decide))
    | exact Fld.sub_trans (by decide) hs
    | intro _
    | dsimp only

theorem execMonitorSample_only (s : State) (x0 : Fin 1040) (x1 : Bool) (x2 : Int) (x3 : Nat) :
    NextOnly [.gst, .tilth] s (execMonitorSample x0 x1 x2 x3 s) := by
  unfold execMonitorSample
  refine live_only ?_
  repeat' first
    | with_reducible assumption
    | with_reducible exact Only.refl
    | with_reducible apply Only.foldl
    | with_reducible apply State.sample_only
    | (with_reducible refine Only.ite (fun _ => ?_) (fun _ => ?_))
    | split
    | decide
    | intro _
    | dsimp only

theorem State.tauWindow_only {w : List Fld} {s u : State} (h : Only w s u) (x1 : Nat) (x2 : Bool)
    (hs : Fld.sub [.tilth] w = true := by decide) : Only w s (State.tauWindow u x1 x2) := by
  unfold State.tauWindow
  repeat' first
    | with_reducible assumption
    | with_reducible apply Only.foldl
    | with_reducible apply State.setTau_only
    | with_reducible apply State.setMon_only
    | (with_reducible refine Only.ite (fun _ => ?_) (fun _ => ?_))
    | split
    | ((with_reducible refine Only.put_tilth ?_ _ ?hm); case hm => exact Fld.sub_contains hs (by decide))
    | exact Fld.sub_trans (by decide) hs
    | intro _
    | dsimp only

theorem State.temper_only {w : List Fld} {s u : State} (h : Only w s u) (x1 : Nat) (x2 : Bool)
    (hs : Fld.sub [.tilth] w = true := by decide) : Only w s (State.temper u x1 x2) := by
  unfold State.temper
  repeat' first
    | with_reducible assumption
    | with_reducible apply Only.foldl
    | with_reducible apply State.raiseTap_only
    | with_reducible apply State.setMon_only
    | (with_reducible refine Only.ite (fun _ => ?_) (fun _ => ?_))
    | split
    | ((with_reducible refine Only.put_tilth ?_ _ ?hm); case hm => exact Fld.sub_contains hs (by decide))
    | exact Fld.sub_trans (by decide) hs
    | intro _
    | dsimp only

theorem State.windowEnd_only {w : List Fld} {s u : State} (h : Only w s u) (x1 : Nat)
    (hs : Fld.sub [.tilth, .free] w = true := by decide) : Only w s (State.windowEnd u x1) := by
  unfold State.windowEnd
  repeat' first
    | with_reducible assumption
    | with_reducible apply Only.foldl
    | with_reducible apply State.temper_only
    | with_reducible apply State.tauWindow_only
    | with_reducible apply State.setMon_only
    | with_reducible apply State.freeNext_only
    | (with_reducible refine Only.ite (fun _ => ?_) (fun _ => ?_))
    | split
    | ((with_reducible refine Only.put_tilth ?_ _ ?hm); case hm => exact Fld.sub_contains hs (by decide))
    | exact Fld.sub_trans (by decide) hs
    | intro _
    | dsimp only

theorem execTilthWindowEnd_only (s : State) (x0 : Fin 1040) :
    NextOnly [.tilth, .free] s (execTilthWindowEnd x0 s) := by
  unfold execTilthWindowEnd
  refine live_only ?_
  repeat' first
    | with_reducible assumption
    | with_reducible exact Only.refl
    | with_reducible apply Only.foldl
    | with_reducible apply State.windowEnd_only
    | (with_reducible refine Only.ite (fun _ => ?_) (fun _ => ?_))
    | split
    | decide
    | intro _
    | dsimp only

theorem State.applyTap_only {w : List Fld} {s u : State} (h : Only w s u) (x1 : Nat) (x2 : Bool)
    (hs : Fld.sub [.tilth] w = true := by decide) : Only w s (State.applyTap u x1 x2) := by
  unfold State.applyTap
  repeat' first
    | with_reducible assumption
    | with_reducible apply Only.foldl
    | with_reducible apply State.unsettle_only
    | with_reducible apply State.setMon_only
    | (with_reducible refine Only.ite (fun _ => ?_) (fun _ => ?_))
    | split
    | ((with_reducible refine Only.put_tilth ?_ _ ?hm); case hm => exact Fld.sub_contains hs (by decide))
    | exact Fld.sub_trans (by decide) hs
    | intro _
    | dsimp only

theorem execTapChangeApply_only (s : State) (x0 : Fin 1040) (x1 : Bool) :
    NextOnly [.tilth] s (execTapChangeApply x0 x1 s) := by
  unfold execTapChangeApply
  refine live_only ?_
  repeat' first
    | with_reducible assumption
    | with_reducible exact Only.refl
    | with_reducible apply Only.foldl
    | with_reducible apply State.applyTap_only
    | (with_reducible refine Only.ite (fun _ => ?_) (fun _ => ?_))
    | split
    | decide
    | intro _
    | dsimp only

theorem State.histLoad_only {w : List Fld} {s u : State} (h : Only w s u) 
    (hs : Fld.sub [.gst, .tilth] w = true := by decide) : Only w s (State.histLoad u) := by
  unfold State.histLoad
  repeat' first
    | with_reducible assumption
    | with_reducible apply Only.foldl
    | with_reducible apply State.setTau_only
    | with_reducible apply State.unsettle_only
    | with_reducible apply State.setMon_only
    | with_reducible apply State.logEv_only
    | (with_reducible refine Only.ite (fun _ => ?_) (fun _ => ?_))
    | split
    | ((with_reducible refine Only.put_tilth ?_ _ ?hm); case hm => exact Fld.sub_contains hs (by decide))
    | exact Fld.sub_trans (by decide) hs
    | intro _
    | dsimp only

theorem State.histCtrl_only {w : List Fld} {s u : State} (h : Only w s u) (x1 : Word)
    (hs : Fld.sub [.gst, .tilth] w = true := by decide) : Only w s (State.histCtrl u x1) := by
  unfold State.histCtrl
  repeat' first
    | with_reducible assumption
    | with_reducible apply Only.foldl
    | with_reducible apply State.histLoad_only
    | (with_reducible refine Only.ite (fun _ => ?_) (fun _ => ?_))
    | split
    | ((with_reducible refine Only.put_tilth ?_ _ ?hm); case hm => exact Fld.sub_contains hs (by decide))
    | exact Fld.sub_trans (by decide) hs
    | intro _
    | dsimp only

theorem execSnap_only (s : State) (x0 : Word) :
    NextOnly [.gst, .tilth] s (execSnap x0 s) := by
  unfold execSnap
  refine live_only ?_
  repeat' first
    | with_reducible assumption
    | with_reducible exact Only.refl
    | with_reducible apply Only.foldl
    | with_reducible apply State.histCtrl_only
    | (with_reducible refine Only.ite (fun _ => ?_) (fun _ => ?_))
    | split
    | decide
    | intro _
    | dsimp only

theorem State.snapCopy_only {w : List Fld} {s u : State} (h : Only w s u) 
    (hs : Fld.sub [.tilth] w = true := by decide) : Only w s (State.snapCopy u) := by
  unfold State.snapCopy
  repeat' first
    | with_reducible assumption
    | with_reducible apply Only.foldl
    | (with_reducible refine Only.ite (fun _ => ?_) (fun _ => ?_))
    | split
    | ((with_reducible refine Only.put_tilth ?_ _ ?hm); case hm => exact Fld.sub_contains hs (by decide))
    | exact Fld.sub_trans (by decide) hs
    | intro _
    | dsimp only

theorem execSnapshotCopy_only (s : State)  :
    NextOnly [.tilth] s (execSnapshotCopy s) := by
  unfold execSnapshotCopy
  refine live_only ?_
  repeat' first
    | with_reducible assumption
    | with_reducible exact Only.refl
    | with_reducible apply Only.foldl
    | with_reducible apply State.snapCopy_only
    | (with_reducible refine Only.ite (fun _ => ?_) (fun _ => ?_))
    | split
    | decide
    | intro _
    | dsimp only

theorem execHistoryLoad_only (s : State) (x0 : Word) :
    NextOnly [.gst, .tilth] s (execHistoryLoad x0 s) := by
  unfold execHistoryLoad
  refine live_only ?_
  repeat' first
    | with_reducible assumption
    | with_reducible exact Only.refl
    | with_reducible apply Only.foldl
    | with_reducible apply State.histCtrl_only
    | (with_reducible refine Only.ite (fun _ => ?_) (fun _ => ?_))
    | split
    | decide
    | intro _
    | dsimp only

theorem State.tilForce_only {w : List Fld} {s u : State} (h : Only w s u) (x1 : Word)
    (hs : Fld.sub [.tilth] w = true := by decide) : Only w s (State.tilForce u x1) := by
  unfold State.tilForce
  repeat' first
    | with_reducible assumption
    | with_reducible apply Only.foldl
    | with_reducible apply State.setTau_only
    | with_reducible apply State.setMon_only
    | (with_reducible refine Only.ite (fun _ => ?_) (fun _ => ?_))
    | split
    | ((with_reducible refine Only.put_tilth ?_ _ ?hm); case hm => exact Fld.sub_contains hs (by decide))
    | exact Fld.sub_trans (by decide) hs
    | intro _
    | dsimp only

theorem execTilForce_only (s : State) (x0 : Word) :
    NextOnly [.tilth] s (execTilForce x0 s) := by
  unfold execTilForce
  refine live_only ?_
  repeat' first
    | with_reducible assumption
    | with_reducible exact Only.refl
    | with_reducible apply Only.foldl
    | with_reducible apply State.tilForce_only
    | (with_reducible refine Only.ite (fun _ => ?_) (fun _ => ?_))
    | split
    | decide
    | intro _
    | dsimp only

theorem State.floorCheck_only {w : List Fld} {s u : State} (h : Only w s u) 
    (hs : Fld.sub [.gst, .pwr] w = true := by decide) : Only w s (State.floorCheck u) := by
  unfold State.floorCheck
  repeat' first
    | with_reducible assumption
    | with_reducible apply Only.foldl
    | with_reducible apply State.logEv_only
    | (with_reducible refine Only.ite (fun _ => ?_) (fun _ => ?_))
    | split
    | ((with_reducible refine Only.put_pwr ?_ _ ?hm); case hm => exact Fld.sub_contains hs (by decide))
    | exact Fld.sub_trans (by decide) hs
    | intro _
    | dsimp only

theorem State.governor_only {w : List Fld} {s u : State} (h : Only w s u) (x1 : List Nat) (x2 : Nat)
    (hs : Fld.sub [.gst, .pwr] w = true := by decide) : Only w s (State.governor u x1 x2) := by
  unfold State.governor
  repeat' first
    | with_reducible assumption
    | with_reducible apply Only.foldl
    | with_reducible apply State.floorCheck_only
    | (with_reducible refine Only.ite (fun _ => ?_) (fun _ => ?_))
    | split
    | ((with_reducible refine Only.put_pwr ?_ _ ?hm); case hm => exact Fld.sub_contains hs (by decide))
    | exact Fld.sub_trans (by decide) hs
    | intro _
    | dsimp only

theorem execGovernorInterval_only (s : State) (x0 : List Nat) (x1 : Nat) :
    NextOnly [.gst, .pwr] s (execGovernorInterval x0 x1 s) := by
  unfold execGovernorInterval
  refine live_only ?_
  repeat' first
    | with_reducible assumption
    | with_reducible exact Only.refl
    | with_reducible apply Only.foldl
    | with_reducible apply State.governor_only
    | (with_reducible refine Only.ite (fun _ => ?_) (fun _ => ?_))
    | split
    | decide
    | intro _
    | dsimp only

theorem State.throttle_only {w : List Fld} {s u : State} (h : Only w s u) (x1 : BitVec 4)
    (hs : Fld.sub [.gst, .pwr] w = true := by decide) : Only w s (State.throttle u x1) := by
  unfold State.throttle
  repeat' first
    | with_reducible assumption
    | with_reducible apply Only.foldl
    | with_reducible apply State.floorCheck_only
    | (with_reducible refine Only.ite (fun _ => ?_) (fun _ => ?_))
    | split
    | ((with_reducible refine Only.put_pwr ?_ _ ?hm); case hm => exact Fld.sub_contains hs (by decide))
    | exact Fld.sub_trans (by decide) hs
    | intro _
    | dsimp only

theorem execThrottleChange_only (s : State) (x0 : BitVec 4) :
    NextOnly [.gst, .pwr] s (execThrottleChange x0 s) := by
  unfold execThrottleChange
  refine live_only ?_
  repeat' first
    | with_reducible assumption
    | with_reducible exact Only.refl
    | with_reducible apply Only.foldl
    | with_reducible apply State.throttle_only
    | (with_reducible refine Only.ite (fun _ => ?_) (fun _ => ?_))
    | split
    | decide
    | intro _
    | dsimp only

theorem State.pwrCfg_only {w : List Fld} {s u : State} (h : Only w s u) (x1 : Word)
    (hs : Fld.sub [.gst, .pwr] w = true := by decide) : Only w s (State.pwrCfg u x1) := by
  unfold State.pwrCfg
  repeat' first
    | with_reducible assumption
    | with_reducible apply Only.foldl
    | with_reducible apply State.logEv_only
    | (with_reducible refine Only.ite (fun _ => ?_) (fun _ => ?_))
    | split
    | ((with_reducible refine Only.put_pwr ?_ _ ?hm); case hm => exact Fld.sub_contains hs (by decide))
    | exact Fld.sub_trans (by decide) hs
    | intro _
    | dsimp only

theorem execPwrCfgWrite_only (s : State) (x0 : Word) :
    NextOnly [.gst, .pwr] s (execPwrCfgWrite x0 s) := by
  unfold execPwrCfgWrite
  refine live_only ?_
  repeat' first
    | with_reducible assumption
    | with_reducible exact Only.refl
    | with_reducible apply Only.foldl
    | with_reducible apply State.pwrCfg_only
    | (with_reducible refine Only.ite (fun _ => ?_) (fun _ => ?_))
    | split
    | decide
    | intro _
    | dsimp only

theorem State.enableChan_only {w : List Fld} {s u : State} (h : Only w s u) (x1 : Nat)
    (hs : Fld.sub [.chans, .fdw] w = true := by decide) : Only w s (State.enableChan u x1) := by
  unfold State.enableChan
  repeat' first
    | with_reducible assumption
    | with_reducible apply Only.foldl
    | with_reducible apply State.setChan_only
    | with_reducible apply State.orphan_only
    | (with_reducible refine Only.ite (fun _ => ?_) (fun _ => ?_))
    | split
    | exact Fld.sub_trans (by decide) hs
    | intro _
    | dsimp only

theorem State.fdCtrl_only {w : List Fld} {s u : State} (h : Only w s u) (x1 : Nat) (x2 : Word)
    (hs : Fld.sub [.gst, .adm, .pwr, .chans, .fdw, .hoops, .hoopNet, .ports, .colls, .col, .stakes, .exc, .upd, .vc0, .free] w = true := by decide) : Only w s (State.fdCtrl u x1 x2) := by
  unfold State.fdCtrl
  repeat' first
    | with_reducible assumption
    | with_reducible apply Only.foldl
    | with_reducible apply State.enableChan_only
    | with_reducible apply State.disableChan_only
    | with_reducible apply State.settle_only
    | with_reducible apply State.onChan_only
    | (with_reducible refine Only.ite (fun _ => ?_) (fun _ => ?_))
    | split
    | exact Fld.sub_trans (by decide) hs
    | intro _
    | dsimp only

theorem execFdEn_only (s : State) (x0 : Fin 64) (x1 : Word) :
    NextOnly [.gst, .adm, .pwr, .chans, .fdw, .hoops, .hoopNet, .ports, .colls, .col, .stakes, .exc, .upd, .vc0, .free] s (execFdEn x0 x1 s) := by
  unfold execFdEn
  refine live_only ?_
  repeat' first
    | with_reducible assumption
    | with_reducible exact Only.refl
    | with_reducible apply Only.foldl
    | with_reducible apply State.fdCtrl_only
    | (with_reducible refine Only.ite (fun _ => ?_) (fun _ => ?_))
    | split
    | decide
    | intro _
    | dsimp only

theorem execFdDisable_only (s : State) (x0 : Fin 64) (x1 : Word) :
    NextOnly [.gst, .adm, .pwr, .chans, .fdw, .hoops, .hoopNet, .ports, .colls, .col, .stakes, .exc, .upd, .vc0, .free] s (execFdDisable x0 x1 s) := by
  unfold execFdDisable
  refine live_only ?_
  repeat' first
    | with_reducible assumption
    | with_reducible exact Only.refl
    | with_reducible apply Only.foldl
    | with_reducible apply State.fdCtrl_only
    | (with_reducible refine Only.ite (fun _ => ?_) (fun _ => ?_))
    | split
    | decide
    | intro _
    | dsimp only

theorem execFdPriWrite_only (s : State) (x0 : Fin 64) (x1 : Word) :
    NextOnly [.gst, .adm, .pwr, .chans, .fdw, .hoops, .hoopNet, .ports, .colls, .col, .stakes, .exc, .upd, .vc0, .free] s (execFdPriWrite x0 x1 s) := by
  unfold execFdPriWrite
  refine live_only ?_
  repeat' first
    | with_reducible assumption
    | with_reducible exact Only.refl
    | with_reducible apply Only.foldl
    | with_reducible apply State.fdCtrl_only
    | (with_reducible refine Only.ite (fun _ => ?_) (fun _ => ?_))
    | split
    | decide
    | intro _
    | dsimp only

theorem State.request_only {w : List Fld} {s u : State} (h : Only w s u) (x1 : Nat) (x2 : Bool) (x3 : BitVec 44) (x4 : ReqKind) (x5 : List Byte) (x6 : BitVec 64)
    (hs : Fld.sub [.fdw] w = true := by decide) : Only w s (State.request u x1 x2 x3 x4 x5 x6) := by
  unfold State.request
  repeat' first
    | with_reducible assumption
    | with_reducible apply Only.foldl
    | (with_reducible refine Only.ite (fun _ => ?_) (fun _ => ?_))
    | split
    | ((with_reducible refine Only.put_fdw ?_ _ ?hm); case hm => exact Fld.sub_contains hs (by decide))
    | exact Fld.sub_trans (by decide) hs
    | intro _
    | dsimp only

theorem State.sinkWrite_only {w : List Fld} {s u : State} (h : Only w s u) (x1 : Nat) (x2 : Nat)
    (hs : Fld.sub [.gst, .chans, .fdw, .hoopNet, .colls, .stakes, .vc0] w = true := by decide) : Only w s (State.sinkWrite u x1 x2) := by
  unfold State.sinkWrite
  repeat' first
    | with_reducible assumption
    | with_reducible apply Only.foldl
    | with_reducible apply State.request_only
    | with_reducible apply State.sinkEnd_only
    | with_reducible apply State.fillChan_only
    | with_reducible apply State.setChan_only
    | (with_reducible refine Only.ite (fun _ => ?_) (fun _ => ?_))
    | split
    | exact Fld.sub_trans (by decide) hs
    | intro _
    | dsimp only

theorem State.chanSend_only {w : List Fld} {s u : State} (h : Only w s u) (x1 : Nat) (x2 : Nat) (x3 : ChanReq)
    (hs : Fld.sub [.gst, .chans, .fdw, .hoopNet, .colls, .stakes, .vc0] w = true := by decide) : Only w s (State.chanSend u x1 x2 x3) := by
  unfold State.chanSend
  repeat' first
    | with_reducible assumption
    | with_reducible apply Only.foldl
    | with_reducible apply State.sinkWrite_only
    | with_reducible apply State.request_only
    | with_reducible apply State.halt_only
    | with_reducible apply State.setChan_only
    | (with_reducible refine Only.ite (fun _ => ?_) (fun _ => ?_))
    | split
    | ((with_reducible refine Only.put_fdw ?_ _ ?hm); case hm => exact Fld.sub_contains hs (by decide))
    | exact Fld.sub_trans (by decide) hs
    | intro _
    | dsimp only

theorem State.beatRequest_only {w : List Fld} {s u : State} (h : Only w s u) (x1 : BitVec 4)
    (hs : Fld.sub [.gst, .img, .chans, .fdw, .hoopNet, .colls, .col, .stakes, .vc0] w = true := by decide) : Only w s (State.beatRequest u x1) := by
  unfold State.beatRequest
  repeat' first
    | with_reducible assumption
    | with_reducible apply Only.foldl
    | with_reducible apply State.chanSend_only
    | with_reducible apply State.request_only
    | with_reducible apply State.setSusp_only
    | with_reducible apply State.onChan_only
    | (with_reducible refine Only.ite (fun _ => ?_) (fun _ => ?_))
    | split
    | ((with_reducible refine Only.put_img ?_ _ ?hm); case hm => exact Fld.sub_contains hs (by decide))
    | exact Fld.sub_trans (by decide) hs
    | intro _
    | dsimp only

theorem execFeederBeatRequest_only (s : State) (x0 : BitVec 4) :
    NextOnly [.gst, .img, .adm, .pwr, .chans, .fdw, .hoops, .hoopNet, .ports, .colls, .col, .stakes, .exc, .upd, .vc0] s (execFeederBeatRequest x0 s) := by
  unfold execFeederBeatRequest
  refine live_only ?_
  repeat' first
    | with_reducible assumption
    | with_reducible exact Only.refl
    | with_reducible apply Only.foldl
    | with_reducible apply State.beatRequest_only
    | with_reducible apply State.settle_only
    | (with_reducible refine Only.ite (fun _ => ?_) (fun _ => ?_))
    | split
    | decide
    | intro _
    | dsimp only

theorem State.badResponse_only {w : List Fld} {s u : State} (h : Only w s u) (x1 : Nat) (x2 : Nat) (x3 : Nat)
    (hs : Fld.sub [.gst, .chans, .fdw, .colls, .stakes, .vc0] w = true := by decide) : Only w s (State.badResponse u x1 x2 x3) := by
  unfold State.badResponse
  repeat' first
    | with_reducible assumption
    | with_reducible apply Only.foldl
    | with_reducible apply State.halt_only
    | with_reducible apply State.logEv_only
    | with_reducible apply State.attn_only
    | (with_reducible refine Only.ite (fun _ => ?_) (fun _ => ?_))
    | split
    | exact Fld.sub_trans (by decide) hs
    | intro _
    | dsimp only

theorem State.orphanLoader_only {w : List Fld} {s u : State} (h : Only w s u) 
    (hs : Fld.sub [.fdw] w = true := by decide) : Only w s (State.orphanLoader u) := by
  unfold State.orphanLoader
  repeat' first
    | with_reducible assumption
    | with_reducible apply Only.foldl
    | (with_reducible refine Only.ite (fun _ => ?_) (fun _ => ?_))
    | split
    | ((with_reducible refine Only.put_fdw ?_ _ ?hm); case hm => exact Fld.sub_contains hs (by decide))
    | exact Fld.sub_trans (by decide) hs
    | intro _
    | dsimp only

theorem State.refuseImage_only {w : List Fld} {s u : State} (h : Only w s u) (x1 : Nat) (x2 : Nat × Nat)
    (hs : Fld.sub [.gst, .img, .pwr, .fdw, .hoops, .ports] w = true := by decide) : Only w s (State.refuseImage u x1 x2) := by
  unfold State.refuseImage
  repeat' first
    | with_reducible assumption
    | with_reducible apply Only.foldl
    | with_reducible apply State.orphanLoader_only
    | with_reducible apply State.floorCheck_only
    | with_reducible apply State.clearAllHoops_only
    | with_reducible apply State.logEv_only
    | with_reducible apply State.attn_only
    | (with_reducible refine Only.ite (fun _ => ?_) (fun _ => ?_))
    | split
    | ((with_reducible refine Only.put_img_pwr ?_ _ _ ?h0 ?h1); (case h0 => exact Fld.sub_contains hs (by decide)); (case h1 => exact Fld.sub_contains hs (by decide)))
    | ((with_reducible refine Only.put_img ?_ _ ?hm); case hm => exact Fld.sub_contains hs (by decide))
    | ((with_reducible refine Only.put_pwr ?_ _ ?hm); case hm => exact Fld.sub_contains hs (by decide))
    | exact Fld.sub_trans (by decide) hs
    | intro _
    | dsimp only

theorem State.loaderError_only {w : List Fld} {s u : State} (h : Only w s u) (x1 : Nat)
    (hs : Fld.sub [.gst, .img, .pwr, .fdw, .hoops, .ports] w = true := by decide) : Only w s (State.loaderError u x1) := by
  unfold State.loaderError
  repeat' first
    | with_reducible assumption
    | with_reducible apply Only.foldl
    | with_reducible apply State.refuseImage_only
    | (with_reducible refine Only.ite (fun _ => ?_) (fun _ => ?_))
    | split
    | exact Fld.sub_trans (by decide) hs
    | intro _
    | dsimp only

theorem State.sunk_only {w : List Fld} {s u : State} (h : Only w s u) (x1 : Bind)
    (hs : Fld.sub [.colls] w = true := by decide) : Only w s (State.sunk u x1) := by
  unfold State.sunk
  repeat' first
    | with_reducible assumption
    | with_reducible apply Only.foldl
    | with_reducible apply State.onColl_only
    | (with_reducible refine Only.ite (fun _ => ?_) (fun _ => ?_))
    | split
    | exact Fld.sub_trans (by decide) hs
    | intro _
    | dsimp only

theorem State.readBackOk_only {w : List Fld} {s u : State} (h : Only w s u) (x1 : Nat)
    (hs : Fld.sub [.gst, .chans, .fdw, .hoopNet, .colls, .stakes, .vc0] w = true := by decide) : Only w s (State.readBackOk u x1) := by
  unfold State.readBackOk
  repeat' first
    | with_reducible assumption
    | with_reducible apply Only.foldl
    | with_reducible apply State.sunk_only
    | with_reducible apply State.sinkEnd_only
    | with_reducible apply State.popBind_only
    | with_reducible apply State.finishDesc_only
    | with_reducible apply State.dropBind_only
    | with_reducible apply State.setChan_only
    | (with_reducible refine Only.ite (fun _ => ?_) (fun _ => ?_))
    | split
    | exact Fld.sub_trans (by decide) hs
    | intro _
    | dsimp only

theorem State.respond_only {w : List Fld} {s u : State} (h : Only w s u) (x1 : Req) (x2 : Bool) (x3 : List Byte)
    (hs : Fld.sub [.gst, .img, .pwr, .chans, .fdw, .hoops, .hoopNet, .ports, .colls, .col, .stakes, .vc0] w = true := by decide) : Only w s (State.respond u x1 x2 x3) := by
  unfold State.respond
  repeat' first
    | with_reducible assumption
    | with_reducible apply Only.foldl
    | with_reducible apply State.readBackOk_only
    | with_reducible apply State.loaderError_only
    | with_reducible apply State.setSusp_only
    | with_reducible apply State.sinkEnd_only
    | with_reducible apply State.complete_only
    | with_reducible apply State.makeCurrent_only
    | with_reducible apply State.onChan_only
    | with_reducible apply State.halt_only
    | (with_reducible refine Only.ite (fun _ => ?_) (fun _ => ?_))
    | split
    | ((with_reducible refine Only.put_img ?_ _ ?hm); case hm => exact Fld.sub_contains hs (by decide))
    | exact Fld.sub_trans (by decide) hs
    | intro _
    | dsimp only

theorem State.memResponse_only {w : List Fld} {s u : State} (h : Only w s u) (x1 : Nat) (x2 : Nat) (x3 : Bool) (x4 : Bool) (x5 : List Byte)
    (hs : Fld.sub [.gst, .img, .pwr, .chans, .fdw, .hoops, .hoopNet, .ports, .colls, .col, .stakes, .vc0] w = true := by decide) : Only w s (State.memResponse u x1 x2 x3 x4 x5) := by
  unfold State.memResponse
  repeat' first
    | with_reducible assumption
    | with_reducible apply Only.foldl
    | with_reducible apply State.respond_only
    | with_reducible apply State.badResponse_only
    | (with_reducible refine Only.ite (fun _ => ?_) (fun _ => ?_))
    | split
    | ((with_reducible refine Only.put_fdw ?_ _ ?hm); case hm => exact Fld.sub_contains hs (by decide))
    | exact Fld.sub_trans (by decide) hs
    | intro _
    | dsimp only

theorem execMemoryResponse_only (s : State) (x0 : Fin 4) (x1 : BitVec 8) (x2 : Bool) (x3 : Bool) (x4 : List Byte) :
    NextOnly [.gst, .img, .adm, .pwr, .chans, .fdw, .hoops, .hoopNet, .ports, .colls, .col, .stakes, .exc, .upd, .vc0] s (execMemoryResponse x0 x1 x2 x3 x4 s) := by
  unfold execMemoryResponse
  refine live_only ?_
  repeat' first
    | with_reducible assumption
    | with_reducible exact Only.refl
    | with_reducible apply Only.foldl
    | with_reducible apply State.memResponse_only
    | with_reducible apply State.settle_only
    | (with_reducible refine Only.ite (fun _ => ?_) (fun _ => ?_))
    | split
    | decide
    | intro _
    | dsimp only

theorem execCounterTrigger_only (s : State) (x0 : Fin 64) :
    NextOnly [.gst, .adm, .pwr, .chans, .fdw, .hoops, .hoopNet, .ports, .colls, .col, .stakes, .exc, .upd, .vc0] s (execCounterTrigger x0 s) := by
  unfold execCounterTrigger
  refine live_only ?_
  repeat' first
    | with_reducible assumption
    | with_reducible exact Only.refl
    | with_reducible apply Only.foldl
    | with_reducible apply State.settle_only
    | with_reducible apply State.tryTrigger_only
    | (with_reducible refine Only.ite (fun _ => ?_) (fun _ => ?_))
    | split
    | decide
    | intro _
    | dsimp only

theorem State.onEvt_only {w : List Fld} {s u : State} (h : Only w s u) (x1 : Nat) (x2 : Bool)
    (hs : Fld.sub [.gst, .adm, .pwr, .chans, .fdw, .hoops, .hoopNet, .ports, .colls, .col, .stakes, .exc, .upd, .vc0] w = true := by decide) : Only w s (State.onEvt u x1 x2) := by
  unfold State.onEvt
  repeat' first
    | with_reducible assumption
    | with_reducible apply Only.foldl
    | with_reducible apply State.settle_only
    | with_reducible apply State.evtServe_only
    | with_reducible apply State.setEvtIn_only
    | (with_reducible refine Only.ite (fun _ => ?_) (fun _ => ?_))
    | split
    | exact Fld.sub_trans (by decide) hs
    | intro _
    | dsimp only

theorem execEvtIn_only (s : State) (x0 : Fin 16) (x1 : Bool) :
    NextOnly [.gst, .adm, .pwr, .chans, .fdw, .hoops, .hoopNet, .ports, .colls, .col, .stakes, .exc, .upd, .vc0] s (execEvtIn x0 x1 s) := by
  unfold execEvtIn
  refine live_only ?_
  repeat' first
    | with_reducible assumption
    | with_reducible exact Only.refl
    | with_reducible apply Only.foldl
    | with_reducible apply State.onEvt_only
    | (with_reducible refine Only.ite (fun _ => ?_) (fun _ => ?_))
    | split
    | decide
    | intro _
    | dsimp only

theorem State.pulseEnd_only {w : List Fld} {s u : State} (h : Only w s u) (x1 : Nat)
    (hs : Fld.sub [.fdw] w = true := by decide) : Only w s (State.pulseEnd u x1) := by
  unfold State.pulseEnd
  repeat' first
    | with_reducible assumption
    | with_reducible apply Only.foldl
    | with_reducible apply State.setEvtOut_only
    | (with_reducible refine Only.ite (fun _ => ?_) (fun _ => ?_))
    | split
    | exact Fld.sub_trans (by decide) hs
    | intro _
    | dsimp only

theorem execEvtOutPulseEnd_only (s : State) (x0 : Fin 17) :
    NextOnly [.fdw] s (execEvtOutPulseEnd x0 s) := by
  unfold execEvtOutPulseEnd
  refine live_only ?_
  repeat' first
    | with_reducible assumption
    | with_reducible exact Only.refl
    | with_reducible apply Only.foldl
    | with_reducible apply State.pulseEnd_only
    | (with_reducible refine Only.ite (fun _ => ?_) (fun _ => ?_))
    | split
    | decide
    | intro _
    | dsimp only

theorem State.evtClr_only {w : List Fld} {s u : State} (h : Only w s u) (x1 : Nat) (x2 : Word)
    (hs : Fld.sub [.fdw] w = true := by decide) : Only w s (State.evtClr u x1 x2) := by
  unfold State.evtClr
  repeat' first
    | with_reducible assumption
    | with_reducible apply Only.foldl
    | with_reducible apply State.setEvtIn_only
    | (with_reducible refine Only.ite (fun _ => ?_) (fun _ => ?_))
    | split
    | exact Fld.sub_trans (by decide) hs
    | intro _
    | dsimp only

theorem execFdEvtClr_only (s : State) (x0 : Fin 16) (x1 : Word) :
    NextOnly [.fdw] s (execFdEvtClr x0 x1 s) := by
  unfold execFdEvtClr
  refine live_only ?_
  repeat' first
    | with_reducible assumption
    | with_reducible exact Only.refl
    | with_reducible apply Only.foldl
    | with_reducible apply State.evtClr_only
    | (with_reducible refine Only.ite (fun _ => ?_) (fun _ => ?_))
    | split
    | decide
    | intro _
    | dsimp only

theorem State.updDelivered_only {w : List Fld} {s u : State} (h : Only w s u) (x1 : UBeat)
    (hs : Fld.sub [.colls, .upd] w = true := by decide) : Only w s (State.updDelivered u x1) := by
  unfold State.updDelivered
  repeat' first
    | with_reducible assumption
    | with_reducible apply Only.foldl
    | with_reducible apply State.onColl_only
    | (with_reducible refine Only.ite (fun _ => ?_) (fun _ => ?_))
    | split
    | ((with_reducible refine Only.put_upd ?_ _ ?hm); case hm => exact Fld.sub_contains hs (by decide))
    | exact Fld.sub_trans (by decide) hs
    | intro _
    | dsimp only

theorem State.updTake_only {w : List Fld} {s u : State} (h : Only w s u) 
    (hs : Fld.sub [.colls, .upd] w = true := by decide) : Only w s (State.updTake u) := by
  unfold State.updTake
  repeat' first
    | with_reducible assumption
    | with_reducible apply Only.foldl
    | with_reducible apply State.updDelivered_only
    | with_reducible apply State.updPump_only
    | (with_reducible refine Only.ite (fun _ => ?_) (fun _ => ?_))
    | split
    | ((with_reducible refine Only.put_upd ?_ _ ?hm); case hm => exact Fld.sub_contains hs (by decide))
    | exact Fld.sub_trans (by decide) hs
    | intro _
    | dsimp only

theorem execUpdateBeatTaken_only (s : State)  :
    NextOnly [.gst, .adm, .pwr, .chans, .fdw, .hoops, .hoopNet, .ports, .colls, .col, .stakes, .exc, .upd, .vc0] s (execUpdateBeatTaken s) := by
  unfold execUpdateBeatTaken
  refine live_only ?_
  repeat' first
    | with_reducible assumption
    | with_reducible exact Only.refl
    | with_reducible apply Only.foldl
    | with_reducible apply State.updTake_only
    | with_reducible apply State.settle_only
    | (with_reducible refine Only.ite (fun _ => ?_) (fun _ => ?_))
    | split
    | decide
    | intro _
    | dsimp only

theorem execResetAssert_only (s : State) :
    NextOnly [.powered, .inReset, .gst, .ct, .accept, .img, .wl, .time, .adm, .tilth, .pwr, .chans, .fdw, .hoops, .hoopNet, .ports, .colls, .col, .stakes, .exc, .upd, .dbg, .wrap, .vc0] s (execResetAssert s) := by
  refine ⟨_, rfl, ?_⟩
  exact ⟨fun _ => rfl, fun n => absurd (by decide) n, fun n => absurd (by decide) n, fun n => absurd (by decide) n, fun n => absurd (by decide) n, fun n => absurd (by decide) n, fun n => absurd (by decide) n, fun n => absurd (by decide) n, fun n => absurd (by decide) n, fun n => absurd (by decide) n, fun n => absurd (by decide) n, fun n => absurd (by decide) n, fun n => absurd (by decide) n, fun n => absurd (by decide) n, fun n => absurd (by decide) n, fun n => absurd (by decide) n, fun n => absurd (by decide) n, fun n => absurd (by decide) n, fun n => absurd (by decide) n, fun n => absurd (by decide) n, fun n => absurd (by decide) n, fun n => absurd (by decide) n, fun n => absurd (by decide) n, fun n => absurd (by decide) n, fun n => absurd (by decide) n, fun _ => rfl⟩

theorem execResetRelease_only (s : State) :
    NextOnly [.inReset, .wl] s (execResetRelease s) := by
  refine ⟨_, rfl, Only.ite (fun _ => ?_) (fun _ => .refl)⟩
  exact Only.put_inReset_wl .refl _ _ rfl rfl

theorem State.progFail_only {w : List Fld} {s u : State} (h : Only w s u) (x1 : FuseAcc) (x2 : Nat)
    (hs : Fld.sub [.gst, .wl] w = true := by decide) : Only w s (State.progFail u x1 x2) := by
  unfold State.progFail
  repeat' first
    | with_reducible assumption
    | with_reducible apply Only.foldl
    | with_reducible apply State.logEv_only
    | with_reducible apply State.attn_only
    | (with_reducible refine Only.ite (fun _ => ?_) (fun _ => ?_))
    | split
    | ((with_reducible refine Only.put_wl ?_ _ ?hm); case hm => exact Fld.sub_contains hs (by decide))
    | exact Fld.sub_trans (by decide) hs
    | intro _
    | dsimp only

theorem State.progEnd_only {w : List Fld} {s u : State} (h : Only w s u) (x1 : FuseAcc) (x2 : BitVec 16) (x3 : Bool) (x4 : Bool)
    (hs : Fld.sub [.gst, .wl] w = true := by decide) : Only w s (State.progEnd u x1 x2 x3 x4) := by
  unfold State.progEnd
  repeat' first
    | with_reducible assumption
    | with_reducible apply Only.foldl
    | with_reducible apply State.progFail_only
    | (with_reducible refine Only.ite (fun _ => ?_) (fun _ => ?_))
    | split
    | ((with_reducible refine Only.put_wl ?_ _ ?hm); case hm => exact Fld.sub_contains hs (by decide))
    | exact Fld.sub_trans (by decide) hs
    | intro _
    | dsimp only

theorem State.fuseAck_only {w : List Fld} {s u : State} (h : Only w s u) (x1 : BitVec 16) (x2 : Bool) (x3 : Bool)
    (hs : Fld.sub [.gst, .wl] w = true := by decide) : Only w s (State.fuseAck u x1 x2 x3) := by
  unfold State.fuseAck
  repeat' first
    | with_reducible assumption
    | with_reducible apply Only.foldl
    | with_reducible apply State.progEnd_only
    | (with_reducible refine Only.ite (fun _ => ?_) (fun _ => ?_))
    | split
    | ((with_reducible refine Only.put_wl ?_ _ ?hm); case hm => exact Fld.sub_contains hs (by decide))
    | exact Fld.sub_trans (by decide) hs
    | intro _
    | dsimp only

theorem execFuseAck_only (s : State) (x0 : BitVec 16) (x1 : Bool) (x2 : Bool) :
    NextOnly [.gst, .wl] s (execFuseAck x0 x1 x2 s) := by
  unfold execFuseAck
  refine live_only ?_
  repeat' first
    | with_reducible assumption
    | with_reducible exact Only.refl
    | with_reducible apply Only.foldl
    | with_reducible apply State.fuseAck_only
    | (with_reducible refine Only.ite (fun _ => ?_) (fun _ => ?_))
    | split
    | decide
    | intro _
    | dsimp only

theorem State.fuseTimeout_only {w : List Fld} {s u : State} (h : Only w s u) 
    (hs : Fld.sub [.gst, .wl] w = true := by decide) : Only w s (State.fuseTimeout u) := by
  unfold State.fuseTimeout
  repeat' first
    | with_reducible assumption
    | with_reducible apply Only.foldl
    | with_reducible apply State.progFail_only
    | with_reducible apply State.logEv_only
    | (with_reducible refine Only.ite (fun _ => ?_) (fun _ => ?_))
    | split
    | ((with_reducible refine Only.put_wl ?_ _ ?hm); case hm => exact Fld.sub_contains hs (by decide))
    | exact Fld.sub_trans (by decide) hs
    | intro _
    | dsimp only

theorem execFuseTimeout_only (s : State)  :
    NextOnly [.gst, .wl] s (execFuseTimeout s) := by
  unfold execFuseTimeout
  refine live_only ?_
  repeat' first
    | with_reducible assumption
    | with_reducible exact Only.refl
    | with_reducible apply Only.foldl
    | with_reducible apply State.fuseTimeout_only
    | (with_reducible refine Only.ite (fun _ => ?_) (fun _ => ?_))
    | split
    | decide
    | intro _
    | dsimp only

theorem State.wlProg_only {w : List Fld} {s u : State} (h : Only w s u) (x1 : Word)
    (hs : Fld.sub [.wl] w = true := by decide) : Only w s (State.wlProg u x1) := by
  unfold State.wlProg
  repeat' first
    | with_reducible assumption
    | with_reducible apply Only.foldl
    | (with_reducible refine Only.ite (fun _ => ?_) (fun _ => ?_))
    | split
    | ((with_reducible refine Only.put_wl ?_ _ ?hm); case hm => exact Fld.sub_contains hs (by decide))
    | exact Fld.sub_trans (by decide) hs
    | intro _
    | dsimp only

theorem execWlProg_only (s : State) (x0 : Word) :
    NextOnly [.wl] s (execWlProg x0 s) := by
  unfold execWlProg
  refine live_only ?_
  repeat' first
    | with_reducible assumption
    | with_reducible exact Only.refl
    | with_reducible apply Only.foldl
    | with_reducible apply State.wlProg_only
    | (with_reducible refine Only.ite (fun _ => ?_) (fun _ => ?_))
    | split
    | decide
    | intro _
    | dsimp only

theorem State.gcPeriod_only {w : List Fld} {s u : State} (h : Only w s u) (x1 : Word)
    (hs : Fld.sub [.time] w = true := by decide) : Only w s (State.gcPeriod u x1) := by
  unfold State.gcPeriod
  repeat' first
    | with_reducible assumption
    | with_reducible apply Only.foldl
    | (with_reducible refine Only.ite (fun _ => ?_) (fun _ => ?_))
    | split
    | ((with_reducible refine Only.put_time ?_ _ ?hm); case hm => exact Fld.sub_contains hs (by decide))
    | exact Fld.sub_trans (by decide) hs
    | intro _
    | dsimp only

theorem execGcPeriodWrite_only (s : State) (x0 : Word) :
    NextOnly [.time] s (execGcPeriodWrite x0 s) := by
  unfold execGcPeriodWrite
  refine live_only ?_
  repeat' first
    | with_reducible assumption
    | with_reducible exact Only.refl
    | with_reducible apply Only.foldl
    | with_reducible apply State.gcPeriod_only
    | (with_reducible refine Only.ite (fun _ => ?_) (fun _ => ?_))
    | split
    | decide
    | intro _
    | dsimp only

theorem State.acceptWrite_only {w : List Fld} {s u : State} (h : Only w s u) (x1 : Bool) (x2 : Word)
    (hs : Fld.sub [.accept] w = true := by decide) : Only w s (State.acceptWrite u x1 x2) := by
  unfold State.acceptWrite
  repeat' first
    | with_reducible assumption
    | with_reducible apply Only.foldl
    | (with_reducible refine Only.ite (fun _ => ?_) (fun _ => ?_))
    | split
    | ((with_reducible refine Only.put_accept ?_ _ ?hm); case hm => exact Fld.sub_contains hs (by decide))
    | exact Fld.sub_trans (by decide) hs
    | intro _
    | dsimp only

theorem execFeatAcceptWrite_only (s : State) (x0 : Bool) (x1 : Word) :
    NextOnly [.accept] s (execFeatAcceptWrite x0 x1 s) := by
  unfold execFeatAcceptWrite
  refine live_only ?_
  repeat' first
    | with_reducible assumption
    | with_reducible exact Only.refl
    | with_reducible apply Only.foldl
    | with_reducible apply State.acceptWrite_only
    | (with_reducible refine Only.ite (fun _ => ?_) (fun _ => ?_))
    | split
    | decide
    | intro _
    | dsimp only

theorem State.load_only {w : List Fld} {s u : State} (h : Only w s u) (x1 : Word)
    (hs : Fld.sub [.gst, .img, .adm, .pwr, .chans, .fdw, .hoops, .hoopNet, .ports, .colls, .col, .stakes, .upd, .dbg, .vc0, .free] w = true := by decide) : Only w s (State.load u x1) := by
  unfold State.load
  repeat' first
    | with_reducible assumption
    | with_reducible apply Only.foldl
    | with_reducible apply State.floorCheck_only
    | with_reducible apply State.invalidate_only
    | (with_reducible refine Only.ite (fun _ => ?_) (fun _ => ?_))
    | split
    | ((with_reducible refine Only.put_img_fdw_dbg ?_ _ _ _ ?h0 ?h1 ?h2); (case h0 => exact Fld.sub_contains hs (by decide)); (case h1 => exact Fld.sub_contains hs (by decide)); (case h2 => exact Fld.sub_contains hs (by decide)))
    | ((with_reducible refine Only.put_img ?_ _ ?hm); case hm => exact Fld.sub_contains hs (by decide))
    | ((with_reducible refine Only.put_fdw ?_ _ ?hm); case hm => exact Fld.sub_contains hs (by decide))
    | ((with_reducible refine Only.put_dbg ?_ _ ?hm); case hm => exact Fld.sub_contains hs (by decide))
    | exact Fld.sub_trans (by decide) hs
    | intro _
    | dsimp only

theorem execLoad_only (s : State) (x0 : Word) :
    NextOnly [.gst, .img, .adm, .pwr, .chans, .fdw, .hoops, .hoopNet, .ports, .colls, .col, .stakes, .upd, .dbg, .vc0, .free] s (execLoad x0 s) := by
  unfold execLoad
  refine live_only ?_
  repeat' first
    | with_reducible assumption
    | with_reducible exact Only.refl
    | with_reducible apply Only.foldl
    | with_reducible apply State.load_only
    | (with_reducible refine Only.ite (fun _ => ?_) (fun _ => ?_))
    | split
    | decide
    | intro _
    | dsimp only

theorem State.checkDone_only {w : List Fld} {s u : State} (h : Only w s u) 
    (hs : Fld.sub [.gst, .img, .pwr, .fdw, .hoops, .ports] w = true := by decide) : Only w s (State.checkDone u) := by
  unfold State.checkDone
  repeat' first
    | with_reducible assumption
    | with_reducible apply Only.foldl
    | with_reducible apply State.refuseImage_only
    | (with_reducible refine Only.ite (fun _ => ?_) (fun _ => ?_))
    | split
    | ((with_reducible refine Only.put_img ?_ _ ?hm); case hm => exact Fld.sub_contains hs (by decide))
    | exact Fld.sub_trans (by decide) hs
    | intro _
    | dsimp only

theorem execImageCheckDone_only (s : State)  :
    NextOnly [.gst, .img, .pwr, .fdw, .hoops, .ports] s (execImageCheckDone s) := by
  unfold execImageCheckDone
  refine live_only ?_
  repeat' first
    | with_reducible assumption
    | with_reducible exact Only.refl
    | with_reducible apply Only.foldl
    | with_reducible apply State.checkDone_only
    | (with_reducible refine Only.ite (fun _ => ?_) (fun _ => ?_))
    | split
    | decide
    | intro _
    | dsimp only

theorem State.takePolicy_only {w : List Fld} {s u : State} (h : Only w s u) 
    (hs : Fld.sub [.hoops, .ports] w = true := by decide) : Only w s (State.takePolicy u) := by
  unfold State.takePolicy
  repeat' first
    | with_reducible assumption
    | with_reducible apply Only.foldl
    | with_reducible apply State.clearAllHoops_only
    | with_reducible apply State.setHoop_only
    | (with_reducible refine Only.ite (fun _ => ?_) (fun _ => ?_))
    | split
    | exact Fld.sub_trans (by decide) hs
    | intro _
    | dsimp only

theorem State.applied_only {w : List Fld} {s u : State} (h : Only w s u) (x1 : List Byte)
    (hs : Fld.sub [.gst, .img, .time, .pwr, .hoops, .ports] w = true := by decide) : Only w s (State.applied u x1) := by
  unfold State.applied
  repeat' first
    | with_reducible assumption
    | with_reducible apply Only.foldl
    | with_reducible apply State.takePolicy_only
    | with_reducible apply State.floorCheck_only
    | (with_reducible refine Only.ite (fun _ => ?_) (fun _ => ?_))
    | split
    | ((with_reducible refine Only.put_img_pwr ?_ _ _ ?h0 ?h1); (case h0 => exact Fld.sub_contains hs (by decide)); (case h1 => exact Fld.sub_contains hs (by decide)))
    | ((with_reducible refine Only.put_img ?_ _ ?hm); case hm => exact Fld.sub_contains hs (by decide))
    | ((with_reducible refine Only.put_pwr ?_ _ ?hm); case hm => exact Fld.sub_contains hs (by decide))
    | ((with_reducible refine Only.put_time ?_ _ ?hm); case hm => exact Fld.sub_contains hs (by decide))
    | exact Fld.sub_trans (by decide) hs
    | intro _
    | dsimp only

theorem State.applyDone_only {w : List Fld} {s u : State} (h : Only w s u) 
    (hs : Fld.sub [.gst, .img, .time, .pwr, .fdw, .hoops, .ports] w = true := by decide) : Only w s (State.applyDone u) := by
  unfold State.applyDone
  repeat' first
    | with_reducible assumption
    | with_reducible apply Only.foldl
    | with_reducible apply State.applied_only
    | with_reducible apply State.refuseImage_only
    | (with_reducible refine Only.ite (fun _ => ?_) (fun _ => ?_))
    | split
    | exact Fld.sub_trans (by decide) hs
    | intro _
    | dsimp only

theorem execImageApplyDone_only (s : State)  :
    NextOnly [.gst, .img, .time, .pwr, .fdw, .hoops, .ports] s (execImageApplyDone s) := by
  unfold execImageApplyDone
  refine live_only ?_
  repeat' first
    | with_reducible assumption
    | with_reducible exact Only.refl
    | with_reducible apply Only.foldl
    | with_reducible apply State.applyDone_only
    | (with_reducible refine Only.ite (fun _ => ?_) (fun _ => ?_))
    | split
    | decide
    | intro _
    | dsimp only

theorem State.updRenew_only {w : List Fld} {s u : State} (h : Only w s u) 
    (hs : Fld.sub [.upd] w = true := by decide) : Only w s (State.updRenew u) := by
  unfold State.updRenew
  repeat' first
    | with_reducible assumption
    | with_reducible apply Only.foldl
    | (with_reducible refine Only.ite (fun _ => ?_) (fun _ => ?_))
    | split
    | ((with_reducible refine Only.put_upd ?_ _ ?hm); case hm => exact Fld.sub_contains hs (by decide))
    | exact Fld.sub_trans (by decide) hs
    | intro _
    | dsimp only

theorem State.enterService_only {w : List Fld} {s u : State} (h : Only w s u) 
    (hs : Fld.sub [.img, .hoops, .ports, .colls, .col, .stakes, .upd] w = true := by decide) : Only w s (State.enterService u) := by
  unfold State.enterService
  repeat' first
    | with_reducible assumption
    | with_reducible apply Only.foldl
    | with_reducible apply State.updRenew_only
    | with_reducible apply State.takePolicy_only
    | with_reducible apply State.dropColls_only
    | with_reducible apply State.setStake_only
    | (with_reducible refine Only.ite (fun _ => ?_) (fun _ => ?_))
    | split
    | ((with_reducible refine Only.put_img_ports_col ?_ _ _ _ ?h0 ?h1 ?h2); (case h0 => exact Fld.sub_contains hs (by decide)); (case h1 => exact Fld.sub_contains hs (by decide)); (case h2 => exact Fld.sub_contains hs (by decide)))
    | ((with_reducible refine Only.put_img ?_ _ ?hm); case hm => exact Fld.sub_contains hs (by decide))
    | ((with_reducible refine Only.put_ports ?_ _ ?hm); case hm => exact Fld.sub_contains hs (by decide))
    | ((with_reducible refine Only.put_col ?_ _ ?hm); case hm => exact Fld.sub_contains hs (by decide))
    | exact Fld.sub_trans (by decide) hs
    | intro _
    | dsimp only

theorem State.signoff_only {w : List Fld} {s u : State} (h : Only w s u) (x1 : Word)
    (hs : Fld.sub [.gst, .img, .time, .pwr, .fdw, .hoops, .ports, .colls, .col, .stakes, .upd] w = true := by decide) : Only w s (State.signoff u x1) := by
  unfold State.signoff
  repeat' first
    | with_reducible assumption
    | with_reducible apply Only.foldl
    | with_reducible apply State.enterService_only
    | with_reducible apply State.refuseImage_only
    | (with_reducible refine Only.ite (fun _ => ?_) (fun _ => ?_))
    | split
    | ((with_reducible refine Only.put_time ?_ _ ?hm); case hm => exact Fld.sub_contains hs (by decide))
    | exact Fld.sub_trans (by decide) hs
    | intro _
    | dsimp only

theorem execSignoff_only (s : State) (x0 : Word) :
    NextOnly [.gst, .img, .time, .pwr, .fdw, .hoops, .ports, .colls, .col, .stakes, .upd] s (execSignoff x0 s) := by
  unfold execSignoff
  refine live_only ?_
  repeat' first
    | with_reducible assumption
    | with_reducible exact Only.refl
    | with_reducible apply Only.foldl
    | with_reducible apply State.signoff_only
    | (with_reducible refine Only.ite (fun _ => ?_) (fun _ => ?_))
    | split
    | decide
    | intro _
    | dsimp only

theorem execGstLogRdWrite_only (s : State) (x0 : Word) :
    NextOnly [.gst] s (execGstLogRdWrite x0 s) := by
  unfold execGstLogRdWrite
  refine live_only ?_
  repeat' first
    | with_reducible assumption
    | with_reducible exact Only.refl
    | with_reducible apply Only.foldl
    | (with_reducible refine Only.ite (fun _ => ?_) (fun _ => ?_))
    | split
    | ((with_reducible refine Only.put_gst ?_ _ ?hm); case hm => decide)
    | decide
    | intro _
    | dsimp only

theorem State.forceCount_only {w : List Fld} {s u : State} (h : Only w s u) (x1 : Nat)
    (hs : Fld.sub [.gst, .hoops, .ports] w = true := by decide) : Only w s (State.forceCount u x1) := by
  unfold State.forceCount
  repeat' first
    | with_reducible assumption
    | with_reducible apply Only.foldl
    | with_reducible apply State.hoopRelease_only
    | with_reducible apply State.setHoop_only
    | with_reducible apply State.logEv_only
    | (with_reducible refine Only.ite (fun _ => ?_) (fun _ => ?_))
    | split
    | exact Fld.sub_trans (by decide) hs
    | intro _
    | dsimp only

theorem State.forceRelease_only {w : List Fld} {s u : State} (h : Only w s u) (x1 : Nat)
    (hs : Fld.sub [.gst, .hoops, .ports] w = true := by decide) : Only w s (State.forceRelease u x1) := by
  unfold State.forceRelease
  repeat' first
    | with_reducible assumption
    | with_reducible apply Only.foldl
    | with_reducible apply State.setHoop_only
    | with_reducible apply State.logEv_only
    | with_reducible apply State.endWait_only
    | (with_reducible refine Only.ite (fun _ => ?_) (fun _ => ?_))
    | split
    | exact Fld.sub_trans (by decide) hs
    | intro _
    | dsimp only

theorem State.forceTarget_only {w : List Fld} {s u : State} (h : Only w s u) (x1 : Nat)
    (hs : Fld.sub [.gst, .hoops, .ports] w = true := by decide) : Only w s (State.forceTarget u x1) := by
  unfold State.forceTarget
  repeat' first
    | with_reducible assumption
    | with_reducible apply Only.foldl
    | with_reducible apply State.hoopRelease_only
    | with_reducible apply State.setHoop_only
    | with_reducible apply State.logEv_only
    | (with_reducible refine Only.ite (fun _ => ?_) (fun _ => ?_))
    | split
    | exact Fld.sub_trans (by decide) hs
    | intro _
    | dsimp only

theorem State.hpForce_only {w : List Fld} {s u : State} (h : Only w s u) (x1 : Word)
    (hs : Fld.sub [.gst, .adm, .pwr, .chans, .fdw, .hoops, .hoopNet, .ports, .colls, .col, .stakes, .exc, .upd, .dbg, .vc0] w = true := by decide) : Only w s (State.hpForce u x1) := by
  unfold State.hpForce
  repeat' first
    | with_reducible assumption
    | with_reducible apply Only.foldl
    | with_reducible apply State.forceTarget_only
    | with_reducible apply State.forceRelease_only
    | with_reducible apply State.forceCount_only
    | with_reducible apply State.settle_only
    | (with_reducible refine Only.ite (fun _ => ?_) (fun _ => ?_))
    | split
    | ((with_reducible refine Only.put_dbg ?_ _ ?hm); case hm => exact Fld.sub_contains hs (by decide))
    | exact Fld.sub_trans (by decide) hs
    | intro _
    | dsimp only

theorem execSetCount_only (s : State) (x0 : Word) :
    NextOnly [.gst, .adm, .pwr, .chans, .fdw, .hoops, .hoopNet, .ports, .colls, .col, .stakes, .exc, .upd, .dbg, .vc0] s (execSetCount x0 s) := by
  unfold execSetCount
  refine live_only ?_
  repeat' first
    | with_reducible assumption
    | with_reducible exact Only.refl
    | with_reducible apply Only.foldl
    | with_reducible apply State.hpForce_only
    | (with_reducible refine Only.ite (fun _ => ?_) (fun _ => ?_))
    | split
    | decide
    | intro _
    | dsimp only

theorem execSetTarget_only (s : State) (x0 : Word) :
    NextOnly [.gst, .adm, .pwr, .chans, .fdw, .hoops, .hoopNet, .ports, .colls, .col, .stakes, .exc, .upd, .dbg, .vc0] s (execSetTarget x0 s) := by
  unfold execSetTarget
  refine live_only ?_
  repeat' first
    | with_reducible assumption
    | with_reducible exact Only.refl
    | with_reducible apply Only.foldl
    | with_reducible apply State.hpForce_only
    | (with_reducible refine Only.ite (fun _ => ?_) (fun _ => ?_))
    | split
    | decide
    | intro _
    | dsimp only

theorem execDebugRelease_only (s : State) (x0 : Word) :
    NextOnly [.gst, .adm, .pwr, .chans, .fdw, .hoops, .hoopNet, .ports, .colls, .col, .stakes, .exc, .upd, .dbg, .vc0] s (execDebugRelease x0 s) := by
  unfold execDebugRelease
  refine live_only ?_
  repeat' first
    | with_reducible assumption
    | with_reducible exact Only.refl
    | with_reducible apply Only.foldl
    | with_reducible apply State.hpForce_only
    | (with_reducible refine Only.ite (fun _ => ?_) (fun _ => ?_))
    | split
    | decide
    | intro _
    | dsimp only

theorem State.dbgInject_only {w : List Fld} {s u : State} (h : Only w s u) (x1 : Word)
    (hs : Fld.sub [.dbg] w = true := by decide) : Only w s (State.dbgInject u x1) := by
  unfold State.dbgInject
  repeat' first
    | with_reducible assumption
    | with_reducible apply Only.foldl
    | (with_reducible refine Only.ite (fun _ => ?_) (fun _ => ?_))
    | split
    | ((with_reducible refine Only.put_dbg ?_ _ ?hm); case hm => exact Fld.sub_contains hs (by decide))
    | exact Fld.sub_trans (by decide) hs
    | intro _
    | dsimp only

theorem execDbgInject_only (s : State) (x0 : Word) :
    NextOnly [.dbg] s (execDbgInject x0 s) := by
  unfold execDbgInject
  refine live_only ?_
  repeat' first
    | with_reducible assumption
    | with_reducible exact Only.refl
    | with_reducible apply Only.foldl
    | with_reducible apply State.dbgInject_only
    | (with_reducible refine Only.ite (fun _ => ?_) (fun _ => ?_))
    | split
    | decide
    | intro _
    | dsimp only

theorem execDbgEnChange_only (s : State) (x0 : Bool) :
    NextOnly [.dbg] s (execDbgEnChange x0 s) := by
  unfold execDbgEnChange
  refine live_only ?_
  repeat' first
    | with_reducible assumption
    | with_reducible exact Only.refl
    | with_reducible apply Only.foldl
    | (with_reducible refine Only.ite (fun _ => ?_) (fun _ => ?_))
    | split
    | ((with_reducible refine Only.put_dbg ?_ _ ?hm); case hm => decide)
    | decide
    | intro _
    | dsimp only

theorem State.ctDone_only {w : List Fld} {s u : State} (h : Only w s u) (x1 : Word) (x2 : Bool)
    (hs : Fld.sub [.ct] w = true := by decide) : Only w s (State.ctDone u x1 x2) := by
  unfold State.ctDone
  repeat' first
    | with_reducible assumption
    | with_reducible apply Only.foldl
    | (with_reducible refine Only.ite (fun _ => ?_) (fun _ => ?_))
    | split
    | ((with_reducible refine Only.put_ct ?_ _ ?hm); case hm => exact Fld.sub_contains hs (by decide))
    | exact Fld.sub_trans (by decide) hs
    | intro _
    | dsimp only

theorem State.hoopRead_only {w : List Fld} {s u : State} (h : Only w s u) (x1 : Nat) (x2 : Bool) (x3 : StorageEvent)
    (hs : Fld.sub [.gst, .hoops, .ports] w = true := by decide) : Only w s (State.hoopRead u x1 x2 x3).1 := by
  unfold State.hoopRead
  repeat' first
    | with_reducible assumption
    | with_reducible apply Only.foldl
    | with_reducible apply State.hoopStorage_only
    | with_reducible apply State.hoopFault_only
    | (with_reducible refine Only.ite (fun _ => ?_) (fun _ => ?_))
    | split
    | exact Fld.sub_trans (by decide) hs
    | intro _
    | dsimp only

theorem State.latch_only {w : List Fld} {s u : State} (h : Only w s u) (x1 : Nat) (x2 : Nat) 
    (hs : Fld.sub [.ct] w = true := by decide) : Only w s (State.latch u x1 x2) := by
  have hm : w.contains .ct = true := Fld.sub_contains hs (by decide)
  induction x2 with
  | zero => exact h
  | succ n ih =>
    unfold State.latch
    dsimp only
    split
    · exact ih
    · exact ih.put_ct _ hm

theorem State.noteEntry_only {w : List Fld} {s u : State} (h : Only w s u) (x1 : Nat)
    (hs : Fld.sub [.ct] w = true := by decide) : Only w s (State.noteEntry u x1) := by
  unfold State.noteEntry
  repeat' first
    | with_reducible assumption
    | with_reducible apply Only.foldl
    | (with_reducible refine Only.ite (fun _ => ?_) (fun _ => ?_))
    | split
    | ((with_reducible refine Only.put_ct ?_ _ ?hm); case hm => exact Fld.sub_contains hs (by decide))
    | exact Fld.sub_trans (by decide) hs
    | intro _
    | dsimp only

theorem State.ctRead_only {w : List Fld} {s u : State} (h : Only w s u) (x1 : Nat)
    (hs : Fld.sub [.gst, .ct, .hoops, .ports] w = true := by decide) : Only w s (State.ctRead u x1).1 := by
  unfold State.ctRead
  repeat' first
    | with_reducible assumption
    | with_reducible apply Only.foldl
    | with_reducible apply State.noteEntry_only
    | with_reducible apply State.latch_only
    | with_reducible apply State.hoopRead_only
    | (with_reducible refine Only.ite (fun _ => ?_) (fun _ => ?_))
    | split
    | exact Fld.sub_trans (by decide) hs
    | intro _
    | dsimp only

theorem State.readAccess_only {w : List Fld} {s u : State} (h : Only w s u) (x1 : BitVec 18)
    (hs : Fld.sub [.gst, .ct, .hoops, .ports] w = true := by decide) : Only w s (State.readAccess u x1) := by
  unfold State.readAccess
  repeat' first
    | with_reducible assumption
    | with_reducible apply Only.foldl
    | with_reducible apply State.ctRead_only
    | with_reducible apply State.ctDone_only
    | (with_reducible refine Only.ite (fun _ => ?_) (fun _ => ?_))
    | split
    | exact Fld.sub_trans (by decide) hs
    | intro _
    | dsimp only

theorem execLatchedGroupRead_only (s : State) (x0 : BitVec 18) :
    NextOnly [.gst, .ct, .adm, .pwr, .chans, .fdw, .hoops, .hoopNet, .ports, .colls, .col, .stakes, .exc, .upd, .vc0] s (execLatchedGroupRead x0 s) := by
  unfold execLatchedGroupRead
  refine live_only ?_
  repeat' first
    | with_reducible assumption
    | with_reducible exact Only.refl
    | with_reducible apply Only.foldl
    | with_reducible apply State.readAccess_only
    | with_reducible apply State.settle_only
    | (with_reducible refine Only.ite (fun _ => ?_) (fun _ => ?_))
    | split
    | decide
    | intro _
    | dsimp only

theorem State.stkCtrl_only {w : List Fld} {s u : State} (h : Only w s u) (x1 : Nat) (x2 : Word)
    (hs : Fld.sub [.gst, .stakes] w = true := by decide) : Only w s (State.stkCtrl u x1 x2) := by
  unfold State.stkCtrl
  repeat' first
    | with_reducible assumption
    | with_reducible apply Only.foldl
    | with_reducible apply State.retrainReq_only
    | with_reducible apply State.onStake_only
    | (with_reducible refine Only.ite (fun _ => ?_) (fun _ => ?_))
    | split
    | exact Fld.sub_trans (by decide) hs
    | intro _
    | dsimp only

theorem State.writeChan_only {w : List Fld} {s u : State} (h : Only w s u) (x1 : Nat) (x2 : Nat) (x3 : Word)
    (hs : Fld.sub [.gst, .adm, .pwr, .chans, .fdw, .hoops, .hoopNet, .ports, .colls, .col, .stakes, .exc, .upd, .vc0, .free] w = true := by decide) : Only w s (State.writeChan u x1 x2 x3) := by
  unfold State.writeChan
  repeat' first
    | with_reducible assumption
    | with_reducible apply Only.foldl
    | with_reducible apply State.fdCtrl_only
    | with_reducible apply State.onChan_only
    | (with_reducible refine Only.ite (fun _ => ?_) (fun _ => ?_))
    | split
    | exact Fld.sub_trans (by decide) hs
    | intro _
    | dsimp only

theorem State.writeCol_only {w : List Fld} {s u : State} (h : Only w s u) (x1 : Nat) (x2 : Word)
    (hs : Fld.sub [.gst, .colls, .col, .stakes, .vc0] w = true := by decide) : Only w s (State.writeCol u x1 x2) := by
  unfold State.writeCol
  repeat' first
    | with_reducible assumption
    | with_reducible apply Only.foldl
    | with_reducible apply State.suspRequest_only
    | with_reducible apply State.colKill_only
    | (with_reducible refine Only.ite (fun _ => ?_) (fun _ => ?_))
    | split
    | ((with_reducible refine Only.put_col ?_ _ ?hm); case hm => exact Fld.sub_contains hs (by decide))
    | exact Fld.sub_trans (by decide) hs
    | intro _
    | dsimp only

theorem State.writeDbg_only {w : List Fld} {s u : State} (h : Only w s u) (x1 : Nat) (x2 : Word)
    (hs : Fld.sub [.gst, .adm, .pwr, .chans, .fdw, .hoops, .hoopNet, .ports, .colls, .col, .stakes, .exc, .upd, .dbg, .vc0] w = true := by decide) : Only w s (State.writeDbg u x1 x2) := by
  unfold State.writeDbg
  repeat' first
    | with_reducible assumption
    | with_reducible apply Only.foldl
    | with_reducible apply State.dbgInject_only
    | with_reducible apply State.hpForce_only
    | (with_reducible refine Only.ite (fun _ => ?_) (fun _ => ?_))
    | split
    | ((with_reducible refine Only.put_dbg ?_ _ ?hm); case hm => exact Fld.sub_contains hs (by decide))
    | exact Fld.sub_trans (by decide) hs
    | intro _
    | dsimp only

theorem State.writeGst_only {w : List Fld} {s u : State} (h : Only w s u) (x1 : Nat) (x2 : Word)
    (hs : Fld.sub [.gst] w = true := by decide) : Only w s (State.writeGst u x1 x2) := by
  unfold State.writeGst
  repeat' first
    | with_reducible assumption
    | with_reducible apply Only.foldl
    | (with_reducible refine Only.ite (fun _ => ?_) (fun _ => ?_))
    | split
    | ((with_reducible refine Only.put_gst ?_ _ ?hm); case hm => exact Fld.sub_contains hs (by decide))
    | exact Fld.sub_trans (by decide) hs
    | intro _
    | dsimp only

theorem State.writeImg_only {w : List Fld} {s u : State} (h : Only w s u) (x1 : Nat) (x2 : Word)
    (hs : Fld.sub [.gst, .img, .time, .adm, .pwr, .chans, .fdw, .hoops, .hoopNet, .ports, .colls, .col, .stakes, .upd, .dbg, .vc0, .free] w = true := by decide) : Only w s (State.writeImg u x1 x2) := by
  unfold State.writeImg
  repeat' first
    | with_reducible assumption
    | with_reducible apply Only.foldl
    | with_reducible apply State.signoff_only
    | with_reducible apply State.load_only
    | (with_reducible refine Only.ite (fun _ => ?_) (fun _ => ?_))
    | split
    | ((with_reducible refine Only.put_img ?_ _ ?hm); case hm => exact Fld.sub_contains hs (by decide))
    | exact Fld.sub_trans (by decide) hs
    | intro _
    | dsimp only

theorem State.writePwr_only {w : List Fld} {s u : State} (h : Only w s u) (x1 : Nat) (x2 : Word)
    (hs : Fld.sub [.gst, .pwr] w = true := by decide) : Only w s (State.writePwr u x1 x2) := by
  unfold State.writePwr
  repeat' first
    | with_reducible assumption
    | with_reducible apply Only.foldl
    | with_reducible apply State.pwrCfg_only
    | (with_reducible refine Only.ite (fun _ => ?_) (fun _ => ?_))
    | split
    | ((with_reducible refine Only.put_pwr ?_ _ ?hm); case hm => exact Fld.sub_contains hs (by decide))
    | exact Fld.sub_trans (by decide) hs
    | intro _
    | dsimp only

theorem State.writeTil_only {w : List Fld} {s u : State} (h : Only w s u) (x1 : Nat) (x2 : Word)
    (hs : Fld.sub [.gst, .tilth] w = true := by decide) : Only w s (State.writeTil u x1 x2) := by
  unfold State.writeTil
  repeat' first
    | with_reducible assumption
    | with_reducible apply Only.foldl
    | with_reducible apply State.tilForce_only
    | with_reducible apply State.histCtrl_only
    | (with_reducible refine Only.ite (fun _ => ?_) (fun _ => ?_))
    | split
    | ((with_reducible refine Only.put_tilth ?_ _ ?hm); case hm => exact Fld.sub_contains hs (by decide))
    | exact Fld.sub_trans (by decide) hs
    | intro _
    | dsimp only

theorem State.writeTime_only {w : List Fld} {s u : State} (h : Only w s u) (x1 : Nat) (x2 : Word)
    (hs : Fld.sub [.time] w = true := by decide) : Only w s (State.writeTime u x1 x2) := by
  unfold State.writeTime
  repeat' first
    | with_reducible assumption
    | with_reducible apply Only.foldl
    | with_reducible apply State.gcPeriod_only
    | (with_reducible refine Only.ite (fun _ => ?_) (fun _ => ?_))
    | split
    | ((with_reducible refine Only.put_time ?_ _ ?hm); case hm => exact Fld.sub_contains hs (by decide))
    | exact Fld.sub_trans (by decide) hs
    | intro _
    | dsimp only

theorem State.regWrite_only {w : List Fld} {s u : State} (h : Only w s u) (x1 : Nat) (x2 : Word)
    (hs : Fld.sub [.gst, .accept, .img, .wl, .time, .adm, .tilth, .pwr, .chans, .fdw, .hoops, .hoopNet, .ports, .colls, .col, .stakes, .exc, .upd, .dbg, .vc0, .free] w = true := by decide) : Only w s (State.regWrite u x1 x2) := by
  unfold State.regWrite
  repeat' first
    | with_reducible assumption
    | with_reducible apply Only.foldl
    | with_reducible apply State.writeTime_only
    | with_reducible apply State.writeTil_only
    | with_reducible apply State.writePwr_only
    | with_reducible apply State.writeImg_only
    | with_reducible apply State.writeGst_only
    | with_reducible apply State.writeDbg_only
    | with_reducible apply State.writeCol_only
    | with_reducible apply State.writeChan_only
    | with_reducible apply State.stkCtrl_only
    | with_reducible apply State.acceptWrite_only
    | with_reducible apply State.wlProg_only
    | with_reducible apply State.evtClr_only
    | with_reducible apply State.entryAbort_only
    | with_reducible apply State.setHoop_only
    | (with_reducible refine Only.ite (fun _ => ?_) (fun _ => ?_))
    | split
    | ((with_reducible refine Only.put_tilth ?_ _ ?hm); case hm => exact Fld.sub_contains hs (by decide))
    | ((with_reducible refine Only.put_exc ?_ _ ?hm); case hm => exact Fld.sub_contains hs (by decide))
    | ((with_reducible refine Only.put_upd ?_ _ ?hm); case hm => exact Fld.sub_contains hs (by decide))
    | exact Fld.sub_trans (by decide) hs
    | intro _
    | dsimp only

theorem State.writeAccess_only {w : List Fld} {s u : State} (h : Only w s u) (x1 : BitVec 18) (x2 : Word)
    (hs : Fld.sub [.gst, .ct, .accept, .img, .wl, .time, .adm, .tilth, .pwr, .chans, .fdw, .hoops, .hoopNet, .ports, .colls, .col, .stakes, .exc, .upd, .dbg, .vc0, .free] w = true := by decide) : Only w s (State.writeAccess u x1 x2) := by
  unfold State.writeAccess
  repeat' first
    | with_reducible assumption
    | with_reducible apply Only.foldl
    | with_reducible apply State.regWrite_only
    | with_reducible apply State.ctDone_only
    | (with_reducible refine Only.ite (fun _ => ?_) (fun _ => ?_))
    | split
    | exact Fld.sub_trans (by decide) hs
    | intro _
    | dsimp only

theorem execRegisterWrite_only (s : State) (x0 : BitVec 18) (x1 : Word) :
    NextOnly [.gst, .ct, .accept, .img, .wl, .time, .adm, .tilth, .pwr, .chans, .fdw, .hoops, .hoopNet, .ports, .colls, .col, .stakes, .exc, .upd, .dbg, .vc0, .free] s (execRegisterWrite x0 x1 s) := by
  unfold execRegisterWrite
  refine live_only ?_
  repeat' first
    | with_reducible assumption
    | with_reducible exact Only.refl
    | with_reducible apply Only.foldl
    | with_reducible apply State.writeAccess_only
    | (with_reducible refine Only.ite (fun _ => ?_) (fun _ => ?_))
    | split
    | decide
    | intro _
    | dsimp only

theorem State.wir_only {w : List Fld} {s u : State} (h : Only w s u) (x1 : BitVec 4)
    (hs : Fld.sub [.wrap] w = true := by decide) : Only w s (State.wir u x1) := by
  unfold State.wir
  repeat' first
    | with_reducible assumption
    | with_reducible apply Only.foldl
    | (with_reducible refine Only.ite (fun _ => ?_) (fun _ => ?_))
    | split
    | ((with_reducible refine Only.put_wrap ?_ _ ?hm); case hm => exact Fld.sub_contains hs (by decide))
    | exact Fld.sub_trans (by decide) hs
    | intro _
    | dsimp only

theorem execWsBypass_only (s : State)  :
    NextOnly [.wrap, .free] s (execWsBypass s) := by
  unfold execWsBypass
  refine live_only ?_
  repeat' first
    | with_reducible assumption
    | with_reducible exact Only.refl
    | with_reducible apply Only.foldl
    | with_reducible apply State.wir_only
    | (with_reducible refine Only.ite (fun _ => ?_) (fun _ => ?_))
    | split
    | ((with_reducible refine Only.put_wrap_free ?_ _ _ ?h0 ?h1); (case h0 => decide); (case h1 => decide))
    | ((with_reducible refine Only.put_wrap ?_ _ ?hm); case hm => decide)
    | ((with_reducible refine Only.put_free ?_ _ ?hm); case hm => decide)
    | decide
    | intro _
    | dsimp only

theorem State.capture_only {w : List Fld} {s u : State} (h : Only w s u) 
    (hs : Fld.sub [.wrap, .free] w = true := by decide) : Only w s (State.capture u) := by
  unfold State.capture
  repeat' first
    | with_reducible assumption
    | with_reducible apply Only.foldl
    | (with_reducible refine Only.ite (fun _ => ?_) (fun _ => ?_))
    | split
    | ((with_reducible refine Only.put_wrap_free ?_ _ _ ?h0 ?h1); (case h0 => exact Fld.sub_contains hs (by decide)); (case h1 => exact Fld.sub_contains hs (by decide)))
    | ((with_reducible refine Only.put_wrap ?_ _ ?hm); case hm => exact Fld.sub_contains hs (by decide))
    | ((with_reducible refine Only.put_free ?_ _ ?hm); case hm => exact Fld.sub_contains hs (by decide))
    | exact Fld.sub_trans (by decide) hs
    | intro _
    | dsimp only

theorem State.enterTest_only {w : List Fld} {s u : State} (h : Only w s u) 
    (hs : Fld.sub [.gst, .img, .adm, .pwr, .chans, .fdw, .hoops, .hoopNet, .ports, .colls, .col, .stakes, .upd, .vc0, .free] w = true := by decide) : Only w s (State.enterTest u) := by
  unfold State.enterTest
  repeat' first
    | with_reducible assumption
    | with_reducible apply Only.foldl
    | with_reducible apply State.orphanLoader_only
    | with_reducible apply State.invalidate_only
    | (with_reducible refine Only.ite (fun _ => ?_) (fun _ => ?_))
    | split
    | ((with_reducible refine Only.put_img ?_ _ ?hm); case hm => exact Fld.sub_contains hs (by decide))
    | exact Fld.sub_trans (by decide) hs
    | intro _
    | dsimp only

theorem execWsExtest_only (s : State)  :
    NextOnly [.gst, .img, .adm, .pwr, .chans, .fdw, .hoops, .hoopNet, .ports, .colls, .col, .stakes, .upd, .wrap, .vc0, .free] s (execWsExtest s) := by
  unfold execWsExtest
  refine live_only ?_
  repeat' first
    | with_reducible assumption
    | with_reducible exact Only.refl
    | with_reducible apply Only.foldl
    | with_reducible apply State.enterTest_only
    | with_reducible apply State.capture_only
    | with_reducible apply State.wir_only
    | (with_reducible refine Only.ite (fun _ => ?_) (fun _ => ?_))
    | split
    | decide
    | intro _
    | dsimp only

theorem execWsIntest_only (s : State)  :
    NextOnly [.gst, .img, .adm, .pwr, .chans, .fdw, .hoops, .hoopNet, .ports, .colls, .col, .stakes, .upd, .wrap, .vc0, .free] s (execWsIntest s) := by
  unfold execWsIntest
  refine live_only ?_
  repeat' first
    | with_reducible assumption
    | with_reducible exact Only.refl
    | with_reducible apply Only.foldl
    | with_reducible apply State.enterTest_only
    | with_reducible apply State.capture_only
    | with_reducible apply State.wir_only
    | (with_reducible refine Only.ite (fun _ => ?_) (fun _ => ?_))
    | split
    | decide
    | intro _
    | dsimp only

theorem State.mbist_only {w : List Fld} {s u : State} (h : Only w s u) 
    (hs : Fld.sub [.wrap, .free] w = true := by decide) : Only w s (State.mbist u) := by
  unfold State.mbist
  repeat' first
    | with_reducible assumption
    | with_reducible apply Only.foldl
    | (with_reducible refine Only.ite (fun _ => ?_) (fun _ => ?_))
    | split
    | ((with_reducible refine Only.put_wrap_free ?_ _ _ ?h0 ?h1); (case h0 => exact Fld.sub_contains hs (by decide)); (case h1 => exact Fld.sub_contains hs (by decide)))
    | ((with_reducible refine Only.put_wrap ?_ _ ?hm); case hm => exact Fld.sub_contains hs (by decide))
    | ((with_reducible refine Only.put_free ?_ _ ?hm); case hm => exact Fld.sub_contains hs (by decide))
    | exact Fld.sub_trans (by decide) hs
    | intro _
    | dsimp only

theorem execSzMbist_only (s : State)  :
    NextOnly [.gst, .img, .adm, .pwr, .chans, .fdw, .hoops, .hoopNet, .ports, .colls, .col, .stakes, .upd, .wrap, .vc0, .free] s (execSzMbist s) := by
  unfold execSzMbist
  refine live_only ?_
  repeat' first
    | with_reducible assumption
    | with_reducible exact Only.refl
    | with_reducible apply Only.foldl
    | with_reducible apply State.mbist_only
    | with_reducible apply State.enterTest_only
    | with_reducible apply State.wir_only
    | (with_reducible refine Only.ite (fun _ => ?_) (fun _ => ?_))
    | split
    | decide
    | intro _
    | dsimp only

theorem State.dlysweep_only {w : List Fld} {s u : State} (h : Only w s u) 
    (hs : Fld.sub [.wrap, .free] w = true := by decide) : Only w s (State.dlysweep u) := by
  unfold State.dlysweep
  repeat' first
    | with_reducible assumption
    | with_reducible apply Only.foldl
    | (with_reducible refine Only.ite (fun _ => ?_) (fun _ => ?_))
    | split
    | ((with_reducible refine Only.put_wrap_free ?_ _ _ ?h0 ?h1); (case h0 => exact Fld.sub_contains hs (by decide)); (case h1 => exact Fld.sub_contains hs (by decide)))
    | ((with_reducible refine Only.put_wrap ?_ _ ?hm); case hm => exact Fld.sub_contains hs (by decide))
    | ((with_reducible refine Only.put_free ?_ _ ?hm); case hm => exact Fld.sub_contains hs (by decide))
    | exact Fld.sub_trans (by decide) hs
    | intro _
    | dsimp only

theorem execSzDlysweep_only (s : State)  :
    NextOnly [.gst, .img, .adm, .pwr, .chans, .fdw, .hoops, .hoopNet, .ports, .colls, .col, .stakes, .upd, .wrap, .vc0, .free] s (execSzDlysweep s) := by
  unfold execSzDlysweep
  refine live_only ?_
  repeat' first
    | with_reducible assumption
    | with_reducible exact Only.refl
    | with_reducible apply Only.foldl
    | with_reducible apply State.dlysweep_only
    | with_reducible apply State.enterTest_only
    | with_reducible apply State.wir_only
    | (with_reducible refine Only.ite (fun _ => ?_) (fun _ => ?_))
    | split
    | decide
    | intro _
    | dsimp only

theorem execSzIdcode_only (s : State)  :
    NextOnly [.wrap] s (execSzIdcode s) := by
  unfold execSzIdcode
  refine live_only ?_
  repeat' first
    | with_reducible assumption
    | with_reducible exact Only.refl
    | with_reducible apply Only.foldl
    | with_reducible apply State.wir_only
    | (with_reducible refine Only.ite (fun _ => ?_) (fun _ => ?_))
    | split
    | ((with_reducible refine Only.put_wrap ?_ _ ?hm); case hm => decide)
    | decide
    | intro _
    | dsimp only

theorem State.szCtrl_only {w : List Fld} {s u : State} (h : Only w s u) (x1 : BitVec 51) (x2 : Bool)
    (hs : Fld.sub [.gst, .ct, .accept, .img, .wl, .time, .adm, .tilth, .pwr, .chans, .fdw, .hoops, .hoopNet, .ports, .colls, .col, .stakes, .exc, .upd, .dbg, .wrap, .vc0, .free] w = true := by decide) : Only w s (State.szCtrl u x1 x2) := by
  unfold State.szCtrl
  repeat' first
    | with_reducible assumption
    | with_reducible apply Only.foldl
    | with_reducible apply State.wir_only
    | with_reducible apply State.writeAccess_only
    | with_reducible apply State.readAccess_only
    | with_reducible apply State.settle_only
    | (with_reducible refine Only.ite (fun _ => ?_) (fun _ => ?_))
    | split
    | ((with_reducible refine Only.put_wrap ?_ _ ?hm); case hm => exact Fld.sub_contains hs (by decide))
    | exact Fld.sub_trans (by decide) hs
    | intro _
    | dsimp only

theorem execSzCtrl_only (s : State) (x0 : BitVec 51) (x1 : Bool) :
    NextOnly [.gst, .ct, .accept, .img, .wl, .time, .adm, .tilth, .pwr, .chans, .fdw, .hoops, .hoopNet, .ports, .colls, .col, .stakes, .exc, .upd, .dbg, .wrap, .vc0, .free] s (execSzCtrl x0 x1 s) := by
  unfold execSzCtrl
  refine live_only ?_
  repeat' first
    | with_reducible assumption
    | with_reducible exact Only.refl
    | with_reducible apply Only.foldl
    | with_reducible apply State.szCtrl_only
    | (with_reducible refine Only.ite (fun _ => ?_) (fun _ => ?_))
    | split
    | decide
    | intro _
    | dsimp only

theorem execIdleFlitReceive_only (s : State) (x0 : Fin 16) (x1 : List Byte) :
    NextOnly [.gst, .time, .adm, .pwr, .chans, .fdw, .hoops, .hoopNet, .ports, .colls, .col, .stakes, .exc, .upd, .vc0, .free] s (execIdleFlitReceive x0 x1 s) := by
  unfold execIdleFlitReceive
  refine live_only ?_
  repeat' first
    | with_reducible assumption
    | with_reducible exact Only.refl
    | with_reducible apply Only.foldl
    | with_reducible apply State.rxFlit_only
    | (with_reducible refine Only.ite (fun _ => ?_) (fun _ => ?_))
    | split
    | decide
    | intro _
    | dsimp only

theorem execHoopEntryRead_only (s : State) (x0 : Fin 49152) (x1 : Bool) (x2 : StorageEvent) :
    NextOnly [.gst, .ct, .adm, .pwr, .chans, .fdw, .hoops, .hoopNet, .ports, .colls, .col, .stakes, .exc, .upd, .vc0] s (execHoopEntryRead x0 x1 x2 s) := by
  unfold execHoopEntryRead
  refine live_only ?_
  repeat' first
    | with_reducible assumption
    | with_reducible exact Only.refl
    | with_reducible apply Only.foldl
    | with_reducible apply State.hoopRead_only
    | with_reducible apply State.ctDone_only
    | with_reducible apply State.settle_only
    | (with_reducible refine Only.ite (fun _ => ?_) (fun _ => ?_))
    | split
    | decide
    | intro _
    | dsimp only

theorem execVddSzRemoval_only (s : State) :
    NextOnly [.powered, .inReset, .gst, .ct, .accept, .img, .wl, .time, .adm, .tilth, .pwr, .chans, .fdw, .hoops, .hoopNet, .ports, .colls, .col, .stakes, .exc, .upd, .dbg, .wrap, .vc0] s (execVddSzRemoval s) := by
  refine ⟨_, rfl, ?_⟩
  exact ⟨fun _ => rfl, fun n => absurd (by decide) n, fun n => absurd (by decide) n, fun n => absurd (by decide) n, fun n => absurd (by decide) n, fun n => absurd (by decide) n, fun n => absurd (by decide) n, fun n => absurd (by decide) n, fun n => absurd (by decide) n, fun n => absurd (by decide) n, fun n => absurd (by decide) n, fun n => absurd (by decide) n, fun n => absurd (by decide) n, fun n => absurd (by decide) n, fun n => absurd (by decide) n, fun n => absurd (by decide) n, fun n => absurd (by decide) n, fun n => absurd (by decide) n, fun n => absurd (by decide) n, fun n => absurd (by decide) n, fun n => absurd (by decide) n, fun n => absurd (by decide) n, fun n => absurd (by decide) n, fun n => absurd (by decide) n, fun n => absurd (by decide) n, fun _ => rfl⟩

theorem State.departStamp_only {w : List Fld} {s u : State} (h : Only w s u) 
    (hs : Fld.sub [.free] w = true := by decide) : Only w s (State.departStamp u).2 := by
  unfold State.departStamp
  repeat' first
    | with_reducible assumption
    | with_reducible apply Only.foldl
    | with_reducible apply State.freeNext_only
    | (with_reducible refine Only.ite (fun _ => ?_) (fun _ => ?_))
    | split
    | exact Fld.sub_trans (by decide) hs
    | intro _
    | dsimp only

theorem State.departed_only {w : List Fld} {s u : State} (h : Only w s u) (x1 : Nat)
    (hs : Fld.sub [.stakes, .free] w = true := by decide) : Only w s (State.departed u x1) := by
  unfold State.departed
  repeat' first
    | with_reducible assumption
    | with_reducible apply Only.foldl
    | with_reducible apply State.departStamp_only
    | with_reducible apply State.onStake_only
    | (with_reducible refine Only.ite (fun _ => ?_) (fun _ => ?_))
    | split
    | exact Fld.sub_trans (by decide) hs
    | intro _
    | dsimp only

theorem State.flitRow_only {w : List Fld} {s u : State} (h : Only w s u) (x1 : Nat) (x2 : State → Nat → State)
    (hf : ∀ t, Only w s t → Only w s (x2 t x1)) (hs : Fld.sub [.stakes] w = true := by decide) :
    Only w s (State.flitRow u x1 x2) := by
  unfold State.flitRow
  refine State.onStake_only ?_ _ _ hs
  split
  · exact hf u h
  · exact h

theorem State.lineData_only {w : List Fld} {s u : State} (h : Only w s u) (x1 : Nat) (x2 : TxFlit)
    (hs : Fld.sub [.stakes, .dbg] w = true := by decide) : Only w s (State.lineData u x1 x2) := by
  unfold State.lineData
  repeat' first
    | with_reducible assumption
    | with_reducible apply Only.foldl
    | with_reducible apply State.line_only
    | (with_reducible refine Only.ite (fun _ => ?_) (fun _ => ?_))
    | split
    | ((with_reducible refine Only.put_dbg ?_ _ ?hm); case hm => exact Fld.sub_contains hs (by decide))
    | exact Fld.sub_trans (by decide) hs
    | intro _
    | dsimp only

theorem State.sendNew_only {w : List Fld} {s u : State} (h : Only w s u) (x1 : Nat) (x2 : Nat)
    (hs : Fld.sub [.stakes, .dbg] w = true := by decide) : Only w s (State.sendNew u x1 x2) := by
  unfold State.sendNew
  repeat' first
    | with_reducible assumption
    | with_reducible apply Only.foldl
    | with_reducible apply State.lineData_only
    | with_reducible apply State.onStake_only
    | with_reducible apply State.setStake_only
    | (with_reducible refine Only.ite (fun _ => ?_) (fun _ => ?_))
    | split
    | exact Fld.sub_trans (by decide) hs
    | intro _
    | dsimp only

theorem State.slotService_only {w : List Fld} {s u : State} (h : Only w s u) (x1 : Nat)
    (hs : Fld.sub [.stakes, .dbg] w = true := by decide) : Only w s (State.slotService u x1) := by
  unfold State.slotService
  repeat' first
    | with_reducible assumption
    | with_reducible apply Only.foldl
    | with_reducible apply State.sendNew_only
    | with_reducible apply State.lineData_only
    | with_reducible apply State.sendTrain_only
    | with_reducible apply State.line_only
    | with_reducible apply State.sendLink_only
    | with_reducible apply State.onStake_only
    | with_reducible apply State.setStake_only
    | (with_reducible refine Only.ite (fun _ => ?_) (fun _ => ?_))
    | split
    | exact Fld.sub_trans (by decide) hs
    | intro _
    | dsimp only

theorem State.slotTraining_only {w : List Fld} {s u : State} (h : Only w s u) (x1 : Nat)
    (hs : Fld.sub [.stakes] w = true := by decide) : Only w s (State.slotTraining u x1) := by
  unfold State.slotTraining
  repeat' first
    | with_reducible assumption
    | with_reducible apply Only.foldl
    | with_reducible apply State.sendTrain_only
    | with_reducible apply State.line_only
    | with_reducible apply State.onStake_only
    | with_reducible apply State.setStake_only
    | (with_reducible refine Only.ite (fun _ => ?_) (fun _ => ?_))
    | split
    | exact Fld.sub_trans (by decide) hs
    | intro _
    | dsimp only

theorem State.pclk_only {w : List Fld} {s u : State} (h : Only w s u) (x1 : Nat)
    (hs : Fld.sub [.stakes, .dbg, .free] w = true := by decide) : Only w s (State.pclk u x1) := by
  unfold State.pclk
  repeat' first
    | with_reducible assumption
    | with_reducible apply Only.foldl
    | with_reducible apply State.slotTraining_only
    | with_reducible apply State.slotService_only
    | with_reducible apply State.flitRow_only
    | with_reducible apply State.departed_only
    | with_reducible apply State.setStake_only
    | (with_reducible refine Only.ite (fun _ => ?_) (fun _ => ?_))
    | split
    | exact Fld.sub_trans (by decide) hs
    | intro _
    | dsimp only

theorem State.pclks_only {w : List Fld} {s u : State} (h : Only w s u) (x1 : BitVec 64)
    (hs : Fld.sub [.stakes, .dbg, .free] w = true := by decide) : Only w s (State.pclks u x1) := by
  unfold State.pclks
  repeat' first
    | with_reducible assumption
    | with_reducible apply Only.foldl
    | with_reducible apply State.pclk_only
    | (with_reducible refine Only.ite (fun _ => ?_) (fun _ => ?_))
    | split
    | exact Fld.sub_trans (by decide) hs
    | intro _
    | dsimp only

theorem State.updCycle_only {w : List Fld} {s u : State} (h : Only w s u) 
    (hs : Fld.sub [.upd] w = true := by decide) : Only w s (State.updCycle u) := by
  unfold State.updCycle
  repeat' first
    | with_reducible assumption
    | with_reducible apply Only.foldl
    | (with_reducible refine Only.ite (fun _ => ?_) (fun _ => ?_))
    | split
    | ((with_reducible refine Only.put_upd ?_ _ ?hm); case hm => exact Fld.sub_contains hs (by decide))
    | exact Fld.sub_trans (by decide) hs
    | intro _
    | dsimp only

theorem State.tick_only {w : List Fld} {s u : State} (h : Only w s u) 
    (hs : Fld.sub [.gst, .time, .adm, .pwr, .chans, .fdw, .hoops, .hoopNet, .ports, .colls, .col, .stakes, .exc, .upd, .dbg, .vc0, .free] w = true := by decide) : Only w s (State.tick u) := by
  unfold State.tick
  repeat' first
    | with_reducible assumption
    | with_reducible apply Only.foldl
    | with_reducible apply State.updCycle_only
    | with_reducible apply State.pclks_only
    | with_reducible apply State.rxAll_only
    | with_reducible apply State.freeNext_only
    | with_reducible apply State.settle_only
    | (with_reducible refine Only.ite (fun _ => ?_) (fun _ => ?_))
    | split
    | ((with_reducible refine Only.put_time ?_ _ ?hm); case hm => exact Fld.sub_contains hs (by decide))
    | exact Fld.sub_trans (by decide) hs
    | intro _
    | dsimp only

end Sys2Proof.Machine
end

