-- ==== Sys2Proof/Laws/Colls.lean ====
section
/-! SUPPORT. What a lookup of a collective's record gives after the operations on records, and after a message is sent:
a send leaves every record as it was but its legs. -/

namespace Sys2Proof.Machine

theorem Coll.is_self (c : Coll) : c.is c.g c.k = true := by simp [Coll.is]

theorem Coll.is_iff (c : Coll) (g : BitVec 12) (k : Word) : c.is g k = true ↔ c.g = g ∧ c.k = k := by
  simp [Coll.is]

theorem collPut_find (c : Coll) (l : List Coll) (g : BitVec 12) (k : Word) :
    (collPut c l).find? (fun x => x.is g k) = if c.g = g ∧ c.k = k then some c else l.find? (fun x => x.is g k) := by
  induction l with
  | nil =>
    simp only [collPut, List.find?_cons, List.find?_nil]
    by_cases h : c.g = g ∧ c.k = k
    · rw [if_pos h, (Coll.is_iff c g k).mpr h]
    · rw [if_neg h]
      have : c.is g k = false := by
        cases e : c.is g k
        · rfl
        · exact absurd ((Coll.is_iff c g k).mp e) h
      rw [this]
  | cons x xs ih =>
    unfold collPut
    by_cases hx : x.is c.g c.k = true
    · rw [if_pos hx]
      have hx' := (Coll.is_iff x c.g c.k).mp hx
      simp only [List.find?_cons]
      by_cases h : c.g = g ∧ c.k = k
      · rw [if_pos h, (Coll.is_iff c g k).mpr h]
      · rw [if_neg h]
        have hc : c.is g k = false := by
          cases e : c.is g k
          · rfl
          · exact absurd ((Coll.is_iff c g k).mp e) h
        have hxx : x.is g k = false := by
          cases e : x.is g k
          · rfl
          · have := (Coll.is_iff x g k).mp e
            exact absurd ⟨hx'.1 ▸ this.1, hx'.2 ▸ this.2⟩ h
        rw [hc, hxx]
    · rw [if_neg hx]
      simp only [List.find?_cons, ih]
      by_cases h : c.g = g ∧ c.k = k
      · have : x.is g k = false := by
          cases e : x.is g k
          · rfl
          · exact absurd (by rw [h.1, h.2]; exact e) hx
        rw [this, if_pos h]
      · simp only [if_neg h]

variable (s : State)

theorem State.putColl_coll (c : Coll) (g : BitVec 12) (k : Word) :
    (s.putColl c).coll? g k = if c.g = g ∧ c.k = k then some c else s.coll? g k := collPut_find c s.colls g k

/-- A record that is found has the name that was looked for. -/
theorem State.coll_name {g : BitVec 12} {k : Word} {c : Coll} (h : s.coll? g k = some c) : c.g = g ∧ c.k = k :=
  by
  unfold State.coll? at h
  have e := List.find?_some h
  exact (Coll.is_iff c g k).mp e

theorem State.onColl_coll (g : BitVec 12) (k : Word) (f : Coll → Coll) (g' : BitVec 12) (k' : Word) :
    (s.onColl g k f).coll? g' k' =
      if g' = g ∧ k' = k then (s.coll? g k).map (fun c => { f c with g := g, k := k }) else s.coll? g' k' := by
  unfold State.onColl
  cases h : s.coll? g k with
  | none =>
    dsimp only
    split
    · rename_i e; rw [e.1, e.2, h]; rfl
    · rfl
  | some c =>
    dsimp only
    rw [State.putColl_coll]
    dsimp only
    by_cases e : g' = g ∧ k' = k
    · rw [if_pos e, if_pos ⟨e.1.symm, e.2.symm⟩]; rfl
    · rw [if_neg e, if_neg (fun x => e ⟨x.1.symm, x.2.symm⟩)]

/-- Every record is as it was but its legs. -/
def SameCore (s t : State) : Prop := ∀ g k, (t.coll? g k).map Coll.core = (s.coll? g k).map Coll.core

variable {s} {t u : State}

theorem SameCore.refl : SameCore s s := fun _ _ => rfl
theorem SameCore.trans (h : SameCore s t) (k : SameCore t u) : SameCore s u := fun g n => (k g n).trans (h g n)

theorem SameCore.of_colls (h : t.colls = s.colls) : SameCore s t := fun g k => by
  unfold State.coll?; rw [h]

/-- What a record that was there is like now. -/
theorem SameCore.some (h : SameCore s t) {g : BitVec 12} {k : Word} {c : Coll} (hc : s.coll? g k = some c) :
    ∃ c', t.coll? g k = some c' ∧ c'.core = c.core := by
  have := h g k
  rw [hc] at this
  cases e : t.coll? g k with
  | none => rw [e] at this; cases this
  | some c' => rw [e] at this; exact ⟨c', rfl, Option.some.inj this⟩

theorem Sent.sameCore {w : List Fld} {r : Sent} (h : Sent.Only w s r) (hw : Fld.colls ∉ w) (e : r = .ok t) : SameCore s t :=
  .of_colls ((h.ok e).colls hw)

theorem State.sendIf_core (s : State) (dest : Nat) (m : Msg) : SameCore s (s.sendIf dest m) :=
  .of_colls ((State.sendIf_only (w := [.stakes, .vc0]) .refl dest m).colls (by decide))

theorem SameCore.foldl {β : Type} (h : SameCore s t) (f : State → β → State) (l : List β)
    (hf : ∀ u x, SameCore s u → SameCore s (f u x)) : SameCore s (l.foldl f t) := by
  induction l generalizing t with
  | nil => exact h
  | cons x l ih => exact ih (hf t x h)

theorem State.legs_core (s : State) (g : BitVec 12) (k : Word) (f : Coll → List Leg) :
    SameCore s (s.onColl g k (fun c => { c with legs := f c })) := fun g' k' => by
  rw [State.onColl_coll]
  split
  · rename_i e
    rw [e.1, e.2]
    cases h : s.coll? g k with
    | none => rfl
    | some c =>
      obtain ⟨rfl, rfl⟩ := State.coll_name s h
      rfl
  · rfl

theorem State.cutLegs_core (s : State) (c : Coll) : SameCore s (s.cutLegs c) := by
  unfold State.cutLegs
  exact (SameCore.foldl .refl _ _ (fun _ _ k => k.trans (State.sendIf_core _ _ _))).trans (State.legs_core _ _ _ _)

theorem State.cutSide_core (s : State) (g : BitVec 12) (k : Word) (code : Nat) : SameCore s (s.cutSide g k code) := by
  unfold State.cutSide
  split
  · exact .refl
  · split
    · exact .refl
    · exact (State.cutLegs_core _ _).trans (.of_colls rfl)

theorem State.report_core (s : State) (g : BitVec 12) (k : Word) (code src unit : Nat) (arg : Word) (trap : Option Cand) :
    SameCore s (s.report g k code src unit arg trap) := by
  unfold State.report
  dsimp only
  split
  · exact .of_colls rfl
  · split
    · rename_i e
      exact Sent.sameCore (State.sendRaw_only (w := [.stakes, .vc0]) .refl _ _) (by decide) e
    · refine SameCore.trans (.of_colls ?_) (State.cutSide_core _ _ _ _)
      exact (State.logRoute_only (w := [.gst]) .refl _ _ _ _ _ _ _).colls (by decide)
    · exact State.cutSide_core _ _ _ _

theorem State.cutHere_core (s : State) (g : BitVec 12) (k : Word) (n : Nat) : SameCore s (s.cutHere g k n) := by
  unfold State.cutHere
  split
  · exact State.report_core _ _ _ _ _ _ _ _
  · exact State.cutSide_core _ _ _ _

/-- What a send does with its outcome. -/
theorem State.orFail_core (s : State) (g : BitVec 12) (k : Word) (dest level : Nat) (d : Nat) (m : Msg) :
    SameCore s (s.orFail g k dest level (s.sendRaw d m)) := by
  have h := State.sendRaw_only (w := [.stakes, .vc0]) (s := s) .refl d m
  cases e : s.sendRaw d m with
  | ok t => exact .of_colls ((h.ok e).colls (by decide))
  | fault =>
    refine SameCore.trans ?_ (State.report_core _ _ _ _ _ _ _ _)
    exact .of_colls ((State.logRoute_only (w := [.gst]) .refl _ _ _ _ _ _ _).colls (by decide))
  | down n => exact State.cutHere_core _ _ _ _

theorem State.send_core (s : State) (dest : Nat) (g : BitVec 12) (k : Word) (b : Body) (round : BitVec 16) :
    SameCore s (s.send dest g k b round) := State.orFail_core _ _ _ _ _ _ _

theorem State.sendEdge_core (s : State) (l f dest : Nat) (g : BitVec 12) (k : Word) (b : Body) (round : BitVec 16) :
    SameCore s (s.sendEdge l f dest g k b round) := State.orFail_core _ _ _ _ _ _ _

theorem State.sendUp_core (s : State) (c : Chain) (g : BitVec 12) (k : Word) (b : Body) (round : BitVec 16) :
    SameCore s (s.sendUp c g k b round) := by
  unfold State.sendUp
  split
  · exact State.sendEdge_core _ _ _ _ _ _ _ _
  · exact .refl

theorem State.sendDown_core (s : State) (es : List (Nat × Nat × Nat)) (g : BitVec 12) (k : Word) (b : Body) (round : BitVec 16) :
    SameCore s (s.sendDown es g k b round) :=
  SameCore.foldl .refl _ _ (fun _ _ h => h.trans (State.sendEdge_core _ _ _ _ _ _ _ _))

theorem State.sendAll_core (s : State) (l : List Nat) (g : BitVec 12) (k : Word) (b : Body) (round : BitVec 16) :
    SameCore s (s.sendAll l g k b round) :=
  SameCore.foldl .refl _ _ (fun _ _ h => h.trans (State.send_core _ _ _ _ _ _))

end Sys2Proof.Machine
end

