-- ==== Sys2Proof/Laws/Sparse.lean ====
section
/-! SUPPORT. The sparse map: a read after a write, and the canonical form that every write keeps. -/

namespace Sys2Proof.Machine

variable {α : Type} [DecidableEq α]

omit [DecidableEq α] in
@[simp] theorem mget_nil (d : α) (i : Nat) : mget d [] i = d := rfl

theorem mget_none_below (d : α) (m : Map α) (lo i : Nat) (h : mwfFrom d (some lo) m = true) (hi : i ≤ lo) :
    mget d m i = d := by
  induction m generalizing lo with
  | nil => rfl
  | cons x m ih =>
    obtain ⟨k, v⟩ := x
    simp only [mwfFrom, Bool.and_eq_true, decide_eq_true_eq] at h
    have : i ≠ k := by omega
    simp only [mget, this, if_false]
    exact ih k h.2 (by omega)

theorem mwfFrom_weaken (d : α) (m : Map α) (lo lo' : Nat) (h : mwfFrom d (some lo) m = true) (hl : lo' ≤ lo) :
    mwfFrom d (some lo') m = true := by
  cases m with
  | nil => rfl
  | cons x m =>
    obtain ⟨k, v⟩ := x
    simp only [mwfFrom, Bool.and_eq_true, decide_eq_true_eq] at h ⊢
    exact ⟨⟨by omega, h.1.2⟩, h.2⟩

theorem mwfFrom_none (d : α) (m : Map α) (lo : Nat) (h : mwfFrom d (some lo) m = true) : mwfFrom d none m = true := by
  cases m with
  | nil => rfl
  | cons x m =>
    obtain ⟨k, v⟩ := x
    simp only [mwfFrom, Bool.and_eq_true, decide_eq_true_eq] at h ⊢
    exact ⟨⟨trivial, h.1.2⟩, h.2⟩

/-- Reading the index just written gives the value written, in a map of canonical form. -/
theorem mget_mput_same (d : α) (m : Map α) (i : Nat) (v : α) (lo : Option Nat) (h : mwfFrom d lo m = true) :
    mget d (mput d m i v) i = v := by
  induction m generalizing lo with
  | nil => by_cases hv : v = d <;> simp [mput, hv, mget]
  | cons x m ih =>
    obtain ⟨k, w⟩ := x
    simp only [mwfFrom, Bool.and_eq_true, decide_eq_true_eq] at h
    simp only [mput]
    split
    · rename_i hik
      by_cases hv : v = d
      · subst hv
        simp only [if_true, mget]
        rw [if_neg (by omega)]
        exact mget_none_below v m k i h.2 (by omega)
      · simp [hv, mget]
    · split
      · rename_i _ hik
        by_cases hv : v = d
        · subst hv
          simp only [if_true]
          exact mget_none_below v m k i h.2 (by omega)
        · simp [hv, mget, hik]
      · rename_i _ hik
        simp only [mget, hik, if_false]
        exact ih (some k) h.2

/-- A write leaves every other index as it was. -/
theorem mget_mput_other (d : α) (m : Map α) (i j : Nat) (v : α) (hj : j ≠ i) : mget d (mput d m i v) j = mget d m j := by
  induction m with
  | nil => by_cases hv : v = d <;> simp [mput, hv, mget, hj]
  | cons x m ih =>
    obtain ⟨k, w⟩ := x
    simp only [mput]
    split
    · by_cases hv : v = d <;> simp [hv, mget, hj]
    · split
      · rename_i _ hik
        have hjk : j ≠ k := by omega
        by_cases hv : v = d
        · simp [hv, mget, hjk]
        · simp [hv, mget, hj, hjk]
      · simp only [mget]
        split
        · rfl
        · exact ih

theorem mput_wfFrom (d : α) (m : Map α) (i : Nat) (v : α) (lo : Option Nat) (h : mwfFrom d lo m = true)
    (hl : ∀ l, lo = some l → l < i) : mwfFrom d lo (mput d m i v) = true := by
  have base : ∀ m', mwfFrom d (some i) m' = true → v ≠ d → mwfFrom d lo ((i, v) :: m') = true := by
    intro m' hm hv
    simp only [mwfFrom, Bool.and_eq_true, decide_eq_true_eq]
    refine ⟨⟨?_, hv⟩, hm⟩
    cases lo with
    | none => rfl
    | some l => simpa using hl l rfl
  induction m generalizing lo with
  | nil =>
    by_cases hv : v = d
    · simp [mput, hv, mwfFrom]
    · simp only [mput, hv, if_false]; exact base [] rfl hv
  | cons x m ih =>
    obtain ⟨k, w⟩ := x
    have h0 := h
    simp only [mwfFrom, Bool.and_eq_true, decide_eq_true_eq] at h
    simp only [mput]
    split
    · rename_i hik
      by_cases hv : v = d
      · simpa [hv] using h0
      · simp only [hv, if_false]
        refine base _ ?_ hv
        simp only [mwfFrom, Bool.and_eq_true, decide_eq_true_eq]
        exact ⟨⟨hik, h.1.2⟩, h.2⟩
    · split
      · rename_i _ hik
        by_cases hv : v = d
        · simp only [hv, if_true]
          cases lo with
          | none => exact mwfFrom_none d m k h.2
          | some l => exact mwfFrom_weaken d m k l h.2 (by have := hl l rfl; omega)
        · simp only [hv, if_false]; subst hik; exact base m h.2 hv
      · rename_i _ hik
        simp only [mwfFrom, Bool.and_eq_true, decide_eq_true_eq]
        refine ⟨h.1, ih (some k) h.2 (by intro l hl'; cases hl'; omega) ?_⟩
        intro m' hm hv
        simp only [mwfFrom, Bool.and_eq_true, decide_eq_true_eq]
        exact ⟨⟨by omega, hv⟩, hm⟩

/-- A write keeps the canonical form. -/
theorem mput_wf (d : α) (m : Map α) (i : Nat) (v : α) (h : mwf d m = true) : mwf d (mput d m i v) = true :=
  mput_wfFrom d m i v none h (by intro l hl; cases hl)

theorem mmap_wfFrom (d : α) (f : Nat → α → α) (m : Map α) (lo : Option Nat) (h : mwfFrom d lo m = true) :
    mwfFrom d lo (mmap d f m) = true := by
  induction m generalizing lo with
  | nil => rfl
  | cons x m ih =>
    obtain ⟨k, w⟩ := x
    simp only [mwfFrom, Bool.and_eq_true, decide_eq_true_eq] at h
    simp only [mmap]
    split
    · have := ih (some k) h.2
      cases lo with
      | none => exact mwfFrom_none d _ k this
      | some l => exact mwfFrom_weaken d _ k l this (by have := h.1.1; simp at this; omega)
    · rename_i hv
      simp only [mwfFrom, Bool.and_eq_true, decide_eq_true_eq]
      exact ⟨⟨h.1.1, hv⟩, ih (some k) h.2⟩

/-- A change of every entry keeps the canonical form. -/
theorem mmap_wf (d : α) (f : Nat → α → α) (m : Map α) (h : mwf d m = true) : mwf d (mmap d f m) = true :=
  mmap_wfFrom d f m none h

/-- Reading through `mmap`, where the function keeps the value of an absent key. -/
theorem mget_mmap (d : α) (f : Nat → α → α) (m : Map α) (i : Nat) (lo : Option Nat) (h : mwfFrom d lo m = true) (hd : f i d = d) :
    mget d (mmap d f m) i = f i (mget d m i) := by
  induction m generalizing lo with
  | nil => simp [mmap, hd]
  | cons x m ih =>
    obtain ⟨k, v⟩ := x
    simp only [mwfFrom, Bool.and_eq_true, decide_eq_true_eq] at h
    have ih' := ih (some k) h.2
    unfold mmap
    by_cases e : f k v = d
    · simp only [e, if_true]
      by_cases ei : i = k
      · subst ei
        rw [ih']
        rw [mget_none_below d m i i h.2 (Nat.le_refl _)]
        simp [mget, hd, e]
      · simp [mget, ei, ih']
    · simp only [e, if_false]
      by_cases ei : i = k
      · subst ei; simp [mget]
      · simp [mget, ei, ih']

end Sys2Proof.Machine
end

