-- ==== Sys2Proof/Laws/Keeps.lean ====
section
/-! SUPPORT. `Keeps q s t`: what every operation of the collective, feeder, hoop and stake machinery leaves as it was on
the way from `s` to `t`. The registers of `Calm` are equal; the tables stay in canonical form; the error log stays
within its ring, and only grows; ATTN bits, NOT_READY latches, queued statuses, receive wales and terminal tokens are
never withdrawn; and a port outside `q` that holds no waiting command keeps its sequence numbers
and its hoops. -/

namespace Sys2Proof.Machine

/-- The canonical form of each table under its own name. -/
structure Canon (s : State) : Prop where
  chans : mwf Chan.zero s.chans = true
  hoops : mwf Hoop.zero s.hoops = true
  ports : mwf Port.zero s.ports = true
  stakes : mwf Stake.zero s.stakes = true
  log : mwf LogEntry.zero s.gst.log = true
  evtIn : mwf ⟨0, 0⟩ s.fdw.evtIn = true
  evtOut : mwf ⟨false, []⟩ s.fdw.evtOut = true
  susp : mwf SuspG.zero s.col.susp = true
  entryTrap : mwf [0, 0, 0, 0] s.col.entryTrap = true
  mons : mwf Mon.zero s.tilth.mons = true
  hist : mwf 0#32 s.tilth.hist = true
  accs : mwf 0 s.pwr.accs = true
  rrChan : mwf 63 s.fdw.rrChan = true
  agCnt : mwf 0 s.col.agCnt = true
  bist : mwf Bist.zero s.wrap.bist = true
  sweep : mwf Sweep.zero s.wrap.sweep = true

theorem State.canon_iff (s : State) : s.canon ↔ Canon s :=
  ⟨fun ⟨a, b, c, d, e, f, g, h, i, j, k, l, m, n, o, p⟩ => ⟨a, b, c, d, e, f, g, h, i, j, k, l, m, n, o, p⟩,
   fun ⟨a, b, c, d, e, f, g, h, i, j, k, l, m, n, o, p⟩ => ⟨a, b, c, d, e, f, g, h, i, j, k, l, m, n, o, p⟩⟩

theorem State.canon.fields {s : State} (h : s.canon) : Canon s := s.canon_iff.mp h
theorem Canon.all {s : State} (h : Canon s) : s.canon := s.canon_iff.mpr h

/-- A port whose commands and sequence numbers are untouched besides. -/
structure PortLe (p r : Port) : Prop where
  grows : PortGrows p r
  cmdq : r.cmdq = p.cmdq
  seqs : r.seqs = p.seqs

theorem PortGrows.refl (p : Port) : PortGrows p p := ⟨id, List.prefix_refl _, List.prefix_refl _, List.prefix_refl _⟩

theorem PortGrows.trans {p q r : Port} (h : PortGrows p q) (k : PortGrows q r) : PortGrows p r :=
  ⟨fun x => k.1 (h.1 x), h.2.trans k.2, h.3.trans k.3, h.4.trans k.4⟩

theorem PortLe.refl (p : Port) : PortLe p p := ⟨.refl p, rfl, rfl⟩

/-- What holds of the step from `s` to `t` besides the core ports. -/
structure Still (s t : State) : Prop where
  calm : t.calm = s.calm
  canon : s.canon → t.canon
  log : s.logOk → t.logOk
  attn : ∀ i, s.gst.attn.getLsbD i = true → t.gst.attn.getLsbD i = true
  attnEn : t.gst.attnEn = s.gst.attnEn
  logRd : t.gst.logRd = s.gst.logRd

theorem Still.refl (s : State) : Still s s := ⟨rfl, id, id, fun _ h => h, rfl, rfl⟩

theorem Still.trans {s t u : State} (h : Still s t) (k : Still t u) : Still s u where
  calm := k.calm.trans h.calm
  canon := fun x => k.canon (h.canon x)
  log := fun x => k.log (h.log x)
  attn := fun i x => k.attn i (h.attn i x)
  attnEn := k.attnEn.trans h.attnEn
  logRd := k.logRd.trans h.logRd

structure Keeps (q : Nat → Bool) (s t : State) : Prop extends Still s t where
  ports : s.canon → ∀ i, PortGrows (s.port i) (t.port i)
  seqs : s.canon → ∀ i, q i = false → (s.port i).cmdq = [] → (t.port i).cmdq = [] ∧ (t.port i).seqs = (s.port i).seqs
  hoops : s.canon → ∀ i, q (i / 48) = false → (s.port (i / 48)).cmdq = [] → t.hoop i = s.hoop i
  vc0 : s.vc0 <+: t.vc0

theorem Keeps.refl {q : Nat → Bool} {s : State} : Keeps q s s :=
  ⟨.refl s, fun _ _ => .refl _, fun _ _ _ h => ⟨h, rfl⟩, fun _ _ _ _ => rfl, List.prefix_refl _⟩

theorem Keeps.trans {q : Nat → Bool} {s t u : State} (h : Keeps q s t) (k : Keeps q t u) : Keeps q s u where
  toStill := h.toStill.trans k.toStill
  ports := fun c i => (h.ports c i).trans (k.ports (h.canon c) i)
  seqs := fun c i a b => by
    obtain ⟨h1, h2⟩ := h.seqs c i a b
    obtain ⟨k1, k2⟩ := k.seqs (h.canon c) i a h1
    exact ⟨k1, k2.trans h2⟩
  hoops := fun c i a b => (k.hoops (h.canon c) i a (h.seqs c (i / 48) a b).1).trans (h.hoops c i a b)
  vc0 := h.vc0.trans k.vc0

/-- A change that leaves the frame, GST, the core ports, and the canonical form alone. -/
theorem Keeps.of {q : Nat → Bool} {s t : State} (calm : t.calm = s.calm) (gst : t.gst = s.gst) (ports : t.ports = s.ports)
    (hoops : t.hoops = s.hoops) (vc0 : t.vc0 = s.vc0) (canon : s.canon → t.canon) : Keeps q s t where
  calm := calm
  canon := canon
  log := fun h => by unfold State.logOk at *; rw [gst]; exact h
  attn := fun i h => by rw [gst]; exact h
  attnEn := by rw [gst]
  logRd := by rw [gst]
  ports := fun _ i => by unfold State.port; rw [ports]; exact .refl _
  seqs := fun _ i _ h => by unfold State.port at *; rw [ports]; exact ⟨h, rfl⟩
  hoops := fun _ i _ _ => by unfold State.hoop; rw [hoops]
  vc0 := vc0 ▸ List.prefix_refl _

/-! ### One field at a time -/

variable {q : Nat → Bool} {s u : State}

theorem Keeps.adm (h : Keeps q s u) (x : Adm) : Keeps q s { u with adm := x } := h.trans (.of rfl rfl rfl rfl rfl id)
theorem Keeps.hoopNet (h : Keeps q s u) (x : List HoopSig) : Keeps q s { u with hoopNet := x } := h.trans (.of rfl rfl rfl rfl rfl id)
theorem Keeps.colls (h : Keeps q s u) (x : List Coll) : Keeps q s { u with colls := x } := h.trans (.of rfl rfl rfl rfl rfl id)
theorem Keeps.exc (h : Keeps q s u) (x : Exc) : Keeps q s { u with exc := x } := h.trans (.of rfl rfl rfl rfl rfl id)
theorem Keeps.upd (h : Keeps q s u) (x : Upd) : Keeps q s { u with upd := x } := h.trans (.of rfl rfl rfl rfl rfl id)

/-- A change of the collective control registers that leaves the tables alone. -/
theorem Keeps.col (h : Keeps q s u) (x : ColCtl) (h1 : x.entryTrap = u.col.entryTrap) (h2 : x.susp = u.col.susp)
    (h3 : x.agCnt = u.col.agCnt) : Keeps q s { u with col := x } :=
  h.trans (.of rfl rfl rfl rfl rfl (fun c => by unfold State.canon at *; simp only [h1, h2, h3]; exact c))

theorem Keeps.colSusp (h : Keeps q s u) (x : ColCtl) (h1 : x.entryTrap = u.col.entryTrap) (h3 : x.agCnt = u.col.agCnt)
    (h2 : mwf SuspG.zero u.col.susp = true → mwf SuspG.zero x.susp = true) : Keeps q s { u with col := x } :=
  h.trans (.of rfl rfl rfl rfl rfl (fun c =>
    Canon.all { c.fields with susp := h2 c.fields.susp, entryTrap := h1 ▸ c.fields.entryTrap, agCnt := h3 ▸ c.fields.agCnt }))

theorem Keeps.colTrap (h : Keeps q s u) (x : ColCtl) (h2 : x.susp = u.col.susp) (h3 : x.agCnt = u.col.agCnt)
    (h1 : mwf [0, 0, 0, 0] u.col.entryTrap = true → mwf [0, 0, 0, 0] x.entryTrap = true) : Keeps q s { u with col := x } :=
  h.trans (.of rfl rfl rfl rfl rfl (fun c =>
    Canon.all { c.fields with susp := h2 ▸ c.fields.susp, entryTrap := h1 c.fields.entryTrap, agCnt := h3 ▸ c.fields.agCnt }))

theorem Keeps.agCnt (h : Keeps q s u) (k n : Nat) : Keeps q s { u with col := { u.col with agCnt := mput 0 u.col.agCnt k n } } :=
  h.trans (.of rfl rfl rfl rfl rfl (fun c => Canon.all { c.fields with agCnt := mput_wf _ _ _ _ c.fields.agCnt }))

/-- A change of the pacing accumulators (R261). -/
theorem Keeps.accs (h : Keeps q s u) (k n : Nat) : Keeps q s { u with pwr := { u.pwr with accs := mput 0 u.pwr.accs k n } } :=
  h.trans (.of rfl rfl rfl rfl rfl (fun c => Canon.all { c.fields with accs := mput_wf _ _ _ _ c.fields.accs }))

/-- A trap record is stored. -/
theorem Keeps.setTrap (h : Keeps q s u) (e : Nat) (v : List Word) :
    Keeps q s { u with col := { u.col with entryTrap := mput [0, 0, 0, 0] u.col.entryTrap e v } } :=
  h.colTrap _ rfl rfl (fun k => mput_wf _ _ _ _ k)

/-- A change of the feeder's own registers that leaves the event lines alone. -/
theorem Keeps.fdw (h : Keeps q s u) (x : FdWide) (h1 : x.evtIn = u.fdw.evtIn) (h2 : x.evtOut = u.fdw.evtOut)
    (h3 : x.rrChan = u.fdw.rrChan) : Keeps q s { u with fdw := x } :=
  h.trans (.of rfl rfl rfl rfl rfl (fun c => by unfold State.canon at *; simp only [h1, h2, h3]; exact c))

/-- The rotation over the channels of one PRI goes on (R297). -/
theorem Keeps.rrChan (h : Keeps q s u) (p c : Nat) : Keeps q s { u with fdw := { u.fdw with rrChan := mput 63 u.fdw.rrChan p c } } :=
  h.trans (.of rfl rfl rfl rfl rfl (fun k => Canon.all { k.fields with rrChan := mput_wf _ _ _ _ k.fields.rrChan }))

theorem Keeps.setChan (h : Keeps q s u) (c : Nat) (x : Chan) : Keeps q s (u.setChan c x) :=
  h.trans (.of rfl rfl rfl rfl rfl (fun k => Canon.all { k.fields with chans := mput_wf _ _ _ _ k.fields.chans }))

theorem Keeps.onChan (h : Keeps q s u) (c : Nat) (f : Chan → Chan) : Keeps q s (u.onChan c f) := h.setChan c _

/-- A hoop of a port in `q` takes a value. -/
theorem Keeps.setHoop (h : Keeps q s u) (i : Nat) (x : Hoop) (hq : q (i / 48) = true) : Keeps q s (u.setHoop i x) :=
  h.trans
    { calm := rfl, log := id, attn := fun _ k => k, attnEn := rfl, logRd := rfl, ports := fun _ _ => .refl _
      seqs := fun _ _ _ k => ⟨k, rfl⟩, vc0 := List.prefix_refl _
      canon := fun k => Canon.all { k.fields with hoops := mput_wf _ _ _ _ k.fields.hoops }
      hoops := fun _ j hj _ => by
        refine mget_mput_other _ _ _ _ _ (fun e => ?_)
        subst e; rw [hq] at hj; cases hj }

theorem Keeps.setStake (h : Keeps q s u) (n : Nat) (x : Stake) : Keeps q s (u.setStake n x) :=
  h.trans (.of rfl rfl rfl rfl rfl (fun k => Canon.all { k.fields with stakes := mput_wf _ _ _ _ k.fields.stakes }))

theorem Keeps.onStake (h : Keeps q s u) (n : Nat) (f : Stake → Stake) : Keeps q s (u.onStake n f) := h.setStake n _

theorem Keeps.setEvtOut (h : Keeps q s u) (l : Nat) (e : EvtOut) : Keeps q s (u.setEvtOut l e) :=
  h.trans (.of rfl rfl rfl rfl rfl (fun k => Canon.all { k.fields with evtOut := mput_wf _ _ _ _ k.fields.evtOut }))

theorem Keeps.setEvtIn (h : Keeps q s u) (l : Nat) (e : EvtIn) : Keeps q s (u.setEvtIn l e) :=
  h.trans (.of rfl rfl rfl rfl rfl (fun k => Canon.all { k.fields with evtIn := mput_wf _ _ _ _ k.fields.evtIn }))

theorem Keeps.setSusp (h : Keeps q s u) (g : BitVec 12) (x : SuspG) : Keeps q s (u.setSusp g x) :=
  h.colSusp _ rfl rfl (fun k => mput_wf _ _ _ _ k)

theorem Keeps.putColl (h : Keeps q s u) (c : Coll) : Keeps q s (u.putColl c) := h.colls _

theorem Keeps.onColl (h : Keeps q s u) (g : BitVec 12) (k : Word) (f : Coll → Coll) : Keeps q s (u.onColl g k f) := by
  unfold State.onColl
  split
  · exact h.putColl _
  · exact h

/-- A change of every stake's record, in canonical form. -/
theorem Keeps.stakesMap (h : Keeps q s u) (f : Nat → Stake → Stake) :
    Keeps q s { u with stakes := mmap Stake.zero f u.stakes } :=
  h.trans (.of rfl rfl rfl rfl rfl (fun k => Canon.all { k.fields with stakes := mmap_wf _ _ _ k.fields.stakes }))

/-- A change of every hoop's record, in canonical form. -/
theorem Keeps.hoopsMap (h : Keeps q s u) (hq : ∀ i, q i = true) (f : Nat → Hoop → Hoop) :
    Keeps q s { u with hoops := mmap Hoop.zero f u.hoops } :=
  h.trans
    { calm := rfl, log := id, attn := fun _ k => k, attnEn := rfl, logRd := rfl, ports := fun _ _ => .refl _
      seqs := fun _ _ _ k => ⟨k, rfl⟩, vc0 := List.prefix_refl _
      canon := fun k => Canon.all { k.fields with hoops := mmap_wf _ _ _ k.fields.hoops }
      hoops := fun _ j hj _ => by rw [hq] at hj; cases hj }

/-- A change of the storage counter GST_CORR. -/
theorem Keeps.corr (h : Keeps q s u) (x : BitVec 32) : Keeps q s { u with gst := { u.gst with corr := x } } :=
  h.trans { calm := rfl, canon := id, log := id, attn := fun _ k => k, attnEn := rfl, logRd := rfl,
            ports := fun _ _ => .refl _, seqs := fun _ _ _ k => ⟨k, rfl⟩
            hoops := fun _ _ _ _ => rfl, vc0 := List.prefix_refl _ }

theorem Keeps.post (h : Keeps q s u) (m : Msg) : Keeps q s (u.post m) :=
  h.trans
    { calm := rfl, log := id, attn := fun _ k => k, attnEn := rfl, logRd := rfl, ports := fun _ _ => .refl _
      seqs := fun _ _ _ k => ⟨k, rfl⟩, hoops := fun _ _ _ _ => rfl, canon := id
      vc0 := List.prefix_append _ _ }

theorem Keeps.foldl {β : Type} (h : Keeps q s u) (f : State → β → State) (l : List β)
    (hf : ∀ t x, Keeps q s t → Keeps q s (f t x)) : Keeps q s (l.foldl f u) := by
  induction l generalizing u with
  | nil => exact h
  | cons x l ih => exact ih (hf u x h)

/-! ### The error log, ATTN and the core ports -/

theorem Keeps.attnBit (h : Keeps q s u) (b : Nat) : Keeps q s (u.attn b) :=
  h.trans
    { calm := rfl, canon := id, log := id, attnEn := rfl, logRd := rfl, ports := fun _ _ => .refl _,
      seqs := fun _ _ _ k => ⟨k, rfl⟩, hoops := fun _ _ _ _ => rfl, vc0 := List.prefix_refl _
      attn := fun i k => by simp only [State.attn, BitVec.getLsbD_or, k, Bool.true_or] }

theorem Keeps.logWrite (h : Keeps q s u) (e : LogEntry) : Keeps q s (u.logWrite e) := by
  refine h.trans ?_
  unfold State.logWrite
  split
  · exact { calm := rfl, canon := id, log := id, attnEn := rfl, logRd := rfl, ports := fun _ _ => .refl _,
            seqs := fun _ _ _ k => ⟨k, rfl⟩, hoops := fun _ _ _ _ => rfl, vc0 := List.prefix_refl _
            attn := fun i k => by simp only [BitVec.getLsbD_or, k, Bool.true_or] }
  · rename_i hu
    exact { calm := rfl, attnEn := rfl, logRd := rfl, ports := fun _ _ => .refl _, seqs := fun _ _ _ k => ⟨k, rfl⟩
            hoops := fun _ _ _ _ => rfl, vc0 := List.prefix_refl _
            canon := fun k => Canon.all { k.fields with log := mput_wf _ _ _ _ k.fields.log }
            attn := fun i k => k
            log := fun _ => by
              unfold State.logOk Gst.unread at *
              simp only
              have e1 : u.gst.logWr + 1#7 - u.gst.logRd = (u.gst.logWr - u.gst.logRd) + 1#7 := by
                rw [BitVec.sub_eq_add_neg, BitVec.sub_eq_add_neg, BitVec.add_assoc, BitVec.add_comm 1#7, ← BitVec.add_assoc]
              rw [e1, BitVec.toNat_add]
              have : (1#7).toNat = 1 := rfl
              omega }

theorem Keeps.logEv (h : Keeps q s u) (code cls src unit a0 a1 : Nat) (g : BitVec 12) (ab : BitVec 8) :
    Keeps q s (u.logEv code cls src unit a0 a1 g ab) := h.logWrite _

theorem State.setPort_port (s : State) (cp : Nat) (p : Port) (i : Nat) (h : s.canon) :
    (s.setPort cp p).port i = if i = cp then p else s.port i := by
  unfold State.port State.setPort
  split
  · rename_i e; subst e; exact mget_mput_same _ _ _ _ none h.2.2.1
  · rename_i e; exact mget_mput_other _ _ _ _ _ e

/-- A port whose outputs grow; its commands and sequence numbers change only where the port is in `q`. -/
theorem Keeps.setPortQ (h : Keeps q s u) (cp : Nat) (p : Port) (hp : PortGrows (u.port cp) p)
    (hq : q cp = false → (u.port cp).cmdq = [] → p.cmdq = [] ∧ p.seqs = (u.port cp).seqs) : Keeps q s (u.setPort cp p) :=
  h.trans
    { calm := rfl, log := id, attnEn := rfl, logRd := rfl, attn := fun _ k => k
      canon := fun k => Canon.all { k.fields with ports := mput_wf _ _ _ _ k.fields.ports }
      hoops := fun _ _ _ _ => rfl, vc0 := List.prefix_refl _
      ports := fun k i => by
        rw [State.setPort_port u cp p i k]
        split
        · rename_i e; subst e; exact hp
        · exact .refl _
      seqs := fun k i h1 h2 => by
        rw [State.setPort_port u cp p i k]
        split
        · rename_i e; subst e; exact hq h1 h2
        · exact ⟨h2, rfl⟩ }

theorem Keeps.setPort (h : Keeps q s u) (cp : Nat) (p : Port) (hp : PortLe (u.port cp) p) : Keeps q s (u.setPort cp p) :=
  h.setPortQ cp p hp.1 (fun _ k => ⟨hp.cmdq.trans k, hp.seqs⟩)

theorem Keeps.onPort (h : Keeps q s u) (cp : Nat) (f : Port → Port) (hf : ∀ p, PortLe p (f p)) : Keeps q s (u.onPort cp f) :=
  h.setPort cp _ (hf _)

/-- Any change of a port in `q` whose outputs grow. -/
theorem Keeps.onPortIn (h : Keeps q s u) (cp : Nat) (f : Port → Port) (hq : q cp = true) (hf : ∀ p, PortGrows p (f p)) :
    Keeps q s (u.onPort cp f) :=
  h.setPortQ cp _ (hf _) (fun k => by rw [hq] at k; cases k)

theorem PortLe.setOwes (p : Port) (g : BitVec 12) (l : List Owe) : PortLe p (p.setOwes g l) :=
  ⟨⟨id, List.prefix_refl _, List.prefix_refl _, List.prefix_refl _⟩, rfl, rfl⟩

theorem PortLe.discardOne (p : Port) (g : BitVec 12) (d : List Byte) : PortLe p (p.discardOne g d) := by
  unfold Port.discardOne
  split
  · exact .refl p
  · exact .setOwes p g _

/-- What a send answers when it has sent: a state that `Keeps` allows. -/
def Sent.Keeps (q : Nat → Bool) (s : State) : Sent → Prop
  | .ok t => Machine.Keeps q s t
  | _ => True

theorem Sent.Keeps.ok {r : Sent} {t : State} (h : Sent.Keeps q s r) (e : r = .ok t) : Machine.Keeps q s t := by
  subst e; exact h

theorem State.enqueue_keeps (h : Keeps q s u) (n : Nat) (fs : List TxFlit) : Keeps q s (u.enqueue n fs) := h.onStake n _

theorem State.rotation_keeps (h : Keeps q s u) (n : Nat) : Keeps q s (u.rotation n).2 := by
  exact h.onStake ((u.img.cfg.bondOf n).headD n) (fun x => { x with bondRR := x.bondRR + 1 })

theorem State.sendFlits_keeps (h : Keeps q s u) (dest : Nat) (w : Option Nat) (fs : List TxFlit) :
    Sent.Keeps q s (u.sendFlits dest w fs) := by
  unfold State.sendFlits
  split
  · trivial
  · trivial
  · dsimp only
    split
    · refine State.enqueue_keeps ?_ _ _
      split
      · exact h
      · exact State.rotation_keeps h _
    · trivial

theorem State.sendSeg_keeps (h : Keeps q s u) (dest vc level srcf : Nat) (w : Option Nat) (kind : Nat) (g : BitVec 12)
    (k : Word) (wale : Nat) (body : List Byte) : Sent.Keeps q s (u.sendSeg dest vc level srcf w kind g k wale body) :=
  State.sendFlits_keeps h _ _ _

theorem State.sendRaw_keeps (h : Keeps q s u) (dest : Nat) (m : Msg) : Sent.Keeps q s (u.sendRaw dest m) := by
  unfold State.sendRaw
  split
  · exact h.post m
  · exact State.sendSeg_keeps h _ _ _ _ _ _ _ _ _ _

theorem State.sendIf_keeps (h : Keeps q s u) (dest : Nat) (m : Msg) : Keeps q s (u.sendIf dest m) := by
  unfold State.sendIf
  split
  · rename_i e; exact (State.sendRaw_keeps h _ _).ok e
  · exact h

end Sys2Proof.Machine
end

