-- ==== Sys2Proof/Laws/KeepsOps.lean ====
section
/-! SUPPORT. One lemma per shared operation of the collective, hoop, feeder and stake machinery: what `Keeps` says
holds from the state before to the state after. -/

namespace Sys2Proof.Machine

theorem State.orphan_keeps {q : Nat → Bool} {s u : State} (h : Keeps q s u) (x1 : Nat) :
    Keeps q s (State.orphan u x1) := by
  unfold State.orphan
  repeat' first
    | with_reducible assumption
    | with_reducible apply Keeps.foldl
    | split
    | ((with_reducible refine Keeps.fdw ?_ _ ?ha ?hb ?hc); (case ha => rfl); (case hb => rfl); (case hc => rfl))
    | with_reducible refine Keeps.rrChan ?_ _ _
    | with_reducible apply PortLe.discardOne
    | with_reducible apply PortLe.setOwes
    | (intro _; exact ⟨⟨by simp, by simp, by simp, by simp⟩, rfl, rfl⟩)
    | intro _
    | dsimp only

theorem State.pulse_keeps {q : Nat → Bool} {s u : State} (h : Keeps q s u) (x1 : Nat) (x2 : Nat) :
    Keeps q s (State.pulse u x1 x2) := by
  unfold State.pulse
  repeat' first
    | with_reducible assumption
    | with_reducible apply Keeps.foldl
    | with_reducible apply Keeps.setEvtOut
    | split
    | ((with_reducible refine Keeps.fdw ?_ _ ?ha ?hb ?hc); (case ha => rfl); (case hb => rfl); (case hc => rfl))
    | with_reducible refine Keeps.rrChan ?_ _ _
    | with_reducible apply PortLe.discardOne
    | with_reducible apply PortLe.setOwes
    | (intro _; exact ⟨⟨by simp, by simp, by simp, by simp⟩, rfl, rfl⟩)
    | intro _
    | dsimp only

theorem State.cutLegs_keeps {q : Nat → Bool} {s u : State} (h : Keeps q s u) (x1 : Coll) :
    Keeps q s (State.cutLegs u x1) := by
  unfold State.cutLegs
  repeat' first
    | with_reducible assumption
    | with_reducible apply Keeps.foldl
    | with_reducible apply State.sendIf_keeps
    | with_reducible apply Keeps.onColl
    | split
    | with_reducible apply PortLe.discardOne
    | with_reducible apply PortLe.setOwes
    | (intro _; exact ⟨⟨by simp, by simp, by simp, by simp⟩, rfl, rfl⟩)
    | intro _
    | dsimp only

theorem State.cutSide_keeps {q : Nat → Bool} {s u : State} (h : Keeps q s u) (x1 : BitVec 12) (x2 : Word) (x3 : Nat) :
    Keeps q s (State.cutSide u x1 x2 x3) := by
  unfold State.cutSide
  repeat' first
    | with_reducible assumption
    | with_reducible apply Keeps.foldl
    | with_reducible apply State.cutLegs_keeps
    | with_reducible apply Keeps.post
    | split
    | with_reducible apply PortLe.discardOne
    | with_reducible apply PortLe.setOwes
    | (intro _; exact ⟨⟨by simp, by simp, by simp, by simp⟩, rfl, rfl⟩)
    | intro _
    | dsimp only

theorem State.logRoute_keeps {q : Nat → Bool} {s u : State} (h : Keeps q s u) (x1 : BitVec 12) (x2 : Word) (x3 : Nat) (x4 : Nat) (x5 : Nat) (x6 : Nat) (x7 : Nat) :
    Keeps q s (State.logRoute u x1 x2 x3 x4 x5 x6 x7) := by
  unfold State.logRoute
  repeat' first
    | with_reducible assumption
    | with_reducible apply Keeps.foldl
    | with_reducible apply Keeps.logEv
    | split
    | with_reducible apply PortLe.discardOne
    | with_reducible apply PortLe.setOwes
    | (intro _; exact ⟨⟨by simp, by simp, by simp, by simp⟩, rfl, rfl⟩)
    | intro _
    | dsimp only

theorem State.report_keeps {q : Nat → Bool} {s u : State} (h : Keeps q s u) (x1 : BitVec 12) (x2 : Word) (x3 : Nat) (x4 : Nat) (x5 : Nat) (x6 : optParam Word 0) (x7 : optParam (Option Cand) none) :
    Keeps q s (State.report u x1 x2 x3 x4 x5 x6 x7) := by
  unfold State.report
  repeat' first
    | with_reducible assumption
    | with_reducible apply Keeps.foldl
    | with_reducible apply State.logRoute_keeps
    | with_reducible apply State.cutSide_keeps
    | with_reducible apply Keeps.post
    | with_reducible apply State.sendRaw_keeps
    | (refine Sent.Keeps.ok (State.sendRaw_keeps ?_ _ _) (by assumption))
    | split
    | with_reducible apply PortLe.discardOne
    | with_reducible apply PortLe.setOwes
    | (intro _; exact ⟨⟨by simp, by simp, by simp, by simp⟩, rfl, rfl⟩)
    | intro _
    | dsimp only

theorem State.halt_keeps {q : Nat → Bool} {s u : State} (h : Keeps q s u) (x1 : Nat) (x2 : Nat) (x3 : Nat) (x4 : optParam (Option (BitVec 12 × Word)) none) :
    Keeps q s (State.halt u x1 x2 x3 x4) := by
  unfold State.halt
  repeat' first
    | with_reducible assumption
    | with_reducible apply Keeps.foldl
    | with_reducible apply Keeps.setChan
    | with_reducible apply State.report_keeps
    | with_reducible apply Keeps.logEv
    | with_reducible apply Keeps.attnBit
    | with_reducible apply State.pulse_keeps
    | with_reducible apply State.orphan_keeps
    | split
    | with_reducible apply PortLe.discardOne
    | with_reducible apply PortLe.setOwes
    | (intro _; exact ⟨⟨by simp, by simp, by simp, by simp⟩, rfl, rfl⟩)
    | intro _
    | dsimp only

theorem State.pauseChan_keeps {q : Nat → Bool} {s u : State} (h : Keeps q s u) (x1 : Nat) :
    Keeps q s (State.pauseChan u x1) := by
  unfold State.pauseChan
  repeat' first
    | with_reducible assumption
    | with_reducible apply Keeps.foldl
    | with_reducible apply Keeps.onChan
    | split
    | with_reducible apply PortLe.discardOne
    | with_reducible apply PortLe.setOwes
    | (intro _; exact ⟨⟨by simp, by simp, by simp, by simp⟩, rfl, rfl⟩)
    | intro _
    | dsimp only

theorem State.checkBind_keeps {q : Nat → Bool} {s u : State} (h : Keeps q s u) (x1 : Nat) :
    Keeps q s (State.checkBind u x1) := by
  unfold State.checkBind
  repeat' first
    | with_reducible assumption
    | with_reducible apply Keeps.foldl
    | with_reducible apply State.pauseChan_keeps
    | with_reducible apply State.halt_keeps
    | with_reducible apply Keeps.setChan
    | split
    | with_reducible apply PortLe.discardOne
    | with_reducible apply PortLe.setOwes
    | (intro _; exact ⟨⟨by simp, by simp, by simp, by simp⟩, rfl, rfl⟩)
    | intro _
    | dsimp only

theorem State.startDesc_keeps {q : Nat → Bool} {s u : State} (h : Keeps q s u) (x1 : Nat) (x2 : Bool) :
    Keeps q s (State.startDesc u x1 x2) := by
  unfold State.startDesc
  repeat' first
    | with_reducible assumption
    | with_reducible apply Keeps.foldl
    | with_reducible apply State.checkBind_keeps
    | with_reducible apply Keeps.setChan
    | split
    | with_reducible apply PortLe.discardOne
    | with_reducible apply PortLe.setOwes
    | (intro _; exact ⟨⟨by simp, by simp, by simp, by simp⟩, rfl, rfl⟩)
    | intro _
    | dsimp only

theorem State.evtServe_keeps {q : Nat → Bool} {s u : State} (h : Keeps q s u) (x0 : Nat) (x2 : Nat) :
    Keeps q s (State.evtServe x0 u x2) := by
  induction x0 generalizing u x2 with
  | zero => unfold State.evtServe; exact h
  | succ n ih =>
    unfold State.evtServe
    repeat' first
      | with_reducible assumption
      | with_reducible apply Keeps.foldl
      | with_reducible apply ih
      | with_reducible apply Keeps.setEvtIn
      | with_reducible apply State.startDesc_keeps
      | split
      | with_reducible apply PortLe.discardOne
      | with_reducible apply PortLe.setOwes
      | (intro _; exact ⟨⟨by simp, by simp, by simp, by simp⟩, rfl, rfl⟩)
      | intro _
      | dsimp only

theorem State.tryTrigger_keeps {q : Nat → Bool} {s u : State} (h : Keeps q s u) (x1 : Nat) :
    Keeps q s (State.tryTrigger u x1) := by
  unfold State.tryTrigger
  repeat' first
    | with_reducible assumption
    | with_reducible apply Keeps.foldl
    | with_reducible apply State.evtServe_keeps
    | with_reducible apply State.startDesc_keeps
    | split
    | with_reducible apply PortLe.discardOne
    | with_reducible apply PortLe.setOwes
    | (intro _; exact ⟨⟨by simp, by simp, by simp, by simp⟩, rfl, rfl⟩)
    | intro _
    | dsimp only

theorem State.makeCurrent_keeps {q : Nat → Bool} {s u : State} (h : Keeps q s u) (x1 : Nat) (x2 : BitVec 44) (x3 : List Word) (x4 : Bool) :
    Keeps q s (State.makeCurrent u x1 x2 x3 x4) := by
  unfold State.makeCurrent
  repeat' first
    | with_reducible assumption
    | with_reducible apply Keeps.foldl
    | with_reducible apply State.tryTrigger_keeps
    | with_reducible apply State.halt_keeps
    | with_reducible apply Keeps.setChan
    | split
    | with_reducible apply PortLe.discardOne
    | with_reducible apply PortLe.setOwes
    | (intro _; exact ⟨⟨by simp, by simp, by simp, by simp⟩, rfl, rfl⟩)
    | intro _
    | dsimp only

theorem State.suspStart_keeps {q : Nat → Bool} {s u : State} (h : Keeps q s u) (x1 : BitVec 3) (x2 : BitVec 12) :
    Keeps q s (State.suspStart u x1 x2) := by
  unfold State.suspStart
  repeat' first
    | with_reducible assumption
    | with_reducible apply Keeps.foldl
    | split
    | ((with_reducible refine Keeps.col ?_ _ ?ha ?hb ?hc); (case ha => rfl); (case hb => rfl); (case hc => rfl))
    | with_reducible refine Keeps.setTrap ?_ _ _
    | with_reducible refine Keeps.agCnt ?_ _ _
    | with_reducible apply PortLe.discardOne
    | with_reducible apply PortLe.setOwes
    | (intro _; exact ⟨⟨by simp, by simp, by simp, by simp⟩, rfl, rfl⟩)
    | intro _
    | dsimp only

theorem State.exTrap_keeps {q : Nat → Bool} {s u : State} (h : Keeps q s u) (x1 : BitVec 12) (x2 : Word) (x3 : Option Cand) :
    Keeps q s (State.exTrap u x1 x2 x3) := by
  unfold State.exTrap
  repeat' first
    | with_reducible assumption
    | with_reducible apply Keeps.foldl
    | with_reducible apply State.report_keeps
    | with_reducible apply Keeps.onColl
    | split
    | with_reducible apply PortLe.discardOne
    | with_reducible apply PortLe.setOwes
    | (intro _; exact ⟨⟨by simp, by simp, by simp, by simp⟩, rfl, rfl⟩)
    | intro _
    | dsimp only

theorem State.exCorrupt_keeps {q : Nat → Bool} {s u : State} (h : Keeps q s u) (x1 : BitVec 12) (x2 : Word) (x3 : Nat) (x4 : Word) :
    Keeps q s (State.exCorrupt u x1 x2 x3 x4) := by
  unfold State.exCorrupt
  repeat' first
    | with_reducible assumption
    | with_reducible apply Keeps.foldl
    | with_reducible apply State.report_keeps
    | with_reducible apply Keeps.logEv
    | split
    | with_reducible apply PortLe.discardOne
    | with_reducible apply PortLe.setOwes
    | (intro _; exact ⟨⟨by simp, by simp, by simp, by simp⟩, rfl, rfl⟩)
    | intro _
    | dsimp only

theorem State.cutHere_keeps {q : Nat → Bool} {s u : State} (h : Keeps q s u) (x1 : BitVec 12) (x2 : Word) (x3 : Nat) :
    Keeps q s (State.cutHere u x1 x2 x3) := by
  unfold State.cutHere
  repeat' first
    | with_reducible assumption
    | with_reducible apply Keeps.foldl
    | with_reducible apply State.report_keeps
    | with_reducible apply State.cutSide_keeps
    | split
    | with_reducible apply PortLe.discardOne
    | with_reducible apply PortLe.setOwes
    | (intro _; exact ⟨⟨by simp, by simp, by simp, by simp⟩, rfl, rfl⟩)
    | intro _
    | dsimp only

theorem State.orFail_keeps {q : Nat → Bool} {s u : State} (h : Keeps q s u) (g : BitVec 12) (k : Word) (dest level : Nat)
    (r : Sent) (hr : Sent.Keeps q s r) : Keeps q s (u.orFail g k dest level r) := by
  cases r with
  | ok t => exact hr
  | fault => exact State.report_keeps (State.logRoute_keeps h _ _ _ _ _ _ _) _ _ _ _ _ _ _
  | down n => exact State.cutHere_keeps h _ _ _

theorem State.send_keeps {q : Nat → Bool} {s u : State} (h : Keeps q s u) (x1 : Nat) (x2 : BitVec 12) (x3 : Word) (x4 : Body) (x5 : optParam (BitVec 16) 0) :
    Keeps q s (State.send u x1 x2 x3 x4 x5) := by
  unfold State.send
  repeat' first
    | with_reducible assumption
    | with_reducible apply Keeps.foldl
    | with_reducible apply State.orFail_keeps
    | exact True.intro
    | with_reducible apply State.sendRaw_keeps
    | (refine Sent.Keeps.ok (State.sendRaw_keeps ?_ _ _) (by assumption))
    | split
    | with_reducible apply PortLe.discardOne
    | with_reducible apply PortLe.setOwes
    | (intro _; exact ⟨⟨by simp, by simp, by simp, by simp⟩, rfl, rfl⟩)
    | intro _
    | dsimp only

theorem State.xcredit_keeps {q : Nat → Bool} {s u : State} (h : Keeps q s u) (x1 : BitVec 12) (x2 : Word) (x3 : Nat) (x4 : Nat) :
    Keeps q s (State.xcredit u x1 x2 x3 x4) := by
  unfold State.xcredit
  repeat' first
    | with_reducible assumption
    | with_reducible apply Keeps.foldl
    | with_reducible apply State.send_keeps
    | split
    | with_reducible apply PortLe.discardOne
    | with_reducible apply PortLe.setOwes
    | (intro _; exact ⟨⟨by simp, by simp, by simp, by simp⟩, rfl, rfl⟩)
    | intro _
    | dsimp only

theorem State.onEx_keeps {q : Nat → Bool} {s u : State} (h : Keeps q s u) (x1 : BitVec 12) (x2 : Word) (x3 : Nat) (x4 : ExMem → ExMem) :
    Keeps q s (State.onEx u x1 x2 x3 x4) := by
  unfold State.onEx
  repeat' first
    | with_reducible assumption
    | with_reducible apply Keeps.foldl
    | with_reducible apply Keeps.onColl
    | split
    | with_reducible apply PortLe.discardOne
    | with_reducible apply PortLe.setOwes
    | (intro _; exact ⟨⟨by simp, by simp, by simp, by simp⟩, rfl, rfl⟩)
    | intro _
    | dsimp only

theorem State.fillChan_keeps {q : Nat → Bool} {s u : State} (h : Keeps q s u) (x1 : Nat) :
    Keeps q s (State.fillChan u x1) := by
  unfold State.fillChan
  repeat' first
    | with_reducible assumption
    | with_reducible apply Keeps.foldl
    | with_reducible apply Keeps.onChan
    | split
    | with_reducible apply PortLe.discardOne
    | with_reducible apply PortLe.setOwes
    | (intro _; exact ⟨⟨by simp, by simp, by simp, by simp⟩, rfl, rfl⟩)
    | intro _
    | dsimp only

theorem State.dropBind_keeps {q : Nat → Bool} {s u : State} (h : Keeps q s u) (x1 : Nat) :
    Keeps q s (State.dropBind u x1) := by
  unfold State.dropBind
  repeat' first
    | with_reducible assumption
    | with_reducible apply Keeps.foldl
    | with_reducible apply State.fillChan_keeps
    | with_reducible apply Keeps.onChan
    | split
    | with_reducible apply PortLe.discardOne
    | with_reducible apply PortLe.setOwes
    | (intro _; exact ⟨⟨by simp, by simp, by simp, by simp⟩, rfl, rfl⟩)
    | intro _
    | dsimp only

theorem State.popBind_keeps {q : Nat → Bool} {s u : State} (h : Keeps q s u) (x1 : Nat) :
    Keeps q s (State.popBind u x1) := by
  unfold State.popBind
  repeat' first
    | with_reducible assumption
    | with_reducible apply Keeps.foldl
    | with_reducible apply State.dropBind_keeps
    | with_reducible apply State.checkBind_keeps
    | split
    | with_reducible apply PortLe.discardOne
    | with_reducible apply PortLe.setOwes
    | (intro _; exact ⟨⟨by simp, by simp, by simp, by simp⟩, rfl, rfl⟩)
    | intro _
    | dsimp only

theorem State.chanTriggers_keeps {q : Nat → Bool} {s u : State} (h : Keeps q s u)  :
    Keeps q s (State.chanTriggers u) := by
  unfold State.chanTriggers
  repeat' first
    | with_reducible assumption
    | with_reducible apply Keeps.foldl
    | with_reducible apply State.tryTrigger_keeps
    | split
    | with_reducible apply PortLe.discardOne
    | with_reducible apply PortLe.setOwes
    | (intro _; exact ⟨⟨by simp, by simp, by simp, by simp⟩, rfl, rfl⟩)
    | intro _
    | dsimp only

theorem State.signal_keeps {q : Nat → Bool} {s u : State} (h : Keeps q s u) (x1 : HoopSig) :
    Keeps q s (State.signal u x1) := by
  unfold State.signal
  repeat' first
    | with_reducible assumption
    | with_reducible apply Keeps.foldl
    | split
    | with_reducible refine Keeps.hoopNet ?_ _
    | with_reducible apply PortLe.discardOne
    | with_reducible apply PortLe.setOwes
    | (intro _; exact ⟨⟨by simp, by simp, by simp, by simp⟩, rfl, rfl⟩)
    | intro _
    | dsimp only

theorem State.complete_keeps {q : Nat → Bool} {s u : State} (h : Keeps q s u) (x1 : Nat) :
    Keeps q s (State.complete u x1) := by
  unfold State.complete
  repeat' first
    | with_reducible assumption
    | with_reducible apply Keeps.foldl
    | with_reducible apply State.signal_keeps
    | with_reducible apply State.chanTriggers_keeps
    | with_reducible apply State.makeCurrent_keeps
    | with_reducible apply Keeps.setChan
    | with_reducible apply State.pulse_keeps
    | split
    | with_reducible apply PortLe.discardOne
    | with_reducible apply PortLe.setOwes
    | (intro _; exact ⟨⟨by simp, by simp, by simp, by simp⟩, rfl, rfl⟩)
    | intro _
    | dsimp only

theorem State.finishDesc_keeps {q : Nat → Bool} {s u : State} (h : Keeps q s u) (x1 : Nat) :
    Keeps q s (State.finishDesc u x1) := by
  unfold State.finishDesc
  repeat' first
    | with_reducible assumption
    | with_reducible apply Keeps.foldl
    | with_reducible apply State.complete_keeps
    | with_reducible apply Keeps.setChan
    | split
    | with_reducible apply PortLe.discardOne
    | with_reducible apply PortLe.setOwes
    | (intro _; exact ⟨⟨by simp, by simp, by simp, by simp⟩, rfl, rfl⟩)
    | intro _
    | dsimp only

theorem State.sinkStart_keeps {q : Nat → Bool} {s u : State} (h : Keeps q s u) (x1 : Nat) (x2 : EndFor) :
    Keeps q s (State.sinkStart u x1 x2) := by
  unfold State.sinkStart
  repeat' first
    | with_reducible assumption
    | with_reducible apply Keeps.foldl
    | with_reducible apply Keeps.onChan
    | split
    | with_reducible apply PortLe.discardOne
    | with_reducible apply PortLe.setOwes
    | (intro _; exact ⟨⟨by simp, by simp, by simp, by simp⟩, rfl, rfl⟩)
    | intro _
    | dsimp only

theorem State.sinkEnd_keeps {q : Nat → Bool} {s u : State} (h : Keeps q s u) (x1 : Nat) :
    Keeps q s (State.sinkEnd u x1) := by
  unfold State.sinkEnd
  repeat' first
    | with_reducible assumption
    | with_reducible apply Keeps.foldl
    | with_reducible apply State.sinkStart_keeps
    | with_reducible apply State.finishDesc_keeps
    | with_reducible apply State.popBind_keeps
    | with_reducible apply State.dropBind_keeps
    | split
    | with_reducible apply PortLe.discardOne
    | with_reducible apply PortLe.setOwes
    | (intro _; exact ⟨⟨by simp, by simp, by simp, by simp⟩, rfl, rfl⟩)
    | intro _
    | dsimp only

theorem State.giveSink_keeps {q : Nat → Bool} {s u : State} (h : Keeps q s u) (x1 : Coll) (x2 : Member) (x3 : List (SinkAt × List Byte)) (x4 : Bool) :
    Keeps q s (State.giveSink u x1 x2 x3 x4) := by
  unfold State.giveSink
  repeat' first
    | with_reducible assumption
    | with_reducible apply Keeps.foldl
    | with_reducible apply State.sinkEnd_keeps
    | with_reducible apply State.fillChan_keeps
    | with_reducible apply Keeps.onChan
    | split
    | with_reducible apply PortLe.discardOne
    | with_reducible apply PortLe.setOwes
    | (intro _; exact ⟨⟨by simp, by simp, by simp, by simp⟩, rfl, rfl⟩)
    | intro _
    | dsimp only

theorem State.rxWale_keeps {q : Nat → Bool} {s u : State} (h : Keeps q s u) (x1 : Nat) (x2 : BitVec 12) (x3 : Word) (x4 : Nat) (x5 : List Byte) :
    Keeps q s (State.rxWale u x1 x2 x3 x4 x5) := by
  unfold State.rxWale
  repeat' first
    | with_reducible assumption
    | with_reducible apply Keeps.foldl
    | with_reducible apply Keeps.onPort
    | split
    | with_reducible apply PortLe.discardOne
    | with_reducible apply PortLe.setOwes
    | (intro _; exact ⟨⟨by simp, by simp, by simp, by simp⟩, rfl, rfl⟩)
    | intro _
    | dsimp only

theorem State.exDeliver_keeps {q : Nat → Bool} {s u : State} (h : Keeps q s u) (x1 : BitVec 12) (x2 : Word) (x3 : Nat) (x4 : Nat) (x5 : List Byte) (x6 : List (List Byte)) :
    Keeps q s (State.exDeliver u x1 x2 x3 x4 x5 x6) := by
  unfold State.exDeliver
  repeat' first
    | with_reducible assumption
    | with_reducible apply Keeps.foldl
    | with_reducible apply State.rxWale_keeps
    | with_reducible apply State.giveSink_keeps
    | with_reducible apply Keeps.onColl
    | split
    | with_reducible apply PortLe.discardOne
    | with_reducible apply PortLe.setOwes
    | (intro _; exact ⟨⟨by simp, by simp, by simp, by simp⟩, rfl, rfl⟩)
    | intro _
    | dsimp only

theorem State.exCount_keeps {q : Nat → Bool} {s u : State} (h : Keeps q s u) (x1 : Exc → Exc) :
    Keeps q s (State.exCount u x1) := by
  unfold State.exCount
  repeat' first
    | with_reducible assumption
    | with_reducible apply Keeps.foldl
    | split
    | with_reducible refine Keeps.exc ?_ _
    | with_reducible apply PortLe.discardOne
    | with_reducible apply PortLe.setOwes
    | (intro _; exact ⟨⟨by simp, by simp, by simp, by simp⟩, rfl, rfl⟩)
    | intro _
    | dsimp only

theorem State.exSlot_keeps {q : Nat → Bool} {s u : State} (h : Keeps q s u) (x1 : BitVec 12) (x2 : Word) (x3 : Nat) (x4 : List Byte) (x5 : List (List Byte)) :
    Keeps q s (State.exSlot u x1 x2 x3 x4 x5) := by
  unfold State.exSlot
  repeat' first
    | with_reducible assumption
    | with_reducible apply Keeps.foldl
    | with_reducible apply State.exCount_keeps
    | with_reducible apply State.exDeliver_keeps
    | with_reducible apply State.onEx_keeps
    | with_reducible apply State.xcredit_keeps
    | with_reducible apply State.exCorrupt_keeps
    | split
    | with_reducible apply PortLe.discardOne
    | with_reducible apply PortLe.setOwes
    | (intro _; exact ⟨⟨by simp, by simp, by simp, by simp⟩, rfl, rfl⟩)
    | intro _
    | dsimp only

theorem State.exMismatch_keeps {q : Nat → Bool} {s u : State} (h : Keeps q s u) (x1 : BitVec 12) (x2 : Word) (x3 : Nat) :
    Keeps q s (State.exMismatch u x1 x2 x3) := by
  unfold State.exMismatch
  repeat' first
    | with_reducible assumption
    | with_reducible apply Keeps.foldl
    | with_reducible apply State.report_keeps
    | with_reducible apply Keeps.logEv
    | split
    | with_reducible apply PortLe.discardOne
    | with_reducible apply PortLe.setOwes
    | (intro _; exact ⟨⟨by simp, by simp, by simp, by simp⟩, rfl, rfl⟩)
    | intro _
    | dsimp only

theorem State.exAccept_keeps {q : Nat → Bool} {s u : State} (h : Keeps q s u) (x1 : BitVec 12) (x2 : Word) (x3 : Nat) (x4 : Nat) (x5 : List Byte) (x6 : List (List Byte)) :
    Keeps q s (State.exAccept u x1 x2 x3 x4 x5 x6) := by
  unfold State.exAccept
  repeat' first
    | with_reducible assumption
    | with_reducible apply Keeps.foldl
    | with_reducible apply State.exMismatch_keeps
    | with_reducible apply State.onEx_keeps
    | with_reducible apply State.xcredit_keeps
    | split
    | with_reducible apply PortLe.discardOne
    | with_reducible apply PortLe.setOwes
    | (intro _; exact ⟨⟨by simp, by simp, by simp, by simp⟩, rfl, rfl⟩)
    | intro _
    | dsimp only

theorem State.exUnit_keeps {q : Nat → Bool} {s u : State} (h : Keeps q s u) (x1 : BitVec 12) (x2 : Word) (x3 : Nat) (x4 : Nat) (x5 : List Byte) (x6 : List (List Byte)) :
    Keeps q s (State.exUnit u x1 x2 x3 x4 x5 x6) := by
  unfold State.exUnit
  repeat' first
    | with_reducible assumption
    | with_reducible apply Keeps.foldl
    | with_reducible apply State.exAccept_keeps
    | with_reducible apply State.exMismatch_keeps
    | with_reducible apply State.exSlot_keeps
    | with_reducible apply State.exCorrupt_keeps
    | split
    | with_reducible apply PortLe.discardOne
    | with_reducible apply PortLe.setOwes
    | (intro _; exact ⟨⟨by simp, by simp, by simp, by simp⟩, rfl, rfl⟩)
    | intro _
    | dsimp only

theorem State.exSendWale_keeps {q : Nat → Bool} {s u : State} (h : Keeps q s u) (x1 : BitVec 12) (x2 : Word) (x3 : Nat) (x4 : Nat) (x5 : Nat × List Byte) :
    Keeps q s (State.exSendWale u x1 x2 x3 x4 x5) := by
  unfold State.exSendWale
  repeat' first
    | with_reducible assumption
    | with_reducible apply Keeps.foldl
    | with_reducible apply State.orFail_keeps
    | with_reducible apply Keeps.onColl
    | exact True.intro
    | with_reducible apply State.sendSeg_keeps
    | (refine Sent.Keeps.ok (State.sendSeg_keeps ?_ _ _ _ _ _ _ _ _ _ _) (by assumption))
    | split
    | with_reducible apply PortLe.discardOne
    | with_reducible apply PortLe.setOwes
    | (intro _; exact ⟨⟨by simp, by simp, by simp, by simp⟩, rfl, rfl⟩)
    | intro _
    | dsimp only

theorem State.exSend_keeps {q : Nat → Bool} {s u : State} (h : Keeps q s u) (x1 : BitVec 12) (x2 : Word) (x3 : Nat) (x4 : Nat) (x5 : Nat) (x6 : List Byte) (x7 : List (Nat × List Byte)) (x8 : List (List Byte)) :
    Keeps q s (State.exSend u x1 x2 x3 x4 x5 x6 x7 x8) := by
  unfold State.exSend
  repeat' first
    | with_reducible assumption
    | with_reducible apply Keeps.foldl
    | with_reducible apply State.exSendWale_keeps
    | with_reducible apply State.exUnit_keeps
    | split
    | with_reducible apply PortLe.discardOne
    | with_reducible apply PortLe.setOwes
    | (intro _; exact ⟨⟨by simp, by simp, by simp, by simp⟩, rfl, rfl⟩)
    | intro _
    | dsimp only

theorem State.exOsilt_keeps {q : Nat → Bool} {s u : State} (h : Keeps q s u) (x1 : BitVec 12) (x2 : Word) (x3 : Nat) :
    Keeps q s (State.exOsilt u x1 x2 x3) := by
  unfold State.exOsilt
  repeat' first
    | with_reducible assumption
    | with_reducible apply Keeps.foldl
    | with_reducible apply Keeps.onColl
    | split
    | with_reducible apply PortLe.discardOne
    | with_reducible apply PortLe.setOwes
    | (intro _; exact ⟨⟨by simp, by simp, by simp, by simp⟩, rfl, rfl⟩)
    | intro _
    | dsimp only

theorem State.residue_keeps {q : Nat → Bool} {s u : State} (h : Keeps q s u) (x1 : Coll) (x2 : Nat) (x3 : Nat) (x4 : Nat) (x5 : Nat) (x6 : Nat) :
    Keeps q s (State.residue u x1 x2 x3 x4 x5 x6) := by
  unfold State.residue
  repeat' first
    | with_reducible assumption
    | with_reducible apply Keeps.foldl
    | with_reducible apply State.report_keeps
    | with_reducible apply Keeps.logEv
    | split
    | with_reducible apply PortLe.discardOne
    | with_reducible apply PortLe.setOwes
    | (intro _; exact ⟨⟨by simp, by simp, by simp, by simp⟩, rfl, rfl⟩)
    | intro _
    | dsimp only

theorem State.exResidue_keeps {q : Nat → Bool} {s u : State} (h : Keeps q s u) (x1 : Coll) (x2 : Nat) (x3 : Nat) (x4 : Nat) (x5 : Nat) :
    Keeps q s (State.exResidue u x1 x2 x3 x4 x5) := by
  unfold State.exResidue
  repeat' first
    | with_reducible assumption
    | with_reducible apply Keeps.foldl
    | with_reducible apply State.residue_keeps
    | split
    | with_reducible apply PortLe.discardOne
    | with_reducible apply PortLe.setOwes
    | (intro _; exact ⟨⟨by simp, by simp, by simp, by simp⟩, rfl, rfl⟩)
    | intro _
    | dsimp only

theorem State.exSendCopy_keeps {q : Nat → Bool} {s u : State} (h : Keeps q s u) (x1 : BitVec 12) (x2 : Word) (x3 : Nat) (x4 : Nat) (x5 : Nat) (x6 : List Byte) (x7 : List (List Byte)) (x8 : Nat) (x9 : Nat) (x10 : Nat) :
    Keeps q s (State.exSendCopy u x1 x2 x3 x4 x5 x6 x7 x8 x9 x10) := by
  unfold State.exSendCopy
  repeat' first
    | with_reducible assumption
    | with_reducible apply Keeps.foldl
    | with_reducible apply State.exResidue_keeps
    | with_reducible apply State.exOsilt_keeps
    | with_reducible apply State.exSend_keeps
    | with_reducible apply State.exTrap_keeps
    | split
    | with_reducible apply PortLe.discardOne
    | with_reducible apply PortLe.setOwes
    | (intro _; exact ⟨⟨by simp, by simp, by simp, by simp⟩, rfl, rfl⟩)
    | intro _
    | dsimp only

theorem State.exPlace_keeps {q : Nat → Bool} {s u : State} (h : Keeps q s u) (x1 : BitVec 12) (x2 : Word) (x3 : Nat) (x4 : Nat) (x5 : List Byte) (x6 : List (List Byte)) (x7 : Nat) :
    Keeps q s (State.exPlace u x1 x2 x3 x4 x5 x6 x7) := by
  unfold State.exPlace
  repeat' first
    | with_reducible assumption
    | with_reducible apply Keeps.foldl
    | with_reducible apply State.exSendCopy_keeps
    | with_reducible apply State.exMismatch_keeps
    | with_reducible apply State.exCount_keeps
    | with_reducible apply State.onEx_keeps
    | with_reducible apply State.exCorrupt_keeps
    | split
    | with_reducible apply PortLe.discardOne
    | with_reducible apply PortLe.setOwes
    | (intro _; exact ⟨⟨by simp, by simp, by simp, by simp⟩, rfl, rfl⟩)
    | intro _
    | dsimp only

theorem State.cut_keeps {q : Nat → Bool} {s u : State} (h : Keeps q s u) (x1 : Coll) (x2 : Nat) :
    Keeps q s (State.cut u x1 x2) := by
  unfold State.cut
  repeat' first
    | with_reducible assumption
    | with_reducible apply Keeps.foldl
    | with_reducible apply State.cutHere_keeps
    | split
    | with_reducible apply PortLe.discardOne
    | with_reducible apply PortLe.setOwes
    | (intro _; exact ⟨⟨by simp, by simp, by simp, by simp⟩, rfl, rfl⟩)
    | intro _
    | dsimp only

theorem State.cutAll_keeps {q : Nat → Bool} {s u : State} (h : Keeps q s u) (x1 : Nat) :
    Keeps q s (State.cutAll u x1) := by
  unfold State.cutAll
  repeat' first
    | with_reducible assumption
    | with_reducible apply Keeps.foldl
    | with_reducible apply State.cut_keeps
    | split
    | with_reducible apply PortLe.discardOne
    | with_reducible apply PortLe.setOwes
    | (intro _; exact ⟨⟨by simp, by simp, by simp, by simp⟩, rfl, rfl⟩)
    | intro _
    | dsimp only

theorem State.dropRelays_keeps {q : Nat → Bool} {s u : State} (h : Keeps q s u) (x1 : Nat) :
    Keeps q s (State.dropRelays u x1) := by
  unfold State.dropRelays
  repeat' first
    | with_reducible assumption
    | with_reducible apply Keeps.foldl
    | with_reducible apply State.cutHere_keeps
    | with_reducible apply Keeps.onStake
    | with_reducible apply Keeps.setStake
    | split
    | with_reducible apply PortLe.discardOne
    | with_reducible apply PortLe.setOwes
    | (intro _; exact ⟨⟨by simp, by simp, by simp, by simp⟩, rfl, rfl⟩)
    | intro _
    | dsimp only

theorem State.closed_keeps {q : Nat → Bool} {s u : State} (h : Keeps q s u) (x1 : Nat) :
    Keeps q s (State.closed u x1) := by
  unfold State.closed
  repeat' first
    | with_reducible assumption
    | with_reducible apply Keeps.foldl
    | with_reducible apply Keeps.onStake
    | split
    | with_reducible apply PortLe.discardOne
    | with_reducible apply PortLe.setOwes
    | (intro _; exact ⟨⟨by simp, by simp, by simp, by simp⟩, rfl, rfl⟩)
    | intro _
    | dsimp only

theorem State.handOver_keeps {q : Nat → Bool} {s u : State} (h : Keeps q s u) (x1 : Nat) (x2 : List TxFlit) :
    Keeps q s (State.handOver u x1 x2) := by
  unfold State.handOver
  repeat' first
    | with_reducible assumption
    | with_reducible apply Keeps.foldl
    | with_reducible apply State.rotation_keeps
    | with_reducible apply State.enqueue_keeps
    | split
    | with_reducible apply PortLe.discardOne
    | with_reducible apply PortLe.setOwes
    | (intro _; exact ⟨⟨by simp, by simp, by simp, by simp⟩, rfl, rfl⟩)
    | intro _
    | dsimp only

theorem State.leaveBond_keeps {q : Nat → Bool} {s u : State} (h : Keeps q s u) (x1 : Nat) (x2 : Bool) :
    Keeps q s (State.leaveBond u x1 x2) := by
  unfold State.leaveBond
  repeat' first
    | with_reducible assumption
    | with_reducible apply Keeps.foldl
    | with_reducible apply State.handOver_keeps
    | with_reducible apply Keeps.setStake
    | split
    | with_reducible apply PortLe.discardOne
    | with_reducible apply PortLe.setOwes
    | (intro _; exact ⟨⟨by simp, by simp, by simp, by simp⟩, rfl, rfl⟩)
    | intro _
    | dsimp only

theorem State.goDown_keeps {q : Nat → Bool} {s u : State} (h : Keeps q s u) (x1 : Nat) (x2 : Nat) :
    Keeps q s (State.goDown u x1 x2) := by
  unfold State.goDown
  repeat' first
    | with_reducible assumption
    | with_reducible apply Keeps.foldl
    | with_reducible apply State.leaveBond_keeps
    | with_reducible apply State.closed_keeps
    | with_reducible apply State.dropRelays_keeps
    | with_reducible apply State.cutAll_keeps
    | with_reducible apply Keeps.setStake
    | with_reducible apply Keeps.logEv
    | with_reducible apply Keeps.attnBit
    | split
    | with_reducible apply PortLe.discardOne
    | with_reducible apply PortLe.setOwes
    | (intro _; exact ⟨⟨by simp, by simp, by simp, by simp⟩, rfl, rfl⟩)
    | intro _
    | dsimp only

theorem State.peerBad_keeps {q : Nat → Bool} {s u : State} (h : Keeps q s u) (x1 : Nat) (x2 : Nat) (x3 : Bool) (x4 : Bool) :
    Keeps q s (State.peerBad u x1 x2 x3 x4) := by
  unfold State.peerBad
  repeat' first
    | with_reducible assumption
    | with_reducible apply Keeps.foldl
    | with_reducible apply State.goDown_keeps
    | with_reducible apply Keeps.onStake
    | with_reducible apply Keeps.logEv
    | split
    | with_reducible apply PortLe.discardOne
    | with_reducible apply PortLe.setOwes
    | (intro _; exact ⟨⟨by simp, by simp, by simp, by simp⟩, rfl, rfl⟩)
    | intro _
    | dsimp only

theorem State.status_keeps {q : Nat → Bool} {s u : State} (h : Keeps q s u) (x1 : Nat) (x2 : Nat) (x3 : BitVec 12) (x4 : Word) (x5 : optParam Bool false) (x6 : optParam Bool false) :
    Keeps q s (State.status u x1 x2 x3 x4 x5 x6) := by
  unfold State.status
  repeat' first
    | with_reducible assumption
    | with_reducible apply Keeps.foldl
    | with_reducible apply Keeps.onPort
    | split
    | with_reducible apply PortLe.discardOne
    | with_reducible apply PortLe.setOwes
    | (intro _; exact ⟨⟨by simp, by simp, by simp, by simp⟩, rfl, rfl⟩)
    | intro _
    | dsimp only

theorem State.endWait_keeps {q : Nat → Bool} {s u : State} (h : Keeps q s u) (x1 : Nat) (x2 : Nat) :
    Keeps q s (State.endWait u x1 x2) := by
  unfold State.endWait
  repeat' first
    | with_reducible assumption
    | with_reducible apply Keeps.foldl
    | with_reducible apply State.status_keeps
    | with_reducible apply Keeps.onPort
    | split
    | with_reducible apply PortLe.discardOne
    | with_reducible apply PortLe.setOwes
    | (intro _; exact ⟨⟨by simp, by simp, by simp, by simp⟩, rfl, rfl⟩)
    | intro _
    | dsimp only

theorem State.clearHoops_keeps {q : Nat → Bool} {s u : State} (h : Keeps q s u) (x1 : Nat) (hq : ∀ i, q i = true) :
    Keeps q s (State.clearHoops u x1) := by
  unfold State.clearHoops
  repeat' first
    | with_reducible assumption
    | exact hq
    | exact hq _
    | with_reducible apply Keeps.foldl
    | with_reducible apply Keeps.setHoop
    | with_reducible apply State.endWait_keeps
    | split
    | with_reducible apply PortLe.discardOne
    | with_reducible apply PortLe.setOwes
    | (intro _; exact ⟨⟨by simp, by simp, by simp, by simp⟩, rfl, rfl⟩)
    | intro _
    | dsimp only

theorem State.logMismatch_keeps {q : Nat → Bool} {s u : State} (h : Keeps q s u) (x1 : BitVec 12) (x2 : Word) (x3 : Nat) :
    Keeps q s (State.logMismatch u x1 x2 x3) := by
  unfold State.logMismatch
  repeat' first
    | with_reducible assumption
    | with_reducible apply Keeps.foldl
    | with_reducible apply Keeps.logEv
    | split
    | with_reducible apply PortLe.discardOne
    | with_reducible apply PortLe.setOwes
    | (intro _; exact ⟨⟨by simp, by simp, by simp, by simp⟩, rfl, rfl⟩)
    | intro _
    | dsimp only

theorem State.updEmit_keeps {q : Nat → Bool} {s u : State} (h : Keeps q s u) (x1 : Coll) :
    Keeps q s (State.updEmit u x1) := by
  unfold State.updEmit
  repeat' first
    | with_reducible assumption
    | with_reducible apply Keeps.foldl
    | with_reducible apply Keeps.putColl
    | split
    | with_reducible refine Keeps.upd ?_ _
    | with_reducible apply PortLe.discardOne
    | with_reducible apply PortLe.setOwes
    | (intro _; exact ⟨⟨by simp, by simp, by simp, by simp⟩, rfl, rfl⟩)
    | intro _
    | dsimp only

theorem State.updPump_keeps {q : Nat → Bool} {s u : State} (h : Keeps q s u) (x0 : Nat) :
    Keeps q s (State.updPump x0 u) := by
  induction x0 generalizing u  with
  | zero => unfold State.updPump; exact h
  | succ n ih =>
    unfold State.updPump
    repeat' first
      | with_reducible assumption
      | with_reducible apply Keeps.foldl
      | with_reducible apply ih
      | with_reducible apply State.updEmit_keeps
      | split
      | with_reducible apply PortLe.discardOne
      | with_reducible apply PortLe.setOwes
      | (intro _; exact ⟨⟨by simp, by simp, by simp, by simp⟩, rfl, rfl⟩)
      | intro _
      | dsimp only

theorem State.updPut_keeps {q : Nat → Bool} {s u : State} (h : Keeps q s u) (x1 : BitVec 12) (x2 : Word) (x3 : URec) (x4 : Bool) :
    Keeps q s (State.updPut u x1 x2 x3 x4) := by
  unfold State.updPut
  repeat' first
    | with_reducible assumption
    | with_reducible apply Keeps.foldl
    | with_reducible apply State.updPump_keeps
    | with_reducible apply Keeps.onColl
    | split
    | with_reducible apply PortLe.discardOne
    | with_reducible apply PortLe.setOwes
    | (intro _; exact ⟨⟨by simp, by simp, by simp, by simp⟩, rfl, rfl⟩)
    | intro _
    | dsimp only

theorem State.releaseRound_keeps {q : Nat → Bool} {s u : State} (h : Keeps q s u) (x1 : BitVec 12) (x2 : Word) :
    Keeps q s (State.releaseRound u x1 x2) := by
  unfold State.releaseRound
  repeat' first
    | with_reducible assumption
    | with_reducible apply Keeps.foldl
    | with_reducible apply State.send_keeps
    | split
    | with_reducible apply PortLe.discardOne
    | with_reducible apply PortLe.setOwes
    | (intro _; exact ⟨⟨by simp, by simp, by simp, by simp⟩, rfl, rfl⟩)
    | intro _
    | dsimp only

theorem State.decideAbort_keeps {q : Nat → Bool} {s u : State} (h : Keeps q s u) (x1 : BitVec 12) (x2 : Word) (x3 : Nat) (x4 : Nat) (x5 : Nat) (x6 : Nat) :
    Keeps q s (State.decideAbort u x1 x2 x3 x4 x5 x6) := by
  unfold State.decideAbort
  repeat' first
    | with_reducible assumption
    | with_reducible apply Keeps.foldl
    | with_reducible apply State.releaseRound_keeps
    | with_reducible apply State.updPut_keeps
    | with_reducible apply Keeps.post
    | with_reducible apply Keeps.onColl
    | with_reducible apply Keeps.logEv
    | split
    | with_reducible refine Keeps.adm ?_ _
    | with_reducible apply PortLe.discardOne
    | with_reducible apply PortLe.setOwes
    | (intro _; exact ⟨⟨by simp, by simp, by simp, by simp⟩, rfl, rfl⟩)
    | intro _
    | dsimp only

theorem State.refuseColl_keeps {q : Nat → Bool} {s u : State} (h : Keeps q s u) (x1 : BitVec 12) (x2 : Word) :
    Keeps q s (State.refuseColl u x1 x2) := by
  unfold State.refuseColl
  repeat' first
    | with_reducible assumption
    | with_reducible apply Keeps.foldl
    | with_reducible apply State.releaseRound_keeps
    | with_reducible apply Keeps.post
    | split
    | with_reducible refine Keeps.adm ?_ _
    | with_reducible apply PortLe.discardOne
    | with_reducible apply PortLe.setOwes
    | (intro _; exact ⟨⟨by simp, by simp, by simp, by simp⟩, rfl, rfl⟩)
    | intro _
    | dsimp only

theorem State.startRound_keeps {q : Nat → Bool} {s u : State} (h : Keeps q s u) (x1 : BitVec 12) (x2 : Word) :
    Keeps q s (State.startRound u x1 x2) := by
  unfold State.startRound
  repeat' first
    | with_reducible assumption
    | with_reducible apply Keeps.foldl
    | with_reducible apply State.send_keeps
    | with_reducible apply Keeps.onColl
    | split
    | with_reducible apply PortLe.discardOne
    | with_reducible apply PortLe.setOwes
    | (intro _; exact ⟨⟨by simp, by simp, by simp, by simp⟩, rfl, rfl⟩)
    | intro _
    | dsimp only

theorem State.agDecide_keeps {q : Nat → Bool} {s u : State} (h : Keeps q s u) (x1 : BitVec 12) (x2 : Word) (x3 : AgIn) :
    Keeps q s (State.agDecide u x1 x2 x3) := by
  unfold State.agDecide
  repeat' first
    | with_reducible assumption
    | with_reducible apply Keeps.foldl
    | with_reducible apply State.startRound_keeps
    | with_reducible apply State.refuseColl_keeps
    | with_reducible apply State.decideAbort_keeps
    | with_reducible apply Keeps.onColl
    | with_reducible apply Keeps.logEv
    | split
    | with_reducible apply PortLe.discardOne
    | with_reducible apply PortLe.setOwes
    | (intro _; exact ⟨⟨by simp, by simp, by simp, by simp⟩, rfl, rfl⟩)
    | intro _
    | dsimp only

theorem State.sendEdge_keeps {q : Nat → Bool} {s u : State} (h : Keeps q s u) (x1 : Nat) (x2 : Nat) (x3 : Nat) (x4 : BitVec 12) (x5 : Word) (x6 : Body) (x7 : optParam (BitVec 16) 0) :
    Keeps q s (State.sendEdge u x1 x2 x3 x4 x5 x6 x7) := by
  unfold State.sendEdge
  repeat' first
    | with_reducible assumption
    | with_reducible apply Keeps.foldl
    | with_reducible apply State.orFail_keeps
    | exact True.intro
    | with_reducible apply State.sendRaw_keeps
    | (refine Sent.Keeps.ok (State.sendRaw_keeps ?_ _ _) (by assumption))
    | split
    | with_reducible apply PortLe.discardOne
    | with_reducible apply PortLe.setOwes
    | (intro _; exact ⟨⟨by simp, by simp, by simp, by simp⟩, rfl, rfl⟩)
    | intro _
    | dsimp only

theorem State.sendUp_keeps {q : Nat → Bool} {s u : State} (h : Keeps q s u) (x1 : Chain) (x2 : BitVec 12) (x3 : Word) (x4 : Body) (x5 : optParam (BitVec 16) 0) :
    Keeps q s (State.sendUp u x1 x2 x3 x4 x5) := by
  unfold State.sendUp
  repeat' first
    | with_reducible assumption
    | with_reducible apply Keeps.foldl
    | with_reducible apply State.sendEdge_keeps
    | split
    | with_reducible apply PortLe.discardOne
    | with_reducible apply PortLe.setOwes
    | (intro _; exact ⟨⟨by simp, by simp, by simp, by simp⟩, rfl, rfl⟩)
    | intro _
    | dsimp only

theorem State.gatherChain_keeps {q : Nat → Bool} {s u : State} (h : Keeps q s u) (x1 : BitVec 12) (x2 : Word) (x3 : Chain) :
    Keeps q s (State.gatherChain u x1 x2 x3) := by
  unfold State.gatherChain
  repeat' first
    | with_reducible assumption
    | with_reducible apply Keeps.foldl
    | with_reducible apply State.sendUp_keeps
    | with_reducible apply State.agDecide_keeps
    | with_reducible apply State.logMismatch_keeps
    | with_reducible apply Keeps.onColl
    | split
    | with_reducible apply PortLe.discardOne
    | with_reducible apply PortLe.setOwes
    | (intro _; exact ⟨⟨by simp, by simp, by simp, by simp⟩, rfl, rfl⟩)
    | intro _
    | dsimp only

theorem State.gather_keeps {q : Nat → Bool} {s u : State} (h : Keeps q s u) (x1 : BitVec 12) (x2 : Word) :
    Keeps q s (State.gather u x1 x2) := by
  unfold State.gather
  repeat' first
    | with_reducible assumption
    | with_reducible apply Keeps.foldl
    | with_reducible apply State.gatherChain_keeps
    | split
    | with_reducible apply PortLe.discardOne
    | with_reducible apply PortLe.setOwes
    | (intro _; exact ⟨⟨by simp, by simp, by simp, by simp⟩, rfl, rfl⟩)
    | intro _
    | dsimp only

theorem State.request_keeps {q : Nat → Bool} {s u : State} (h : Keeps q s u) (x1 : Nat) (x2 : Bool) (x3 : BitVec 44) (x4 : ReqKind) (x5 : List Byte) (x6 : BitVec 64) :
    Keeps q s (State.request u x1 x2 x3 x4 x5 x6) := by
  unfold State.request
  repeat' first
    | with_reducible assumption
    | with_reducible apply Keeps.foldl
    | split
    | ((with_reducible refine Keeps.fdw ?_ _ ?ha ?hb ?hc); (case ha => rfl); (case hb => rfl); (case hc => rfl))
    | with_reducible refine Keeps.rrChan ?_ _ _
    | with_reducible apply PortLe.discardOne
    | with_reducible apply PortLe.setOwes
    | (intro _; exact ⟨⟨by simp, by simp, by simp, by simp⟩, rfl, rfl⟩)
    | intro _
    | dsimp only

theorem State.sinkWrite_keeps {q : Nat → Bool} {s u : State} (h : Keeps q s u) (x1 : Nat) (x2 : Nat) :
    Keeps q s (State.sinkWrite u x1 x2) := by
  unfold State.sinkWrite
  repeat' first
    | with_reducible assumption
    | with_reducible apply Keeps.foldl
    | with_reducible apply State.request_keeps
    | with_reducible apply State.sinkEnd_keeps
    | with_reducible apply State.fillChan_keeps
    | with_reducible apply Keeps.setChan
    | split
    | with_reducible apply PortLe.discardOne
    | with_reducible apply PortLe.setOwes
    | (intro _; exact ⟨⟨by simp, by simp, by simp, by simp⟩, rfl, rfl⟩)
    | intro _
    | dsimp only

theorem State.chanSend_keeps {q : Nat → Bool} {s u : State} (h : Keeps q s u) (x1 : Nat) (x2 : Nat) (x3 : ChanReq) :
    Keeps q s (State.chanSend u x1 x2 x3) := by
  unfold State.chanSend
  repeat' first
    | with_reducible assumption
    | with_reducible apply Keeps.foldl
    | with_reducible apply State.sinkWrite_keeps
    | with_reducible apply State.request_keeps
    | with_reducible apply State.halt_keeps
    | with_reducible apply Keeps.setChan
    | split
    | ((with_reducible refine Keeps.fdw ?_ _ ?ha ?hb ?hc); (case ha => rfl); (case hb => rfl); (case hc => rfl))
    | with_reducible refine Keeps.rrChan ?_ _ _
    | with_reducible apply PortLe.discardOne
    | with_reducible apply PortLe.setOwes
    | (intro _; exact ⟨⟨by simp, by simp, by simp, by simp⟩, rfl, rfl⟩)
    | intro _
    | dsimp only

theorem State.entryAbort_keeps {q : Nat → Bool} {s u : State} (h : Keeps q s u) (x1 : Nat) (x2 : Word) :
    Keeps q s (State.entryAbort u x1 x2) := by
  unfold State.entryAbort
  repeat' first
    | with_reducible assumption
    | with_reducible apply Keeps.foldl
    | with_reducible apply State.report_keeps
    | split
    | with_reducible apply PortLe.discardOne
    | with_reducible apply PortLe.setOwes
    | (intro _; exact ⟨⟨by simp, by simp, by simp, by simp⟩, rfl, rfl⟩)
    | intro _
    | dsimp only

theorem State.freeEntryOf_keeps {q : Nat → Bool} {s u : State} (h : Keeps q s u) (x1 : Coll) :
    Keeps q s (State.freeEntryOf u x1) := by
  unfold State.freeEntryOf
  repeat' first
    | with_reducible assumption
    | with_reducible apply Keeps.foldl
    | split
    | ((with_reducible refine Keeps.col ?_ _ ?ha ?hb ?hc); (case ha => rfl); (case hb => rfl); (case hc => rfl))
    | with_reducible refine Keeps.setTrap ?_ _ _
    | with_reducible refine Keeps.agCnt ?_ _ _
    | with_reducible apply PortLe.discardOne
    | with_reducible apply PortLe.setOwes
    | (intro _; exact ⟨⟨by simp, by simp, by simp, by simp⟩, rfl, rfl⟩)
    | intro _
    | dsimp only

theorem State.reap_keeps {q : Nat → Bool} {s u : State} (h : Keeps q s u) (x1 : BitVec 12) (x2 : Word) :
    Keeps q s (State.reap u x1 x2) := by
  unfold State.reap
  repeat' first
    | with_reducible assumption
    | with_reducible apply Keeps.foldl
    | with_reducible apply State.freeEntryOf_keeps
    | with_reducible apply Keeps.onColl
    | split
    | with_reducible refine Keeps.colls ?_ _
    | with_reducible apply PortLe.discardOne
    | with_reducible apply PortLe.setOwes
    | (intro _; exact ⟨⟨by simp, by simp, by simp, by simp⟩, rfl, rfl⟩)
    | intro _
    | dsimp only

theorem State.latchSkew_keeps {q : Nat → Bool} {s u : State} (h : Keeps q s u) (x1 : BitVec 12) (x2 : Word) (x3 : BitVec 64) (x4 : BitVec 64) :
    Keeps q s (State.latchSkew u x1 x2 x3 x4) := by
  unfold State.latchSkew
  repeat' first
    | with_reducible assumption
    | with_reducible apply Keeps.foldl
    | split
    | with_reducible refine Keeps.upd ?_ _
    | with_reducible apply PortLe.discardOne
    | with_reducible apply PortLe.setOwes
    | (intro _; exact ⟨⟨by simp, by simp, by simp, by simp⟩, rfl, rfl⟩)
    | intro _
    | dsimp only

theorem State.stepSkew_keeps {q : Nat → Bool} {s u : State} (h : Keeps q s u) (x1 : BitVec 12) (x2 : Word) (x3 : BitVec 64) (x4 : BitVec 64) :
    Keeps q s (State.stepSkew u x1 x2 x3 x4) := by
  unfold State.stepSkew
  repeat' first
    | with_reducible assumption
    | with_reducible apply Keeps.foldl
    | with_reducible apply State.latchSkew_keeps
    | with_reducible apply State.decideAbort_keeps
    | with_reducible apply Keeps.logEv
    | split
    | with_reducible apply PortLe.discardOne
    | with_reducible apply PortLe.setOwes
    | (intro _; exact ⟨⟨by simp, by simp, by simp, by simp⟩, rfl, rfl⟩)
    | intro _
    | dsimp only

theorem State.storeTrap_keeps {q : Nat → Bool} {s u : State} (h : Keeps q s u) (x1 : BitVec 12) (x2 : Word) (x3 : Cand) :
    Keeps q s (State.storeTrap u x1 x2 x3) := by
  unfold State.storeTrap
  repeat' first
    | with_reducible assumption
    | with_reducible apply Keeps.foldl
    | with_reducible apply Keeps.onColl
    | with_reducible apply Keeps.logEv
    | split
    | ((with_reducible refine Keeps.col ?_ _ ?ha ?hb ?hc); (case ha => rfl); (case hb => rfl); (case hc => rfl))
    | with_reducible refine Keeps.setTrap ?_ _ _
    | with_reducible refine Keeps.agCnt ?_ _ _
    | with_reducible apply PortLe.discardOne
    | with_reducible apply PortLe.setOwes
    | (intro _; exact ⟨⟨by simp, by simp, by simp, by simp⟩, rfl, rfl⟩)
    | intro _
    | dsimp only

theorem State.raiseTrap_keeps {q : Nat → Bool} {s u : State} (h : Keeps q s u) (x1 : BitVec 12) (x2 : Word) (x3 : Cand) :
    Keeps q s (State.raiseTrap u x1 x2 x3) := by
  unfold State.raiseTrap
  repeat' first
    | with_reducible assumption
    | with_reducible apply Keeps.foldl
    | with_reducible apply State.storeTrap_keeps
    | with_reducible apply State.decideAbort_keeps
    | with_reducible apply Keeps.onColl
    | split
    | with_reducible apply PortLe.discardOne
    | with_reducible apply PortLe.setOwes
    | (intro _; exact ⟨⟨by simp, by simp, by simp, by simp⟩, rfl, rfl⟩)
    | intro _
    | dsimp only

theorem State.takeStep_keeps {q : Nat → Bool} {s u : State} (h : Keeps q s u) (x1 : BitVec 12) (x2 : Word) (x3 : BitVec 64 × BitVec 64) :
    Keeps q s (State.takeStep u x1 x2 x3) := by
  unfold State.takeStep
  repeat' first
    | with_reducible assumption
    | with_reducible apply Keeps.foldl
    | with_reducible apply State.stepSkew_keeps
    | with_reducible apply Keeps.onColl
    | split
    | with_reducible apply PortLe.discardOne
    | with_reducible apply PortLe.setOwes
    | (intro _; exact ⟨⟨by simp, by simp, by simp, by simp⟩, rfl, rfl⟩)
    | intro _
    | dsimp only

theorem State.rootArrive_keeps {q : Nat → Bool} {s u : State} (h : Keeps q s u) (x1 : BitVec 12) (x2 : Word) (x3 : Nat) (x4 : WaleV) :
    Keeps q s (State.rootArrive u x1 x2 x3 x4) := by
  unfold State.rootArrive
  repeat' first
    | with_reducible assumption
    | with_reducible apply Keeps.foldl
    | with_reducible apply State.takeStep_keeps
    | with_reducible apply Keeps.onColl
    | split
    | with_reducible apply PortLe.discardOne
    | with_reducible apply PortLe.setOwes
    | (intro _; exact ⟨⟨by simp, by simp, by simp, by simp⟩, rfl, rfl⟩)
    | intro _
    | dsimp only

theorem State.suspState_keeps {q : Nat → Bool} {s u : State} (h : Keeps q s u) (x1 : BitVec 3) :
    Keeps q s (State.suspState u x1) := by
  unfold State.suspState
  repeat' first
    | with_reducible assumption
    | with_reducible apply Keeps.foldl
    | split
    | ((with_reducible refine Keeps.col ?_ _ ?ha ?hb ?hc); (case ha => rfl); (case hb => rfl); (case hc => rfl))
    | with_reducible refine Keeps.setTrap ?_ _ _
    | with_reducible refine Keeps.agCnt ?_ _ _
    | with_reducible apply PortLe.discardOne
    | with_reducible apply PortLe.setOwes
    | (intro _; exact ⟨⟨by simp, by simp, by simp, by simp⟩, rfl, rfl⟩)
    | intro _
    | dsimp only

theorem State.releaseSeal_keeps {q : Nat → Bool} {s u : State} (h : Keeps q s u) (x1 : BitVec 12) (x2 : Word) :
    Keeps q s (State.releaseSeal u x1 x2) := by
  unfold State.releaseSeal
  repeat' first
    | with_reducible assumption
    | with_reducible apply Keeps.foldl
    | with_reducible apply State.updPut_keeps
    | with_reducible apply Keeps.post
    | with_reducible apply Keeps.onColl
    | split
    | with_reducible apply PortLe.discardOne
    | with_reducible apply PortLe.setOwes
    | (intro _; exact ⟨⟨by simp, by simp, by simp, by simp⟩, rfl, rfl⟩)
    | intro _
    | dsimp only

theorem State.checkedTry_keeps {q : Nat → Bool} {s u : State} (h : Keeps q s u) (x1 : BitVec 12) (x2 : Word) (x3 : Chain) :
    Keeps q s (State.checkedTry u x1 x2 x3) := by
  unfold State.checkedTry
  repeat' first
    | with_reducible assumption
    | with_reducible apply Keeps.foldl
    | with_reducible apply State.releaseSeal_keeps
    | with_reducible apply State.raiseTrap_keeps
    | with_reducible apply State.sendUp_keeps
    | with_reducible apply Keeps.onColl
    | split
    | with_reducible apply PortLe.discardOne
    | with_reducible apply PortLe.setOwes
    | (intro _; exact ⟨⟨by simp, by simp, by simp, by simp⟩, rfl, rfl⟩)
    | intro _
    | dsimp only

theorem State.sentTry_keeps {q : Nat → Bool} {s u : State} (h : Keeps q s u) (x1 : BitVec 12) (x2 : Word) (x3 : Chain) :
    Keeps q s (State.sentTry u x1 x2 x3) := by
  unfold State.sentTry
  repeat' first
    | with_reducible assumption
    | with_reducible apply Keeps.foldl
    | with_reducible apply State.stepSkew_keeps
    | with_reducible apply State.sendUp_keeps
    | with_reducible apply Keeps.post
    | with_reducible apply Keeps.onColl
    | split
    | with_reducible apply PortLe.discardOne
    | with_reducible apply PortLe.setOwes
    | (intro _; exact ⟨⟨by simp, by simp, by simp, by simp⟩, rfl, rfl⟩)
    | intro _
    | dsimp only

theorem State.exTake_keeps {q : Nat → Bool} {s u : State} (h : Keeps q s u) (x1 : BitVec 12) (x2 : Word) (x3 : List Byte) :
    Keeps q s (State.exTake u x1 x2 x3) := by
  unfold State.exTake
  repeat' first
    | with_reducible assumption
    | with_reducible apply Keeps.foldl
    | with_reducible apply State.exOsilt_keeps
    | with_reducible apply State.exUnit_keeps
    | with_reducible apply State.exMismatch_keeps
    | with_reducible apply State.onEx_keeps
    | split
    | with_reducible apply PortLe.discardOne
    | with_reducible apply PortLe.setOwes
    | (intro _; exact ⟨⟨by simp, by simp, by simp, by simp⟩, rfl, rfl⟩)
    | intro _
    | dsimp only

theorem State.exPump_keeps {q : Nat → Bool} {s u : State} (h : Keeps q s u) (x0 : Nat) (x2 : BitVec 12) (x3 : Word) :
    Keeps q s (State.exPump x0 u x2 x3) := by
  induction x0 generalizing u x2 x3 with
  | zero => unfold State.exPump; exact h
  | succ n ih =>
    unfold State.exPump
    repeat' first
      | with_reducible assumption
      | with_reducible apply Keeps.foldl
      | with_reducible apply ih
      | with_reducible apply State.exTake_keeps
      | with_reducible apply Keeps.onColl
      | split
      | with_reducible apply PortLe.discardOne
      | with_reducible apply PortLe.setOwes
      | (intro _; exact ⟨⟨by simp, by simp, by simp, by simp⟩, rfl, rfl⟩)
      | intro _
      | dsimp only

theorem State.exStep_keeps {q : Nat → Bool} {s u : State} (h : Keeps q s u) (x1 : BitVec 12) (x2 : Word) (x3 : Chain) :
    Keeps q s (State.exStep u x1 x2 x3) := by
  unfold State.exStep
  repeat' first
    | with_reducible assumption
    | with_reducible apply Keeps.foldl
    | with_reducible apply State.orFail_keeps
    | with_reducible apply Keeps.onColl
    | exact True.intro
    | with_reducible apply State.sendSeg_keeps
    | (refine Sent.Keeps.ok (State.sendSeg_keeps ?_ _ _ _ _ _ _ _ _ _ _) (by assumption))
    | split
    | with_reducible apply PortLe.discardOne
    | with_reducible apply PortLe.setOwes
    | (intro _; exact ⟨⟨by simp, by simp, by simp, by simp⟩, rfl, rfl⟩)
    | intro _
    | dsimp only

theorem State.probeSink_keeps {q : Nat → Bool} {s u : State} (h : Keeps q s u) (x1 : Coll) (x2 : Member) :
    Keeps q s (State.probeSink u x1 x2) := by
  unfold State.probeSink
  repeat' first
    | with_reducible assumption
    | with_reducible apply Keeps.foldl
    | with_reducible apply State.sinkStart_keeps
    | split
    | with_reducible apply PortLe.discardOne
    | with_reducible apply PortLe.setOwes
    | (intro _; exact ⟨⟨by simp, by simp, by simp, by simp⟩, rfl, rfl⟩)
    | intro _
    | dsimp only

theorem State.exAdvance_keeps {q : Nat → Bool} {s u : State} (h : Keeps q s u) (x1 : BitVec 12) (x2 : Word) :
    Keeps q s (State.exAdvance u x1 x2) := by
  unfold State.exAdvance
  repeat' first
    | with_reducible assumption
    | with_reducible apply Keeps.foldl
    | with_reducible apply State.probeSink_keeps
    | with_reducible apply State.exStep_keeps
    | with_reducible apply State.exPump_keeps
    | with_reducible apply State.sentTry_keeps
    | with_reducible apply State.checkedTry_keeps
    | split
    | with_reducible apply PortLe.discardOne
    | with_reducible apply PortLe.setOwes
    | (intro _; exact ⟨⟨by simp, by simp, by simp, by simp⟩, rfl, rfl⟩)
    | intro _
    | dsimp only

theorem State.closeChain_keeps {q : Nat → Bool} {s u : State} (h : Keeps q s u) (x1 : BitVec 12) (x2 : Word) (x3 : Chain) :
    Keeps q s (State.closeChain u x1 x2 x3) := by
  unfold State.closeChain
  repeat' first
    | with_reducible assumption
    | with_reducible apply Keeps.foldl
    | with_reducible apply State.releaseSeal_keeps
    | with_reducible apply State.sendUp_keeps
    | with_reducible apply Keeps.onColl
    | split
    | with_reducible apply PortLe.discardOne
    | with_reducible apply PortLe.setOwes
    | (intro _; exact ⟨⟨by simp, by simp, by simp, by simp⟩, rfl, rfl⟩)
    | intro _
    | dsimp only

theorem State.closeTry_keeps {q : Nat → Bool} {s u : State} (h : Keeps q s u) (x1 : BitVec 12) (x2 : Word) :
    Keeps q s (State.closeTry u x1 x2) := by
  unfold State.closeTry
  repeat' first
    | with_reducible assumption
    | with_reducible apply Keeps.foldl
    | with_reducible apply State.closeChain_keeps
    | split
    | with_reducible apply PortLe.discardOne
    | with_reducible apply PortLe.setOwes
    | (intro _; exact ⟨⟨by simp, by simp, by simp, by simp⟩, rfl, rfl⟩)
    | intro _
    | dsimp only

theorem State.fpChain_keeps {q : Nat → Bool} {s u : State} (h : Keeps q s u) (x1 : BitVec 12) (x2 : Word) (x3 : Chain) :
    Keeps q s (State.fpChain u x1 x2 x3) := by
  unfold State.fpChain
  repeat' first
    | with_reducible assumption
    | with_reducible apply Keeps.foldl
    | with_reducible apply State.sendUp_keeps
    | with_reducible apply Keeps.onColl
    | split
    | with_reducible apply PortLe.discardOne
    | with_reducible apply PortLe.setOwes
    | (intro _; exact ⟨⟨by simp, by simp, by simp, by simp⟩, rfl, rfl⟩)
    | intro _
    | dsimp only

theorem State.fpTry_keeps {q : Nat → Bool} {s u : State} (h : Keeps q s u) (x1 : BitVec 12) (x2 : Word) :
    Keeps q s (State.fpTry u x1 x2) := by
  unfold State.fpTry
  repeat' first
    | with_reducible assumption
    | with_reducible apply Keeps.foldl
    | with_reducible apply State.fpChain_keeps
    | with_reducible apply Keeps.onColl
    | split
    | with_reducible apply PortLe.discardOne
    | with_reducible apply PortLe.setOwes
    | (intro _; exact ⟨⟨by simp, by simp, by simp, by simp⟩, rfl, rfl⟩)
    | intro _
    | dsimp only

theorem State.deliverWale_keeps {q : Nat → Bool} {s u : State} (h : Keeps q s u) (x1 : BitVec 12) (x2 : Word) (x3 : Chain) (x4 : Nat) (x5 : Nat) (x6 : List Byte) :
    Keeps q s (State.deliverWale u x1 x2 x3 x4 x5 x6) := by
  unfold State.deliverWale
  repeat' first
    | with_reducible assumption
    | with_reducible apply Keeps.foldl
    | with_reducible apply State.rxWale_keeps
    | with_reducible apply State.giveSink_keeps
    | with_reducible apply State.orFail_keeps
    | with_reducible apply Keeps.onColl
    | exact True.intro
    | with_reducible apply State.sendSeg_keeps
    | (refine Sent.Keeps.ok (State.sendSeg_keeps ?_ _ _ _ _ _ _ _ _ _ _) (by assumption))
    | split
    | with_reducible apply PortLe.discardOne
    | with_reducible apply PortLe.setOwes
    | (intro _; exact ⟨⟨by simp, by simp, by simp, by simp⟩, rfl, rfl⟩)
    | intro _
    | dsimp only

theorem State.release_keeps {q : Nat → Bool} {s u : State} (h : Keeps q s u) (x1 : BitVec 12) (x2 : Word) (x3 : Nat) (x4 : List Byte) (x5 : Option (List Byte)) (x6 : Nat) :
    Keeps q s (State.release u x1 x2 x3 x4 x5 x6) := by
  unfold State.release
  repeat' first
    | with_reducible assumption
    | with_reducible apply Keeps.foldl
    | with_reducible apply State.deliverWale_keeps
    | with_reducible apply State.updPut_keeps
    | with_reducible apply Keeps.onColl
    | split
    | with_reducible apply PortLe.discardOne
    | with_reducible apply PortLe.setOwes
    | (intro _; exact ⟨⟨by simp, by simp, by simp, by simp⟩, rfl, rfl⟩)
    | intro _
    | dsimp only

theorem State.rootTake_keeps {q : Nat → Bool} {s u : State} (h : Keeps q s u) (x1 : BitVec 12) (x2 : Word) :
    Keeps q s (State.rootTake u x1 x2) := by
  unfold State.rootTake
  repeat' first
    | with_reducible assumption
    | with_reducible apply Keeps.foldl
    | with_reducible apply State.takeStep_keeps
    | with_reducible apply State.raiseTrap_keeps
    | with_reducible apply State.storeTrap_keeps
    | with_reducible apply Keeps.onColl
    | split
    | with_reducible apply PortLe.discardOne
    | with_reducible apply PortLe.setOwes
    | (intro _; exact ⟨⟨by simp, by simp, by simp, by simp⟩, rfl, rfl⟩)
    | intro _
    | dsimp only

theorem State.opportunity_keeps {q : Nat → Bool} {s u : State} (h : Keeps q s u) (x1 : Nat) :
    Keeps q s (State.opportunity u x1).2 := by
  unfold State.opportunity
  repeat' first
    | with_reducible assumption
    | with_reducible apply Keeps.foldl
    | split
    | with_reducible refine Keeps.accs ?_ _ _
    | with_reducible apply PortLe.discardOne
    | with_reducible apply PortLe.setOwes
    | (intro _; exact ⟨⟨by simp, by simp, by simp, by simp⟩, rfl, rfl⟩)
    | intro _
    | dsimp only

theorem State.updAdmits_keeps {q : Nat → Bool} {s u : State} (h : Keeps q s u) (x1 : Coll) (x2 : Bool) :
    Keeps q s (State.updAdmits u x1 x2).2 := by
  unfold State.updAdmits
  repeat' first
    | with_reducible assumption
    | with_reducible apply Keeps.foldl
    | with_reducible apply State.opportunity_keeps
    | split
    | with_reducible apply PortLe.discardOne
    | with_reducible apply PortLe.setOwes
    | (intro _; exact ⟨⟨by simp, by simp, by simp, by simp⟩, rfl, rfl⟩)
    | intro _
    | dsimp only

theorem State.rootPump_keeps {q : Nat → Bool} {s u : State} (h : Keeps q s u) (x0 : Nat) (x2 : BitVec 12) (x3 : Word) :
    Keeps q s (State.rootPump x0 u x2 x3) := by
  induction x0 generalizing u x2 x3 with
  | zero => unfold State.rootPump; exact h
  | succ n ih =>
    unfold State.rootPump
    repeat' first
      | with_reducible assumption
      | with_reducible apply Keeps.foldl
      | with_reducible apply ih
      | with_reducible apply State.updAdmits_keeps
      | with_reducible apply State.rootTake_keeps
      | with_reducible apply State.release_keeps
      | with_reducible apply Keeps.onColl
      | split
      | with_reducible apply PortLe.discardOne
      | with_reducible apply PortLe.setOwes
      | (intro _; exact ⟨⟨by simp, by simp, by simp, by simp⟩, rfl, rfl⟩)
      | intro _
      | dsimp only

theorem State.downPump_keeps {q : Nat → Bool} {s u : State} (h : Keeps q s u) (x0 : Nat) (x2 : BitVec 12) (x3 : Word) (x4 : Nat) :
    Keeps q s (State.downPump x0 u x2 x3 x4) := by
  induction x0 generalizing u x2 x3 x4 with
  | zero => unfold State.downPump; exact h
  | succ n ih =>
    unfold State.downPump
    repeat' first
      | with_reducible assumption
      | with_reducible apply Keeps.foldl
      | with_reducible apply ih
      | with_reducible apply State.deliverWale_keeps
      | with_reducible apply Keeps.onColl
      | split
      | with_reducible apply PortLe.discardOne
      | with_reducible apply PortLe.setOwes
      | (intro _; exact ⟨⟨by simp, by simp, by simp, by simp⟩, rfl, rfl⟩)
      | intro _
      | dsimp only

theorem State.downAll_keeps {q : Nat → Bool} {s u : State} (h : Keeps q s u) (x1 : BitVec 12) (x2 : Word) :
    Keeps q s (State.downAll u x1 x2) := by
  unfold State.downAll
  repeat' first
    | with_reducible assumption
    | with_reducible apply Keeps.foldl
    | with_reducible apply State.downPump_keeps
    | split
    | with_reducible apply PortLe.discardOne
    | with_reducible apply PortLe.setOwes
    | (intro _; exact ⟨⟨by simp, by simp, by simp, by simp⟩, rfl, rfl⟩)
    | intro _
    | dsimp only

theorem State.advance_keeps {q : Nat → Bool} {s u : State} (h : Keeps q s u) (x1 : BitVec 12) (x2 : Word) :
    Keeps q s (State.advance u x1 x2) := by
  unfold State.advance
  repeat' first
    | with_reducible assumption
    | with_reducible apply Keeps.foldl
    | with_reducible apply State.downAll_keeps
    | with_reducible apply State.rootPump_keeps
    | with_reducible apply State.fpTry_keeps
    | with_reducible apply State.closeTry_keeps
    | split
    | with_reducible apply PortLe.discardOne
    | with_reducible apply PortLe.setOwes
    | (intro _; exact ⟨⟨by simp, by simp, by simp, by simp⟩, rfl, rfl⟩)
    | intro _
    | dsimp only

theorem State.purge_keeps {q : Nat → Bool} {s u : State} (h : Keeps q s u) (x1 : BitVec 12) (x2 : Word) :
    Keeps q s (State.purge u x1 x2) := by
  unfold State.purge
  repeat' first
    | with_reducible assumption
    | with_reducible apply Keeps.foldl
    | with_reducible apply Keeps.onStake
    | with_reducible apply Keeps.setStake
    | split
    | with_reducible apply PortLe.discardOne
    | with_reducible apply PortLe.setOwes
    | (intro _; exact ⟨⟨by simp, by simp, by simp, by simp⟩, rfl, rfl⟩)
    | intro _
    | dsimp only

theorem State.endColl_keeps {q : Nat → Bool} {s u : State} (h : Keeps q s u) (x1 : BitVec 12) (x2 : Word) (x3 : BitVec 8) :
    Keeps q s (State.endColl u x1 x2 x3) := by
  unfold State.endColl
  repeat' first
    | with_reducible assumption
    | with_reducible apply Keeps.foldl
    | with_reducible apply State.purge_keeps
    | with_reducible apply Keeps.onColl
    | split
    | with_reducible apply PortLe.discardOne
    | with_reducible apply PortLe.setOwes
    | (intro _; exact ⟨⟨by simp, by simp, by simp, by simp⟩, rfl, rfl⟩)
    | intro _
    | dsimp only

theorem State.endIdle_keeps {q : Nat → Bool} {s u : State} (h : Keeps q s u) (x1 : Nat) :
    Keeps q s (State.endIdle u x1) := by
  unfold State.endIdle
  repeat' first
    | with_reducible assumption
    | with_reducible apply Keeps.foldl
    | with_reducible apply State.finishDesc_keeps
    | with_reducible apply State.popBind_keeps
    | with_reducible apply State.dropBind_keeps
    | split
    | with_reducible apply PortLe.discardOne
    | with_reducible apply PortLe.setOwes
    | (intro _; exact ⟨⟨by simp, by simp, by simp, by simp⟩, rfl, rfl⟩)
    | intro _
    | dsimp only

theorem State.dropIdle_keeps {q : Nat → Bool} {s u : State} (h : Keeps q s u) (x1 : BitVec 12) (x2 : Word) :
    Keeps q s (State.dropIdle u x1 x2) := by
  unfold State.dropIdle
  repeat' first
    | with_reducible assumption
    | with_reducible apply Keeps.foldl
    | with_reducible apply State.endIdle_keeps
    | with_reducible apply Keeps.onChan
    | split
    | with_reducible apply PortLe.discardOne
    | with_reducible apply PortLe.setOwes
    | (intro _; exact ⟨⟨by simp, by simp, by simp, by simp⟩, rfl, rfl⟩)
    | intro _
    | dsimp only

theorem State.endBinds_keeps {q : Nat → Bool} {s u : State} (h : Keeps q s u) (x1 : BitVec 12) (x2 : Word) :
    Keeps q s (State.endBinds u x1 x2) := by
  unfold State.endBinds
  repeat' first
    | with_reducible assumption
    | with_reducible apply Keeps.foldl
    | with_reducible apply State.halt_keeps
    | split
    | with_reducible apply PortLe.discardOne
    | with_reducible apply PortLe.setOwes
    | (intro _; exact ⟨⟨by simp, by simp, by simp, by simp⟩, rfl, rfl⟩)
    | intro _
    | dsimp only

theorem State.oweRest_keeps {q : Nat → Bool} {s u : State} (h : Keeps q s u) (x1 : Coll) (x2 : Member) :
    Keeps q s (State.oweRest u x1 x2) := by
  unfold State.oweRest
  repeat' first
    | with_reducible assumption
    | with_reducible apply Keeps.foldl
    | with_reducible apply Keeps.onPort
    | split
    | with_reducible apply PortLe.discardOne
    | with_reducible apply PortLe.setOwes
    | (intro _; exact ⟨⟨by simp, by simp, by simp, by simp⟩, rfl, rfl⟩)
    | intro _
    | dsimp only

theorem State.putTok_keeps {q : Nat → Bool} {s u : State} (h : Keeps q s u) (x1 : Nat) (x2 : BitVec 12) (x3 : Word) (x4 : List Word) :
    Keeps q s (State.putTok u x1 x2 x3 x4) := by
  unfold State.putTok
  repeat' first
    | with_reducible assumption
    | with_reducible apply Keeps.foldl
    | with_reducible apply Keeps.onPort
    | split
    | with_reducible apply PortLe.discardOne
    | with_reducible apply PortLe.setOwes
    | (intro _; exact ⟨⟨by simp, by simp, by simp, by simp⟩, rfl, rfl⟩)
    | intro _
    | dsimp only

theorem State.endMember_keeps {q : Nat → Bool} {s u : State} (h : Keeps q s u) (x1 : Coll) (x2 : Member) (x3 : List Word) :
    Keeps q s (State.endMember u x1 x2 x3) := by
  unfold State.endMember
  repeat' first
    | with_reducible assumption
    | with_reducible apply Keeps.foldl
    | with_reducible apply State.putTok_keeps
    | with_reducible apply State.oweRest_keeps
    | with_reducible apply State.rxWale_keeps
    | with_reducible apply State.giveSink_keeps
    | with_reducible apply Keeps.onColl
    | split
    | with_reducible apply PortLe.discardOne
    | with_reducible apply PortLe.setOwes
    | (intro _; exact ⟨⟨by simp, by simp, by simp, by simp⟩, rfl, rfl⟩)
    | intro _
    | dsimp only

theorem State.sealLost_keeps {q : Nat → Bool} {s u : State} (h : Keeps q s u) (x1 : BitVec 12) (x2 : Word) (x3 : Nat) :
    Keeps q s (State.sealLost u x1 x2 x3) := by
  unfold State.sealLost
  repeat' first
    | with_reducible assumption
    | with_reducible apply Keeps.foldl
    | with_reducible apply Keeps.onPort
    | with_reducible apply Keeps.onColl
    | with_reducible apply Keeps.logEv
    | with_reducible apply Keeps.attnBit
    | split
    | with_reducible apply PortLe.discardOne
    | with_reducible apply PortLe.setOwes
    | (intro _; exact ⟨⟨by simp, by simp, by simp, by simp⟩, rfl, rfl⟩)
    | intro _
    | dsimp only

theorem State.timeoutSite_keeps {q : Nat → Bool} {s u : State} (h : Keeps q s u) (x1 : Coll) :
    Keeps q s (State.timeoutSite u x1) := by
  unfold State.timeoutSite
  repeat' first
    | with_reducible assumption
    | with_reducible apply Keeps.foldl
    | with_reducible apply Keeps.logEv
    | split
    | with_reducible apply PortLe.discardOne
    | with_reducible apply PortLe.setOwes
    | (intro _; exact ⟨⟨by simp, by simp, by simp, by simp⟩, rfl, rfl⟩)
    | intro _
    | dsimp only

theorem State.tokenHere_keeps {q : Nat → Bool} {s u : State} (h : Keeps q s u) (x1 : BitVec 12) (x2 : Word) (x3 : List Word) (x4 : Bool) :
    Keeps q s (State.tokenHere u x1 x2 x3 x4) := by
  unfold State.tokenHere
  repeat' first
    | with_reducible assumption
    | with_reducible apply Keeps.foldl
    | with_reducible apply State.timeoutSite_keeps
    | with_reducible apply State.sealLost_keeps
    | with_reducible apply State.endMember_keeps
    | with_reducible apply State.endBinds_keeps
    | with_reducible apply State.dropIdle_keeps
    | with_reducible apply Keeps.onColl
    | split
    | with_reducible apply PortLe.discardOne
    | with_reducible apply PortLe.setOwes
    | (intro _; exact ⟨⟨by simp, by simp, by simp, by simp⟩, rfl, rfl⟩)
    | intro _
    | dsimp only

theorem State.tokChain_keeps {q : Nat → Bool} {s u : State} (h : Keeps q s u) (x1 : BitVec 12) (x2 : Word) (x3 : Chain) (x4 : List Word) (x5 : List Word) :
    Keeps q s (State.tokChain u x1 x2 x3 x4 x5) := by
  unfold State.tokChain
  repeat' first
    | with_reducible assumption
    | with_reducible apply Keeps.foldl
    | with_reducible apply State.tokenHere_keeps
    | with_reducible apply State.endColl_keeps
    | with_reducible apply State.reap_keeps
    | with_reducible apply State.sendEdge_keeps
    | with_reducible apply State.updPut_keeps
    | with_reducible apply Keeps.onColl
    | split
    | with_reducible apply PortLe.discardOne
    | with_reducible apply PortLe.setOwes
    | (intro _; exact ⟨⟨by simp, by simp, by simp, by simp⟩, rfl, rfl⟩)
    | intro _
    | dsimp only

theorem State.tokTry_keeps {q : Nat → Bool} {s u : State} (h : Keeps q s u) (x1 : BitVec 12) (x2 : Word) :
    Keeps q s (State.tokTry u x1 x2) := by
  unfold State.tokTry
  repeat' first
    | with_reducible assumption
    | with_reducible apply Keeps.foldl
    | with_reducible apply State.tokChain_keeps
    | with_reducible apply Keeps.onColl
    | split
    | with_reducible apply PortLe.discardOne
    | with_reducible apply PortLe.setOwes
    | (intro _; exact ⟨⟨by simp, by simp, by simp, by simp⟩, rfl, rfl⟩)
    | intro _
    | dsimp only

theorem State.push_keeps {q : Nat → Bool} {s u : State} (h : Keeps q s u) (x1 : BitVec 12) (x2 : Word) :
    Keeps q s (State.push u x1 x2) := by
  unfold State.push
  repeat' first
    | with_reducible assumption
    | with_reducible apply Keeps.foldl
    | with_reducible apply State.tokTry_keeps
    | with_reducible apply State.advance_keeps
    | with_reducible apply State.exAdvance_keeps
    | split
    | with_reducible apply PortLe.discardOne
    | with_reducible apply PortLe.setOwes
    | (intro _; exact ⟨⟨by simp, by simp, by simp, by simp⟩, rfl, rfl⟩)
    | intro _
    | dsimp only

theorem State.exFin_keeps {q : Nat → Bool} {s u : State} (h : Keeps q s u) (x1 : BitVec 12) (x2 : Word) (x3 : Nat) :
    Keeps q s (State.exFin u x1 x2 x3) := by
  unfold State.exFin
  repeat' first
    | with_reducible assumption
    | with_reducible apply Keeps.foldl
    | with_reducible apply Keeps.onColl
    | split
    | with_reducible apply PortLe.discardOne
    | with_reducible apply PortLe.setOwes
    | (intro _; exact ⟨⟨by simp, by simp, by simp, by simp⟩, rfl, rfl⟩)
    | intro _
    | dsimp only

theorem State.exEarly_keeps {q : Nat → Bool} {s u : State} (h : Keeps q s u) (x1 : BitVec 12) (x2 : Word) (x3 : Nat) :
    Keeps q s (State.exEarly u x1 x2 x3) := by
  unfold State.exEarly
  repeat' first
    | with_reducible assumption
    | with_reducible apply Keeps.foldl
    | with_reducible apply State.exAccept_keeps
    | with_reducible apply State.onEx_keeps
    | split
    | with_reducible apply PortLe.discardOne
    | with_reducible apply PortLe.setOwes
    | (intro _; exact ⟨⟨by simp, by simp, by simp, by simp⟩, rfl, rfl⟩)
    | intro _
    | dsimp only

theorem State.exTerm_keeps {q : Nat → Bool} {s u : State} (h : Keeps q s u) (x1 : BitVec 12) (x2 : Word) (x3 : Nat) (x4 : List Byte) :
    Keeps q s (State.exTerm u x1 x2 x3 x4) := by
  unfold State.exTerm
  repeat' first
    | with_reducible assumption
    | with_reducible apply Keeps.foldl
    | with_reducible apply Keeps.onColl
    | split
    | with_reducible apply PortLe.discardOne
    | with_reducible apply PortLe.setOwes
    | (intro _; exact ⟨⟨by simp, by simp, by simp, by simp⟩, rfl, rfl⟩)
    | intro _
    | dsimp only

theorem State.exToken_keeps {q : Nat → Bool} {s u : State} (h : Keeps q s u) (x1 : BitVec 12) (x2 : Word) (x3 : Nat) (x4 : Nat) (x5 : List (List Byte)) :
    Keeps q s (State.exToken u x1 x2 x3 x4 x5) := by
  unfold State.exToken
  repeat' first
    | with_reducible assumption
    | with_reducible apply Keeps.foldl
    | with_reducible apply State.exCount_keeps
    | with_reducible apply State.exDeliver_keeps
    | with_reducible apply State.onEx_keeps
    | split
    | with_reducible apply PortLe.discardOne
    | with_reducible apply PortLe.setOwes
    | (intro _; exact ⟨⟨by simp, by simp, by simp, by simp⟩, rfl, rfl⟩)
    | intro _
    | dsimp only

theorem State.exList_keeps {q : Nat → Bool} {s u : State} (h : Keeps q s u) (x1 : BitVec 12) (x2 : Word) (x3 : Nat) (x4 : List Byte) :
    Keeps q s (State.exList u x1 x2 x3 x4) := by
  unfold State.exList
  repeat' first
    | with_reducible assumption
    | with_reducible apply Keeps.foldl
    | with_reducible apply State.exToken_keeps
    | with_reducible apply State.exTerm_keeps
    | with_reducible apply State.exEarly_keeps
    | with_reducible apply State.onEx_keeps
    | split
    | with_reducible apply PortLe.discardOne
    | with_reducible apply PortLe.setOwes
    | (intro _; exact ⟨⟨by simp, by simp, by simp, by simp⟩, rfl, rfl⟩)
    | intro _
    | dsimp only

theorem State.exHeader_keeps {q : Nat → Bool} {s u : State} (h : Keeps q s u) (x1 : BitVec 12) (x2 : Word) (x3 : Nat) (x4 : List Byte) :
    Keeps q s (State.exHeader u x1 x2 x3 x4) := by
  unfold State.exHeader
  repeat' first
    | with_reducible assumption
    | with_reducible apply Keeps.foldl
    | with_reducible apply State.exList_keeps
    | with_reducible apply State.exEarly_keeps
    | with_reducible apply State.exFin_keeps
    | with_reducible apply State.exMismatch_keeps
    | with_reducible apply State.onEx_keeps
    | with_reducible apply State.exCorrupt_keeps
    | split
    | with_reducible apply PortLe.discardOne
    | with_reducible apply PortLe.setOwes
    | (intro _; exact ⟨⟨by simp, by simp, by simp, by simp⟩, rfl, rfl⟩)
    | intro _
    | dsimp only

theorem State.exOwn_keeps {q : Nat → Bool} {s u : State} (h : Keeps q s u) (x1 : BitVec 12) (x2 : Word) (x3 : Nat) (x4 : List Byte) (x5 : List (List Byte)) :
    Keeps q s (State.exOwn u x1 x2 x3 x4 x5) := by
  unfold State.exOwn
  repeat' first
    | with_reducible assumption
    | with_reducible apply Keeps.foldl
    | with_reducible apply State.exTerm_keeps
    | with_reducible apply State.exPlace_keeps
    | with_reducible apply State.exSend_keeps
    | with_reducible apply State.exMismatch_keeps
    | with_reducible apply State.onEx_keeps
    | split
    | with_reducible apply PortLe.discardOne
    | with_reducible apply PortLe.setOwes
    | (intro _; exact ⟨⟨by simp, by simp, by simp, by simp⟩, rfl, rfl⟩)
    | intro _
    | dsimp only

theorem State.exSupply_keeps {q : Nat → Bool} {s u : State} (h : Keeps q s u) (x1 : BitVec 12) (x2 : Word) (x3 : Nat) (x4 : List Byte) :
    Keeps q s (State.exSupply u x1 x2 x3 x4) := by
  unfold State.exSupply
  repeat' first
    | with_reducible assumption
    | with_reducible apply Keeps.foldl
    | with_reducible apply State.exOwn_keeps
    | with_reducible apply State.exHeader_keeps
    | with_reducible apply State.onEx_keeps
    | with_reducible apply Keeps.onColl
    | split
    | with_reducible apply PortLe.discardOne
    | with_reducible apply PortLe.setOwes
    | (intro _; exact ⟨⟨by simp, by simp, by simp, by simp⟩, rfl, rfl⟩)
    | intro _
    | dsimp only

theorem State.countWale_keeps {q : Nat → Bool} {s u : State} (h : Keeps q s u) (x1 : Coll) (x2 : Member) (x3 : List Byte) :
    Keeps q s (State.countWale u x1 x2 x3) := by
  unfold State.countWale
  repeat' first
    | with_reducible assumption
    | with_reducible apply Keeps.foldl
    | with_reducible apply Keeps.onColl
    | split
    | with_reducible apply PortLe.discardOne
    | with_reducible apply PortLe.setOwes
    | (intro _; exact ⟨⟨by simp, by simp, by simp, by simp⟩, rfl, rfl⟩)
    | intro _
    | dsimp only

theorem State.handTo_keeps {q : Nat → Bool} {s u : State} (h : Keeps q s u) (x1 : Coll) (x2 : Tgt) (x3 : Option Nat) (x4 : WaleV) :
    Keeps q s (State.handTo u x1 x2 x3 x4) := by
  unfold State.handTo
  repeat' first
    | with_reducible assumption
    | with_reducible apply Keeps.foldl
    | with_reducible apply State.rootArrive_keeps
    | with_reducible apply State.orFail_keeps
    | with_reducible apply Keeps.onColl
    | exact True.intro
    | with_reducible apply State.sendSeg_keeps
    | (refine Sent.Keeps.ok (State.sendSeg_keeps ?_ _ _ _ _ _ _ _ _ _ _) (by assumption))
    | split
    | with_reducible apply PortLe.discardOne
    | with_reducible apply PortLe.setOwes
    | (intro _; exact ⟨⟨by simp, by simp, by simp, by simp⟩, rfl, rfl⟩)
    | intro _
    | dsimp only

theorem State.forward_keeps {q : Nat → Bool} {s u : State} (h : Keeps q s u) (x1 : Coll) (x2 : List Nat × Tgt) (x3 : Option Nat) (x4 : WaleV) :
    Keeps q s (State.forward u x1 x2 x3 x4) := by
  unfold State.forward
  repeat' first
    | with_reducible assumption
    | with_reducible apply Keeps.foldl
    | with_reducible apply State.handTo_keeps
    | with_reducible apply State.residue_keeps
    | with_reducible apply Keeps.onColl
    | split
    | with_reducible apply PortLe.discardOne
    | with_reducible apply PortLe.setOwes
    | (intro _; exact ⟨⟨by simp, by simp, by simp, by simp⟩, rfl, rfl⟩)
    | intro _
    | dsimp only

theorem State.stepTo_keeps {q : Nat → Bool} {s u : State} (h : Keeps q s u) (x1 : Coll) (x2 : Tgt) (x3 : BitVec 64 × BitVec 64) :
    Keeps q s (State.stepTo u x1 x2 x3) := by
  unfold State.stepTo
  repeat' first
    | with_reducible assumption
    | with_reducible apply Keeps.foldl
    | with_reducible apply State.takeStep_keeps
    | with_reducible apply State.orFail_keeps
    | with_reducible apply Keeps.onColl
    | exact True.intro
    | with_reducible apply State.sendSeg_keeps
    | (refine Sent.Keeps.ok (State.sendSeg_keeps ?_ _ _ _ _ _ _ _ _ _ _) (by assumption))
    | split
    | with_reducible apply PortLe.discardOne
    | with_reducible apply PortLe.setOwes
    | (intro _; exact ⟨⟨by simp, by simp, by simp, by simp⟩, rfl, rfl⟩)
    | intro _
    | dsimp only

theorem State.passSteps_keeps {q : Nat → Bool} {s u : State} (h : Keeps q s u) (x0 : Nat) (x2 : BitVec 12) (x3 : Word) :
    Keeps q s (State.passSteps x0 u x2 x3) := by
  induction x0 generalizing u x2 x3 with
  | zero => unfold State.passSteps; exact h
  | succ n ih =>
    unfold State.passSteps
    repeat' first
      | with_reducible assumption
      | with_reducible apply Keeps.foldl
      | with_reducible apply ih
      | with_reducible apply State.stepTo_keeps
      | with_reducible apply Keeps.onColl
      | split
      | with_reducible apply PortLe.discardOne
      | with_reducible apply PortLe.setOwes
      | (intro _; exact ⟨⟨by simp, by simp, by simp, by simp⟩, rfl, rfl⟩)
      | intro _
      | dsimp only

theorem State.contribute_keeps {q : Nat → Bool} {s u : State} (h : Keeps q s u) (x1 : Coll) (x2 : Member) (x3 : List Byte) :
    Keeps q s (State.contribute u x1 x2 x3) := by
  unfold State.contribute
  repeat' first
    | with_reducible assumption
    | with_reducible apply Keeps.foldl
    | with_reducible apply State.passSteps_keeps
    | with_reducible apply State.stepTo_keeps
    | with_reducible apply State.forward_keeps
    | with_reducible apply State.countWale_keeps
    | with_reducible apply State.release_keeps
    | with_reducible apply State.residue_keeps
    | with_reducible apply Keeps.onColl
    | split
    | with_reducible apply PortLe.discardOne
    | with_reducible apply PortLe.setOwes
    | (intro _; exact ⟨⟨by simp, by simp, by simp, by simp⟩, rfl, rfl⟩)
    | intro _
    | dsimp only

theorem State.supply_keeps {q : Nat → Bool} {s u : State} (h : Keeps q s u) (x1 : Coll) (x2 : Member) (x3 : List Byte) :
    Keeps q s (State.supply u x1 x2 x3) := by
  unfold State.supply
  repeat' first
    | with_reducible assumption
    | with_reducible apply Keeps.foldl
    | with_reducible apply State.contribute_keeps
    | with_reducible apply State.exSupply_keeps
    | with_reducible apply State.push_keeps
    | split
    | with_reducible apply PortLe.discardOne
    | with_reducible apply PortLe.setOwes
    | (intro _; exact ⟨⟨by simp, by simp, by simp, by simp⟩, rfl, rfl⟩)
    | intro _
    | dsimp only

theorem State.stray_keeps {q : Nat → Bool} {s u : State} (h : Keeps q s u) (x1 : Nat) (x2 : BitVec 12) :
    Keeps q s (State.stray u x1 x2) := by
  unfold State.stray
  repeat' first
    | with_reducible assumption
    | with_reducible apply Keeps.foldl
    | with_reducible apply Keeps.logEv
    | with_reducible apply Keeps.attnBit
    | split
    | with_reducible apply PortLe.discardOne
    | with_reducible apply PortLe.setOwes
    | (intro _; exact ⟨⟨by simp, by simp, by simp, by simp⟩, rfl, rfl⟩)
    | intro _
    | dsimp only

theorem State.sendWale_keeps {q : Nat → Bool} {s u : State} (h : Keeps q s u) (x1 : Nat) (x2 : BitVec 12) (x3 : List Byte) :
    Keeps q s (State.sendWale u x1 x2 x3) := by
  unfold State.sendWale
  repeat' first
    | with_reducible assumption
    | with_reducible apply Keeps.foldl
    | with_reducible apply State.stray_keeps
    | with_reducible apply State.supply_keeps
    | with_reducible apply State.opportunity_keeps
    | with_reducible apply Keeps.onPort
    | split
    | with_reducible apply PortLe.discardOne
    | with_reducible apply PortLe.setOwes
    | (intro _; exact ⟨⟨by simp, by simp, by simp, by simp⟩, rfl, rfl⟩)
    | intro _
    | dsimp only

theorem State.retryHeld_keeps {q : Nat → Bool} {s u : State} (h : Keeps q s u) (x1 : Nat) :
    Keeps q s (State.retryHeld u x1) := by
  unfold State.retryHeld
  repeat' first
    | with_reducible assumption
    | with_reducible apply Keeps.foldl
    | with_reducible apply State.sendWale_keeps
    | with_reducible apply Keeps.onPort
    | split
    | with_reducible apply PortLe.discardOne
    | with_reducible apply PortLe.setOwes
    | (intro _; exact ⟨⟨by simp, by simp, by simp, by simp⟩, rfl, rfl⟩)
    | intro _
    | dsimp only

theorem State.takeBeat_keeps {q : Nat → Bool} {s u : State} (h : Keeps q s u) (x1 : Nat) :
    Keeps q s (State.takeBeat u x1) := by
  unfold State.takeBeat
  repeat' first
    | with_reducible assumption
    | with_reducible apply Keeps.foldl
    | with_reducible apply Keeps.setChan
    | split
    | with_reducible apply PortLe.discardOne
    | with_reducible apply PortLe.setOwes
    | (intro _; exact ⟨⟨by simp, by simp, by simp, by simp⟩, rfl, rfl⟩)
    | intro _
    | dsimp only

theorem State.feedEnd_keeps {q : Nat → Bool} {s u : State} (h : Keeps q s u) (x1 : Nat) :
    Keeps q s (State.feedEnd u x1) := by
  unfold State.feedEnd
  repeat' first
    | with_reducible assumption
    | with_reducible apply Keeps.foldl
    | with_reducible apply State.finishDesc_keeps
    | split
    | with_reducible apply PortLe.discardOne
    | with_reducible apply PortLe.setOwes
    | (intro _; exact ⟨⟨by simp, by simp, by simp, by simp⟩, rfl, rfl⟩)
    | intro _
    | dsimp only

theorem State.feedPump_keeps {q : Nat → Bool} {s u : State} (h : Keeps q s u) (x0 : Nat) (x2 : Nat) :
    Keeps q s (State.feedPump x0 u x2) := by
  induction x0 generalizing u x2 with
  | zero => unfold State.feedPump; exact h
  | succ n ih =>
    unfold State.feedPump
    repeat' first
      | with_reducible assumption
      | with_reducible apply Keeps.foldl
      | with_reducible apply ih
      | with_reducible apply State.feedEnd_keeps
      | with_reducible apply State.takeBeat_keeps
      | with_reducible apply State.supply_keeps
      | with_reducible apply State.opportunity_keeps
      | with_reducible apply State.popBind_keeps
      | with_reducible apply Keeps.setChan
      | split
      | with_reducible apply PortLe.discardOne
      | with_reducible apply PortLe.setOwes
      | (intro _; exact ⟨⟨by simp, by simp, by simp, by simp⟩, rfl, rfl⟩)
      | intro _
      | dsimp only

theorem State.chanFlow_keeps {q : Nat → Bool} {s u : State} (h : Keeps q s u) (x1 : Nat) :
    Keeps q s (State.chanFlow u x1) := by
  unfold State.chanFlow
  repeat' first
    | with_reducible assumption
    | with_reducible apply Keeps.foldl
    | with_reducible apply State.feedPump_keeps
    | with_reducible apply State.sinkEnd_keeps
    | with_reducible apply State.fillChan_keeps
    | with_reducible apply Keeps.onChan
    | split
    | with_reducible apply PortLe.discardOne
    | with_reducible apply PortLe.setOwes
    | (intro _; exact ⟨⟨by simp, by simp, by simp, by simp⟩, rfl, rfl⟩)
    | intro _
    | dsimp only

theorem State.flowOnce_keeps {q : Nat → Bool} {s u : State} (h : Keeps q s u)  :
    Keeps q s (State.flowOnce u) := by
  unfold State.flowOnce
  repeat' first
    | with_reducible assumption
    | with_reducible apply Keeps.foldl
    | with_reducible apply State.chanFlow_keeps
    | with_reducible apply State.retryHeld_keeps
    | with_reducible apply State.push_keeps
    | split
    | with_reducible apply PortLe.discardOne
    | with_reducible apply PortLe.setOwes
    | (intro _; exact ⟨⟨by simp, by simp, by simp, by simp⟩, rfl, rfl⟩)
    | intro _
    | dsimp only

theorem State.routeFault_keeps {q : Nat → Bool} {s u : State} (h : Keeps q s u) (x1 : Nat) (x2 : RxHeld) (x3 : BitVec 12) (x4 : Word) (x5 : Nat) :
    Keeps q s (State.routeFault u x1 x2 x3 x4 x5) := by
  unfold State.routeFault
  repeat' first
    | with_reducible assumption
    | with_reducible apply Keeps.foldl
    | with_reducible apply State.report_keeps
    | with_reducible apply State.logRoute_keeps
    | split
    | with_reducible apply PortLe.discardOne
    | with_reducible apply PortLe.setOwes
    | (intro _; exact ⟨⟨by simp, by simp, by simp, by simp⟩, rfl, rfl⟩)
    | intro _
    | dsimp only

theorem State.passMarkers_keeps {q : Nat → Bool} {s u : State} (h : Keeps q s u) (x0 : Nat) (x2 : BitVec 12) (x3 : Word) :
    Keeps q s (State.passMarkers x0 u x2 x3) := by
  induction x0 generalizing u x2 x3 with
  | zero => unfold State.passMarkers; exact h
  | succ n ih =>
    unfold State.passMarkers
    repeat' first
      | with_reducible assumption
      | with_reducible apply Keeps.foldl
      | with_reducible apply ih
      | with_reducible apply State.forward_keeps
      | with_reducible apply Keeps.onColl
      | split
      | with_reducible apply PortLe.discardOne
      | with_reducible apply PortLe.setOwes
      | (intro _; exact ⟨⟨by simp, by simp, by simp, by simp⟩, rfl, rfl⟩)
      | intro _
      | dsimp only

theorem State.badSeg_keeps {q : Nat → Bool} {s u : State} (h : Keeps q s u) (x1 : Nat) (x2 : BitVec 12) (x3 : Word) (x4 : Bool) :
    Keeps q s (State.badSeg u x1 x2 x3 x4) := by
  unfold State.badSeg
  repeat' first
    | with_reducible assumption
    | with_reducible apply Keeps.foldl
    | with_reducible apply State.report_keeps
    | with_reducible apply Keeps.onStake
    | split
    | with_reducible apply PortLe.discardOne
    | with_reducible apply PortLe.setOwes
    | (intro _; exact ⟨⟨by simp, by simp, by simp, by simp⟩, rfl, rfl⟩)
    | intro _
    | dsimp only

theorem State.badWord_keeps {q : Nat → Bool} {s u : State} (h : Keeps q s u) (x1 : Nat) (x2 : Coll) (x3 : Nat) (x4 : Nat) :
    Keeps q s (State.badWord u x1 x2 x3 x4) := by
  unfold State.badWord
  repeat' first
    | with_reducible assumption
    | with_reducible apply Keeps.foldl
    | with_reducible apply State.residue_keeps
    | with_reducible apply Keeps.onStake
    | split
    | with_reducible apply PortLe.discardOne
    | with_reducible apply PortLe.setOwes
    | (intro _; exact ⟨⟨by simp, by simp, by simp, by simp⟩, rfl, rfl⟩)
    | intro _
    | dsimp only

theorem State.markerArrive_keeps {q : Nat → Bool} {s u : State} (h : Keeps q s u) (x1 : Coll) (x2 : Nat) (x3 : Nat) (x4 : List Byte) :
    Keeps q s (State.markerArrive u x1 x2 x3 x4) := by
  unfold State.markerArrive
  repeat' first
    | with_reducible assumption
    | with_reducible apply Keeps.foldl
    | with_reducible apply State.passMarkers_keeps
    | with_reducible apply State.passSteps_keeps
    | with_reducible apply Keeps.onColl
    | split
    | with_reducible apply PortLe.discardOne
    | with_reducible apply PortLe.setOwes
    | (intro _; exact ⟨⟨by simp, by simp, by simp, by simp⟩, rfl, rfl⟩)
    | intro _
    | dsimp only

theorem State.waleArrive_keeps {q : Nat → Bool} {s u : State} (h : Keeps q s u) (x1 : Coll) (x2 : Nat) (x3 : Nat) (x4 : Nat) (x5 : WaleV) :
    Keeps q s (State.waleArrive u x1 x2 x3 x4 x5) := by
  unfold State.waleArrive
  repeat' first
    | with_reducible assumption
    | with_reducible apply Keeps.foldl
    | with_reducible apply Keeps.onColl
    | split
    | with_reducible apply PortLe.discardOne
    | with_reducible apply PortLe.setOwes
    | (intro _; exact ⟨⟨by simp, by simp, by simp, by simp⟩, rfl, rfl⟩)
    | intro _
    | dsimp only

theorem State.partialArrive_keeps {q : Nat → Bool} {s u : State} (h : Keeps q s u) (x1 : Nat) (x2 : RxHeld) (x3 : Seg) :
    Keeps q s (State.partialArrive u x1 x2 x3) := by
  unfold State.partialArrive
  repeat' first
    | with_reducible assumption
    | with_reducible apply Keeps.foldl
    | with_reducible apply State.waleArrive_keeps
    | with_reducible apply State.markerArrive_keeps
    | with_reducible apply State.badWord_keeps
    | with_reducible apply State.badSeg_keeps
    | with_reducible apply State.routeFault_keeps
    | split
    | with_reducible apply PortLe.discardOne
    | with_reducible apply PortLe.setOwes
    | (intro _; exact ⟨⟨by simp, by simp, by simp, by simp⟩, rfl, rfl⟩)
    | intro _
    | dsimp only

theorem State.retake_keeps {q : Nat → Bool} {s u : State} (h : Keeps q s u) (x1 : Coll) :
    Keeps q s (State.retake u x1) := by
  unfold State.retake
  repeat' first
    | with_reducible assumption
    | with_reducible apply Keeps.foldl
    | with_reducible apply Keeps.putColl
    | split
    | with_reducible refine Keeps.adm ?_ _
    | with_reducible apply PortLe.discardOne
    | with_reducible apply PortLe.setOwes
    | (intro _; exact ⟨⟨by simp, by simp, by simp, by simp⟩, rfl, rfl⟩)
    | intro _
    | dsimp only

theorem State.relayReserve_keeps {q : Nat → Bool} {s u : State} (h : Keeps q s u) (x1 : BitVec 12) (x2 : Word) (x3 : List Word) (x4 : BitVec 16) (x5 : Nat) (x6 : Nat) (x7 : Nat) :
    Keeps q s (State.relayReserve u x1 x2 x3 x4 x5 x6 x7) := by
  unfold State.relayReserve
  repeat' first
    | with_reducible assumption
    | with_reducible apply Keeps.foldl
    | with_reducible apply State.retake_keeps
    | with_reducible apply Keeps.putColl
    | split
    | with_reducible apply PortLe.discardOne
    | with_reducible apply PortLe.setOwes
    | (intro _; exact ⟨⟨by simp, by simp, by simp, by simp⟩, rfl, rfl⟩)
    | intro _
    | dsimp only

theorem State.activate_keeps {q : Nat → Bool} {s u : State} (h : Keeps q s u) (x1 : BitVec 12) (x2 : Word) :
    Keeps q s (State.activate u x1 x2) := by
  unfold State.activate
  repeat' first
    | with_reducible assumption
    | with_reducible apply Keeps.foldl
    | with_reducible apply State.checkBind_keeps
    | with_reducible apply Keeps.setChan
    | split
    | with_reducible apply PortLe.discardOne
    | with_reducible apply PortLe.setOwes
    | (intro _; exact ⟨⟨by simp, by simp, by simp, by simp⟩, rfl, rfl⟩)
    | intro _
    | dsimp only

theorem State.chargeVc1_keeps {q : Nat → Bool} {s u : State} (h : Keeps q s u) (x1 : Coll) :
    Keeps q s (State.chargeVc1 u x1) := by
  unfold State.chargeVc1
  repeat' first
    | with_reducible assumption
    | with_reducible apply Keeps.foldl
    | split
    | with_reducible refine Keeps.colls ?_ _
    | with_reducible apply PortLe.discardOne
    | with_reducible apply PortLe.setOwes
    | (intro _; exact ⟨⟨by simp, by simp, by simp, by simp⟩, rfl, rfl⟩)
    | intro _
    | dsimp only

theorem State.startMember_keeps {q : Nat → Bool} {s u : State} (h : Keeps q s u) (x1 : BitVec 12) (x2 : Word) (x3 : Member) :
    Keeps q s (State.startMember u x1 x2 x3) := by
  unfold State.startMember
  repeat' first
    | with_reducible assumption
    | with_reducible apply Keeps.foldl
    | with_reducible apply State.passMarkers_keeps
    | with_reducible apply State.passSteps_keeps
    | with_reducible apply State.forward_keeps
    | with_reducible apply State.status_keeps
    | with_reducible apply Keeps.onColl
    | split
    | with_reducible apply PortLe.discardOne
    | with_reducible apply PortLe.setOwes
    | (intro _; exact ⟨⟨by simp, by simp, by simp, by simp⟩, rfl, rfl⟩)
    | intro _
    | dsimp only

theorem State.openColl_keeps {q : Nat → Bool} {s u : State} (h : Keeps q s u) (x1 : BitVec 12) (x2 : Word) :
    Keeps q s (State.openColl u x1 x2) := by
  unfold State.openColl
  repeat' first
    | with_reducible assumption
    | with_reducible apply Keeps.foldl
    | with_reducible apply State.startMember_keeps
    | with_reducible apply State.activate_keeps
    | with_reducible apply State.push_keeps
    | with_reducible apply Keeps.onColl
    | split
    | ((with_reducible refine Keeps.col ?_ _ ?ha ?hb ?hc); (case ha => rfl); (case hb => rfl); (case hc => rfl))
    | with_reducible refine Keeps.setTrap ?_ _ _
    | with_reducible refine Keeps.agCnt ?_ _ _
    | with_reducible apply PortLe.discardOne
    | with_reducible apply PortLe.setOwes
    | (intro _; exact ⟨⟨by simp, by simp, by simp, by simp⟩, rfl, rfl⟩)
    | intro _
    | dsimp only

theorem State.openTry_keeps {q : Nat → Bool} {s u : State} (h : Keeps q s u) (x1 : BitVec 12) (x2 : Word) :
    Keeps q s (State.openTry u x1 x2) := by
  unfold State.openTry
  repeat' first
    | with_reducible assumption
    | with_reducible apply Keeps.foldl
    | with_reducible apply State.openColl_keeps
    | split
    | with_reducible apply PortLe.discardOne
    | with_reducible apply PortLe.setOwes
    | (intro _; exact ⟨⟨by simp, by simp, by simp, by simp⟩, rfl, rfl⟩)
    | intro _
    | dsimp only

theorem State.hoopFault_keeps {q : Nat → Bool} {s u : State} (h : Keeps q s u) (x1 : Nat) (hq : q (x1 / 48) = true) :
    Keeps q s (State.hoopFault u x1) := by
  unfold State.hoopFault
  repeat' first
    | with_reducible assumption
    | exact hq
    | with_reducible apply Keeps.foldl
    | with_reducible apply Keeps.setHoop
    | with_reducible apply State.endWait_keeps
    | with_reducible apply Keeps.logEv
    | with_reducible apply Keeps.attnBit
    | split
    | with_reducible apply PortLe.discardOne
    | with_reducible apply PortLe.setOwes
    | (intro _; exact ⟨⟨by simp, by simp, by simp, by simp⟩, rfl, rfl⟩)
    | intro _
    | dsimp only

theorem State.hoopRelease_keeps {q : Nat → Bool} {s u : State} (h : Keeps q s u) (x1 : Nat) (hq : q (x1 / 48) = true) :
    Keeps q s (State.hoopRelease u x1) := by
  unfold State.hoopRelease
  repeat' first
    | with_reducible assumption
    | exact hq
    | with_reducible apply Keeps.foldl
    | with_reducible apply State.hoopFault_keeps
    | with_reducible apply Keeps.setHoop
    | with_reducible apply State.endWait_keeps
    | split
    | with_reducible apply PortLe.discardOne
    | with_reducible apply PortLe.setOwes
    | (intro _; exact ⟨⟨by simp, by simp, by simp, by simp⟩, rfl, rfl⟩)
    | intro _
    | dsimp only

theorem State.drainDone_keeps {q : Nat → Bool} {s u : State} (h : Keeps q s u) (x1 : BitVec 12) :
    Keeps q s (State.drainDone u x1) := by
  unfold State.drainDone
  repeat' first
    | with_reducible assumption
    | with_reducible apply Keeps.foldl
    | with_reducible apply Keeps.setSusp
    | split
    | with_reducible refine Keeps.colls ?_ _
    | ((with_reducible refine Keeps.col ?_ _ ?ha ?hb ?hc); (case ha => rfl); (case hb => rfl); (case hc => rfl))
    | with_reducible refine Keeps.setTrap ?_ _ _
    | with_reducible refine Keeps.agCnt ?_ _ _
    | with_reducible apply PortLe.discardOne
    | with_reducible apply PortLe.setOwes
    | (intro _; exact ⟨⟨by simp, by simp, by simp, by simp⟩, rfl, rfl⟩)
    | intro _
    | dsimp only

theorem State.badResponse_keeps {q : Nat → Bool} {s u : State} (h : Keeps q s u) (x1 : Nat) (x2 : Nat) (x3 : Nat) :
    Keeps q s (State.badResponse u x1 x2 x3) := by
  unfold State.badResponse
  repeat' first
    | with_reducible assumption
    | with_reducible apply Keeps.foldl
    | with_reducible apply State.halt_keeps
    | with_reducible apply Keeps.logEv
    | with_reducible apply Keeps.attnBit
    | split
    | with_reducible apply PortLe.discardOne
    | with_reducible apply PortLe.setOwes
    | (intro _; exact ⟨⟨by simp, by simp, by simp, by simp⟩, rfl, rfl⟩)
    | intro _
    | dsimp only

theorem State.onFprint_keeps {q : Nat → Bool} {s u : State} (h : Keeps q s u) (x1 : Msg) :
    Keeps q s (State.onFprint u x1) := by
  unfold State.onFprint
  repeat' first
    | with_reducible assumption
    | with_reducible apply Keeps.foldl
    | with_reducible apply State.push_keeps
    | with_reducible apply Keeps.onColl
    | split
    | with_reducible apply PortLe.discardOne
    | with_reducible apply PortLe.setOwes
    | (intro _; exact ⟨⟨by simp, by simp, by simp, by simp⟩, rfl, rfl⟩)
    | intro _
    | dsimp only

theorem State.updDelivered_keeps {q : Nat → Bool} {s u : State} (h : Keeps q s u) (x1 : UBeat) :
    Keeps q s (State.updDelivered u x1) := by
  unfold State.updDelivered
  repeat' first
    | with_reducible assumption
    | with_reducible apply Keeps.foldl
    | with_reducible apply Keeps.onColl
    | split
    | with_reducible refine Keeps.upd ?_ _
    | with_reducible apply PortLe.discardOne
    | with_reducible apply PortLe.setOwes
    | (intro _; exact ⟨⟨by simp, by simp, by simp, by simp⟩, rfl, rfl⟩)
    | intro _
    | dsimp only

theorem State.pair_keeps {q : Nat → Bool} {s u : State} (h : Keeps q s u) (x1 : BitVec 12) (x2 : Word) (x3 : Word) :
    Keeps q s (State.pair u x1 x2 x3).2 := by
  unfold State.pair
  repeat' first
    | with_reducible assumption
    | with_reducible apply Keeps.foldl
    | with_reducible apply Keeps.onColl
    | split
    | with_reducible refine Keeps.colls ?_ _
    | with_reducible apply PortLe.discardOne
    | with_reducible apply PortLe.setOwes
    | (intro _; exact ⟨⟨by simp, by simp, by simp, by simp⟩, rfl, rfl⟩)
    | intro _
    | dsimp only

theorem State.dropStale_keeps {q : Nat → Bool} {s u : State} (h : Keeps q s u) (x1 : BitVec 12) (x2 : Word) :
    Keeps q s (State.dropStale u x1 x2) := by
  unfold State.dropStale
  repeat' first
    | with_reducible assumption
    | with_reducible apply Keeps.foldl
    | split
    | with_reducible refine Keeps.colls ?_ _
    | with_reducible apply PortLe.discardOne
    | with_reducible apply PortLe.setOwes
    | (intro _; exact ⟨⟨by simp, by simp, by simp, by simp⟩, rfl, rfl⟩)
    | intro _
    | dsimp only

theorem State.agreeHere_keeps {q : Nat → Bool} {s u : State} (h : Keeps q s u) (x1 : BitVec 12) (x2 : Word) (x3 : AgIn) :
    Keeps q s (State.agreeHere u x1 x2 x3) := by
  unfold State.agreeHere
  repeat' first
    | with_reducible assumption
    | with_reducible apply Keeps.foldl
    | with_reducible apply State.dropStale_keeps
    | with_reducible apply State.pair_keeps
    | with_reducible apply State.reap_keeps
    | with_reducible apply State.gather_keeps
    | with_reducible apply Keeps.onColl
    | split
    | ((with_reducible refine Keeps.col ?_ _ ?ha ?hb ?hc); (case ha => rfl); (case hb => rfl); (case hc => rfl))
    | with_reducible refine Keeps.setTrap ?_ _ _
    | with_reducible refine Keeps.agCnt ?_ _ _
    | with_reducible apply PortLe.discardOne
    | with_reducible apply PortLe.setOwes
    | (intro _; exact ⟨⟨by simp, by simp, by simp, by simp⟩, rfl, rfl⟩)
    | intro _
    | dsimp only

theorem State.sendAll_keeps {q : Nat → Bool} {s u : State} (h : Keeps q s u) (x1 : List Nat) (x2 : BitVec 12) (x3 : Word) (x4 : Body) (x5 : optParam (BitVec 16) 0) :
    Keeps q s (State.sendAll u x1 x2 x3 x4 x5) := by
  unfold State.sendAll
  repeat' first
    | with_reducible assumption
    | with_reducible apply Keeps.foldl
    | with_reducible apply State.send_keeps
    | split
    | with_reducible apply PortLe.discardOne
    | with_reducible apply PortLe.setOwes
    | (intro _; exact ⟨⟨by simp, by simp, by simp, by simp⟩, rfl, rfl⟩)
    | intro _
    | dsimp only

theorem State.sendDown_keeps {q : Nat → Bool} {s u : State} (h : Keeps q s u) (x1 : List (Nat × Nat × Nat)) (x2 : BitVec 12) (x3 : Word) (x4 : Body) (x5 : optParam (BitVec 16) 0) :
    Keeps q s (State.sendDown u x1 x2 x3 x4 x5) := by
  unfold State.sendDown
  repeat' first
    | with_reducible assumption
    | with_reducible apply Keeps.foldl
    | with_reducible apply State.sendEdge_keeps
    | split
    | with_reducible apply PortLe.discardOne
    | with_reducible apply PortLe.setOwes
    | (intro _; exact ⟨⟨by simp, by simp, by simp, by simp⟩, rfl, rfl⟩)
    | intro _
    | dsimp only

theorem State.applyAllSent_keeps {q : Nat → Bool} {s u : State} (h : Keeps q s u) (x1 : BitVec 12) (x2 : Word) (x3 : Nat) :
    Keeps q s (State.applyAllSent u x1 x2 x3) := by
  unfold State.applyAllSent
  repeat' first
    | with_reducible assumption
    | with_reducible apply Keeps.foldl
    | with_reducible apply State.sendDown_keeps
    | with_reducible apply State.exMismatch_keeps
    | with_reducible apply Keeps.onColl
    | split
    | with_reducible apply PortLe.discardOne
    | with_reducible apply PortLe.setOwes
    | (intro _; exact ⟨⟨by simp, by simp, by simp, by simp⟩, rfl, rfl⟩)
    | intro _
    | dsimp only

theorem State.onAllSent_keeps {q : Nat → Bool} {s u : State} (h : Keeps q s u) (x1 : Msg) :
    Keeps q s (State.onAllSent u x1) := by
  unfold State.onAllSent
  repeat' first
    | with_reducible assumption
    | with_reducible apply Keeps.foldl
    | with_reducible apply State.applyAllSent_keeps
    | with_reducible apply State.push_keeps
    | split
    | with_reducible apply PortLe.discardOne
    | with_reducible apply PortLe.setOwes
    | (intro _; exact ⟨⟨by simp, by simp, by simp, by simp⟩, rfl, rfl⟩)
    | intro _
    | dsimp only

theorem State.expireWait_keeps {q : Nat → Bool} {s u : State} (h : Keeps q s u) (x1 : Nat) (hq : ∀ i, q i = true) :
    Keeps q s (State.expireWait u x1) := by
  unfold State.expireWait
  repeat' first
    | with_reducible assumption
    | exact hq
    | exact hq _
    | with_reducible apply Keeps.foldl
    | with_reducible apply Keeps.setHoop
    | with_reducible apply State.endWait_keeps
    | split
    | with_reducible apply PortLe.discardOne
    | with_reducible apply PortLe.setOwes
    | (intro _; exact ⟨⟨by simp, by simp, by simp, by simp⟩, rfl, rfl⟩)
    | intro _
    | dsimp only

theorem State.combineToken_keeps {q : Nat → Bool} {s u : State} (h : Keeps q s u) (x1 : Coll) (x2 : Nat) (x3 : Nat) (x4 : Nat) :
    Keeps q s (State.combineToken u x1 x2 x3 x4) := by
  unfold State.combineToken
  repeat' first
    | with_reducible assumption
    | with_reducible apply Keeps.foldl
    | with_reducible apply State.exToken_keeps
    | with_reducible apply State.opportunity_keeps
    | with_reducible apply State.exResidue_keeps
    | with_reducible apply State.residue_keeps
    | with_reducible apply State.onEx_keeps
    | with_reducible apply State.exTrap_keeps
    | with_reducible apply Keeps.onColl
    | split
    | with_reducible apply PortLe.discardOne
    | with_reducible apply PortLe.setOwes
    | (intro _; exact ⟨⟨by simp, by simp, by simp, by simp⟩, rfl, rfl⟩)
    | intro _
    | dsimp only

theorem State.refuseChain_keeps {q : Nat → Bool} {s u : State} (h : Keeps q s u) (x1 : BitVec 12) (x2 : Word) (x3 : Chain) :
    Keeps q s (State.refuseChain u x1 x2 x3) := by
  unfold State.refuseChain
  repeat' first
    | with_reducible assumption
    | with_reducible apply Keeps.foldl
    | with_reducible apply State.sendEdge_keeps
    | with_reducible apply State.status_keeps
    | with_reducible apply Keeps.onColl
    | split
    | with_reducible apply PortLe.discardOne
    | with_reducible apply PortLe.setOwes
    | (intro _; exact ⟨⟨by simp, by simp, by simp, by simp⟩, rfl, rfl⟩)
    | intro _
    | dsimp only

theorem State.applyRefuse_keeps {q : Nat → Bool} {s u : State} (h : Keeps q s u) (x1 : BitVec 12) (x2 : Word) (x3 : Nat) :
    Keeps q s (State.applyRefuse u x1 x2 x3) := by
  unfold State.applyRefuse
  repeat' first
    | with_reducible assumption
    | with_reducible apply Keeps.foldl
    | with_reducible apply State.refuseChain_keeps
    | with_reducible apply State.endBinds_keeps
    | split
    | with_reducible refine Keeps.colls ?_ _
    | with_reducible apply PortLe.discardOne
    | with_reducible apply PortLe.setOwes
    | (intro _; exact ⟨⟨by simp, by simp, by simp, by simp⟩, rfl, rfl⟩)
    | intro _
    | dsimp only

theorem State.srcRefused_keeps {q : Nat → Bool} {s u : State} (h : Keeps q s u) (x1 : BitVec 12) (x2 : Word) (x3 : Nat) (x4 : Nat) :
    Keeps q s (State.srcRefused u x1 x2 x3 x4) := by
  unfold State.srcRefused
  repeat' first
    | with_reducible assumption
    | with_reducible apply Keeps.foldl
    | with_reducible apply State.pair_keeps
    | with_reducible apply State.sendUp_keeps
    | with_reducible apply State.refuseColl_keeps
    | with_reducible apply Keeps.onColl
    | split
    | with_reducible apply PortLe.discardOne
    | with_reducible apply PortLe.setOwes
    | (intro _; exact ⟨⟨by simp, by simp, by simp, by simp⟩, rfl, rfl⟩)
    | intro _
    | dsimp only

theorem State.onRefuse_keeps {q : Nat → Bool} {s u : State} (h : Keeps q s u) (x1 : Msg) :
    Keeps q s (State.onRefuse u x1) := by
  unfold State.onRefuse
  repeat' first
    | with_reducible assumption
    | with_reducible apply Keeps.foldl
    | with_reducible apply State.srcRefused_keeps
    | with_reducible apply State.applyRefuse_keeps
    | split
    | with_reducible apply PortLe.discardOne
    | with_reducible apply PortLe.setOwes
    | (intro _; exact ⟨⟨by simp, by simp, by simp, by simp⟩, rfl, rfl⟩)
    | intro _
    | dsimp only

theorem State.evtClr_keeps {q : Nat → Bool} {s u : State} (h : Keeps q s u) (x1 : Nat) (x2 : Word) :
    Keeps q s (State.evtClr u x1 x2) := by
  unfold State.evtClr
  repeat' first
    | with_reducible assumption
    | with_reducible apply Keeps.foldl
    | with_reducible apply Keeps.setEvtIn
    | split
    | with_reducible apply PortLe.discardOne
    | with_reducible apply PortLe.setOwes
    | (intro _; exact ⟨⟨by simp, by simp, by simp, by simp⟩, rfl, rfl⟩)
    | intro _
    | dsimp only

theorem State.exArrive_keeps {q : Nat → Bool} {s u : State} (h : Keeps q s u) (x1 : BitVec 12) (x2 : Word) (x3 : Nat) (x4 : List Byte) :
    Keeps q s (State.exArrive u x1 x2 x3 x4) := by
  unfold State.exArrive
  repeat' first
    | with_reducible assumption
    | with_reducible apply Keeps.foldl
    | with_reducible apply Keeps.onColl
    | split
    | with_reducible apply PortLe.discardOne
    | with_reducible apply PortLe.setOwes
    | (intro _; exact ⟨⟨by simp, by simp, by simp, by simp⟩, rfl, rfl⟩)
    | intro _
    | dsimp only

theorem State.retrain_keeps {q : Nat → Bool} {s u : State} (h : Keeps q s u) (x1 : Nat) (x2 : Nat) (x3 : BitVec 8) :
    Keeps q s (State.retrain u x1 x2 x3) := by
  unfold State.retrain
  repeat' first
    | with_reducible assumption
    | with_reducible apply Keeps.foldl
    | with_reducible apply State.leaveBond_keeps
    | with_reducible apply State.closed_keeps
    | with_reducible apply Keeps.setStake
    | with_reducible apply Keeps.logEv
    | split
    | with_reducible apply PortLe.discardOne
    | with_reducible apply PortLe.setOwes
    | (intro _; exact ⟨⟨by simp, by simp, by simp, by simp⟩, rfl, rfl⟩)
    | intro _
    | dsimp only

theorem State.proto_keeps {q : Nat → Bool} {s u : State} (h : Keeps q s u) (x1 : Nat) (x2 : Nat) (x3 : Nat) :
    Keeps q s (State.proto u x1 x2 x3) := by
  unfold State.proto
  repeat' first
    | with_reducible assumption
    | with_reducible apply Keeps.foldl
    | with_reducible apply State.retrain_keeps
    | with_reducible apply Keeps.setStake
    | with_reducible apply Keeps.logEv
    | split
    | with_reducible apply PortLe.discardOne
    | with_reducible apply PortLe.setOwes
    | (intro _; exact ⟨⟨by simp, by simp, by simp, by simp⟩, rfl, rfl⟩)
    | intro _
    | dsimp only

theorem State.goodLink_keeps {q : Nat → Bool} {s u : State} (h : Keeps q s u) (x1 : Nat) (x2 : RxFlit) :
    Keeps q s (State.goodLink u x1 x2) := by
  unfold State.goodLink
  repeat' first
    | with_reducible assumption
    | with_reducible apply Keeps.foldl
    | with_reducible apply State.proto_keeps
    | with_reducible apply State.retrain_keeps
    | with_reducible apply Keeps.setStake
    | split
    | with_reducible apply PortLe.discardOne
    | with_reducible apply PortLe.setOwes
    | (intro _; exact ⟨⟨by simp, by simp, by simp, by simp⟩, rfl, rfl⟩)
    | intro _
    | dsimp only

theorem State.dropPulses_keeps {q : Nat → Bool} {s u : State} (h : Keeps q s u) (x1 : Nat) :
    Keeps q s (State.dropPulses u x1) := by
  unfold State.dropPulses
  repeat' first
    | with_reducible assumption
    | with_reducible apply Keeps.foldl
    | with_reducible apply Keeps.setEvtOut
    | split
    | with_reducible apply PortLe.discardOne
    | with_reducible apply PortLe.setOwes
    | (intro _; exact ⟨⟨by simp, by simp, by simp, by simp⟩, rfl, rfl⟩)
    | intro _
    | dsimp only

theorem State.enableChan_keeps {q : Nat → Bool} {s u : State} (h : Keeps q s u) (x1 : Nat) :
    Keeps q s (State.enableChan u x1) := by
  unfold State.enableChan
  repeat' first
    | with_reducible assumption
    | with_reducible apply Keeps.foldl
    | with_reducible apply Keeps.setChan
    | with_reducible apply State.orphan_keeps
    | split
    | with_reducible apply PortLe.discardOne
    | with_reducible apply PortLe.setOwes
    | (intro _; exact ⟨⟨by simp, by simp, by simp, by simp⟩, rfl, rfl⟩)
    | intro _
    | dsimp only

theorem State.chooseWidth_keeps {q : Nat → Bool} {s u : State} (h : Keeps q s u) (x1 : Nat) :
    Keeps q s (State.chooseWidth u x1) := by
  unfold State.chooseWidth
  repeat' first
    | with_reducible assumption
    | with_reducible apply Keeps.foldl
    | with_reducible apply Keeps.setStake
    | with_reducible apply Keeps.logEv
    | with_reducible apply Keeps.attnBit
    | split
    | with_reducible apply PortLe.discardOne
    | with_reducible apply PortLe.setOwes
    | (intro _; exact ⟨⟨by simp, by simp, by simp, by simp⟩, rfl, rfl⟩)
    | intro _
    | dsimp only

theorem State.trainWord_keeps {q : Nat → Bool} {s u : State} (h : Keeps q s u) (x1 : Nat) (x2 : Nat) (x3 : BitVec 256) :
    Keeps q s (State.trainWord u x1 x2 x3) := by
  unfold State.trainWord
  repeat' first
    | with_reducible assumption
    | with_reducible apply Keeps.foldl
    | with_reducible apply State.chooseWidth_keeps
    | with_reducible apply Keeps.setStake
    | split
    | with_reducible apply PortLe.discardOne
    | with_reducible apply PortLe.setOwes
    | (intro _; exact ⟨⟨by simp, by simp, by simp, by simp⟩, rfl, rfl⟩)
    | intro _
    | dsimp only

theorem State.peerRestarted_keeps {q : Nat → Bool} {s u : State} (h : Keeps q s u) (x1 : Nat) (x2 : Nat) :
    Keeps q s (State.peerRestarted u x1 x2) := by
  unfold State.peerRestarted
  repeat' first
    | with_reducible assumption
    | with_reducible apply Keeps.foldl
    | with_reducible apply State.cutAll_keeps
    | with_reducible apply Keeps.setStake
    | with_reducible apply Keeps.logEv
    | split
    | with_reducible refine Keeps.stakesMap ?_ _
    | with_reducible apply PortLe.discardOne
    | with_reducible apply PortLe.setOwes
    | (intro _; exact ⟨⟨by simp, by simp, by simp, by simp⟩, rfl, rfl⟩)
    | intro _
    | dsimp only

theorem State.sendLink_keeps {q : Nat → Bool} {s u : State} (h : Keeps q s u) (x1 : Nat) :
    Keeps q s (State.sendLink u x1) := by
  unfold State.sendLink
  repeat' first
    | with_reducible assumption
    | with_reducible apply Keeps.foldl
    | with_reducible apply Keeps.onStake
    | split
    | with_reducible apply PortLe.discardOne
    | with_reducible apply PortLe.setOwes
    | (intro _; exact ⟨⟨by simp, by simp, by simp, by simp⟩, rfl, rfl⟩)
    | intro _
    | dsimp only

theorem State.bind_keeps {q : Nat → Bool} {s u : State} (h : Keeps q s u) (x1 : Nat) (x2 : Bind) :
    Keeps q s (State.bind u x1 x2) := by
  unfold State.bind
  repeat' first
    | with_reducible assumption
    | with_reducible apply Keeps.foldl
    | with_reducible apply State.tryTrigger_keeps
    | with_reducible apply State.halt_keeps
    | with_reducible apply Keeps.setChan
    | with_reducible apply State.report_keeps
    | split
    | with_reducible apply PortLe.discardOne
    | with_reducible apply PortLe.setOwes
    | (intro _; exact ⟨⟨by simp, by simp, by simp, by simp⟩, rfl, rfl⟩)
    | intro _
    | dsimp only

theorem State.suspRequest_keeps {q : Nat → Bool} {s u : State} (h : Keeps q s u) (x1 : Word) :
    Keeps q s (State.suspRequest u x1) := by
  unfold State.suspRequest
  repeat' first
    | with_reducible assumption
    | with_reducible apply Keeps.foldl
    | with_reducible apply State.sendAll_keeps
    | with_reducible apply State.suspState_keeps
    | split
    | ((with_reducible refine Keeps.col ?_ _ ?ha ?hb ?hc); (case ha => rfl); (case hb => rfl); (case hc => rfl))
    | with_reducible refine Keeps.setTrap ?_ _ _
    | with_reducible refine Keeps.agCnt ?_ _ _
    | with_reducible apply PortLe.discardOne
    | with_reducible apply PortLe.setOwes
    | (intro _; exact ⟨⟨by simp, by simp, by simp, by simp⟩, rfl, rfl⟩)
    | intro _
    | dsimp only

theorem State.hoopLost_keeps {q : Nat → Bool} {s u : State} (h : Keeps q s u) (x1 : Nat) (x2 : BitVec 3) (hq : q (x1 / 48) = true) :
    Keeps q s (State.hoopLost u x1 x2) := by
  unfold State.hoopLost
  repeat' first
    | with_reducible assumption
    | exact hq
    | with_reducible apply Keeps.foldl
    | with_reducible apply State.hoopFault_keeps
    | with_reducible apply Keeps.setHoop
    | split
    | with_reducible apply PortLe.discardOne
    | with_reducible apply PortLe.setOwes
    | (intro _; exact ⟨⟨by simp, by simp, by simp, by simp⟩, rfl, rfl⟩)
    | intro _
    | dsimp only

theorem State.hoopStorage_keeps {q : Nat → Bool} {s u : State} (h : Keeps q s u) (x1 : Nat) (x2 : StorageEvent) (hq : q (x1 / 48) = true) :
    Keeps q s (State.hoopStorage u x1 x2) := by
  unfold State.hoopStorage
  repeat' first
    | with_reducible assumption
    | exact hq
    | with_reducible apply Keeps.foldl
    | with_reducible apply State.hoopLost_keeps
    | split
    | with_reducible refine Keeps.corr ?_ _
    | with_reducible apply PortLe.discardOne
    | with_reducible apply PortLe.setOwes
    | (intro _; exact ⟨⟨by simp, by simp, by simp, by simp⟩, rfl, rfl⟩)
    | intro _
    | dsimp only

theorem State.hoopRead_keeps {q : Nat → Bool} {s u : State} (h : Keeps q s u) (x1 : Nat) (x2 : Bool) (x3 : StorageEvent) (hq : q (x1 / 48) = true) :
    Keeps q s (State.hoopRead u x1 x2 x3).1 := by
  unfold State.hoopRead
  repeat' first
    | with_reducible assumption
    | exact hq
    | with_reducible apply Keeps.foldl
    | with_reducible apply State.hoopStorage_keeps
    | with_reducible apply State.hoopFault_keeps
    | split
    | with_reducible apply PortLe.discardOne
    | with_reducible apply PortLe.setOwes
    | (intro _; exact ⟨⟨by simp, by simp, by simp, by simp⟩, rfl, rfl⟩)
    | intro _
    | dsimp only

theorem State.sunk_keeps {q : Nat → Bool} {s u : State} (h : Keeps q s u) (x1 : Bind) :
    Keeps q s (State.sunk u x1) := by
  unfold State.sunk
  repeat' first
    | with_reducible assumption
    | with_reducible apply Keeps.foldl
    | with_reducible apply Keeps.onColl
    | split
    | with_reducible apply PortLe.discardOne
    | with_reducible apply PortLe.setOwes
    | (intro _; exact ⟨⟨by simp, by simp, by simp, by simp⟩, rfl, rfl⟩)
    | intro _
    | dsimp only

theorem State.readBackOk_keeps {q : Nat → Bool} {s u : State} (h : Keeps q s u) (x1 : Nat) :
    Keeps q s (State.readBackOk u x1) := by
  unfold State.readBackOk
  repeat' first
    | with_reducible assumption
    | with_reducible apply Keeps.foldl
    | with_reducible apply State.sunk_keeps
    | with_reducible apply State.sinkEnd_keeps
    | with_reducible apply State.finishDesc_keeps
    | with_reducible apply State.popBind_keeps
    | with_reducible apply State.dropBind_keeps
    | with_reducible apply Keeps.setChan
    | split
    | with_reducible apply PortLe.discardOne
    | with_reducible apply PortLe.setOwes
    | (intro _; exact ⟨⟨by simp, by simp, by simp, by simp⟩, rfl, rfl⟩)
    | intro _
    | dsimp only

theorem State.lateReport_keeps {q : Nat → Bool} {s u : State} (h : Keeps q s u) (x1 : Msg) (x2 : Nat) (x3 : Nat) (x4 : BitVec 16) :
    Keeps q s (State.lateReport u x1 x2 x3 x4) := by
  unfold State.lateReport
  repeat' first
    | with_reducible assumption
    | with_reducible apply Keeps.foldl
    | with_reducible apply Keeps.logEv
    | split
    | with_reducible apply PortLe.discardOne
    | with_reducible apply PortLe.setOwes
    | (intro _; exact ⟨⟨by simp, by simp, by simp, by simp⟩, rfl, rfl⟩)
    | intro _
    | dsimp only

theorem State.newRecord_keeps {q : Nat → Bool} {s u : State} (h : Keeps q s u) (x1 : BitVec 12) (x2 : Word) :
    Keeps q s (State.newRecord u x1 x2) := by
  unfold State.newRecord
  repeat' first
    | with_reducible assumption
    | with_reducible apply Keeps.foldl
    | split
    | with_reducible refine Keeps.colls ?_ _
    | with_reducible apply PortLe.discardOne
    | with_reducible apply PortLe.setOwes
    | (intro _; exact ⟨⟨by simp, by simp, by simp, by simp⟩, rfl, rfl⟩)
    | intro _
    | dsimp only

theorem State.passFault_keeps {q : Nat → Bool} {s u : State} (h : Keeps q s u) (x1 : Msg) (x2 : Nat) :
    Keeps q s (State.passFault u x1 x2) := by
  unfold State.passFault
  repeat' first
    | with_reducible assumption
    | with_reducible apply Keeps.foldl
    | with_reducible apply State.logRoute_keeps
    | with_reducible apply State.cutSide_keeps
    | with_reducible apply State.sendRaw_keeps
    | (refine Sent.Keeps.ok (State.sendRaw_keeps ?_ _ _) (by assumption))
    | split
    | with_reducible apply PortLe.discardOne
    | with_reducible apply PortLe.setOwes
    | (intro _; exact ⟨⟨by simp, by simp, by simp, by simp⟩, rfl, rfl⟩)
    | intro _
    | dsimp only

theorem State.onFault_keeps {q : Nat → Bool} {s u : State} (h : Keeps q s u) (x1 : Msg) :
    Keeps q s (State.onFault u x1) := by
  unfold State.onFault
  repeat' first
    | with_reducible assumption
    | with_reducible apply Keeps.foldl
    | with_reducible apply State.passFault_keeps
    | with_reducible apply State.newRecord_keeps
    | with_reducible apply State.lateReport_keeps
    | with_reducible apply State.storeTrap_keeps
    | with_reducible apply State.decideAbort_keeps
    | split
    | with_reducible apply PortLe.discardOne
    | with_reducible apply PortLe.setOwes
    | (intro _; exact ⟨⟨by simp, by simp, by simp, by simp⟩, rfl, rfl⟩)
    | intro _
    | dsimp only

theorem State.laneLost_keeps {q : Nat → Bool} {s u : State} (h : Keeps q s u) (x1 : Nat) (x2 : Nat) (x3 : BitVec 8) :
    Keeps q s (State.laneLost u x1 x2 x3) := by
  unfold State.laneLost
  repeat' first
    | with_reducible assumption
    | with_reducible apply Keeps.foldl
    | with_reducible apply State.retrain_keeps
    | with_reducible apply State.goDown_keeps
    | split
    | with_reducible apply PortLe.discardOne
    | with_reducible apply PortLe.setOwes
    | (intro _; exact ⟨⟨by simp, by simp, by simp, by simp⟩, rfl, rfl⟩)
    | intro _
    | dsimp only

theorem State.line_keeps {q : Nat → Bool} {s u : State} (h : Keeps q s u) (x1 : Nat) (x2 : List Byte) :
    Keeps q s (State.line u x1 x2) := by
  unfold State.line
  repeat' first
    | with_reducible assumption
    | with_reducible apply Keeps.foldl
    | with_reducible apply Keeps.onStake
    | split
    | with_reducible apply PortLe.discardOne
    | with_reducible apply PortLe.setOwes
    | (intro _; exact ⟨⟨by simp, by simp, by simp, by simp⟩, rfl, rfl⟩)
    | intro _
    | dsimp only

theorem State.sendTrain_keeps {q : Nat → Bool} {s u : State} (h : Keeps q s u) (x1 : Nat) (x2 : TrainOut) :
    Keeps q s (State.sendTrain u x1 x2) := by
  unfold State.sendTrain
  repeat' first
    | with_reducible assumption
    | with_reducible apply Keeps.foldl
    | with_reducible apply State.line_keeps
    | with_reducible apply Keeps.onStake
    | split
    | with_reducible apply PortLe.discardOne
    | with_reducible apply PortLe.setOwes
    | (intro _; exact ⟨⟨by simp, by simp, by simp, by simp⟩, rfl, rfl⟩)
    | intro _
    | dsimp only

theorem State.trainFail_keeps {q : Nat → Bool} {s u : State} (h : Keeps q s u) (x1 : Nat) :
    Keeps q s (State.trainFail u x1) := by
  unfold State.trainFail
  repeat' first
    | with_reducible assumption
    | with_reducible apply Keeps.foldl
    | with_reducible apply State.goDown_keeps
    | with_reducible apply Keeps.setStake
    | with_reducible apply Keeps.logEv
    | split
    | with_reducible apply PortLe.discardOne
    | with_reducible apply PortLe.setOwes
    | (intro _; exact ⟨⟨by simp, by simp, by simp, by simp⟩, rfl, rfl⟩)
    | intro _
    | dsimp only

theorem State.onAgree_keeps {q : Nat → Bool} {s u : State} (h : Keeps q s u) (x1 : Msg) :
    Keeps q s (State.onAgree u x1) := by
  unfold State.onAgree
  repeat' first
    | with_reducible assumption
    | with_reducible apply Keeps.foldl
    | with_reducible apply State.agreeHere_keeps
    | split
    | with_reducible apply PortLe.discardOne
    | with_reducible apply PortLe.setOwes
    | (intro _; exact ⟨⟨by simp, by simp, by simp, by simp⟩, rfl, rfl⟩)
    | intro _
    | dsimp only

theorem State.reportChain_keeps {q : Nat → Bool} {s u : State} (h : Keeps q s u) (x1 : BitVec 12) (x2 : Word) (x3 : Chain) :
    Keeps q s (State.reportChain u x1 x2 x3) := by
  unfold State.reportChain
  repeat' first
    | with_reducible assumption
    | with_reducible apply Keeps.foldl
    | with_reducible apply State.sendEdge_keeps
    | with_reducible apply State.send_keeps
    | with_reducible apply Keeps.onColl
    | split
    | with_reducible apply PortLe.discardOne
    | with_reducible apply PortLe.setOwes
    | (intro _; exact ⟨⟨by simp, by simp, by simp, by simp⟩, rfl, rfl⟩)
    | intro _
    | dsimp only

theorem State.reserveChain_keeps {q : Nat → Bool} {s u : State} (h : Keeps q s u) (x1 : BitVec 12) (x2 : Word) (x3 : Chain) :
    Keeps q s (State.reserveChain u x1 x2 x3) := by
  unfold State.reserveChain
  repeat' first
    | with_reducible assumption
    | with_reducible apply Keeps.foldl
    | with_reducible apply State.reportChain_keeps
    | with_reducible apply State.sendDown_keeps
    | with_reducible apply State.orFail_keeps
    | with_reducible apply Keeps.onColl
    | exact True.intro
    | split
    | with_reducible apply PortLe.discardOne
    | with_reducible apply PortLe.setOwes
    | (intro _; exact ⟨⟨by simp, by simp, by simp, by simp⟩, rfl, rfl⟩)
    | intro _
    | dsimp only

theorem State.reserveHere_keeps {q : Nat → Bool} {s u : State} (h : Keeps q s u) (x1 : BitVec 12) (x2 : Word) (x3 : List Word) (x4 : BitVec 16) (x5 : Nat) :
    Keeps q s (State.reserveHere u x1 x2 x3 x4 x5) := by
  unfold State.reserveHere
  repeat' first
    | with_reducible assumption
    | with_reducible apply Keeps.foldl
    | with_reducible apply State.reserveChain_keeps
    | with_reducible apply State.retake_keeps
    | with_reducible apply Keeps.putColl
    | split
    | with_reducible apply PortLe.discardOne
    | with_reducible apply PortLe.setOwes
    | (intro _; exact ⟨⟨by simp, by simp, by simp, by simp⟩, rfl, rfl⟩)
    | intro _
    | dsimp only

theorem State.onReserve_keeps {q : Nat → Bool} {s u : State} (h : Keeps q s u) (x1 : Msg) :
    Keeps q s (State.onReserve u x1) := by
  unfold State.onReserve
  repeat' first
    | with_reducible assumption
    | with_reducible apply Keeps.foldl
    | with_reducible apply State.reserveHere_keeps
    | with_reducible apply State.report_keeps
    | split
    | with_reducible apply PortLe.discardOne
    | with_reducible apply PortLe.setOwes
    | (intro _; exact ⟨⟨by simp, by simp, by simp, by simp⟩, rfl, rfl⟩)
    | intro _
    | dsimp only

theorem State.forceCount_keeps {q : Nat → Bool} {s u : State} (h : Keeps q s u) (x1 : Nat) (hq : q (x1 / 48) = true) :
    Keeps q s (State.forceCount u x1) := by
  unfold State.forceCount
  repeat' first
    | with_reducible assumption
    | exact hq
    | with_reducible apply Keeps.foldl
    | with_reducible apply State.hoopRelease_keeps
    | with_reducible apply Keeps.setHoop
    | with_reducible apply Keeps.logEv
    | split
    | with_reducible apply PortLe.discardOne
    | with_reducible apply PortLe.setOwes
    | (intro _; exact ⟨⟨by simp, by simp, by simp, by simp⟩, rfl, rfl⟩)
    | intro _
    | dsimp only

theorem State.decideAdmission_keeps {q : Nat → Bool} {s u : State} (h : Keeps q s u) (x1 : BitVec 12) (x2 : Word) (x3 : Report) :
    Keeps q s (State.decideAdmission u x1 x2 x3) := by
  unfold State.decideAdmission
  repeat' first
    | with_reducible assumption
    | with_reducible apply Keeps.foldl
    | with_reducible apply State.refuseColl_keeps
    | with_reducible apply State.decideAbort_keeps
    | with_reducible apply State.send_keeps
    | with_reducible apply Keeps.onColl
    | split
    | with_reducible refine Keeps.adm ?_ _
    | with_reducible apply PortLe.discardOne
    | with_reducible apply PortLe.setOwes
    | (intro _; exact ⟨⟨by simp, by simp, by simp, by simp⟩, rfl, rfl⟩)
    | intro _
    | dsimp only

theorem State.onReport_keeps {q : Nat → Bool} {s u : State} (h : Keeps q s u) (x1 : Msg) :
    Keeps q s (State.onReport u x1) := by
  unfold State.onReport
  repeat' first
    | with_reducible assumption
    | with_reducible apply Keeps.foldl
    | with_reducible apply State.decideAdmission_keeps
    | with_reducible apply State.reportChain_keeps
    | with_reducible apply Keeps.onColl
    | split
    | with_reducible apply PortLe.discardOne
    | with_reducible apply PortLe.setOwes
    | (intro _; exact ⟨⟨by simp, by simp, by simp, by simp⟩, rfl, rfl⟩)
    | intro _
    | dsimp only

theorem State.hoopFlag_keeps {q : Nat → Bool} {s u : State} (h : Keeps q s u) (x1 : Nat) (x2 : Hoop) :
    Keeps q s (State.hoopFlag u x1 x2) := by
  unfold State.hoopFlag
  repeat' first
    | with_reducible assumption
    | with_reducible apply Keeps.foldl
    | with_reducible apply Keeps.logEv
    | split
    | with_reducible apply PortLe.discardOne
    | with_reducible apply PortLe.setOwes
    | (intro _; exact ⟨⟨by simp, by simp, by simp, by simp⟩, rfl, rfl⟩)
    | intro _
    | dsimp only

theorem State.bindIssue_keeps {q : Nat → Bool} {s u : State} (h : Keeps q s u) (x1 : Nat) (x2 : BitVec 12) (x3 : Word) (x4 : List Word) :
    Keeps q s (State.bindIssue u x1 x2 x3 x4) := by
  unfold State.bindIssue
  repeat' first
    | with_reducible assumption
    | with_reducible apply Keeps.foldl
    | with_reducible apply State.bind_keeps
    | split
    | with_reducible apply PortLe.discardOne
    | with_reducible apply PortLe.setOwes
    | (intro _; exact ⟨⟨by simp, by simp, by simp, by simp⟩, rfl, rfl⟩)
    | intro _
    | dsimp only

theorem State.suspChain_keeps {q : Nat → Bool} {s u : State} (h : Keeps q s u) (x1 : BitVec 12) (x2 : Chain) :
    Keeps q s (State.suspChain u x1 x2) := by
  unfold State.suspChain
  repeat' first
    | with_reducible assumption
    | with_reducible apply Keeps.foldl
    | with_reducible apply Keeps.setSusp
    | with_reducible apply State.suspState_keeps
    | with_reducible apply State.sendUp_keeps
    | with_reducible apply State.send_keeps
    | split
    | with_reducible apply PortLe.discardOne
    | with_reducible apply PortLe.setOwes
    | (intro _; exact ⟨⟨by simp, by simp, by simp, by simp⟩, rfl, rfl⟩)
    | intro _
    | dsimp only

theorem State.suspReport_keeps {q : Nat → Bool} {s u : State} (h : Keeps q s u) (x1 : BitVec 12) :
    Keeps q s (State.suspReport u x1) := by
  unfold State.suspReport
  repeat' first
    | with_reducible assumption
    | with_reducible apply Keeps.foldl
    | with_reducible apply State.suspChain_keeps
    | with_reducible apply Keeps.setSusp
    | split
    | with_reducible apply PortLe.discardOne
    | with_reducible apply PortLe.setOwes
    | (intro _; exact ⟨⟨by simp, by simp, by simp, by simp⟩, rfl, rfl⟩)
    | intro _
    | dsimp only

theorem State.suspOwnDone_keeps {q : Nat → Bool} {s u : State} (h : Keeps q s u) (x1 : BitVec 12) (x2 : Bool) (x3 : Nat) :
    Keeps q s (State.suspOwnDone u x1 x2 x3) := by
  unfold State.suspOwnDone
  repeat' first
    | with_reducible assumption
    | with_reducible apply Keeps.foldl
    | with_reducible apply State.suspReport_keeps
    | with_reducible apply Keeps.setSusp
    | with_reducible apply State.suspState_keeps
    | split
    | with_reducible apply PortLe.discardOne
    | with_reducible apply PortLe.setOwes
    | (intro _; exact ⟨⟨by simp, by simp, by simp, by simp⟩, rfl, rfl⟩)
    | intro _
    | dsimp only

theorem State.recordWritten_keeps {q : Nat → Bool} {s u : State} (h : Keeps q s u) (x1 : BitVec 12) :
    Keeps q s (State.recordWritten u x1) := by
  unfold State.recordWritten
  repeat' first
    | with_reducible assumption
    | with_reducible apply Keeps.foldl
    | with_reducible apply State.suspOwnDone_keeps
    | with_reducible apply Keeps.setSusp
    | split
    | with_reducible apply PortLe.discardOne
    | with_reducible apply PortLe.setOwes
    | (intro _; exact ⟨⟨by simp, by simp, by simp, by simp⟩, rfl, rfl⟩)
    | intro _
    | dsimp only

theorem State.retrainReq_keeps {q : Nat → Bool} {s u : State} (h : Keeps q s u) (x1 : Nat) :
    Keeps q s (State.retrainReq u x1) := by
  unfold State.retrainReq
  repeat' first
    | with_reducible assumption
    | with_reducible apply Keeps.foldl
    | with_reducible apply State.retrain_keeps
    | split
    | with_reducible apply PortLe.discardOne
    | with_reducible apply PortLe.setOwes
    | (intro _; exact ⟨⟨by simp, by simp, by simp, by simp⟩, rfl, rfl⟩)
    | intro _
    | dsimp only

theorem State.stkCtrl_keeps {q : Nat → Bool} {s u : State} (h : Keeps q s u) (x1 : Nat) (x2 : Word) :
    Keeps q s (State.stkCtrl u x1 x2) := by
  unfold State.stkCtrl
  repeat' first
    | with_reducible assumption
    | with_reducible apply Keeps.foldl
    | with_reducible apply State.retrainReq_keeps
    | with_reducible apply Keeps.onStake
    | split
    | with_reducible apply PortLe.discardOne
    | with_reducible apply PortLe.setOwes
    | (intro _; exact ⟨⟨by simp, by simp, by simp, by simp⟩, rfl, rfl⟩)
    | intro _
    | dsimp only

theorem State.onSusp_keeps {q : Nat → Bool} {s u : State} (h : Keeps q s u) (x1 : Msg) :
    Keeps q s (State.onSusp u x1) := by
  unfold State.onSusp
  repeat' first
    | with_reducible assumption
    | with_reducible apply Keeps.foldl
    | with_reducible apply Keeps.setSusp
    | with_reducible apply State.suspStart_keeps
    | with_reducible apply State.pauseChan_keeps
    | split
    | with_reducible refine Keeps.colls ?_ _
    | with_reducible apply PortLe.discardOne
    | with_reducible apply PortLe.setOwes
    | (intro _; exact ⟨⟨by simp, by simp, by simp, by simp⟩, rfl, rfl⟩)
    | intro _
    | dsimp only

theorem State.applyToken_keeps {q : Nat → Bool} {s u : State} (h : Keeps q s u) (x1 : BitVec 12) (x2 : Word) (x3 : Nat) (x4 : List Word) (x5 : List Word) :
    Keeps q s (State.applyToken u x1 x2 x3 x4 x5) := by
  unfold State.applyToken
  repeat' first
    | with_reducible assumption
    | with_reducible apply Keeps.foldl
    | with_reducible apply State.newRecord_keeps
    | with_reducible apply State.tokChain_keeps
    | with_reducible apply Keeps.onColl
    | split
    | with_reducible apply PortLe.discardOne
    | with_reducible apply PortLe.setOwes
    | (intro _; exact ⟨⟨by simp, by simp, by simp, by simp⟩, rfl, rfl⟩)
    | intro _
    | dsimp only

theorem State.applySignal_keeps {q : Nat → Bool} {s u : State} (h : Keeps q s u) (x1 : HoopSig) (hq : ∀ i, q i = true) :
    Keeps q s (State.applySignal u x1) := by
  unfold State.applySignal
  repeat' first
    | with_reducible assumption
    | exact hq
    | exact hq _
    | with_reducible apply Keeps.foldl
    | with_reducible apply State.hoopFlag_keeps
    | with_reducible apply State.hoopRelease_keeps
    | with_reducible apply State.hoopFault_keeps
    | with_reducible apply Keeps.setHoop
    | with_reducible apply State.status_keeps
    | split
    | with_reducible apply PortLe.discardOne
    | with_reducible apply PortLe.setOwes
    | (intro _; exact ⟨⟨by simp, by simp, by simp, by simp⟩, rfl, rfl⟩)
    | intro _
    | dsimp only

theorem State.colKill_keeps {q : Nat → Bool} {s u : State} (h : Keeps q s u) (x1 : Word) :
    Keeps q s (State.colKill u x1) := by
  unfold State.colKill
  repeat' first
    | with_reducible assumption
    | with_reducible apply Keeps.foldl
    | with_reducible apply State.report_keeps
    | split
    | ((with_reducible refine Keeps.col ?_ _ ?ha ?hb ?hc); (case ha => rfl); (case hb => rfl); (case hc => rfl))
    | with_reducible refine Keeps.setTrap ?_ _ _
    | with_reducible refine Keeps.agCnt ?_ _ _
    | with_reducible apply PortLe.discardOne
    | with_reducible apply PortLe.setOwes
    | (intro _; exact ⟨⟨by simp, by simp, by simp, by simp⟩, rfl, rfl⟩)
    | intro _
    | dsimp only

theorem State.orphanLoader_keeps {q : Nat → Bool} {s u : State} (h : Keeps q s u)  :
    Keeps q s (State.orphanLoader u) := by
  unfold State.orphanLoader
  repeat' first
    | with_reducible assumption
    | with_reducible apply Keeps.foldl
    | split
    | ((with_reducible refine Keeps.fdw ?_ _ ?ha ?hb ?hc); (case ha => rfl); (case hb => rfl); (case hc => rfl))
    | with_reducible refine Keeps.rrChan ?_ _ _
    | with_reducible apply PortLe.discardOne
    | with_reducible apply PortLe.setOwes
    | (intro _; exact ⟨⟨by simp, by simp, by simp, by simp⟩, rfl, rfl⟩)
    | intro _
    | dsimp only

theorem State.admitOne_keeps {q : Nat → Bool} {s u : State} (h : Keeps q s u) (x1 : BitVec 12) (x2 : Word) (x3 : BitVec 64) (x4 : BitVec 64) (x5 : Nat) :
    Keeps q s (State.admitOne u x1 x2 x3 x4 x5) := by
  unfold State.admitOne
  repeat' first
    | with_reducible assumption
    | with_reducible apply Keeps.foldl
    | with_reducible apply State.openTry_keeps
    | with_reducible apply State.chargeVc1_keeps
    | with_reducible apply Keeps.onColl
    | split
    | with_reducible apply PortLe.discardOne
    | with_reducible apply PortLe.setOwes
    | (intro _; exact ⟨⟨by simp, by simp, by simp, by simp⟩, rfl, rfl⟩)
    | intro _
    | dsimp only

theorem State.admitHere_keeps {q : Nat → Bool} {s u : State} (h : Keeps q s u) (x1 : BitVec 12) (x2 : Word) (x3 : BitVec 64) (x4 : BitVec 64) (x5 : Nat) (x6 : BitVec 16) (x7 : Nat) :
    Keeps q s (State.admitHere u x1 x2 x3 x4 x5 x6 x7) := by
  unfold State.admitHere
  repeat' first
    | with_reducible assumption
    | with_reducible apply Keeps.foldl
    | with_reducible apply State.admitOne_keeps
    | with_reducible apply State.sendDown_keeps
    | split
    | with_reducible apply PortLe.discardOne
    | with_reducible apply PortLe.setOwes
    | (intro _; exact ⟨⟨by simp, by simp, by simp, by simp⟩, rfl, rfl⟩)
    | intro _
    | dsimp only

theorem State.onAdmit_keeps {q : Nat → Bool} {s u : State} (h : Keeps q s u) (x1 : Msg) :
    Keeps q s (State.onAdmit u x1) := by
  unfold State.onAdmit
  repeat' first
    | with_reducible assumption
    | with_reducible apply Keeps.foldl
    | with_reducible apply State.admitHere_keeps
    | split
    | with_reducible apply PortLe.discardOne
    | with_reducible apply PortLe.setOwes
    | (intro _; exact ⟨⟨by simp, by simp, by simp, by simp⟩, rfl, rfl⟩)
    | intro _
    | dsimp only

theorem State.slotTraining_keeps {q : Nat → Bool} {s u : State} (h : Keeps q s u) (x1 : Nat) :
    Keeps q s (State.slotTraining u x1) := by
  unfold State.slotTraining
  repeat' first
    | with_reducible assumption
    | with_reducible apply Keeps.foldl
    | with_reducible apply State.sendTrain_keeps
    | with_reducible apply State.line_keeps
    | with_reducible apply Keeps.onStake
    | with_reducible apply Keeps.setStake
    | split
    | with_reducible apply PortLe.discardOne
    | with_reducible apply PortLe.setOwes
    | (intro _; exact ⟨⟨by simp, by simp, by simp, by simp⟩, rfl, rfl⟩)
    | intro _
    | dsimp only

theorem State.downArrive_keeps {q : Nat → Bool} {s u : State} (h : Keeps q s u) (x1 : BitVec 12) (x2 : Word) (x3 : Nat) (x4 : Nat) (x5 : List Byte) :
    Keeps q s (State.downArrive u x1 x2 x3 x4 x5) := by
  unfold State.downArrive
  repeat' first
    | with_reducible assumption
    | with_reducible apply Keeps.foldl
    | with_reducible apply Keeps.onColl
    | split
    | with_reducible apply PortLe.discardOne
    | with_reducible apply PortLe.setOwes
    | (intro _; exact ⟨⟨by simp, by simp, by simp, by simp⟩, rfl, rfl⟩)
    | intro _
    | dsimp only

theorem State.goodId_keeps {q : Nat → Bool} {s u : State} (h : Keeps q s u) (x1 : Nat) (x2 : List Byte) :
    Keeps q s (State.goodId u x1 x2) := by
  unfold State.goodId
  repeat' first
    | with_reducible assumption
    | with_reducible apply Keeps.foldl
    | with_reducible apply State.peerRestarted_keeps
    | with_reducible apply State.peerBad_keeps
    | with_reducible apply Keeps.onStake
    | with_reducible apply Keeps.setStake
    | split
    | with_reducible apply PortLe.discardOne
    | with_reducible apply PortLe.setOwes
    | (intro _; exact ⟨⟨by simp, by simp, by simp, by simp⟩, rfl, rfl⟩)
    | intro _
    | dsimp only

theorem State.imageAbort_keeps {q : Nat → Bool} {s u : State} (h : Keeps q s u) (x1 : BitVec 12) (x2 : Word) :
    Keeps q s (State.imageAbort u x1 x2) := by
  unfold State.imageAbort
  repeat' first
    | with_reducible assumption
    | with_reducible apply Keeps.foldl
    | with_reducible apply State.applyToken_keeps
    | with_reducible apply State.decideAbort_keeps
    | with_reducible apply State.report_keeps
    | split
    | with_reducible apply PortLe.discardOne
    | with_reducible apply PortLe.setOwes
    | (intro _; exact ⟨⟨by simp, by simp, by simp, by simp⟩, rfl, rfl⟩)
    | intro _
    | dsimp only

theorem State.exSeg_keeps {q : Nat → Bool} {s u : State} (h : Keeps q s u) (x1 : Nat) (x2 : Seg) :
    Keeps q s (State.exSeg u x1 x2) := by
  unfold State.exSeg
  repeat' first
    | with_reducible assumption
    | with_reducible apply Keeps.foldl
    | with_reducible apply State.exArrive_keeps
    | with_reducible apply State.badWord_keeps
    | with_reducible apply State.badSeg_keeps
    | with_reducible apply State.push_keeps
    | split
    | with_reducible apply PortLe.discardOne
    | with_reducible apply PortLe.setOwes
    | (intro _; exact ⟨⟨by simp, by simp, by simp, by simp⟩, rfl, rfl⟩)
    | intro _
    | dsimp only

theorem State.clearAllHoops_keeps {q : Nat → Bool} {s u : State} (h : Keeps q s u)  (hq : ∀ i, q i = true) :
    Keeps q s (State.clearAllHoops u) := by
  unfold State.clearAllHoops
  repeat' first
    | with_reducible assumption
    | exact hq
    | exact hq _
    | with_reducible apply Keeps.foldl
    | with_reducible apply State.endWait_keeps
    | split
    | with_reducible refine Keeps.hoopsMap ?_ hq _
    | with_reducible apply PortLe.discardOne
    | with_reducible apply PortLe.setOwes
    | (intro _; exact ⟨⟨by simp, by simp, by simp, by simp⟩, rfl, rfl⟩)
    | intro _
    | dsimp only

theorem State.takePolicy_keeps {q : Nat → Bool} {s u : State} (h : Keeps q s u)  (hq : ∀ i, q i = true) :
    Keeps q s (State.takePolicy u) := by
  unfold State.takePolicy
  repeat' first
    | with_reducible assumption
    | exact hq
    | exact hq _
    | with_reducible apply Keeps.foldl
    | with_reducible apply State.clearAllHoops_keeps
    | with_reducible apply Keeps.setHoop
    | split
    | with_reducible apply PortLe.discardOne
    | with_reducible apply PortLe.setOwes
    | (intro _; exact ⟨⟨by simp, by simp, by simp, by simp⟩, rfl, rfl⟩)
    | intro _
    | dsimp only

theorem State.pulseEnd_keeps {q : Nat → Bool} {s u : State} (h : Keeps q s u) (x1 : Nat) :
    Keeps q s (State.pulseEnd u x1) := by
  unfold State.pulseEnd
  repeat' first
    | with_reducible assumption
    | with_reducible apply Keeps.foldl
    | with_reducible apply Keeps.setEvtOut
    | split
    | with_reducible apply PortLe.discardOne
    | with_reducible apply PortLe.setOwes
    | (intro _; exact ⟨⟨by simp, by simp, by simp, by simp⟩, rfl, rfl⟩)
    | intro _
    | dsimp only

theorem State.restore_keeps {q : Nat → Bool} {s u : State} (h : Keeps q s u) (x1 : BitVec 12) (x2 : List Byte) (x3 : List (List Byte)) :
    Keeps q s (State.restore u x1 x2 x3) := by
  unfold State.restore
  repeat' first
    | with_reducible assumption
    | with_reducible apply Keeps.foldl
    | with_reducible apply Keeps.onColl
    | split
    | with_reducible apply PortLe.discardOne
    | with_reducible apply PortLe.setOwes
    | (intro _; exact ⟨⟨by simp, by simp, by simp, by simp⟩, rfl, rfl⟩)
    | intro _
    | dsimp only

theorem State.dropIf_keeps {q : Nat → Bool} {s u : State} (h : Keeps q s u) (x1 : BitVec 12) (x2 : Word) :
    Keeps q s (State.dropIf u x1 x2) := by
  unfold State.dropIf
  repeat' first
    | with_reducible assumption
    | with_reducible apply Keeps.foldl
    | split
    | with_reducible refine Keeps.colls ?_ _
    | with_reducible apply PortLe.discardOne
    | with_reducible apply PortLe.setOwes
    | (intro _; exact ⟨⟨by simp, by simp, by simp, by simp⟩, rfl, rfl⟩)
    | intro _
    | dsimp only

theorem State.releaseHere_keeps {q : Nat → Bool} {s u : State} (h : Keeps q s u) (x1 : BitVec 12) (x2 : Word) (x3 : BitVec 16) (x4 : Nat) :
    Keeps q s (State.releaseHere u x1 x2 x3 x4) := by
  unfold State.releaseHere
  repeat' first
    | with_reducible assumption
    | with_reducible apply Keeps.foldl
    | with_reducible apply State.dropIf_keeps
    | with_reducible apply State.sendDown_keeps
    | with_reducible apply Keeps.onColl
    | split
    | with_reducible apply PortLe.discardOne
    | with_reducible apply PortLe.setOwes
    | (intro _; exact ⟨⟨by simp, by simp, by simp, by simp⟩, rfl, rfl⟩)
    | intro _
    | dsimp only

theorem State.downSeg_keeps {q : Nat → Bool} {s u : State} (h : Keeps q s u) (x1 : RxHeld) (x2 : Seg) :
    Keeps q s (State.downSeg u x1 x2) := by
  unfold State.downSeg
  repeat' first
    | with_reducible assumption
    | with_reducible apply Keeps.foldl
    | with_reducible apply State.downArrive_keeps
    | with_reducible apply State.push_keeps
    | split
    | with_reducible apply PortLe.discardOne
    | with_reducible apply PortLe.setOwes
    | (intro _; exact ⟨⟨by simp, by simp, by simp, by simp⟩, rfl, rfl⟩)
    | intro _
    | dsimp only

theorem State.queuedLong_keeps {q : Nat → Bool} {s u : State} (h : Keeps q s u) (x1 : BitVec 12) (x2 : Word) :
    Keeps q s (State.queuedLong u x1 x2) := by
  unfold State.queuedLong
  repeat' first
    | with_reducible assumption
    | with_reducible apply Keeps.foldl
    | with_reducible apply Keeps.onColl
    | with_reducible apply Keeps.logEv
    | split
    | with_reducible refine Keeps.adm ?_ _
    | with_reducible apply PortLe.discardOne
    | with_reducible apply PortLe.setOwes
    | (intro _; exact ⟨⟨by simp, by simp, by simp, by simp⟩, rfl, rfl⟩)
    | intro _
    | dsimp only

theorem State.badWord0_keeps {q : Nat → Bool} {s u : State} (h : Keeps q s u) (x1 : Nat) (x2 : Word) (x3 : Word) :
    Keeps q s (State.badWord0 u x1 x2 x3) := by
  unfold State.badWord0
  repeat' first
    | with_reducible assumption
    | with_reducible apply Keeps.foldl
    | with_reducible apply State.status_keeps
    | with_reducible apply Keeps.onPort
    | with_reducible apply State.report_keeps
    | with_reducible apply Keeps.logEv
    | with_reducible apply Keeps.attnBit
    | split
    | with_reducible apply PortLe.discardOne
    | with_reducible apply PortLe.setOwes
    | (intro _; exact ⟨⟨by simp, by simp, by simp, by simp⟩, rfl, rfl⟩)
    | intro _
    | dsimp only

theorem State.onToken_keeps {q : Nat → Bool} {s u : State} (h : Keeps q s u) (x1 : Msg) :
    Keeps q s (State.onToken u x1) := by
  unfold State.onToken
  repeat' first
    | with_reducible assumption
    | with_reducible apply Keeps.foldl
    | with_reducible apply State.applyToken_keeps
    | split
    | with_reducible apply PortLe.discardOne
    | with_reducible apply PortLe.setOwes
    | (intro _; exact ⟨⟨by simp, by simp, by simp, by simp⟩, rfl, rfl⟩)
    | intro _
    | dsimp only

theorem State.lostChain_keeps {q : Nat → Bool} {s u : State} (h : Keeps q s u) (x1 : BitVec 12) (x2 : Word) (x3 : Chain) :
    Keeps q s (State.lostChain u x1 x2 x3) := by
  unfold State.lostChain
  repeat' first
    | with_reducible assumption
    | with_reducible apply Keeps.foldl
    | with_reducible apply State.sendDown_keeps
    | with_reducible apply State.sealLost_keeps
    | with_reducible apply State.endBinds_keeps
    | with_reducible apply State.endColl_keeps
    | with_reducible apply State.reap_keeps
    | with_reducible apply Keeps.onColl
    | split
    | with_reducible apply PortLe.discardOne
    | with_reducible apply PortLe.setOwes
    | (intro _; exact ⟨⟨by simp, by simp, by simp, by simp⟩, rfl, rfl⟩)
    | intro _
    | dsimp only

theorem State.applyLost_keeps {q : Nat → Bool} {s u : State} (h : Keeps q s u) (x1 : BitVec 12) (x2 : Word) (x3 : Nat) :
    Keeps q s (State.applyLost u x1 x2 x3) := by
  unfold State.applyLost
  repeat' first
    | with_reducible assumption
    | with_reducible apply Keeps.foldl
    | with_reducible apply State.lostChain_keeps
    | split
    | with_reducible apply PortLe.discardOne
    | with_reducible apply PortLe.setOwes
    | (intro _; exact ⟨⟨by simp, by simp, by simp, by simp⟩, rfl, rfl⟩)
    | intro _
    | dsimp only

theorem State.onLost_keeps {q : Nat → Bool} {s u : State} (h : Keeps q s u) (x1 : Msg) :
    Keeps q s (State.onLost u x1) := by
  unfold State.onLost
  repeat' first
    | with_reducible assumption
    | with_reducible apply Keeps.foldl
    | with_reducible apply State.applyLost_keeps
    | split
    | with_reducible apply PortLe.discardOne
    | with_reducible apply PortLe.setOwes
    | (intro _; exact ⟨⟨by simp, by simp, by simp, by simp⟩, rfl, rfl⟩)
    | intro _
    | dsimp only

theorem State.onWcred_keeps {q : Nat → Bool} {s u : State} (h : Keeps q s u) (x1 : Msg) :
    Keeps q s (State.onWcred u x1) := by
  unfold State.onWcred
  repeat' first
    | with_reducible assumption
    | with_reducible apply Keeps.foldl
    | with_reducible apply Keeps.onColl
    | split
    | with_reducible apply PortLe.discardOne
    | with_reducible apply PortLe.setOwes
    | (intro _; exact ⟨⟨by simp, by simp, by simp, by simp⟩, rfl, rfl⟩)
    | intro _
    | dsimp only

theorem State.hoopCmd_keeps {q : Nat → Bool} {s u : State} (h : Keeps q s u) (x1 : Nat) (x2 : Word) (x3 : Word) (x4 : StorageEvent)
    (hq : q x1 = true) : Keeps q s (State.hoopCmd u x1 x2 x3 x4) := by
  have hq' : ¬ u.hoopBad x2 = true → q ((x1 * 48 + hcHoop x2) / 48) = true := fun hb => by
    have hle : hcHoop x2 ≤ 47 := by
      simp only [State.hoopBad, Bool.or_eq_true, decide_eq_true_eq, not_or] at hb
      have := hb.1.1.1.1.1.2
      omega
    have hdiv : (x1 * 48 + hcHoop x2) / 48 = x1 := by omega
    rw [hdiv]; exact hq
  unfold State.hoopCmd
  repeat' first
    | exact hq' (by assumption)
    | with_reducible assumption
    | with_reducible apply Keeps.foldl
    | with_reducible apply State.hoopStorage_keeps
    | with_reducible apply State.hoopFault_keeps
    | with_reducible apply Keeps.setHoop
    | with_reducible apply State.status_keeps
    | with_reducible apply Keeps.onPort
    | with_reducible apply State.signal_keeps
    | with_reducible apply Keeps.logEv
    | with_reducible apply Keeps.attnBit
    | split
    | with_reducible apply PortLe.discardOne
    | with_reducible apply PortLe.setOwes
    | (intro _; exact ⟨⟨by simp, by simp, by simp, by simp⟩, rfl, rfl⟩)
    | intro _
    | dsimp only

theorem State.updTake_keeps {q : Nat → Bool} {s u : State} (h : Keeps q s u)  :
    Keeps q s (State.updTake u) := by
  unfold State.updTake
  repeat' first
    | with_reducible assumption
    | with_reducible apply Keeps.foldl
    | with_reducible apply State.updDelivered_keeps
    | with_reducible apply State.updPump_keeps
    | split
    | with_reducible refine Keeps.upd ?_ _
    | with_reducible apply PortLe.discardOne
    | with_reducible apply PortLe.setOwes
    | (intro _; exact ⟨⟨by simp, by simp, by simp, by simp⟩, rfl, rfl⟩)
    | intro _
    | dsimp only

theorem State.onClose_keeps {q : Nat → Bool} {s u : State} (h : Keeps q s u) (x1 : Msg) :
    Keeps q s (State.onClose u x1) := by
  unfold State.onClose
  repeat' first
    | with_reducible assumption
    | with_reducible apply Keeps.foldl
    | with_reducible apply State.push_keeps
    | with_reducible apply Keeps.onColl
    | split
    | with_reducible apply PortLe.discardOne
    | with_reducible apply PortLe.setOwes
    | (intro _; exact ⟨⟨by simp, by simp, by simp, by simp⟩, rfl, rfl⟩)
    | intro _
    | dsimp only

theorem State.updRenew_keeps {q : Nat → Bool} {s u : State} (h : Keeps q s u)  :
    Keeps q s (State.updRenew u) := by
  unfold State.updRenew
  repeat' first
    | with_reducible assumption
    | with_reducible apply Keeps.foldl
    | split
    | with_reducible refine Keeps.upd ?_ _
    | with_reducible apply PortLe.discardOne
    | with_reducible apply PortLe.setOwes
    | (intro _; exact ⟨⟨by simp, by simp, by simp, by simp⟩, rfl, rfl⟩)
    | intro _
    | dsimp only

theorem State.onSuspDone_keeps {q : Nat → Bool} {s u : State} (h : Keeps q s u) (x1 : Msg) :
    Keeps q s (State.onSuspDone u x1) := by
  unfold State.onSuspDone
  repeat' first
    | with_reducible assumption
    | with_reducible apply Keeps.foldl
    | with_reducible apply State.suspReport_keeps
    | with_reducible apply Keeps.setSusp
    | with_reducible apply State.suspState_keeps
    | split
    | with_reducible apply PortLe.discardOne
    | with_reducible apply PortLe.setOwes
    | (intro _; exact ⟨⟨by simp, by simp, by simp, by simp⟩, rfl, rfl⟩)
    | intro _
    | dsimp only

theorem State.onXcred_keeps {q : Nat → Bool} {s u : State} (h : Keeps q s u) (x1 : Msg) :
    Keeps q s (State.onXcred u x1) := by
  unfold State.onXcred
  repeat' first
    | with_reducible assumption
    | with_reducible apply Keeps.foldl
    | with_reducible apply State.onEx_keeps
    | split
    | with_reducible apply PortLe.discardOne
    | with_reducible apply PortLe.setOwes
    | (intro _; exact ⟨⟨by simp, by simp, by simp, by simp⟩, rfl, rfl⟩)
    | intro _
    | dsimp only

theorem State.onRelease_keeps {q : Nat → Bool} {s u : State} (h : Keeps q s u) (x1 : Msg) :
    Keeps q s (State.onRelease u x1) := by
  unfold State.onRelease
  repeat' first
    | with_reducible assumption
    | with_reducible apply Keeps.foldl
    | with_reducible apply State.releaseHere_keeps
    | split
    | with_reducible apply PortLe.discardOne
    | with_reducible apply PortLe.setOwes
    | (intro _; exact ⟨⟨by simp, by simp, by simp, by simp⟩, rfl, rfl⟩)
    | intro _
    | dsimp only

theorem State.wcredit_keeps {q : Nat → Bool} {s u : State} (h : Keeps q s u) (x1 : Coll) (x2 : Point) (x3 : List Buf) :
    Keeps q s (State.wcredit u x1 x2 x3) := by
  unfold State.wcredit
  repeat' first
    | with_reducible assumption
    | with_reducible apply Keeps.foldl
    | with_reducible apply State.send_keeps
    | split
    | with_reducible apply PortLe.discardOne
    | with_reducible apply PortLe.setOwes
    | (intro _; exact ⟨⟨by simp, by simp, by simp, by simp⟩, rfl, rfl⟩)
    | intro _
    | dsimp only

theorem State.forceRelease_keeps {q : Nat → Bool} {s u : State} (h : Keeps q s u) (x1 : Nat) (hq : q (x1 / 48) = true) :
    Keeps q s (State.forceRelease u x1) := by
  unfold State.forceRelease
  repeat' first
    | with_reducible assumption
    | exact hq
    | with_reducible apply Keeps.foldl
    | with_reducible apply Keeps.setHoop
    | with_reducible apply State.endWait_keeps
    | with_reducible apply Keeps.logEv
    | split
    | with_reducible apply PortLe.discardOne
    | with_reducible apply PortLe.setOwes
    | (intro _; exact ⟨⟨by simp, by simp, by simp, by simp⟩, rfl, rfl⟩)
    | intro _
    | dsimp only

theorem State.arriveSignal_keeps {q : Nat → Bool} {s u : State} (h : Keeps q s u) (x1 : HoopSig) (x2 : StorageEvent) (hq : ∀ i, q i = true) :
    Keeps q s (State.arriveSignal u x1 x2) := by
  unfold State.arriveSignal
  repeat' first
    | with_reducible assumption
    | exact hq
    | exact hq _
    | with_reducible apply Keeps.foldl
    | with_reducible apply State.applySignal_keeps
    | with_reducible apply State.hoopStorage_keeps
    | split
    | with_reducible refine Keeps.hoopNet ?_ _
    | with_reducible apply PortLe.discardOne
    | with_reducible apply PortLe.setOwes
    | (intro _; exact ⟨⟨by simp, by simp, by simp, by simp⟩, rfl, rfl⟩)
    | intro _
    | dsimp only

theorem State.forceTarget_keeps {q : Nat → Bool} {s u : State} (h : Keeps q s u) (x1 : Nat) (hq : q (x1 / 48) = true) :
    Keeps q s (State.forceTarget u x1) := by
  unfold State.forceTarget
  repeat' first
    | with_reducible assumption
    | exact hq
    | with_reducible apply Keeps.foldl
    | with_reducible apply State.hoopRelease_keeps
    | with_reducible apply Keeps.setHoop
    | with_reducible apply Keeps.logEv
    | split
    | with_reducible apply PortLe.discardOne
    | with_reducible apply PortLe.setOwes
    | (intro _; exact ⟨⟨by simp, by simp, by simp, by simp⟩, rfl, rfl⟩)
    | intro _
    | dsimp only

theorem State.reapAll_keeps {q : Nat → Bool} {s u : State} (h : Keeps q s u)  :
    Keeps q s (State.reapAll u) := by
  unfold State.reapAll
  repeat' first
    | with_reducible assumption
    | with_reducible apply Keeps.foldl
    | with_reducible apply State.reap_keeps
    | split
    | with_reducible apply PortLe.discardOne
    | with_reducible apply PortLe.setOwes
    | (intro _; exact ⟨⟨by simp, by simp, by simp, by simp⟩, rfl, rfl⟩)
    | intro _
    | dsimp only

end Sys2Proof.Machine
end

