-- ==== Sys2Proof/Laws/Settle.lean ====
section
/-! SUPPORT. The work that follows a command (`State.settle`): what it keeps. -/

namespace Sys2Proof.Machine

variable {q : Nat → Bool} {s u : State}

theorem State.issueNow_keeps (h : Keeps q s u) (cp : Nat) (hq : q cp = true) (ws cs : List Word) :
    Keeps q s (u.issueNow cp ws cs) := by
  have pw : ∀ p : Port, ∀ x, PortGrows p { p with seqs := x } := fun p x =>
    ⟨id, List.prefix_refl _, List.prefix_refl _, List.prefix_refl _⟩
  unfold State.issueNow
  dsimp only
  repeat' first
    | with_reducible assumption
    | with_reducible apply State.status_keeps
    | with_reducible apply State.badWord0_keeps
    | with_reducible apply Keeps.logEv
    | with_reducible apply State.reap_keeps
    | with_reducible apply State.endBinds_keeps
    | with_reducible apply State.endMember_keeps
    | with_reducible apply State.gather_keeps
    | with_reducible apply State.bindIssue_keeps
    | with_reducible apply Keeps.onColl
    | with_reducible apply State.pair_keeps
    | (with_reducible refine Keeps.onPortIn ?_ _ _ hq (fun p => pw p _))
    | split

theorem State.drain_keeps (h : Keeps q s u) (n cp : Nat) (hq : q cp = true) : Keeps q s (State.drain n u cp) := by
  have pw : ∀ (p : Port) x, PortGrows p { p with cmdq := x } := fun p x =>
    ⟨id, List.prefix_refl _, List.prefix_refl _, List.prefix_refl _⟩
  induction n generalizing u with
  | zero => unfold State.drain; exact h
  | succ n ih =>
    unfold State.drain
    split
    · exact h
    · split
      · exact h
      · exact ih (State.issueNow_keeps (h.onPortIn cp _ hq (fun p => pw p _)) cp hq _ _)
      · exact ih (State.hoopCmd_keeps (h.onPortIn cp _ hq (fun p => pw p _)) _ _ _ _ hq)

/-- A port that holds no command has nothing to drain. -/
theorem State.drain_idle (n cp : Nat) (h : (u.port cp).cmdq = []) : State.drain n u cp = u := by
  cases n with
  | zero => rfl
  | succ n => unfold State.drain; simp [h]

/-- The openings and reserve rounds that may follow a change (R232, R234). -/
theorem State.openings_keeps (h : Keeps q s u) : Keeps q s (u.colls.foldl (fun t c => if c.st = .queued then
    (if c.b ≠ 0 then t.openTry c.g c.k else if c.round = 0 then t.startRound c.g c.k else t) else t) u) := by
  refine Keeps.foldl h _ _ (fun t c k => ?_)
  split
  · split
    · exact State.openTry_keeps k _ _
    · split
      · exact State.startRound_keeps k _ _
      · exact k
  · exact k

/-- The core ports that hold waiting commands. -/
def State.waitingPorts (s : State) (i : Nat) : Bool := decide ((s.port i).cmdq ≠ [])

theorem State.drains_keeps (hs : s.canon) (h : Keeps s.waitingPorts s u) (l : Map Port) :
    Keeps s.waitingPorts s (l.foldl (fun t p => if p.2.cmdq ≠ [] then State.drain 64 t p.1 else t) u) := by
  refine Keeps.foldl h _ _ (fun t p k => ?_)
  split
  · by_cases hq : s.waitingPorts p.1 = true
    · exact State.drain_keeps k _ _ hq
    · have hq' : s.waitingPorts p.1 = false := by simpa using hq
      have he : (s.port p.1).cmdq = [] := by simpa [State.waitingPorts] using hq'
      rw [State.drain_idle _ _ (k.seqs hs p.1 hq' he).1]
      exact k
  · exact k

/-- What follows a command keeps the frame; a port that holds no waiting command keeps its sequence numbers and hoops. -/
theorem State.settle_keeps (hs : s.canon) : Keeps (fun _ => false) s s.settle := by
  have h : Keeps s.waitingPorts s s.settle := by
    unfold State.settle
    dsimp only
    exact State.reapAll_keeps (State.updPump_keeps (State.openings_keeps (State.flowOnce_keeps (State.drains_keeps hs .refl _))) _)
  have hw : ∀ i, (s.port i).cmdq = [] → s.waitingPorts i = false := fun i e => by simp [State.waitingPorts, e]
  exact { toStill := h.toStill, ports := h.ports, vc0 := h.vc0
          seqs := fun c i _ e => h.seqs c i (hw i e) e
          hoops := fun c i _ e => h.hoops c i (hw _ e) e }

/-- A frame for few ports is one for more. -/
theorem Keeps.mono {q r : Nat → Bool} (hqr : ∀ i, r i = false → q i = false) (h : Keeps q s u) : Keeps r s u where
  toStill := h.toStill
  ports := h.ports
  seqs := fun c i a b => h.seqs c i (hqr i a) b
  hoops := fun c i a b => h.hoops c i (hqr _ a) b
  vc0 := h.vc0

theorem Keeps.settle (hs : s.canon) (h : Keeps q s u) : Keeps q s u.settle :=
  h.trans ((State.settle_keeps (h.canon hs)).mono (fun _ _ => rfl))

/-- The same, of the ports all together. -/
theorem State.settle_keepsAll (h : Keeps (fun _ => true) s u) : Keeps (fun _ => true) s u.settle := by
  unfold State.settle
  dsimp only
  refine State.reapAll_keeps (State.updPump_keeps (State.openings_keeps (State.flowOnce_keeps ?_)) _)
  refine Keeps.foldl h _ _ (fun t p k => ?_)
  split
  · exact State.drain_keeps k _ _ rfl
  · exact k

/-- The frame that statements use. -/
theorem Keeps.frame (hs : s.canon) (h : Keeps q s u) : Frame q s u where
  calm := h.calm
  attn := h.attn
  attnEn := h.attnEn
  logRd := h.logRd
  ports := h.ports hs
  seqs := fun i a b => (h.seqs hs i a b).2
  hoops := h.hoops hs

end Sys2Proof.Machine
end

