-- ==== Sys2Proof/Laws/Holds.lean ====
section
/-! SUPPORT. `Holds s t`: what every operation of the block but a few writes keeps from `s` to `t`: the invariant, the
queue, the supply and reset levels, FEAT_ACCEPT, and ATTN bits that are set. -/

namespace Sys2Proof.Machine

structure Holds (s t : State) : Prop where
  inv : s.Inv → t.Inv
  pending : t.pending = s.pending
  powered : t.powered = s.powered
  inReset : t.inReset = s.inReset
  accept : t.accept = s.accept
  attn : ∀ i, s.gst.attn.getLsbD i = true → t.gst.attn.getLsbD i = true

theorem Holds.refl {s : State} : Holds s s := ⟨id, rfl, rfl, rfl, rfl, fun _ h => h⟩

theorem Holds.trans {s t u : State} (h : Holds s t) (k : Holds t u) : Holds s u where
  inv := fun x => k.inv (h.inv x)
  pending := k.pending.trans h.pending
  powered := k.powered.trans h.powered
  inReset := k.inReset.trans h.inReset
  accept := k.accept.trans h.accept
  attn := fun i x => k.attn i (h.attn i x)

variable {s u v : State}

theorem Still.holds (k : Still u v) : Holds u v where
  inv := fun x => ⟨k.canon x.1, k.log x.2.1, by
    have h1 : v.time = u.time := congrArg Calm.time k.calm
    have h2 : v.pwr.slew = u.pwr.slew := congrArg (fun c => c.pwr.slew) k.calm
    have := x.2.2
    unfold State.rangesOk at *
    rw [h1, h2]; exact this⟩
  pending := congrArg Calm.pending k.calm
  powered := congrArg Calm.powered k.calm
  inReset := congrArg Calm.inReset k.calm
  accept := congrArg Calm.accept k.calm
  attn := k.attn

/-- A further operation that `Keeps` describes. -/
theorem Holds.keep {q : Nat → Bool} (h : Holds s u) (k : Keeps q u v) : Holds s v := h.trans k.toStill.holds

/-- The same, of an operation that `Keeps` describes for the ports all together. -/
theorem Holds.keepT (h : Holds s u) (k : Keeps (fun _ => true) u v) : Holds s v := h.keep k

theorem Holds.ite {c : Prop} [Decidable c] {t w : State} (h1 : c → Holds s t) (h2 : ¬c → Holds s w) :
    Holds s (if c then t else w) := by
  split
  · exact h1 ‹_›
  · exact h2 ‹_›

/-! ### One field at a time -/

/-- A change that leaves the invariant's parts alone. -/
theorem Holds.of {s t : State} (canon : s.canon → t.canon) (gst : t.gst = s.gst) (time : t.time.gcPer = s.time.gcPer)
    (pwr : t.pwr.slew = s.pwr.slew) (pending : t.pending = s.pending) (powered : t.powered = s.powered)
    (inReset : t.inReset = s.inReset) (accept : t.accept = s.accept) : Holds s t where
  inv := fun x => ⟨canon x.1, by have := x.2.1; unfold State.logOk at *; rw [gst]; exact this, by
    have := x.2.2; unfold State.rangesOk at *; rw [time, pwr]; exact this⟩
  pending := pending
  powered := powered
  inReset := inReset
  accept := accept
  attn := fun i h => by rw [gst]; exact h

theorem Holds.ct (h : Holds s u) (x : Ct) : Holds s { u with ct := x } := h.trans (.of id rfl rfl rfl rfl rfl rfl rfl)
theorem Holds.img (h : Holds s u) (x : Img) : Holds s { u with img := x } := h.trans (.of id rfl rfl rfl rfl rfl rfl rfl)
theorem Holds.wl (h : Holds s u) (x : Wl) : Holds s { u with wl := x } := h.trans (.of id rfl rfl rfl rfl rfl rfl rfl)
theorem Holds.dbg (h : Holds s u) (x : Dbg) : Holds s { u with dbg := x } := h.trans (.of id rfl rfl rfl rfl rfl rfl rfl)
theorem Holds.free (h : Holds s u) (x : Nat) : Holds s { u with free := x } := h.trans (.of id rfl rfl rfl rfl rfl rfl rfl)
theorem Holds.exc (h : Holds s u) (x : Exc) : Holds s { u with exc := x } := h.trans (.of id rfl rfl rfl rfl rfl rfl rfl)
theorem Holds.upd (h : Holds s u) (x : Upd) : Holds s { u with upd := x } := h.trans (.of id rfl rfl rfl rfl rfl rfl rfl)
theorem Holds.colls (h : Holds s u) (x : List Coll) : Holds s { u with colls := x } := h.trans (.of id rfl rfl rfl rfl rfl rfl rfl)
theorem Holds.vc0 (h : Holds s u) (x : List Msg) : Holds s { u with vc0 := x } := h.trans (.of id rfl rfl rfl rfl rfl rfl rfl)

theorem Holds.corr (h : Holds s u) (x : BitVec 32) : Holds s { u with gst := { u.gst with corr := x } } :=
  h.keepT (Keeps.corr .refl _)
theorem Holds.stakesMap (h : Holds s u) (f : Nat → Stake → Stake) :
    Holds s { u with stakes := mmap Stake.zero f u.stakes } := h.keepT (Keeps.stakesMap .refl _)
theorem Holds.col (h : Holds s u) (x : ColCtl) (h1 : x.entryTrap = u.col.entryTrap) (h2 : x.susp = u.col.susp)
    (h3 : x.agCnt = u.col.agCnt) : Holds s { u with col := x } := h.keepT (Keeps.col .refl _ h1 h2 h3)
theorem Holds.fdw (h : Holds s u) (x : FdWide) (h1 : x.evtIn = u.fdw.evtIn) (h2 : x.evtOut = u.fdw.evtOut)
    (h3 : x.rrChan = u.fdw.rrChan) : Holds s { u with fdw := x } := h.keepT (Keeps.fdw .refl _ h1 h2 h3)
/-- No group is suspended, and no agreement has been counted. -/
theorem Holds.suspNone (h : Holds s u) : Holds s { u with col := { u.col with susp := [], agCnt := [] } } :=
  h.trans (.of (fun k => Canon.all { k.fields with susp := rfl, agCnt := rfl }) rfl rfl rfl rfl rfl rfl rfl)
theorem Holds.evtInMap (h : Holds s u) (f : Nat → EvtIn → EvtIn) :
    Holds s { u with fdw := { u.fdw with evtIn := mmap ⟨0, 0⟩ f u.fdw.evtIn } } :=
  h.trans (.of (fun k => Canon.all { k.fields with evtIn := mmap_wf _ _ _ k.fields.evtIn }) rfl rfl rfl rfl rfl rfl rfl)
theorem Holds.setPort (h : Holds s u) (cp : Nat) (p : Port) : Holds s (u.setPort cp p) :=
  h.trans (.of (fun k => Canon.all { k.fields with ports := mput_wf _ _ _ _ k.fields.ports }) rfl rfl rfl rfl rfl rfl rfl)
theorem Holds.onPort (h : Holds s u) (cp : Nat) (f : Port → Port) : Holds s (u.onPort cp f) := h.setPort _ _
theorem Holds.portsMap (h : Holds s u) (f : Nat → Port → Port) : Holds s { u with ports := mmap Port.zero f u.ports } :=
  h.trans (.of (fun k => Canon.all { k.fields with ports := mmap_wf _ _ _ k.fields.ports }) rfl rfl rfl rfl rfl rfl rfl)

/-- GST registers that leave the log within its ring, and ATTN bits set. -/
theorem Holds.gst (h : Holds s u) (x : Gst) (hl : mwf LogEntry.zero u.gst.log = true → mwf LogEntry.zero x.log = true)
    (hu : u.gst.unread ≤ 64 → x.unread ≤ 64) (ha : ∀ i, u.gst.attn.getLsbD i = true → x.attn.getLsbD i = true) :
    Holds s { u with gst := x } :=
  h.trans ⟨fun k => ⟨Canon.all { k.1.fields with log := hl k.1.fields.log }, hu k.2.1, k.2.2⟩,
    rfl, rfl, rfl, rfl, ha⟩

theorem Holds.takeMsg (h : Holds s u) (m : Msg) : Holds s (u.takeMsg m) := h.vc0 _

/-- TIME registers other than GC_PERIOD. -/
theorem Holds.time (h : Holds s u) (x : Time) (hx : x.gcPer = u.time.gcPer) : Holds s { u with time := x } :=
  h.trans (.of id rfl hx rfl rfl rfl rfl rfl)

/-- PWR registers other than SLEW. -/
theorem Holds.pwr (h : Holds s u) (x : Pwr) (hx : x.slew = u.pwr.slew) (ha : x.accs = u.pwr.accs) : Holds s { u with pwr := x } :=
  h.trans (.of (fun c => by unfold State.canon at *; simp only [ha]; exact c) rfl rfl hx rfl rfl rfl rfl)

/-- Wrapper registers other than the tiles' results. -/
theorem Holds.wrap (h : Holds s u) (x : Wrap) (h1 : x.bist = u.wrap.bist) (h2 : x.sweep = u.wrap.sweep) : Holds s { u with wrap := x } :=
  h.trans (.of (fun c => by unfold State.canon at *; simp only [h1, h2]; exact c) rfl rfl rfl rfl rfl rfl rfl)

/-- Wrapper registers with the tiles' results in canonical form. -/
theorem Holds.tiles (h : Holds s u) (x : Wrap) (h1 : mwf Bist.zero u.wrap.bist = true → mwf Bist.zero x.bist = true)
    (h2 : mwf Sweep.zero u.wrap.sweep = true → mwf Sweep.zero x.sweep = true) : Holds s { u with wrap := x } :=
  h.trans (.of (fun c => Canon.all { c.fields with bist := h1 c.fields.bist, sweep := h2 c.fields.sweep }) rfl rfl rfl rfl rfl rfl rfl)

/-- TILTH registers other than the monitors and the history window. -/
theorem Holds.tilth (h : Holds s u) (x : Tilth) (hm : x.mons = u.tilth.mons) (hh : x.hist = u.tilth.hist) :
    Holds s { u with tilth := x } :=
  h.trans (.of (fun c => by unfold State.canon at *; simp only [hm, hh]; exact c) rfl rfl rfl rfl rfl rfl rfl)

/-- TILTH registers with the monitors in canonical form. -/
theorem Holds.mons (h : Holds s u) (x : Tilth) (hm : mwf Mon.zero u.tilth.mons = true → mwf Mon.zero x.mons = true)
    (hh : x.hist = u.tilth.hist) : Holds s { u with tilth := x } :=
  h.trans (.of (fun c => Canon.all { c.fields with mons := hm c.fields.mons, hist := hh ▸ c.fields.hist }) rfl rfl rfl rfl rfl rfl rfl)

theorem Holds.hist (h : Holds s u) (x : Tilth) (hm : x.mons = u.tilth.mons)
    (hh : mwf 0#32 u.tilth.hist = true → mwf 0#32 x.hist = true) : Holds s { u with tilth := x } :=
  h.trans (.of (fun c => Canon.all { c.fields with mons := hm ▸ c.fields.mons, hist := hh c.fields.hist }) rfl rfl rfl rfl rfl rfl rfl)

theorem Holds.setMon (h : Holds s u) (i : Nat) (m : Mon) : Holds s (u.setMon i m) :=
  h.mons _ (fun k => mput_wf _ _ _ _ k) rfl

/-! ### Several fields at once -/

theorem Holds.put_img_pwr (h : Holds s u) (x : Img) (y : Bool) : Holds s { u with img := x, pwr := { u.pwr with ballEn := y } } :=
  h.trans (.of id rfl rfl rfl rfl rfl rfl rfl)
theorem Holds.put_wrap_free (h : Holds s u) (x : Wrap) (y : Nat) (h1 : mwf Bist.zero u.wrap.bist = true → mwf Bist.zero x.bist = true)
    (h2 : mwf Sweep.zero u.wrap.sweep = true → mwf Sweep.zero x.sweep = true) : Holds s { u with wrap := x, free := y } :=
  (h.tiles x h1 h2).trans (.of id rfl rfl rfl rfl rfl rfl rfl)

theorem Holds.foldl {β : Type} (h : Holds s u) (f : State → β → State) (l : List β)
    (hf : ∀ t x, Holds s t → Holds s (f t x)) : Holds s (l.foldl f u) := by
  induction l generalizing u with
  | nil => exact h
  | cons x l ih => exact ih (hf u x h)

theorem Holds.settle (h : Holds s u) : Holds s u.settle := h.keep (State.settle_keepsAll .refl)

/-- A command answers a next state that `Holds` relates to the present one. -/
def NextHolds (s : State) (r : Host.Outcome State Fault Refusal) : Prop := ∃ t, r = .next t ∧ Holds s t

theorem live_holds {f : State → State} (h : Holds s (f s)) : NextHolds s (live s f) := by
  unfold live
  split
  · exact ⟨_, rfl, h⟩
  · exact ⟨_, rfl, .refl⟩

end Sys2Proof.Machine
end

