-- ==== Sys2Proof/Laws/HoldsOps.lean ====
section
/-! SUPPORT. One lemma per operation outside `Keeps`: it holds what `Holds` says. -/

namespace Sys2Proof.Machine

theorem State.writeRd_holds {s u : State} (h : Holds s u) (v : Word) : Holds s { u with gst := u.gst.writeRd v } := by
  refine h.gst _ ?_ ?_ (fun _ k => ?_)
  · unfold Gst.writeRd; dsimp only; split <;> exact id
  · unfold Gst.writeRd
    extract_lets n
    split
    · rename_i e
      intro k
      unfold Gst.unread at *
      dsimp only at *
      generalize v.setWidth 7 = m at e ⊢
      bv_omega
    · exact id
  · unfold Gst.writeRd; dsimp only; split <;> exact k

theorem State.ctxSwitch_holds {s u : State} (h : Holds s u) (x1 : Nat) :
    Holds s (State.ctxSwitch u x1) := by
  unfold State.ctxSwitch
  repeat' first
    | with_reducible assumption
    | with_reducible apply Holds.foldl
    | with_reducible apply Holds.onPort
    | with_reducible refine Holds.keepT ?_ (State.report_keeps .refl _ _ _ _ _ _ _)
    | with_reducible refine Holds.keepT ?_ (State.clearHoops_keeps .refl _ (fun _ => rfl))
    | split
    | intro _
    | dsimp only

theorem State.injected_holds {s u : State} (h : Holds s u)  :
    Holds s (State.injected u) := by
  unfold State.injected
  repeat' first
    | with_reducible assumption
    | with_reducible apply Holds.foldl
    | split
    | with_reducible refine Holds.dbg ?_ _
    | intro _
    | dsimp only

theorem State.combineTree_holds {s u : State} (h : Holds s u) (x1 : Coll) (x2 : Point) (x3 : Nat) :
    Holds s (State.combineTree u x1 x2 x3) := by
  unfold State.combineTree
  repeat' first
    | with_reducible assumption
    | with_reducible apply Holds.foldl
    | with_reducible apply State.injected_holds
    | with_reducible refine Holds.keepT ?_ (State.residue_keeps .refl _ _ _ _ _ _)
    | with_reducible refine Holds.keepT ?_ (Keeps.onColl .refl _ _ _)
    | with_reducible refine Holds.keepT ?_ (State.wcredit_keeps .refl _ _ _)
    | with_reducible refine Holds.keepT ?_ (State.passSteps_keeps .refl _ _ _)
    | with_reducible refine Holds.keepT ?_ (State.forward_keeps .refl _ _ _ _)
    | split
    | intro _
    | dsimp only

theorem State.freeNext_holds {s u : State} (h : Holds s u)  :
    Holds s (State.freeNext u).2 := by
  unfold State.freeNext
  repeat' first
    | with_reducible assumption
    | with_reducible apply Holds.foldl
    | split
    | with_reducible refine Holds.free ?_ _
    | intro _
    | dsimp only

theorem State.disableChan_holds {s u : State} (h : Holds s u) (x1 : Nat) (x2 : Nat)  :
    Holds s (State.disableChan u x1 x2) := by
  unfold State.disableChan
  dsimp only
  exact Holds.foldl (.keepT (.keepT (.keepT (State.freeNext_holds (State.freeNext_holds (State.freeNext_holds h)))
    (State.orphan_keeps .refl _)) (State.dropPulses_keeps .refl _)) (Keeps.setChan .refl _ _)) _ _
    (fun t x k => k.keepT (State.report_keeps .refl _ _ _ _ _ _ _))

theorem State.dropColls_holds {s u : State} (h : Holds s u) (x1 : Bool) :
    Holds s (State.dropColls u x1) := by
  unfold State.dropColls
  repeat' first
    | with_reducible assumption
    | with_reducible apply Holds.foldl
    | with_reducible refine Holds.keepT ?_ (State.freeEntryOf_keeps .refl _)
    | split
    | with_reducible refine Holds.colls ?_ _
    | intro _
    | dsimp only

theorem State.invalidate_holds {s u : State} (h : Holds s u) :
    Holds s (State.invalidate u) := by
  unfold State.invalidate
  extract_lets s1 c2 s2 s3 s4 s5 i5 p5
  have h1 : Holds s s1 := State.dropColls_holds (Holds.foldl h _ _ (fun t c k => k.keepT (State.imageAbort_keeps .refl _ _))) _
  have h2 : Holds s s2 := by
    clear_value s1
    exact (h1.suspNone).vc0 []
  have h3 : Holds s s3 := by
    clear_value s2
    refine Holds.foldl h2 _ _ (fun t c k => ?_)
    split
    · exact k
    · exact State.disableChan_holds k _ _
  have h4 : Holds s s4 := by
    clear_value s3
    exact h3.keepT (State.clearAllHoops_keeps .refl (fun _ => rfl))
  have h5 : Holds s s5 := by
    clear_value s4
    exact h4.stakesMap _
  clear_value s5
  exact h5.put_img_pwr _ false

theorem State.configLost_holds {s u : State} (h : Holds s u) (x1 : Nat) (x2 : Nat) (x3 : BitVec 8) (x4 : Word) :
    Holds s (State.configLost u x1 x2 x3 x4) := by
  unfold State.configLost
  exact .keepT (.keepT ((State.invalidate_holds (.keepT (h.keepT (Keeps.logEv .refl _ _ _ _ _ _ _ _)) (Keeps.attnBit .refl _))).img _)
    (Keeps.logEv .refl _ _ _ _ _ _ _ _)) (Keeps.attnBit .refl _)

theorem State.storage_holds {s u : State} (h : Holds s u) (x1 : Coll) (x2 : Nat) (x3 : Nat) (x4 : StorageEvent)  :
    Holds s (State.storage u x1 x2 x3 x4).1 := by
  cases x4 with
  | clean => exact h
  | corrected => exact h.corr _
  | uncorrData a => exact (h.keepT (Keeps.logEv .refl _ _ _ _ _ _ _ _)).keepT (State.report_keeps .refl _ _ _ _ _ _ _)
  | uncorrConfig sec off => exact State.configLost_holds h _ _ _ _

theorem State.combineAt_holds {s u : State} (h : Holds s u) (x1 : BitVec 12) (x2 : Word) (x3 : Point) (x4 : Nat) (x5 : StorageEvent) :
    Holds s (State.combineAt u x1 x2 x3 x4 x5) := by
  unfold State.combineAt
  repeat' first
    | with_reducible assumption
    | with_reducible apply Holds.foldl
    | with_reducible apply State.storage_holds
    | with_reducible apply State.combineTree_holds
    | with_reducible refine Holds.keepT ?_ (State.combineToken_keeps .refl _ _ _ _)
    | split
    | intro _
    | dsimp only

theorem State.takeToken_holds {s u : State} (h : Holds s u) (x1 : Nat) :
    Holds s (State.takeToken u x1) := by
  unfold State.takeToken
  repeat' first
    | with_reducible assumption
    | with_reducible apply Holds.foldl
    | with_reducible apply Holds.onPort
    | with_reducible apply Holds.settle
    | with_reducible refine Holds.keepT ?_ (State.reap_keeps .refl _ _)
    | split
    | intro _
    | dsimp only

theorem State.shiftTimers_holds {s u : State} (h : Holds s u) (x1 : BitVec 12) (x2 : BitVec 64) :
    Holds s (State.shiftTimers u x1 x2) := by
  unfold State.shiftTimers
  repeat' first
    | with_reducible assumption
    | with_reducible apply Holds.foldl
    | split
    | with_reducible refine Holds.colls ?_ _
    | intro _
    | dsimp only

theorem State.reloadDone_holds {s u : State} (h : Holds s u) (x1 : BitVec 12) :
    Holds s (State.reloadDone u x1) := by
  unfold State.reloadDone
  extract_lets x bs fault s1
  split
  · exact h
  · have h1 : Holds s s1 := State.shiftTimers_holds (h.keepT (Keeps.setSusp .refl x1 _)) _ _
    clear_value s1
    generalize fault = f
    cases f with
    | some p =>
      exact Holds.settle (Holds.keepT (Holds.foldl (h1.keepT (Keeps.logEv .refl _ _ _ _ _ _ _ _)) _ _
        (fun t c k => k.keepT (State.report_keeps .refl _ _ _ _ _ _ _))) (State.suspOwnDone_keeps .refl _ _ _))
    | none =>
      exact Holds.settle (.keepT (Holds.foldl h1 _ _ (fun t i k => k.keepT (State.restore_keeps .refl _ _ _)))
        (State.suspOwnDone_keeps .refl _ _ _))

theorem State.bounceReserve_holds {s u : State} (h : Holds s u) (x1 : Msg) (x2 : Nat) :
    Holds s (State.bounceReserve u x1 x2) := by
  unfold State.bounceReserve
  repeat' first
    | with_reducible assumption
    | with_reducible apply Holds.foldl
    | with_reducible refine Holds.keepT ?_ (State.sendIf_keeps .refl _ _)
    | split
    | intro _
    | dsimp only

theorem State.endLeg_holds {s u : State} (h : Holds s u) (x1 : BitVec 12) (x2 : Word) (x3 : Nat) (x4 : Nat) (x5 : Nat) (x6 : BitVec 8) :
    Holds s (State.endLeg u x1 x2 x3 x4 x5 x6) := by
  unfold State.endLeg
  repeat' first
    | with_reducible assumption
    | with_reducible apply Holds.foldl
    | with_reducible refine Holds.keepT ?_ (State.endColl_keeps .refl _ _ _)
    | with_reducible refine Holds.keepT ?_ (Keeps.onColl .refl _ _ _)
    | with_reducible refine Holds.keepT ?_ (State.reap_keeps .refl _ _)
    | with_reducible refine Holds.keepT ?_ (State.purge_keeps .refl _ _)
    | split
    | intro _
    | dsimp only

theorem State.relayRelease_holds {s u : State} (h : Holds s u) (x1 : BitVec 12) (x2 : Word) (x3 : BitVec 16) (x4 : Nat) (x5 : Nat) (x6 : Nat) :
    Holds s (State.relayRelease u x1 x2 x3 x4 x5 x6) := by
  unfold State.relayRelease
  repeat' first
    | with_reducible assumption
    | with_reducible apply Holds.foldl
    | with_reducible refine Holds.keepT ?_ (Keeps.onColl .refl _ _ _)
    | with_reducible refine Holds.keepT ?_ (State.dropIf_keeps .refl _ _)
    | split
    | intro _
    | dsimp only

theorem State.relayReport_holds {s u : State} (h : Holds s u) (x1 : BitVec 12) (x2 : Word) (x3 : BitVec 16) (x4 : Nat) (x5 : Nat) (x6 : Nat) (x7 : Report) :
    Holds s (State.relayReport u x1 x2 x3 x4 x5 x6 x7).1 := by
  unfold State.relayReport
  repeat' first
    | with_reducible assumption
    | with_reducible apply Holds.foldl
    | with_reducible apply State.freeNext_holds
    | with_reducible refine Holds.keepT ?_ (State.retake_keeps .refl _)
    | with_reducible refine Holds.keepT ?_ (Keeps.putColl .refl _)
    | split
    | intro _
    | dsimp only

theorem State.relayMsg_holds {s u : State} (h : Holds s u) (x1 : Nat) (x2 : Msg) :
    Holds s (State.relayMsg u x1 x2).1 := by
  unfold State.relayMsg
  repeat' first
    | with_reducible assumption
    | with_reducible apply Holds.foldl
    | with_reducible apply State.relayReport_holds
    | with_reducible apply State.relayRelease_holds
    | with_reducible apply State.endLeg_holds
    | with_reducible refine Holds.keepT ?_ (Keeps.onColl .refl _ _ _)
    | with_reducible refine Holds.keepT ?_ (State.relayReserve_keeps .refl _ _ _ _ _ _ _)
    | with_reducible refine Holds.keepT ?_ (State.admitOne_keeps .refl _ _ _ _ _)
    | split
    | intro _
    | dsimp only

theorem State.relayPayload_holds {s u : State} (h : Holds s u) (x1 : RxHeld) (x2 : List Seg) :
    Holds s (State.relayPayload u x1 x2).1 := by
  unfold State.relayPayload
  repeat' first
    | with_reducible assumption
    | with_reducible apply Holds.foldl
    | with_reducible apply State.relayMsg_holds
    | split
    | intro _
    | dsimp only

theorem State.relayFlit_holds {s u : State} (h : Holds s u) (x1 : Nat) (x2 : RxHeld) (x3 : List Seg) :
    Holds s (State.relayFlit u x1 x2 x3) := by
  unfold State.relayFlit
  repeat' first
    | with_reducible assumption
    | with_reducible apply Holds.foldl
    | with_reducible apply State.relayPayload_holds
    | with_reducible apply State.bounceReserve_holds
    | with_reducible refine Holds.keepT ?_ (State.routeFault_keeps .refl _ _ _ _ _)
    | with_reducible refine Holds.keepT ?_ (State.cutHere_keeps .refl _ _ _)
    | with_reducible refine Holds.keepT ?_ (Keeps.onStake .refl _ _)
    | (with_reducible refine Holds.keepT ?_ (Sent.Keeps.ok (State.sendFlits_keeps .refl _ _ _) (by assumption)))
    | split
    | intro _
    | dsimp only

theorem State.timeSlew_holds {s u : State} (h : Holds s u) (x1 : Int) :
    Holds s (State.timeSlew u x1) := by
  unfold State.timeSlew
  repeat' first
    | with_reducible assumption
    | with_reducible apply Holds.foldl
    | split
    | ((with_reducible refine Holds.time ?_ _ ?ha); (case ha => rfl))
    | intro _
    | dsimp only

theorem State.timeStep_holds {s u : State} (h : Holds s u) (x1 : Int) :
    Holds s (State.timeStep u x1) := by
  unfold State.timeStep
  repeat' first
    | with_reducible assumption
    | with_reducible apply Holds.foldl
    | with_reducible refine Holds.keepT ?_ (Keeps.logEv .refl _ _ _ _ _ _ _ _)
    | split
    | ((with_reducible refine Holds.time ?_ _ ?ha); (case ha => rfl))
    | intro _
    | dsimp only

theorem State.applyOffset_holds {s u : State} (h : Holds s u) (x1 : Int) :
    Holds s (State.applyOffset u x1) := by
  unfold State.applyOffset
  repeat' first
    | with_reducible assumption
    | with_reducible apply Holds.foldl
    | with_reducible apply State.timeStep_holds
    | with_reducible apply State.timeSlew_holds
    | split
    | ((with_reducible refine Holds.time ?_ _ ?ha); (case ha => rfl))
    | intro _
    | dsimp only

theorem State.onFollow_holds {s u : State} (h : Holds s u) (x1 : Nat) (x2 : BitVec 16) (x3 : BitVec 64) (x4 : BitVec 16) :
    Holds s (State.onFollow u x1 x2 x3 x4) := by
  unfold State.onFollow
  repeat' first
    | with_reducible assumption
    | with_reducible apply Holds.foldl
    | with_reducible apply State.applyOffset_holds
    | split
    | ((with_reducible refine Holds.time ?_ _ ?ha); (case ha => rfl))
    | intro _
    | dsimp only

theorem State.onSync_holds {s u : State} (h : Holds s u) (x1 : Nat) (x2 : BitVec 16) (x3 : BitVec 8) (x4 : Nat) (x5 : Bool) :
    Holds s (State.onSync u x1 x2 x3 x4 x5) := by
  unfold State.onSync
  repeat' first
    | with_reducible assumption
    | with_reducible apply Holds.foldl
    | split
    | ((with_reducible refine Holds.time ?_ _ ?ha); (case ha => rfl))
    | intro _
    | dsimp only

theorem State.msgSeg_holds {s u : State} (h : Holds s u) (x1 : Nat) (x2 : RxHeld) (x3 : Seg) :
    Holds s (State.msgSeg u x1 x2 x3) := by
  unfold State.msgSeg
  repeat' first
    | with_reducible assumption
    | with_reducible apply Holds.foldl
    | with_reducible apply State.onSync_holds
    | with_reducible apply State.onFollow_holds
    | with_reducible refine Holds.keepT ?_ (Keeps.post .refl _)
    | with_reducible refine Holds.keepT ?_ (State.badSeg_keeps .refl _ _ _ _)
    | split
    | intro _
    | dsimp only

theorem State.segDone_holds {s u : State} (h : Holds s u) (x1 : Nat) (x2 : RxHeld) (x3 : Seg) :
    Holds s (State.segDone u x1 x2 x3) := by
  unfold State.segDone
  repeat' first
    | with_reducible assumption
    | with_reducible apply Holds.foldl
    | with_reducible apply State.msgSeg_holds
    | with_reducible refine Holds.keepT ?_ (State.downSeg_keeps .refl _ _)
    | with_reducible refine Holds.keepT ?_ (State.exSeg_keeps .refl _ _)
    | with_reducible refine Holds.keepT ?_ (State.partialArrive_keeps .refl _ _ _)
    | with_reducible refine Holds.keepT ?_ (State.badSeg_keeps .refl _ _ _ _)
    | split
    | intro _
    | dsimp only

theorem State.setFrag_holds {s u : State} (h : Holds s u) (x1 : Nat) (x2 : Nat) (x3 : Option Frag) :
    Holds s (State.setFrag u x1 x2 x3) := by
  unfold State.setFrag
  repeat' first
    | with_reducible assumption
    | with_reducible apply Holds.foldl
    | with_reducible refine Holds.keepT ?_ (Keeps.onStake .refl _ _)
    | split
    | intro _
    | dsimp only

theorem State.segTake_holds {s u : State} (h : Holds s u) (x1 : Nat) (x2 : RxHeld) (x3 : Seg) :
    Holds s (State.segTake u x1 x2 x3).1 := by
  unfold State.segTake
  repeat' first
    | with_reducible assumption
    | with_reducible apply Holds.foldl
    | with_reducible apply State.setFrag_holds
    | with_reducible apply State.segDone_holds
    | split
    | intro _
    | dsimp only

theorem State.segsTake_holds {s u : State} (h : Holds s u) (x1 : Nat) (x2 : RxHeld) (x3 : List Seg) :
    Holds s (State.segsTake u x1 x2 x3).1 := by
  induction x3 generalizing u x1 x2 with
  | nil => unfold State.segsTake; exact h
  | cons y ys ih =>
    unfold State.segsTake
    repeat' first
      | with_reducible assumption
      | with_reducible apply Holds.foldl
      | with_reducible apply ih
      | with_reducible apply State.segTake_holds
      | split
      | intro _
      | dsimp only

theorem State.takeFlit_holds {s u : State} (h : Holds s u) (x1 : Nat) (x2 : RxHeld) :
    Holds s (State.takeFlit u x1 x2) := by
  unfold State.takeFlit
  repeat' first
    | with_reducible assumption
    | with_reducible apply Holds.foldl
    | with_reducible apply State.segsTake_holds
    | with_reducible apply State.relayFlit_holds
    | with_reducible refine Holds.keepT ?_ (State.badSeg_keeps .refl _ _ _ _)
    | with_reducible refine Holds.keepT ?_ (State.proto_keeps .refl _ _ _)
    | with_reducible refine Holds.keepT ?_ (Keeps.onStake .refl _ _)
    | split
    | intro _
    | dsimp only

theorem State.rxPump_holds {s u : State} (h : Holds s u) (x0 : Nat) (x2 : Nat) (x3 : Nat) :
    Holds s (State.rxPump x0 u x2 x3) := by
  induction x0 generalizing u x2 x3 with
  | zero => unfold State.rxPump; exact h
  | succ n ih =>
    unfold State.rxPump
    repeat' first
      | with_reducible assumption
      | with_reducible apply Holds.foldl
      | with_reducible apply ih
      | with_reducible apply State.takeFlit_holds
      | with_reducible refine Holds.keepT ?_ (State.opportunity_keeps .refl _)
      | with_reducible refine Holds.keepT ?_ (Keeps.onStake .refl _ _)
      | split
      | intro _
      | dsimp only

theorem State.rxAll_holds {s u : State} (h : Holds s u) (x1 : Nat) :
    Holds s (State.rxAll u x1) := by
  unfold State.rxAll
  repeat' first
    | with_reducible assumption
    | with_reducible apply Holds.foldl
    | with_reducible apply State.rxPump_holds
    | split
    | intro _
    | dsimp only

theorem State.acceptFlit_holds {s u : State} (h : Holds s u) (x1 : Nat) (x2 : Nat) (x3 : FlitHdr) (x4 : List Byte) :
    Holds s (State.acceptFlit u x1 x2 x3 x4) := by
  unfold State.acceptFlit
  repeat' first
    | with_reducible assumption
    | with_reducible apply Holds.foldl
    | with_reducible apply State.rxAll_holds
    | with_reducible apply State.takeFlit_holds
    | with_reducible refine Holds.keepT ?_ (Keeps.onStake .refl _ _)
    | split
    | intro _
    | dsimp only

theorem State.goodData_holds {s u : State} (h : Holds s u) (x1 : Nat) (x2 : Nat) (x3 : RxFlit) :
    Holds s (State.goodData u x1 x2 x3) := by
  unfold State.goodData
  repeat' first
    | with_reducible assumption
    | with_reducible apply Holds.foldl
    | with_reducible apply State.acceptFlit_holds
    | with_reducible refine Holds.keepT ?_ (State.proto_keeps .refl _ _ _)
    | with_reducible refine Holds.keepT ?_ (Keeps.setStake .refl _ _)
    | split
    | intro _
    | dsimp only

theorem State.sendSync_holds {s u : State} (h : Holds s u) (x1 : Nat) :
    Holds s (State.sendSync u x1) := by
  unfold State.sendSync
  repeat' first
    | with_reducible assumption
    | with_reducible apply Holds.foldl
    | with_reducible refine Holds.keepT ?_ (State.enqueue_keeps .refl _ _)
    | split
    | ((with_reducible refine Holds.time ?_ _ ?ha); (case ha => rfl))
    | intro _
    | dsimp only

theorem State.stakeUp_holds {s u : State} (h : Holds s u) (x1 : Nat) (x2 : Nat) :
    Holds s (State.stakeUp u x1 x2) := by
  unfold State.stakeUp
  repeat' first
    | with_reducible assumption
    | with_reducible apply Holds.foldl
    | with_reducible apply State.sendSync_holds
    | with_reducible refine Holds.keepT ?_ (Keeps.setStake .refl _ _)
    | split
    | intro _
    | dsimp only

theorem State.probed_holds {s u : State} (h : Holds s u) (x1 : Nat) (x2 : Nat) :
    Holds s (State.probed u x1 x2) := by
  unfold State.probed
  repeat' first
    | with_reducible assumption
    | with_reducible apply Holds.foldl
    | with_reducible apply State.stakeUp_holds
    | with_reducible refine Holds.keepT ?_ (State.trainFail_keeps .refl _)
    | with_reducible refine Holds.keepT ?_ (Keeps.setStake .refl _ _)
    | split
    | intro _
    | dsimp only

theorem State.goodTrain_holds {s u : State} (h : Holds s u) (x1 : Nat) (x2 : Nat) (x3 : RxFlit) :
    Holds s (State.goodTrain u x1 x2 x3) := by
  unfold State.goodTrain
  repeat' first
    | with_reducible assumption
    | with_reducible apply Holds.foldl
    | with_reducible apply State.probed_holds
    | with_reducible refine Holds.keepT ?_ (State.goodId_keeps .refl _ _)
    | with_reducible refine Holds.keepT ?_ (Keeps.setStake .refl _ _)
    | split
    | intro _
    | dsimp only

theorem State.goodFlit_holds {s u : State} (h : Holds s u) (x1 : Nat) (x2 : Nat) (x3 : RxFlit) :
    Holds s (State.goodFlit u x1 x2 x3) := by
  unfold State.goodFlit
  repeat' first
    | with_reducible assumption
    | with_reducible apply Holds.foldl
    | with_reducible apply State.goodTrain_holds
    | with_reducible apply State.goodData_holds
    | with_reducible refine Holds.keepT ?_ (State.closed_keeps .refl _)
    | with_reducible refine Holds.keepT ?_ (State.goodLink_keeps .refl _ _)
    | with_reducible refine Holds.keepT ?_ (State.proto_keeps .refl _ _ _)
    | with_reducible refine Holds.keepT ?_ (Keeps.onStake .refl _ _)
    | split
    | intro _
    | dsimp only

theorem State.rxFlit_holds {s u : State} (h : Holds s u) (x1 : Nat) (x2 : Nat) (x3 : FKind) (x4 : List Byte) :
    Holds s (State.rxFlit u x1 x2 x3 x4) := by
  unfold State.rxFlit
  extract_lets f s1 s2 x
  have h1 : Holds s s1 := h.keepT (Keeps.onStake .refl _ _)
  have h2 : Holds s s2 := by
    show Holds s (if f.good then _ else _)
    split
    · exact State.goodFlit_holds h1 _ _ _
    · split
      · exact h1.keepT (Keeps.onStake .refl _ _)
      · exact h1
  split
  · exact h
  · refine Holds.settle (State.rxAll_holds ?_ _)
    split
    · exact h2.keepT (State.retrain_keeps .refl _ _ _)
    · exact h2

theorem State.syncAll_holds {s u : State} (h : Holds s u)  :
    Holds s (State.syncAll u) := by
  unfold State.syncAll
  repeat' first
    | with_reducible assumption
    | with_reducible apply Holds.foldl
    | with_reducible apply State.sendSync_holds
    | with_reducible refine Holds.keepT ?_ (Keeps.onStake .refl _ _)
    | split
    | ((with_reducible refine Holds.time ?_ _ ?ha); (case ha => rfl))
    | intro _
    | dsimp only

theorem State.refLost_holds {s u : State} (h : Holds s u) :
    Holds s (State.refLost u) := by
  unfold State.refLost
  split
  · exact h
  · extract_lets s1
    have h1 : Holds s s1 := .keepT (.keepT (.keepT h (Keeps.logEv .refl 0x1E 7 12 0 0 0 0 0)) (Keeps.attnBit .refl 7))
      (Keeps.logEv .refl 0x1D 5 11 0 0 0 0 0)
    clear_value s1
    exact h1.trans (.of id rfl rfl rfl rfl rfl rfl rfl)

theorem State.unsettle_holds {s u : State} (h : Holds s u)   :
    Holds s (State.unsettle u) := by
  exact h.mons _ (fun k => mmap_wf _ _ _ k) rfl

theorem State.setTau_holds {s u : State} (h : Holds s u) (x1 : Nat) :
    Holds s (State.setTau u x1) := by
  unfold State.setTau
  repeat' first
    | with_reducible assumption
    | with_reducible apply Holds.foldl
    | with_reducible apply State.unsettle_holds
    | split
    | ((with_reducible refine Holds.tilth ?_ _ ?ha ?hb); (case ha => rfl); (case hb => rfl))
    | intro _
    | dsimp only

theorem State.raiseTap_holds {s u : State} (h : Holds s u) (x1 : Nat) (x2 : Bool) (x3 : Nat) :
    Holds s (State.raiseTap u x1 x2 x3) := by
  unfold State.raiseTap
  repeat' first
    | with_reducible assumption
    | with_reducible apply Holds.foldl
    | with_reducible apply State.setTau_holds
    | with_reducible apply Holds.setMon
    | split
    | intro _
    | dsimp only

theorem State.sample_holds {s u : State} (h : Holds s u) (x1 : Nat) (x2 : Bool) (x3 : Int) (x4 : Nat) :
    Holds s (State.sample u x1 x2 x3 x4) := by
  unfold State.sample
  repeat' first
    | with_reducible assumption
    | with_reducible apply Holds.foldl
    | with_reducible apply State.raiseTap_holds
    | with_reducible refine Holds.keepT ?_ (Keeps.attnBit .refl _)
    | with_reducible refine Holds.keepT ?_ (Keeps.logEv .refl _ _ _ _ _ _ _ _)
    | with_reducible apply Holds.setMon
    | split
    | ((with_reducible refine Holds.tilth ?_ _ ?ha ?hb); (case ha => rfl); (case hb => rfl))
    | intro _
    | dsimp only

theorem State.tauWindow_holds {s u : State} (h : Holds s u) (x1 : Nat) (x2 : Bool) :
    Holds s (State.tauWindow u x1 x2) := by
  have hm : ∀ c, Holds s { u with tilth := { u.tilth with tauCand := c, mons := mmap Mon.zero (fun _ m => { m with low := 0 }) u.tilth.mons } } :=
    fun _ => h.mons _ (fun k => mmap_wf _ _ _ k) rfl
  unfold State.tauWindow
  dsimp only
  split
  · split
    · exact State.setTau_holds (hm _) _
    · exact hm _
  · split
    · exact h.setMon _ _
    · split
      · exact Holds.tilth (h.setMon _ _) _ rfl rfl
      · exact State.setTau_holds (hm _) _

theorem State.temper_holds {s u : State} (h : Holds s u) (x1 : Nat) (x2 : Bool) :
    Holds s (State.temper u x1 x2) := by
  unfold State.temper
  repeat' first
    | with_reducible assumption
    | with_reducible apply Holds.foldl
    | with_reducible apply State.raiseTap_holds
    | with_reducible apply Holds.setMon
    | split
    | ((with_reducible refine Holds.tilth ?_ _ ?ha ?hb); (case ha => rfl); (case hb => rfl))
    | intro _
    | dsimp only

theorem State.windowEnd_holds {s u : State} (h : Holds s u) (x1 : Nat) :
    Holds s (State.windowEnd u x1) := by
  unfold State.windowEnd
  split
  · exact h
  · extract_lets m q r s1 s2 fresh m2 s3
    have hr : Holds s r.2 := by
      show Holds s (Prod.snd (match m.sminShown with | some v => _ | none => _))
      split
      · exact h
      · exact State.freeNext_holds h
    have k1 : Holds s s1 := hr.setMon _ _
    clear_value s1
    have k2 : Holds s s2 := State.temper_holds (State.temper_holds (State.tauWindow_holds k1 _ _) _ _) _ _
    clear_value s2
    have k3 : Holds s s3 := k2.setMon _ _
    clear_value s3
    exact k3.tilth _ rfl rfl

theorem State.applyTap_holds {s u : State} (h : Holds s u) (x1 : Nat) (x2 : Bool) :
    Holds s (State.applyTap u x1 x2) := by
  unfold State.applyTap
  repeat' first
    | with_reducible assumption
    | with_reducible apply Holds.foldl
    | with_reducible apply State.unsettle_holds
    | with_reducible apply Holds.setMon
    | split
    | ((with_reducible refine Holds.tilth ?_ _ ?ha ?hb); (case ha => rfl); (case hb => rfl))
    | intro _
    | dsimp only

theorem State.histLoad_holds {s u : State} (h : Holds s u)  :
    Holds s (State.histLoad u) := by
  unfold State.histLoad
  repeat' first
    | with_reducible assumption
    | with_reducible apply Holds.foldl
    | with_reducible apply State.setTau_holds
    | with_reducible apply State.unsettle_holds
    | with_reducible refine Holds.keepT ?_ (Keeps.logEv .refl _ _ _ _ _ _ _ _)
    | with_reducible apply Holds.setMon
    | split
    | ((with_reducible refine Holds.tilth ?_ _ ?ha ?hb); (case ha => rfl); (case hb => rfl))
    | intro _
    | dsimp only

theorem State.histCtrl_holds {s u : State} (h : Holds s u) (x1 : Word) :
    Holds s (State.histCtrl u x1) := by
  unfold State.histCtrl
  repeat' first
    | with_reducible assumption
    | with_reducible apply Holds.foldl
    | with_reducible apply State.histLoad_holds
    | split
    | ((with_reducible refine Holds.tilth ?_ _ ?ha ?hb); (case ha => rfl); (case hb => rfl))
    | intro _
    | dsimp only

theorem State.snapCopy_holds {s u : State} (h : Holds s u)   :
    Holds s (State.snapCopy u) := by
  unfold State.snapCopy
  split
  · exact h
  · refine h.hist _ rfl (fun k => ?_)
    dsimp only
    generalize (u.record ++ [crc32c (wordsBytes u.record)]).zipIdx = l
    generalize u.tilth.hist = m at k
    induction l generalizing m with
    | nil => exact k
    | cons x l ih => exact ih _ (mput_wf _ _ _ _ k)

theorem State.tilForce_holds {s u : State} (h : Holds s u) (x1 : Word) :
    Holds s (State.tilForce u x1) := by
  unfold State.tilForce
  repeat' first
    | with_reducible assumption
    | with_reducible apply Holds.foldl
    | with_reducible apply State.setTau_holds
    | with_reducible apply Holds.setMon
    | split
    | ((with_reducible refine Holds.tilth ?_ _ ?ha ?hb); (case ha => rfl); (case hb => rfl))
    | intro _
    | dsimp only

theorem State.floorCheck_holds {s u : State} (h : Holds s u) :
    Holds s (State.floorCheck u) := by
  unfold State.floorCheck
  extract_lets f s1
  have h1 : Holds s s1 := by
    show Holds s (if u.pwr.belowRun then _ else _)
    split
    · exact h
    · exact h.keepT (Keeps.logEv .refl _ _ _ _ _ _ _ _)
  clear_value s1
  split
  · exact h1.pwr _ rfl rfl
  · exact h.pwr _ rfl rfl

theorem State.governor_holds {s u : State} (h : Holds s u) (x1 : List Nat) (x2 : Nat) :
    Holds s (State.governor u x1 x2) := by
  unfold State.governor
  repeat' first
    | with_reducible assumption
    | with_reducible apply Holds.foldl
    | with_reducible apply State.floorCheck_holds
    | split
    | ((with_reducible refine Holds.pwr ?_ _ ?ha ?hb); (case ha => rfl); (case hb => rfl))
    | intro _
    | dsimp only

theorem State.throttle_holds {s u : State} (h : Holds s u) (x1 : BitVec 4) :
    Holds s (State.throttle u x1) := by
  unfold State.throttle
  repeat' first
    | with_reducible assumption
    | with_reducible apply Holds.foldl
    | with_reducible apply State.floorCheck_holds
    | split
    | ((with_reducible refine Holds.pwr ?_ _ ?ha ?hb); (case ha => rfl); (case hb => rfl))
    | intro _
    | dsimp only

theorem State.pwrCfg_holds {s u : State} (h : Holds s u) (x1 : Word)  :
    Holds s (State.pwrCfg u x1) := by
  unfold State.pwrCfg
  extract_lets n ok viol s1
  have h1 : Holds s s1 := by
    show Holds s (if viol then _ else _)
    split
    · exact h.keepT (Keeps.logEv .refl _ _ _ _ _ _ _ _)
    · exact h
  refine h1.trans ⟨fun k => ⟨k.1, k.2.1, ?_⟩, rfl, rfl, rfl, rfl, fun _ k => k⟩
  have k2 := k.2.2
  unfold State.rangesOk at *
  refine ⟨k2.1, k2.2.1, ?_⟩
  dsimp only
  split
  · rename_i e
    simp only [ok, Bool.and_eq_true, decide_eq_true_eq] at e
    have : (BitVec.ofNat 7 n).toNat = n := by simp only [BitVec.toNat_ofNat]; omega
    rw [this]; exact e
  · exact k2.2.2

theorem State.fdCtrl_holds {s u : State} (h : Holds s u) (x1 : Nat) (x2 : Word) :
    Holds s (State.fdCtrl u x1 x2) := by
  unfold State.fdCtrl
  repeat' first
    | with_reducible assumption
    | with_reducible apply Holds.foldl
    | with_reducible apply State.disableChan_holds
    | with_reducible refine Holds.keepT ?_ (Keeps.onChan .refl _ _)
    | with_reducible refine Holds.keepT ?_ (State.enableChan_keeps .refl _)
    | with_reducible apply Holds.settle
    | split
    | intro _
    | dsimp only

theorem State.beatRequest_holds {s u : State} (h : Holds s u) (x1 : BitVec 4) :
    Holds s (State.beatRequest u x1) := by
  unfold State.beatRequest
  repeat' first
    | with_reducible assumption
    | with_reducible apply Holds.foldl
    | with_reducible refine Holds.keepT ?_ (State.chanSend_keeps .refl _ _ _)
    | with_reducible refine Holds.keepT ?_ (Keeps.onChan .refl _ _)
    | with_reducible refine Holds.keepT ?_ (Keeps.setSusp .refl _ _)
    | with_reducible refine Holds.keepT ?_ (State.request_keeps .refl _ _ _ _ _ _)
    | split
    | with_reducible refine Holds.img ?_ _
    | intro _
    | dsimp only

theorem State.refuseImage_holds {s u : State} (h : Holds s u) (x1 : Nat) (x2 : Nat × Nat) :
    Holds s (State.refuseImage u x1 x2) := by
  unfold State.refuseImage
  repeat' first
    | with_reducible assumption
    | with_reducible apply Holds.foldl
    | with_reducible apply State.floorCheck_holds
    | with_reducible refine Holds.keepT ?_ (State.clearAllHoops_keeps .refl (fun _ => rfl))
    | with_reducible refine Holds.keepT ?_ (Keeps.attnBit .refl _)
    | with_reducible refine Holds.keepT ?_ (State.orphanLoader_keeps .refl)
    | with_reducible refine Holds.keepT ?_ (Keeps.logEv .refl _ _ _ _ _ _ _ _)
    | split
    | (with_reducible refine Holds.put_img_pwr ?_ _ _)
    | with_reducible refine Holds.img ?_ _
    | ((with_reducible refine Holds.pwr ?_ _ ?ha ?hb); (case ha => rfl); (case hb => rfl))
    | intro _
    | dsimp only

theorem State.loaderError_holds {s u : State} (h : Holds s u) (x1 : Nat) :
    Holds s (State.loaderError u x1) := by
  unfold State.loaderError
  repeat' first
    | with_reducible assumption
    | with_reducible apply Holds.foldl
    | with_reducible apply State.refuseImage_holds
    | split
    | intro _
    | dsimp only

theorem State.respond_holds {s u : State} (h : Holds s u) (x1 : Req) (x2 : Bool) (x3 : List Byte) :
    Holds s (State.respond u x1 x2 x3) := by
  unfold State.respond
  repeat' first
    | with_reducible assumption
    | with_reducible apply Holds.foldl
    | with_reducible apply State.loaderError_holds
    | with_reducible refine Holds.keepT ?_ (State.halt_keeps .refl _ _ _ _)
    | with_reducible refine Holds.keepT ?_ (Keeps.onChan .refl _ _)
    | with_reducible refine Holds.keepT ?_ (State.readBackOk_keeps .refl _)
    | with_reducible refine Holds.keepT ?_ (State.sinkEnd_keeps .refl _)
    | with_reducible refine Holds.keepT ?_ (State.makeCurrent_keeps .refl _ _ _ _)
    | with_reducible refine Holds.keepT ?_ (State.complete_keeps .refl _)
    | with_reducible refine Holds.keepT ?_ (Keeps.setSusp .refl _ _)
    | split
    | with_reducible refine Holds.img ?_ _
    | intro _
    | dsimp only

theorem State.memResponse_holds {s u : State} (h : Holds s u) (x1 : Nat) (x2 : Nat) (x3 : Bool) (x4 : Bool) (x5 : List Byte) :
    Holds s (State.memResponse u x1 x2 x3 x4 x5) := by
  unfold State.memResponse
  repeat' first
    | with_reducible assumption
    | with_reducible apply Holds.foldl
    | with_reducible apply State.respond_holds
    | with_reducible refine Holds.keepT ?_ (State.badResponse_keeps .refl _ _ _)
    | split
    | ((with_reducible refine Holds.fdw ?_ _ ?ha ?hb ?hc); (case ha => rfl); (case hb => rfl); (case hc => rfl))
    | intro _
    | dsimp only

theorem State.onEvt_holds {s u : State} (h : Holds s u) (x1 : Nat) (x2 : Bool)  :
    Holds s (State.onEvt u x1 x2) := by
  have h1 : ∀ e, Holds s (u.setEvtIn x1 e) := fun e => h.keepT (Keeps.setEvtIn .refl _ e)
  have h2 : ∀ e, Holds s (State.evtServe 64 (u.setEvtIn x1 e) x1) := fun e => (h1 e).keepT (State.evtServe_keeps .refl 64 x1)
  unfold State.onEvt
  exact Holds.ite (fun _ => h1 _) (fun _ => (h2 _).settle)

theorem State.progFail_holds {s u : State} (h : Holds s u) (x1 : FuseAcc) (x2 : Nat) :
    Holds s (State.progFail u x1 x2) := by
  unfold State.progFail
  repeat' first
    | with_reducible assumption
    | with_reducible apply Holds.foldl
    | with_reducible refine Holds.keepT ?_ (Keeps.attnBit .refl _)
    | with_reducible refine Holds.keepT ?_ (Keeps.logEv .refl _ _ _ _ _ _ _ _)
    | split
    | with_reducible refine Holds.wl ?_ _
    | intro _
    | dsimp only

theorem State.progEnd_holds {s u : State} (h : Holds s u) (x1 : FuseAcc) (x2 : BitVec 16) (x3 : Bool) (x4 : Bool)  :
    Holds s (State.progEnd u x1 x2 x3 x4) := by
  unfold State.progEnd
  dsimp only
  split
  · exact Holds.wl (h.wl _) _
  · exact State.progFail_holds (h.wl _) _ _

theorem State.fuseAck_holds {s u : State} (h : Holds s u) (x1 : BitVec 16) (x2 : Bool) (x3 : Bool) :
    Holds s (State.fuseAck u x1 x2 x3) := by
  unfold State.fuseAck
  repeat' first
    | with_reducible assumption
    | with_reducible apply Holds.foldl
    | with_reducible apply State.progEnd_holds
    | split
    | with_reducible refine Holds.wl ?_ _
    | intro _
    | dsimp only

theorem State.fuseTimeout_holds {s u : State} (h : Holds s u)  :
    Holds s (State.fuseTimeout u) := by
  unfold State.fuseTimeout
  repeat' first
    | with_reducible assumption
    | with_reducible apply Holds.foldl
    | with_reducible apply State.progFail_holds
    | with_reducible refine Holds.keepT ?_ (Keeps.logEv .refl _ _ _ _ _ _ _ _)
    | split
    | with_reducible refine Holds.wl ?_ _
    | intro _
    | dsimp only

theorem State.wlProg_holds {s u : State} (h : Holds s u) (x1 : Word)  :
    Holds s (State.wlProg u x1) := by
  unfold State.wlProg
  dsimp only
  split
  · exact h.wl _
  · split
    · exact h.wl _
    · split
      · exact h.wl _
      · exact Holds.wl (h.wl _) _

theorem State.gcPeriod_holds {s u : State} (h : Holds s u) (x1 : Word)  :
    Holds s (State.gcPeriod u x1) := by
  unfold State.gcPeriod
  split
  · rename_i e
    exact h.trans ⟨fun k => ⟨k.1, k.2.1, e.2.1, e.2.2, k.2.2.2.2⟩, rfl, rfl, rfl, rfl, fun _ k => k⟩
  · exact h

theorem State.load_holds {s u : State} (h : Holds s u) (x1 : Word) :
    Holds s (State.load u x1) := by
  unfold State.load
  split
  · exact h
  · extract_lets s1 i1 f1 d1 s2
    have h1 : Holds s s1 := by
      show Holds s (if u.img.st = .inService ∨ u.img.st = .checked then u.invalidate else u)
      split
      · exact State.invalidate_holds h
      · exact h
    have h2 : Holds s s2 := by
      clear_value s1
      exact ((h1.evtInMap (fun _ e => { e with pend := 0 })).img
        { s1.img with st := .check, reason := 0, errsec := 0, erroff := 0, next := 0, buf := [], buf2 := [] }).dbg { s1.dbg with armed := false }
    exact State.floorCheck_holds h2

theorem State.checkDone_holds {s u : State} (h : Holds s u)  :
    Holds s (State.checkDone u) := by
  unfold State.checkDone
  repeat' first
    | with_reducible assumption
    | with_reducible apply Holds.foldl
    | with_reducible apply State.refuseImage_holds
    | split
    | with_reducible refine Holds.img ?_ _
    | intro _
    | dsimp only

theorem State.applied_holds {s u : State} (h : Holds s u) (x1 : List Byte) :
    Holds s (State.applied u x1) := by
  unfold State.applied
  repeat' first
    | with_reducible assumption
    | with_reducible apply Holds.foldl
    | with_reducible apply State.floorCheck_holds
    | with_reducible refine Holds.keepT ?_ (State.takePolicy_keeps .refl (fun _ => rfl))
    | split
    | (with_reducible refine Holds.put_img_pwr ?_ _ _)
    | with_reducible refine Holds.img ?_ _
    | ((with_reducible refine Holds.time ?_ _ ?ha); (case ha => rfl))
    | ((with_reducible refine Holds.pwr ?_ _ ?ha ?hb); (case ha => rfl); (case hb => rfl))
    | intro _
    | dsimp only

theorem State.applyDone_holds {s u : State} (h : Holds s u)  :
    Holds s (State.applyDone u) := by
  unfold State.applyDone
  repeat' first
    | with_reducible assumption
    | with_reducible apply Holds.foldl
    | with_reducible apply State.applied_holds
    | with_reducible apply State.refuseImage_holds
    | split
    | intro _
    | dsimp only

theorem State.enterService_holds {s u : State} (h : Holds s u) :
    Holds s (State.enterService u) := by
  unfold State.enterService
  extract_lets s1 d i1 c1 s2
  have h1 : Holds s s1 := (h.keepT (State.takePolicy_keeps .refl (fun _ => rfl))).keepT (State.updRenew_keeps .refl)
  have h2 : Holds s s2 := by
    have k : Holds s d := State.dropColls_holds h1 false
    exact ⟨fun x => ⟨Canon.all { (k.inv x).1.fields with ports := mmap_wf _ _ _ (h1.inv x).1.fields.ports, agCnt := rfl },
      (k.inv x).2.1, (k.inv x).2.2⟩, k.pending, k.powered, k.inReset, k.accept, k.attn⟩
  refine Holds.foldl h2 _ _ (fun t n k => ?_)
  split
  · exact k.keepT (Keeps.setStake .refl _ _)
  · exact k

theorem State.signoff_holds {s u : State} (h : Holds s u) (x1 : Word) :
    Holds s (State.signoff u x1) := by
  unfold State.signoff
  repeat' first
    | with_reducible assumption
    | with_reducible apply Holds.foldl
    | with_reducible apply State.enterService_holds
    | with_reducible apply State.refuseImage_holds
    | split
    | ((with_reducible refine Holds.time ?_ _ ?ha); (case ha => rfl))
    | intro _
    | dsimp only

theorem State.hpForce_holds {s u : State} (h : Holds s u) (x1 : Word) :
    Holds s (State.hpForce u x1) := by
  unfold State.hpForce
  dsimp only
  split
  · exact h
  · have h1 := fun x => h.dbg x
    split
    · exact ((h1 _).keepT (State.forceCount_keeps .refl _ rfl)).settle
    · split
      · exact ((h1 _).keepT (State.forceTarget_keeps .refl _ rfl)).settle
      · split
        · exact ((h1 _).keepT (State.forceRelease_keeps .refl _ rfl)).settle
        · exact h1 _

theorem State.dbgInject_holds {s u : State} (h : Holds s u) (x1 : Word) :
    Holds s (State.dbgInject u x1) := by
  unfold State.dbgInject
  repeat' first
    | with_reducible assumption
    | with_reducible apply Holds.foldl
    | split
    | with_reducible refine Holds.dbg ?_ _
    | intro _
    | dsimp only

theorem State.ctDone_holds {s u : State} (h : Holds s u) (x1 : Word) (x2 : Bool) :
    Holds s (State.ctDone u x1 x2) := by
  unfold State.ctDone
  repeat' first
    | with_reducible assumption
    | with_reducible apply Holds.foldl
    | split
    | with_reducible refine Holds.ct ?_ _
    | intro _
    | dsimp only

theorem State.latch_holds {s u : State} (h : Holds s u) (x1 : Nat) (x2 : Nat)  :
    Holds s (State.latch u x1 x2) := by
  induction x2 with
  | zero => exact h
  | succ n ih =>
    unfold State.latch
    dsimp only
    split
    · exact ih
    · exact ih.ct _

theorem State.noteEntry_holds {s u : State} (h : Holds s u) (x1 : Nat) :
    Holds s (State.noteEntry u x1) := by
  unfold State.noteEntry
  repeat' first
    | with_reducible assumption
    | with_reducible apply Holds.foldl
    | split
    | with_reducible refine Holds.ct ?_ _
    | intro _
    | dsimp only

theorem State.ctRead_holds {s u : State} (h : Holds s u) (x1 : Nat) :
    Holds s (State.ctRead u x1).1 := by
  unfold State.ctRead
  repeat' first
    | with_reducible assumption
    | with_reducible apply Holds.foldl
    | with_reducible apply State.noteEntry_holds
    | with_reducible apply State.latch_holds
    | with_reducible refine Holds.keepT ?_ (State.hoopRead_keeps .refl _ _ _ rfl)
    | split
    | intro _
    | dsimp only

theorem State.readAccess_holds {s u : State} (h : Holds s u) (x1 : BitVec 18) :
    Holds s (State.readAccess u x1) := by
  unfold State.readAccess
  repeat' first
    | with_reducible assumption
    | with_reducible apply Holds.foldl
    | with_reducible apply State.ctRead_holds
    | with_reducible apply State.ctDone_holds
    | split
    | intro _
    | dsimp only

theorem State.writeChan_holds {s u : State} (h : Holds s u) (x1 : Nat) (x2 : Nat) (x3 : Word) :
    Holds s (State.writeChan u x1 x2 x3) := by
  unfold State.writeChan
  repeat' first
    | with_reducible assumption
    | with_reducible apply Holds.foldl
    | with_reducible apply State.fdCtrl_holds
    | with_reducible refine Holds.keepT ?_ (Keeps.onChan .refl _ _)
    | split
    | intro _
    | dsimp only

theorem State.writeCol_holds {s u : State} (h : Holds s u) (x1 : Nat) (x2 : Word) :
    Holds s (State.writeCol u x1 x2) := by
  unfold State.writeCol
  repeat' first
    | with_reducible assumption
    | with_reducible apply Holds.foldl
    | with_reducible refine Holds.keepT ?_ (State.suspRequest_keeps .refl _)
    | with_reducible refine Holds.keepT ?_ (State.colKill_keeps .refl _)
    | split
    | ((with_reducible refine Holds.col ?_ _ ?ha ?hb ?hc); (case ha => rfl); (case hb => rfl); (case hc => rfl))
    | with_reducible refine Holds.suspNone ?_
    | intro _
    | dsimp only

theorem State.writeDbg_holds {s u : State} (h : Holds s u) (x1 : Nat) (x2 : Word) :
    Holds s (State.writeDbg u x1 x2) := by
  unfold State.writeDbg
  repeat' first
    | with_reducible assumption
    | with_reducible apply Holds.foldl
    | with_reducible apply State.dbgInject_holds
    | with_reducible apply State.hpForce_holds
    | split
    | with_reducible refine Holds.dbg ?_ _
    | intro _
    | dsimp only

theorem State.writeGst_holds {s u : State} (h : Holds s u) (x1 : Nat) (x2 : Word) (hx : x1 ≠ 4)  :
    Holds s (State.writeGst u x1 x2) := by
  unfold State.writeGst
  rw [if_neg hx]
  split
  · exact h.gst _ id id (fun _ k => k)
  · split
    · exact State.writeRd_holds h _
    · exact h

theorem State.writeImg_holds {s u : State} (h : Holds s u) (x1 : Nat) (x2 : Word) :
    Holds s (State.writeImg u x1 x2) := by
  unfold State.writeImg
  repeat' first
    | with_reducible assumption
    | with_reducible apply Holds.foldl
    | with_reducible apply State.signoff_holds
    | with_reducible apply State.load_holds
    | split
    | with_reducible refine Holds.img ?_ _
    | intro _
    | dsimp only

theorem State.writePwr_holds {s u : State} (h : Holds s u) (x1 : Nat) (x2 : Word) :
    Holds s (State.writePwr u x1 x2) := by
  unfold State.writePwr
  repeat' first
    | with_reducible assumption
    | with_reducible apply Holds.foldl
    | with_reducible apply State.pwrCfg_holds
    | split
    | ((with_reducible refine Holds.pwr ?_ _ ?ha ?hb); (case ha => rfl); (case hb => rfl))
    | intro _
    | dsimp only

theorem State.writeTil_holds {s u : State} (h : Holds s u) (x1 : Nat) (x2 : Word) :
    Holds s (State.writeTil u x1 x2) := by
  unfold State.writeTil
  repeat' first
    | with_reducible assumption
    | with_reducible apply Holds.foldl
    | with_reducible apply State.tilForce_holds
    | with_reducible apply State.histCtrl_holds
    | split
    | ((with_reducible refine Holds.tilth ?_ _ ?ha ?hb); (case ha => rfl); (case hb => rfl))
    | intro _
    | dsimp only

theorem State.writeTime_holds {s u : State} (h : Holds s u) (x1 : Nat) (x2 : Word) :
    Holds s (State.writeTime u x1 x2) := by
  unfold State.writeTime
  repeat' first
    | with_reducible assumption
    | with_reducible apply Holds.foldl
    | with_reducible apply State.gcPeriod_holds
    | split
    | ((with_reducible refine Holds.time ?_ _ ?ha); (case ha => rfl))
    | intro _
    | dsimp only

theorem State.regWrite_holds {s u : State} (h : Holds s u) (x1 : Nat) (x2 : Word) (h1 : x1 ≠ 0x10) (h2 : x1 ≠ 0x14) (h3 : x1 ≠ 0x2004)  :
    Holds s (State.regWrite u x1 x2) := by
  have n1 : ∀ t : State, (if x1 = 0x10 then u.acceptWrite false x2 else if x1 = 0x14 then u.acceptWrite true x2 else t) = t :=
    fun t => by rw [if_neg h1, if_neg h2]
  unfold State.regWrite
  rw [n1]
  repeat' first
    | with_reducible assumption
    | with_reducible apply State.writeImg_holds
    | (with_reducible refine State.writeGst_holds ?_ _ _ (fun e => by omega))
    | with_reducible apply State.wlProg_holds
    | with_reducible apply State.writeTime_holds
    | with_reducible apply State.writeTil_holds
    | with_reducible apply State.writePwr_holds
    | with_reducible apply State.writeChan_holds
    | with_reducible apply State.writeCol_holds
    | with_reducible apply State.writeDbg_holds
    | with_reducible refine Holds.keepT ?_ (State.evtClr_keeps .refl _ _)
    | with_reducible refine Holds.keepT ?_ (State.entryAbort_keeps .refl _ _)
    | with_reducible refine Holds.keepT ?_ (State.stkCtrl_keeps .refl _ _)
    | (with_reducible refine Holds.ite (fun _ => ?_) (fun _ => ?_))
    | with_reducible exact h.hist _ rfl (fun k => mput_wf _ _ _ _ k)
    | with_reducible exact h.keepT (Keeps.setHoop .refl _ _ rfl)
    | with_reducible exact h.exc _
    | with_reducible exact h.upd _
    | extract_lets
    | (dsimp only [])

theorem State.writeAccess_holds {s u : State} (h : Holds s u) (x1 : BitVec 18) (x2 : Word) (h1 : x1 ≠ 0x4#18) (h2 : x1 ≠ 0x5#18) (h3 : x1 ≠ 0x801#18)  :
    Holds s (State.writeAccess u x1 x2) := by
  unfold State.writeAccess
  dsimp only
  exact State.ctDone_holds (State.regWrite_holds h _ _ (by bv_omega) (by bv_omega) (by bv_omega)) _ _

theorem State.wir_holds {s u : State} (h : Holds s u) (x1 : BitVec 4) :
    Holds s (State.wir u x1) := by
  unfold State.wir
  repeat' first
    | with_reducible assumption
    | with_reducible apply Holds.foldl
    | split
    | ((with_reducible refine Holds.wrap ?_ _ ?ha ?hb); (case ha => rfl); (case hb => rfl))
    | intro _
    | dsimp only

theorem State.capture_holds {s u : State} (h : Holds s u) :
    Holds s (State.capture u) := h.put_wrap_free _ _ id id

theorem State.enterTest_holds {s u : State} (h : Holds s u) :
    Holds s (State.enterTest u) := by
  unfold State.enterTest
  split
  · exact h
  · refine Holds.img ?_ _
    split
    · exact State.invalidate_holds h
    · exact h.keepT (State.orphanLoader_keeps .refl)

/-- Writing several entries of a map keeps its form. -/
theorem mput_fold_wf {α : Type} [DecidableEq α] (z : α) (f : Nat → α) (l : List Nat) (m : Map α) (h : mwf z m = true) :
    mwf z (l.foldl (fun m i => mput z m i (f i)) m) = true := by
  induction l generalizing m with
  | nil => exact h
  | cons x l ih => exact ih _ (mput_wf _ _ _ _ h)

theorem State.mbist_holds {s u : State} (h : Holds s u) :
    Holds s (State.mbist u) := by
  unfold State.mbist
  have k := mput_fold_wf Bist.zero (fun i => bistOf (Config.mbistResult u.free i)) (List.range 160) u.wrap.bist
  generalize List.range 160 = l at k ⊢
  exact h.put_wrap_free _ _ k id

theorem State.dlysweep_holds {s u : State} (h : Holds s u) :
    Holds s (State.dlysweep u) := by
  unfold State.dlysweep
  have k := mput_fold_wf Sweep.zero (fun i => sweepOf (Config.sweepResult u.free i)) (List.range 160) u.wrap.sweep
  generalize List.range 160 = l at k ⊢
  exact h.put_wrap_free _ _ id k

theorem State.szCtrl_holds {s u : State} (h : Holds s u) (x1 : BitVec 51) (x2 : Bool) (hw : x1.getLsbD 0 = true → BitVec.ofNat 18 (fld x1.toNat 18 1) ≠ 0x4#18 ∧
      BitVec.ofNat 18 (fld x1.toNat 18 1) ≠ 0x5#18 ∧ BitVec.ofNat 18 (fld x1.toNat 18 1) ≠ 0x801#18) :
    Holds s (State.szCtrl u x1 x2) := by
  unfold State.szCtrl
  have h1 := State.wir_holds h 6
  generalize u.wir 6 = w at h1 ⊢
  dsimp only
  split
  · exact h1.wrap _ rfl rfl
  · refine Holds.wrap (Holds.ite (fun e => ?_) (fun _ => ?_)) _ rfl rfl
    · exact State.writeAccess_holds h1 _ _ (hw e).1 (hw e).2.1 (hw e).2.2
    · exact (State.readAccess_holds h1 _).settle

theorem State.departStamp_holds {s u : State} (h : Holds s u)  :
    Holds s (State.departStamp u).2 := by
  unfold State.departStamp
  repeat' first
    | with_reducible assumption
    | with_reducible apply Holds.foldl
    | with_reducible apply State.freeNext_holds
    | split
    | intro _
    | dsimp only

theorem State.departed_holds {s u : State} (h : Holds s u) (x1 : Nat) :
    Holds s (State.departed u x1) := by
  unfold State.departed
  repeat' first
    | with_reducible assumption
    | with_reducible apply Holds.foldl
    | with_reducible apply State.departStamp_holds
    | with_reducible refine Holds.keepT ?_ (Keeps.onStake .refl _ _)
    | split
    | intro _
    | dsimp only

theorem State.flitRow_holds {s u : State} (h : Holds s u) (x1 : Nat) (x2 : State → Nat → State)
    (hx : ∀ t n, Holds s t → Holds s (x2 t n)) : Holds s (State.flitRow u x1 x2) := by
  unfold State.flitRow
  refine Holds.keepT ?_ (Keeps.onStake .refl _ _)
  split
  · exact hx _ _ h
  · exact h

theorem State.lineData_holds {s u : State} (h : Holds s u) (x1 : Nat) (x2 : TxFlit) :
    Holds s (State.lineData u x1 x2) := by
  unfold State.lineData
  repeat' first
    | with_reducible assumption
    | with_reducible apply Holds.foldl
    | with_reducible refine Holds.keepT ?_ (State.line_keeps .refl _ _)
    | split
    | with_reducible refine Holds.dbg ?_ _
    | intro _
    | dsimp only

theorem State.sendNew_holds {s u : State} (h : Holds s u) (x1 : Nat) (x2 : Nat) :
    Holds s (State.sendNew u x1 x2) := by
  unfold State.sendNew
  repeat' first
    | with_reducible assumption
    | with_reducible apply Holds.foldl
    | with_reducible apply State.lineData_holds
    | with_reducible refine Holds.keepT ?_ (Keeps.setStake .refl _ _)
    | with_reducible refine Holds.keepT ?_ (Keeps.onStake .refl _ _)
    | split
    | intro _
    | dsimp only

theorem State.slotService_holds {s u : State} (h : Holds s u) (x1 : Nat) :
    Holds s (State.slotService u x1) := by
  unfold State.slotService
  repeat' first
    | with_reducible assumption
    | with_reducible apply Holds.foldl
    | with_reducible apply State.sendNew_holds
    | with_reducible apply State.lineData_holds
    | with_reducible refine Holds.keepT ?_ (State.sendTrain_keeps .refl _ _)
    | with_reducible refine Holds.keepT ?_ (State.line_keeps .refl _ _)
    | with_reducible refine Holds.keepT ?_ (State.sendLink_keeps .refl _)
    | with_reducible refine Holds.keepT ?_ (Keeps.setStake .refl _ _)
    | with_reducible refine Holds.keepT ?_ (Keeps.onStake .refl _ _)
    | split
    | intro _
    | dsimp only

theorem State.pclk_holds {s u : State} (h : Holds s u) (x1 : Nat) :
    Holds s (State.pclk u x1) := by
  unfold State.pclk
  repeat' first
    | with_reducible assumption
    | with_reducible apply Holds.foldl
    | with_reducible apply State.slotService_holds
    | (with_reducible refine State.flitRow_holds ?_ _ _ (fun t n k => by first | exact State.slotTraining_holds k _ | exact State.slotService_holds k _))
    | with_reducible apply State.departed_holds
    | with_reducible refine Holds.keepT ?_ (State.slotTraining_keeps .refl _)
    | with_reducible refine Holds.keepT ?_ (Keeps.setStake .refl _ _)
    | split
    | intro _
    | dsimp only

theorem State.pclks_holds {s u : State} (h : Holds s u) (x1 : BitVec 64) :
    Holds s (State.pclks u x1) := by
  unfold State.pclks
  repeat' first
    | with_reducible assumption
    | with_reducible apply Holds.foldl
    | with_reducible apply State.pclk_holds
    | split
    | intro _
    | dsimp only

theorem State.updCycle_holds {s u : State} (h : Holds s u)  :
    Holds s (State.updCycle u) := by
  unfold State.updCycle
  repeat' first
    | with_reducible assumption
    | with_reducible apply Holds.foldl
    | split
    | with_reducible refine Holds.upd ?_ _
    | intro _
    | dsimp only

theorem State.tick_holds {s u : State} (h : Holds s u) :
    Holds s (State.tick u) := by
  unfold State.tick
  split
  · extract_lets s1 f s2
    have h1 : Holds s s1 := by
      show Holds s (if u.time.stopped then u else { u with time := u.time.edge })
      split
      · exact h
      · refine h.time _ ?_
        unfold Time.edge Time.move
        dsimp only
        split <;> rfl
    have h2 : Holds s s2 := State.pclks_holds (State.freeNext_holds h1) _
    clear_value s2
    exact State.updCycle_holds (Holds.settle (Holds.foldl h2 _ _ (fun t n k => State.rxAll_holds k _)))
  · exact h

end Sys2Proof.Machine
end

