-- ==== Sys2Proof/Laws/Commands.lean ====
section
/-! SUPPORT. One lemma per command: it answers a next state that `Holds` relates to the present one. The commands that
write FEAT_ACCEPT or ATTN, or reset the block, stand at the end with what they do hold. -/

namespace Sys2Proof.Machine

/-- A command of a core port: held behind a WAIT, or done at once and what follows it. -/
theorem State.command_holds {s u : State} (h : Holds s u) (cp : Nat) (c : PortCmd) (f : State → State)
    (hf : ∀ t, Holds s t → Holds s (f t)) : Holds s (u.command cp c f) := by
  unfold State.command
  repeat' first
    | with_reducible assumption
    | with_reducible apply Holds.onPort
    | with_reducible apply Holds.settle
    | with_reducible apply hf
    | split
    | dsimp only

theorem execFusedIssue_holds (s : State) (x0 : Fin 1024) (x1 : List Word) (x2 : List Word) :
    NextHolds s (execFusedIssue x0 x1 x2 s) := by
  unfold execFusedIssue
  refine live_holds ?_
  exact State.command_holds .refl _ _ _ (fun t h => Holds.keepT h (State.issueNow_keeps .refl _ rfl _ _))

theorem execArm_holds (s : State) (x0 : Fin 1024) (x1 : Word) (x2 : Word × StorageEvent) :
    NextHolds s (execArm x0 x1 x2 s) := by
  unfold execArm
  refine live_holds ?_
  exact State.command_holds .refl _ _ _ (fun t h => Holds.keepT h (State.hoopCmd_keeps .refl _ _ _ _ rfl))

theorem execSignal_holds (s : State) (x0 : Fin 1024) (x1 : Word) (x2 : Word) :
    NextHolds s (execSignal x0 x1 x2 s) := by
  unfold execSignal
  refine live_holds ?_
  exact State.command_holds .refl _ _ _ (fun t h => Holds.keepT h (State.hoopCmd_keeps .refl _ _ _ _ rfl))

theorem execWait_holds (s : State) (x0 : Fin 1024) (x1 : Word) (x2 : Word × StorageEvent) :
    NextHolds s (execWait x0 x1 x2 s) := by
  unfold execWait
  refine live_holds ?_
  exact State.command_holds .refl _ _ _ (fun t h => Holds.keepT h (State.hoopCmd_keeps .refl _ _ _ _ rfl))

theorem execDisarm_holds (s : State) (x0 : Fin 1024) (x1 : Word) (x2 : Word × StorageEvent) :
    NextHolds s (execDisarm x0 x1 x2 s) := by
  unfold execDisarm
  refine live_holds ?_
  exact State.command_holds .refl _ _ _ (fun t h => Holds.keepT h (State.hoopCmd_keeps .refl _ _ _ _ rfl))

theorem execHoopSignalArrival_holds (s : State) (x0 : HoopSig) (x1 : StorageEvent) :
    NextHolds s (execHoopSignalArrival x0 x1 s) := by
  have h0 : Holds s s := .refl
  unfold execHoopSignalArrival
  refine live_holds ?_
  repeat' first
    | with_reducible assumption
    | with_reducible apply Holds.foldl
    | with_reducible refine Holds.keepT ?_ (State.arriveSignal_keeps .refl _ _ (fun _ => rfl))
    | with_reducible apply Holds.settle
    | split
    | intro _
    | dsimp only

theorem execHoopTimeout_holds (s : State) (x0 : Fin 1024) :
    NextHolds s (execHoopTimeout x0 s) := by
  have h0 : Holds s s := .refl
  unfold execHoopTimeout
  refine live_holds ?_
  repeat' first
    | with_reducible assumption
    | with_reducible apply Holds.foldl
    | with_reducible refine Holds.keepT ?_ (State.expireWait_keeps .refl _ (fun _ => rfl))
    | with_reducible apply Holds.settle
    | split
    | intro _
    | dsimp only

theorem execCtxSwitch_holds (s : State) (x0 : Fin 1024) :
    NextHolds s (execCtxSwitch x0 s) := by
  have h0 : Holds s s := .refl
  unfold execCtxSwitch
  refine live_holds ?_
  repeat' first
    | with_reducible assumption
    | with_reducible apply Holds.foldl
    | with_reducible apply State.ctxSwitch_holds
    | split
    | intro _
    | dsimp only

theorem execSendWale_holds (s : State) (x0 : Fin 1024) (x1 : BitVec 12) (x2 : List Byte) :
    NextHolds s (execSendWale x0 x1 x2 s) := by
  have h0 : Holds s s := .refl
  unfold execSendWale
  refine live_holds ?_
  repeat' first
    | with_reducible assumption
    | with_reducible apply Holds.foldl
    | with_reducible apply Holds.settle
    | with_reducible refine Holds.keepT ?_ (State.sendWale_keeps .refl _ _ _)
    | split
    | intro _
    | dsimp only

theorem execCombineWale_holds (s : State) (x0 : BitVec 12) (x1 : Word) (x2 : Point) (x3 : Nat) (x4 : StorageEvent) :
    NextHolds s (execCombineWale x0 x1 x2 x3 x4 s) := by
  have h0 : Holds s s := .refl
  unfold execCombineWale
  refine live_holds ?_
  repeat' first
    | with_reducible assumption
    | with_reducible apply Holds.foldl
    | with_reducible apply State.combineAt_holds
    | with_reducible apply Holds.settle
    | split
    | intro _
    | dsimp only

theorem execRxWaleTaken_holds (s : State) (x0 : Fin 1024) :
    NextHolds s (execRxWaleTaken x0 s) := by
  have h0 : Holds s s := .refl
  unfold execRxWaleTaken
  refine live_holds ?_
  repeat' first
    | with_reducible assumption
    | with_reducible apply Holds.foldl
    | with_reducible refine Holds.keepT ?_ (Keeps.onColl .refl _ _ _)
    | with_reducible apply Holds.onPort
    | split
    | intro _
    | dsimp only

theorem execStatusTaken_holds (s : State) (x0 : Fin 1024) :
    NextHolds s (execStatusTaken x0 s) := by
  have h0 : Holds s s := .refl
  unfold execStatusTaken
  refine live_holds ?_
  repeat' first
    | with_reducible assumption
    | with_reducible apply Holds.foldl
    | with_reducible apply Holds.onPort
    | split
    | intro _
    | dsimp only

theorem execTerminalTokenTaken_holds (s : State) (x0 : Fin 1024) :
    NextHolds s (execTerminalTokenTaken x0 s) := by
  have h0 : Holds s s := .refl
  unfold execTerminalTokenTaken
  refine live_holds ?_
  repeat' first
    | with_reducible assumption
    | with_reducible apply Holds.foldl
    | with_reducible apply State.takeToken_holds
    | split
    | intro _
    | dsimp only

theorem execAgree_holds (s : State) (x0 : Msg) :
    NextHolds s (execAgree x0 s) := by
  have h0 : Holds s s := .refl
  unfold execAgree
  refine live_holds ?_
  repeat' first
    | with_reducible assumption
    | with_reducible apply Holds.foldl
    | with_reducible apply Holds.settle
    | with_reducible apply Holds.takeMsg
    | with_reducible refine Holds.keepT ?_ (State.onAgree_keeps .refl _)
    | split
    | intro _
    | dsimp only

theorem execRefuse_holds (s : State) (x0 : Msg) :
    NextHolds s (execRefuse x0 s) := by
  have h0 : Holds s s := .refl
  unfold execRefuse
  refine live_holds ?_
  repeat' first
    | with_reducible assumption
    | with_reducible apply Holds.foldl
    | with_reducible apply Holds.settle
    | with_reducible apply Holds.takeMsg
    | with_reducible refine Holds.keepT ?_ (State.onRefuse_keeps .refl _)
    | split
    | intro _
    | dsimp only

theorem execGatherLimitExpiry_holds (s : State) (x0 : BitVec 12) (x1 : Word) :
    NextHolds s (execGatherLimitExpiry x0 x1 s) := by
  have h0 : Holds s s := .refl
  unfold execGatherLimitExpiry
  refine live_holds ?_
  repeat' first
    | with_reducible assumption
    | with_reducible apply Holds.foldl
    | with_reducible refine Holds.keepT ?_ (State.decideAbort_keeps .refl _ _ _ _ _ _)
    | split
    | intro _
    | dsimp only

theorem execReserve_holds (s : State) (x0 : Msg) :
    NextHolds s (execReserve x0 s) := by
  have h0 : Holds s s := .refl
  unfold execReserve
  refine live_holds ?_
  repeat' first
    | with_reducible assumption
    | with_reducible apply Holds.foldl
    | with_reducible refine Holds.keepT ?_ (State.onReserve_keeps .refl _)
    | with_reducible apply Holds.takeMsg
    | split
    | intro _
    | dsimp only

theorem execReserveReport_holds (s : State) (x0 : Msg) :
    NextHolds s (execReserveReport x0 s) := by
  have h0 : Holds s s := .refl
  unfold execReserveReport
  refine live_holds ?_
  repeat' first
    | with_reducible assumption
    | with_reducible apply Holds.foldl
    | with_reducible apply Holds.takeMsg
    | with_reducible refine Holds.keepT ?_ (State.onReport_keeps .refl _)
    | split
    | intro _
    | dsimp only

theorem execAdmission_holds (s : State) (x0 : Msg) :
    NextHolds s (execAdmission x0 s) := by
  have h0 : Holds s s := .refl
  unfold execAdmission
  refine live_holds ?_
  repeat' first
    | with_reducible assumption
    | with_reducible apply Holds.foldl
    | with_reducible refine Holds.keepT ?_ (State.onAdmit_keeps .refl _)
    | with_reducible apply Holds.settle
    | with_reducible apply Holds.takeMsg
    | split
    | intro _
    | dsimp only

theorem execReleaseReservation_holds (s : State) (x0 : Msg) :
    NextHolds s (execReleaseReservation x0 s) := by
  have h0 : Holds s s := .refl
  unfold execReleaseReservation
  refine live_holds ?_
  repeat' first
    | with_reducible assumption
    | with_reducible apply Holds.foldl
    | with_reducible apply Holds.takeMsg
    | with_reducible refine Holds.keepT ?_ (State.onRelease_keeps .refl _)
    | split
    | intro _
    | dsimp only

theorem execReserveRetry_holds (s : State) (x0 : BitVec 12) (x1 : Word) :
    NextHolds s (execReserveRetry x0 x1 s) := by
  have h0 : Holds s s := .refl
  unfold execReserveRetry
  refine live_holds ?_
  repeat' first
    | with_reducible assumption
    | with_reducible apply Holds.foldl
    | with_reducible refine Holds.keepT ?_ (State.startRound_keeps .refl _ _)
    | split
    | intro _
    | dsimp only

theorem execQueuedLong_holds (s : State) (x0 : BitVec 12) (x1 : Word) :
    NextHolds s (execQueuedLong x0 x1 s) := by
  have h0 : Holds s s := .refl
  unfold execQueuedLong
  refine live_holds ?_
  repeat' first
    | with_reducible assumption
    | with_reducible apply Holds.foldl
    | with_reducible refine Holds.keepT ?_ (State.queuedLong_keeps .refl _ _)
    | split
    | intro _
    | dsimp only

theorem execLaunchFire_holds (s : State) (x0 : BitVec 12) (x1 : Word) :
    NextHolds s (execLaunchFire x0 x1 s) := by
  have h0 : Holds s s := .refl
  unfold execLaunchFire
  refine live_holds ?_
  repeat' first
    | with_reducible assumption
    | with_reducible apply Holds.foldl
    | with_reducible apply Holds.settle
    | with_reducible refine Holds.keepT ?_ (State.openTry_keeps .refl _ _)
    | split
    | intro _
    | dsimp only

theorem execBoundExpiry_holds (s : State) (x0 : BitVec 12) (x1 : Word) :
    NextHolds s (execBoundExpiry x0 x1 s) := by
  have h0 : Holds s s := .refl
  unfold execBoundExpiry
  refine live_holds ?_
  repeat' first
    | with_reducible assumption
    | with_reducible apply Holds.foldl
    | with_reducible refine Holds.keepT ?_ (State.decideAbort_keeps .refl _ _ _ _ _ _)
    | split
    | intro _
    | dsimp only

theorem execFault_holds (s : State) (x0 : Msg) :
    NextHolds s (execFault x0 s) := by
  have h0 : Holds s s := .refl
  unfold execFault
  refine live_holds ?_
  repeat' first
    | with_reducible assumption
    | with_reducible apply Holds.foldl
    | with_reducible refine Holds.keepT ?_ (State.onFault_keeps .refl _)
    | with_reducible apply Holds.takeMsg
    | split
    | intro _
    | dsimp only

theorem execClose_holds (s : State) (x0 : Msg) :
    NextHolds s (execClose x0 s) := by
  have h0 : Holds s s := .refl
  unfold execClose
  refine live_holds ?_
  repeat' first
    | with_reducible assumption
    | with_reducible apply Holds.foldl
    | with_reducible apply Holds.settle
    | with_reducible apply Holds.takeMsg
    | with_reducible refine Holds.keepT ?_ (State.onClose_keeps .refl _)
    | split
    | intro _
    | dsimp only

theorem execAllSent_holds (s : State) (x0 : Msg) :
    NextHolds s (execAllSent x0 s) := by
  have h0 : Holds s s := .refl
  unfold execAllSent
  refine live_holds ?_
  repeat' first
    | with_reducible assumption
    | with_reducible apply Holds.foldl
    | with_reducible refine Holds.keepT ?_ (State.onAllSent_keeps .refl _)
    | with_reducible apply Holds.settle
    | with_reducible apply Holds.takeMsg
    | split
    | intro _
    | dsimp only

theorem execToken_holds (s : State) (x0 : Msg) :
    NextHolds s (execToken x0 s) := by
  have h0 : Holds s s := .refl
  unfold execToken
  refine live_holds ?_
  repeat' first
    | with_reducible assumption
    | with_reducible apply Holds.foldl
    | with_reducible apply Holds.settle
    | with_reducible refine Holds.keepT ?_ (State.onToken_keeps .refl _)
    | with_reducible apply Holds.takeMsg
    | split
    | intro _
    | dsimp only

theorem execFprint_holds (s : State) (x0 : Msg) :
    NextHolds s (execFprint x0 s) := by
  have h0 : Holds s s := .refl
  unfold execFprint
  refine live_holds ?_
  repeat' first
    | with_reducible assumption
    | with_reducible apply Holds.foldl
    | with_reducible apply Holds.settle
    | with_reducible refine Holds.keepT ?_ (State.onFprint_keeps .refl _)
    | with_reducible apply Holds.takeMsg
    | split
    | intro _
    | dsimp only

theorem execWcred_holds (s : State) (x0 : Msg) :
    NextHolds s (execWcred x0 s) := by
  have h0 : Holds s s := .refl
  unfold execWcred
  refine live_holds ?_
  repeat' first
    | with_reducible assumption
    | with_reducible apply Holds.foldl
    | with_reducible apply Holds.settle
    | with_reducible refine Holds.keepT ?_ (State.onWcred_keeps .refl _)
    | with_reducible apply Holds.takeMsg
    | split
    | intro _
    | dsimp only

theorem execXcred_holds (s : State) (x0 : Msg) :
    NextHolds s (execXcred x0 s) := by
  have h0 : Holds s s := .refl
  unfold execXcred
  refine live_holds ?_
  repeat' first
    | with_reducible assumption
    | with_reducible apply Holds.foldl
    | with_reducible apply Holds.settle
    | with_reducible apply Holds.takeMsg
    | with_reducible refine Holds.keepT ?_ (State.onXcred_keeps .refl _)
    | split
    | intro _
    | dsimp only

theorem execLost_holds (s : State) (x0 : Msg) :
    NextHolds s (execLost x0 s) := by
  have h0 : Holds s s := .refl
  unfold execLost
  refine live_holds ?_
  repeat' first
    | with_reducible assumption
    | with_reducible apply Holds.foldl
    | with_reducible refine Holds.keepT ?_ (State.onLost_keeps .refl _)
    | with_reducible apply Holds.takeMsg
    | split
    | intro _
    | dsimp only

theorem execEntryAbort_holds (s : State) (x0 : Fin 512) (x1 : Word) :
    NextHolds s (execEntryAbort x0 x1 s) := by
  have h0 : Holds s s := .refl
  unfold execEntryAbort
  refine live_holds ?_
  repeat' first
    | with_reducible assumption
    | with_reducible apply Holds.foldl
    | with_reducible refine Holds.keepT ?_ (State.entryAbort_keeps .refl _ _)
    | split
    | intro _
    | dsimp only

theorem execColKill_holds (s : State) (x0 : Word) :
    NextHolds s (execColKill x0 s) := by
  have h0 : Holds s s := .refl
  unfold execColKill
  refine live_holds ?_
  repeat' first
    | with_reducible assumption
    | with_reducible apply Holds.foldl
    | with_reducible refine Holds.keepT ?_ (State.colKill_keeps .refl _)
    | split
    | intro _
    | dsimp only

theorem execSuspend_holds (s : State) (x0 : Word) :
    NextHolds s (execSuspend x0 s) := by
  have h0 : Holds s s := .refl
  unfold execSuspend
  refine live_holds ?_
  repeat' first
    | with_reducible assumption
    | with_reducible apply Holds.foldl
    | with_reducible refine Holds.keepT ?_ (State.suspRequest_keeps .refl _)
    | split
    | intro _
    | dsimp only

theorem execResume_holds (s : State) (x0 : Word) :
    NextHolds s (execResume x0 s) := by
  have h0 : Holds s s := .refl
  unfold execResume
  refine live_holds ?_
  repeat' first
    | with_reducible assumption
    | with_reducible apply Holds.foldl
    | with_reducible refine Holds.keepT ?_ (State.suspRequest_keeps .refl _)
    | split
    | intro _
    | dsimp only

theorem execSusp_holds (s : State) (x0 : Msg) :
    NextHolds s (execSusp x0 s) := by
  have h0 : Holds s s := .refl
  unfold execSusp
  refine live_holds ?_
  repeat' first
    | with_reducible assumption
    | with_reducible apply Holds.foldl
    | with_reducible refine Holds.keepT ?_ (State.onSusp_keeps .refl _)
    | with_reducible apply Holds.takeMsg
    | split
    | intro _
    | dsimp only

theorem execSuspendDrainDone_holds (s : State) (x0 : BitVec 12) :
    NextHolds s (execSuspendDrainDone x0 s) := by
  have h0 : Holds s s := .refl
  unfold execSuspendDrainDone
  refine live_holds ?_
  repeat' first
    | with_reducible assumption
    | with_reducible apply Holds.foldl
    | with_reducible refine Holds.keepT ?_ (State.drainDone_keeps .refl _)
    | split
    | intro _
    | dsimp only

theorem execSuspendRecordWritten_holds (s : State) (x0 : BitVec 12) :
    NextHolds s (execSuspendRecordWritten x0 s) := by
  have h0 : Holds s s := .refl
  unfold execSuspendRecordWritten
  refine live_holds ?_
  repeat' first
    | with_reducible assumption
    | with_reducible apply Holds.foldl
    | with_reducible refine Holds.keepT ?_ (State.recordWritten_keeps .refl _)
    | split
    | intro _
    | dsimp only

theorem execResumeReloadDone_holds (s : State) (x0 : BitVec 12) :
    NextHolds s (execResumeReloadDone x0 s) := by
  have h0 : Holds s s := .refl
  unfold execResumeReloadDone
  refine live_holds ?_
  repeat' first
    | with_reducible assumption
    | with_reducible apply Holds.foldl
    | with_reducible apply State.reloadDone_holds
    | split
    | intro _
    | dsimp only

theorem execSuspDone_holds (s : State) (x0 : Msg) :
    NextHolds s (execSuspDone x0 s) := by
  have h0 : Holds s s := .refl
  unfold execSuspDone
  refine live_holds ?_
  repeat' first
    | with_reducible assumption
    | with_reducible apply Holds.foldl
    | with_reducible refine Holds.keepT ?_ (State.onSuspDone_keeps .refl _)
    | with_reducible apply Holds.takeMsg
    | split
    | intro _
    | dsimp only

theorem execDataFlitReceive_holds (s : State) (x0 : Fin 16) (x1 : List Byte) (x2 : BitVec 10) :
    NextHolds s (execDataFlitReceive x0 x1 x2 s) := by
  have h0 : Holds s s := .refl
  unfold execDataFlitReceive
  refine live_holds ?_
  repeat' first
    | with_reducible assumption
    | with_reducible apply Holds.foldl
    | with_reducible apply State.rxFlit_holds
    | split
    | intro _
    | dsimp only

theorem execLinkFlitReceive_holds (s : State) (x0 : Fin 16) (x1 : List Byte) :
    NextHolds s (execLinkFlitReceive x0 x1 s) := by
  have h0 : Holds s s := .refl
  unfold execLinkFlitReceive
  refine live_holds ?_
  repeat' first
    | with_reducible assumption
    | with_reducible apply Holds.foldl
    | with_reducible apply State.rxFlit_holds
    | split
    | intro _
    | dsimp only

theorem execAckTimeout_holds (s : State) (x0 : Fin 16) :
    NextHolds s (execAckTimeout x0 s) := by
  have h0 : Holds s s := .refl
  unfold execAckTimeout
  refine live_holds ?_
  repeat' first
    | with_reducible assumption
    | with_reducible apply Holds.foldl
    | with_reducible refine Holds.keepT ?_ (Keeps.setStake .refl _ _)
    | with_reducible refine Holds.keepT ?_ (State.retrain_keeps .refl _ _ _)
    | split
    | intro _
    | dsimp only

theorem execNakRepeat_holds (s : State) (x0 : Fin 16) :
    NextHolds s (execNakRepeat x0 s) := by
  have h0 : Holds s s := .refl
  unfold execNakRepeat
  refine live_holds ?_
  repeat' first
    | with_reducible assumption
    | with_reducible apply Holds.foldl
    | with_reducible refine Holds.keepT ?_ (State.sendLink_keeps .refl _)
    | split
    | intro _
    | dsimp only

theorem execLinkFlitDue_holds (s : State) (x0 : Fin 16) :
    NextHolds s (execLinkFlitDue x0 s) := by
  have h0 : Holds s s := .refl
  unfold execLinkFlitDue
  refine live_holds ?_
  repeat' first
    | with_reducible assumption
    | with_reducible apply Holds.foldl
    | with_reducible refine Holds.keepT ?_ (State.sendLink_keeps .refl _)
    | split
    | intro _
    | dsimp only

theorem execReplayShadowEnd_holds (s : State) (x0 : Fin 16) :
    NextHolds s (execReplayShadowEnd x0 s) := by
  have h0 : Holds s s := .refl
  unfold execReplayShadowEnd
  refine live_holds ?_
  repeat' first
    | with_reducible assumption
    | with_reducible apply Holds.foldl
    | with_reducible refine Holds.keepT ?_ (Keeps.onStake .refl _ _)
    | split
    | intro _
    | dsimp only

theorem execTrainFlitReceive_holds (s : State) (x0 : Fin 16) (x1 : List Byte) (x2 : BitVec 10) :
    NextHolds s (execTrainFlitReceive x0 x1 x2 s) := by
  have h0 : Holds s s := .refl
  unfold execTrainFlitReceive
  refine live_holds ?_
  repeat' first
    | with_reducible assumption
    | with_reducible apply Holds.foldl
    | with_reducible apply State.rxFlit_holds
    | split
    | intro _
    | dsimp only

theorem execIdFlitDue_holds (s : State) (x0 : Fin 16) :
    NextHolds s (execIdFlitDue x0 s) := by
  have h0 : Holds s s := .refl
  unfold execIdFlitDue
  refine live_holds ?_
  repeat' first
    | with_reducible assumption
    | with_reducible apply Holds.foldl
    | with_reducible refine Holds.keepT ?_ (State.sendTrain_keeps .refl _ _)
    | split
    | intro _
    | dsimp only

theorem execProbeRetry_holds (s : State) (x0 : Fin 16) :
    NextHolds s (execProbeRetry x0 s) := by
  have h0 : Holds s s := .refl
  unfold execProbeRetry
  refine live_holds ?_
  repeat' first
    | with_reducible assumption
    | with_reducible apply Holds.foldl
    | with_reducible refine Holds.keepT ?_ (State.sendTrain_keeps .refl _ _)
    | split
    | intro _
    | dsimp only

theorem execTrainingWord_holds (s : State) (x0 : Fin 16) (x1 : Fin 8) (x2 : BitVec 256) :
    NextHolds s (execTrainingWord x0 x1 x2 s) := by
  have h0 : Holds s s := .refl
  unfold execTrainingWord
  refine live_holds ?_
  repeat' first
    | with_reducible assumption
    | with_reducible apply Holds.foldl
    | with_reducible refine Holds.keepT ?_ (State.trainWord_keeps .refl _ _ _)
    | split
    | intro _
    | dsimp only

theorem execTrainingTimeout_holds (s : State) (x0 : Fin 16) :
    NextHolds s (execTrainingTimeout x0 s) := by
  have h0 : Holds s s := .refl
  unfold execTrainingTimeout
  refine live_holds ?_
  repeat' first
    | with_reducible assumption
    | with_reducible apply Holds.foldl
    | with_reducible refine Holds.keepT ?_ (State.trainFail_keeps .refl _)
    | with_reducible apply Holds.settle
    | split
    | intro _
    | dsimp only

theorem execPhyResetDone_holds (s : State) (x0 : Fin 16) :
    NextHolds s (execPhyResetDone x0 s) := by
  have h0 : Holds s s := .refl
  unfold execPhyResetDone
  refine live_holds ?_
  repeat' first
    | with_reducible assumption
    | with_reducible apply Holds.foldl
    | with_reducible refine Holds.keepT ?_ (Keeps.setStake .refl _ _)
    | split
    | intro _
    | dsimp only

theorem execSkPhyRdyRise_holds (s : State) (x0 : Fin 8) (x1 : BitVec 8) :
    NextHolds s (execSkPhyRdyRise x0 x1 s) := by
  have h0 : Holds s s := .refl
  unfold execSkPhyRdyRise
  refine live_holds ?_
  repeat' first
    | with_reducible assumption
    | with_reducible apply Holds.foldl
    | with_reducible refine Holds.keepT ?_ (Keeps.onStake .refl _ _)
    | split
    | intro _
    | dsimp only

theorem execSkPhyRdyFall_holds (s : State) (x0 : Fin 8) (x1 : BitVec 8) :
    NextHolds s (execSkPhyRdyFall x0 x1 s) := by
  unfold execSkPhyRdyFall
  refine live_holds (Holds.settle (Holds.foldl .refl _ _ (fun t n h => ?_)))
  exact Holds.keepT (h.keepT (Keeps.onStake .refl _ _)) (State.laneLost_keeps .refl _ _ _)

theorem execSkLaneFlt_holds (s : State) (x0 : Fin 8) (x1 : BitVec 8) :
    NextHolds s (execSkLaneFlt x0 x1 s) := by
  unfold execSkLaneFlt
  refine live_holds (Holds.settle (Holds.foldl .refl _ _ (fun t n h => ?_)))
  exact Holds.keepT (h.keepT (Keeps.onStake .refl _ _)) (State.laneLost_keeps .refl _ _ _)

theorem execRetrain_holds (s : State) (x0 : Fin 16) :
    NextHolds s (execRetrain x0 s) := by
  have h0 : Holds s s := .refl
  unfold execRetrain
  refine live_holds ?_
  repeat' first
    | with_reducible assumption
    | with_reducible apply Holds.foldl
    | with_reducible refine Holds.keepT ?_ (State.retrainReq_keeps .refl _)
    | split
    | intro _
    | dsimp only

theorem execClrcnt_holds (s : State) (x0 : Fin 16) :
    NextHolds s (execClrcnt x0 s) := by
  have h0 : Holds s s := .refl
  unfold execClrcnt
  refine live_holds ?_
  repeat' first
    | with_reducible assumption
    | with_reducible apply Holds.foldl
    | with_reducible refine Holds.keepT ?_ (Keeps.onStake .refl _ _)
    | split
    | intro _
    | dsimp only

theorem execSyncDue_holds (s : State)  :
    NextHolds s (execSyncDue s) := by
  have h0 : Holds s s := .refl
  unfold execSyncDue
  refine live_holds ?_
  repeat' first
    | with_reducible assumption
    | with_reducible apply Holds.foldl
    | with_reducible apply State.syncAll_holds
    | split
    | intro _
    | dsimp only

theorem execSync_holds (s : State) (x0 : Fin 16) (x1 : BitVec 16) (x2 : BitVec 8) (x3 : BitVec 16) (x4 : BitVec 10) :
    NextHolds s (execSync x0 x1 x2 x3 x4 s) := by
  have h0 : Holds s s := .refl
  unfold execSync
  refine live_holds ?_
  repeat' first
    | with_reducible assumption
    | with_reducible apply Holds.foldl
    | with_reducible apply State.onSync_holds
    | split
    | intro _
    | dsimp only

theorem execFollow_holds (s : State) (x0 : Fin 16) (x1 : BitVec 16) (x2 : BitVec 8) (x3 : BitVec 16) (x4 : BitVec 64) (x5 : BitVec 16) :
    NextHolds s (execFollow x0 x1 x2 x3 x4 x5 s) := by
  have h0 : Holds s s := .refl
  unfold execFollow
  refine live_holds ?_
  repeat' first
    | with_reducible assumption
    | with_reducible apply Holds.foldl
    | with_reducible apply State.onFollow_holds
    | split
    | intro _
    | dsimp only

theorem execTimeHoldover_holds (s : State)  :
    NextHolds s (execTimeHoldover s) := by
  have h0 : Holds s s := .refl
  unfold execTimeHoldover
  refine live_holds ?_
  repeat' first
    | with_reducible assumption
    | with_reducible apply Holds.foldl
    | with_reducible refine Holds.keepT ?_ (Keeps.logEv .refl _ _ _ _ _ _ _ _)
    | split
    | ((with_reducible refine Holds.time ?_ _ ?ha); (case ha => rfl))
    | intro _
    | dsimp only

theorem execRefclkLost_holds (s : State)  :
    NextHolds s (execRefclkLost s) := by
  have h0 : Holds s s := .refl
  unfold execRefclkLost
  refine live_holds ?_
  repeat' first
    | with_reducible assumption
    | with_reducible apply Holds.foldl
    | with_reducible apply State.refLost_holds
    | split
    | intro _
    | dsimp only

theorem execRefclkRestored_holds (s : State)  :
    NextHolds s (execRefclkRestored s) := by
  have h0 : Holds s s := .refl
  unfold execRefclkRestored
  refine live_holds ?_
  repeat' first
    | with_reducible assumption
    | with_reducible apply Holds.foldl
    | split
    | ((with_reducible refine Holds.time ?_ _ ?ha); (case ha => rfl))
    | intro _
    | dsimp only

theorem execCalibration_holds (s : State)  :
    NextHolds s (execCalibration s) := by
  have h0 : Holds s s := .refl
  unfold execCalibration
  refine live_holds ?_
  repeat' first
    | with_reducible assumption
    | with_reducible apply Holds.foldl
    | split
    | ((with_reducible refine Holds.tilth ?_ _ ?ha ?hb); (case ha => rfl); (case hb => rfl))
    | intro _
    | dsimp only

theorem execMonitorSample_holds (s : State) (x0 : Fin 1040) (x1 : Bool) (x2 : Int) (x3 : Nat) :
    NextHolds s (execMonitorSample x0 x1 x2 x3 s) := by
  have h0 : Holds s s := .refl
  unfold execMonitorSample
  refine live_holds ?_
  repeat' first
    | with_reducible assumption
    | with_reducible apply Holds.foldl
    | with_reducible apply State.sample_holds
    | split
    | intro _
    | dsimp only

theorem execTilthWindowEnd_holds (s : State) (x0 : Fin 1040) :
    NextHolds s (execTilthWindowEnd x0 s) := by
  have h0 : Holds s s := .refl
  unfold execTilthWindowEnd
  refine live_holds ?_
  repeat' first
    | with_reducible assumption
    | with_reducible apply Holds.foldl
    | with_reducible apply State.windowEnd_holds
    | split
    | intro _
    | dsimp only

theorem execTapChangeApply_holds (s : State) (x0 : Fin 1040) (x1 : Bool) :
    NextHolds s (execTapChangeApply x0 x1 s) := by
  have h0 : Holds s s := .refl
  unfold execTapChangeApply
  refine live_holds ?_
  repeat' first
    | with_reducible assumption
    | with_reducible apply Holds.foldl
    | with_reducible apply State.applyTap_holds
    | split
    | intro _
    | dsimp only

theorem execSnap_holds (s : State) (x0 : Word) :
    NextHolds s (execSnap x0 s) := by
  have h0 : Holds s s := .refl
  unfold execSnap
  refine live_holds ?_
  repeat' first
    | with_reducible assumption
    | with_reducible apply Holds.foldl
    | with_reducible apply State.histCtrl_holds
    | split
    | intro _
    | dsimp only

theorem execSnapshotCopy_holds (s : State)  :
    NextHolds s (execSnapshotCopy s) := by
  have h0 : Holds s s := .refl
  unfold execSnapshotCopy
  refine live_holds ?_
  repeat' first
    | with_reducible assumption
    | with_reducible apply Holds.foldl
    | with_reducible apply State.snapCopy_holds
    | split
    | intro _
    | dsimp only

theorem execHistoryLoad_holds (s : State) (x0 : Word) :
    NextHolds s (execHistoryLoad x0 s) := by
  have h0 : Holds s s := .refl
  unfold execHistoryLoad
  refine live_holds ?_
  repeat' first
    | with_reducible assumption
    | with_reducible apply Holds.foldl
    | with_reducible apply State.histCtrl_holds
    | split
    | intro _
    | dsimp only

theorem execTilForce_holds (s : State) (x0 : Word) :
    NextHolds s (execTilForce x0 s) := by
  have h0 : Holds s s := .refl
  unfold execTilForce
  refine live_holds ?_
  repeat' first
    | with_reducible assumption
    | with_reducible apply Holds.foldl
    | with_reducible apply State.tilForce_holds
    | split
    | intro _
    | dsimp only

theorem execGovernorInterval_holds (s : State) (x0 : List Nat) (x1 : Nat) :
    NextHolds s (execGovernorInterval x0 x1 s) := by
  have h0 : Holds s s := .refl
  unfold execGovernorInterval
  refine live_holds ?_
  repeat' first
    | with_reducible assumption
    | with_reducible apply Holds.foldl
    | with_reducible apply State.governor_holds
    | split
    | intro _
    | dsimp only

theorem execThrottleChange_holds (s : State) (x0 : BitVec 4) :
    NextHolds s (execThrottleChange x0 s) := by
  have h0 : Holds s s := .refl
  unfold execThrottleChange
  refine live_holds ?_
  repeat' first
    | with_reducible assumption
    | with_reducible apply Holds.foldl
    | with_reducible apply State.throttle_holds
    | split
    | intro _
    | dsimp only

theorem execPwrCfgWrite_holds (s : State) (x0 : Word) :
    NextHolds s (execPwrCfgWrite x0 s) := by
  have h0 : Holds s s := .refl
  unfold execPwrCfgWrite
  refine live_holds ?_
  repeat' first
    | with_reducible assumption
    | with_reducible apply Holds.foldl
    | with_reducible apply State.pwrCfg_holds
    | split
    | intro _
    | dsimp only

theorem execFdEn_holds (s : State) (x0 : Fin 64) (x1 : Word) :
    NextHolds s (execFdEn x0 x1 s) := by
  have h0 : Holds s s := .refl
  unfold execFdEn
  refine live_holds ?_
  repeat' first
    | with_reducible assumption
    | with_reducible apply Holds.foldl
    | with_reducible apply State.fdCtrl_holds
    | split
    | intro _
    | dsimp only

theorem execFdDisable_holds (s : State) (x0 : Fin 64) (x1 : Word) :
    NextHolds s (execFdDisable x0 x1 s) := by
  have h0 : Holds s s := .refl
  unfold execFdDisable
  refine live_holds ?_
  repeat' first
    | with_reducible assumption
    | with_reducible apply Holds.foldl
    | with_reducible apply State.fdCtrl_holds
    | split
    | intro _
    | dsimp only

theorem execFdPriWrite_holds (s : State) (x0 : Fin 64) (x1 : Word) :
    NextHolds s (execFdPriWrite x0 x1 s) := by
  have h0 : Holds s s := .refl
  unfold execFdPriWrite
  refine live_holds ?_
  repeat' first
    | with_reducible assumption
    | with_reducible apply Holds.foldl
    | with_reducible apply State.fdCtrl_holds
    | split
    | intro _
    | dsimp only

theorem execFeederBeatRequest_holds (s : State) (x0 : BitVec 4) :
    NextHolds s (execFeederBeatRequest x0 s) := by
  have h0 : Holds s s := .refl
  unfold execFeederBeatRequest
  refine live_holds ?_
  repeat' first
    | with_reducible assumption
    | with_reducible apply Holds.foldl
    | with_reducible apply State.beatRequest_holds
    | with_reducible apply Holds.settle
    | split
    | intro _
    | dsimp only

theorem execMemoryResponse_holds (s : State) (x0 : Fin 4) (x1 : BitVec 8) (x2 : Bool) (x3 : Bool) (x4 : List Byte) :
    NextHolds s (execMemoryResponse x0 x1 x2 x3 x4 s) := by
  have h0 : Holds s s := .refl
  unfold execMemoryResponse
  refine live_holds ?_
  repeat' first
    | with_reducible assumption
    | with_reducible apply Holds.foldl
    | with_reducible apply State.memResponse_holds
    | with_reducible apply Holds.settle
    | split
    | intro _
    | dsimp only

theorem execCounterTrigger_holds (s : State) (x0 : Fin 64) :
    NextHolds s (execCounterTrigger x0 s) := by
  have h0 : Holds s s := .refl
  unfold execCounterTrigger
  refine live_holds ?_
  repeat' first
    | with_reducible assumption
    | with_reducible apply Holds.foldl
    | with_reducible refine Holds.keepT ?_ (State.tryTrigger_keeps .refl _)
    | with_reducible apply Holds.settle
    | split
    | intro _
    | dsimp only

theorem execEvtIn_holds (s : State) (x0 : Fin 16) (x1 : Bool) :
    NextHolds s (execEvtIn x0 x1 s) := by
  have h0 : Holds s s := .refl
  unfold execEvtIn
  refine live_holds ?_
  repeat' first
    | with_reducible assumption
    | with_reducible apply Holds.foldl
    | with_reducible apply State.onEvt_holds
    | split
    | intro _
    | dsimp only

theorem execEvtOutPulseEnd_holds (s : State) (x0 : Fin 17) :
    NextHolds s (execEvtOutPulseEnd x0 s) := by
  have h0 : Holds s s := .refl
  unfold execEvtOutPulseEnd
  refine live_holds ?_
  repeat' first
    | with_reducible assumption
    | with_reducible apply Holds.foldl
    | with_reducible refine Holds.keepT ?_ (State.pulseEnd_keeps .refl _)
    | split
    | intro _
    | dsimp only

theorem execFdEvtClr_holds (s : State) (x0 : Fin 16) (x1 : Word) :
    NextHolds s (execFdEvtClr x0 x1 s) := by
  have h0 : Holds s s := .refl
  unfold execFdEvtClr
  refine live_holds ?_
  repeat' first
    | with_reducible assumption
    | with_reducible apply Holds.foldl
    | with_reducible refine Holds.keepT ?_ (State.evtClr_keeps .refl _ _)
    | split
    | intro _
    | dsimp only

theorem execUpdateBeatTaken_holds (s : State)  :
    NextHolds s (execUpdateBeatTaken s) := by
  have h0 : Holds s s := .refl
  unfold execUpdateBeatTaken
  refine live_holds ?_
  repeat' first
    | with_reducible assumption
    | with_reducible apply Holds.foldl
    | with_reducible apply Holds.settle
    | with_reducible refine Holds.keepT ?_ (State.updTake_keeps .refl)
    | split
    | intro _
    | dsimp only

theorem execFuseAck_holds (s : State) (x0 : BitVec 16) (x1 : Bool) (x2 : Bool) :
    NextHolds s (execFuseAck x0 x1 x2 s) := by
  have h0 : Holds s s := .refl
  unfold execFuseAck
  refine live_holds ?_
  repeat' first
    | with_reducible assumption
    | with_reducible apply Holds.foldl
    | with_reducible apply State.fuseAck_holds
    | split
    | intro _
    | dsimp only

theorem execFuseTimeout_holds (s : State)  :
    NextHolds s (execFuseTimeout s) := by
  have h0 : Holds s s := .refl
  unfold execFuseTimeout
  refine live_holds ?_
  repeat' first
    | with_reducible assumption
    | with_reducible apply Holds.foldl
    | with_reducible apply State.fuseTimeout_holds
    | split
    | intro _
    | dsimp only

theorem execWlProg_holds (s : State) (x0 : Word) :
    NextHolds s (execWlProg x0 s) := by
  have h0 : Holds s s := .refl
  unfold execWlProg
  refine live_holds ?_
  repeat' first
    | with_reducible assumption
    | with_reducible apply Holds.foldl
    | with_reducible apply State.wlProg_holds
    | split
    | intro _
    | dsimp only

theorem execGcPeriodWrite_holds (s : State) (x0 : Word) :
    NextHolds s (execGcPeriodWrite x0 s) := by
  have h0 : Holds s s := .refl
  unfold execGcPeriodWrite
  refine live_holds ?_
  repeat' first
    | with_reducible assumption
    | with_reducible apply Holds.foldl
    | with_reducible apply State.gcPeriod_holds
    | split
    | intro _
    | dsimp only

theorem execLoad_holds (s : State) (x0 : Word) :
    NextHolds s (execLoad x0 s) := by
  have h0 : Holds s s := .refl
  unfold execLoad
  refine live_holds ?_
  repeat' first
    | with_reducible assumption
    | with_reducible apply Holds.foldl
    | with_reducible apply State.load_holds
    | split
    | intro _
    | dsimp only

theorem execImageCheckDone_holds (s : State)  :
    NextHolds s (execImageCheckDone s) := by
  have h0 : Holds s s := .refl
  unfold execImageCheckDone
  refine live_holds ?_
  repeat' first
    | with_reducible assumption
    | with_reducible apply Holds.foldl
    | with_reducible apply State.checkDone_holds
    | split
    | intro _
    | dsimp only

theorem execImageApplyDone_holds (s : State)  :
    NextHolds s (execImageApplyDone s) := by
  have h0 : Holds s s := .refl
  unfold execImageApplyDone
  refine live_holds ?_
  repeat' first
    | with_reducible assumption
    | with_reducible apply Holds.foldl
    | with_reducible apply State.applyDone_holds
    | split
    | intro _
    | dsimp only

theorem execSignoff_holds (s : State) (x0 : Word) :
    NextHolds s (execSignoff x0 s) := by
  have h0 : Holds s s := .refl
  unfold execSignoff
  refine live_holds ?_
  repeat' first
    | with_reducible assumption
    | with_reducible apply Holds.foldl
    | with_reducible apply State.signoff_holds
    | split
    | intro _
    | dsimp only

theorem execGstLogRdWrite_holds (s : State) (x0 : Word) :
    NextHolds s (execGstLogRdWrite x0 s) := by
  exact live_holds (State.writeRd_holds .refl _)

theorem execSetCount_holds (s : State) (x0 : Word) :
    NextHolds s (execSetCount x0 s) := by
  have h0 : Holds s s := .refl
  unfold execSetCount
  refine live_holds ?_
  repeat' first
    | with_reducible assumption
    | with_reducible apply Holds.foldl
    | with_reducible apply State.hpForce_holds
    | split
    | intro _
    | dsimp only

theorem execSetTarget_holds (s : State) (x0 : Word) :
    NextHolds s (execSetTarget x0 s) := by
  have h0 : Holds s s := .refl
  unfold execSetTarget
  refine live_holds ?_
  repeat' first
    | with_reducible assumption
    | with_reducible apply Holds.foldl
    | with_reducible apply State.hpForce_holds
    | split
    | intro _
    | dsimp only

theorem execDebugRelease_holds (s : State) (x0 : Word) :
    NextHolds s (execDebugRelease x0 s) := by
  have h0 : Holds s s := .refl
  unfold execDebugRelease
  refine live_holds ?_
  repeat' first
    | with_reducible assumption
    | with_reducible apply Holds.foldl
    | with_reducible apply State.hpForce_holds
    | split
    | intro _
    | dsimp only

theorem execDbgInject_holds (s : State) (x0 : Word) :
    NextHolds s (execDbgInject x0 s) := by
  have h0 : Holds s s := .refl
  unfold execDbgInject
  refine live_holds ?_
  repeat' first
    | with_reducible assumption
    | with_reducible apply Holds.foldl
    | with_reducible apply State.dbgInject_holds
    | split
    | intro _
    | dsimp only

theorem execDbgEnChange_holds (s : State) (x0 : Bool) :
    NextHolds s (execDbgEnChange x0 s) := by
  have h0 : Holds s s := .refl
  unfold execDbgEnChange
  refine live_holds ?_
  repeat' first
    | with_reducible assumption
    | with_reducible apply Holds.foldl
    | split
    | with_reducible refine Holds.dbg ?_ _
    | intro _
    | dsimp only

theorem execLatchedGroupRead_holds (s : State) (x0 : BitVec 18) :
    NextHolds s (execLatchedGroupRead x0 s) := by
  have h0 : Holds s s := .refl
  unfold execLatchedGroupRead
  refine live_holds ?_
  repeat' first
    | with_reducible assumption
    | with_reducible apply Holds.foldl
    | with_reducible apply State.readAccess_holds
    | with_reducible apply Holds.settle
    | split
    | intro _
    | dsimp only

theorem execWsBypass_holds (s : State)  :
    NextHolds s (execWsBypass s) := by
  unfold execWsBypass
  exact live_holds (Holds.put_wrap_free (State.wir_holds .refl _) _ _ id id)

theorem execWsExtest_holds (s : State)  :
    NextHolds s (execWsExtest s) := by
  have h0 : Holds s s := .refl
  unfold execWsExtest
  refine live_holds ?_
  repeat' first
    | with_reducible assumption
    | with_reducible apply Holds.foldl
    | with_reducible apply State.enterTest_holds
    | with_reducible apply State.capture_holds
    | with_reducible apply State.wir_holds
    | split
    | intro _
    | dsimp only

theorem execWsIntest_holds (s : State)  :
    NextHolds s (execWsIntest s) := by
  have h0 : Holds s s := .refl
  unfold execWsIntest
  refine live_holds ?_
  repeat' first
    | with_reducible assumption
    | with_reducible apply Holds.foldl
    | with_reducible apply State.enterTest_holds
    | with_reducible apply State.capture_holds
    | with_reducible apply State.wir_holds
    | split
    | intro _
    | dsimp only

theorem execSzMbist_holds (s : State)  :
    NextHolds s (execSzMbist s) := by
  have h0 : Holds s s := .refl
  unfold execSzMbist
  refine live_holds ?_
  repeat' first
    | with_reducible assumption
    | with_reducible apply Holds.foldl
    | with_reducible apply State.mbist_holds
    | with_reducible apply State.enterTest_holds
    | with_reducible apply State.wir_holds
    | split
    | intro _
    | dsimp only

theorem execSzDlysweep_holds (s : State)  :
    NextHolds s (execSzDlysweep s) := by
  have h0 : Holds s s := .refl
  unfold execSzDlysweep
  refine live_holds ?_
  repeat' first
    | with_reducible assumption
    | with_reducible apply Holds.foldl
    | with_reducible apply State.dlysweep_holds
    | with_reducible apply State.enterTest_holds
    | with_reducible apply State.wir_holds
    | split
    | intro _
    | dsimp only

theorem execSzIdcode_holds (s : State)  :
    NextHolds s (execSzIdcode s) := by
  unfold execSzIdcode
  exact live_holds ((State.wir_holds .refl _).wrap _ rfl rfl)

theorem execIdleFlitReceive_holds (s : State) (x0 : Fin 16) (x1 : List Byte) :
    NextHolds s (execIdleFlitReceive x0 x1 s) := by
  have h0 : Holds s s := .refl
  unfold execIdleFlitReceive
  refine live_holds ?_
  repeat' first
    | with_reducible assumption
    | with_reducible apply Holds.foldl
    | with_reducible apply State.rxFlit_holds
    | split
    | intro _
    | dsimp only

theorem execHoopEntryRead_holds (s : State) (x0 : Fin 49152) (x1 : Bool) (x2 : StorageEvent) :
    NextHolds s (execHoopEntryRead x0 x1 x2 s) := by
  have h1 : Holds s (s.hoopRead x0.val x1 x2).1 := Holds.keepT .refl (State.hoopRead_keeps .refl _ _ _ rfl)
  unfold execHoopEntryRead
  exact live_holds (Holds.settle (State.ctDone_holds h1 _ _))

theorem State.acceptWrite_inv (s : State) (hi : Bool) (v : Word) (h : s.Inv) : (s.acceptWrite hi v).Inv := by
  unfold State.acceptWrite
  split
  · exact h
  · exact h

/-- A write of ATTN clears bits only. -/
theorem State.attnClear_inv (s : State) (v : Word) (h : s.Inv) :
    State.Inv { s with gst := { s.gst with attn := s.gst.attn &&& ~~~(v.setWidth 11) } } := h

theorem State.regWrite_acceptLo (s : State) (v : Word) : s.regWrite 0x10 v = s.acceptWrite false v := by
  unfold State.regWrite
  rw [if_pos (by decide), if_pos rfl]

theorem State.regWrite_acceptHi (s : State) (v : Word) : s.regWrite 0x14 v = s.acceptWrite true v := by
  unfold State.regWrite
  rw [if_pos (by decide), if_neg (by decide), if_pos rfl]

theorem State.regWrite_attn (s : State) (v : Word) :
    s.regWrite 0x2004 v = { s with gst := { s.gst with attn := s.gst.attn &&& ~~~(v.setWidth 11) } } := by
  unfold State.regWrite State.writeGst
  rw [if_neg (by decide), if_neg (by decide), if_pos (by decide), if_pos (by decide)]

/-- A register write keeps the invariant at every address. -/
theorem State.writeAccess_inv (s : State) (a : BitVec 18) (v : Word) (h : s.Inv) : (s.writeAccess a v).Inv := by
  have k : ∀ (o : Nat) (t : State), o = 4 * a.toNat → s.regWrite o v = t → t.Inv → (s.writeAccess a v).Inv := fun o t e f g => by
    unfold State.writeAccess
    dsimp only
    rw [← e, f]
    exact (State.ctDone_holds .refl _ _).inv g
  by_cases h1 : a = 0x4#18
  · exact k _ _ (by subst h1; rfl) (State.regWrite_acceptLo s v) (State.acceptWrite_inv s false v h)
  · by_cases h2 : a = 0x5#18
    · exact k _ _ (by subst h2; rfl) (State.regWrite_acceptHi s v) (State.acceptWrite_inv s true v h)
    · by_cases h3 : a = 0x801#18
      · exact k _ _ (by subst h3; rfl) (State.regWrite_attn s v) (State.attnClear_inv s v h)
      · exact (State.writeAccess_holds .refl a v h1 h2 h3).inv h

theorem execFeatAcceptWrite_inv (s : State) (hi : Bool) (v : Word) (h : s.Inv) :
    ∃ t, execFeatAcceptWrite hi v s = .next t ∧ t.Inv := by
  unfold execFeatAcceptWrite live
  split
  · exact ⟨_, rfl, State.acceptWrite_inv s hi v h⟩
  · exact ⟨_, rfl, h⟩

theorem execRegisterWrite_inv (s : State) (a : BitVec 18) (v : Word) (h : s.Inv) :
    ∃ t, execRegisterWrite a v s = .next t ∧ t.Inv := by
  unfold execRegisterWrite live
  split
  · exact ⟨_, rfl, State.writeAccess_inv s a v h⟩
  · exact ⟨_, rfl, h⟩

theorem execRegisterWrite_holds (s : State) (a : BitVec 18) (v : Word) (h1 : a ≠ 0x4#18) (h2 : a ≠ 0x5#18)
    (h3 : a ≠ 0x801#18) : NextHolds s (execRegisterWrite a v s) :=
  live_holds (State.writeAccess_holds .refl a v h1 h2 h3)

theorem State.szCtrl_inv (s : State) (r : BitVec 51) (busy : Bool) (h : s.Inv) : (s.szCtrl r busy).Inv := by
  have h1 : (s.wir 6).Inv := (State.wir_holds .refl 6).inv h
  have k : ∀ t : State, t.Inv → ∀ x : Wrap, x.bist = t.wrap.bist → x.sweep = t.wrap.sweep → State.Inv { t with wrap := x } :=
    fun t h x a b => (Holds.wrap (u := t) .refl x a b).inv h
  unfold State.szCtrl
  generalize s.wir 6 = w at h1 ⊢
  dsimp only
  split
  · exact k w h1 _ rfl rfl
  · refine k _ ?_ _ rfl rfl
    split
    · exact State.writeAccess_inv w _ _ h1
    · exact ((State.readAccess_holds .refl _).settle).inv h1

theorem execSzCtrl_inv (s : State) (r : BitVec 51) (busy : Bool) (h : s.Inv) : ∃ t, execSzCtrl r busy s = .next t ∧ t.Inv := by
  unfold execSzCtrl live
  split
  · exact ⟨_, rfl, State.szCtrl_inv s r busy h⟩
  · exact ⟨_, rfl, h⟩

theorem execSzCtrl_holds (s : State) (r : BitVec 51) (busy : Bool)
    (hw : r.getLsbD 0 = true → BitVec.ofNat 18 (fld r.toNat 18 1) ≠ 0x4#18 ∧ BitVec.ofNat 18 (fld r.toNat 18 1) ≠ 0x5#18 ∧
      BitVec.ofNat 18 (fld r.toNat 18 1) ≠ 0x801#18) : NextHolds s (execSzCtrl r busy s) :=
  live_holds (State.szCtrl_holds .refl r busy hw)

theorem execResetRelease_holds (s : State) (h : s.inReset = false) : NextHolds s (execResetRelease s) := by
  unfold execResetRelease
  simp only [h, Bool.false_eq_true, and_false, if_false]
  exact ⟨_, rfl, .refl⟩

theorem execResetRelease_inv (s : State) (h : s.Inv) : ∃ t, execResetRelease s = .next t ∧ t.Inv := by
  unfold execResetRelease
  split
  · exact ⟨_, rfl, h⟩
  · exact ⟨_, rfl, h⟩

theorem State.reset_inv : State.reset.Inv :=
  ⟨Canon.all ⟨rfl, rfl, rfl, rfl, rfl, rfl, rfl, rfl, rfl, rfl, rfl, rfl, rfl, rfl, rfl, rfl⟩, (by decide : (0 : Nat) ≤ 64), by
    unfold State.rangesOk; decide⟩

theorem execResetAssert_inv (s : State) (h : s.Inv) : ∃ t, execResetAssert s = .next t ∧ t.Inv := by
  have r := State.reset_inv
  exact ⟨_, rfl, Canon.all { r.1.fields with stakes := mmap_wf _ _ _ h.1.fields.stakes }, r.2.1, r.2.2⟩

theorem execVddSzRemoval_inv (s : State) : ∃ t, execVddSzRemoval s = .next t ∧ t.Inv := ⟨_, rfl, State.reset_inv⟩

end Sys2Proof.Machine
end

