-- ==== Sys2Proof/Laws/Receive.lean ====
section
/-! SUPPORT. What the receive buffers of VC1 to VC3 hand on never touches the counter: SYNC and FOLLOW travel on VC0 (Table SK-6).
With it, what one tick leaves of the TIME registers. -/

namespace Sys2Proof.Machine

/-- What a receiver may change when it takes a flit of VC1 to VC3. -/
def rxFlds : List Fld := [.gst, .adm, .pwr, .chans, .fdw, .hoopNet, .ports, .colls, .col, .stakes, .exc, .upd, .vc0, .free]

variable {s u : State}

theorem State.segDone_data (h : Only rxFlds s u) (n : Nat) (f : RxHeld) (hv : f.vc ≠ 0) (x : Seg) : Only rxFlds s (u.segDone n f x) := by
  unfold State.segDone
  rw [if_neg hv]
  split
  · exact State.partialArrive_only h _ _ _ (by decide)
  · exact State.downSeg_only h _ _ (by decide)
  · exact State.partialArrive_only h _ _ _ (by decide)
  · exact State.partialArrive_only h _ _ _ (by decide)
  · exact State.exSeg_only h _ _ (by decide)
  · exact State.badSeg_only h _ _ _ _ (by decide)
  · exact State.badSeg_only h _ _ _ _ (by decide)

theorem State.setFrag_data (h : Only rxFlds s u) (n vc : Nat) (f : Option Frag) : Only rxFlds s (u.setFrag n vc f) :=
  State.setFrag_only h _ _ _ (by decide)

theorem State.segTake_data (h : Only rxFlds s u) (n : Nat) (f : RxHeld) (hv : f.vc ≠ 0) (x : Seg) :
    Only rxFlds s (u.segTake n f x).1 := by
  unfold State.segTake
  repeat' first
    | with_reducible assumption
    | exact State.segDone_data h n f hv x
    | exact State.segDone_data (State.setFrag_data h _ _ _) n f hv _
    | exact State.setFrag_data h _ _ _
    | split

theorem State.segsTake_data (h : Only rxFlds s u) (n : Nat) (f : RxHeld) (hv : f.vc ≠ 0) (l : List Seg) :
    Only rxFlds s (u.segsTake n f l).1 := by
  induction l generalizing u with
  | nil => exact h
  | cons y ys ih =>
    unfold State.segsTake
    dsimp only
    have h1 := State.segTake_data h n f hv y
    split
    · exact ih h1
    · exact h1

theorem State.takeFlit_data (h : Only rxFlds s u) (n : Nat) (f : RxHeld) (hv : f.vc ≠ 0) : Only rxFlds s (u.takeFlit n f) := by
  unfold State.takeFlit
  split
  · exact State.onStake_only (State.badSeg_only h _ _ _ _ (by decide)) _ _ (by decide)
  · split
    · exact State.relayFlit_only h _ _ _ (by decide)
    · have h1 := fun l => State.onStake_only (State.segsTake_data h n f hv l) n (fun y => y.free f.vc) (by decide)
      dsimp only
      split
      · exact h1 _
      · exact State.proto_only (h1 _) _ _ _ (by decide)

/-- The flit that goes next is one of the channel. -/
theorem State.rxNext_vc (s : State) (vc : Nat) (skip : List Nat) (l : List RxHeld) (f : RxHeld) (h : s.rxNext vc skip l = some f) :
    f.vc = vc := by
  induction l generalizing skip with
  | nil => cases h
  | cons x xs ih =>
    unfold State.rxNext at h
    split at h
    · exact ih _ h
    · dsimp only at h
      split at h
      · cases h; exact Decidable.byContradiction (by assumption)
      · exact ih _ h

theorem State.rxPump_data (h : Only rxFlds s u) (k n vc : Nat) (hv : vc ≠ 0) : Only rxFlds s (State.rxPump k u n vc) := by
  induction k generalizing u with
  | zero => exact h
  | succ k ih =>
    unfold State.rxPump
    split
    · exact h
    · rename_i f e
      have hf : f.vc ≠ 0 := by rw [State.rxNext_vc _ _ _ _ _ e]; exact hv
      extract_lets a
      have ha : Only rxFlds s a.2 := by
        show Only rxFlds s (if u.rxPaced f then u.opportunity (ptStake n) else (true, u)).2
        split
        · exact State.opportunity_only h _ (by decide)
        · exact h
      split
      · exact ih (State.takeFlit_data (State.onStake_only ha _ _ (by decide)) n f hf)
      · exact ha

theorem State.rxAll_data (h : Only rxFlds s u) (n : Nat) : Only rxFlds s (u.rxAll n) := by
  unfold State.rxAll
  simp only [List.foldl]
  exact State.rxPump_data (State.rxPump_data (State.rxPump_data h _ _ _ (by decide)) _ _ _ (by decide)) _ _ _ (by decide)

/-- The TIME registers after a tick: those of the edge, and the same as before while REFCLK stands. -/
theorem State.tick_time (s : State) :
    s.tick.time = if s.alive = true ∧ s.time.stopped = false then s.time.edge else s.time := by
  unfold State.tick
  by_cases ha : s.alive = true
  · rw [if_pos ha]
    extract_lets s1 f s2
    have h1 : s1.time = if s.alive = true ∧ s.time.stopped = false then s.time.edge else s.time := by
      show State.time (if s.time.stopped then s else { s with time := s.time.edge }) = _
      by_cases hs : s.time.stopped = true
      · simp [hs]
      · simp [hs, ha]
    have h2 : s2.time = s1.time := by
      show (State.pclks f.2 f.1).time = s1.time
      rw [(State.pclks_only (w := [.stakes, .dbg, .free]) .refl f.1).time (by decide)]
      exact (State.freeNext_only (w := [.free]) (s := s1) .refl).time (by decide)
    have h3 : ∀ l : List Nat, Only rxFlds s2 (l.foldl (fun t n => t.rxAll n) s2) := fun l =>
      Only.foldl .refl _ _ (fun t n k => State.rxAll_data k n)
    have h4 := h3 (List.range 16)
    have h5 := State.settle_only (s := (List.range 16).foldl (fun t n => t.rxAll n) s2)
      (w := [.gst, .adm, .pwr, .chans, .fdw, .hoops, .hoopNet, .ports, .colls, .col, .stakes, .exc, .upd, .vc0]) .refl
    have h6 := State.updCycle_only (s := ((List.range 16).foldl (fun t n => t.rxAll n) s2).settle) (w := [.upd]) .refl
    rw [h6.time (by decide), h5.time (by decide), h4.time (by decide), h2, h1]
  · rw [if_neg ha, if_neg (fun x => ha x.1)]

end Sys2Proof.Machine
end

