-- ==== Sys2Proof/Laws/State.lean ====
section
/-! SUPPORT. One lemma per field per update of the state: what each named update leaves as it was, and what a table reads
after one of its entries is put. -/

namespace Sys2Proof.Machine

variable (s : State)

@[simp] theorem State.setPort_pending (cp : Nat) (p : Port) : (s.setPort cp p).pending = s.pending := rfl
@[simp] theorem State.setPort_powered (cp : Nat) (p : Port) : (s.setPort cp p).powered = s.powered := rfl
@[simp] theorem State.setPort_inReset (cp : Nat) (p : Port) : (s.setPort cp p).inReset = s.inReset := rfl
@[simp] theorem State.setPort_gst (cp : Nat) (p : Port) : (s.setPort cp p).gst = s.gst := rfl
@[simp] theorem State.setPort_ct (cp : Nat) (p : Port) : (s.setPort cp p).ct = s.ct := rfl
@[simp] theorem State.setPort_accept (cp : Nat) (p : Port) : (s.setPort cp p).accept = s.accept := rfl
@[simp] theorem State.setPort_img (cp : Nat) (p : Port) : (s.setPort cp p).img = s.img := rfl
@[simp] theorem State.setPort_wl (cp : Nat) (p : Port) : (s.setPort cp p).wl = s.wl := rfl
@[simp] theorem State.setPort_time (cp : Nat) (p : Port) : (s.setPort cp p).time = s.time := rfl
@[simp] theorem State.setPort_adm (cp : Nat) (p : Port) : (s.setPort cp p).adm = s.adm := rfl
@[simp] theorem State.setPort_tilth (cp : Nat) (p : Port) : (s.setPort cp p).tilth = s.tilth := rfl
@[simp] theorem State.setPort_pwr (cp : Nat) (p : Port) : (s.setPort cp p).pwr = s.pwr := rfl
@[simp] theorem State.setPort_chans (cp : Nat) (p : Port) : (s.setPort cp p).chans = s.chans := rfl
@[simp] theorem State.setPort_fdw (cp : Nat) (p : Port) : (s.setPort cp p).fdw = s.fdw := rfl
@[simp] theorem State.setPort_hoops (cp : Nat) (p : Port) : (s.setPort cp p).hoops = s.hoops := rfl
@[simp] theorem State.setPort_hoopNet (cp : Nat) (p : Port) : (s.setPort cp p).hoopNet = s.hoopNet := rfl
@[simp] theorem State.setPort_colls (cp : Nat) (p : Port) : (s.setPort cp p).colls = s.colls := rfl
@[simp] theorem State.setPort_col (cp : Nat) (p : Port) : (s.setPort cp p).col = s.col := rfl
@[simp] theorem State.setPort_stakes (cp : Nat) (p : Port) : (s.setPort cp p).stakes = s.stakes := rfl
@[simp] theorem State.setPort_exc (cp : Nat) (p : Port) : (s.setPort cp p).exc = s.exc := rfl
@[simp] theorem State.setPort_upd (cp : Nat) (p : Port) : (s.setPort cp p).upd = s.upd := rfl
@[simp] theorem State.setPort_dbg (cp : Nat) (p : Port) : (s.setPort cp p).dbg = s.dbg := rfl
@[simp] theorem State.setPort_wrap (cp : Nat) (p : Port) : (s.setPort cp p).wrap = s.wrap := rfl
@[simp] theorem State.setPort_vc0 (cp : Nat) (p : Port) : (s.setPort cp p).vc0 = s.vc0 := rfl
@[simp] theorem State.setPort_free (cp : Nat) (p : Port) : (s.setPort cp p).free = s.free := rfl

@[simp] theorem State.setHoop_pending (i : Nat) (h : Hoop) : (s.setHoop i h).pending = s.pending := rfl
@[simp] theorem State.setHoop_powered (i : Nat) (h : Hoop) : (s.setHoop i h).powered = s.powered := rfl
@[simp] theorem State.setHoop_inReset (i : Nat) (h : Hoop) : (s.setHoop i h).inReset = s.inReset := rfl
@[simp] theorem State.setHoop_gst (i : Nat) (h : Hoop) : (s.setHoop i h).gst = s.gst := rfl
@[simp] theorem State.setHoop_ct (i : Nat) (h : Hoop) : (s.setHoop i h).ct = s.ct := rfl
@[simp] theorem State.setHoop_accept (i : Nat) (h : Hoop) : (s.setHoop i h).accept = s.accept := rfl
@[simp] theorem State.setHoop_img (i : Nat) (h : Hoop) : (s.setHoop i h).img = s.img := rfl
@[simp] theorem State.setHoop_wl (i : Nat) (h : Hoop) : (s.setHoop i h).wl = s.wl := rfl
@[simp] theorem State.setHoop_time (i : Nat) (h : Hoop) : (s.setHoop i h).time = s.time := rfl
@[simp] theorem State.setHoop_adm (i : Nat) (h : Hoop) : (s.setHoop i h).adm = s.adm := rfl
@[simp] theorem State.setHoop_tilth (i : Nat) (h : Hoop) : (s.setHoop i h).tilth = s.tilth := rfl
@[simp] theorem State.setHoop_pwr (i : Nat) (h : Hoop) : (s.setHoop i h).pwr = s.pwr := rfl
@[simp] theorem State.setHoop_chans (i : Nat) (h : Hoop) : (s.setHoop i h).chans = s.chans := rfl
@[simp] theorem State.setHoop_fdw (i : Nat) (h : Hoop) : (s.setHoop i h).fdw = s.fdw := rfl
@[simp] theorem State.setHoop_hoopNet (i : Nat) (h : Hoop) : (s.setHoop i h).hoopNet = s.hoopNet := rfl
@[simp] theorem State.setHoop_ports (i : Nat) (h : Hoop) : (s.setHoop i h).ports = s.ports := rfl
@[simp] theorem State.setHoop_colls (i : Nat) (h : Hoop) : (s.setHoop i h).colls = s.colls := rfl
@[simp] theorem State.setHoop_col (i : Nat) (h : Hoop) : (s.setHoop i h).col = s.col := rfl
@[simp] theorem State.setHoop_stakes (i : Nat) (h : Hoop) : (s.setHoop i h).stakes = s.stakes := rfl
@[simp] theorem State.setHoop_exc (i : Nat) (h : Hoop) : (s.setHoop i h).exc = s.exc := rfl
@[simp] theorem State.setHoop_upd (i : Nat) (h : Hoop) : (s.setHoop i h).upd = s.upd := rfl
@[simp] theorem State.setHoop_dbg (i : Nat) (h : Hoop) : (s.setHoop i h).dbg = s.dbg := rfl
@[simp] theorem State.setHoop_wrap (i : Nat) (h : Hoop) : (s.setHoop i h).wrap = s.wrap := rfl
@[simp] theorem State.setHoop_vc0 (i : Nat) (h : Hoop) : (s.setHoop i h).vc0 = s.vc0 := rfl
@[simp] theorem State.setHoop_free (i : Nat) (h : Hoop) : (s.setHoop i h).free = s.free := rfl

@[simp] theorem State.setChan_pending (c : Nat) (x : Chan) : (s.setChan c x).pending = s.pending := rfl
@[simp] theorem State.setChan_powered (c : Nat) (x : Chan) : (s.setChan c x).powered = s.powered := rfl
@[simp] theorem State.setChan_inReset (c : Nat) (x : Chan) : (s.setChan c x).inReset = s.inReset := rfl
@[simp] theorem State.setChan_gst (c : Nat) (x : Chan) : (s.setChan c x).gst = s.gst := rfl
@[simp] theorem State.setChan_ct (c : Nat) (x : Chan) : (s.setChan c x).ct = s.ct := rfl
@[simp] theorem State.setChan_accept (c : Nat) (x : Chan) : (s.setChan c x).accept = s.accept := rfl
@[simp] theorem State.setChan_img (c : Nat) (x : Chan) : (s.setChan c x).img = s.img := rfl
@[simp] theorem State.setChan_wl (c : Nat) (x : Chan) : (s.setChan c x).wl = s.wl := rfl
@[simp] theorem State.setChan_time (c : Nat) (x : Chan) : (s.setChan c x).time = s.time := rfl
@[simp] theorem State.setChan_adm (c : Nat) (x : Chan) : (s.setChan c x).adm = s.adm := rfl
@[simp] theorem State.setChan_tilth (c : Nat) (x : Chan) : (s.setChan c x).tilth = s.tilth := rfl
@[simp] theorem State.setChan_pwr (c : Nat) (x : Chan) : (s.setChan c x).pwr = s.pwr := rfl
@[simp] theorem State.setChan_fdw (c : Nat) (x : Chan) : (s.setChan c x).fdw = s.fdw := rfl
@[simp] theorem State.setChan_hoops (c : Nat) (x : Chan) : (s.setChan c x).hoops = s.hoops := rfl
@[simp] theorem State.setChan_hoopNet (c : Nat) (x : Chan) : (s.setChan c x).hoopNet = s.hoopNet := rfl
@[simp] theorem State.setChan_ports (c : Nat) (x : Chan) : (s.setChan c x).ports = s.ports := rfl
@[simp] theorem State.setChan_colls (c : Nat) (x : Chan) : (s.setChan c x).colls = s.colls := rfl
@[simp] theorem State.setChan_col (c : Nat) (x : Chan) : (s.setChan c x).col = s.col := rfl
@[simp] theorem State.setChan_stakes (c : Nat) (x : Chan) : (s.setChan c x).stakes = s.stakes := rfl
@[simp] theorem State.setChan_exc (c : Nat) (x : Chan) : (s.setChan c x).exc = s.exc := rfl
@[simp] theorem State.setChan_upd (c : Nat) (x : Chan) : (s.setChan c x).upd = s.upd := rfl
@[simp] theorem State.setChan_dbg (c : Nat) (x : Chan) : (s.setChan c x).dbg = s.dbg := rfl
@[simp] theorem State.setChan_wrap (c : Nat) (x : Chan) : (s.setChan c x).wrap = s.wrap := rfl
@[simp] theorem State.setChan_vc0 (c : Nat) (x : Chan) : (s.setChan c x).vc0 = s.vc0 := rfl
@[simp] theorem State.setChan_free (c : Nat) (x : Chan) : (s.setChan c x).free = s.free := rfl

@[simp] theorem State.setStake_pending (n : Nat) (x : Stake) : (s.setStake n x).pending = s.pending := rfl
@[simp] theorem State.setStake_powered (n : Nat) (x : Stake) : (s.setStake n x).powered = s.powered := rfl
@[simp] theorem State.setStake_inReset (n : Nat) (x : Stake) : (s.setStake n x).inReset = s.inReset := rfl
@[simp] theorem State.setStake_gst (n : Nat) (x : Stake) : (s.setStake n x).gst = s.gst := rfl
@[simp] theorem State.setStake_ct (n : Nat) (x : Stake) : (s.setStake n x).ct = s.ct := rfl
@[simp] theorem State.setStake_accept (n : Nat) (x : Stake) : (s.setStake n x).accept = s.accept := rfl
@[simp] theorem State.setStake_img (n : Nat) (x : Stake) : (s.setStake n x).img = s.img := rfl
@[simp] theorem State.setStake_wl (n : Nat) (x : Stake) : (s.setStake n x).wl = s.wl := rfl
@[simp] theorem State.setStake_time (n : Nat) (x : Stake) : (s.setStake n x).time = s.time := rfl
@[simp] theorem State.setStake_adm (n : Nat) (x : Stake) : (s.setStake n x).adm = s.adm := rfl
@[simp] theorem State.setStake_tilth (n : Nat) (x : Stake) : (s.setStake n x).tilth = s.tilth := rfl
@[simp] theorem State.setStake_pwr (n : Nat) (x : Stake) : (s.setStake n x).pwr = s.pwr := rfl
@[simp] theorem State.setStake_chans (n : Nat) (x : Stake) : (s.setStake n x).chans = s.chans := rfl
@[simp] theorem State.setStake_fdw (n : Nat) (x : Stake) : (s.setStake n x).fdw = s.fdw := rfl
@[simp] theorem State.setStake_hoops (n : Nat) (x : Stake) : (s.setStake n x).hoops = s.hoops := rfl
@[simp] theorem State.setStake_hoopNet (n : Nat) (x : Stake) : (s.setStake n x).hoopNet = s.hoopNet := rfl
@[simp] theorem State.setStake_ports (n : Nat) (x : Stake) : (s.setStake n x).ports = s.ports := rfl
@[simp] theorem State.setStake_colls (n : Nat) (x : Stake) : (s.setStake n x).colls = s.colls := rfl
@[simp] theorem State.setStake_col (n : Nat) (x : Stake) : (s.setStake n x).col = s.col := rfl
@[simp] theorem State.setStake_exc (n : Nat) (x : Stake) : (s.setStake n x).exc = s.exc := rfl
@[simp] theorem State.setStake_upd (n : Nat) (x : Stake) : (s.setStake n x).upd = s.upd := rfl
@[simp] theorem State.setStake_dbg (n : Nat) (x : Stake) : (s.setStake n x).dbg = s.dbg := rfl
@[simp] theorem State.setStake_wrap (n : Nat) (x : Stake) : (s.setStake n x).wrap = s.wrap := rfl
@[simp] theorem State.setStake_vc0 (n : Nat) (x : Stake) : (s.setStake n x).vc0 = s.vc0 := rfl
@[simp] theorem State.setStake_free (n : Nat) (x : Stake) : (s.setStake n x).free = s.free := rfl

@[simp] theorem State.setEvtIn_pending (l : Nat) (e : EvtIn) : (s.setEvtIn l e).pending = s.pending := rfl
@[simp] theorem State.setEvtIn_powered (l : Nat) (e : EvtIn) : (s.setEvtIn l e).powered = s.powered := rfl
@[simp] theorem State.setEvtIn_inReset (l : Nat) (e : EvtIn) : (s.setEvtIn l e).inReset = s.inReset := rfl
@[simp] theorem State.setEvtIn_gst (l : Nat) (e : EvtIn) : (s.setEvtIn l e).gst = s.gst := rfl
@[simp] theorem State.setEvtIn_ct (l : Nat) (e : EvtIn) : (s.setEvtIn l e).ct = s.ct := rfl
@[simp] theorem State.setEvtIn_accept (l : Nat) (e : EvtIn) : (s.setEvtIn l e).accept = s.accept := rfl
@[simp] theorem State.setEvtIn_img (l : Nat) (e : EvtIn) : (s.setEvtIn l e).img = s.img := rfl
@[simp] theorem State.setEvtIn_wl (l : Nat) (e : EvtIn) : (s.setEvtIn l e).wl = s.wl := rfl
@[simp] theorem State.setEvtIn_time (l : Nat) (e : EvtIn) : (s.setEvtIn l e).time = s.time := rfl
@[simp] theorem State.setEvtIn_adm (l : Nat) (e : EvtIn) : (s.setEvtIn l e).adm = s.adm := rfl
@[simp] theorem State.setEvtIn_tilth (l : Nat) (e : EvtIn) : (s.setEvtIn l e).tilth = s.tilth := rfl
@[simp] theorem State.setEvtIn_pwr (l : Nat) (e : EvtIn) : (s.setEvtIn l e).pwr = s.pwr := rfl
@[simp] theorem State.setEvtIn_chans (l : Nat) (e : EvtIn) : (s.setEvtIn l e).chans = s.chans := rfl
@[simp] theorem State.setEvtIn_hoops (l : Nat) (e : EvtIn) : (s.setEvtIn l e).hoops = s.hoops := rfl
@[simp] theorem State.setEvtIn_hoopNet (l : Nat) (e : EvtIn) : (s.setEvtIn l e).hoopNet = s.hoopNet := rfl
@[simp] theorem State.setEvtIn_ports (l : Nat) (e : EvtIn) : (s.setEvtIn l e).ports = s.ports := rfl
@[simp] theorem State.setEvtIn_colls (l : Nat) (e : EvtIn) : (s.setEvtIn l e).colls = s.colls := rfl
@[simp] theorem State.setEvtIn_col (l : Nat) (e : EvtIn) : (s.setEvtIn l e).col = s.col := rfl
@[simp] theorem State.setEvtIn_stakes (l : Nat) (e : EvtIn) : (s.setEvtIn l e).stakes = s.stakes := rfl
@[simp] theorem State.setEvtIn_exc (l : Nat) (e : EvtIn) : (s.setEvtIn l e).exc = s.exc := rfl
@[simp] theorem State.setEvtIn_upd (l : Nat) (e : EvtIn) : (s.setEvtIn l e).upd = s.upd := rfl
@[simp] theorem State.setEvtIn_dbg (l : Nat) (e : EvtIn) : (s.setEvtIn l e).dbg = s.dbg := rfl
@[simp] theorem State.setEvtIn_wrap (l : Nat) (e : EvtIn) : (s.setEvtIn l e).wrap = s.wrap := rfl
@[simp] theorem State.setEvtIn_vc0 (l : Nat) (e : EvtIn) : (s.setEvtIn l e).vc0 = s.vc0 := rfl
@[simp] theorem State.setEvtIn_free (l : Nat) (e : EvtIn) : (s.setEvtIn l e).free = s.free := rfl

@[simp] theorem State.setEvtOut_pending (l : Nat) (e : EvtOut) : (s.setEvtOut l e).pending = s.pending := rfl
@[simp] theorem State.setEvtOut_powered (l : Nat) (e : EvtOut) : (s.setEvtOut l e).powered = s.powered := rfl
@[simp] theorem State.setEvtOut_inReset (l : Nat) (e : EvtOut) : (s.setEvtOut l e).inReset = s.inReset := rfl
@[simp] theorem State.setEvtOut_gst (l : Nat) (e : EvtOut) : (s.setEvtOut l e).gst = s.gst := rfl
@[simp] theorem State.setEvtOut_ct (l : Nat) (e : EvtOut) : (s.setEvtOut l e).ct = s.ct := rfl
@[simp] theorem State.setEvtOut_accept (l : Nat) (e : EvtOut) : (s.setEvtOut l e).accept = s.accept := rfl
@[simp] theorem State.setEvtOut_img (l : Nat) (e : EvtOut) : (s.setEvtOut l e).img = s.img := rfl
@[simp] theorem State.setEvtOut_wl (l : Nat) (e : EvtOut) : (s.setEvtOut l e).wl = s.wl := rfl
@[simp] theorem State.setEvtOut_time (l : Nat) (e : EvtOut) : (s.setEvtOut l e).time = s.time := rfl
@[simp] theorem State.setEvtOut_adm (l : Nat) (e : EvtOut) : (s.setEvtOut l e).adm = s.adm := rfl
@[simp] theorem State.setEvtOut_tilth (l : Nat) (e : EvtOut) : (s.setEvtOut l e).tilth = s.tilth := rfl
@[simp] theorem State.setEvtOut_pwr (l : Nat) (e : EvtOut) : (s.setEvtOut l e).pwr = s.pwr := rfl
@[simp] theorem State.setEvtOut_chans (l : Nat) (e : EvtOut) : (s.setEvtOut l e).chans = s.chans := rfl
@[simp] theorem State.setEvtOut_hoops (l : Nat) (e : EvtOut) : (s.setEvtOut l e).hoops = s.hoops := rfl
@[simp] theorem State.setEvtOut_hoopNet (l : Nat) (e : EvtOut) : (s.setEvtOut l e).hoopNet = s.hoopNet := rfl
@[simp] theorem State.setEvtOut_ports (l : Nat) (e : EvtOut) : (s.setEvtOut l e).ports = s.ports := rfl
@[simp] theorem State.setEvtOut_colls (l : Nat) (e : EvtOut) : (s.setEvtOut l e).colls = s.colls := rfl
@[simp] theorem State.setEvtOut_col (l : Nat) (e : EvtOut) : (s.setEvtOut l e).col = s.col := rfl
@[simp] theorem State.setEvtOut_stakes (l : Nat) (e : EvtOut) : (s.setEvtOut l e).stakes = s.stakes := rfl
@[simp] theorem State.setEvtOut_exc (l : Nat) (e : EvtOut) : (s.setEvtOut l e).exc = s.exc := rfl
@[simp] theorem State.setEvtOut_upd (l : Nat) (e : EvtOut) : (s.setEvtOut l e).upd = s.upd := rfl
@[simp] theorem State.setEvtOut_dbg (l : Nat) (e : EvtOut) : (s.setEvtOut l e).dbg = s.dbg := rfl
@[simp] theorem State.setEvtOut_wrap (l : Nat) (e : EvtOut) : (s.setEvtOut l e).wrap = s.wrap := rfl
@[simp] theorem State.setEvtOut_vc0 (l : Nat) (e : EvtOut) : (s.setEvtOut l e).vc0 = s.vc0 := rfl
@[simp] theorem State.setEvtOut_free (l : Nat) (e : EvtOut) : (s.setEvtOut l e).free = s.free := rfl

@[simp] theorem State.setSusp_pending (g : BitVec 12) (x : SuspG) : (s.setSusp g x).pending = s.pending := rfl
@[simp] theorem State.setSusp_powered (g : BitVec 12) (x : SuspG) : (s.setSusp g x).powered = s.powered := rfl
@[simp] theorem State.setSusp_inReset (g : BitVec 12) (x : SuspG) : (s.setSusp g x).inReset = s.inReset := rfl
@[simp] theorem State.setSusp_gst (g : BitVec 12) (x : SuspG) : (s.setSusp g x).gst = s.gst := rfl
@[simp] theorem State.setSusp_ct (g : BitVec 12) (x : SuspG) : (s.setSusp g x).ct = s.ct := rfl
@[simp] theorem State.setSusp_accept (g : BitVec 12) (x : SuspG) : (s.setSusp g x).accept = s.accept := rfl
@[simp] theorem State.setSusp_img (g : BitVec 12) (x : SuspG) : (s.setSusp g x).img = s.img := rfl
@[simp] theorem State.setSusp_wl (g : BitVec 12) (x : SuspG) : (s.setSusp g x).wl = s.wl := rfl
@[simp] theorem State.setSusp_time (g : BitVec 12) (x : SuspG) : (s.setSusp g x).time = s.time := rfl
@[simp] theorem State.setSusp_adm (g : BitVec 12) (x : SuspG) : (s.setSusp g x).adm = s.adm := rfl
@[simp] theorem State.setSusp_tilth (g : BitVec 12) (x : SuspG) : (s.setSusp g x).tilth = s.tilth := rfl
@[simp] theorem State.setSusp_pwr (g : BitVec 12) (x : SuspG) : (s.setSusp g x).pwr = s.pwr := rfl
@[simp] theorem State.setSusp_chans (g : BitVec 12) (x : SuspG) : (s.setSusp g x).chans = s.chans := rfl
@[simp] theorem State.setSusp_fdw (g : BitVec 12) (x : SuspG) : (s.setSusp g x).fdw = s.fdw := rfl
@[simp] theorem State.setSusp_hoops (g : BitVec 12) (x : SuspG) : (s.setSusp g x).hoops = s.hoops := rfl
@[simp] theorem State.setSusp_hoopNet (g : BitVec 12) (x : SuspG) : (s.setSusp g x).hoopNet = s.hoopNet := rfl
@[simp] theorem State.setSusp_ports (g : BitVec 12) (x : SuspG) : (s.setSusp g x).ports = s.ports := rfl
@[simp] theorem State.setSusp_colls (g : BitVec 12) (x : SuspG) : (s.setSusp g x).colls = s.colls := rfl
@[simp] theorem State.setSusp_stakes (g : BitVec 12) (x : SuspG) : (s.setSusp g x).stakes = s.stakes := rfl
@[simp] theorem State.setSusp_exc (g : BitVec 12) (x : SuspG) : (s.setSusp g x).exc = s.exc := rfl
@[simp] theorem State.setSusp_upd (g : BitVec 12) (x : SuspG) : (s.setSusp g x).upd = s.upd := rfl
@[simp] theorem State.setSusp_dbg (g : BitVec 12) (x : SuspG) : (s.setSusp g x).dbg = s.dbg := rfl
@[simp] theorem State.setSusp_wrap (g : BitVec 12) (x : SuspG) : (s.setSusp g x).wrap = s.wrap := rfl
@[simp] theorem State.setSusp_vc0 (g : BitVec 12) (x : SuspG) : (s.setSusp g x).vc0 = s.vc0 := rfl
@[simp] theorem State.setSusp_free (g : BitVec 12) (x : SuspG) : (s.setSusp g x).free = s.free := rfl

@[simp] theorem State.setMon_pending (i : Nat) (m : Mon) : (s.setMon i m).pending = s.pending := rfl
@[simp] theorem State.setMon_powered (i : Nat) (m : Mon) : (s.setMon i m).powered = s.powered := rfl
@[simp] theorem State.setMon_inReset (i : Nat) (m : Mon) : (s.setMon i m).inReset = s.inReset := rfl
@[simp] theorem State.setMon_gst (i : Nat) (m : Mon) : (s.setMon i m).gst = s.gst := rfl
@[simp] theorem State.setMon_ct (i : Nat) (m : Mon) : (s.setMon i m).ct = s.ct := rfl
@[simp] theorem State.setMon_accept (i : Nat) (m : Mon) : (s.setMon i m).accept = s.accept := rfl
@[simp] theorem State.setMon_img (i : Nat) (m : Mon) : (s.setMon i m).img = s.img := rfl
@[simp] theorem State.setMon_wl (i : Nat) (m : Mon) : (s.setMon i m).wl = s.wl := rfl
@[simp] theorem State.setMon_time (i : Nat) (m : Mon) : (s.setMon i m).time = s.time := rfl
@[simp] theorem State.setMon_adm (i : Nat) (m : Mon) : (s.setMon i m).adm = s.adm := rfl
@[simp] theorem State.setMon_pwr (i : Nat) (m : Mon) : (s.setMon i m).pwr = s.pwr := rfl
@[simp] theorem State.setMon_chans (i : Nat) (m : Mon) : (s.setMon i m).chans = s.chans := rfl
@[simp] theorem State.setMon_fdw (i : Nat) (m : Mon) : (s.setMon i m).fdw = s.fdw := rfl
@[simp] theorem State.setMon_hoops (i : Nat) (m : Mon) : (s.setMon i m).hoops = s.hoops := rfl
@[simp] theorem State.setMon_hoopNet (i : Nat) (m : Mon) : (s.setMon i m).hoopNet = s.hoopNet := rfl
@[simp] theorem State.setMon_ports (i : Nat) (m : Mon) : (s.setMon i m).ports = s.ports := rfl
@[simp] theorem State.setMon_colls (i : Nat) (m : Mon) : (s.setMon i m).colls = s.colls := rfl
@[simp] theorem State.setMon_col (i : Nat) (m : Mon) : (s.setMon i m).col = s.col := rfl
@[simp] theorem State.setMon_stakes (i : Nat) (m : Mon) : (s.setMon i m).stakes = s.stakes := rfl
@[simp] theorem State.setMon_exc (i : Nat) (m : Mon) : (s.setMon i m).exc = s.exc := rfl
@[simp] theorem State.setMon_upd (i : Nat) (m : Mon) : (s.setMon i m).upd = s.upd := rfl
@[simp] theorem State.setMon_dbg (i : Nat) (m : Mon) : (s.setMon i m).dbg = s.dbg := rfl
@[simp] theorem State.setMon_wrap (i : Nat) (m : Mon) : (s.setMon i m).wrap = s.wrap := rfl
@[simp] theorem State.setMon_vc0 (i : Nat) (m : Mon) : (s.setMon i m).vc0 = s.vc0 := rfl
@[simp] theorem State.setMon_free (i : Nat) (m : Mon) : (s.setMon i m).free = s.free := rfl

@[simp] theorem State.putColl_pending (c : Coll) : (s.putColl c).pending = s.pending := rfl
@[simp] theorem State.putColl_powered (c : Coll) : (s.putColl c).powered = s.powered := rfl
@[simp] theorem State.putColl_inReset (c : Coll) : (s.putColl c).inReset = s.inReset := rfl
@[simp] theorem State.putColl_gst (c : Coll) : (s.putColl c).gst = s.gst := rfl
@[simp] theorem State.putColl_ct (c : Coll) : (s.putColl c).ct = s.ct := rfl
@[simp] theorem State.putColl_accept (c : Coll) : (s.putColl c).accept = s.accept := rfl
@[simp] theorem State.putColl_img (c : Coll) : (s.putColl c).img = s.img := rfl
@[simp] theorem State.putColl_wl (c : Coll) : (s.putColl c).wl = s.wl := rfl
@[simp] theorem State.putColl_time (c : Coll) : (s.putColl c).time = s.time := rfl
@[simp] theorem State.putColl_adm (c : Coll) : (s.putColl c).adm = s.adm := rfl
@[simp] theorem State.putColl_tilth (c : Coll) : (s.putColl c).tilth = s.tilth := rfl
@[simp] theorem State.putColl_pwr (c : Coll) : (s.putColl c).pwr = s.pwr := rfl
@[simp] theorem State.putColl_chans (c : Coll) : (s.putColl c).chans = s.chans := rfl
@[simp] theorem State.putColl_fdw (c : Coll) : (s.putColl c).fdw = s.fdw := rfl
@[simp] theorem State.putColl_hoops (c : Coll) : (s.putColl c).hoops = s.hoops := rfl
@[simp] theorem State.putColl_hoopNet (c : Coll) : (s.putColl c).hoopNet = s.hoopNet := rfl
@[simp] theorem State.putColl_ports (c : Coll) : (s.putColl c).ports = s.ports := rfl
@[simp] theorem State.putColl_col (c : Coll) : (s.putColl c).col = s.col := rfl
@[simp] theorem State.putColl_stakes (c : Coll) : (s.putColl c).stakes = s.stakes := rfl
@[simp] theorem State.putColl_exc (c : Coll) : (s.putColl c).exc = s.exc := rfl
@[simp] theorem State.putColl_upd (c : Coll) : (s.putColl c).upd = s.upd := rfl
@[simp] theorem State.putColl_dbg (c : Coll) : (s.putColl c).dbg = s.dbg := rfl
@[simp] theorem State.putColl_wrap (c : Coll) : (s.putColl c).wrap = s.wrap := rfl
@[simp] theorem State.putColl_vc0 (c : Coll) : (s.putColl c).vc0 = s.vc0 := rfl
@[simp] theorem State.putColl_free (c : Coll) : (s.putColl c).free = s.free := rfl

@[simp] theorem State.post_pending (m : Msg) : (s.post m).pending = s.pending := rfl
@[simp] theorem State.post_powered (m : Msg) : (s.post m).powered = s.powered := rfl
@[simp] theorem State.post_inReset (m : Msg) : (s.post m).inReset = s.inReset := rfl
@[simp] theorem State.post_gst (m : Msg) : (s.post m).gst = s.gst := rfl
@[simp] theorem State.post_ct (m : Msg) : (s.post m).ct = s.ct := rfl
@[simp] theorem State.post_accept (m : Msg) : (s.post m).accept = s.accept := rfl
@[simp] theorem State.post_img (m : Msg) : (s.post m).img = s.img := rfl
@[simp] theorem State.post_wl (m : Msg) : (s.post m).wl = s.wl := rfl
@[simp] theorem State.post_time (m : Msg) : (s.post m).time = s.time := rfl
@[simp] theorem State.post_adm (m : Msg) : (s.post m).adm = s.adm := rfl
@[simp] theorem State.post_tilth (m : Msg) : (s.post m).tilth = s.tilth := rfl
@[simp] theorem State.post_pwr (m : Msg) : (s.post m).pwr = s.pwr := rfl
@[simp] theorem State.post_chans (m : Msg) : (s.post m).chans = s.chans := rfl
@[simp] theorem State.post_fdw (m : Msg) : (s.post m).fdw = s.fdw := rfl
@[simp] theorem State.post_hoops (m : Msg) : (s.post m).hoops = s.hoops := rfl
@[simp] theorem State.post_hoopNet (m : Msg) : (s.post m).hoopNet = s.hoopNet := rfl
@[simp] theorem State.post_ports (m : Msg) : (s.post m).ports = s.ports := rfl
@[simp] theorem State.post_colls (m : Msg) : (s.post m).colls = s.colls := rfl
@[simp] theorem State.post_col (m : Msg) : (s.post m).col = s.col := rfl
@[simp] theorem State.post_stakes (m : Msg) : (s.post m).stakes = s.stakes := rfl
@[simp] theorem State.post_exc (m : Msg) : (s.post m).exc = s.exc := rfl
@[simp] theorem State.post_upd (m : Msg) : (s.post m).upd = s.upd := rfl
@[simp] theorem State.post_dbg (m : Msg) : (s.post m).dbg = s.dbg := rfl
@[simp] theorem State.post_wrap (m : Msg) : (s.post m).wrap = s.wrap := rfl
@[simp] theorem State.post_free (m : Msg) : (s.post m).free = s.free := rfl

@[simp] theorem State.takeMsg_pending (m : Msg) : (s.takeMsg m).pending = s.pending := rfl
@[simp] theorem State.takeMsg_powered (m : Msg) : (s.takeMsg m).powered = s.powered := rfl
@[simp] theorem State.takeMsg_inReset (m : Msg) : (s.takeMsg m).inReset = s.inReset := rfl
@[simp] theorem State.takeMsg_gst (m : Msg) : (s.takeMsg m).gst = s.gst := rfl
@[simp] theorem State.takeMsg_ct (m : Msg) : (s.takeMsg m).ct = s.ct := rfl
@[simp] theorem State.takeMsg_accept (m : Msg) : (s.takeMsg m).accept = s.accept := rfl
@[simp] theorem State.takeMsg_img (m : Msg) : (s.takeMsg m).img = s.img := rfl
@[simp] theorem State.takeMsg_wl (m : Msg) : (s.takeMsg m).wl = s.wl := rfl
@[simp] theorem State.takeMsg_time (m : Msg) : (s.takeMsg m).time = s.time := rfl
@[simp] theorem State.takeMsg_adm (m : Msg) : (s.takeMsg m).adm = s.adm := rfl
@[simp] theorem State.takeMsg_tilth (m : Msg) : (s.takeMsg m).tilth = s.tilth := rfl
@[simp] theorem State.takeMsg_pwr (m : Msg) : (s.takeMsg m).pwr = s.pwr := rfl
@[simp] theorem State.takeMsg_chans (m : Msg) : (s.takeMsg m).chans = s.chans := rfl
@[simp] theorem State.takeMsg_fdw (m : Msg) : (s.takeMsg m).fdw = s.fdw := rfl
@[simp] theorem State.takeMsg_hoops (m : Msg) : (s.takeMsg m).hoops = s.hoops := rfl
@[simp] theorem State.takeMsg_hoopNet (m : Msg) : (s.takeMsg m).hoopNet = s.hoopNet := rfl
@[simp] theorem State.takeMsg_ports (m : Msg) : (s.takeMsg m).ports = s.ports := rfl
@[simp] theorem State.takeMsg_colls (m : Msg) : (s.takeMsg m).colls = s.colls := rfl
@[simp] theorem State.takeMsg_col (m : Msg) : (s.takeMsg m).col = s.col := rfl
@[simp] theorem State.takeMsg_stakes (m : Msg) : (s.takeMsg m).stakes = s.stakes := rfl
@[simp] theorem State.takeMsg_exc (m : Msg) : (s.takeMsg m).exc = s.exc := rfl
@[simp] theorem State.takeMsg_upd (m : Msg) : (s.takeMsg m).upd = s.upd := rfl
@[simp] theorem State.takeMsg_dbg (m : Msg) : (s.takeMsg m).dbg = s.dbg := rfl
@[simp] theorem State.takeMsg_wrap (m : Msg) : (s.takeMsg m).wrap = s.wrap := rfl
@[simp] theorem State.takeMsg_free (m : Msg) : (s.takeMsg m).free = s.free := rfl

@[simp] theorem State.attn_pending (b : Nat) : (s.attn b).pending = s.pending := rfl
@[simp] theorem State.attn_powered (b : Nat) : (s.attn b).powered = s.powered := rfl
@[simp] theorem State.attn_inReset (b : Nat) : (s.attn b).inReset = s.inReset := rfl
@[simp] theorem State.attn_ct (b : Nat) : (s.attn b).ct = s.ct := rfl
@[simp] theorem State.attn_accept (b : Nat) : (s.attn b).accept = s.accept := rfl
@[simp] theorem State.attn_img (b : Nat) : (s.attn b).img = s.img := rfl
@[simp] theorem State.attn_wl (b : Nat) : (s.attn b).wl = s.wl := rfl
@[simp] theorem State.attn_time (b : Nat) : (s.attn b).time = s.time := rfl
@[simp] theorem State.attn_adm (b : Nat) : (s.attn b).adm = s.adm := rfl
@[simp] theorem State.attn_tilth (b : Nat) : (s.attn b).tilth = s.tilth := rfl
@[simp] theorem State.attn_pwr (b : Nat) : (s.attn b).pwr = s.pwr := rfl
@[simp] theorem State.attn_chans (b : Nat) : (s.attn b).chans = s.chans := rfl
@[simp] theorem State.attn_fdw (b : Nat) : (s.attn b).fdw = s.fdw := rfl
@[simp] theorem State.attn_hoops (b : Nat) : (s.attn b).hoops = s.hoops := rfl
@[simp] theorem State.attn_hoopNet (b : Nat) : (s.attn b).hoopNet = s.hoopNet := rfl
@[simp] theorem State.attn_ports (b : Nat) : (s.attn b).ports = s.ports := rfl
@[simp] theorem State.attn_colls (b : Nat) : (s.attn b).colls = s.colls := rfl
@[simp] theorem State.attn_col (b : Nat) : (s.attn b).col = s.col := rfl
@[simp] theorem State.attn_stakes (b : Nat) : (s.attn b).stakes = s.stakes := rfl
@[simp] theorem State.attn_exc (b : Nat) : (s.attn b).exc = s.exc := rfl
@[simp] theorem State.attn_upd (b : Nat) : (s.attn b).upd = s.upd := rfl
@[simp] theorem State.attn_dbg (b : Nat) : (s.attn b).dbg = s.dbg := rfl
@[simp] theorem State.attn_wrap (b : Nat) : (s.attn b).wrap = s.wrap := rfl
@[simp] theorem State.attn_vc0 (b : Nat) : (s.attn b).vc0 = s.vc0 := rfl
@[simp] theorem State.attn_free (b : Nat) : (s.attn b).free = s.free := rfl

theorem State.onPort_eq (cp : Nat) (f : Port → Port) : s.onPort cp f = s.setPort cp (f (s.port cp)) := rfl
theorem State.onChan_eq (c : Nat) (f : Chan → Chan) : s.onChan c f = s.setChan c (f (s.chan c)) := rfl
theorem State.onStake_eq (n : Nat) (f : Stake → Stake) : s.onStake n f = s.setStake n (f (s.stake n)) := rfl

/-! ### Reading a table after one entry is put -/

theorem State.setPort_port_read (h : s.canon) (i j : Nat) (x : Port) : (s.setPort i x).port j = if j = i then x else s.port j := by
  by_cases e : j = i
  · subst e; rw [if_pos rfl]; exact mget_mput_same _ _ _ _ none h.2.2.1
  · rw [if_neg e]; exact mget_mput_other _ _ _ _ _ e

theorem State.setHoop_hoop_read (h : s.canon) (i j : Nat) (x : Hoop) : (s.setHoop i x).hoop j = if j = i then x else s.hoop j := by
  by_cases e : j = i
  · subst e; rw [if_pos rfl]; exact mget_mput_same _ _ _ _ none h.2.1
  · rw [if_neg e]; exact mget_mput_other _ _ _ _ _ e

theorem State.setChan_chan_read (h : s.canon) (i j : Nat) (x : Chan) : (s.setChan i x).chan j = if j = i then x else s.chan j := by
  by_cases e : j = i
  · subst e; rw [if_pos rfl]; exact mget_mput_same _ _ _ _ none h.1
  · rw [if_neg e]; exact mget_mput_other _ _ _ _ _ e

theorem State.setStake_stake_read (h : s.canon) (i j : Nat) (x : Stake) : (s.setStake i x).stake j = if j = i then x else s.stake j := by
  by_cases e : j = i
  · subst e; rw [if_pos rfl]; exact mget_mput_same _ _ _ _ none h.2.2.2.1
  · rw [if_neg e]; exact mget_mput_other _ _ _ _ _ e

theorem State.setEvtIn_evtIn_read (h : s.canon) (i j : Nat) (x : EvtIn) : (s.setEvtIn i x).evtIn j = if j = i then x else s.evtIn j := by
  by_cases e : j = i
  · subst e; rw [if_pos rfl]; exact mget_mput_same _ _ _ _ none h.2.2.2.2.2.1
  · rw [if_neg e]; exact mget_mput_other _ _ _ _ _ e

theorem State.setEvtOut_evtOut_read (h : s.canon) (i j : Nat) (x : EvtOut) : (s.setEvtOut i x).evtOut j = if j = i then x else s.evtOut j := by
  by_cases e : j = i
  · subst e; rw [if_pos rfl]; exact mget_mput_same _ _ _ _ none h.2.2.2.2.2.2.1
  · rw [if_neg e]; exact mget_mput_other _ _ _ _ _ e

theorem State.setMon_mon_read (h : s.canon) (i j : Nat) (x : Mon) : (s.setMon i x).mon j = if j = i then x else s.mon j := by
  by_cases e : j = i
  · subst e; rw [if_pos rfl]; exact mget_mput_same _ _ _ _ none h.2.2.2.2.2.2.2.2.2.1
  · rw [if_neg e]; exact mget_mput_other _ _ _ _ _ e

end Sys2Proof.Machine
end

