-- ==== Sys2Proof/Laws/Tilth.lean ====
section
/-! SUPPORT. The tilth monitors: what a change of τ, of one monitor, and the tempering of one tap set leave of the others. -/

namespace Sys2Proof.Machine

/-- The monitors' table is in its canonical form. -/
abbrev State.monsOk (s : State) : Prop := mwf Mon.zero s.tilth.mons = true

theorem State.canon_monsOk {s : State} (h : s.canon) : s.monsOk := h.2.2.2.2.2.2.2.2.2.1

/-- Two monitors differ in their counts of windows alone. -/
structure MonLike (m n : Mon) : Prop where
  a : n.a = m.a
  b : n.b = m.b
  smin : n.lastSmin = m.lastSmin
  tmax : n.lastTmax = m.lastTmax
  start : n.start = m.start

theorem MonLike.rfl' {m : Mon} : MonLike m m := ⟨rfl, rfl, rfl, rfl, rfl⟩

theorem MonLike.trans {m n p : Mon} (h : MonLike m n) (k : MonLike n p) : MonLike m p :=
  ⟨k.a.trans h.a, k.b.trans h.b, k.smin.trans h.smin, k.tmax.trans h.tmax, k.start.trans h.start⟩

theorem MonLike.set {m n : Mon} (h : MonLike m n) (b : Bool) : n.set b = m.set b := by
  cases b
  · exact h.a
  · exact h.b

/-- `t` differs from `s` in the tilth state alone, and there in τ and in counts of windows alone. -/
structure TauOnly (s t : State) : Prop where
  ok : s.monsOk → t.monsOk
  mons : s.monsOk → ∀ i, MonLike (s.mon i) (t.mon i)
  rest : t = { s with tilth := { s.tilth with tau := t.tilth.tau, tauCand := t.tilth.tauCand, mons := t.tilth.mons } }

theorem TauOnly.rfl' {s : State} : TauOnly s s := ⟨id, fun _ _ => MonLike.rfl', rfl⟩

theorem TauOnly.trans {s t u : State} (h : TauOnly s t) (k : TauOnly t u) : TauOnly s u where
  ok := fun x => k.ok (h.ok x)
  mons := fun x i => (h.mons x i).trans (k.mons (h.ok x) i)
  rest := by have h1 := h.rest; have k1 := k.rest; rw [h1] at k1; exact k1

theorem TauOnly.mmap {s : State} (f : Mon → Mon) (x y : Nat) (hz : f Mon.zero = Mon.zero) (hf : ∀ m, MonLike m (f m)) :
    TauOnly s { s with tilth := { s.tilth with tau := x, tauCand := y, mons := Machine.mmap Mon.zero (fun _ m => f m) s.tilth.mons } } where
  ok := fun h => mmap_wf _ _ _ h
  mons := fun h i => by
    have : mget Mon.zero (Machine.mmap Mon.zero (fun _ m => f m) s.tilth.mons) i = f (mget Mon.zero s.tilth.mons i) :=
      mget_mmap _ (fun _ m => f m) _ _ none h hz
    show MonLike (mget Mon.zero s.tilth.mons i) (mget Mon.zero (Machine.mmap Mon.zero (fun _ m => f m) s.tilth.mons) i)
    rw [this]; exact hf _
  rest := rfl

theorem State.unsettle_tauOnly (s : State) : TauOnly s s.unsettle :=
  TauOnly.mmap (fun m => { m with quiet := 0 }) _ _ rfl (fun _ => ⟨rfl, rfl, rfl, rfl, rfl⟩)

theorem State.setTau_tauOnly (s : State) (n : Nat) : TauOnly s (s.setTau n) := by
  unfold State.setTau
  split
  · exact TauOnly.rfl'
  · exact TauOnly.mmap (fun m => { m with quiet := 0 }) _ _ rfl (fun _ => ⟨rfl, rfl, rfl, rfl, rfl⟩)

@[simp] theorem State.setTau_tau (s : State) (n : Nat) : (s.setTau n).tilth.tau = tauClamp n := by
  unfold State.setTau
  split
  · exact (by assumption : tauClamp n = s.tilth.tau).symm
  · rfl

theorem tauClamp_le (n : Nat) : tauClamp n ≤ 4095 := by unfold tauClamp; omega

theorem le_tauClamp (n m : Nat) (h : m ≤ n) (k : m ≤ 4095) : m ≤ tauClamp n := by unfold tauClamp; omega

theorem State.setMon_monsOk {s : State} (h : s.monsOk) (i : Nat) (m : Mon) : (s.setMon i m).monsOk := mput_wf _ _ _ _ h

theorem State.mon_setMon {s : State} (h : s.monsOk) (i j : Nat) (x : Mon) : (s.setMon i x).mon j = if j = i then x else s.mon j := by
  by_cases e : j = i
  · subst e; rw [if_pos rfl]; exact mget_mput_same _ _ _ _ none h
  · rw [if_neg e]; exact mget_mput_other _ _ _ _ _ e

/-- The other tap set of a monitor whose set `b` changes. -/
@[simp] theorem Mon.onSet_set (m : Mon) (b : Bool) (f : TapSet → TapSet) : (m.onSet b f).set b = f (m.set b) := by cases b <;> rfl

@[simp] theorem Mon.onSet_set_not (m : Mon) (b : Bool) (f : TapSet → TapSet) : (m.onSet b f).set (!b) = m.set (!b) := by cases b <;> rfl

end Sys2Proof.Machine
end

