-- ==== Sys2Proof/Laws/Tree.lean ====
section
/-! SUPPORT. The trees depend on the image and on the die's own name alone. -/

namespace Sys2Proof.Machine

variable {s t : State}

theorem State.group_of (h : t.img = s.img) (g : BitVec 12) : t.group g = s.group g := by unfold State.group; rw [h]

theorem State.own_of (k : t.wl = s.wl) : t.own = s.own := by unfold State.own; rw [k]

theorem State.gateway_of (h : t.img = s.img) (k : t.wl = s.wl) (i u : Nat) : t.gateway i u = s.gateway i u := by
  unfold State.gateway; rw [h, State.own_of k]

theorem State.stagePoint_of (h : t.img = s.img) (k : t.wl = s.wl) (i u rd : Nat) : t.stagePoint i u rd = s.stagePoint i u rd := by
  unfold State.stagePoint; rw [State.gateway_of h k]

theorem State.standing_of (h : t.img = s.img) (k : t.wl = s.wl) (g : Group) (rd : Nat) (n u : Nat) :
    t.standing g rd n u = s.standing g rd n u := by
  induction n generalizing u with
  | zero => rfl
  | succ n ih =>
    unfold State.standing
    rw [ih, State.stagePoint_of h k]

theorem State.stages_of (h : t.img = s.img) (k : t.wl = s.wl) (g : Group) (rd : Nat) : t.stages g rd = s.stages g rd := by
  unfold State.stages
  congr 1
  funext i
  unfold State.stageHere
  rw [State.own_of k, State.stagePoint_of h k]

theorem State.nextStage_of (h : t.img = s.img) (k : t.wl = s.wl) (g : Group) (rd i : Nat) : t.nextStage g rd i = s.nextStage g rd i := by
  unfold State.nextStage
  simp only [State.own_of k, State.stagePoint_of h k]

theorem State.chainsFrom_of (h : t.img = s.img) (k : t.wl = s.wl) (g : Group) (rd : Nat) (acc ls : List Nat) :
    t.chainsFrom g rd acc ls = s.chainsFrom g rd acc ls := by
  induction ls generalizing acc with
  | nil => rfl
  | cons l ls ih =>
    unfold State.chainsFrom
    rw [State.nextStage_of h k]
    simp only [ih]

/-- The chains of this die. -/
theorem State.chains_of (h : t.img = s.img) (k : t.wl = s.wl) (g : Group) (rd : Nat) : t.chains g rd = s.chains g rd := by
  unfold State.chains
  rw [State.chainsFrom_of h k, State.stages_of h k, State.own_of k]

theorem State.edges_of (h : t.img = s.img) (k : t.wl = s.wl) (g : Group) (rd l : Nat) : t.edges g rd l = s.edges g rd l := by
  unfold State.edges
  simp only [State.own_of k, State.standing_of h k]

/-- The edges below a chain. -/
theorem State.kidsOf_of (h : t.img = s.img) (k : t.wl = s.wl) (g : Group) (rd : Nat) (c : Chain) : t.kidsOf g rd c = s.kidsOf g rd c := by
  unfold State.kidsOf
  congr 1
  funext l
  exact State.edges_of h k g rd l

/-- The dies below. -/
theorem State.kids_of (h : t.img = s.img) (k : t.wl = s.wl) (g : Group) (rd : Nat) : t.kids g rd = s.kids g rd := by
  unfold State.kids
  rw [State.stages_of h k]
  congr 1
  funext l
  exact State.edges_of h k g rd l

/-- The die above. -/
theorem State.up_of (h : t.img = s.img) (k : t.wl = s.wl) (g : Group) (rd : Nat) : t.up g rd = s.up g rd := by
  unfold State.up
  rw [State.chains_of h k]

/-- The members of a group on this die. -/
theorem State.localMems_of (h : t.img = s.img) (g : BitVec 12) : t.localMems g = s.localMems g := by
  unfold State.localMems State.memMask State.group; rw [h]

/-- Whether every edge below a chain has given its input. -/
theorem State.allIn_of (h : t.img = s.img) (k : t.wl = s.wl) (c : Coll) (ch : Chain) (l : List (Nat × Nat)) :
    t.allIn c ch l = s.allIn c ch l := by
  unfold State.allIn
  simp only [State.group_of h, State.kidsOf_of h k]

/-- Whether every agreement input of a chain has arrived. -/
theorem State.agReady_of (h : t.img = s.img) (k : t.wl = s.wl) (c : Coll) (ch : Chain) : t.agReady c ch = s.agReady c ch := by
  unfold State.agReady
  rw [State.allIn_of h k, State.localMems_of h]

end Sys2Proof.Machine
end

