-- ==== Sys2Proof/WellFormed.lean ====
section
/-! DEFINITION. Which commands can stand at the block's ports: the lengths and ranges that the port and message
tables give their operands. A command's meaning is total all the same. -/

namespace Sys2Proof

/-- Sixteen words, each with its partner (R89, Table SK-15). -/
def wordsOk (ws cs : List Word) : Bool := decide (ws.length = 16) && decide (cs.length = 16)

/-- A combining point that the numbering of R150, R154 and R137 gives. -/
def Point.wf : Point → Bool
  | .node i => decide (i < 1023)
  | .stage l => decide (1 ≤ l) && decide (l ≤ 4)
  | .token cp _ => decide (cp < 1024)

/-- MTYPE of a message body (Table SK-14), by the model's own numbering of the kinds. -/
def Body.kind : Body → Nat
  | .agree .. => 1 | .refuse => 2 | .reserve .. => 3 | .report _ => 4 | .admission .. => 5 | .release => 6 | .fault .. => 7
  | .token .. => 8 | .close .. => 9 | .allSent => 10 | .fprint .. => 11 | .wcred .. => 12 | .xcred .. => 13 | .susp .. => 14
  | .suspDone .. => 15 | .lost => 16

/-- The field lengths and ranges of a body (Table SK-15). -/
def Body.wf : Body → Bool
  | .agree _ _ _ _ aw awN => wordsOk aw awN
  | .reserve aw awN => wordsOk aw awN
  | .report r => decide (r.stages.length ≤ 4)
  | .token ws wsN => decide (ws.length = 16) && decide (wsN.length = ws.length)
      || decide (ws.length = 12) && decide (wsN.length = ws.length)
  | .wcred level _ _ => decide (1 ≤ level) && decide (level ≤ 4)
  | .xcred cp _ => decide (cp < 1024)
  | .susp op _ => decide (op = 1) || decide (op = 2)
  | _ => true

/-- A message of the kind that its command names, with a LEVEL and SRCF that Table SK-4 admits. -/
def Msg.wf (m : Msg) (kind : Nat) : Bool :=
  decide (m.body.kind = kind) && m.body.wf && decide (m.level ≤ 4) && decide (m.srcf < 32)

/-- A flit on the wire has 264 bytes (R181). -/
def wireOk (w : List Byte) : Bool := decide (w.length = 264)

/-- The command is well formed. -/
def Instr.wf : Instr → Bool
  | .fusedIssue _ words comps => wordsOk words comps
  | .hoopSignalArrival sig _ => decide (1 ≤ sig.inc.toNat)
  | .sendWale _ _ data => decide (data.length = 128)
  | .combineWale _ _ pt _ _ => pt.wf
  | .agree m => m.wf 1
  | .refuse m => m.wf 2
  | .reserve m => m.wf 3
  | .reserveReport m => m.wf 4
  | .admission m => m.wf 5
  | .releaseReservation m => m.wf 6
  | .fault m => m.wf 7
  | .token m => m.wf 8
  | .close m => m.wf 9
  | .allSent m => m.wf 10
  | .fprint m => m.wf 11
  | .wcred m => m.wf 12
  | .xcred m => m.wf 13
  | .susp m => m.wf 14
  | .suspDone m => m.wf 15
  | .lost m => m.wf 16
  | .dataFlitReceive _ wire _ => wireOk wire
  | .linkFlitReceive _ wire => wireOk wire
  | .trainFlitReceive _ wire _ => wireOk wire
  | .idleFlitReceive _ wire => wireOk wire
  | .monitorSample _ _ _ tmax => decide (tmax < 4096)
  | .governorInterval _ demand => decide (demand ≤ 256)
  | .memoryResponse _ _ _ _ data => decide (data.length ≤ 64)
  | _ => true

end Sys2Proof
end

