-- ==== Sys2Proof/Tests/Slice0.lean ====
section
/-! SUPPORT. The model's own tests: an ill-formed command for each check of WellFormed, one-step tests against figures of the
spec, and for each statement with hypotheses concrete states and operands that meet them, clause by clause. -/

namespace Sys2Proof.Tests

open Sys2Proof Sys2Proof.Machine

set_option Elab.async false

/-! ### Small states -/

/-- A block that runs, without an image. -/
def run : State := { State.reset with inReset := false }

/-- A group of die 0 alone with core ports 0 and 1, and one of dies 0 and 1. -/
def grp1 : Group := ⟨true, false, 1, 1, 1, 1, 100, 3⟩
def grp2 : Group := ⟨true, false, 1, 1, 1, 3, 100, 3⟩

/-- Two leaves under one node; stake 0 at level 1 to die 1; THR_FLOOR 2. -/
def cfg : Cfg := { Cfg.none with
  nl := 1, radix := [2], bufs := 4, leaves := 3, stakes := [0x10005], routes := [0, 0x10], groups := [(5, grp1), (6, grp2)]
  adm0 := 0x21111110, adm1 := 100, adm2 := 0x64064 }

/-- Die 0 in service. -/
def svc : State := { run with img := { run.img with st := .inService, cfg := cfg } }

/-- A sum of 32 elements of group `g` at root die 0, root core port 0. -/
def issue (g : Word) : List Word := [g, 31, 0, 0, 0x3F800000, 0, 0, 0, 0, 0, 0, 0, 0, 0, 0, 0]

def mem0 : Member := svc.newMember 0 0 (issue 5) false
def mem1 : Member := svc.newMember 1 0 (issue 5) false

/-- A collective of group 5 in GATHER, in QUEUED and OPEN. -/
def cGather : Coll := { Coll.zero with g := 5, members := [mem0, mem1], aw := awords (issue 5), gStart := some 0 }
def cQueued : Coll := { cGather with st := .queued, qStart := some 0 }
def cOpen : Coll := { cGather with st := .opened, entry := some 0, b := 1000, holds := true }

/-- Die 0 in service with one collective, one port, one stake, one hoop, one channel. -/
def withColl (c : Coll) : State := { svc with colls := [c] }
def withPort (p : Port) : State := { svc with ports := [(0, p)] }
def withStake (x : Stake) : State := { svc with stakes := [(0, x)] }
def withHoop (h : Hoop) : State := { svc with hoops := [(7, h)] }
def withChan (x : Chan) : State := { svc with chans := [(0, x)] }

/-- An ARMED hoop with TARGET 3. -/
def armed (count : BitVec 12) : Hoop := { Hoop.zero with st := .armed, count := count, target := 3, targetN := ~~~3 }

/-- A hoop command word: OP, MODE, hoop 7, ARG. -/
def hoopWord (op mode arg : Nat) : Word := BitVec.ofNat 32 (op + 8 * mode + 16 * 7 + 2 ^ 20 * arg)

/-- A message for the first collective of a group. -/
def msg (g : BitVec 12) (origin : BitVec 16) (b : Body) : Msg := ⟨g, 0, origin, 0, 0, 0, b⟩

/-- The same over an edge of the tree: level and field. -/
def msgOn (l f : Nat) (g : BitVec 12) (origin : BitVec 16) (b : Body) : Msg := ⟨g, 0, origin, 0, l, f, b⟩

/-! ### WellFormed refuses what the port and message tables do not allow -/

theorem test_wf_issue : Instr.wf (.fusedIssue 0 (issue 5) (compl (issue 5))) = true
    ∧ Instr.wf (.fusedIssue 0 (issue 5) []) = false ∧ Instr.wf (.fusedIssue 0 [] (issue 5)) = false := by decide +kernel

theorem test_wf_ports : Instr.wf (.hoopSignalArrival ⟨0, 0, .core 0, 0⟩ .clean) = false
    ∧ Instr.wf (.sendWale 0 5 []) = false ∧ Instr.wf (.sendWale 0 5 (List.replicate 128 0)) = true := by decide +kernel

theorem test_wf_points : Instr.wf (.combineWale 5 0 (.node 1023) 0 .clean) = false
    ∧ Instr.wf (.combineWale 5 0 (.stage 5) 0 .clean) = false ∧ Instr.wf (.combineWale 5 0 (.stage 0) 0 .clean) = false
    ∧ Instr.wf (.combineWale 5 0 (.token 1024 0) 0 .clean) = false ∧ Instr.wf (.combineWale 5 0 (.node 1022) 0 .clean) = true := by decide +kernel

theorem test_wf_message_kind : Instr.wf (.refuse (msg 5 0 .lost)) = false ∧ Instr.wf (.lost (msg 5 0 .lost)) = true
    ∧ Instr.wf (.allSent (msg 5 0 .release)) = false := by decide +kernel

theorem test_wf_bodies : Instr.wf (.agree (msg 5 0 (.agree 1 false false false [] []))) = false
    ∧ Instr.wf (.reserve (msg 5 0 (.reserve [] []))) = false
    ∧ Instr.wf (.reserveReport (msg 5 0 (.report ⟨false, false, 0, 0, 0, 0, 0, 0, List.replicate 5 ⟨0, 0, 0, 0, 0⟩⟩))) = false
    ∧ Instr.wf (.token (msg 5 0 (.token [0] [0]))) = false ∧ Instr.wf (.wcred (msg 5 0 (.wcred 5 0 1))) = false
    ∧ Instr.wf (.xcred (msg 5 0 (.xcred 1024 1))) = false ∧ Instr.wf (.susp (msg 5 0 (.susp 3 0))) = false := by decide +kernel

theorem test_wf_flits : Instr.wf (.dataFlitReceive 0 [] 0) = false ∧ Instr.wf (.linkFlitReceive 0 []) = false
    ∧ Instr.wf (.trainFlitReceive 0 [] 0) = false ∧ Instr.wf (.idleFlitReceive 0 [0]) = false := by decide +kernel

theorem test_wf_figures : Instr.wf (.monitorSample 0 false 0 4096) = false ∧ Instr.wf (.governorInterval [] 257) = false
    ∧ Instr.wf (.memoryResponse 0 0 false false (List.replicate 65 0)) = false := by decide +kernel

theorem test_table_gives_no_bits : decodeTableWord 32 0 = none := rfl

/-! ### Figures of the spec -/

/-- R12: the die at rack 12, tray 5, package 9, die 3 is 0x62CB. -/
theorem test_die_id : (subField 4 0x62CB, subField 3 0x62CB, subField 2 0x62CB, subField 1 0x62CB) = (12, 5, 9, 3) := by decide +kernel

/-- R187, R350: the check values over "123456789". -/
theorem test_crc : crc32c [0x31, 0x32, 0x33, 0x34, 0x35, 0x36, 0x37, 0x38, 0x39] = 0xE3069283
    ∧ crc64 [0x31, 0x32, 0x33, 0x34, 0x35, 0x36, 0x37, 0x38, 0x39] = 0x6C40DF5F0B497347 := by decide +kernel

/-- The loam word of an FP32 code. -/
def loam (code : Nat) : Loam := (widen 0 (decodeElem 0 0 code)).1

/-- spec/02, first worked sum: 1.5, −0.75 and 2^−20 give 3 × 2^68 + 2^50 at exponent 0x7FF, residue 52, no silt. -/
theorem test_loam_sum : combineSum [loam 0x3FC00000, loam 0xBF400000, loam 0x35800000]
    = (⟨0x000000300004000000000000, 0x7FF, .fin, 52⟩, 0) := by decide +kernel

/-- spec/02, silt example: 2^50 and −(1 + 2^−23) give 2^70 − 2^20 − 1 at exponent 0x831, residue 47, one silt event. -/
theorem test_loam_silt : combineSum [loam 0x58800000, loam 0xBF800001] = (⟨2 ^ 70 - 2 ^ 20 - 1, 0x831, .fin, 47⟩, 1) := by decide +kernel

/-- spec/03, R69: the conversion truncates onto the midpoint and delivers 0x3FC0_0002. -/
theorem test_convert_truncates :
    encodeLane 0 false (convertSum (Loam.mk' 0x800001AAAAAAAAAB 0x806) 0x3FC00000 0) = (0x3FC00002, false) := by decide +kernel

/-- spec/03, MXFP4 example: scale 0x83, elements 7, 0, 1, 0xC, output silt 1. -/
theorem test_mxfp4_wale :
    let r := encodeWale 7 32 false ([0x42C00000, 0x40800000, 0x40A00000, 0xC2200000].map (fun c => convertSum (loam c) 0x3F800000 0)
      ++ List.replicate 28 ⟨.fin, Dy.zero⟩)
    (byteAt r.1 0, byteAt r.1 1, byteAt r.1 2, byteAt r.1 32, r.2) = (0x07, 0xC1, 0, 0x83, 1) := by decide +kernel

/-- spec/07, packed partial wale: the first bytes of the body, 30 bytes. -/
theorem test_packed_partial :
    let v : WaleV := ⟨[.word ⟨0x000000300004000000000000, 0x7FF, .fin, 52⟩, .word ⟨2 ^ 70 - 2 ^ 20 - 1, 0x831, .fin, 47⟩,
      .word (Loam.special .posInf)] ++ List.replicate 29 (.word Loam.zero), [], 0, 0, none, none⟩
    let b := (partialBody 0 5 0 false v).2
    (b.take 8, b.length) = ([0xFF, 0x07, 0x01, 0x1A, 0x59, 0x25, 0x00, 0x80], 30) := by decide +kernel

/-- spec/04 and spec/13, the barrier of group 0x2A5: its issue words, and its canonical descriptor. -/
theorem test_barrier_words :
    let ws : List Word := [0x019952A5, 0, 0x080562CB] ++ List.replicate 13 0
    (isGroup ws, isOp ws, isIn ws, isOut ws, isEcho ws, isCount ws) = (0x2A5, 5, 9, 9, true, 1)
    ∧ (isRootDie ws, isRootCp ws, isDest ws, isWales ws) = (0x62CB, 5, 2, 1)
    ∧ wordsAt (canonical ws) 0 4 = [0x019952A5, 0, 0x08000000, 0] ∧ (canonical ws).length = 64 := by decide +kernel

/-- spec/05, Table EX-11: the header of token 1 and the return tag in cp2 slot 3. -/
theorem test_exchange_headers :
    let h := mkHeader ([0x00020001, 0x2A, 0x2B, 0, 0, 0, 0, 0, 0, 0x3F000000, 0x3F000000])
    (hTok h, hKn h, hExpert h 0, hExpert h 1, hGate h 0, hLane h 17, hdrOk h) = (1, 2, 42, 43, 0x3F000000, 0xFFFDFFFE, true)
    ∧ (hdrLanes (returnTag 1 0x62CB 1 0 3 42)).take 4 = [0x10010001, 0x000162CB, 3, 0x2A] := by decide +kernel

/-- Table TR-7: the stage combines of group 0x041 for root die 0x0891. -/
theorem test_stage_points :
    let g : Group := ⟨true, false, 3, 3, 4, 3, 100, 1⟩
    let at_ (d : BitVec 16) : State := { run with wl := { run.wl with dieId := d } }
    (at_ 0x0000).stages g 0x0891 = [3] ∧ (at_ 0x0010).stages g 0x0891 = [1] ∧ (at_ 0x0090).stages g 0x0891 = [1]
    ∧ (at_ 0x0810).stages g 0x0891 = [1] ∧ (at_ 0x0891).stages g 0x0891 = [1, 3, 4] ∧ (at_ 0x0890).stages g 0x0891 = []
    ∧ (at_ 0x0891).edges g 0x0891 1 = [(1, 0, 0x0890)] := by decide +kernel

/-- spec/10: cp8's ARM word, and the entry of hoop 387 after cp10's signal of the next round. -/
theorem test_hoop_entry :
    let s : State := { svc with img := { svc.img with cfg := { cfg with leaves := 0xF00 } }, hoopNet := [⟨8, 3, .core 10, 1⟩] }
    (match exec (.arm 8 0x00300038 (0xFFCFFFC7, .clean)) s with
      | .next t => (match exec (.hoopSignalArrival ⟨8, 3, .core 10, 1⟩ .clean) t with
          | .next u => decide (u.hoopWord 387 false = 0x09003001 ∧ u.hoopWord 387 true = 0x080A0000)
              && decide ((u.port 8).stq.map (fun x => x.code) = [8])
          | _ => false)
      | _ => false) = true := by decide +kernel

/-- spec/11: the three-loop descriptor moves 256 beats; the last one is row 7 of the second column half. -/
theorem test_descriptor :
    let d : List Word := [0x00171CA5, 0xFFE8E35A, 0, 0x00071000, 0x80000000, 0x00010000, 0, 0x00001000, 0xF, 0x40, 0x800, 0x400, 0, 0, 0x00218113, 0]
    (dKind d, dLast d, dCkEn d, dCkRst d, dTag d) = (0, true, true, true, 0x17) ∧ (dFmt d, dTkind d, dTotal d) = (1, 1, 256)
    ∧ dWalk d 255 = 0x80000000 + 15 * 64 + 7 * 2048 + 1024 ∧ (dEvo d, dEvoEn d, dHoopCp d, dHoop d, dHoopEn d) = (3, true, 8, 3, true)
    ∧ wd d 1 = ~~~(wd d 0) := by decide +kernel

/-- spec/15: WL_PROG 0x0002_62CB programs slot 2, and WL_LOG 2 then reads 0x0004_62CB. -/
theorem test_fuse_program :
    let s : State := { run with wl := { run.wl with ready := true, log := [(0, ⟨0x62CB, false, false, false⟩), (1, ⟨0, false, true, false⟩),
      (2, ⟨0, true, false, false⟩), (3, ⟨0, true, false, false⟩)] } }
    (match exec (.wlProg 0x000262CB) s with
      | .next t => (match exec (.fuseAck 0 false false) t with
          | .next u => (match exec (.fuseAck 0x62CB false false) u with
              | .next v => decide ((v.wl.slot 2).word = 0x000462CB ∧ v.wl.dieId = 0x62CB ∧ v.wl.locked 0 = false ∧ v.wl.last = 1)
              | _ => false)
          | _ => false)
      | _ => false) = true := by decide +kernel

/-- spec/09: the pace of the first intervals of an idle die at τ 800 ps and the reset SLEW. -/
theorem test_pace : (List.range 39).all (fun m => decide (paceOf 15 (128 * (m + 1)) 800 = m + 1)) = true := by decide +kernel

/-- R1: VERSION through the control port. -/
theorem test_version : (match exec (.latchedGroupRead 0) run with | .next t => decide (t.ct.rdata = 0x00020100 ∧ t.ct.err = false) | _ => false) = true := by
  decide +kernel

/-! ### Witnesses: states and operands that meet the hypotheses of each statement, clause by clause -/

theorem wit_StepRunsFrontCommand : ({ run with pending := [.calibration, .syncDue] } : State).pending = .calibration :: [.syncDue] := rfl

theorem wit_IdleTickAdvancesCounter :
    (run.pending = [] ∧ run.alive = true ∧ run.time.stopped = false) ∧ (State.reset.pending = [] ∧ State.reset.alive = false)
    ∧ (let s : State := { run with time := { run.time with stopped := true } }; s.pending = [] ∧ s.time.stopped = true) := by decide +kernel

theorem wit_StepKeepsInv : State.reset.Inv ∧ ∃ t, step State.reset = .next t := by
  refine ⟨⟨?_, ?_, ?_⟩, _, rfl⟩
  · unfold State.canon; decide +kernel
  · unfold State.logOk; decide +kernel
  · unfold State.rangesOk; decide +kernel

theorem wit_CommandFrame : ∃ t, exec (.throttleChange 3) run = .next t ∧ t.pwr ≠ run.pwr := ⟨_, rfl, by decide +kernel⟩

theorem wit_FeatAcceptChangesOnlyByItsWrite :
    let s : State := { run with pending := [.featAcceptWrite false 1] }
    ∃ t, step s = .next t ∧ t.accept ≠ s.accept := ⟨_, rfl, by decide +kernel⟩

theorem wit_AttnBitStaysUntilCleared :
    let s : State := { run with gst := { run.gst with attn := 0x400 }, pending := [.registerWrite 0x801 0x400] }
    ∃ t, step s = .next t ∧ s.gst.attn.getLsbD 10 = true ∧ t.gst.attn.getLsbD 10 = false := ⟨_, rfl, by decide +kernel⟩

theorem wit_DeadBlockIgnoresCommands : State.reset.alive = false ∧ Instr.calibration ≠ .resetAssert ∧ Instr.calibration ≠ .resetRelease
    ∧ Instr.calibration ≠ .vddSzRemoval := by decide +kernel

theorem wit_SettleFrame : svc.canon := by unfold State.canon; decide +kernel

theorem wit_FusedIssueTakesNextSequenceNumber : svc.canon ∧ svc.portReady 1 ∧ svc.notReady 1 = false
    ∧ wordOk (issue 5) (compl (issue 5)) 0 = true ∧ svc.isMember (isGroup (issue 5)) 1 = true := by
  refine ⟨?_, ?_, ?_⟩ <;> (try unfold State.canon) <;> (try unfold State.portReady) <;> decide +kernel

theorem wit_FusedIssueTurnedAway :
    (svc.canon ∧ svc.portReady 2 ∧ svc.notReady 2 = true)
    ∧ (svc.portReady 0 ∧ svc.notReady 0 = false ∧ wordOk (issue 5) (issue 5) 0 = false)
    ∧ (svc.notReady 0 = false ∧ wordOk (issue 7) (compl (issue 7)) 0 = true ∧ svc.isMember (isGroup (issue 7)) 0 = false) := by
  refine ⟨⟨?_, ?_⟩, ⟨?_, ?_⟩, ?_⟩ <;> (try unfold State.canon) <;> (try unfold State.portReady) <;> decide +kernel

theorem wit_ArmAndDisarmSetTheHoop :
    (svc.canon ∧ svc.portReady 0 ∧ svc.notReady 0 = false)
    ∧ (svc.hoopBad (hoopWord 0 0 4095) = false ∧ hcOp (hoopWord 0 0 4095) = 0 ∧ hcHoop (hoopWord 0 0 4095) = 7 ∧ (svc.hoop 7).ok = true
        ∧ (svc.hoop 7).st = .disarmed)
    ∧ ((withHoop (armed 0)).canon ∧ (withHoop (armed 0)).portReady 0 ∧ ((withHoop (armed 0)).hoop 7).ok = true ∧ ((withHoop (armed 0)).hoop 7).st ≠ .disarmed)
    ∧ (svc.hoopBad (hoopWord 3 0 0) = false ∧ hcOp (hoopWord 3 0 0) = 3)
    ∧ (evUncorr .corrected = false ∧ evUncorr (.uncorrData 7) = true ∧ evHits (.uncorrData 7) = 7 ∧ evHits .clean = 0)
    ∧ ((withHoop { armed 0 with targetN := 0 }).canon ∧ (withHoop { armed 0 with targetN := 0 }).portReady 0
        ∧ ((withHoop { armed 0 with targetN := 0 }).hoop 7).ok = false) := by
  refine ⟨⟨?_, ?_, ?_⟩, ?_, ⟨?_, ?_, ?_⟩, ?_, ?_, ?_, ?_, ?_⟩ <;> (try unfold State.canon) <;> (try unfold State.portReady) <;> decide +kernel

/-- COUNT 4,094 and an increment of 1 do not saturate, 4,095 and 1 do; what arrives is the signal under way. -/
theorem wit_SignalIsSentAndCounts :
    (svc.portReady 0 ∧ svc.notReady 0 = false ∧ svc.hoopBad (hoopWord 1 0 1) = false ∧ hcOp (hoopWord 1 0 1) = 1)
    ∧ (svc.alive = true ∧ svc.nextSignal ⟨0, 7, .core 1, 1⟩ = none)
    ∧ (∀ c ∈ [4094#12, 4095#12], let s : State := { withHoop (armed c) with hoopNet := [⟨0, 7, .core 1, 1⟩] }
        s.alive = true ∧ s.nextSignal ⟨0, 7, .core 1, 5⟩ = some ⟨0, 7, .core 1, 1⟩ ∧ (s.hoop 7).st = .armed ∧ (s.hoop 7).ok = true
        ∧ s.waitsOn 7 = false ∧ (s.port 0).cmdq = [])
    ∧ ({ withHoop (armed 4094) with hoopNet := [⟨0, 7, .core 1, 1⟩] } : State).canon
    ∧ ({ withHoop (armed 4095) with hoopNet := [⟨0, 7, .core 1, 1⟩] } : State).canon := by
  refine ⟨⟨?_, ?_⟩, ?_, ?_, ?_, ?_⟩ <;> (try unfold State.canon) <;> (try unfold State.portReady) <;> decide +kernel

/-- COUNT 3 satisfies TARGET 3, in both modes; COUNT 2 does not. -/
theorem wit_WaitReleasesOrStalls :
    ((withHoop (armed 3)).canon ∧ (withHoop (armed 3)).portReady 0 ∧ (withHoop (armed 3)).notReady 0 = false
        ∧ svc.hoopBad (hoopWord 2 0 9) = false ∧ hcOp (hoopWord 2 0 9) = 2)
    ∧ (((withHoop (armed 3)).hoop 7).sat = true ∧ ((withHoop (armed 3)).hoop 7).ok = true ∧ ((withHoop (armed 3)).hoop 7).mode = false)
    ∧ (let s := withHoop { armed 3 with mode := true }; (s.hoop 7).sat = true ∧ (s.hoop 7).ok = true ∧ (s.hoop 7).mode = true)
    ∧ ((withHoop (armed 2)).canon ∧ (withHoop (armed 2)).portReady 0 ∧ ((withHoop (armed 2)).hoop 7).st = .armed
        ∧ ((withHoop (armed 2)).hoop 7).sat = false)
    ∧ ((withHoop { armed 3 with targetN := 0 }).canon ∧ (withHoop { armed 3 with targetN := 0 }).portReady 0
        ∧ ((withHoop { armed 3 with targetN := 0 }).hoop 7).sat = true ∧ ((withHoop { armed 3 with targetN := 0 }).hoop 7).ok = false
        ∧ ((withHoop { armed 3 with targetN := 0 }).hoop 7).st ≠ .fault)
    ∧ ((svc.hoop 7).st = .disarmed ∧ svc.canon ∧ (withHoop { armed 3 with st := .fault }).canon
        ∧ ((withHoop { armed 3 with st := .fault }).hoop 7).st = .fault ∧ (withHoop { armed 3 with st := .fault }).portReady 0) := by
  refine ⟨⟨?_, ?_, ?_⟩, ?_, ?_, ⟨?_, ?_, ?_⟩, ⟨?_, ?_, ?_⟩, ?_, ?_, ?_, ?_, ?_⟩ <;> (try unfold State.canon) <;> (try unfold State.portReady) <;> decide +kernel

def waiting : State := withPort { Port.zero with wait := some ⟨7, 0, 0⟩, gate := true }

theorem wit_WaitTimeoutLeavesHoop :
    let s : State := { waiting with ports := [(0, { Port.zero with wait := some ⟨7, 0, 1⟩ })], time := { run.time with now := 256 * 65536 } }
    s.canon ∧ s.alive = true ∧ (s.port 0).wait = some ⟨7, 0, 1⟩ ∧ s.reached (0 + BitVec.ofNat 64 (1 * 256)) = true ∧ (s.port 0).cmdq = [] := by
  refine ⟨?_, ?_⟩ <;> (try unfold State.canon) <;> decide +kernel

theorem wit_CtxSwitchClearsPort : waiting.canon ∧ waiting.alive = true ∧ (waiting.port 0).wait = some ⟨7, 0, 0⟩ := by
  refine ⟨?_, ?_⟩ <;> (try unfold State.canon) <;> decide +kernel

def rx0 : Rx := ⟨5, 0, 0, [], false⟩
def st0 (code : BitVec 4) (arg : Word) : Status := ⟨code, 5, arg, true, false⟩
def tok0 (pos : Nat) : Tok := ⟨5, 0, List.replicate 16 0, pos, false⟩

/-- A wale of a later collective stands before the one whose turn it is; statuses likewise; a token at its first and at its fifteenth
word; a token whose collective still has a wale at the port. -/
theorem wit_CoreTakesInTurn :
    (let s := withPort { Port.zero with rxq := [{ rx0 with k := 1 }, rx0] }
     s.canon ∧ s.alive = true ∧ (s.port 0).rxq = [{ rx0 with k := 1 }] ++ rx0 :: [] ∧ (1 : Word) ≠ (s.port 0).turn 5 ∧ rx0.k = (s.port 0).turn 5)
    ∧ (let s := withPort { Port.zero with stq := [st0 1 1, st0 2 0] }
       s.canon ∧ (s.port 0).stq = [st0 1 1] ++ st0 2 0 :: [] ∧ (st0 1 1).gate = true ∧ (st0 1 1).arg ≠ (s.port 0).turn 5
        ∧ (st0 2 0).arg = (s.port 0).turn 5)
    ∧ (let s := withPort { Port.zero with stq := [⟨9, 0, 0, false, true⟩] }
       s.canon ∧ (s.port 0).stq = [] ++ ⟨9, 0, 0, false, true⟩ :: [])
    ∧ (let s := withPort { Port.zero with tokq := [tok0 0] }
       s.canon ∧ (s.port 0).tokq = tok0 0 :: [] ∧ (tok0 0).k = (s.port 0).turn 5 ∧ (s.port 0).rxq = [])
    ∧ (let s := withPort { Port.zero with tokq := [tok0 14] }
       s.canon ∧ (s.port 0).tokq = tok0 14 :: [] ∧ 0 < (tok0 14).pos ∧ (tok0 14).pos + 1 < 16)
    ∧ (let s := withPort { Port.zero with tokq := [tok0 0], rxq := [rx0] }
       s.alive = true ∧ (s.port 0).tokq = tok0 0 :: [] ∧ (∀ y ∈ [tok0 0], y.pos = 0) ∧ (tok0 0).k = (s.port 0).turn (tok0 0).g
        ∧ ∃ r ∈ (s.port 0).rxq, r.g = (tok0 0).g ∧ r.k = (tok0 0).k ∧ r.old = (tok0 0).old) := by
  refine ⟨⟨?_, ?_⟩, ⟨?_, ?_⟩, ⟨?_, ?_⟩, ⟨?_, ?_⟩, ⟨?_, ?_⟩, ?_⟩ <;> (try unfold State.canon) <;> decide +kernel

/-- An agreement of die 1 with the flags DISAGREE, CORRUPT and DISTINCT, and the collective of an operation `ws` of group 6 at its
home die 0 with the members 0 and 1 or with member 0 alone. -/
def agMsg (ws : List Word) (dis cor dist : Bool) : Msg := msgOn 1 1 6 1 (.agree 2 dis cor dist (awords ws) (compl (awords ws)))
def gather6 (ws : List Word) (ms : List Nat) : Coll := { Coll.zero with g := 6, members := ms.map (fun cp => svc.newMember cp 0 ws false) }
def gathered (c : Coll) (ws : List Word) (dis cor dist : Bool) : Coll :=
  { c with agIn := c.agIn ++ [⟨1, 1, 0, 2, cor, dis, dist, awords ws⟩], gStart := some 0 }

/-- A routed operation, and die 0 with an expert map that fails its complement. -/
def routed6 : List Word := 0x40000006 :: (issue 6).drop 1
def badMap (c : Coll) : State := { withColl c with img := { svc.img with cfg := { cfg with experts := [(0, 1)] } } }

/-- The state and the operands of both clauses; then, with every input there, each of the decisions. -/
theorem wit_AgreementGathersAtHome :
    (let s := withColl (gather6 (issue 6) [0])
     s.alive = true ∧ (s.kids (s.group 6) (s.group 6).home).any (fun x => decide (x.1 = 1) && decide (x.2.1 = 1)) = true
      ∧ mget 0 s.col.agCnt (agKey 6 1 1) = 0
      ∧ s.colls.find? (fun x => decide (x.g = 6) && decide (x.pos = BitVec.ofNat 32 0) && !x.old) = some (gather6 (issue 6) [0])
      ∧ s.coll? 6 0 = some (gather6 (issue 6) [0]) ∧ (gather6 (issue 6) [0]).st = .gather ∧ (s.group 6).memDie s.own = true
      ∧ (∀ ch ∈ s.chains (s.group 6) (s.group 6).home, s.agReady (gathered (gather6 (issue 6) [0]) (issue 6) false false false) ch = false))
    ∧ (let s := withColl (gather6 (issue 6) [0, 1])
       (s.group 6).home = s.own ∧ s.chains (s.group 6) s.own = [⟨5, [0, 1], .top⟩] ∧ (gather6 (issue 6) [0, 1]).decided = none
        ∧ (gather6 (issue 6) [0, 1]).agSent = []
        ∧ (∀ x ∈ [(false, true, false), (true, false, false), (false, false, true), (false, false, false)],
            s.agReady (gathered (gather6 (issue 6) [0, 1]) (issue 6) x.1 x.2.1 x.2.2) ⟨5, [0, 1], .top⟩ = true)) := by
  refine ⟨?_, ?_⟩ <;> decide +kernel

/-- The joined inputs of a gathered collective. -/
def joined (c : Coll) : Option AgIn :=
  match c.agAll ⟨5, [0, 1], .top⟩ with
  | a :: rest => some (rest.foldl agJoin a)
  | [] => none

theorem wit_AgreementOutcomes :
    ((joined (gathered (gather6 (issue 6) [0, 1]) (issue 6) false true false)).map (fun a => a.bad) = some true)
    ∧ ((joined (gathered (gather6 (issue 6) [0, 1]) (issue 6) true false false)).map (fun a => (a.bad, a.dist || a.dis)) = some (false, true))
    ∧ ((joined (gathered (gather6 (issue 6) [0, 1]) (issue 6) false false false)).map (fun a => (a.bad, a.dist || a.dis, isExch a.aw,
          svc.refusable 6 a.aw false, svc.refusable 6 a.aw true)) = some (false, false, false, false, true))
    ∧ ((joined (gathered (gather6 routed6 [0, 1]) routed6 false false false)).map (fun a => (a.bad, a.dist || a.dis, isExch a.aw))
          = some (false, false, true)
      ∧ (badMap (gather6 routed6 [0, 1])).img.cfg.mapOk = false
      ∧ (badMap (gather6 routed6 [0, 1])).agReady (gathered (gather6 routed6 [0, 1]) routed6 false false false) ⟨5, [0, 1], .top⟩ = true) := by
  refine ⟨?_, ?_, ?_, ?_⟩ <;> decide +kernel

theorem canon_cGather : (withColl cGather).canon := by unfold State.canon; decide +kernel
theorem canon_cQueued : (withColl cQueued).canon := by unfold State.canon; decide +kernel
theorem canon_cOpen : (withColl cOpen).canon := by unfold State.canon; decide +kernel

theorem wit_RefuseEndsMembers :
    ((withColl cGather).canon ∧ (withColl cGather).alive = true ∧ (msg 5 0 .refuse).body = .refuse ∧ (msg 5 0 .refuse).level = 0
      ∧ (withColl cGather).coll? 5 0 = some cGather ∧ cGather.st = .gather ∧ cGather.adm = false ∧ cGather.tokSegs = [])
    ∧ ((withColl cQueued).canon ∧ (withColl cQueued).coll? 5 0 = some cQueued ∧ cQueued.st = .queued ∧ cQueued.adm = false
      ∧ mem0 ∈ cQueued.members ∧ mem0.ended = false
      ∧ ((withColl cQueued).chains (svc.group 5) (svc.group 5).home).map (fun ch => (ch.id, ch.mem)) = [(5, true)])
    ∧ (svc.canon ∧ svc.coll? 5 0 = none) :=
  ⟨⟨canon_cGather, by decide +kernel⟩, ⟨canon_cQueued, by decide +kernel⟩, wit_SettleFrame, by decide +kernel⟩

/-- GATHER_LIMIT 100 of grp1 is reached at 100 ns and not at 99 ns; the deadline 0 has come at 0. -/
theorem wit_ExpiryDecidesAbort :
    (let s : State := { withColl cGather with time := { run.time with now := 100 * 65536 } }
     s.alive = true ∧ s.coll? 5 0 = some cGather ∧ s.gatherExpired cGather = true ∧ cGather.adm = false ∧ s.boundExpired cGather = false)
    ∧ (let s : State := { withColl cGather with time := { run.time with now := 99 * 65536 } }
       s.coll? 5 0 = some cGather ∧ s.gatherExpired cGather = false)
    ∧ ((withColl cOpen).coll? 5 0 = some cOpen ∧ (withColl cOpen).boundExpired cOpen = true) := by decide +kernel

def reserveMsg (aw awN : List Word) : Msg := msg 5 0 (.reserve aw awN)

theorem wit_ReserveRounds :
    (let s := withColl cQueued
     let c1 : Coll := { (s.recOf 5 0).inRound 0 with aw := issue 5, st := .queued }
     s.alive = true ∧ (reserveMsg (issue 5) (compl (issue 5))).body = .reserve (issue 5) (compl (issue 5)) ∧ (s.recOf 5 0).settled = false
      ∧ (s.fromAbove 5 c1.rd 0).filter (fun ch => !c1.resv.contains ch.id) = ⟨5, [0], .top⟩ :: [] ∧ c1.resv = [])
    ∧ (let c := { cQueued with resv := [1] }
       let c1 : Coll := { ((withColl c).recOf 5 0).inRound 0 with aw := issue 5, st := .queued }
       ((withColl c).fromAbove 5 c1.rd 0).filter (fun ch => !c1.resv.contains ch.id) = ⟨5, [0], .top⟩ :: [] ∧ c1.resv ≠ [])
    ∧ (issue 5 ≠ compl (issue 5) ∧ (withColl cQueued).decider 5 0 = (withColl cQueued).own)
    ∧ ((withColl cQueued).coll? 5 0 = some cQueued ∧ cQueued.st = .queued ∧ (svc.group 5).home = svc.own ∧ cQueued.b = 0
      ∧ cQueued.decided = none ∧ cQueued.passed = false ∧ (withColl cQueued).firstOf 5 0 = true ∧ (withColl cQueued).groupHeld 5 = false
      ∧ cQueued.started = false ∧ (withColl cQueued).canReach cQueued.rd = true ∧ cQueued.rd = svc.own)
    ∧ (cQueued.isOpen = false ∧ cQueued.round = (msg 5 0 .release).round ∧ (svc.group 5).memDie svc.own = true
      ∧ (withColl cQueued).fromAbove 5 cQueued.rd 0 = [⟨5, [0], .top⟩])
    ∧ (let s : State := { withColl cQueued with time := { run.time with now := 0x100000 * 65536 } }
       s.coll? 5 0 = some cQueued ∧ cQueued.qStart = some 0 ∧ s.reached (0 + 0x100000#64) = true ∧ cQueued.qLong = false
        ∧ s.groupHeld 5 = false ∧ s.gst.unread < 64)
    ∧ (let c := { cQueued with qLong := true }; (withColl c).coll? 5 0 = some c ∧ c.qLong = true) := by
  refine ⟨?_, ?_, ?_, ?_, ?_, ?_, ?_⟩ <;> decide +kernel

/-- A report of one die with TAU `tau`, RETRY `retry`. -/
def rep (full down : Bool) (tau retry : Nat) : Report := ⟨full, down, tau, 0, 1, 1, 4, retry, []⟩
def cRound : Coll := { cQueued with round := 1, started := true }
def repMsg (r : Report) : Msg := ⟨5, 0, 0, 1, 0, 0, .report r⟩
def boundOf (r : Report) (best : Bool) : Nat :=
  ((withColl cRound).takeMsg (repMsg r)).bound 5 cRound.aw r (((withColl cRound).takeMsg (repMsg r)).homeHop cRound.rd) best

theorem wit_ReserveReportDecides :
    ((withColl cRound).alive = true ∧ (withColl cRound).coll? 5 0 = some cRound ∧ cRound.round = (repMsg (rep false false 800 0)).round
      ∧ cRound.st = .queued ∧ cRound.b = 0 ∧ cRound.decided = none ∧ (repMsg (rep false false 800 0)).level = 0
      ∧ (svc.group 5).home = svc.own ∧ cRound.started = true ∧ (withColl cRound).groupHeld 5 = false ∧ cRound.rd = svc.own)
    ∧ (rep false true 800 0).down = true
    ∧ 2 ^ 40 < boundOf (rep false false 800 (2 ^ 90)) true
    ∧ (boundOf (rep false false 800 0) true ≤ 2 ^ 40 ∧ boundOf (rep false false 800 0) false ≤ 2 ^ 40)
    ∧ (boundOf (rep false false (2 ^ 60) 0) true ≤ 2 ^ 40 ∧ 2 ^ 40 < boundOf (rep false false (2 ^ 60) 0) false)
    ∧ (boundOf (rep true false 800 0) true ≤ 2 ^ 40 ∧ (rep true false 800 0).full = true) := by
  refine ⟨?_, ?_, ?_, ?_, ?_, ?_⟩ <;> decide +kernel

/-- T_ADM 1 has not come at 0 and has come at 1. -/
def cAdmitted : Coll := { cQueued with b := 1000, tAdm := 1, dl := 1001 }
theorem wit_AdmissionOpensAtItsTime :
    ((withColl cQueued).alive = true ∧ (msg 5 0 (.admission 1 1001 1000)).body = .admission 1 1001 1000 ∧ (withColl cQueued).coll? 5 0 = some cQueued
      ∧ cQueued.st = .queued ∧ cQueued.b = 0 ∧ cQueued.decided = none ∧ cQueued.round = 0 ∧ (withColl cQueued).reached 1 = false)
    ∧ ((withColl cAdmitted).canon ∧ (withColl cAdmitted).coll? 5 0 = some cAdmitted ∧ (withColl cAdmitted).reached cAdmitted.tAdm = false)
    ∧ (let s : State := { withColl cAdmitted with time := { run.time with now := 65536 } }
       s.canon ∧ s.coll? 5 0 = some cAdmitted ∧ cAdmitted.b ≠ 0 ∧ cAdmitted.decided = none ∧ s.reached cAdmitted.tAdm = true ∧ s.groupHeld 5 = false)
    ∧ (let s : State := { withColl cAdmitted with col := { run.col with susp := [(5, { SuspG.zero with st := .suspended })] } }
       s.canon ∧ s.coll? 5 0 = some cAdmitted ∧ s.groupHeld 5 = true) := by
  refine ⟨?_, ⟨?_, ?_⟩, ⟨?_, ?_⟩, ⟨?_, ?_⟩⟩ <;> (try unfold State.canon) <;> decide +kernel

def faultMsg : Msg := msg 5 0 (.fault 2 3 0 0 none)
theorem wit_FaultReportDecidesOnce :
    (let s : State := { svc with ports := [(0, { Port.zero with seqs := [(5, 1)] }), (1, { Port.zero with seqs := [(5, 1)] })] }
     s.canon ∧ s.alive = true ∧ faultMsg.body = .fault 2 3 0 0 none ∧ s.decider 5 0 = s.own ∧ s.coll? 5 0 = none ∧ s.awaits 5 0 = false
       ∧ s.gst.unread < 64)
    ∧ (let c := { cQueued with decided := some 7 }; (withColl c).coll? 5 0 = some c ∧ c.decided.isSome = true ∧ (withColl c).decider 5 0 = svc.own)
    ∧ ((withColl cQueued).canon ∧ (withColl cQueued).decider 5 0 = svc.own ∧ (withColl cQueued).coll? 5 0 = some cQueued ∧ cQueued.decided = none)
    ∧ (svc.canon ∧ svc.decider 5 0 = svc.own ∧ svc.coll? 5 0 = none ∧ svc.awaits 5 0 = true) := by
  refine ⟨⟨?_, ?_⟩, ?_, ⟨canon_cQueued, ?_⟩, wit_SettleFrame, ?_⟩ <;> (try unfold State.canon) <;> decide +kernel

def open6 : Coll := { cOpen with g := 6, aw := awords (issue 6) }
theorem wit_ReportsCountOnce :
    ((withColl open6).alive = true ∧ (withColl open6).coll? 6 0 = some open6 ∧ open6.decided = none ∧ open6.st ≠ .ended ∧ isExch open6.aw = false)
    ∧ (withColl open6).fromKid open6 (msg 6 1 .lost) = false ∧ (withColl open6).fromKid open6 (msgOn 1 1 6 1 .lost) = true
    ∧ hasFrom (msgOn 1 1 6 1 .lost) open6.fpIn = false ∧ hasFrom (msgOn 1 1 6 1 .lost) ({ open6 with fpIn := [(1, 1, 0, 1)] } : Coll).fpIn = true := by
  refine ⟨?_, ?_, ?_, ?_, ?_⟩ <;> decide +kernel

theorem wit_CreditsReturn :
    ((withColl cOpen).alive = true ∧ (withColl cOpen).coll? 5 0 = some cOpen ∧ cOpen.st = .opened ∧ cOpen.decided = none ∧ cOpen.allSent = false
      ∧ cOpen.members.all (fun x => x.ex.toks.all (fun t => t.routes.all (fun r => !r.placed || r.got.isSome))) = true)
    ∧ ((msg 5 0 (.wcred 1 0 1)).body = .wcred 1 0 1 ∧ (msg 5 0 (.xcred 1 1)).body = .xcred 1 1 ∧ (msg 5 0 .allSent).body = .allSent)
    ∧ (let c := cOpen.onMember 1 (fun x => { x with ex := { x.ex with owed := 1 } })
       (withColl c).coll? 5 0 = some c ∧ ∃ x ∈ c.members, x.cp = 1 ∧ x.ex.owed ≠ 0) := by decide +kernel

/-- An open collective and an abort token, a seal token, a token that fails its complements, LOST; a collective that is not known. -/
theorem wit_TerminalTokenReachesMembers :
    ((withColl cOpen).canon ∧ (withColl cOpen).alive = true ∧ (withColl cOpen).coll? 5 0 = some cOpen ∧ cOpen.st ≠ .ended
      ∧ (withColl cOpen).addressed cOpen 0 = ⟨5, [0], .top⟩ :: [] ∧ Chain.mem ⟨5, [0], .top⟩ = true ∧ cOpen.tokSegs.contains 5 = false
      ∧ (withColl cOpen).tokWaits cOpen 5 = false ∧ mem1 ∈ cOpen.members ∧ mem1.ended = false)
    ∧ (wf_ (wd (issue 5) 1) 23 16 = 0 ∧ isExch cOpen.aw = false ∧ wf_ (wd [5, 0x70000] 1) 23 16 ≠ 0)
    ∧ issue 5 ≠ compl (issue 5) ∧ (msg 5 0 .lost).body = .lost
    ∧ (svc.canon ∧ svc.coll? 5 0 = none ∧ wf_ (wd (issue 5) 1) 23 16 = 0) :=
  ⟨⟨canon_cOpen, by decide +kernel⟩, by decide +kernel, by decide +kernel, by decide +kernel, wit_SettleFrame, by decide +kernel⟩

/-- ABORT of entry 0 with the read that names the collective and without it; COL_KILL of a collective that is there and of one that is not. -/
theorem wit_DriverAbortsReport :
    (let s : State := { withColl cOpen with ct := { run.ct with entryRead := [(0, some (5, 0))] } }
     s.alive = true ∧ s.entryColl 0 = some cOpen ∧ mget none s.ct.entryRead 0 = some (cOpen.g, cOpen.k) ∧ s.decider cOpen.g cOpen.k = s.own)
    ∧ ((withColl cOpen).entryColl 0 = some cOpen ∧ mget none (withColl cOpen).ct.entryRead 0 ≠ some (cOpen.g, cOpen.k) ∧ (1 : Word).getLsbD 0 = true)
    ∧ ((0x1005 : Word).getLsbD 12 = true ∧ svc.coll? ((0x1005 : Word).setWidth 12) svc.col.killSeq = none)
    ∧ ((withColl cOpen).coll? ((0x1005 : Word).setWidth 12) svc.col.killSeq = some cOpen ∧ (svc.group ((0x1005 : Word).setWidth 12)).home = svc.own
      ∧ cOpen.isOpen = true ∧ (withColl cOpen).decider ((0x1005 : Word).setWidth 12) 0 = svc.own) := by
  refine ⟨?_, ?_, ?_, ?_⟩ <;> decide +kernel

theorem wit_CombineSumIgnoresPortOrder : [loam 0x3FC00000, loam 0xBF400000].Perm [loam 0xBF400000, loam 0x3FC00000] := List.Perm.swap ..

theorem wit_CombineRaisesNoFalseAlarm :
    (∀ x ∈ [(Lane.word (loam 0x58800000), 0#32), (Lane.word (loam 0xBF800001), 1#32), (.absent, 0#32)], ∀ w, x.1 = .word w → w.resOk = true)
    ∧ ∃ w, (combineLane 0 [(Lane.word (loam 0x58800000), 0#32), (Lane.word (loam 0xBF800001), 1#32)]).out = .word w := by
  refine ⟨?_, _, rfl⟩
  intro x hx w hw
  simp only [List.mem_cons, List.mem_nil_iff, or_false] at hx
  rcases hx with rfl | rfl | rfl
  · cases hw; decide +kernel
  · cases hw; decide +kernel
  · cases hw

/-- Wale 0 of members 0 and 1 at node 0, the slath of die 0. -/
def wale0 : WaleV := ⟨List.replicate 32 (.word (loam 0x3FC00000)), [], 0, 1, none, none⟩
def bufs0 : List Buf := [⟨.node 0, 0, some 0, wale0⟩, ⟨.node 0, 1, some 0, wale0⟩]
def cTwo : Coll := { cOpen with bufs := bufs0 }
theorem wit_CombineWaleMovesUp :
    ((withColl cTwo).canon ∧ (withColl cTwo).alive = true ∧ (withColl cTwo).coll? 5 0 = some cTwo ∧ cTwo.st = .opened ∧ cTwo.decided = none)
    ∧ ((withColl cTwo).fromPoint cTwo (.node 0) = ([], .root) ∧ (withColl cTwo).inputs cTwo (.node 0) 0 = some bufs0
      ∧ (∃ b ∈ bufs0, b.wale.isSome = true) ∧ mget 0 cTwo.fwd 0 = 0 ∧ cTwo.rootQ.length < svc.img.cfg.bufs ∧ isOp cTwo.aw ≠ 7 ∧ cTwo.steps = []
      ∧ svc.dbg.armed = false)
    ∧ (let r := combineWales (isOp cTwo.aw) 0 (bufs0.map (fun b => b.v)) 1 0 svc.own false; r.2 = none)
    ∧ (withColl cTwo).decider 5 0 = svc.own ∧ svc.gst.unread < 64 := by
  refine ⟨⟨?_, ?_⟩, ?_, ?_, ?_⟩ <;> (try unfold State.canon) <;> decide +kernel

/-- A port that holds a wale; one that owes data; one whose collective has room, and has none; one that waits; one of which nothing is owed. -/
theorem wit_SendWaleGoesWhereItIsOwed :
    (svc.canon ∧ svc.alive = true ∧ (svc.port 0).txHeld = none ∧ (svc.port 0).owes 5 = [] ∧ svc.owedColl 0 5 = none ∧ svc.pendingColl 0 5 = false)
    ∧ ((withPort { Port.zero with txHeld := some (5, []) }).port 0).txHeld.isSome = true
    ∧ ((withPort { Port.zero with discard := [(5, [.wales 1])] }).port 0).owes 5 ≠ []
    ∧ svc.pwr.accs = []
    ∧ (let s : State := { withColl cOpen with pwr := { svc.pwr with accs := [(0, 255)], pace := 1 } }
       s.canon ∧ 256 ≤ mget 0 s.pwr.accs 0 + s.pwr.pace.toNat ∧ s.owedColl 0 5 = some (cOpen, mem0) ∧ s.leafRoom cOpen mem0 = true)
    ∧ (let s : State := { withColl cOpen with pwr := { svc.pwr with pace := 255 } }
       s.canon ∧ mget 0 s.pwr.accs 0 + s.pwr.pace.toNat < 256 ∧ s.owedColl 0 5 = some (cOpen, mem0) ∧ s.leafRoom cOpen mem0 = true)
    ∧ (let c := { cOpen with st := .closing }; (withColl c).owedColl 0 5 = some (c, mem0) ∧ (withColl c).leafRoom c mem0 = false)
    ∧ ((withColl cQueued).owedColl 0 5 = none ∧ (withColl cQueued).pendingColl 0 5 = true) := by
  refine ⟨⟨wit_SettleFrame, ?_⟩, ?_, ?_, ?_, ⟨?_, ?_⟩, ⟨?_, ?_⟩, ?_, ?_⟩ <;> (try unfold State.canon) <;> decide +kernel

/-- Die 0 with group 5 in a state of suspension, COL_SUSP_ST at `v`, features accepted or not. -/
def suspended (x : SuspSt) (v : BitVec 3) (accept : BitVec 64) : State :=
  { svc with accept := accept, col := { run.col with suspSt := v, susp := if x = .none then [] else [(5, { SuspG.zero with st := x })] } }

theorem wit_SuspendAndResumeAreRequested :
    (∀ x ∈ [(SuspSt.none, 0#3, 0x81#64), (.draining, 1, 0x81), (.suspended, 3, 0x81), (.none, 0, 1)], (suspended x.1 x.2.1 x.2.2).alive = true)
    ∧ ((suspended .none 0 0x81).canon ∧ (suspended .suspended 3 0x81).canon)
    ∧ ((0x5005 : Word).getLsbD 14 = true ∧ wf_ 0x5005 13 12 = 1 ∧ (0x6005 : Word).getLsbD 14 = true ∧ wf_ 0x6005 13 12 = 2
      ∧ (0x5005 : Word).setWidth 12 = (5 : BitVec 12))
    ∧ ((suspended .draining 1 0x81).col.suspSt = 1 ∧ (suspended .none 0 1).feat 7 = false ∧ (suspended .none 0 0x81).feat 7 = true
      ∧ (svc.group 5).v = true ∧ (svc.group 9).v = false ∧ (svc.group 5).dieList = [svc.own])
    ∧ (((suspended .none 0 0x81).susp 5).st = .none ∧ ((suspended .suspended 3 0x81).susp 5).st = .suspended) := by
  refine ⟨?_, ⟨?_, ?_⟩, ?_, ?_, ?_⟩ <;> (try unfold State.canon) <;> decide +kernel

theorem wit_SuspensionRunsItsCourse :
    ((suspended .none 0 0x81).canon ∧ (suspended .none 0 0x81).alive = true ∧ (msg 5 0 (.susp 1 0)).body = .susp 1 0
      ∧ (suspended .none 0 0x81).suspHandling = false ∧ ((suspended .none 0 0x81).susp 5).st = .none)
    ∧ (let s : State := { suspended .none 1 0x81 with col := { (suspended .none 1 0x81).col with suspGrp := 6 } }
       s.canon ∧ s.suspHandling = true ∧ s.col.suspGrp ≠ 5)
    ∧ ((suspended .suspended 3 0x81).canon ∧ ((suspended .suspended 3 0x81).susp 5).st = .suspended ∧ (suspended .suspended 3 0x81).suspHandling = false)
    ∧ ((suspended .draining 1 0x81).canon ∧ ((suspended .draining 1 0x81).susp 5).st = .draining ∧ (suspended .draining 1 0x81).drained 5 = true)
    ∧ (let s : State := { suspended .draining 1 0x81 with colls := [cOpen] }
       s.canon ∧ (s.susp 5).st = .draining ∧ s.drained 5 = true ∧ s.coll? 5 0 = some cOpen ∧ s.held cOpen = true)
    ∧ (((suspended .writing 1 0x81).susp 5).st = .writing ∧ ((suspended .writing 1 0x81).susp 5).record.length ≤ 64 * ((suspended .writing 1 0x81).susp 5).next
      ∧ (suspended .writing 1 0x81).suspBusy = false)
    ∧ (let s : State := { svc with col := { run.col with susp := [(5, { SuspG.zero with st := .reloading, fail := true })] } }
       s.canon ∧ (s.susp 5).st = .reloading ∧ (s.susp 5).need ≤ (s.susp 5).next ∧ s.suspBusy = false ∧ (s.susp 5).fail = true ∧ s.gst.unread < 64)
    ∧ ((msgOn 1 1 5 1 (.suspDone 3 1 64)).level ≠ 0 ∧ (msg 5 0 (.suspDone 3 1 64)).level = 0 ∧ (svc.susp 6).mine = false)
    ∧ (let s : State := { svc with col := { run.col with susp := [(5, { SuspG.zero with mine := true })] } }; s.canon ∧ (s.susp 5).mine = true) := by
  refine ⟨⟨?_, ?_⟩, ⟨?_, ?_⟩, ⟨?_, ?_⟩, ⟨?_, ?_⟩, ⟨?_, ?_⟩, ?_, ⟨?_, ?_⟩, ?_, ⟨?_, ?_⟩⟩ <;> (try unfold State.canon) <;> decide +kernel

/-- A record that passes every check of a reload: an empty group record with its CRC. -/
theorem wit_reload_record :
    let h := svc.suspHeader 5 0 0
    let x : SuspG := { SuspG.zero with st := .reloading, need := 1, next := 1, got := [(0, h)] }
    let s : State := { svc with col := { run.col with susp := [(5, x)] } }
    (s.susp 5).st = .reloading ∧ (s.susp 5).need ≤ (s.susp 5).next ∧ (s.susp 5).fail = false
      ∧ s.reloadFault 5 ((List.range (s.susp 5).need).flatMap (fun i => mget [] (s.susp 5).got i)) = none := by decide +kernel

/-! #### Stakes -/

/-- CRC-32C with every step evaluated before the next: Lean's kernel runs it over a whole flit. -/
def forced {α : Type} (b : BitVec 32) (f : BitVec 32 → α) : α := match b.toNat with | 0 => f 0 | k + 1 => f (BitVec.ofNat 32 (k + 1))

theorem forced_eq {α : Type} (b : BitVec 32) (f : BitVec 32 → α) : forced b f = f b := by
  unfold forced
  split <;> rename_i h
  · congr 1; exact BitVec.eq_of_toNat_eq h.symm
  · congr 1; apply BitVec.eq_of_toNat_eq; have := b.isLt; simp; omega

def crcSteps : List Byte → BitVec 32 → BitVec 32
  | [], c => c
  | b :: bs, c => forced (crc32Byte c b) (crcSteps bs)

theorem crc32c_eq_steps (bs : List Byte) : crc32c bs = crcSteps bs crc32Init ^^^ 0xFFFFFFFF := by
  have h : ∀ c, crcSteps bs c = crc32Run c bs := by
    induction bs with
    | nil => exact fun _ => rfl
    | cons b bs ih => intro c; rw [crcSteps, forced_eq, ih]; rfl
  rw [h]; rfl

theorem wit_FlitRoundTrip :
    let h : FlitHdr := ⟨15, 3, 4095, 4095, true, 65535, 31, 7, 31, false⟩
    h.ftype < 16 ∧ h.vc < 4 ∧ h.fseq < 4096 ∧ h.ack < 4096 ∧ h.dest < 65536 ∧ h.hop < 32 ∧ h.level < 8 ∧ h.srcf < 32 ∧ h.resv = false
      ∧ (List.replicate 244 (0xFF : Byte)).length ≤ 244 := by decide +kernel

/-- The last symbol, a check symbol, with the error 0xFF. -/
theorem wit_OneWrongSymbolIsCorrected : (List.replicate 64 (0x5A : Byte)).length = 64 ∧ 65 < 66 ∧ (0xFF : Byte) ≠ 0 := by decide +kernel

/-- Stake 0 in service: FSEQ 5 is expected on VC0. -/
def up0 : Stake := { Stake.zero with st := .inService, rxSeq := 5, lanes := 0xFF, rdy := 0xFF }

/-- The header of a DATA flit with FSEQ `q`, of an other flit of type `t`. -/
def dataHdr (q : Nat) : FlitHdr := ⟨1, 0, q, 0, false, 0, 0, 0, 0, false⟩
def ctlHdr (t : Nat) : FlitHdr := ⟨t, 0, 0, 4, true, 0, 0, 0, 0, false⟩

/-- The flit expected, one accepted before (the FSEQ just below), one out of order (the FSEQ just above), and one that is not good. -/
theorem wit_DataFlitAcceptance :
    ((withStake up0).canon ∧ (withStake up0).alive = true ∧ (withStake up0).stake 0 = up0 ∧ up0.st = .inService ∧ up0.closing = false
      ∧ up0.rxbuf = [])
    ∧ (let f := readFlit (padTo 264 (mkFlit (dataHdr 5) []))
       f.good = true ∧ f.hdr = dataHdr 5 ∧ BitVec.ofNat 12 f.hdr.fseq = up0.rxSeq ∧ up0.held.getD f.hdr.vc 0 < vcBuf f.hdr.vc
         ∧ f.hdr.dest = (withStake up0).own ∧ segsOf 31 f.body = some [] ∧ (up0.count f false).badRun.length < 64)
    ∧ (let f := readFlit (padTo 264 (mkFlit (dataHdr 4) []))
       f.good = true ∧ f.hdr = dataHdr 4 ∧ precedes 12 (BitVec.ofNat 12 f.hdr.fseq).toNat up0.rxSeq.toNat = true ∧ (up0.count f false).badRun.length < 64)
    ∧ (let f := readFlit (padTo 264 (mkFlit (dataHdr 6) []))
       f.good = true ∧ f.hdr = dataHdr 6 ∧ precedes 12 (BitVec.ofNat 12 f.hdr.fseq).toNat up0.rxSeq.toNat = false ∧ (up0.count f false).badRun.length < 64)
    ∧ (let f := readFlit (padTo 264 [1, 1, 1, 1, 2, 3, 4, 5, 6]); f.good = false ∧ (up0.count f false).badRun.length < 64) := by
  refine ⟨⟨?_, ?_⟩, ?_, ?_, ?_, ?_⟩ <;> (try unfold State.canon) <;> (try simp only [readFlit, mkFlit, crc32c_eq_steps]) <;> decide +kernel

/-- An IDLE flit, a LINK flit without NAK and a PROBE, each with an acknowledgement. -/
theorem wit_ControlFlitsTakeEffect :
    (withStake up0).canon
    ∧ (∀ t ∈ [0, 2, 3], let f := readFlit (padTo 264 (mkFlit (ctlHdr t) [2, 0, 7, 0]))
       f.good = true ∧ f.hdr = ctlHdr t ∧ (byteAt f.body 10).getLsbD 0 = false ∧ leAt f.body 0 2 = 2
         ∧ ((up0.count f true).acked (BitVec.ofNat 12 f.hdr.ack)).badRun.length < 64) := by
  refine ⟨?_, ?_⟩ <;> (try unfold State.canon) <;> (try simp only [readFlit, mkFlit, crc32c_eq_steps]) <;> decide +kernel

/-- A stake with a flit in its replay buffer, with 14 replays of it behind it (the next is the fifteenth). -/
def txf : TxFlit := ⟨7, 0, 1, 0, 1, 0, [], none⟩
theorem wit_StakeTimersAct :
    (∀ x ∈ [up0, { up0 with rbuf := [txf], replayF := some 7, replays := 14 }, { up0 with rbuf := [txf] }, { up0 with nak := true }],
      (withStake x).alive = true ∧ x = (withStake x).stake 0 ∧ x.st = .inService)
    ∧ (withStake up0).canon ∧ (withStake { up0 with rbuf := [txf], replayF := some 7, replays := 14 }).canon
    ∧ (if some (7 : BitVec 12) = some txf.fseq then 14 + 1 else 1) < 16 ∧ up0.rbuf = [] ∧ up0.nak = false := by
  refine ⟨?_, ?_, ?_, ?_⟩ <;> (try unfold State.canon) <;> decide +kernel

/-- Stake 0 in training, in step `n` of attempt `a`. -/
def train0 (n a : Nat) : Stake := { Stake.zero with st := .training, step := n, attempt := a, cand := 0xFF, rdy := 0xFF }
theorem wit_TrainingAdvances :
    (∀ x ∈ [train0 2 2, train0 5 3, train0 6 0, { train0 6 0 with sinceLk := 63 }, train0 7 0, { train0 2 0 with phyRst := true }],
      (withStake x).alive = true ∧ x = (withStake x).stake 0 ∧ x.st = .training)
    ∧ (withStake (train0 2 2)).canon ∧ (withStake (train0 5 3)).canon
    ∧ (63 ≤ ({ train0 6 0 with sinceLk := 63 } : Stake).sinceLk ∧ (train0 6 0).sinceLk < 63 ∧ (train0 6 0).idAck = false ∧ (train0 2 2).attempt < 3 ∧ 3 ≤ (train0 5 3).attempt ∧ (train0 2 2).phyRst = false
      ∧ (train0 5 3).cand.getLsbD 7 = true) := by
  refine ⟨?_, ?_, ?_, ?_⟩ <;> (try unfold State.canon) <;> decide +kernel

/-- Lanes that rise under a stake in step 1; lanes that fall or fail under a stake in service; RETRAIN of a stake in service and of one that is down. -/
theorem wit_PhyPinsAndRetrain :
    (let x : Stake := { Stake.zero with st := .training, step := 1, cand := 0xFF }
     (withStake x).alive = true ∧ x = (withStake x).stake (2 * 0) ∧ x.phyRst = false ∧ Stake.lanesReady { x with rdy := x.rdy ||| 1 } x.cand ≠ 0)
    ∧ ((withStake up0).canon ∧ up0.lanes &&& 0x80 ≠ 0 ∧ ((withStake up0).stake (2 * 0 + 1)).st = .idle ∧ (withStake up0).bondUp (2 * 0) = [2 * 0] ∧ up0.closing = false
      ∧ Stake.lanesReady { up0 with rdy := up0.rdy &&& ~~~0x80 } up0.lanes ≠ 0 ∧ Stake.lanesReady { up0 with flt := up0.flt ||| 0x80 } up0.lanes ≠ 0)
    ∧ ((withStake up0).inService = true ∧ svc.img.cfg.stkEn 0 = true ∧ svc.gst.unread < 64 ∧ (∀ m ∈ (withStake up0).bondUp 0, m = 0))
    ∧ ((withStake { up0 with st := .down }).stake 0).st = .down ∧ (0 : BitVec 64).getLsbD 0 = false
    ∧ (svc.stake (2 * 0)).st = .idle ∧ (svc.stake (2 * 0 + 1)).st = .idle := by
  refine ⟨?_, ⟨?_, ?_⟩, ?_, ?_, ?_, ?_⟩ <;> (try unfold State.canon) <;> decide +kernel

/-! #### Global time -/

/-- Die 0 in service below the time master, die 1, over stake 0. -/
def below (t : Time) (x : Stake) : State :=
  { svc with img := { svc.img with cfg := { cfg with tmDie := 1 } }, stakes := [(0, x)], time := t }

/-- Time in a state of synchronisation, with a SYNC received at 0 and the offset before. -/
def timeIn (st : SyncSt) (prev : Option Int) (rej : List Int) : Time :=
  { run.time with st := st, prevOff := prev, rejOffs := rej, syncRx := some ⟨1, 1, 0, true⟩ }

/-- 32 ns, a slew, and 33 ns, a step; offsets 8 ns apart agree. -/
theorem wit_TimeMessagesAct :
    ((below run.time up0).alive = true ∧ (below run.time up0).upstream = some 0 ∧ (below run.time up0).upstream ≠ some 1
      ∧ (up0.nak = false ∧ up0.shadow = false) ∧ (below run.time { up0 with shadow := true }).upstream = some 0)
    ∧ (let t := timeIn .locked none []
       (below t up0).upstream = some 0 ∧ t.syncRx = some ⟨1, 1, 0, true⟩ ∧ stampDiff ((32 : BitVec 64).toNat * 65536 + 0 + up0.hopdly.toNat * 4096) 0 = 32 * 65536
         ∧ t.st ≠ .free ∧ (32 * 65536 : Int).natAbs ≤ 32 * 65536)
    ∧ (let off : Int := 33 * 65536
       stampDiff ((33 : BitVec 64).toNat * 65536 + 0 + up0.hopdly.toNat * 4096) 0 = off ∧ 32 * 65536 < off.natAbs
         ∧ (timeIn .free (some (25 * 65536)) []).prevOff.any (fun p => agree8 p off) = true
         ∧ (timeIn .holdover (some (41 * 65536)) []).prevOff.any (fun p => agree8 p off) = true
         ∧ (timeIn .free none []).prevOff.any (fun p => agree8 p off) = false
         ∧ (timeIn .holdover (some (42 * 65536)) []).prevOff.any (fun p => agree8 p off) = false
         ∧ ((timeIn .locked none []).rejOffs.length < 2 ∧ (timeIn .locked none [off]).rejOffs.length < 2)
         ∧ (agree8 (33 * 65536) (37 * 65536) = true ∧ agree8 (37 * 65536) off = true ∧ agree8 (33 * 65536) off = true))
    ∧ (let t : Time := { timeIn .free (some (25 * 65536)) [] with stopped := true }; (below t up0).upstream = some 0 ∧ t.stopped = true) := by
  refine ⟨?_, ?_, ?_, ?_⟩ <;> decide +kernel

/-- The master at 8,192 ns and at 8,191 ns; a LOCKED die at 32,768 ns; GC_PERIOD at the ends of its range. -/
theorem wit_TimeEventsAct :
    (let s : State := { withStake up0 with time := { run.time with now := 8192 * 65536 } }
     s.canon ∧ s.alive = true ∧ s.sendsTime = true ∧ s.time.stopped = false ∧ s.reached (s.time.syncAt + 8192#64) = true
       ∧ s.upBond.contains 0 = false ∧ (s.stake 0).st = .inService)
    ∧ (let s : State := { withStake (train0 2 0) with time := { run.time with now := 8191 * 65536 } }
       s.reached (s.time.syncAt + 8192#64) = false ∧ s.upBond.contains 0 = false ∧ (s.stake 0).st = .training)
    ∧ (let s := below { run.time with st := .locked, now := 32768 * 65536, tmDie := 1 } up0
       s.canon ∧ s.time.st = .locked ∧ s.isMaster = false ∧ s.wl.dieId ≠ s.time.tmDie ∧ s.reached (s.time.lastUse + 32768#64) = true ∧ s.gst.unread < 64
         ∧ s.sendsTime = true ∧ s.upBond.contains 0 = true ∧ s.upBond.contains 1 = false)
    ∧ (run.img.st = .empty ∧ 0x40000 ≤ (0x40000 : Word).toNat ∧ (0x280000 : Word).toNat ≤ 0x280000) := by
  refine ⟨⟨?_, ?_⟩, ?_, ⟨?_, ?_⟩, ?_⟩ <;> (try unfold State.canon) <;> decide +kernel

/-! #### Tilth and power -/

/-- The monitor of stake 0 (1024) with tap set A at `x`. -/
def withMon (x : TapSet) : State := { run with tilth := { run.tilth with mons := [(1024, { Mon.zero with a := x })] } }

/-- Debug mode, with monitor 1024 selected. -/
def dbgMon : State := { run with dbg := { run.dbg with pin := true }, accept := 0x401, tilth := { run.tilth with monSel := 1024 } }

theorem wit_SamplesRaiseTaps :
    (let s := withMon { TapSet.zero with tap := 62 }
     s.canon ∧ s.alive = true ∧ s.monLive 1024 = true ∧ s.monLive 1036 = true ∧ s.isForced 1024 false = false ∧ ((s.mon 1024).set false).cur < 63
       ∧ ((s.mon 1024).set false).pend = none)
    ∧ ((-1 : Int) < 0 ∧ (0 : Int) ≤ 15 ∧ (15 : Int) < 16 ∧ (16 : Int) ≤ 16)
    ∧ (run.monLive 0 = false ∧ run.monLive 1023 = false ∧ run.monLive 1037 = false)
    ∧ ((withMon { TapSet.zero with pend := some 59 }).canon ∧ (((withMon { TapSet.zero with pend := some 59 }).mon 1024).set false).pend = some 59)
    ∧ (dbgMon.canon ∧ dbgMon.debug = true ∧ run.debug = false ∧ dbgMon.tilth.monSel.toNat = 1024 ∧ (0xFF : Word).getLsbD 1 = true)
    ∧ (let s : State := { run with time := { run.time with now := 0x100000 * 65536 } }
       s.canon ∧ s.time.stopped = false ∧ s.reached (s.tilth.calib + 0x100000#64) = true) := by
  refine ⟨⟨?_, ?_⟩, ?_, ?_, ⟨?_, ?_⟩, ⟨?_, ?_⟩, ⟨?_, ?_⟩⟩ <;> (try unfold State.canon) <;> decide +kernel

/-- A window over its samples: a minimum of 39 ps; of 121 ps in the sixteenth and in the fifteenth qualifying window; negative, which shows no SMIN. -/
theorem wit_WindowEndTempers :
    (run.canon ∧ run.alive = true ∧ run.windowOver 1024 = false)
    ∧ (let s := withMon { TapSet.zero with tap := 62, smin := some 39, cnt := 4096 }
       s.canon ∧ s.windowOver 1024 = true ∧ (s.mon 1024).sminShown = some 9 ∧ s.isForced 1024 false = false
         ∧ ((s.mon 1024).set false).smin = some 39 ∧ (39 : Int) < 40 ∧ ((s.mon 1024).set false).cur < 63 ∧ ((s.mon 1024).set false).run < 16)
    ∧ (∀ r ∈ [14, 15], let s := withMon { TapSet.zero with smin := some 121, cnt := 4096, run := r }
       s.alive = true ∧ s.windowOver 1024 = true ∧ ((s.mon 1024).set false).smin = some 121 ∧ (120 : Int) < 121
         ∧ 256 ≤ ((s.mon 1024).set false).cnt ∧ s.isForced 1024 false = false ∧ ((s.mon 1024).set false).cur ≠ 0 ∧ ((s.mon 1024).set false).run = r)
    ∧ (withMon { TapSet.zero with smin := some 121, cnt := 4096, run := 15 }).canon
    ∧ (let s := withMon { TapSet.zero with smin := some (-1), cnt := 4096 }; s.windowOver 1024 = true ∧ (s.mon 1024).sminShown = none)
    ∧ (let s : State := { withMon { TapSet.zero with smin := some 121, cnt := 255 } with time := { run.time with now := 0x100000 * 65536 } }
       s.canon ∧ s.windowOver 1024 = true ∧ (s.mon 1024).a.cnt < 256 ∧ (s.mon 1024).b.cnt < 256) := by
  refine ⟨⟨?_, ?_⟩, ⟨?_, ?_⟩, ?_, ?_, ?_, ⟨?_, ?_⟩⟩ <;> (try unfold State.canon) <;> decide +kernel

/-- Die 0 with a record of its own die in the window, all taps and τ stored as 0; an empty window is rejected. -/
def recorded : State := { run with tilth := { run.tilth with hist := [(0, 0x040E0001), (1, 0xFBF1FFFE), (527, 0x2DF54C54)] } }
theorem wit_HistoryRecordRoundTrip :
    (run.alive = true ∧ (1 : Word).getLsbD 0 = true ∧ (1 : Word).getLsbD 1 = false ∧ (2 : Word).getLsbD 0 = false ∧ (2 : Word).getLsbD 1 = true)
    ∧ (run.canon ∧ (let s : State := { run with tilth := { run.tilth with snapReq := true, snapRdy := true } }
       s.canon ∧ s.tilth.snapReq = true ∧ s.tilth.snapRdy = true) ∧ run.tilth.snapReq = false)
    ∧ (svc.img.st ≠ .empty ∧ svc.img.st ≠ .refused) ∧ (run.img.st = .empty ∧ run.histReason ≠ 0)
    ∧ (recorded.canon ∧ recorded.img.st = .empty ∧ recorded.histReason = 0) := by
  refine ⟨?_, ⟨?_, ?_, ?_⟩, ?_, ?_, ⟨?_, ?_⟩⟩ <;> (try unfold State.canon) <;>
    (try simp only [State.histReason, crc32c_eq_steps]) <;> decide +kernel

/-- An interval at 31 ns and at 32 ns; THROTTLE 1 is below THR_FLOOR 2 and 2 is not; SLEW 7 is below the 8 of reset while a collective is open. -/
theorem wit_GovernorPacesLoad :
    (svc.alive = true ∧ svc.time.stopped = false ∧ svc.reached (svc.pwr.start + 32#64) = false)
    ∧ (let s : State := { svc with time := { run.time with now := 31 * 65536 } }; s.reached (s.pwr.start + 32#64) = false)
    ∧ (let s : State := { svc with time := { run.time with now := 32 * 65536 } }; s.reached (s.pwr.start + 32#64) = true)
    ∧ ((1 : BitVec 4).toNat < svc.img.cfg.thrFloor ∧ svc.img.cfg.thrFloor ≤ (2 : BitVec 4).toNat)
    ∧ ({ svc with pwr := { svc.pwr with belowRun := true } } : State).pwr.belowRun = true
    ∧ svc.openEntries = 0 ∧ 0 < (withColl cOpen).openEntries ∧ (7 : Word).toNat % 128 < (withColl cOpen).pwr.slew.toNat := by decide +kernel

/-! #### Feeder and update port -/

theorem wit_ChannelControl :
    (∀ st ∈ [ChSt.disabled, .halted, .idle, .waitTrig, .active, .paused],
      (withChan { Chan.zero with st := st }).alive = true ∧ { Chan.zero with st := st } = (withChan { Chan.zero with st := st }).chan 0)
    ∧ (svc.canon ∧ (withChan { Chan.zero with st := .active }).canon ∧ (withChan { Chan.zero with st := .halted }).canon)
    ∧ (svc.inService = true ∧ run.inService = false ∧ (1 : Word).getLsbD 0 = true ∧ (1 : Word).getLsbD 1 = false ∧ (2 : Word).getLsbD 1 = true) := by
  refine ⟨?_, ⟨?_, ?_, ?_⟩, ?_⟩ <;> (try unfold State.canon) <;> decide +kernel

/-- The loader in CHECK; a fetch that is due; a feed's response on port 3 with tag 255; the same response to nothing. -/
theorem wit_MemoryRequestsAndResponses :
    (svc.canon ∧ svc.alive = true ∧ svc.nextMem 0 = none ∧ svc.nextMem 8 = some 3)
    ∧ (let s : State := { run with accept := 1, wl := { run.wl with ready := true }, img := { run.img with st := .check, len := 64 } }
       s.canon ∧ s.alive = true ∧ s.nextMem 1 = some 0 ∧ s.loaderBeat = some (.loadCheck 0))
    ∧ (let s := withChan { Chan.zero with st := .waitTrig, fetchA := some 0x40 }
       s.canon ∧ s.nextMem 1 = some 0 ∧ s.loaderBeat = none ∧ s.suspBeat = none ∧ s.fetchDue = some (0, 0x40))
    ∧ (let r : Req := ⟨3, 255, false, 0x80, .feed 0 0, [], 0⟩
       let s : State := { withChan { Chan.zero with st := .active } with fdw := { svc.fdw with reqs := [r] } }
       s.canon ∧ s.fdw.reqs.find? (fun r => decide (r.port = (3 : Fin 4).val) && decide (r.tag = (255 : BitVec 8).toNat)) = some r ∧ r.wr = false)
    ∧ (svc.fdw.reqs.find? (fun r => decide (r.port = (3 : Fin 4).val) && decide (r.tag = (255 : BitVec 8).toNat)) = none ∧ svc.gst.unread < 64) := by
  refine ⟨⟨?_, ?_⟩, ⟨?_, ?_⟩, ⟨?_, ?_⟩, ⟨?_, ?_⟩, ?_⟩ <;> (try unfold State.canon) <;> decide +kernel

/-- A descriptor with TKIND `k` and TCMP 5. -/
def descT (k : Nat) : List Word := [0, 0xFFFFFFFF, 0, 0, 0, 0, 0, BitVec.ofNat 32 (k * 4096), 0, 64, 0, 0, 5, 0, 0, 0]
def waitT (k now : Nat) : State :=
  { withChan { Chan.zero with st := .waitTrig, desc := descT k } with time := { run.time with now := BitVec.ofNat 80 (now * 65536) } }

/-- The counter at 4 and at 5; pending counts 254 and 255; a pulse with one behind it; records, seals and aborts. -/
theorem wit_EventsAndUpdateBeats :
    ((waitT 2 5).canon ∧ (waitT 2 5).alive = true ∧ dTkind ((waitT 2 5).chan 0).desc = 2 ∧ (waitT 2 5).reached (dTcmp ((waitT 2 5).chan 0).desc) = true
      ∧ ((waitT 2 5).chan 0).st = .waitTrig ∧ ((waitT 2 5).chan 0).desc ≠ [] ∧ ((waitT 2 5).chan 0).binds = [])
    ∧ ((waitT 2 4).reached (dTcmp ((waitT 2 4).chan 0).desc) = false ∧ dTkind ((waitT 4 0).chan 0).desc ≠ 2)
    ∧ ((svc.setEvtIn 3 ⟨255, 0⟩).canon ∧ 255 ≤ ((svc.setEvtIn 3 ⟨255, 0⟩).evtIn 3).pend ∧ ((svc.setEvtIn 3 ⟨254, 0⟩).evtIn 3).pend < 255
      ∧ svc.evtWaiter 3 = none)
    ∧ ((waitT 4 0).canon ∧ ((waitT 4 0).evtIn 0).pend = 0 ∧ (waitT 4 0).evtWaiter 0 = some 0 ∧ ((waitT 4 0).chan 0).binds = [])
    ∧ (let s : State := { svc with fdw := { svc.fdw with evtOut := [(16, ⟨true, [4]⟩)] } }; s.canon ∧ s.evtOut 16 = ⟨true, 4 :: []⟩)
    ∧ (svc.evtOut 0).high = false
    ∧ (svc.upd.fifo = [] ∧ ∀ k ∈ [0, 1, 2], let b : UBeat := ⟨[], true, true, k, 5, 0, false, false⟩
        let s : State := { svc with upd := { svc.upd with fifo := [b] } }
        s.alive = true ∧ s.upd.fifo = b :: [] ∧ b.eor = true ∧ b.kind = k) := by
  refine ⟨⟨?_, ?_⟩, ?_, ⟨?_, ?_⟩, ⟨?_, ?_⟩, ⟨?_, ?_⟩, ?_, ?_⟩ <;> (try unfold State.canon) <;> decide +kernel

/-! #### Set-up, image, debug, registers, reset -/

/-- A block with a fuse access in progress, and one with every slot of DIE_ID blank and none of LVL_CEIL. -/
def fusing (a : FuseAcc) : State := { run with wl := { run.wl with acc := some a } }
def blankIds : State := { run with wl := { run.wl with ready := true, log := [(3, ⟨0, true, false, false⟩)] } }

theorem wit_FuseAccessesRun :
    (∀ a ∈ [FuseAcc.mk .scan 6 0 false, ⟨.scan, 7, 0, false⟩, ⟨.program, 0, 9, false⟩, ⟨.readback, 3, 9, false⟩, ⟨.readback, 4, 9, true⟩],
      (fusing a).alive = true ∧ (fusing a).wl.acc = some a)
    ∧ run.wl.acc = none ∧ (run.img.st = .empty ∧ blankIds.wl.acc = none ∧ blankIds.wl.blankSlot 0 = some 3 ∧ blankIds.wl.blankSlot 1 = none)
    ∧ (0x20009 : Word).getLsbD 17 = true ∧ (0x9 : Word).getLsbD 17 = false ∧ (0x30004 : Word).getLsbD 16 = true ∧ (0x30004 : Word).toNat % 65536 ≤ 4
    ∧ 4 < (0x30005 : Word).toNat % 65536 ∧ svc.img.st ≠ .empty := by
  refine ⟨?_, ?_, ?_, ?_⟩ <;> decide +kernel

/-- The image loader in a state, with its length and the beats it has read. -/
def loading (st : ImgState) (len : BitVec 23) (b b2 : Map (List Byte)) : State :=
  { run with accept := 1, wl := { run.wl with ready := true }, img := { run.img with st := st, len := len, buf := b, buf2 := b2 } }

theorem wit_ImageLifeCycle :
    (∀ st ∈ [ImgState.empty, .check, .apply, .checked, .inService, .refused], (loading st 64 [] []).alive = true ∧ (loading st 64 [] []).wl.acc = none)
    ∧ ((1 : Word).getLsbD 0 = true ∧ (0 : Word).getLsbD 0 = false)
    ∧ (loading .check 0 [] []).preFault = some (3, (0xFF, 0))
    ∧ ((loading .check 64 [] []).preFault = none ∧ (loading .check 64 [] []).img.buf.length < (loading .check 64 [] []).imgBeats)
    ∧ (let s := loading .check 64 [(0, List.replicate 64 0)] []
       s.preFault = none ∧ s.imgBeats ≤ s.img.buf.length ∧ (s.checkImage (s.img.buf.flatMap (fun x => x.2))).isSome = true)
    ∧ (let s := loading .apply 64 [(0, List.replicate 64 0)] [(0, List.replicate 64 0)]
       s.imgBeats ≤ s.img.buf2.length ∧ lowest (changedFaults (s.img.buf.flatMap (fun x => x.2)) (s.img.buf2.flatMap (fun x => x.2))) = none)
    ∧ (let s := loading .checked 64 [] []; (0 : Word) ++ s.img.signLo = s.img.fileCrc ∧ (1 : Word) ++ s.img.signLo ≠ s.img.fileCrc) := by
  refine ⟨?_, ?_, ?_, ?_, ?_, ?_, ?_⟩ <;> decide +kernel

/-- Debug mode in service, with a WAIT of core port 0 on hoop 7, or without; the last hoop, 49,151. -/
def dbgSvc (v : BitVec 12) : State := { svc with accept := 0x401, dbg := { run.dbg with pin := true, forceVal := v } }
def dbgWait : State := { dbgSvc 1 with ports := [(0, { Port.zero with wait := some ⟨7, 0, 0⟩ })], hoops := [(7, { Hoop.zero with waiting := true })] }
theorem wit_DebugForces :
    (svc.canon ∧ svc.alive = true ∧ svc.debug = false)
    ∧ ((dbgSvc 1).canon ∧ (dbgSvc 1).debug = true ∧ (0x1BFFF : Word).toNat % 65536 = 49151 ∧ (dbgSvc 1).waitsOn 49151 = false
      ∧ (0x1BFFF : Word).toNat / 65536 % 4 = 1 ∧ (0x6BFFF : Word).toNat / 65536 % 4 = 2 ∧ (0x6BFFF : Word).getLsbD 18 = true
      ∧ (dbgSvc 1).dbg.forceVal ≠ 0 ∧ (dbgSvc 0).dbg.forceVal = 0 ∧ (dbgSvc 1).gst.unread < 64)
    ∧ (dbgWait.canon ∧ dbgWait.debug = true ∧ (0x30007 : Word).toNat / 65536 % 4 = 3 ∧ (0x30007 : Word).toNat % 65536 % 48 = 7
      ∧ (dbgWait.port ((0x30007 : Word).toNat % 65536 / 48)).wait = some ⟨7, 0, 0⟩) := by
  refine ⟨⟨?_, ?_⟩, ⟨?_, ?_⟩, ⟨?_, ?_⟩⟩ <;> (try unfold State.canon) <;> decide +kernel

/-- GST_LOG_RD at the end of the unread entries; a latched high word; a hoop whose TARGET passes its check, one that fails it, one in FAULT. -/
theorem wit_RegisterAccesses :
    (run.canon ∧ run.alive = true)
    ∧ (let s : State := { run with gst := { run.gst with logWr := 2 } }
       ((2 : Word).setWidth 7 - s.gst.logRd).toNat ≤ s.gst.unread ∧ ¬ ((3 : Word).setWidth 7 - s.gst.logRd).toNat ≤ s.gst.unread)
    ∧ (let s : State := { run with ct := { run.ct with latch := [(0x1001, some 7)] } }; s.canon ∧ mget none s.ct.latch 0x1001 = some 7)
    ∧ (let s : State := { run with gst := { run.gst with attn := 4, attnEn := 4 } }; s.gst.attn &&& s.gst.attnEn ≠ 0)
    ∧ (let s : State := { run with hoops := [(49151, { Hoop.zero with targetN := 0 }), (49150, { Hoop.zero with st := .fault, targetN := 0 })] }
       s.alive = true ∧ (s.hoop 0).ok = true ∧ (s.hoop 49150).st = .fault ∧ (s.hoop 49151).st ≠ .fault ∧ (s.hoop 49151).ok = false) := by
  refine ⟨⟨?_, ?_⟩, ?_, ⟨?_, ?_⟩, ?_, ?_⟩ <;> (try unfold State.canon) <;> decide +kernel

theorem wit_WrapperInstructions : svc.canon ∧ svc.alive = true ∧ svc.img.st = .inService ∧ (1 : BitVec 51).getLsbD 0 = true := by
  refine ⟨wit_SettleFrame, ?_⟩; decide +kernel

theorem wit_ResetAndSupply : svc.canon ∧ State.reset.canon ∧ (State.reset.powered = true ∧ State.reset.inReset = true) ∧ run.inReset = false := by
  refine ⟨?_, ?_, ?_⟩ <;> (try unfold State.canon) <;> decide +kernel

theorem wit_VersionReadsRelease : run.alive = true := by decide +kernel

/-- GC_PERIOD at both ends of its range and just outside them. -/
theorem wit_SettingsIgnoredOnceLoaded :
    (svc.alive = true ∧ svc.img.st ≠ .empty ∧ svc.img.st ≠ .refused) ∧ (run.alive = true ∧ run.img.st = .empty)
    ∧ ((2 : Word).getLsbD 0 = false ∧ (2 : Word).getLsbD 1 = true)
    ∧ (0x40000 ≤ (0x40000 : Word).toNat ∧ (0x280000 : Word).toNat ≤ 0x280000 ∧ (0x3FFFF : Word).toNat < 0x40000 ∧ 0x280000 < (0x280001 : Word).toNat) := by
  decide +kernel

end Sys2Proof.Tests
end

/-! SUPPORT. The control port of a running block (R373): a read or a write is one access, and an offset that no latched
group holds reads the register as it stands. -/

namespace Sys2Proof.Machine

theorem live_of_alive {s : State} (f : State → State) (h : s.alive = true) : live s f = .next (f s) := by
  unfold live
  rw [if_pos h]

theorem exec_latchedGroupRead_of_alive {s : State} (a : BitVec 18) (h : s.alive = true) :
    exec (.latchedGroupRead a) s = .next (s.readAccess a).settle :=
  live_of_alive (fun s => (s.readAccess a).settle) h

theorem exec_registerWrite_of_alive {s : State} (a : BitVec 18) (v : Word) (h : s.alive = true) :
    exec (.registerWrite a v) s = .next (s.writeAccess a v) :=
  live_of_alive (fun s => s.writeAccess a v) h

/-- R414: outside the hoop window and the latched groups a read changes nothing and returns the register's present value. -/
theorem State.ctRead_of_latchGroup_none (s : State) {o : Nat} (hw : o < 0x20000 ∨ 0x80000 ≤ o) (hg : latchGroup o = none) :
    s.ctRead o = (s, s.regNow o) := by
  unfold State.ctRead
  rw [if_neg (by omega), hg]

/-- R373: such a read is one access whose data and error flag are those of the register at its offset. -/
theorem State.readAccess_of_latchGroup_none (s : State) {a : BitVec 18} (hw : 4 * a.toNat < 0x20000 ∨ 0x80000 ≤ 4 * a.toNat)
    (hg : latchGroup (4 * a.toNat) = none) :
    s.readAccess a = s.ctDone ((s.regNow (4 * a.toNat)).getD 0) (s.regNow (4 * a.toNat)).isNone := by
  unfold State.readAccess
  rw [s.ctRead_of_latchGroup_none hw hg]

/-- R411: a write that its register ignores leaves only the acknowledgement, without CT_ERR where a register stands. -/
theorem State.writeAccess_of_ignored (s : State) {a : BitVec 18} {v w : Word} (hw : s.regWrite (4 * a.toNat) v = s)
    (hr : s.regNow (4 * a.toNat) = some w) : s.writeAccess a v = s.ctDone 0 false := by
  unfold State.writeAccess
  dsimp only
  rw [hw, hr, Option.isNone_some]

end Sys2Proof.Machine

/-! PROOFS. Scope (spec/00): VERSION reads release 2.1, and a write to it is ignored. -/

namespace Sys2Proof.Machine

/-- Table SU-4: VERSION is the register at offset 0. -/
theorem State.regNow_version (s : State) : s.regNow 0 = some Config.version := by
  unfold State.regNow State.readId
  rw [if_pos (by decide), if_pos rfl]

/-- R411: VERSION is read-only. -/
theorem State.regWrite_version (s : State) (v : Word) : s.regWrite 0 v = s := by
  unfold State.regWrite
  rw [if_pos (by decide), if_neg (by decide), if_neg (by decide)]

theorem State.readAccess_version (s : State) : s.readAccess 0#18 = s.ctDone Config.version false :=
  (s.readAccess_of_latchGroup_none (.inl (by decide)) (by decide)).trans
    (congrArg (fun r => s.ctDone (r.getD 0) r.isNone) s.regNow_version)

theorem State.writeAccess_version (s : State) (v : Word) : s.writeAccess 0#18 v = s.ctDone 0 false :=
  s.writeAccess_of_ignored (s.regWrite_version v) s.regNow_version

/-- R2: major release 2, minor release 1, correction level 0. -/
theorem version_fields :
    fld Config.version.toNat 31 16 = 2 ∧ fld Config.version.toNat 15 8 = 1 ∧ fld Config.version.toNat 7 0 = 0 := by
  decide

/-- Settles O59: no latched group holds offset 0, so the read returns the constant of the release, and the write is ignored. -/
theorem versionReadsRelease : Obligations.VersionReadsRelease := by
  unfold Obligations.VersionReadsRelease
  intro s hs
  obtain ⟨hmajor, hminor, hcorr⟩ := version_fields
  constructor
  · have hread : exec (.latchedGroupRead 0#18) s = .next (s.ctDone Config.version false).settle := by
      rw [exec_latchedGroupRead_of_alive _ hs, s.readAccess_version]
    exact ⟨s.ctDone Config.version false, hread, rfl, rfl, hmajor, hminor, hcorr, rfl⟩
  · intro v
    rw [exec_registerWrite_of_alive _ v hs, s.writeAccess_version v, State.ctDone]

end Sys2Proof.Machine

/-! SUPPORT. What follows a command of itself (log entry 26). -/

namespace Sys2Proof.Machine

/-- Settles O11: the frame of `State.settle_keeps`, read from a canonical state. -/
theorem settleFrame : Obligations.SettleFrame := by
  unfold Obligations.SettleFrame
  exact fun s hs => (s.settle_keeps hs).frame hs

end Sys2Proof.Machine

/-! SUPPORT. A context switch (R27, R290, Table HP-6): the clearing of the port's hoops, the end of its WAIT, and the reports
of its collectives that still wait for admission, which touch neither. -/

namespace Sys2Proof.Machine

/-- The hoops of one port, named by their index at the port, are cleared one after the other. -/
def State.clearHoopList (s : State) (cp : Nat) (l : List Nat) : State :=
  l.foldl (fun t h => t.setHoop (cp * 48 + h) (t.hoop (cp * 48 + h)).cleared) s

theorem State.clearHoops_eq (s : State) (cp : Nat) : s.clearHoops cp = (s.clearHoopList cp (List.range 48)).endWait cp 6 := rfl

variable {q : Nat → Bool} {s u : State}

theorem State.clearHoopList_keeps (h : Keeps q s u) (cp : Nat) (hq : q cp = true) (l : List Nat) (hl : ∀ i ∈ l, i < 48) :
    Keeps q s (u.clearHoopList cp l) := by
  induction l generalizing u with
  | nil => exact h
  | cons i l ih =>
    have hi : (cp * 48 + i) / 48 = cp := by have := hl i List.mem_cons_self; omega
    exact ih (h.setHoop _ _ (by rw [hi]; exact hq)) (fun j hj => hl j (List.mem_cons_of_mem i hj))

theorem State.clearHoopList_port (s : State) (cp : Nat) (l : List Nat) (i : Nat) : (s.clearHoopList cp l).port i = s.port i := by
  have h : Only [.hoops] s (s.clearHoopList cp l) := Only.foldl .refl _ _ (fun _ _ k => State.setHoop_only k _ _)
  unfold State.port
  rw [h.ports (by decide)]

/-- Each hoop of the list is cleared once, from what it held before. -/
theorem State.clearHoopList_hoop (hs : s.canon) (cp : Nat) (l : List Nat) (hl : l.Nodup) (h : Nat) :
    (s.clearHoopList cp l).hoop (cp * 48 + h) = if h ∈ l then (s.hoop (cp * 48 + h)).cleared else s.hoop (cp * 48 + h) := by
  induction l generalizing s with
  | nil => rfl
  | cons i l ih =>
    obtain ⟨hi, hl⟩ := List.nodup_cons.mp hl
    have hc : (s.setHoop (cp * 48 + i) (s.hoop (cp * 48 + i)).cleared).canon :=
      (Keeps.setHoop (q := fun _ => true) .refl _ _ rfl).canon hs
    refine (ih hc hl).trans ?_
    rw [s.setHoop_hoop_read hs]
    by_cases e : h = i
    · subst e
      simp [hi]
    · simp [e]

/-- The end of a WAIT: WAIT_GATE falls, WAKE rises where it had risen, and the status goes to the core. -/
def Port.endWait (p : Port) (cp code : Nat) (w : Waiting) : Port :=
  { p with
    wait := none, gate := false, wake := p.wake || p.gate
    stq := p.stq ++ [⟨BitVec.ofNat 4 code, 0, hoopArg cp w.hoop, false, p.gate⟩] }

theorem State.endWait_of_none {cp : Nat} (code : Nat) (h : (s.port cp).wait = none) : s.endWait cp code = s := by
  unfold State.endWait
  rw [h]

theorem State.canon.onPort (hs : s.canon) (cp : Nat) (f : Port → Port) : (s.onPort cp f).canon :=
  Canon.all { hs.fields with ports := mput_wf _ _ _ _ hs.fields.ports }

theorem State.onPort_port_same (hs : s.canon) (cp : Nat) (f : Port → Port) : (s.onPort cp f).port cp = f (s.port cp) := by
  rw [State.onPort_eq, s.setPort_port_read hs, if_pos rfl]

theorem State.endWait_port (hs : s.canon) {cp : Nat} (code : Nat) {w : Waiting} (h : (s.port cp).wait = some w) :
    (s.endWait cp code).port cp = (s.port cp).endWait cp code w := by
  unfold State.endWait State.status
  rw [h]
  dsimp only
  rw [State.onPort_port_same (hs.onPort _ _), State.onPort_port_same hs]
  rfl

/-- After the end of a WAIT none is pending, and the commands behind it still stand there. -/
theorem State.endWait_port_idle (hs : s.canon) (cp code : Nat) :
    ((s.endWait cp code).port cp).wait = none ∧ ((s.endWait cp code).port cp).cmdq = (s.port cp).cmdq := by
  cases h : (s.port cp).wait with
  | none => rw [State.endWait_of_none code h]; exact ⟨h, rfl⟩
  | some w => rw [State.endWait_port hs code h]; exact ⟨rfl, rfl⟩

/-- Reports to the decider leave the core ports and the hoops alone. -/
theorem State.reports_only (s : State) (l : List Coll) (code src unit : Nat) :
    Only [.gst, .colls, .stakes, .vc0] s (l.foldl (fun t c => t.report c.g c.k code src unit) s) :=
  Only.foldl .refl _ _ (fun _ _ k => State.report_only k _ _ _ _ _)

/-- The port's own part of a context switch: its commands discarded, its hoops cleared, its WAIT ended. -/
def State.ctxSwitchPort (s : State) (cp : Nat) : State := (s.onPort cp (fun p => { p with cmdq := [] })).clearHoops cp

theorem State.ctxSwitch_only_port (s : State) (cp : Nat) : Only [.gst, .colls, .stakes, .vc0] (s.ctxSwitchPort cp) (s.ctxSwitch cp) :=
  State.reports_only _ _ _ _ _

theorem State.ctxSwitch_port (s : State) (cp i : Nat) : (s.ctxSwitch cp).port i = (s.ctxSwitchPort cp).port i := by
  unfold State.port
  rw [(s.ctxSwitch_only_port cp).ports (by decide)]

theorem State.ctxSwitch_hoop (s : State) (cp i : Nat) : (s.ctxSwitch cp).hoop i = (s.ctxSwitchPort cp).hoop i := by
  unfold State.hoop
  rw [(s.ctxSwitch_only_port cp).hoops (by decide)]

theorem State.ctxSwitchPort_hoop (hs : s.canon) (cp : Nat) {h : Nat} (hh : h < 48) :
    (s.ctxSwitchPort cp).hoop (cp * 48 + h) = (s.hoop (cp * 48 + h)).cleared := by
  have hw (t : State) : (t.endWait cp 6).hoop (cp * 48 + h) = t.hoop (cp * 48 + h) := by
    unfold State.hoop
    rw [(State.endWait_only (w := [.ports]) (s := t) .refl cp 6).hoops (by decide)]
  unfold State.ctxSwitchPort
  rw [State.clearHoops_eq, hw, State.clearHoopList_hoop (hs.onPort _ _) cp _ List.nodup_range, if_pos (List.mem_range.mpr hh)]
  rfl

/-- What the port holds once its commands are discarded and its hoops cleared, before its WAIT ends. -/
theorem State.ctxSwitch_cleared_port (hs : s.canon) (cp : Nat) :
    (((s.onPort cp (fun p => { p with cmdq := [] })).clearHoopList cp (List.range 48)).port cp) = { s.port cp with cmdq := [] } := by
  rw [State.clearHoopList_port, State.onPort_port_same hs]

theorem State.ctxSwitch_keeps (h : Keeps q s u) (cp : Nat) (hq : q cp = true) : Keeps q s (u.ctxSwitch cp) := by
  have hp : Keeps q s (u.onPort cp (fun p => { p with cmdq := [] })) :=
    h.onPortIn cp _ hq (fun p => ⟨id, List.prefix_refl _, List.prefix_refl _, List.prefix_refl _⟩)
  have hc : Keeps q s (u.ctxSwitchPort cp) :=
    State.endWait_keeps (State.clearHoopList_keeps hp cp hq _ (fun _ hi => List.mem_range.mp hi)) _ _
  exact Keeps.foldl hc _ _ (fun _ _ k => State.report_keeps k _ _ _ _ _)

/-- Settles O18: the hoops and the port are those of `State.ctxSwitchPort`, whose WAIT ends with CLEARED. -/
theorem ctxSwitchClearsPort : Obligations.CtxSwitchClearsPort := by
  unfold Obligations.CtxSwitchClearsPort
  intro s cp hs ha
  have hc : ((s.onPort cp.val (fun p => { p with cmdq := [] })).clearHoopList cp.val (List.range 48)).canon :=
    (State.clearHoopList_keeps (q := fun _ => true) .refl cp.val rfl _ (fun _ hi => List.mem_range.mp hi)).canon (hs.onPort _ _)
  have hp := State.ctxSwitch_cleared_port hs cp.val
  obtain ⟨hwait, hcmdq⟩ := State.endWait_port_idle hc cp.val 6
  refine ⟨s.ctxSwitch cp.val, live_of_alive (fun s => s.ctxSwitch cp.val) ha, ?hoops, ?cmdq, ?wait, ?status,
    (State.ctxSwitch_keeps .refl _ (decide_eq_true rfl)).frame hs⟩
  case hoops =>
    intro h hh
    rw [State.ctxSwitch_hoop, State.ctxSwitchPort_hoop hs _ hh]
    rfl
  case cmdq =>
    rw [State.ctxSwitch_port]
    exact hcmdq.trans (congrArg Port.cmdq hp)
  case wait =>
    rw [State.ctxSwitch_port]
    exact hwait
  case status =>
    intro w hw
    have he := State.endWait_port hc 6 ((congrArg Port.wait hp).trans hw)
    rw [hp] at he
    rw [State.ctxSwitch_port]
    exact (congrArg Port.stq he) ▸ List.prefix_refl _

end Sys2Proof.Machine

/-! SUPPORT. Reports from a die below (R22, R356, Table EX-7): each edge of the tree counts once. -/

namespace Sys2Proof.Machine

variable {s : State} {m : Msg} {c : Coll}

/-- A change of a record that is there, and that keeps its name, puts the changed record in its place. -/
theorem State.onColl_eq_putColl {g : BitVec 12} {k : Word} (h : s.coll? g k = some c) (f : Coll → Coll) (hg : (f c).g = c.g)
    (hk : (f c).k = c.k) : s.onColl g k f = s.putColl (f c) := by
  obtain ⟨rfl, rfl⟩ := s.coll_name h
  unfold State.onColl
  rw [h]
  dsimp only
  rw [← hg, ← hk]

/-- The record with one more close-round, SENT or CHECKED report; one that has come before over its edge changes nothing. -/
def Coll.countClose (c : Coll) (m : Msg) (kind : BitVec 8) : Coll :=
  if kind = 1 then (if hasFrom m c.sentIn then c else { c with sentIn := c.sentIn ++ [(m.level, m.srcf, m.body)] })
  else if hasFrom m c.closeIn then c else { c with closeIn := c.closeIn ++ [(m.level, m.srcf, m.body)] }

theorem Coll.countClose_g (c : Coll) (m : Msg) (kind : BitVec 8) : (c.countClose m kind).g = c.g := by
  unfold Coll.countClose
  split <;> split <;> rfl

theorem Coll.countClose_k (c : Coll) (m : Msg) (kind : BitVec 8) : (c.countClose m kind).k = c.k := by
  unfold Coll.countClose
  split <;> split <;> rfl

/-- What CLOSE does to a collective that the die knows. -/
theorem State.onClose_eq {kind : BitVec 8} {nmem : Word} {fp dg : BitVec 64} {con silt osilt sent rcv : Word} {trap : Option Cand}
    (hb : m.body = .close kind nmem fp dg con silt osilt sent rcv trap) (hc : s.coll? m.group m.seq = some c) :
    s.onClose m =
      if c.decided.isSome ∨ c.st = .ended ∨ s.fromKid c m = false ∨ (isExch c.aw = decide (kind = 0)) then s
      else (s.putColl (c.countClose m kind)).push m.group m.seq := by
  have hput := State.onColl_eq_putColl hc (fun c => c.countClose m kind) (c.countClose_g m kind) (c.countClose_k m kind)
  rw [← hput]
  unfold State.onClose
  split
  · rename_i hb' hc'
    cases hb.symm.trans hb'
    cases hc.symm.trans hc'
    rfl
  · rename_i hno
    exact absurd hc (hno _ _ _ _ _ _ _ _ _ _ _ hb)

/-- What FPRINT does to a collective that the die knows. -/
theorem State.onFprint_eq {fp : BitVec 64} {n : Word} (hb : m.body = .fprint fp n) (hc : s.coll? m.group m.seq = some c) :
    s.onFprint m =
      if s.fromKid c m = false ∨ hasFrom m c.fpIn = true then s
      else (s.putColl { c with fpIn := c.fpIn ++ [(m.level, m.srcf, fp, n.toNat)] }).push m.group m.seq := by
  have hput := State.onColl_eq_putColl hc (fun c => { c with fpIn := c.fpIn ++ [(m.level, m.srcf, fp, n.toNat)] }) rfl rfl
  rw [← hput]
  unfold State.onFprint
  simp only [hc, hb]

theorem State.fromKid_takeMsg (s : State) (c : Coll) (m n : Msg) : (s.takeMsg n).fromKid c m = s.fromKid c m := by
  unfold State.fromKid
  rw [State.group_of (s.takeMsg_img n), State.kids_of (s.takeMsg_img n) (s.takeMsg_wl n)]

theorem exec_close_of_alive (m : Msg) (ha : s.alive = true) : exec (.close m) s = .next ((s.takeMsg m).onClose m).settle :=
  live_of_alive (fun s => ((s.takeMsg m).onClose m).settle) ha

theorem exec_fprint_of_alive (m : Msg) (ha : s.alive = true) : exec (.fprint m) s = .next ((s.takeMsg m).onFprint m).settle :=
  live_of_alive (fun s => ((s.takeMsg m).onFprint m).settle) ha

/-- Settles O27: a report is counted in its list, which `hasFrom` reads, under the conditions of `State.onClose` and
`State.onFprint`; the message itself leaves the queue first. -/
theorem reportsCountOnce : Obligations.ReportsCountOnce := by
  unfold Obligations.ReportsCountOnce
  intro s m c ha hc
  have hc' : (s.takeMsg m).coll? m.group m.seq = some c := hc
  refine ⟨fun kind nmem fp dg con silt osilt sent rcv trap hb => ⟨fun hno => ?_, fun hd hst hkid hkind => ?_⟩,
    fun fp n hb => ⟨fun hno => ?_, fun hkid hnew => ?_⟩⟩
  · rw [exec_close_of_alive m ha, State.onClose_eq hb hc', s.fromKid_takeMsg, if_pos hno]
    rfl
  · have hyes : ¬(c.decided.isSome = true ∨ c.st = .ended ∨ s.fromKid c m = false ∨ isExch c.aw = decide (kind = 0)) := by
      simpa [hd, hst, hkid] using hkind
    rw [exec_close_of_alive m ha, State.onClose_eq hb hc', s.fromKid_takeMsg, if_neg hyes]
    rfl
  · rw [exec_fprint_of_alive m ha, State.onFprint_eq hb hc', s.fromKid_takeMsg, if_pos hno]
    rfl
  · have hyes : ¬(s.fromKid c m = false ∨ hasFrom m c.fpIn = true) := by simp [hkid, hnew]
    rw [exec_fprint_of_alive m ha, State.onFprint_eq hb hc', s.fromKid_takeMsg, if_neg hyes]
    rfl

end Sys2Proof.Machine

/-! SUPPORT. LOST at a die that does not know its collective (R436): the message is taken, and nothing else runs. -/

namespace Sys2Proof.Machine

/-- LOST acts on its own: `State.settle` does not follow it. -/
theorem exec_lost_of_alive {s : State} (m : Msg) (ha : s.alive = true) : exec (.lost m) s = .next ((s.takeMsg m).onLost m) :=
  live_of_alive (fun s => (s.takeMsg m).onLost m) ha

theorem State.onLost_of_unknown {s : State} {m : Msg} (hc : s.coll? m.group m.seq = none) : s.onLost m = s := by
  unfold State.onLost State.applyLost
  rw [hc]
  split <;> rfl

/-- A running block without an image, whose core port 0 still holds a fused issue and no WAIT. -/
def lostWitness : State :=
  { State.reset with inReset := false, ports := [(0, { Port.zero with cmdq := [.issue [] []] })] }

/-- LOST of collective (0, 0). -/
def lostMsg : Msg := ⟨0, 0, 0, 0, 0, 0, .lost⟩

theorem lostWitness_canon : lostWitness.canon := by
  unfold State.canon
  decide +kernel

/-- The waiting issue is answered NOT_READY by what follows a command of itself. -/
theorem lostWitness_settle_cmdq : ((lostWitness.takeMsg lostMsg).settle.port 0).cmdq = [] := by decide +kernel

/-- Refutes O29: a LOST whose collective the die does not know leaves the issue that waits at core port 0 where it stands, while
`State.settle`, which the statement puts after it, answers that issue. -/
theorem not_terminalTokenReachesMembers : ¬ Obligations.TerminalTokenReachesMembers := by
  unfold Obligations.TerminalTokenReachesMembers
  intro h
  have hunknown : lostWitness.coll? lostMsg.group lostMsg.seq = none := rfl
  have hsettles := ((h lostWitness lostMsg lostWitness_canon rfl).2 hunknown).1 rfl
  have hstays : exec (.lost lostMsg) lostWitness = .next (lostWitness.takeMsg lostMsg) := by
    rw [exec_lost_of_alive lostMsg rfl, State.onLost_of_unknown (s := lostWitness.takeMsg lostMsg) hunknown]
  have heq : lostWitness.takeMsg lostMsg = (lostWitness.takeMsg lostMsg).settle :=
    Host.Outcome.next.inj (hstays.symm.trans hsettles)
  have hcmdq : ((lostWitness.takeMsg lostMsg).port 0).cmdq = [] := heq ▸ lostWitness_settle_cmdq
  exact absurd hcmdq (by decide)

end Sys2Proof.Machine

/-! SUPPORT. Residues mod 255 (R33, R50): the predictor's rotation is division by a power of two. -/

namespace Sys2Proof.Machine

theorem resid_lt (x : Int) : resid x < 255 := by
  unfold resid
  omega

theorem resid_add (x y : Int) : (resid x + resid y) % 255 = resid (x + y) := by
  unfold resid
  omega

theorem resid_sub (x y : Int) : (resid x + 255 - resid y) % 255 = resid (x - y) := by
  unfold resid
  omega

theorem resid_mul_natCast (x : Int) (n : Nat) : resid x * n % 255 = resid (x * n) := by
  have hcast (y : Int) : (resid y : Int) = y % 255 := Int.toNat_of_nonneg (Int.emod_nonneg y (by decide))
  refine Int.natCast_inj.mp ?_
  rw [Int.natCast_emod, Int.natCast_mul, hcast, hcast, show ((255 : Nat) : Int) = 255 from rfl, Int.mul_emod, Int.emod_emod,
    ← Int.mul_emod]

/-- 2^8 is 1 mod 255, and so are its powers. -/
theorem resid_mul_pow_256 (x : Int) (m : Nat) : resid (x * 256 ^ m) = resid x := by
  induction m with
  | zero => rw [Int.pow_zero, Int.mul_one]
  | succ m ih =>
    rw [Int.pow_succ, ← Int.mul_assoc, ← ih]
    unfold resid
    omega

/-- A rotation moves the low `j` bits above the others. -/
theorem rotr8_eq_add {v j : Nat} (hv : v < 256) (hj : j ≤ 8) : rotr8 v j = v % 2 ^ j * 2 ^ (8 - j) + v / 2 ^ j := by
  have hpow : 2 ^ j * 2 ^ (8 - j) = 256 := by rw [← Nat.pow_add, Nat.add_sub_cancel' hj]
  have hhigh : v / 2 ^ j < 2 ^ (8 - j) := Nat.div_lt_of_lt_mul (hpow ▸ hv)
  have hlow : v * 2 ^ (8 - j) % 256 = v % 2 ^ j * 2 ^ (8 - j) := by rw [← hpow, Nat.mul_mod_mul_right]
  have hdiv : v / 2 ^ j % 256 = v / 2 ^ j := Nat.mod_eq_of_lt (Nat.lt_of_le_of_lt (Nat.div_le_self _ _) hv)
  unfold rotr8
  rw [show (256 : Nat) = 2 ^ 8 from rfl, Nat.or_mod_two_pow, show (2 ^ 8 : Nat) = 256 from rfl, Nat.shiftRight_eq_div_pow,
    hdiv, Nat.shiftLeft_eq, hlow, ← Nat.shiftLeft_eq, Nat.or_comm, Nat.shiftLeft_add_eq_or_of_lt hhigh]

/-- A rotation of a byte that is not all ones is not all ones. -/
theorem rotr8_lt {v j : Nat} (hv : v < 255) (hj : j ≤ 8) : rotr8 v j < 255 := by
  have hcases : j = 0 ∨ j = 1 ∨ j = 2 ∨ j = 3 ∨ j = 4 ∨ j = 5 ∨ j = 6 ∨ j = 7 ∨ j = 8 := by omega
  rw [rotr8_eq_add (by omega) hj]
  rcases hcases with rfl | rfl | rfl | rfl | rfl | rfl | rfl | rfl | rfl <;> omega

/-- On a residue, a rotation right by `j` multiplies by 2^(8 − j), which is 2^(−j) mod 255. -/
theorem rotr8_eq_mul_mod {v j : Nat} (hv : v < 255) (hj : j ≤ 8) : rotr8 v j = v * 2 ^ (8 - j) % 255 := by
  have hpow : 2 ^ j * 2 ^ (8 - j) = 256 := by rw [← Nat.pow_add, Nat.add_sub_cancel' hj]
  have hsplit : v * 2 ^ (8 - j) = 256 * (v / 2 ^ j) + v % 2 ^ j * 2 ^ (8 - j) := by
    rw [← hpow, Nat.mul_right_comm, ← Nat.add_mul, Nat.div_add_mod]
  have hmul : v * 2 ^ (8 - j) = rotr8 v j + 255 * (v / 2 ^ j) := by
    rw [rotr8_eq_add (by omega) hj, hsplit]
    omega
  rw [hmul, Nat.add_mul_mod_self_left, Nat.mod_eq_of_lt (rotr8_lt hv hj)]

/-- R50: the predictor drops the low `s` bits from the residue and rotates it, and so has the residue of the floor quotient. -/
theorem predict_shift (x : Int) (s : Nat) :
    rotr8 ((resid x + 255 - resLow x s) % 255) (s % 8) = resid (x / 2 ^ s) := by
  have hs : s % 8 < 8 := Nat.mod_lt s (by decide)
  have hexp : s + (8 - s % 8) = 8 * (s / 8 + 1) := by omega
  have hquot : x - x % 2 ^ s = 2 ^ s * (x / 2 ^ s) := by
    have hdiv := Int.mul_ediv_add_emod x (2 ^ s)
    omega
  have hturn : 2 ^ s * (x / 2 ^ s) * ((2 ^ (8 - s % 8) : Nat) : Int) = x / 2 ^ s * 256 ^ (s / 8 + 1) := by
    rw [Int.natCast_pow, Int.mul_right_comm, Int.mul_comm, show ((2 : Nat) : Int) = 2 from rfl, ← Int.pow_add, hexp, Int.pow_mul]
    rfl
  unfold resLow
  rw [resid_sub, hquot, rotr8_eq_mul_mod (resid_lt _) (Nat.le_of_lt hs), resid_mul_natCast, hturn, resid_mul_pow_256]

end Sys2Proof.Machine

/-! PROOFS. The sum (R38 to R45, R50): the order of the ports, the range of the output, and the predicted residue. -/

namespace Sys2Proof.Machine

/-! ### The order of the ports (R38) -/

section
variable {ws vs : List Loam}

theorem sumClass_perm (h : ws.Perm vs) : sumClass ws = sumClass vs := by
  unfold sumClass
  simp only [h.any_eq]

theorem emax_perm (h : ws.Perm vs) : emax ws = emax vs := by
  induction h with
  | nil => rfl
  | cons w _ ih => simp only [emax, ih]
  | swap v w ws =>
    simp only [emax]
    cases emax ws with
    | none => cases v.nz <;> cases w.nz <;> simp [Nat.max_comm]
    | some e => cases v.nz <;> cases w.nz <;> simp [Nat.max_left_comm]
  | trans _ _ ih₁ ih₂ => exact ih₁.trans ih₂

theorem alignSum_perm (t : Nat) (h : ws.Perm vs) : alignSum t ws = alignSum t vs := by
  induction h with
  | nil => rfl
  | cons w _ ih => simp only [alignSum, ih]
  | swap v w ws => simp only [alignSum, Int.add_left_comm, Nat.add_left_comm]
  | trans _ _ ih₁ ih₂ => exact ih₁.trans ih₂

theorem combineSum_perm (h : ws.Perm vs) : combineSum ws = combineSum vs := by
  unfold combineSum
  simp only [sumClass_perm h, emax_perm h, alignSum_perm _ h]

theorem nanCreated_perm (h : ws.Perm vs) : nanCreated ws = nanCreated vs := by
  unfold nanCreated
  rw [h.any_eq, sumClass_perm h]

end

/-- Settles O31: class, target and aligned sum are each the same for a permutation of the words. -/
theorem combineSumIgnoresPortOrder : Obligations.CombineSumIgnoresPortOrder := by
  unfold Obligations.CombineSumIgnoresPortOrder
  exact fun _ _ h => ⟨combineSum_perm h, nanCreated_perm h⟩

/-- R52: the two trees of a sum agree on every list of words. -/
theorem dualSumOk_eq_true (ws : List Loam) : dualSumOk ws = true := by
  have h : ws.reverse.Perm ws := ws.reverse_perm
  unfold dualSumOk sumTree
  rw [sumClass_perm h, emax_perm h]
  cases emax ws <;> simp [alignSum_perm _ h]

/-! ### The range of the output (R40) -/

section
variable {ws : List Loam}

/-- A floor quotient by a positive divisor keeps a bound on the magnitude. -/
theorem ediv_bounds {x b p : Int} (hp : 0 < p) (hb : 0 ≤ b) (hl : -b ≤ x) (hh : x ≤ b) : -b ≤ x / p ∧ x / p ≤ b := by
  have hscale : b * 1 ≤ b * p := Int.mul_le_mul_of_nonneg_left hp hb
  refine ⟨(Int.le_ediv_iff_mul_le hp).mpr ?_, Int.ediv_le_of_le_mul hp (by omega)⟩
  rw [Int.neg_mul]
  omega

theorem aligned_bounds (t : Nat) (w : Loam) : -(2 ^ 95) ≤ (aligned t w).1 ∧ (aligned t w).1 ≤ 2 ^ 95 := by
  unfold aligned
  split
  · have hlow : -(2 ^ 95) ≤ w.s := w.sig.le_toInt
    have hhigh : w.s < 2 ^ 95 := w.sig.toInt_lt
    exact ediv_bounds (Int.pow_pos (by decide)) (by decide) hlow (Int.le_of_lt hhigh)
  · decide

theorem alignSum_bounds (t : Nat) (ws : List Loam) :
    -(2 ^ 95 * ws.length) ≤ (alignSum t ws).1 ∧ (alignSum t ws).1 ≤ 2 ^ 95 * ws.length := by
  induction ws with
  | nil => simp [alignSum]
  | cons w ws ih =>
    obtain ⟨hl, hh⟩ := aligned_bounds t w
    simp only [alignSum, List.length_cons]
    push_cast
    omega

theorem inRange_iff (x : Int) : inRange x = true ↔ -(2 ^ 95) ≤ x ∧ x ≤ 2 ^ 95 - 1 := by
  unfold inRange
  rw [Bool.and_eq_true, decide_eq_true_iff, decide_eq_true_iff]

/-- R40: where `n` further steps bring the sum in range, the search stops in range. -/
theorem renormSteps_inRange (acc : Int) (n t : Nat) (h : inRange (acc / 2 ^ (t + n)) = true) :
    inRange (acc / 2 ^ renormSteps acc n t) = true := by
  induction n generalizing t with
  | zero => exact h
  | succ n ih =>
    unfold renormSteps
    split
    · assumption
    · exact ih (t + 1) (by rwa [Nat.add_right_comm, Nat.add_assoc])

/-- R40: at most 32 inputs need no more steps than the search takes. -/
theorem renormSteps_alignSum_inRange (t : Nat) (hlen : ws.length ≤ 32) :
    inRange ((alignSum t ws).1 / 2 ^ renormSteps (alignSum t ws).1 8 0) = true := by
  obtain ⟨hl, hh⟩ := alignSum_bounds t ws
  refine renormSteps_inRange _ 8 0 ((inRange_iff _).mpr ?_)
  omega

/-! ### Residues (R33, R50, R51) -/

theorem mk'_cls (sig : Int) (exp : Nat) : (Loam.mk' sig exp).cls = .fin := by
  unfold Loam.mk'
  split <;> rfl

/-- A significand in range is held exactly. -/
theorem mk'_s {sig : Int} (exp : Nat) (h : inRange sig = true) : (Loam.mk' sig exp).s = sig := by
  obtain ⟨hl, hh⟩ := (inRange_iff sig).mp h
  unfold Loam.mk'
  split
  · rename_i hz
    exact hz ▸ rfl
  · exact BitVec.toInt_ofInt_eq_self (by decide) hl (by omega)

theorem mk'_resOk {sig : Int} (exp : Nat) (h : inRange sig = true) : (Loam.mk' sig exp).resOk = true := by
  unfold Loam.resOk
  rw [mk'_s exp h, mk'_cls]
  unfold Loam.mk'
  split
  · rename_i hz
    exact hz ▸ rfl
  · have hlt : resid sig < 256 := Nat.lt_trans (resid_lt sig) (by decide)
    simpa using hlt

theorem res_of_nz {w : Loam} (hnz : w.nz = true) (h : w.resOk = true) : w.res.toNat = resid w.s := by
  have hfin : w.cls = .fin := of_decide_eq_true (Bool.and_eq_true_iff.mp hnz).1
  simpa [Loam.resOk, hfin] using h

/-- R50: the predicted residue of the alignment is that of the exact sum. -/
theorem predictAlign_eq (t : Nat) (h : ∀ w ∈ ws, w.resOk = true) : predictAlign t ws = resid (alignSum t ws).1 := by
  induction ws with
  | nil => rfl
  | cons w ws ih =>
    obtain ⟨hw, hws⟩ := List.forall_mem_cons.mp h
    unfold predictAlign alignSum aligned
    rw [ih hws, ← resid_add]
    by_cases hnz : w.nz = true
    · rw [if_pos hnz, if_pos hnz, res_of_nz hnz hw, predict_shift]
    · rw [if_neg hnz, if_neg hnz]
      rfl

theorem combineSum_of_special (h : sumClass ws ≠ .fin) : combineSum ws = (Loam.special (sumClass ws), 0) := if_pos h

theorem combineSum_of_zeros (h : sumClass ws = .fin) (he : emax ws = none) : combineSum ws = (Loam.zero, 0) := by
  simp [combineSum, h, he]

theorem combineSum_of_target {t : Nat} (h : sumClass ws = .fin) (he : emax ws = some t) :
    (combineSum ws).1 = Loam.mk' ((alignSum t ws).1 / 2 ^ renormSteps (alignSum t ws).1 8 0)
      (t + renormSteps (alignSum t ws).1 8 0) := by
  simp [combineSum, h, he]

/-- R51: the output of a sum of at most 32 words passes the check of the next point. -/
theorem combineSum_resOk (hlen : ws.length ≤ 32) : (combineSum ws).1.resOk = true := by
  by_cases hc : sumClass ws = .fin
  · cases he : emax ws with
    | none => rw [combineSum_of_zeros hc he]; rfl
    | some t => rw [combineSum_of_target hc he]; exact mk'_resOk _ (renormSteps_alignSum_inRange t hlen)
  · rw [combineSum_of_special hc]
    exact Bool.or_eq_true_iff.mpr (.inl (decide_eq_true hc))

/-- R50: the predicted residue of a finite sum of words that pass R51 is that of the output. -/
theorem predictSum_eq (hlen : ws.length ≤ 32) (h : ∀ w ∈ ws, w.resOk = true) (hc : sumClass ws = .fin) :
    predictSum ws = resid (combineSum ws).1.s := by
  unfold predictSum
  cases he : emax ws with
  | none => rw [combineSum_of_zeros hc he]; rfl
  | some t =>
    rw [combineSum_of_target hc he, mk'_s _ (renormSteps_alignSum_inRange t hlen)]
    dsimp only
    rw [predictAlign_eq t h, predict_shift]

end

end Sys2Proof.Machine

/-! SUPPORT. MAX, MIN and MAXIDX (R46, R47): a comparison is one of ranks in a strict order, and two trees that take the ports
in opposite orders find the same winner. -/

namespace Sys2Proof.Machine

/-! ### Values (R46) -/

/-- Below, among and above the finite values. -/
def Loam.level (w : Loam) : Int :=
  match w.cls with
  | .posInf => 1
  | .negInf => -1
  | _ => 0

/-- The value of a word in units of 2^(−2117) (R30), within its level. -/
def Loam.scaled (w : Loam) : Int :=
  match w.cls with
  | .posInf => 0
  | .negInf => 0
  | _ => w.s * 2 ^ w.exp.toNat

theorem sign_mul_two_pow (x : Int) (n : Nat) : (x * 2 ^ n).sign = x.sign := by
  rw [Int.sign_mul, Int.sign_eq_one_of_pos (Int.pow_pos (by decide)), Int.mul_one]

theorem cmpFin_eq_sign (a b : Loam) : cmpFin a b = (a.s * 2 ^ a.exp.toNat - b.s * 2 ^ b.exp.toNat).sign := by
  unfold cmpFin
  split
  · rename_i ha
    rw [ha, Int.zero_mul, Int.zero_sub, ← Int.neg_mul, sign_mul_two_pow]
  · split
    · rename_i hb
      rw [hb, Int.zero_mul, Int.sub_zero, sign_mul_two_pow]
    · have hscale (e : Nat) (x : Int) (he : min a.exp.toNat b.exp.toNat ≤ e) :
          x * 2 ^ e = x * 2 ^ (e - min a.exp.toNat b.exp.toNat) * 2 ^ min a.exp.toNat b.exp.toNat := by
        rw [Int.mul_assoc, ← Int.pow_add, Nat.sub_add_cancel he]
      dsimp only
      rw [hscale _ a.s (Nat.min_le_left _ _), hscale _ b.s (Nat.min_le_right _ _), ← Int.sub_mul, sign_mul_two_pow]

/-- A comparison is by level, and by value within a level. -/
theorem cmpLoam_eq_sign (a b : Loam) :
    cmpLoam a b = if a.level = b.level then (a.scaled - b.scaled).sign else (a.level - b.level).sign := by
  unfold cmpLoam Loam.level Loam.scaled
  rw [cmpFin_eq_sign]
  cases a.cls <;> cases b.cls <;> rfl

theorem cmpLoam_neg_iff (a b : Loam) :
    cmpLoam a b < 0 ↔ a.level < b.level ∨ a.level = b.level ∧ a.scaled < b.scaled := by
  rw [cmpLoam_eq_sign]
  split <;> rw [Int.sign_neg_iff] <;> omega

theorem cmpLoam_pos_iff (a b : Loam) :
    0 < cmpLoam a b ↔ b.level < a.level ∨ a.level = b.level ∧ b.scaled < a.scaled := by
  rw [cmpLoam_eq_sign]
  split <;> rw [Int.sign_pos_iff] <;> omega

/-! ### Ranks -/

/-- What an operation ranks by: MIN by the opposite of the value, MAXIDX by the value and then the lower index, and MAX by the
value (R46, R47). -/
def cmpRank (op : Nat) (x : Loam × Word) : Int × Int × Int :=
  if op = 3 then (-x.1.level, -x.1.scaled, 0)
  else if op = 4 then (x.1.level, x.1.scaled, -x.2.toNat)
  else (x.1.level, x.1.scaled, 0)

/-- The lexicographic order of ranks. -/
def RankLt (p q : Int × Int × Int) : Prop := p.1 < q.1 ∨ p.1 = q.1 ∧ (p.2.1 < q.2.1 ∨ p.2.1 = q.2.1 ∧ p.2.2 < q.2.2)

theorem RankLt.trans {p q r : Int × Int × Int} (hpq : RankLt p q) (hqr : RankLt q r) : RankLt p r := by
  unfold RankLt at *
  omega

/-- What lies between cannot be at most the lower and at least the higher. -/
theorem RankLt.lt_or_lt {p r : Int × Int × Int} (hpr : RankLt p r) (q : Int × Int × Int) : RankLt p q ∨ RankLt q r := by
  unfold RankLt at *
  omega

theorem beats_iff (op : Nat) (a b : Loam × Word) : beats op a b = true ↔ RankLt (cmpRank op a) (cmpRank op b) := by
  have hneg := cmpLoam_neg_iff b.1 a.1
  have hpos := cmpLoam_pos_iff b.1 a.1
  unfold beats cmpRank RankLt
  split
  · rw [decide_eq_true_iff]
    dsimp only
    omega
  · split
    · rw [Bool.or_eq_true_iff, Bool.and_eq_true_iff, decide_eq_true_iff, decide_eq_true_iff, decide_eq_true_iff]
      dsimp only
      omega
    · rw [decide_eq_true_iff]
      dsimp only
      omega

/-- The second tree replaces unless the word it has beats the new one. -/
theorem beatsRev_iff (op : Nat) (a b : Loam × Word) : beatsRev op a b = true ↔ ¬RankLt (cmpRank op b) (cmpRank op a) := by
  have hneg := cmpLoam_neg_iff b.1 a.1
  have hpos := cmpLoam_pos_iff b.1 a.1
  unfold beatsRev cmpRank RankLt
  split
  · rw [decide_eq_true_iff]
    dsimp only
    omega
  · split
    · rw [Bool.or_eq_true_iff, Bool.and_eq_true_iff, decide_eq_true_iff, decide_eq_true_iff, decide_eq_true_iff]
      dsimp only
      omega
    · rw [decide_eq_true_iff]
      dsimp only
      omega

/-! ### The winner -/

/-- The winner of two words, of which `a` is from the lower port. -/
def winner2 (op : Nat) (a b : Loam × Word) : Loam × Word := if beats op a b then b else a

theorem winner2_rev (op : Nat) (a b : Loam × Word) : (if beatsRev op a b then b else a) = winner2 op b a := by
  have hrev := beatsRev_iff op a b
  unfold winner2
  by_cases hlt : RankLt (cmpRank op b) (cmpRank op a)
  · rw [if_pos ((beats_iff op b a).mpr hlt), if_neg (fun h => hrev.mp h hlt)]
  · rw [if_neg (fun h => hlt ((beats_iff op b a).mp h)), if_pos (hrev.mpr hlt)]

/-- The first word of the highest rank does not depend on where the list is cut. -/
theorem winner2_assoc (op : Nat) (a b c : Loam × Word) : winner2 op (winner2 op a b) c = winner2 op a (winner2 op b c) := by
  have htrans : beats op a b = true → beats op b c = true → beats op a c = true := by
    simp only [beats_iff]
    exact RankLt.trans
  have hbetween : beats op a c = true → beats op a b = true ∨ beats op b c = true := by
    simp only [beats_iff]
    exact fun h => h.lt_or_lt _
  unfold winner2
  cases hab : beats op a b <;> cases hbc : beats op b c
  case true.true => simp only [hbc, htrans hab hbc, if_true]
  case true.false => simp only [hab, hbc, Bool.false_eq_true, if_true, if_false]
  case false.true => simp only [Bool.false_eq_true, if_true, if_false]
  case false.false =>
    have hac : ¬beats op a c = true := fun h => by
      obtain h' | h' := hbetween h
      · exact Bool.false_ne_true (hab.symm.trans h')
      · exact Bool.false_ne_true (hbc.symm.trans h')
    simp only [hab, if_neg hac, Bool.false_eq_true, if_false]

theorem winner_beats_cons (op : Nat) (a b : Loam × Word) (xs : List (Loam × Word)) :
    winner (beats op) a (b :: xs) = winner (beats op) (winner2 op a b) xs := rfl

theorem winner_winner2 (op : Nat) (a b : Loam × Word) (xs : List (Loam × Word)) :
    winner (beats op) (winner2 op a b) xs = winner2 op a (winner (beats op) b xs) := by
  induction xs generalizing b with
  | nil => rfl
  | cons c xs ih => rw [winner_beats_cons, winner_beats_cons, winner2_assoc, ih]

section
variable (better : Loam × Word → Loam × Word → Bool)

theorem winner_append (x y : Loam × Word) (xs : List (Loam × Word)) :
    winner better x (xs ++ [y]) = if better (winner better x xs) y then y else winner better x xs := by
  induction xs generalizing x with
  | nil => rfl
  | cons z xs ih => exact ih _

theorem winner_mem (x : Loam × Word) (xs : List (Loam × Word)) : winner better x xs ∈ x :: xs := by
  induction xs generalizing x with
  | nil => exact List.mem_singleton_self x
  | cons y xs ih =>
    obtain hhead | htail := List.mem_cons.mp (ih (if better x y then y else x))
    · rw [winner, hhead]
      split
      · exact List.mem_cons_of_mem x List.mem_cons_self
      · exact List.mem_cons_self
    · exact List.mem_cons_of_mem x (List.mem_cons_of_mem y htail)

end

/-- The winner from the last port to the first is the winner from the first to the last. -/
theorem winner_reverse (op : Nat) {x y : Loam × Word} {xs ys : List (Loam × Word)} (h : (x :: xs).reverse = y :: ys) :
    winner (beatsRev op) y ys = winner (beats op) x xs := by
  induction xs generalizing x y ys with
  | nil =>
    cases h
    rfl
  | cons z zs ih =>
    cases hz : (z :: zs).reverse with
    | nil => exact absurd (List.reverse_eq_nil_iff.mp hz) (List.cons_ne_nil z zs)
    | cons u us =>
      rw [List.reverse_cons, hz, List.cons_append] at h
      obtain ⟨rfl, rfl⟩ := List.cons.inj h
      rw [winner_append, winner2_rev, ih hz, winner_beats_cons, winner_winner2]

/-! ### The dual trees of a compare (R52) -/

theorem nanIdx_cons_toNat (x : Loam × Word) (xs : List (Loam × Word)) :
    (nanIdx (x :: xs)).toNat = if x.1.cls = .nan then min x.2.toNat (nanIdx xs).toNat else (nanIdx xs).toNat := by
  rw [nanIdx]
  by_cases hx : x.1.cls = .nan <;> simp only [hx, true_and, false_and, if_true, if_false]
  split <;> omega

theorem nanIdx_perm {ws vs : List (Loam × Word)} (h : ws.Perm vs) : nanIdx ws = nanIdx vs := by
  induction h with
  | nil => rfl
  | cons x _ ih => simp only [nanIdx, ih]
  | swap x y ws =>
    apply BitVec.eq_of_toNat_eq
    simp only [nanIdx_cons_toNat]
    by_cases hx : x.1.cls = .nan
    · by_cases hy : y.1.cls = .nan
      · simp only [if_pos hx, if_pos hy]
        exact Nat.min_left_comm _ _ _
      · simp only [if_pos hx, if_neg hy]
    · simp only [if_neg hx]
  | trans _ _ ih₁ ih₂ => exact ih₁.trans ih₂

theorem combineCmpRev_reverse (op : Nat) (ws : List (Loam × Word)) : combineCmpRev op ws.reverse = combineCmp op ws := by
  cases ws with
  | nil => rfl
  | cons x xs =>
    cases hr : (x :: xs).reverse with
    | nil => exact absurd (List.reverse_eq_nil_iff.mp hr) (List.cons_ne_nil x xs)
    | cons y ys =>
      have hperm : (y :: ys).Perm (x :: xs) := hr ▸ (x :: xs).reverse_perm
      simp only [combineCmpRev, combineCmp]
      rw [hperm.any_eq, nanIdx_perm hperm, winner_reverse op hr]

/-- R52: the two trees of a compare agree on every list of words. -/
theorem dualCmpOk_eq_true (op : Nat) (ws : List (Loam × Word)) : dualCmpOk op ws = true :=
  decide_eq_true (combineCmpRev_reverse op ws).symm

end Sys2Proof.Machine

/-! PROOFS. One lane at a combining point (R38, R48, R50 to R52): no false alarm. -/

namespace Sys2Proof.Machine

/-! ### OR and AND (R48) -/

/-- The operation of OR (5) and AND (6) on two payloads. -/
def rawJoin (op : Nat) (a b : Word) : Word := if op = 5 then a ||| b else a &&& b

/-- The payload that leaves any other as it is under `rawJoin`. -/
def rawUnit (op : Nat) : Word := if op = 5 then 0#32 else BitVec.allOnes 32

theorem rawJoin_unit (op : Nat) (a : Word) : rawJoin op a (rawUnit op) = a := by
  unfold rawJoin rawUnit
  split
  · exact BitVec.or_zero
  · exact BitVec.and_allOnes

theorem rawJoin_left_comm (op : Nat) (a b c : Word) : rawJoin op a (rawJoin op b c) = rawJoin op b (rawJoin op a c) := by
  unfold rawJoin
  split
  · rw [← BitVec.or_assoc, BitVec.or_comm a, BitVec.or_assoc]
  · rw [← BitVec.and_assoc, BitVec.and_comm a, BitVec.and_assoc]

theorem combineRaw_eq_foldr (op : Nat) (x : Word) (xs : List Word) :
    combineRaw op (x :: xs) = (x :: xs).foldr (rawJoin op) (rawUnit op) := by
  induction xs generalizing x with
  | nil => exact (rawJoin_unit op x).symm
  | cons y ys ih => exact congrArg (rawJoin op x) (ih y)

theorem combineRaw_perm (op : Nat) {ps qs : List Word} (h : ps.Perm qs) : combineRaw op ps = combineRaw op qs := by
  cases ps with
  | nil => rw [h.nil_eq]
  | cons x xs =>
    cases qs with
    | nil => exact absurd h.eq_nil (List.cons_ne_nil x xs)
    | cons y ys =>
      rw [combineRaw_eq_foldr, combineRaw_eq_foldr]
      exact h.foldr_eq' (fun a _ b _ c => rawJoin_left_comm op b a c) (rawUnit op)

/-! ### The words of a compare (R46, R51) -/

/-- The output of a compare is a NaN, the canonical zero of no input, or one of the inputs. -/
theorem combineCmp_resOk (op : Nat) {ws : List (Loam × Word)} (h : ∀ x ∈ ws, x.1.resOk = true) :
    (combineCmp op ws).1.resOk = true := by
  cases ws with
  | nil => rfl
  | cons x xs =>
    rw [combineCmp]
    split
    · rfl
    · exact h _ (winner_mem (beats op) x xs)

/-! ### One lane -/

/-- The present words of a lane, with their indices. -/
def presentWords (ins : List (Lane × Word)) : List (Loam × Word) :=
  ins.filterMap (fun x => x.1.loam?.map (fun w => (w, x.2)))

theorem presentWords_length_le (ins : List (Lane × Word)) : (presentWords ins).length ≤ ins.length :=
  List.length_filterMap_le _ _

theorem presentWords_resOk {ins : List (Lane × Word)} (h : ∀ x ∈ ins, ∀ w, x.1 = .word w → w.resOk = true) :
    ∀ x ∈ presentWords ins, x.1.resOk = true := by
  intro x hx
  obtain ⟨⟨l, i⟩, hmem, hword⟩ := List.mem_filterMap.mp hx
  cases l with
  | word w =>
    cases hword
    exact h _ hmem w rfl
  | absent => cases hword
  | raw p => cases hword

/-- A lane that raises no error of the point itself, and whose word passes R51. -/
def LaneOut.NoAlarm (o : LaneOut) : Prop :=
  (o.resOk = true ∧ o.dualOk = true) ∧ ∀ w, o.out = .word w → w.resOk = true

theorem combineLane_raw_noAlarm {op : Nat} (ins : List (Lane × Word)) (hop : op = 5 ∨ op = 6) : (combineLane op ins).NoAlarm := by
  rw [combineLane, if_pos hop]
  dsimp only
  split
  · exact ⟨⟨rfl, rfl⟩, fun w hw => by cases hw⟩
  · exact ⟨⟨rfl, decide_eq_true (combineRaw_perm op (List.reverse_perm _).symm)⟩, fun w hw => by cases hw⟩

section
variable {op : Nat} {ins : List (Lane × Word)}

/-- The words that a sum takes are those of the present inputs, in port order. -/
def sumWords (ins : List (Lane × Word)) : List Loam := (presentWords ins).map (fun x => x.1)

theorem combineLane_of_absent (hraw : ¬(op = 5 ∨ op = 6)) (hnil : presentWords ins = []) :
    combineLane op ins = ⟨.absent, 0xFFFFFFFF#32, 0, false, true, true⟩ :=
  (if_neg hraw).trans (if_pos hnil)

theorem combineLane_of_sum (hop : op = 0 ∨ op = 1) (hne : presentWords ins ≠ []) :
    combineLane op ins = ⟨.word (combineSum (sumWords ins)).1, 0xFFFFFFFF#32, (combineSum (sumWords ins)).2, nanCreated (sumWords ins),
      (sumWords ins).all Loam.resOk && (decide ((combineSum (sumWords ins)).1.cls ≠ .fin)
        || decide (predictSum (sumWords ins) = resid (combineSum (sumWords ins)).1.s)), dualSumOk (sumWords ins)⟩ :=
  (if_neg (by omega)).trans ((if_neg hne).trans (if_pos hop))

theorem combineLane_of_cmp (hraw : ¬(op = 5 ∨ op = 6)) (hsum : ¬(op = 0 ∨ op = 1)) (hne : presentWords ins ≠ []) :
    combineLane op ins = ⟨.word (combineCmp op (presentWords ins)).1, (combineCmp op (presentWords ins)).2, 0, false,
      (sumWords ins).all Loam.resOk && (combineCmp op (presentWords ins)).1.resOk, dualCmpOk op (presentWords ins)⟩ :=
  (if_neg hraw).trans ((if_neg hne).trans (if_neg hsum))

variable (h : ∀ x ∈ ins, ∀ w, x.1 = .word w → w.resOk = true)
include h

theorem sumWords_resOk : ∀ w ∈ sumWords ins, w.resOk = true := by
  intro w hw
  obtain ⟨x, hx, rfl⟩ := List.mem_map.mp hw
  exact presentWords_resOk h x hx

theorem combineLane_sum_noAlarm (hop : op = 0 ∨ op = 1) (hlen : ins.length ≤ 32) (hne : presentWords ins ≠ []) :
    (combineLane op ins).NoAlarm := by
  have hlen' : (sumWords ins).length ≤ 32 := by
    rw [sumWords, List.length_map]
    exact Nat.le_trans (presentWords_length_le ins) hlen
  have harr := sumWords_resOk h
  rw [combineLane_of_sum hop hne]
  refine ⟨⟨Bool.and_eq_true_iff.mpr ⟨List.all_eq_true.mpr harr, ?_⟩, dualSumOk_eq_true _⟩, ?_⟩
  · by_cases hc : sumClass (sumWords ins) = .fin
    · rw [decide_eq_true (predictSum_eq hlen' harr hc), Bool.or_true]
    · rw [combineSum_of_special hc]
      exact Bool.or_eq_true_iff.mpr (.inl (decide_eq_true hc))
  · rintro w ⟨rfl⟩
    exact combineSum_resOk hlen'

theorem combineLane_cmp_noAlarm (hraw : ¬(op = 5 ∨ op = 6)) (hsum : ¬(op = 0 ∨ op = 1)) (hne : presentWords ins ≠ []) :
    (combineLane op ins).NoAlarm := by
  have hout : (combineCmp op (presentWords ins)).1.resOk = true := combineCmp_resOk op (presentWords_resOk h)
  rw [combineLane_of_cmp hraw hsum hne]
  refine ⟨⟨Bool.and_eq_true_iff.mpr ⟨List.all_eq_true.mpr (sumWords_resOk h), hout⟩, dualCmpOk_eq_true op _⟩, ?_⟩
  rintro w ⟨rfl⟩
  exact hout

/-- R50 to R52: on at most 32 words that pass R51, whatever the operation. -/
theorem combineLane_noAlarm (op : Nat) (hlen : ins.length ≤ 32) : (combineLane op ins).NoAlarm := by
  by_cases hraw : op = 5 ∨ op = 6
  · exact combineLane_raw_noAlarm ins hraw
  · by_cases hnil : presentWords ins = []
    · rw [combineLane_of_absent hraw hnil]
      exact ⟨⟨rfl, rfl⟩, fun w hw => by cases hw⟩
    · by_cases hsum : op = 0 ∨ op = 1
      · exact combineLane_sum_noAlarm h hsum hlen hnil
      · exact combineLane_cmp_noAlarm h hraw hsum hnil

end

/-- Settles O32, by the kind of the operation: the trees of OR and AND and of a sum do not see the port order, those of a compare
both find the first word of the highest rank; the predictor has the residue of each floor quotient. -/
theorem combineRaisesNoFalseAlarm : Obligations.CombineRaisesNoFalseAlarm := by
  unfold Obligations.CombineRaisesNoFalseAlarm
  exact ⟨fun op _ _ hlen h => (combineLane_noAlarm h op hlen).1, fun op _ w _ hlen h => (combineLane_noAlarm h op hlen).2 w⟩

end Sys2Proof.Machine

/-! PROOFS. COMBINE_WALE (R38, R49, R430): the top node of the root die, and an uncorrectable buffer. -/

namespace Sys2Proof.Machine

theorem exec_combineWale_of_alive {s : State} (g : BitVec 12) (k : Word) (pt : Point) (w : Nat) (ev : StorageEvent)
    (ha : s.alive = true) : exec (.combineWale g k pt w ev) s = .next (s.combineAt g k pt w ev).settle :=
  live_of_alive (fun s => (s.combineAt g k pt w ev).settle) ha

theorem collPut_collPut {c d : Coll} (hg : c.g = d.g) (hk : c.k = d.k) (l : List Coll) :
    collPut d (collPut c l) = collPut d l := by
  have hd : c.is d.g d.k = true := (Coll.is_iff c d.g d.k).mpr ⟨hg, hk⟩
  induction l with
  | nil => simp [collPut, hd]
  | cons x xs ih =>
    simp only [collPut, hg, hk]
    split
    · simp [collPut, hd]
    · rename_i hx
      simp [collPut, hx, ih]

/-- Of two records of one name put one after the other, the second stands. -/
theorem State.putColl_putColl (s : State) {c d : Coll} (hg : c.g = d.g) (hk : c.k = d.k) :
    (s.putColl c).putColl d = s.putColl d :=
  congrArg (fun l => { s with colls := l }) (collPut_collPut hg hk s.colls)

theorem State.putColl_coll_same (s : State) (c : Coll) : (s.putColl c).coll? c.g c.k = some c := by
  rw [State.putColl_coll, if_pos ⟨rfl, rfl⟩]

/-- R417: a log entry touches the global status registers alone. -/
theorem State.logWrite_eq_gst (s : State) (e : LogEntry) : s.logWrite e = { s with gst := (s.logWrite e).gst } := by
  unfold State.logWrite
  split <;> rfl

theorem State.logWrite_log {s : State} (hs : s.canon) (hroom : s.gst.unread < 64) (e : LogEntry) :
    mget LogEntry.zero (s.logWrite e).gst.log (s.gst.logWr.toNat % 64) = { e with v := true, time := s.nowInt } := by
  obtain ⟨-, -, -, -, hlog, -⟩ := hs
  unfold State.logWrite
  rw [if_neg (Nat.not_le.mpr hroom)]
  exact mget_mput_same _ _ _ _ none hlog

/-- The record once wale `w` of a combining point is taken: its inputs have left their buffers, and it is counted. -/
def Coll.consume (c : Coll) (pt : Point) (w : Nat) : Coll :=
  { c with bufs := dropInputs pt w c.bufs, fwd := mput 0 c.fwd (siteKey pt) (w + 1) }

/-- The record with one more wale at the root. -/
def Coll.enqueueRoot (c : Coll) (w : Nat) (r : WaleV) : Coll := { c with rootQ := c.rootQ ++ [(w, r)] }

section
variable {s : State} {g : BitVec 12} {k : Word} {c : Coll} (hc : s.coll? g k = some c)
include hc

theorem State.coll_of_some : s.coll g k = c := by
  unfold State.coll
  rw [hc, Option.getD_some]

/-- COMBINE_WALE at a node of an open collective goes by what the storage code reports. -/
theorem State.combineAt_node (i w : Nat) (ev : StorageEvent) (hst : c.st = .opened) (hd : c.decided = none) :
    s.combineAt g k (.node i) w ev =
      if (s.storage c 3 i ev).2 = false then (s.storage c 3 i ev).1 else (s.storage c 3 i ev).1.combineTree c (.node i) w := by
  have hopen : ¬(c.st ≠ .opened ∨ c.decided.isSome = true) := by simp [hst, hd]
  unfold State.combineAt
  rw [hc]
  exact if_neg hopen

/-- Where no STEP partial waits, none is passed on. -/
theorem State.passSteps_of_nil (n : Nat) (hsteps : c.steps = []) : s.passSteps n g k = s := by
  cases n with
  | zero => rfl
  | succ n =>
    unfold State.passSteps
    rw [hc]
    dsimp only
    rw [hsteps]
    rfl

/-- A wale that comes straight to the root waits behind those that are there. -/
theorem State.forward_root (w : Nat) (r : WaleV) (hd : c.decided = none) (hop : isOp c.aw ≠ 7) :
    s.forward c ([], .root) (some w) r = s.putColl (c.enqueueRoot w r) := by
  obtain ⟨rfl, rfl⟩ := s.coll_name hc
  have hsame : s.onColl c.g c.k (fun c => { c with fwd := c.fwd }) = s.putColl c := State.onColl_eq_putColl hc _ rfl rfl
  have hput : (s.putColl c).coll? c.g c.k = some c := s.putColl_coll_same c
  have harrive : (s.putColl c).rootArrive c.g c.k w r = s.putColl (c.enqueueRoot w r) := by
    unfold State.rootArrive
    rw [State.coll_of_some hput]
    dsimp only
    rw [if_neg (by simp [hd]), if_neg (by simp [hop]), State.onColl_eq_putColl hput _ rfl rfl]
    exact s.putColl_putColl rfl rfl
  have hhand : (s.onColl c.g c.k (fun c => { c with fwd := c.fwd })).handTo (s.coll c.g c.k) .root (some w) r
      = s.putColl (c.enqueueRoot w r) := by
    rw [hsame, State.coll_of_some hc]
    exact harrive
  unfold State.forward
  cases badLane r.lanes <;> exact hhand

theorem State.onColl_consume (pt : Point) (w : Nat) :
    ((s.onColl g k (fun c => { c with bufs := dropInputs pt w c.bufs })).onColl g k
      (fun c => { c with fwd := mput 0 c.fwd (siteKey pt) (w + 1) })) = s.putColl (c.consume pt w) := by
  obtain ⟨rfl, rfl⟩ := s.coll_name hc
  have hput : (s.putColl { c with bufs := dropInputs pt w c.bufs }).coll? c.g c.k = some { c with bufs := dropInputs pt w c.bufs } :=
    s.putColl_coll_same _
  rw [State.onColl_eq_putColl hc _ rfl rfl, State.onColl_eq_putColl hput _ rfl rfl]
  exact s.putColl_putColl rfl rfl

/-- R38: at a top node whose output is the root, a wale whose inputs are there combines in its turn, and its inputs leave. -/
theorem State.combineTree_root {i w : Nat} {ins : List Buf} {r : WaleV} (hpath : s.fromPoint c (.node i) = ([], .root))
    (hins : s.inputs c (.node i) w = some ins) (hwale : ∃ b ∈ ins, b.wale.isSome = true) (hturn : mget 0 c.fwd i = w)
    (hroom : c.rootQ.length < s.img.cfg.bufs) (hd : c.decided = none) (hop : isOp c.aw ≠ 7) (hsteps : c.steps = [])
    (harm : s.dbg.armed = false) (hr : combineWales (isOp c.aw) w (ins.map (fun b => b.v)) 1 i s.own false = (r, none)) :
    s.combineTree c (.node i) w = s.putColl ((c.consume (.node i) w).enqueueRoot w r) := by
  obtain ⟨rfl, rfl⟩ := s.coll_name hc
  have hready : ¬((!ins.any (fun b => b.wale.isSome) || decide (mget 0 c.fwd (siteKey (.node i)) ≠ w)
      || !s.room c .root) = true) := by
    simp [siteKey, State.room, hturn, hroom, List.any_eq_true.mpr hwale]
  have hinj (vs : List WaleV) : s.injects (.node i) (isOp c.aw) vs = false := by
    unfold State.injects
    rw [harm]
    rfl
  have hr' : combineWales (isOp c.aw) w (ins.map (fun b => b.v)) (s.trapSite c (.node i)).1 (s.trapSite c (.node i)).2 s.own
      (s.injects (.node i) (isOp c.aw) (ins.map (fun b => b.v))) = (r, none) := by
    rw [hinj]
    exact hr
  have hput : (s.putColl (c.consume (.node i) w)).coll? c.g c.k = some (c.consume (.node i) w) := s.putColl_coll_same _
  have hdone : (s.putColl ((c.consume (.node i) w).enqueueRoot w r)).coll? c.g c.k = some ((c.consume (.node i) w).enqueueRoot w r) :=
    s.putColl_coll_same _
  have htwice : (s.putColl (c.consume (.node i) w)).putColl ((c.consume (.node i) w).enqueueRoot w r)
      = s.putColl ((c.consume (.node i) w).enqueueRoot w r) := s.putColl_putColl rfl rfl
  unfold State.combineTree
  rw [hins]
  dsimp only
  rw [hpath, if_neg hready, hr', hinj]
  dsimp only [State.wcredit]
  rw [if_neg Bool.false_ne_true, State.onColl_consume hc, State.coll_of_some hput, State.forward_root hput w r hd hop,
    htwice, State.passSteps_of_nil hdone 16 hsteps]

end

/-! ### An uncorrectable symbol in a data buffer (R430) -/

/-- The entry of an uncorrectable data buffer at a node (Table ER-2). -/
def bufferEntry (g : BitVec 12) (k : Word) (i : Nat) (a : Word) : LogEntry :=
  { LogEntry.zero with
    v := true, code := 0x08, abort := 2, group := g, cls := 6, arg0 := k, arg1 := a, unit := BitVec.ofNat 16 i, src := 3 }

theorem State.logEv_buffer (s : State) (g : BitVec 12) (k : Word) (i : Nat) (a : Word) :
    s.logEv 0x08 6 3 i k.toNat a.toNat g 2 = { s with gst := (s.logWrite (bufferEntry g k i a)).gst } := by
  rw [← State.logWrite_eq_gst]
  unfold State.logEv
  rw [BitVec.ofNat_toNat, BitVec.ofNat_toNat, BitVec.setWidth_eq, BitVec.setWidth_eq]
  rfl

/-- The way to the decider does not depend on the global status registers. -/
theorem State.reportTo_withGst (s : State) (x : Gst) (g : BitVec 12) (dec : Nat) :
    State.reportTo { s with gst := x } g dec = s.reportTo g dec := by
  have hup : State.up { s with gst := x } (s.group g) dec = s.up (s.group g) dec :=
    State.up_of (s := s) (t := { s with gst := x }) rfl rfl _ dec
  have hreach (d : Nat) : State.canReach { s with gst := x } d = s.canReach d := rfl
  have hgroup : State.group { s with gst := x } g = s.group g := State.group_of rfl g
  unfold State.reportTo
  rw [hgroup, hup]
  simp only [hreach]

theorem State.faultMsg_withGst (s : State) (x : Gst) (g : BitVec 12) (k : Word) (code src unit : Nat) (arg : Word)
    (trap : Option Cand) : State.faultMsg { s with gst := x } g k code src unit arg trap = s.faultMsg g k code src unit arg trap := by
  have hdec : State.decider { s with gst := x } g k = s.decider g k := rfl
  unfold State.faultMsg
  rw [hdec, s.reportTo_withGst x]

/-- A fault report whose decider is this die is put among its own messages (R107, R421). -/
theorem State.report_of_decider {s : State} {g : BitVec 12} {k : Word} (h : s.decider g k = s.own) (code src unit : Nat) (arg : Word)
    (trap : Option Cand) : s.report g k code src unit arg trap = s.post (s.faultMsg g k code src unit arg trap) := if_pos h

/-- R430: the buffer is logged and reported, and the step does not go on. -/
theorem State.storage_uncorrData {s : State} {c : Coll} (i : Nat) (a : Word) (h : s.decider c.g c.k = s.own) :
    s.storage c 3 i (.uncorrData a) =
      ({ s with gst := (s.logWrite (bufferEntry c.g c.k i a)).gst, vc0 := s.vc0 ++ [s.faultMsg c.g c.k 2 3 i a none] }, false) := by
  have hlogged (x : Gst) : State.decider { s with gst := x } c.g c.k = State.own { s with gst := x } := h
  unfold State.storage
  dsimp only
  rw [State.logEv_buffer, State.report_of_decider (hlogged _), s.faultMsg_withGst]
  rfl

/-- Settles O33: a clean wale of a top node is that of `State.combineTree_root`, an uncorrectable buffer that of
`State.storage_uncorrData`. -/
theorem combineWaleMovesUp : Obligations.CombineWaleMovesUp := by
  unfold Obligations.CombineWaleMovesUp
  intro s g k i w c hs ha hc hst hd
  obtain ⟨rfl, rfl⟩ := s.coll_name hc
  refine ⟨fun ins r hpath hins hwale hturn hroom hop hsteps harm hr => ?_, fun a hdec => ?_⟩
  · refine ⟨s.putColl ((c.consume (.node i) w).enqueueRoot w r), (c.consume (.node i) w).enqueueRoot w r, ?_,
      s.putColl_coll_same _, rfl, rfl⟩
    rw [exec_combineWale_of_alive _ _ _ _ _ ha, State.combineAt_node hc i w .clean hst hd]
    exact congrArg (fun u => Host.Outcome.next u.settle)
      (State.combineTree_root hc hpath hins hwale hturn hroom hd hop hsteps harm hr)
  · refine ⟨{ s with gst := (s.logWrite (bufferEntry c.g c.k i a)).gst, vc0 := s.vc0 ++ [s.faultMsg c.g c.k 2 3 i a none] },
      ?_, rfl, fun hroom => s.logWrite_log hs hroom _⟩
    rw [exec_combineWale_of_alive _ _ _ _ _ ha, State.combineAt_node hc i w (.uncorrData a) hst hd,
      State.storage_uncorrData i a hdec, if_pos rfl]

end Sys2Proof.Machine

/-! PROOFS. The stakes one by one (spec/07): what a stake reads after one of them is changed, and a retraining of a stake
that is alone in its bond. -/

namespace Sys2Proof.Machine

theorem State.setStake_stake_same {s : State} (hw : mwf Stake.zero s.stakes = true) (n : Nat) (x : Stake) :
    (s.setStake n x).stake n = x :=
  mget_mput_same _ _ _ _ none hw

theorem State.setStake_stake_other (s : State) {n k : Nat} (hk : k ≠ n) (x : Stake) : (s.setStake n x).stake k = s.stake k :=
  mget_mput_other _ _ _ _ _ hk

theorem State.onStake_stake_same {s : State} (hw : mwf Stake.zero s.stakes = true) (n : Nat) (f : Stake → Stake) :
    (s.onStake n f).stake n = f (s.stake n) :=
  State.setStake_stake_same hw n _

theorem State.onStake_stake_other (s : State) {n k : Nat} (hk : k ≠ n) (f : Stake → Stake) :
    (s.onStake n f).stake k = s.stake k :=
  s.setStake_stake_other hk _

theorem State.setStake_stakes_wf {s : State} (hw : mwf Stake.zero s.stakes = true) (n : Nat) (x : Stake) :
    mwf Stake.zero (s.setStake n x).stakes = true :=
  mput_wf _ _ _ _ hw

theorem State.onStake_stakes_wf {s : State} (hw : mwf Stake.zero s.stakes = true) (n : Nat) (f : Stake → Stake) :
    mwf Stake.zero (s.onStake n f).stakes = true :=
  State.setStake_stakes_wf hw n _

/-- R214, R344, R418: what a retraining makes of a stake. -/
def Stake.retrained (x : Stake) (cand : BitVec 8) : Stake :=
  { x.train cand 0 with retrainC := satInc x.retrainC, badRun := [], slotRun := 0, shadow := true }

/-- The log entry of a retraining (R417, R418). -/
def retrainEntry (n cause : Nat) (x : Stake) : LogEntry :=
  { LogEntry.zero with
    v := true, code := 0x17, cls := 4, src := 4, unit := BitVec.ofNat 16 n, arg0 := BitVec.ofNat 32 cause
    arg1 := BitVec.ofNat 32 x.fseqWord }

/-- A stake in no bond with another one in service leaves no member in service once it has left itself (R170, R171). -/
theorem State.bondUp_eq_nil {s t : State} {n : Nat} (halone : ∀ m ∈ s.bondUp n, m = n) (himg : t.img = s.img)
    (hother : ∀ m, m ≠ n → t.stake m = s.stake m) (hst : (t.stake n).st ≠ .inService) : t.bondUp n = [] := by
  unfold State.bondUp at halone ⊢
  rw [himg, List.filter_eq_nil_iff]
  intro m hm hup
  by_cases he : m = n
  · subst he
    exact hst (of_decide_eq_true hup)
  · rw [hother m he] at hup
    exact he (halone m (List.mem_filter.mpr ⟨hm, hup⟩))

theorem State.leaveBond_of_alone {s : State} {n : Nat} (lost : Bool) (h : s.bondUp n = []) : s.leaveBond n lost = s :=
  if_pos h

theorem State.closed_of_open {s : State} {n : Nat} (h : (s.stake n).closing = false) : s.closed n = s := by
  unfold State.closed
  rw [if_neg (by rw [h]; decide)]

/-- R417: the state with one more log entry, or with its loss counted: everything but GST is that of `s`. -/
def State.logged (s : State) (e : LogEntry) : State := { s with gst := (s.logWrite e).gst }

theorem State.logWrite_eq_logged (s : State) (e : LogEntry) : s.logWrite e = s.logged e := s.logWrite_eq_gst e

@[simp] theorem State.logged_stake (s : State) (e : LogEntry) (n : Nat) : (s.logged e).stake n = s.stake n := rfl

/-- R214, R418: a stake that is alone in its bond and is to stay hands nothing over: its retraining is the log entry and the
stake's own change. -/
theorem State.retrain_of_alone {s : State} (hw : mwf Stake.zero s.stakes = true) {n : Nat} (cause : Nat) (cand : BitVec 8)
    (halone : ∀ m ∈ s.bondUp n, m = n) (hopen : (s.stake n).closing = false) :
    s.retrain n cause cand = (s.logged (retrainEntry n cause (s.stake n))).setStake n ((s.stake n).retrained cand) := by
  have hlog : s.logEv 0x17 4 4 n cause (s.stake n).fseqWord = s.logged (retrainEntry n cause (s.stake n)) :=
    s.logWrite_eq_logged (retrainEntry n cause (s.stake n))
  have hown : ((s.logged (retrainEntry n cause (s.stake n))).setStake n ((s.stake n).retrained cand)).stake n =
      (s.stake n).retrained cand := State.setStake_stake_same hw n _
  have hbond : ((s.logged (retrainEntry n cause (s.stake n))).setStake n ((s.stake n).retrained cand)).bondUp n = [] := by
    refine State.bondUp_eq_nil halone rfl (fun m hm => State.setStake_stake_other _ hm _) ?_
    rw [hown]
    exact StkSt.noConfusion
  unfold State.retrain
  dsimp only
  rw [hlog, ← Stake.retrained, State.leaveBond_of_alone _ hbond, State.closed_of_open (by rw [hown]; exact hopen)]

end Sys2Proof.Machine

/-! PROOFS. The PHY's pins (Table SK-1): lanes that rise, and lanes that fall or fail, on a physical port whose upper half is
idle. -/

namespace Sys2Proof.Machine

/-- Table SK-1: lanes rise under a stake, and step 1 ends with the first of its own (log entry 95). -/
def Stake.lanesRise (lanes : BitVec 8) (x : Stake) : Stake :=
  let y := { x with rdy := x.rdy ||| lanes }
  if y.st = .training ∧ y.step = 1 ∧ y.phyRst = false ∧ y.lanesReady y.cand ≠ 0 then { y with step := 2 } else y

theorem Stake.lanesRise_rdy (lanes : BitVec 8) (x : Stake) : (x.lanesRise lanes).rdy = x.rdy ||| lanes := by
  unfold Stake.lanesRise
  dsimp only
  split <;> rfl

theorem Stake.lanesRise_step {lanes : BitVec 8} {x : Stake} (hst : x.st = .training) (hstep : x.step = 1) (hrst : x.phyRst = false)
    (hrdy : Stake.lanesReady { x with rdy := x.rdy ||| lanes } x.cand ≠ 0) : (x.lanesRise lanes).step = 2 :=
  congrArg Stake.step (if_pos ⟨hst, hstep, hrst, hrdy⟩)

theorem Stake.lanesRise_of_not_training {lanes : BitVec 8} {x : Stake} (hst : x.st ≠ .training) :
    x.lanesRise lanes = { x with rdy := x.rdy ||| lanes } :=
  if_neg fun h => hst h.1

theorem exec_skPhyRdyRise_of_alive {s : State} (p : Fin 8) (lanes : BitVec 8) (ha : s.alive = true) :
    exec (.skPhyRdyRise p lanes) s =
      .next ((s.onStake (2 * p.val) (Stake.lanesRise lanes)).onStake (2 * p.val + 1) (Stake.lanesRise lanes)) :=
  live_of_alive (fun s => (portStakes p.val).foldl (fun t n => t.onStake n (Stake.lanesRise lanes)) s) ha

/-- SK_PHY_RDY falls on lanes of a stake. -/
def Stake.lanesFall (lanes : BitVec 8) (x : Stake) : Stake := { x with rdy := x.rdy &&& ~~~lanes }

/-- SK_LANE_FLT reports lanes of a stake. -/
def Stake.lanesFault (lanes : BitVec 8) (x : Stake) : Stake := { x with flt := x.flt ||| lanes }

/-- Both halves of port `p` take a loss of lanes, which `f` notes. -/
def State.portLoses (s : State) (p cause : Nat) (lanes : BitVec 8) (f : Stake → Stake) : State :=
  (portStakes p).foldl (fun t n => (t.onStake n f).laneLost n cause lanes) s

theorem exec_skPhyRdyFall_of_alive {s : State} (p : Fin 8) (lanes : BitVec 8) (ha : s.alive = true) :
    exec (.skPhyRdyFall p lanes) s = .next (s.portLoses p.val 2 lanes (Stake.lanesFall lanes)).settle :=
  live_of_alive (fun s => (s.portLoses p.val 2 lanes (Stake.lanesFall lanes)).settle) ha

theorem exec_skLaneFlt_of_alive {s : State} (p : Fin 8) (lanes : BitVec 8) (ha : s.alive = true) :
    exec (.skLaneFlt p lanes) s = .next (s.portLoses p.val 1 lanes (Stake.lanesFault lanes)).settle :=
  live_of_alive (fun s => (s.portLoses p.val 1 lanes (Stake.lanesFault lanes)).settle) ha

theorem State.laneLost_of_not_inService {s : State} {n : Nat} (cause : Nat) (lanes : BitVec 8) (h : (s.stake n).st ≠ .inService) :
    s.laneLost n cause lanes = s :=
  if_pos (.inl h)

/-- R172, R214: a stake in service that loses a lane in use while another of them is ready trains again on its lanes. -/
theorem State.laneLost_of_ready {s : State} {n : Nat} (cause : Nat) {lanes : BitVec 8} (hst : (s.stake n).st = .inService)
    (huse : (s.stake n).lanes &&& lanes ≠ 0) (hrdy : (s.stake n).lanesReady (s.stake n).lanes ≠ 0) :
    s.laneLost n cause lanes = s.retrain n cause (s.stake n).lanes := by
  unfold State.laneLost
  dsimp only
  rw [if_neg (not_or.mpr ⟨not_not_intro hst, huse⟩), if_neg fun h => hrdy h.1]

section
variable {s : State} {f : Stake → Stake} {lanes : BitVec 8} {p n : Nat} (cause : Nat)

/-- R170: what a stake notes of its pins leaves its bond as it is. -/
theorem State.bondUp_onStake (hw : mwf Stake.zero s.stakes = true) (hst : ∀ y, (f y).st = y.st) (k : Nat) :
    (s.onStake n f).bondUp k = s.bondUp k := by
  refine List.filter_congr fun m _ => ?_
  by_cases hm : m = n
  · subst hm
    rw [State.onStake_stake_same hw, hst]
  · rw [s.onStake_stake_other hm]

/-- A stake that is not in service only notes the loss. -/
theorem State.onStake_laneLost_of_not_inService (hw : mwf Stake.zero s.stakes = true) (hst : ∀ y, (f y).st = y.st)
    (h : (s.stake n).st ≠ .inService) : (s.onStake n f).laneLost n cause lanes = s.onStake n f :=
  State.laneLost_of_not_inService _ _ (by rwa [State.onStake_stake_same hw, hst])

/-- R172, R214: a stake in service that notes the loss of a lane in use, with another of them ready, is logged and retrains. -/
theorem State.onStake_laneLost_of_ready (hw : mwf Stake.zero s.stakes = true)
    (hf : ∀ y, (f y).st = y.st ∧ (f y).lanes = y.lanes ∧ (f y).closing = y.closing)
    (hst : (s.stake n).st = .inService) (huse : (s.stake n).lanes &&& lanes ≠ 0) (halone : s.bondUp n = [n])
    (hopen : (s.stake n).closing = false) (hrdy : (f (s.stake n)).lanesReady (s.stake n).lanes ≠ 0) :
    (s.onStake n f).laneLost n cause lanes =
      ((s.onStake n f).logged (retrainEntry n cause (f (s.stake n)))).setStake n ((f (s.stake n)).retrained (s.stake n).lanes) := by
  obtain ⟨hfst, hflanes, hfclosing⟩ := hf (s.stake n)
  have hown : (s.onStake n f).stake n = f (s.stake n) := State.onStake_stake_same hw _ _
  have hbond : ∀ m ∈ (s.onStake n f).bondUp n, m = n := by
    rw [State.bondUp_onStake hw (fun y => (hf y).1), halone]
    exact fun m => List.mem_singleton.mp
  have hlost := State.laneLost_of_ready cause (by rwa [hown, hfst]) (by rwa [hown, hflanes]) (by rwa [hown, hflanes])
  rw [hlost, State.retrain_of_alone (State.onStake_stakes_wf hw _ _) cause _ hbond (by rwa [hown, hfclosing]), hown, hflanes]

/-- R214: the lower half of a port whose upper half is idle retrains at the loss of a lane in use. -/
theorem State.portLoses_retrains (hw : mwf Stake.zero s.stakes = true)
    (hf : ∀ y, (f y).st = y.st ∧ (f y).lanes = y.lanes ∧ (f y).closing = y.closing)
    (hst : (s.stake (2 * p)).st = .inService) (huse : (s.stake (2 * p)).lanes &&& lanes ≠ 0)
    (hidle : (s.stake (2 * p + 1)).st = .idle) (halone : s.bondUp (2 * p) = [2 * p])
    (hopen : (s.stake (2 * p)).closing = false) (hrdy : (f (s.stake (2 * p))).lanesReady (s.stake (2 * p)).lanes ≠ 0) :
    (s.portLoses p cause lanes f).stake (2 * p) = (f (s.stake (2 * p))).retrained (s.stake (2 * p)).lanes := by
  have hne : 2 * p + 1 ≠ 2 * p := Nat.succ_ne_self _
  have hlog : mwf Stake.zero ((s.onStake (2 * p) f).logged (retrainEntry (2 * p) cause (f (s.stake (2 * p))))).stakes = true :=
    State.onStake_stakes_wf hw _ _
  unfold State.portLoses portStakes
  rw [List.foldl_cons, List.foldl_cons, List.foldl_nil, State.onStake_laneLost_of_ready cause hw hf hst huse halone hopen hrdy,
    State.onStake_laneLost_of_not_inService cause (State.setStake_stakes_wf hlog _ _) (fun y => (hf y).1),
    State.onStake_stake_other _ hne.symm, State.setStake_stake_same hlog]
  rw [State.setStake_stake_other _ hne, State.logged_stake, s.onStake_stake_other hne, hidle]
  exact StkSt.noConfusion

end

end Sys2Proof.Machine

/-! PROOFS. The lanes of a physical port (R177 to R180): which of them idle, and the words that stand on a stake while the
PHY takes words of other stakes alone. -/

namespace Sys2Proof.Machine

/-- R180: the lanes of a port whose upper half is idle are those of its lower half. -/
theorem State.txIdle_of_upper_idle {s : State} {p : Nat} (h : (s.stake (2 * p + 1)).st = .idle) :
    s.txIdle p = ~~~(s.stake (2 * p)).lanesUsed := by
  have hup : (s.stake (2 * p + 1)).lanesUsed = 0 := by
    unfold Stake.lanesUsed
    rw [h]
  unfold State.txIdle
  rw [hup]
  exact congrArg _ (BitVec.or_zero)

theorem Stake.lanesUsed_of_inService {x : Stake} (h : x.st = .inService) : x.lanesUsed = x.lanes := by
  unfold Stake.lanesUsed
  rw [h]

/-- R180: a stake drives no lane while it is idle, down, or in a PHY reset. -/
theorem Stake.lanesUsed_eq_zero {x : Stake} (h : x.st = .idle ∨ x.st = .down ∨ x.st = .training ∧ x.phyRst = true) :
    x.lanesUsed = 0 := by
  unfold Stake.lanesUsed
  obtain h | h | ⟨h, hrst⟩ := h
  · rw [h]
  · rw [h]
  · rw [h]
    exact if_pos (.inl hrst)

/-- Stake `k` drives the words of `x`, and has the units of `x` in line. -/
structure State.Drives (s : State) (k : Nat) (x : Stake) : Prop where
  wf : mwf Stake.zero s.stakes = true
  txd : (s.stake k).txd = x.txd
  units : (s.stake k).units = x.units

section
variable {s : State} {k n : Nat} {x : Stake}

theorem State.Drives.of_stakes {t : State} (h : s.Drives k x) (he : t.stakes = s.stakes) : t.Drives k x := by
  have hst : t.stake k = s.stake k := congrArg (fun m => mget Stake.zero m k) he
  exact ⟨he ▸ h.wf, hst ▸ h.txd, hst ▸ h.units⟩

theorem State.Drives.setStake (h : s.Drives k x) (hk : k ≠ n) (y : Stake) : (s.setStake n y).Drives k x := by
  have hst := s.setStake_stake_other hk y
  exact ⟨State.setStake_stakes_wf h.wf n y, hst ▸ h.txd, hst ▸ h.units⟩

theorem State.Drives.onStake (h : s.Drives k x) (hk : k ≠ n) (f : Stake → Stake) : (s.onStake n f).Drives k x :=
  h.setStake hk _

/-- R203: a receive buffer that becomes free, even on stake `k`, is no word. -/
theorem State.Drives.freeBuf (h : s.Drives k x) (m vc : Nat) : (s.onStake m (fun y => y.free vc)).Drives k x := by
  by_cases hk : k = m
  · subst hk
    have hst := State.onStake_stake_same h.wf k (fun y => y.free vc)
    exact ⟨State.onStake_stakes_wf h.wf k _, (congrArg Stake.txd hst).trans h.txd, (congrArg Stake.units hst).trans h.units⟩
  · exact h.onStake hk _

theorem State.Drives.departed (h : s.Drives k x) (hk : k ≠ n) : (s.departed n).Drives k x := by
  unfold State.departed
  dsimp only
  split
  · exact h
  · exact State.Drives.onStake (s := s.departStamp.2) (h.of_stakes rfl) hk _

theorem State.Drives.sendTrain (h : s.Drives k x) (hk : k ≠ n) (t : TrainOut) : (s.sendTrain n t).Drives k x := by
  unfold State.sendTrain
  exact (h.onStake hk _).onStake hk _

theorem State.Drives.line (h : s.Drives k x) (hk : k ≠ n) (w : List Byte) : (s.line n w).Drives k x :=
  h.onStake hk _

theorem State.Drives.lineData (h : s.Drives k x) (hk : k ≠ n) (f : TxFlit) : (s.lineData n f).Drives k x := by
  unfold State.lineData
  dsimp only
  split
  · exact (h.line hk _).of_stakes rfl
  · exact h.line hk _

/-- A relayed flit frees its buffer on the stake that it came in by. -/
theorem State.Drives.sendNew (h : s.Drives k x) (hk : k ≠ n) (vc : Nat) : (s.sendNew n vc).Drives k x := by
  unfold State.sendNew
  dsimp only
  split
  · exact h
  · refine State.Drives.lineData ?_ hk _
    split
    · exact (h.setStake hk _).freeBuf _ _
    · exact h.setStake hk _

/-- R195: a flit slot in service, case by case of what it sends. -/
theorem State.Drives.slotService (h : s.Drives k x) (hk : k ≠ n) : (s.slotService n).Drives k x := by
  have hslot := h.setStake hk { s.stake n with sinceLk := (s.stake n).sinceLk + 1 }
  unfold State.slotService
  dsimp only
  split
  · exact h.onStake hk _
  split
  · exact (hslot.onStake hk _).sendTrain hk _
  split
  · split
    · exact (hslot.onStake hk _).lineData hk _
    · exact (hslot.onStake hk _).line hk _
  split
  · split
    · exact (hslot.setStake hk _).sendNew hk _
    · exact hslot.line hk _
  · exact hslot.line hk _

/-- R210: a flit slot in training. -/
theorem State.Drives.slotTraining (h : s.Drives k x) (hk : k ≠ n) : (s.slotTraining n).Drives k x := by
  have hslot := h.setStake hk { s.stake n with sinceLk := (s.stake n).sinceLk + 1 }
  unfold State.slotTraining
  dsimp only
  split
  · exact (hslot.onStake hk _).sendTrain hk _
  split
  · exact hslot.sendTrain hk _
  · exact hslot.line hk _

theorem State.Drives.flitRow (h : s.Drives k x) (hk : k ≠ n) {slot : State → Nat → State} (hslot : (slot s n).Drives k x) :
    (s.flitRow n slot).Drives k x := by
  unfold State.flitRow
  refine State.Drives.onStake ?_ hk _
  split
  · exact hslot
  · exact h

/-- R178: the words of one stake that the PHY takes leave those of another as they are. -/
theorem State.Drives.pclk (h : s.Drives k x) (hk : k ≠ n) : (s.pclk n).Drives k x := by
  have hdep := h.departed hk
  unfold State.pclk
  dsimp only
  split
  · split
    · exact h
    split
    · exact hdep.flitRow hk (hdep.slotTraining hk)
    · exact h.setStake hk _
  · exact hdep.flitRow hk (hdep.slotService hk)
  · exact h

end

/-- R178, Table SK-2: the words of a stake stand over an edge at which the PHY takes none of its port's. -/
theorem State.pclks_stand {s : State} (hs : s.canon) {k : Nat} {acc : BitVec 64} (hacc : acc.getLsbD (k / 2) = false) :
    (s.pclks acc).Drives k (s.stake k) := by
  unfold State.pclks
  refine List.foldlRecOn (motive := fun t : State => t.Drives k (s.stake k)) _ _ ⟨hs.fields.stakes, rfl, rfl⟩ fun t ht e _ => ?_
  split
  · rename_i htaken
    refine ht.pclk fun hk => ?_
    rw [← hk, hacc] at htaken
    exact Bool.false_ne_true htaken
  · exact ht

end Sys2Proof.Machine

/-! PROOFS. The PHY's pins and RETRAIN (R172, R178, R180, R208, R214, R418). -/

namespace Sys2Proof.Machine

theorem exec_retrain_of_alive {s : State} (n : Fin 16) (ha : s.alive = true) : exec (.retrain n) s = .next (s.retrainReq n.val) :=
  live_of_alive (fun s => s.retrainReq n.val) ha

theorem State.retrainReq_of_enabled {s : State} {n : Nat} (hsvc : s.inService = true) (hen : s.img.cfg.stkEn n = true)
    (hst : (s.stake n).st = .inService ∨ (s.stake n).st = .down) :
    s.retrainReq n = s.retrain n 6 (s.img.cfg.lanesOf n) := by
  unfold State.retrainReq
  rw [if_neg (by rw [hen, hsvc]; decide), if_pos hst]

/-- Settles O43: lanes that rise by `Stake.lanesRise`, lanes that are lost by `State.portLoses_retrains`, idle lanes by
`Stake.lanesUsed`, standing words by `State.pclks_stand`, and RETRAIN by `State.retrain_of_alone`. -/
theorem phyPinsAndRetrain : Obligations.PhyPinsAndRetrain := by
  unfold Obligations.PhyPinsAndRetrain
  rintro s p lanes x hs ha rfl
  have hw := hs.fields.stakes
  refine ⟨?_, fun hst huse hidle hbond hopen => ⟨fun hrdy => ?_, fun hrdy => ?_⟩, fun hst hidle => ?_, fun hst hidle => ?_,
    fun acc hacc => ?_, fun n hsvc hen hst halone hopen => ?_⟩
  · have hrise : ((s.onStake (2 * p.val) (Stake.lanesRise lanes)).onStake (2 * p.val + 1) (Stake.lanesRise lanes)).stake (2 * p.val)
        = (s.stake (2 * p.val)).lanesRise lanes :=
      (State.onStake_stake_other _ (Nat.succ_ne_self _).symm _).trans (State.onStake_stake_same hw _ _)
    refine ⟨_, exec_skPhyRdyRise_of_alive p lanes ha, ?_, fun hst hstep hrst hrdy => ?_, fun hst => ?_, rfl⟩
    · rw [hrise, Stake.lanesRise_rdy]
    · rw [hrise, Stake.lanesRise_step hst hstep hrst hrdy]
    · rw [hrise, Stake.lanesRise_of_not_training hst]
  · exact ⟨_, exec_skPhyRdyFall_of_alive p lanes ha,
      State.portLoses_retrains 2 hw (fun _ => ⟨rfl, rfl, rfl⟩) hst huse hidle hbond hopen hrdy⟩
  · exact ⟨_, exec_skLaneFlt_of_alive p lanes ha,
      State.portLoses_retrains 1 hw (fun _ => ⟨rfl, rfl, rfl⟩) hst huse hidle hbond hopen hrdy⟩
  · rw [State.txIdle_of_upper_idle hidle, Stake.lanesUsed_eq_zero hst]
    rfl
  · rw [State.txIdle_of_upper_idle hidle, Stake.lanesUsed_of_inService hst]
  · have hport : acc.getLsbD (2 * p.val / 2) = false := by rwa [Nat.mul_div_cancel_left _ (by decide)]
    obtain ⟨-, htxd, hunits⟩ := State.pclks_stand hs hport
    exact ⟨htxd, hunits⟩
  · refine ⟨(s.logged (retrainEntry n.val 6 (s.stake n.val))).setStake n.val ((s.stake n.val).retrained (s.img.cfg.lanesOf n.val)),
      ?_, State.setStake_stake_same hw _ _, fun hroom => State.logWrite_log hs hroom _, rfl⟩
    rw [exec_retrain_of_alive n ha, State.retrainReq_of_enabled hsvc hen hst, State.retrain_of_alone hw _ _ halone hopen]

end Sys2Proof.Machine

/-! SUPPORT. Reserve rounds (R230 to R234): a record under its name after a change of it, and messages between a die and itself. -/

namespace Sys2Proof.Machine

variable {s t u : State} {g : BitVec 12} {k : Word} {c : Coll}

/-- A change that keeps the record's name is what a lookup of that name finds. -/
theorem State.onColl_coll_of_some (hc : s.coll? g k = some c) {f : Coll → Coll} (hg : (f c).g = c.g) (hk : (f c).k = c.k) :
    (s.onColl g k f).coll? g k = some (f c) := by
  obtain ⟨rfl, rfl⟩ := s.coll_name hc
  rw [State.onColl_eq_putColl hc f hg hk, State.putColl_coll, if_pos ⟨hg, hk⟩]

/-- What a change of the record does not touch reads as before. -/
theorem State.onColl_coll_map {β : Type} (v : Coll → β) (f : Coll → Coll) (hv : ∀ c, v { f c with g := c.g, k := c.k } = v c) :
    ((s.onColl g k f).coll? g k).map v = (s.coll? g k).map v := by
  rw [State.onColl_coll, if_pos ⟨rfl, rfl⟩]
  cases hc : s.coll? g k with
  | none => rfl
  | some c =>
    obtain ⟨rfl, rfl⟩ := s.coll_name hc
    exact congrArg some (hv c)

theorem SameCore.core_eq (h : SameCore s t) (hc : s.coll? g k = .some c) : (t.coll? g k).map Coll.core = .some c.core :=
  (h g k).trans (congrArg (Option.map Coll.core) hc)

theorem State.groupHeld_of (h : t.col = s.col) (g : BitVec 12) : t.groupHeld g = s.groupHeld g := by
  unfold State.groupHeld
  rw [h]

theorem State.reached_of (h : t.time = s.time) (x : BitVec 64) : t.reached x = s.reached x := by
  unfold State.reached State.nowInt
  rw [h]

theorem State.fromAbove_of (h : t.img = s.img) (hw : t.wl = s.wl) (g : BitVec 12) (rd level : Nat) :
    t.fromAbove g rd level = s.fromAbove g rd level := by
  unfold State.fromAbove
  rw [State.group_of h, State.chains_of h hw]

theorem State.fromAbove_takeMsg (s : State) (m : Msg) (g : BitVec 12) (rd level : Nat) :
    (s.takeMsg m).fromAbove g rd level = s.fromAbove g rd level :=
  State.fromAbove_of (s.takeMsg_img m) (s.takeMsg_wl m) g rd level

/-- A message to this die itself waits among its messages (log entry 6). -/
theorem State.send_own {dest : Nat} (h : dest = s.own) (g : BitVec 12) (k : Word) (b : Body) (round : BitVec 16) :
    s.send dest g k b round = s.post ⟨g, k, s.wl.dieId, round, 0, 0, b⟩ := by
  unfold State.send State.sendRaw
  rw [if_pos h]
  rfl

theorem State.orFail_fault_core (s : State) (g : BitVec 12) (k : Word) (dest level : Nat) :
    SameCore s (s.orFail g k dest level .fault) :=
  SameCore.trans (.of_colls ((State.logRoute_only (w := [.gst]) .refl _ _ _ _ _ _ _).colls (by decide)))
    (State.report_core _ _ _ _ _ _ _ _)

theorem State.recOf_name (s : State) (g : BitVec 12) (k : Word) : (s.recOf g k).g = g ∧ (s.recOf g k).k = k := by
  unfold State.recOf
  cases hc : s.coll? g k with
  | none => exact ⟨rfl, rfl⟩
  | some c => exact s.coll_name hc

/-- A new round keeps the record's name and members, and is the record's round from then on. -/
theorem Coll.inRound_fields (c : Coll) (round : BitVec 16) :
    (c.inRound round).g = c.g ∧ (c.inRound round).k = c.k ∧ (c.inRound round).members = c.members
      ∧ (c.inRound round).round = round := by
  unfold Coll.inRound
  split
  · rename_i hround
    exact ⟨rfl, rfl, rfl, hround⟩
  · exact ⟨rfl, rfl, rfl, rfl⟩

/-- A record without what RESERVE writes on its way below a chain: the chains reached, the inputs asked, the report, and the
legs. -/
def Coll.unasked (c : Coll) : Coll := { c with resv := [], kids := [], rep := none, tried := [], legs := [] }

theorem SameCore.unasked (h : SameCore s t) (g : BitVec 12) (k : Word) :
    (t.coll? g k).map Coll.unasked = (s.coll? g k).map Coll.unasked := by
  have hcore := congrArg (Option.map Coll.unasked) (h g k)
  rwa [Option.map_map, Option.map_map] at hcore

theorem State.reportChain_unasked (s : State) (g : BitVec 12) (k : Word) (ch : Chain) :
    ((s.reportChain g k ch).coll? g k).map Coll.unasked = (s.coll? g k).map Coll.unasked := by
  unfold State.reportChain
  dsimp only
  split
  · rfl
  · split
    · rfl
    · split
      · exact ((State.sendEdge_core _ _ _ _ _ _ _ _).unasked g k).trans (State.onColl_coll_map _ _ (fun _ => rfl))
      · exact ((State.send_core _ _ _ _ _ _).unasked g k).trans (State.onColl_coll_map _ _ (fun _ => rfl))

/-- RESERVE on its way below a chain takes nothing and settles nothing at this die (R230). -/
theorem State.reserveChain_unasked (s : State) (g : BitVec 12) (k : Word) (ch : Chain) :
    ((s.reserveChain g k ch).coll? g k).map Coll.unasked = (s.coll? g k).map Coll.unasked := by
  unfold State.reserveChain
  dsimp only
  refine (State.reportChain_unasked _ g k ch).trans (((State.sendDown_core _ _ _ _ _ _).unasked g k).trans ?_)
  refine Eq.trans (SameCore.unasked (SameCore.foldl .refl _ _ (fun _ _ h => ?_)) g k) ?_
  · exact h.trans (State.orFail_fault_core _ _ _ _ _)
  · exact State.onColl_coll_map _ _ (fun _ => rfl)

theorem State.reserveChain_coll (hc : s.coll? g k = some c) (ch : Chain) :
    ∃ c', (s.reserveChain g k ch).coll? g k = some c' ∧ c'.st = c.st ∧ c'.round = c.round ∧ c'.aw = c.aw
      ∧ c'.members = c.members ∧ c'.holds = c.holds := by
  have h := s.reserveChain_unasked g k ch
  rw [hc] at h
  obtain ⟨c', hc', he⟩ := Option.map_eq_some_iff.mp h
  exact ⟨c', hc', (congrArg Coll.st he :), (congrArg Coll.round he :), (congrArg Coll.aw he :), (congrArg Coll.members he :),
    (congrArg Coll.holds he :)⟩

/-- The record of a die that has given back, or not yet taken, what the round needs there. -/
def Coll.untaken (c : Coll) : Coll := { c with holds := false, v1ref := [] }

/-- R230: the die takes all that the collective needs, or nothing. -/
theorem State.retake_coll (s : State) (c : Coll) :
    (s.retake c).coll? c.g c.k = some { c.untaken with
      holds := (s.putColl c.untaken).fits c.untaken, wales := (s.putColl c.untaken).waleNeed c.g c.aw
      v1ref := (s.putColl c.untaken).overBudget c.untaken } :=
  State.putColl_coll_same _ _

theorem State.retake_adm (s : State) (c : Coll) :
    (s.retake c).adm = { s.adm with
      full := if (s.putColl c.untaken).fits c.untaken then s.adm.full else satInc s.adm.full
      tauRes := BitVec.ofNat 12 s.tilth.tau } := rfl

end Sys2Proof.Machine

/-! PROOFS. Reserve rounds: RESERVE, RESERVE_RETRY, RELEASE and QUEUED_LONG (R230, R232, R233). -/

namespace Sys2Proof.Machine

variable {s : State} {m : Msg} {g : BitVec 12} {k : Word} {c : Coll}

theorem exec_reserve_of_alive (m : Msg) (ha : s.alive = true) : exec (.reserve m) s = .next ((s.takeMsg m).onReserve m) :=
  live_of_alive (fun s => (s.takeMsg m).onReserve m) ha

theorem exec_reserveRetry_of_alive (g : BitVec 12) (k : Word) (ha : s.alive = true) :
    exec (.reserveRetry g k) s = .next (s.startRound g k) :=
  live_of_alive (fun s => s.startRound g k) ha

theorem exec_releaseReservation_of_alive (m : Msg) (ha : s.alive = true) :
    exec (.releaseReservation m) s = .next ((s.takeMsg m).onRelease m) :=
  live_of_alive (fun s => (s.takeMsg m).onRelease m) ha

theorem exec_queuedLong_of_alive (g : BitVec 12) (k : Word) (ha : s.alive = true) :
    exec (.queuedLong g k) s = .next (s.queuedLong g k) :=
  live_of_alive (fun s => s.queuedLong g k) ha

/-- The record as a RESERVE of round `round` finds it: QUEUED, with the operands of the message. -/
def Coll.reserved (c : Coll) (aw : List Word) (round : BitVec 16) : Coll := { c.inRound round with aw := aw, st := .queued }

theorem State.onReserve_of_corrupt {aw awN : List Word} (hb : m.body = .reserve aw awN) (hn : awN ≠ compl aw) :
    s.onReserve m = s.report m.group m.seq 2 4 0 := by
  unfold State.onReserve
  rw [hb]
  exact if_pos hn

theorem State.onReserve_of_clean {aw : List Word} (hb : m.body = .reserve aw (compl aw)) :
    s.onReserve m = s.reserveHere m.group m.seq aw m.round m.level := by
  unfold State.onReserve
  rw [hb]
  exact if_neg (not_not_intro rfl)

/-- R230: the first chain of the message that the round has not reached; with the first of all the die takes its resources. -/
theorem State.reserveHere_of_chain {aw : List Word} {round : BitVec 16} {level : Nat} {ch : Chain} {l : List Chain}
    (hset : (s.recOf g k).settled = false)
    (hch : (s.fromAbove g ((s.recOf g k).reserved aw round).rd level).filter
      (fun x => !((s.recOf g k).reserved aw round).resv.contains x.id) = ch :: l) :
    s.reserveHere g k aw round level =
      (if ((s.recOf g k).reserved aw round).resv = [] then s.retake ((s.recOf g k).reserved aw round)
       else s.putColl ((s.recOf g k).reserved aw round)).reserveChain g k ch := by
  unfold Coll.reserved at hch ⊢
  unfold State.reserveHere
  dsimp only at hch ⊢
  rw [if_neg (by rw [hset]; exact Bool.false_ne_true), hch]

theorem State.recOf_reserved_name (s : State) (g : BitVec 12) (k : Word) (aw : List Word) (round : BitVec 16) :
    ((s.recOf g k).reserved aw round).g = g ∧ ((s.recOf g k).reserved aw round).k = k := by
  obtain ⟨hg, hk, -, -⟩ := (s.recOf g k).inRound_fields round
  obtain ⟨hgr, hkr⟩ := s.recOf_name g k
  exact ⟨hg.trans hgr, hk.trans hkr⟩

theorem State.reserveChain_adm (s : State) (g : BitVec 12) (k : Word) (ch : Chain) : (s.reserveChain g k ch).adm = s.adm :=
  (State.reserveChain_only (w := [.gst, .colls, .stakes, .vc0]) .refl g k ch).adm (by decide)

/-- R230: with the first chain of the round the die takes all or nothing. -/
theorem State.retake_reserveChain (s : State) {d : Coll} (hg : d.g = g) (hk : d.k = k) (ch : Chain) :
    ∃ c', ((s.retake d).reserveChain g k ch).coll? g k = some c' ∧ c'.st = d.st ∧ c'.round = d.round ∧ c'.aw = d.aw
      ∧ c'.members = d.members ∧ c'.holds = (s.putColl d.untaken).fits d.untaken := by
  subst hg hk
  exact State.reserveChain_coll (s.retake_coll d) ch

/-- With a further chain of the round the die takes nothing more. -/
theorem State.putColl_reserveChain (s : State) {d : Coll} (hg : d.g = g) (hk : d.k = k) (ch : Chain) :
    ∃ c', ((s.putColl d).reserveChain g k ch).coll? g k = some c' ∧ c'.st = d.st ∧ c'.round = d.round ∧ c'.aw = d.aw
      ∧ c'.members = d.members ∧ c'.holds = d.holds := by
  subst hg hk
  exact State.reserveChain_coll (s.putColl_coll_same d) ch

/-- R232, R233: the next round of the first collective of its group starts with a RESERVE to the root die. -/
theorem State.startRound_of_first (hc : s.coll? g k = some c) (hst : c.st = .queued) (hhome : (s.group g).home = s.own)
    (hd : c.decided = none) (hb : c.b = 0) (hp : c.passed = false) (hfirst : s.firstOf g k = true) (hheld : s.groupHeld g = false)
    (hnew : c.started = false) :
    s.startRound g k = (s.onColl g k (fun c => { c.inRound (c.round + 1) with started := true })).send c.rd g k
      (.reserve c.aw (compl c.aw)) (c.round + 1) := by
  unfold State.startRound
  rw [hc]
  exact if_neg (by simp [hst, hhome, hd, hb, hp, hfirst, hheld, hnew])

/-- What RELEASE leaves of a record: what the round took over the chain `i` is given back. -/
def Coll.givenBack (c : Coll) (i : Nat) : Coll :=
  { c with
    holds := false, rep := none, kids := [], reps := [], tried := [], resv := c.resv.filter (fun j => decide (j ≠ i))
    v1ref := if c.resv.contains i then c.v1ref else [] }

/-- A die with a member of the group keeps its record. -/
theorem State.dropIf_of_member (h : (s.group g).memDie s.own = true) (k : Word) : s.dropIf g k = s := by
  unfold State.dropIf
  cases s.coll? g k with
  | none => rfl
  | some c => exact if_pos (.inl (by unfold State.inTree; rw [h, Bool.true_or]))

/-- RELEASE goes on below a chain, and the chain gives back what it took (Table PR-7). -/
def State.releaseChain (s : State) (g : BitVec 12) (k : Word) (rd : Nat) (round : BitVec 16) (ch : Chain) : State :=
  (s.sendDown ((s.kidsOf (s.group g) rd ch).filter (fun x => s.canReach x.2.2)) g k .release round).onColl g k
    (fun c => c.givenBack ch.id)

theorem State.releaseChain_only (s : State) (g : BitVec 12) (k : Word) (rd : Nat) (round : BitVec 16) (ch : Chain) :
    Only [.gst, .colls, .stakes, .vc0] s (s.releaseChain g k rd round ch) :=
  State.onColl_only (State.sendDown_only .refl _ _ _ _ _) _ _ _

theorem State.releaseHere_of_chain {round : BitVec 16} {level : Nat} {ch : Chain} (hc : s.coll? g k = some c)
    (ho : c.isOpen = false) (hr : c.round = round) (hm : (s.group g).memDie s.own = true)
    (hch : s.fromAbove g c.rd level = [ch]) :
    s.releaseHere g k round level = s.releaseChain g k c.rd round ch := by
  have hkeep : ((s.releaseChain g k c.rd round ch).group g).memDie (s.releaseChain g k c.rd round ch).own = true := by
    have honly := s.releaseChain_only g k c.rd round ch
    rw [State.group_of (honly.img (by decide)), State.own_of (honly.wl (by decide)), hm]
  have hnot : ¬(c.isOpen = true ∨ c.round ≠ round) := by simp [ho, hr]
  unfold State.releaseHere
  rw [hc]
  dsimp only
  rw [if_neg hnot, hch]
  exact State.dropIf_of_member hkeep k

theorem State.releaseChain_core (hc : s.coll? g k = some c) (rd : Nat) (round : BitVec 16) (ch : Chain) :
    ((s.releaseChain g k rd round ch).coll? g k).map Coll.core = some (c.core.givenBack ch.id) := by
  obtain ⟨c', hc', he⟩ := (State.sendDown_core s ((s.kidsOf (s.group g) rd ch).filter (fun x => s.canReach x.2.2)) g k
    .release round).some hc
  unfold State.releaseChain
  rw [State.onColl_coll_of_some hc' rfl rfl, ← he]
  rfl

/-- The entry of a collective that has been QUEUED for 2^20 ns (Table ER-2). -/
def queuedLongEntry (g : BitVec 12) (k : Word) : LogEntry := { LogEntry.zero with v := true, code := 0x0F, group := g, arg0 := k }

theorem State.logEv_queuedLong (s : State) (g : BitVec 12) (k : Word) :
    s.logEv 0x0F 0 0 0 k.toNat 0 g = s.logged (queuedLongEntry g k) := by
  rw [← State.logWrite_eq_logged]
  unfold State.logEv
  rw [BitVec.ofNat_toNat, BitVec.setWidth_eq]
  rfl

/-- R232, R117: QUEUED_LONG acts once, and not while the group is suspended. -/
theorem State.queuedLong_of_quiet {x : BitVec 64} (hc : s.coll? g k = some c) (hq : c.qStart = some x)
    (h : c.qLong = true ∨ s.groupHeld g = true) : s.queuedLong g k = s := by
  unfold State.queuedLong
  rw [hc]
  dsimp only
  rw [hq]
  exact if_neg (fun ⟨_, hlong, _, hheld, _⟩ => by simp [hlong, hheld] at h)

theorem State.queuedLong_of_due {x : BitVec 64} (hc : s.coll? g k = some c) (hq : c.qStart = some x) (hst : c.st = .queued)
    (hhome : (s.group g).home = s.own) (hx : s.reached (x + 0x100000#64) = true) (hl : c.qLong = false)
    (hh : s.groupHeld g = false) :
    s.queuedLong g k = { (s.logged (queuedLongEntry g k)).onColl g k (fun c => { c with qLong := true }) with
      adm := { s.adm with longq := satInc s.adm.longq } } := by
  have hadm : ((s.logged (queuedLongEntry g k)).onColl g k (fun c => { c with qLong := true })).adm = s.adm :=
    (State.onColl_only (w := [.colls]) .refl _ _ _).adm (by decide)
  unfold State.queuedLong
  rw [hc]
  dsimp only
  rw [hq]
  dsimp only
  rw [if_pos ⟨hst, hl, hhome, hh, hx⟩, State.logEv_queuedLong, hadm]

/-- Settles O23: RESERVE by `State.retake_reserveChain` and `State.putColl_reserveChain`, RESERVE_RETRY by
`State.startRound_of_first`, RELEASE by `State.releaseHere_of_chain`, QUEUED_LONG by `State.queuedLong_of_due`. -/
theorem reserveRounds : Obligations.ReserveRounds := by
  unfold Obligations.ReserveRounds
  refine ⟨?reserve, ?retry, ?release, ?long⟩
  case reserve =>
    rintro s m aw awN c0 c1 c2 ch l ha hb rfl rfl rfl
    refine ⟨?_, fun hn hdec => ?_⟩
    · rintro rfl hset hch
      obtain ⟨hg, hk⟩ := State.recOf_reserved_name s m.group m.seq aw m.round
      obtain ⟨-, -, hmem, hround⟩ := (s.recOf m.group m.seq).inRound_fields m.round
      have hhere := State.reserveHere_of_chain (s := s.takeMsg m) (g := m.group) (k := m.seq) (aw := aw) (round := m.round)
        (level := m.level) hset (by rw [State.fromAbove_takeMsg]; exact hch)
      have hexec := (exec_reserve_of_alive m ha).trans (congrArg _ (State.onReserve_of_clean (s := s.takeMsg m) hb))
      have hrec : (s.takeMsg m).recOf m.group m.seq = s.recOf m.group m.seq := rfl
      rw [hhere, hrec] at hexec
      by_cases hfirst : ((s.recOf m.group m.seq).reserved aw m.round).resv = []
      · obtain ⟨c', hc', hst, hr, haw, hm, hholds⟩ := (s.takeMsg m).retake_reserveChain hg hk ch
        rw [if_pos hfirst] at hexec
        exact ⟨_, c', hexec, hc', hst, hr.trans hround, haw, hm.trans hmem,
          fun _ => ⟨hholds, (State.reserveChain_adm _ _ _ _).trans (State.retake_adm _ _)⟩, fun hne => absurd hfirst hne⟩
      · obtain ⟨c', hc', hst, hr, haw, hm, hholds⟩ := (s.takeMsg m).putColl_reserveChain hg hk ch
        rw [if_neg hfirst] at hexec
        exact ⟨_, c', hexec, hc', hst, hr.trans hround, haw, hm.trans hmem, fun he => absurd he hfirst,
          fun _ => ⟨hholds, State.reserveChain_adm _ _ _ _⟩⟩
    · rw [exec_reserve_of_alive m ha, State.onReserve_of_corrupt hb hn, State.report_of_decider (s := s.takeMsg m) hdec]
      rfl
  case retry =>
    intro s g k c ha hc hst hhome hd hb hp hfirst hheld hnew _
    obtain ⟨hg, hk, -, -⟩ := c.inRound_fields (c.round + 1)
    refine ⟨_, (exec_reserveRetry_of_alive g k ha).trans
      (congrArg _ (State.startRound_of_first hc hst hhome hd hb hp hfirst hheld hnew)), ?_, fun hroot => ?_⟩
    · exact (State.send_core _ _ _ _ _ _).core_eq (State.onColl_coll_of_some hc hg hk)
    · have honly := State.onColl_only (w := [.colls]) (s := s) .refl g k
        (fun c => { c.inRound (c.round + 1) with started := true })
      rw [State.send_own (hroot.trans (State.own_of (honly.wl (by decide))).symm), State.post, honly.vc0 (by decide),
        honly.wl (by decide)]
  case release =>
    intro s m c ch ha hb hc ho hr hm hch
    refine ⟨_, exec_releaseReservation_of_alive m ha, ?_⟩
    have hhere : (s.takeMsg m).onRelease m = (s.takeMsg m).releaseHere m.group m.seq m.round m.level := by
      unfold State.onRelease
      rw [hb]
    rw [hhere, State.releaseHere_of_chain (s := s.takeMsg m) hc ho hr hm (by rw [State.fromAbove_takeMsg]; exact hch)]
    exact State.releaseChain_core (s := s.takeMsg m) hc _ _ _
  case long =>
    intro s g k c x hs ha hc hq hst hhome hx
    refine ⟨fun hquiet => ?_, fun hl hh => ?_⟩
    · rw [exec_queuedLong_of_alive g k ha, State.queuedLong_of_quiet hc hq hquiet]
    · refine ⟨_, (exec_queuedLong_of_alive g k ha).trans (congrArg _ (State.queuedLong_of_due hc hq hst hhome hx hl hh)),
        State.onColl_coll_of_some (s := s.logged (queuedLongEntry g k)) hc rfl rfl, rfl, fun hroom => ?_⟩
      have hgst : ((s.logged (queuedLongEntry g k)).onColl g k (fun c => { c with qLong := true })).gst
          = (s.logWrite (queuedLongEntry g k)).gst := (State.onColl_only (w := [.colls]) .refl _ _ _).gst (by decide)
      exact (congrArg (fun x : Gst => mget LogEntry.zero x.log (s.gst.logWr.toNat % 64)) hgst).trans (State.logWrite_log hs hroom _)

end Sys2Proof.Machine

/-! PROOFS. ADMIT and LAUNCH_FIRE (R100, R234): the time of admission at a die. -/

namespace Sys2Proof.Machine

variable {q : Nat → Bool} {s t : State} {m : Msg} {g : BitVec 12} {k : Word} {c : Coll}

theorem exec_admission_of_alive (m : Msg) (ha : s.alive = true) : exec (.admission m) s = .next ((s.takeMsg m).onAdmit m).settle :=
  live_of_alive (fun s => ((s.takeMsg m).onAdmit m).settle) ha

theorem exec_launchFire_of_alive (g : BitVec 12) (k : Word) (ha : s.alive = true) :
    exec (.launchFire g k) s = .next (s.openTry g k).settle :=
  live_of_alive (fun s => (s.openTry g k).settle) ha

/-- R117, R234: before its T_ADM, or while its group is suspended, a collective does not open. -/
theorem State.openTry_of_waiting (hc : s.coll? g k = some c) (h : s.reached c.tAdm = false ∨ s.groupHeld g = true) :
    s.openTry g k = s := by
  unfold State.openTry
  rw [hc]
  exact if_neg (fun ⟨_, _, _, hreached, hheld⟩ => by simp [hreached, hheld] at h)

theorem State.openTry_of_due (hc : s.coll? g k = some c) (hst : c.st = .queued) (hb : c.b ≠ 0) (hd : c.decided = none)
    (hr : s.reached c.tAdm = true) (hh : s.groupHeld g = false) : s.openTry g k = s.openColl g k := by
  unfold State.openTry
  rw [hc]
  exact if_pos ⟨hst, hb, by rw [hd]; rfl, hr, hh⟩

/-! ### ADMIT is recorded (R234) -/

/-- A change of every record that keeps the names, and leaves this record alone. -/
theorem find_is_map (f : Coll → Coll) (hf : ∀ x, (f x).is g k = x.is g k) (hfc : f c = c) {l : List Coll}
    (h : l.find? (fun x => x.is g k) = some c) : (l.map f).find? (fun x => x.is g k) = some c := by
  have hp : (fun x : Coll => x.is g k) ∘ f = fun x => x.is g k := funext hf
  rw [List.find?_map, hp, h, Option.map_some, hfc]

/-- R224: the charge of a VC1 collective counts against those of VC2 and VC3, so its own record is as it was. -/
theorem State.chargeVc1_coll (hc : s.coll? g k = some c) : (s.chargeVc1 c).coll? g k = some c := by
  unfold State.chargeVc1
  split
  · rename_i hvc
    have hkeep (l : List Nat) (t : State) (ht : t.coll? g k = some c) :
        (l.foldl (fun t n => { t with colls := t.colls.map (fun x =>
          if x.holds && decide (x.b ≠ 0) && decide (2 ≤ s.vcOf x) && (s.stakeSet x).contains n then
            { x with v1since := mput 0 x.v1since n (mget 0 x.v1since n + s.chargeOn c n) } else x) }) t).coll? g k = some c := by
      induction l generalizing t with
      | nil => exact ht
      | cons n l ih =>
        refine ih _ (find_is_map _ (fun x => ?_) ?_ ht)
        · split <;> rfl
        · rw [if_neg (by simp [hvc])]
    exact hkeep _ s hc
  · exact hc

/-- The record with the values of ADMIT. -/
def Coll.admitted (c : Coll) (tm d : BitVec 64) (b : Nat) : Coll := { c with tAdm := tm, dl := d, b := b, v1since := [], v1ref := [] }

theorem State.admitOne_of_waiting {tm d : BitVec 64} {b : Nat} (hc : s.coll? g k = some c) (hst : c.st = .queued) (hb : c.b = 0)
    (h : s.reached tm = false ∨ s.groupHeld g = true) :
    (s.admitOne g k tm d b).coll? g k = some (c.admitted tm d b) ∧ Only [.colls] s (s.admitOne g k tm d b) := by
  have hput : (s.onColl g k (fun c => c.admitted tm d b)).coll? g k = some (c.admitted tm d b) :=
    State.onColl_coll_of_some hc rfl rfl
  have hcharge := State.chargeVc1_coll hput
  have honly : Only [.colls] s ((s.onColl g k (fun c => c.admitted tm d b)).chargeVc1 (c.admitted tm d b)) :=
    State.chargeVc1_only (State.onColl_only .refl _ _ _) _
  have hopen := State.openTry_of_waiting hcharge (by
    rwa [State.reached_of (honly.time (by decide)), State.groupHeld_of (honly.col (by decide))])
  have heq : s.admitOne g k tm d b = (s.onColl g k (fun c => c.admitted tm d b)).chargeVc1 (c.admitted tm d b) := by
    unfold State.admitOne
    rw [State.coll_of_some hc]
    dsimp only
    rw [if_neg (by simp [hst, hb]), ← hopen]
    exact congrArg (fun x => State.openTry (State.chargeVc1 _ x) g k) (State.coll_of_some hput)
  rw [heq]
  exact ⟨hcharge, honly⟩

/-- ADMIT goes on below the chains of this die that it addresses. -/
def State.admitDown (s : State) (g : BitVec 12) (k : Word) (rd : Nat) (b : Body) (round : BitVec 16) (l : List Chain) : State :=
  l.foldl (fun u ch => u.sendDown (u.kidsOf (u.group g) rd ch) g k b round) s

theorem State.admitDown_core (s : State) (g : BitVec 12) (k : Word) (rd : Nat) (b : Body) (round : BitVec 16) (l : List Chain) :
    SameCore s (s.admitDown g k rd b round l) :=
  SameCore.foldl .refl _ _ (fun _ _ h => h.trans (State.sendDown_core _ _ _ _ _ _))

theorem State.admitDown_only (s : State) (g : BitVec 12) (k : Word) (rd : Nat) (b : Body) (round : BitVec 16) (l : List Chain) :
    Only [.gst, .colls, .stakes, .vc0] s (s.admitDown g k rd b round l) :=
  Only.foldl .refl _ _ (fun _ _ h => State.sendDown_only h _ _ _ _ _)

theorem State.admitHere_of_round {tm d : BitVec 64} {b : Nat} {round : BitVec 16} {level : Nat} (hc : s.coll? g k = some c)
    (hst : c.st = .queued) (hd : c.decided = none) (hr : c.round = round) :
    s.admitHere g k tm d b round level =
      (s.admitDown g k c.rd (.admission tm d b) round (s.fromAbove g c.rd level)).admitOne g k tm d b := by
  unfold State.admitHere
  rw [hc]
  exact if_neg (by simp [hst, hd, hr])

/-- R234: before T_ADM, or while the group is suspended, ADMIT is recorded and nothing is offered at a core port. -/
theorem State.admitHere_of_waiting {tm d : BitVec 64} {b : Nat} {round : BitVec 16} {level : Nat} (hc : s.coll? g k = some c)
    (hst : c.st = .queued) (hb : c.b = 0) (hd : c.decided = none) (hr : c.round = round)
    (h : s.reached tm = false ∨ s.groupHeld g = true) :
    ((s.admitHere g k tm d b round level).coll? g k).map Coll.core = some (c.core.admitted tm d b)
      ∧ (s.admitHere g k tm d b round level).ports = s.ports := by
  have honly := s.admitDown_only g k c.rd (.admission tm d b) round (s.fromAbove g c.rd level)
  obtain ⟨c', hc', hcore⟩ := (s.admitDown_core g k c.rd (.admission tm d b) round (s.fromAbove g c.rd level)).some hc
  obtain ⟨hrec, hcolls⟩ := State.admitOne_of_waiting (d := d) (b := b) hc' ((congrArg Coll.st hcore :).trans hst)
    ((congrArg Coll.b hcore :).trans hb) (by
      rwa [State.reached_of (honly.time (by decide)), State.groupHeld_of (honly.col (by decide))])
  rw [State.admitHere_of_round hc hst hd hr, hrec, ← hcore]
  exact ⟨rfl, (hcolls.ports (by decide)).trans (honly.ports (by decide))⟩

/-! ### The opening (R100) -/

/-- A status that a port offers is not withdrawn. -/
theorem Keeps.mem_stq (h : Keeps q s t) (hs : s.canon) {cp : Nat} {x : Status} (hx : x ∈ (s.port cp).stq) : x ∈ (t.port cp).stq :=
  (h.ports hs cp).stq.subset hx

/-- ADMITTED of the collective of group `g` that has the number `k` at its member (Table PI-15). -/
def admittedStatus (g : BitVec 12) (k : Word) : Status := ⟨1, g, k, true, false⟩

theorem State.status_admitted (hs : s.canon) (cp : Nat) (g : BitVec 12) (k : Word) :
    admittedStatus g k ∈ ((s.status cp 1 g k true).port cp).stq := by
  unfold State.status
  rw [State.onPort_port_same hs]
  exact List.mem_append_right _ List.mem_cons_self

/-- What starts a member after its ADMITTED withdraws nothing at the ports. -/
theorem State.status_startMember_keeps (s : State) (g : BitVec 12) (k : Word) (x : Member) :
    Keeps q (s.status x.cp 1 g x.k true) (s.startMember g k x) := by
  have hs2 : Keeps q (s.status x.cp 1 g x.k true) (if (s.coll g k).supplies s.own x = true then s.status x.cp 1 g x.k true
      else (s.status x.cp 1 g x.k true).onColl g k
        (fun c => c.onMember x.cp (fun m => { m with fpDone := true, ex := { m.ex with fin := true, part := 2 } }))) := by
    split
    · exact .refl
    · exact Keeps.onColl .refl _ _ _
  unfold State.startMember
  dsimp only
  split
  · split
    · exact State.passSteps_keeps (State.passMarkers_keeps (State.forward_keeps hs2 _ _ _ _) _ _ _) _ _ _
    · exact State.passMarkers_keeps (State.forward_keeps hs2 _ _ _ _) _ _ _
  · split
    · exact State.forward_keeps hs2 _ _ _ _
    · exact hs2

theorem State.startMember_admitted (hs : s.canon) (g : BitVec 12) (k : Word) (x : Member) :
    admittedStatus g x.k ∈ ((s.startMember g k x).port x.cp).stq :=
  (s.status_startMember_keeps (q := fun _ => false) g k x).mem_stq
    ((State.status_keeps (q := fun _ => false) .refl _ _ _ _ _ _).canon hs) (s.status_admitted hs x.cp g x.k)

theorem State.startMembers_admitted (hs : s.canon) (g : BitVec 12) (k : Word) (l : List Member) :
    ∀ x ∈ l, admittedStatus g x.k ∈ ((l.foldl (fun t m => t.startMember g k m) s).port x.cp).stq := by
  induction l generalizing s with
  | nil => exact fun x hx => absurd hx List.not_mem_nil
  | cons y l ih =>
    have hy : (s.startMember g k y).canon := (State.startMember_keeps (q := fun _ => false) .refl g k y).canon hs
    intro x hx
    rcases List.mem_cons.mp hx with rfl | hx
    · have hrest : Keeps (fun _ => false) (s.startMember g k x) (l.foldl (fun t m => t.startMember g k m) (s.startMember g k x)) :=
        Keeps.foldl .refl _ _ (fun _ _ h => State.startMember_keeps h _ _ _)
      exact hrest.mem_stq hy (s.startMember_admitted hs g k x)
    · exact ih hy x hx

theorem State.startMembers_push_admitted (hs : s.canon) (g : BitVec 12) (k : Word) (l : List Member) :
    ∀ x ∈ l, admittedStatus g x.k ∈ (((l.foldl (fun t m => t.startMember g k m) s).push g k).port x.cp).stq := by
  have hstarts : Keeps (fun _ => false) s (l.foldl (fun t m => t.startMember g k m) s) :=
    Keeps.foldl .refl _ _ (fun _ _ h => State.startMember_keeps h _ _ _)
  exact fun x hx => (State.push_keeps (q := fun _ => false) .refl g k).mem_stq (hstarts.canon hs)
    (State.startMembers_admitted hs g k l x hx)

/-- R100: each member of this die receives ADMITTED with its own SEQ. -/
theorem State.openColl_admitted (hs : s.canon) (hc : s.coll? g k = some c) :
    ∀ x ∈ c.members, admittedStatus g x.k ∈ ((s.openColl g k).port x.cp).stq := by
  unfold State.openColl
  rw [State.coll_of_some hc]
  refine State.startMembers_push_admitted (Still.canon (s := s) ?_ hs) g k c.members
  exact (State.activate_keeps (q := fun _ => false) (Keeps.setTrap (Keeps.onColl .refl g k _) _ _) g k).toStill

/-- Settles O25: an ADMIT that waits is recorded by `State.admitHere_of_waiting`; LAUNCH_FIRE opens by `State.openTry_of_due`, and
`State.openColl_admitted` gives the statuses. -/
theorem admissionOpensAtItsTime : Obligations.AdmissionOpensAtItsTime := by
  unfold Obligations.AdmissionOpensAtItsTime
  refine ⟨fun s m c tm d b ha hb hc hst hb0 hd hr hwait => ?_, fun s g k c hs ha hc hst =>
    ⟨fun hwait => ?_, fun hb hd hreached hheld => ?_⟩⟩
  · have hhere : (s.takeMsg m).onAdmit m = (s.takeMsg m).admitHere m.group m.seq tm d b m.round m.level := by
      unfold State.onAdmit
      rw [hb]
    obtain ⟨hrec, hports⟩ := State.admitHere_of_waiting (s := s.takeMsg m) (d := d) (b := b) (level := m.level) hc hst hb0 hd hr
      hwait
    rw [← hhere] at hrec hports
    exact ⟨_, exec_admission_of_alive m ha, hrec, hports⟩
  · rw [exec_launchFire_of_alive g k ha, State.openTry_of_waiting hc hwait]
  · have hopen : Keeps (fun _ => false) s (s.openColl g k) := State.openColl_keeps .refl g k
    have hcanon := hopen.canon hs
    refine ⟨(s.openColl g k).settle, ?_, fun x hx => (State.settle_keeps hcanon).mem_stq hcanon (State.openColl_admitted hs hc x hx),
      (hopen.settle hs).frame hs⟩
    rw [exec_launchFire_of_alive g k ha, State.openTry_of_due hc hst hb hd hreached hheld]

end Sys2Proof.Machine

/-! PROOFS. The report of the whole tree (R231) with a stake down: the abort record goes to the update port, and where two records
of one name stand at the home die, what the port emits for the second is written over the first. -/

namespace Sys2Proof.Machine

/-- A QUEUED collective in a round, whose home member has decided admission, and that delivers to the update port (DEST 1). -/
def reportedColl : Coll :=
  { Coll.zero with st := .queued, started := true, passed := true, aw := [0, 0, 0x04000000], tAdm := 1 }

/-- An ended record of the same name, admitted before it, whose seal waits for the update port. -/
def sealedColl : Coll := { Coll.zero with st := .ended, updQ := [⟨1, []⟩] }

/-- A running block at die 0, the home die of group 0 and the root of the collective, that holds both records. -/
def twinState : State := { State.reset with inReset := false, colls := [reportedColl, sealedColl] }

/-- A report of the whole tree, from the root die, with a stake down. -/
def downReport : Report := ⟨false, true, 0, 0, 1, 0, 1, 0, []⟩

def downMsg : Msg := ⟨0, 0, 0, 0, 0, 0, .report downReport⟩

theorem exec_reserveReport_of_alive {s : State} (m : Msg) (ha : s.alive = true) :
    exec (.reserveReport m) s = .next ((s.takeMsg m).onReport m) :=
  live_of_alive (fun s => (s.takeMsg m).onReport m) ha

/-- The port emits the waiting seal, as the record of the earlier admission; that ended record then stands under the name. -/
theorem twinState_report_st : (((twinState.takeMsg downMsg).onReport downMsg).coll? 0 0).map (fun c => c.st) = some .ended := by
  decide +kernel

/-- Refutes O24: with a stake down the record that the home die finds after the report is `sealedColl` without its seal, which
is not QUEUED. The statement does not ask that no two records have one name. -/
theorem not_reserveReportDecides : ¬ Obligations.ReserveReportDecides := by
  unfold Obligations.ReserveReportDecides
  intro h
  obtain ⟨t, c', hexec, hc', hst, -⟩ := h twinState downMsg downReport reportedColl _ _ rfl rfl rfl rfl rfl rfl rfl rfl
    (by decide) rfl rfl rfl
  have ht : (twinState.takeMsg downMsg).onReport downMsg = t :=
    Host.Outcome.next.inj ((exec_reserveReport_of_alive downMsg rfl).symm.trans hexec)
  have hended : some c'.st = some CSt.ended := by
    rw [← twinState_report_st, ht]
    exact (congrArg (Option.map (fun c => c.st)) hc').symm
  rw [hst] at hended
  exact absurd hended (by decide)

end Sys2Proof.Machine

/-! SUPPORT. Hoops (spec/10): what the operations of the hoop store leave in the hoop and at its owner's core port, and what of it
stands once the work that follows a command is done. -/

namespace Sys2Proof.Machine

section
variable {w : List Fld} {s t : State}

theorem Only.hoop_eq (h : Only w s t) (hw : Fld.hoops ∉ w) (i : Nat) : t.hoop i = s.hoop i := by
  unfold State.hoop
  rw [h.hoops hw]

theorem Only.port_eq (h : Only w s t) (hw : Fld.ports ∉ w) (i : Nat) : t.port i = s.port i := by
  unfold State.port
  rw [h.ports hw]

end

/-! ### A hoop enters FAULT (R283) -/

section
variable {s : State}

/-- A hoop in FAULT by R283, on which no WAIT is pending any more. -/
def Hoop.faulted (h : Hoop) : Hoop := { h with st := .fault, waiting := false }

/-- Besides the hoop itself, R283 writes the log, ATTN and the status of a pending WAIT. -/
theorem State.hoopFault_only_setHoop (s : State) (i : Nat) : Only [.gst, .ports] (s.setHoop i (s.hoop i).faulted) (s.hoopFault i) := by
  have h := State.attn_only (w := [.gst, .ports])
    (State.logEv_only (s := s.setHoop i (s.hoop i).faulted) .refl 0x15 6 2 i
      ((s.hoop i).target.toNat + pl (s.hoop i).targetN.toNat 16) 0) 2
  unfold State.hoopFault
  split
  · exact State.endWait_only h _ _
  · exact h

theorem State.hoopFault_hoop (hs : s.canon) (i j : Nat) :
    (s.hoopFault i).hoop j = if j = i then (s.hoop i).faulted else s.hoop j := by
  rw [(s.hoopFault_only_setHoop i).hoop_eq (by decide), s.setHoop_hoop_read hs]

theorem State.attn_getLsbD_two (s : State) : (s.attn 2).gst.attn.getLsbD 2 = true := by
  simp [State.attn]

theorem State.hoopFault_attn (s : State) (i : Nat) : (s.hoopFault i).gst.attn.getLsbD 2 = true := by
  unfold State.hoopFault
  split
  · rw [(State.endWait_only (w := [.ports]) .refl _ _).gst (by decide)]
    exact State.attn_getLsbD_two _
  · exact State.attn_getLsbD_two _

theorem State.hoopFault_port (i j : Nat) (h : s.waitsOn i = false) : (s.hoopFault i).port j = s.port j := by
  have ho : Only [.gst, .hoops] s (s.hoopFault i) := by
    unfold State.hoopFault
    rw [if_neg (by simp [h])]
    exact State.attn_only (State.logEv_only (State.setHoop_only .refl _ _) _ _ _ _ _ _) _
  exact ho.port_eq (by decide) j

theorem State.waitsOn_of_wait_none {i : Nat} (h : (s.port (i / 48)).wait = none) : s.waitsOn i = false := by
  unfold State.waitsOn
  rw [h]

end

/-! ### A change of one hoop -/

/-- The port offers one more status. -/
def Port.offer (p : Port) (x : Status) : Port := { p with stq := p.stq ++ [x] }

/-- From `s` to `u` hoop `i`, which core port `cp` owns, has come to hold `h`, and the port `p`. The other hoops of the port are as they
were, and the frame that the statements use is kept. -/
structure HoopStep (s u : State) (cp i : Nat) (h : Hoop) (p : Port) : Prop where
  owner : i / 48 = cp
  keeps : Keeps (fun j => decide (j = cp)) s u
  hoop : u.hoop i = h
  port : u.port cp = p
  others : ∀ j, j / 48 = cp → j ≠ i → u.hoop j = s.hoop j

namespace HoopStep

variable {s u v : State} {cp i : Nat} {h : Hoop} {p : Port}

theorem refl (hi : i / 48 = cp) : HoopStep s s cp i (s.hoop i) (s.port cp) := ⟨hi, .refl, rfl, rfl, fun _ _ _ => rfl⟩

/-- A change of components that hold neither hoops nor ports. -/
theorem next {w : List Fld} (k : HoopStep s u cp i h p) (hk : Keeps (fun j => decide (j = cp)) u v) (ho : Only w u v)
    (hh : Fld.hoops ∉ w) (hp : Fld.ports ∉ w) : HoopStep s v cp i h p where
  owner := k.owner
  keeps := k.keeps.trans hk
  hoop := (ho.hoop_eq hh i).trans k.hoop
  port := (ho.port_eq hp cp).trans k.port
  others := fun j hj hne => (ho.hoop_eq hh j).trans (k.others j hj hne)

theorem waitsOn (k : HoopStep s u cp i h p) (hp : p.wait = (s.port cp).wait) : u.waitsOn i = s.waitsOn i := by
  unfold State.waitsOn
  rw [k.owner, k.port, hp]

section
variable (hs : s.canon)
include hs

theorem setHoop (k : HoopStep s u cp i h p) (x : Hoop) : HoopStep s (u.setHoop i x) cp i x p where
  owner := k.owner
  keeps := k.keeps.setHoop i x (decide_eq_true k.owner)
  hoop := by rw [u.setHoop_hoop_read (k.keeps.canon hs), if_pos rfl]
  port := k.port
  others := fun j hj hne => by rw [u.setHoop_hoop_read (k.keeps.canon hs), if_neg hne, k.others j hj hne]

theorem fault (k : HoopStep s u cp i h p) (hw : p.wait = none) : HoopStep s (u.hoopFault i) cp i h.faulted p where
  owner := k.owner
  keeps := State.hoopFault_keeps k.keeps i (decide_eq_true k.owner)
  hoop := by rw [State.hoopFault_hoop (k.keeps.canon hs), if_pos rfl, k.hoop]
  port := by
    have hn : (u.port (i / 48)).wait = none := by rw [k.owner, k.port, hw]
    rw [State.hoopFault_port _ _ (State.waitsOn_of_wait_none hn), k.port]
  others := fun j hj hne => by rw [State.hoopFault_hoop (k.keeps.canon hs), if_neg hne, k.others j hj hne]

theorem status (k : HoopStep s u cp i h p) (c code : Nat) (a : Word) :
    HoopStep s (u.status c code 0 a) cp i h (if cp = c then p.offer ⟨BitVec.ofNat 4 code, 0, a, false, false⟩ else p) where
  owner := k.owner
  keeps := State.status_keeps k.keeps _ _ _ _ _ _
  hoop := k.hoop
  port := by
    unfold State.status
    rw [State.onPort_eq, u.setPort_port_read (k.keeps.canon hs)]
    by_cases hc : cp = c
    · subst hc
      rw [if_pos rfl, if_pos rfl, k.port]
      rfl
    · rw [if_neg hc, if_neg hc, k.port]
  others := k.others

theorem answer (k : HoopStep s u cp i h p) (code : Nat) (a : Word) :
    HoopStep s (u.status cp code 0 a) cp i h (p.offer ⟨BitVec.ofNat 4 code, 0, a, false, false⟩) := by
  have := k.status hs cp code a
  rwa [if_pos rfl] at this

/-- No command waits at the owner's port: what follows leaves its hoops alone and withdraws no status. -/
theorem settle (k : HoopStep s u cp i h p) (hp : p.cmdq = []) :
    u.settle.hoop i = h ∧ p.stq <+: (u.settle.port cp).stq ∧ (∀ j, j / 48 = cp → j ≠ i → u.settle.hoop j = s.hoop j)
      ∧ Frame (fun j => decide (j = cp)) s u.settle := by
  have hu := k.keeps.canon hs
  have hset := State.settle_keeps hu
  have hkeep (j : Nat) (hj : j / 48 = cp) : u.settle.hoop j = u.hoop j :=
    hset.hoops hu j rfl (by rw [hj, k.port, hp])
  refine ⟨(hkeep i k.owner).trans k.hoop, ?_, fun j hj hne => (hkeep j hj).trans (k.others j hj hne), (k.keeps.settle hs).frame hs⟩
  exact k.port ▸ (hset.ports hu cp).stq

end

end HoopStep

/-! ### What the storage code reports (R283, log entry 89) -/

/-- An uncorrectable error takes fields of the hoop, and puts it into FAULT. -/
def Hoop.losing (h : Hoop) (m : BitVec 3) : Hoop :=
  { h with st := .fault, waiting := h.waiting && decide (h.st = .fault), lost := h.lost ||| m }

/-- The hoop once its storage has been read. -/
def Hoop.afterRead (h : Hoop) (ev : StorageEvent) : Hoop := if evUncorr ev then h.losing (evHits ev) else h

theorem Hoop.losing_of_fault {h : Hoop} (m : BitVec 3) (hst : h.st = .fault) : h.losing m = { h with lost := h.lost ||| m } := by
  simp [Hoop.losing, hst]

theorem Hoop.losing_of_not_fault {h : Hoop} (m : BitVec 3) (hst : h.st ≠ .fault) :
    h.losing m = ({ h with lost := h.lost ||| m } : Hoop).faulted := by
  simp [Hoop.losing, Hoop.faulted, hst]

theorem evHits_of_not_uncorr {ev : StorageEvent} (h : evUncorr ev = false) : evHits ev = 0 := by
  cases ev with
  | clean => rfl
  | corrected => rfl
  | uncorrData a => cases h
  | uncorrConfig w a => cases h

section
variable {s : State} {cp i : Nat} (hs : s.canon) (hi : i / 48 = cp) (hw : (s.port cp).wait = none)
include hs hi hw

theorem HoopStep.hoopLost (m : BitVec 3) : HoopStep s (s.hoopLost i m) cp i ((s.hoop i).losing m) (s.port cp) := by
  have k := (HoopStep.refl (s := s) hi).setHoop hs { s.hoop i with lost := (s.hoop i).lost ||| m }
  unfold State.hoopLost
  by_cases hst : (s.hoop i).st = .fault
  · rw [if_pos hst, Hoop.losing_of_fault m hst]
    exact k
  · rw [if_neg hst, Hoop.losing_of_not_fault m hst]
    exact k.fault hs hw

theorem HoopStep.storage (ev : StorageEvent) :
    HoopStep s (s.hoopStorage i ev) cp i ((s.hoop i).afterRead ev) (s.port cp) := by
  cases ev with
  | clean => exact .refl hi
  | corrected => exact (HoopStep.refl hi).next (w := [.gst]) (.corr .refl _) (.put_gst .refl _ rfl) (by decide) (by decide)
  | uncorrData a => exact .hoopLost hs hi hw (a.setWidth 3)
  | uncorrConfig _ a => exact .hoopLost hs hi hw (a.setWidth 3)

end

theorem State.hoopLost_attn {s : State} {i : Nat} (m : BitVec 3) (hst : (s.hoop i).st ≠ .fault) :
    (s.hoopLost i m).gst.attn.getLsbD 2 = true := by
  unfold State.hoopLost
  rw [if_neg hst]
  exact State.hoopFault_attn _ _

theorem State.hoopStorage_attn {s : State} {i : Nat} {ev : StorageEvent} (hev : evUncorr ev = true) (hst : (s.hoop i).st ≠ .fault) :
    (s.hoopStorage i ev).gst.attn.getLsbD 2 = true := by
  cases ev with
  | clean => cases hev
  | corrected => cases hev
  | uncorrData a => exact State.hoopLost_attn _ hst
  | uncorrConfig _ a => exact State.hoopLost_attn _ hst

end Sys2Proof.Machine

/-! PROOFS. Hoop commands at a core port that processes them at once (Tables HP-1 to HP-3): ARM, DISARM and WAIT. -/

namespace Sys2Proof.Machine

theorem State.portReady.alive {s : State} {cp : Nat} (h : s.portReady cp) : s.alive = true := by
  obtain ⟨ha, -, -, -⟩ := h
  exact ha

theorem State.portReady.wait_none {s : State} {cp : Nat} (h : s.portReady cp) : (s.port cp).wait = none := by
  obtain ⟨-, -, hwait, -⟩ := h
  exact hwait

theorem State.portReady.cmdq_nil {s : State} {cp : Nat} (h : s.portReady cp) : (s.port cp).cmdq = [] := by
  obtain ⟨-, -, -, hcmdq⟩ := h
  exact hcmdq

theorem State.command_of_ready {s : State} {cp : Nat} (h : s.portReady cp) (c : PortCmd) (now : State → State) :
    s.command cp c now = (now s).settle := by
  have hblocked : s.cmdBlocked cp = false := by
    obtain ⟨-, hblocked, -, -⟩ := h
    exact hblocked
  unfold State.command
  rw [if_neg (by simp [hblocked]), if_neg (by simp [h.wait_none, h.cmdq_nil])]

/-- ARM, SIGNAL, WAIT and DISARM are one operation of the port, told apart by the command's word. -/
theorem live_command_of_ready {s : State} {cp : Nat} (h : s.portReady cp) (c : PortCmd) (now : State → State) :
    live s (fun s => s.command cp c now) = .next (now s).settle := by
  rw [live_of_alive _ h.alive, State.command_of_ready h]

theorem hcHoop_le_of_good {s : State} {w : Word} (hb : s.hoopBad w = false) : hcHoop w ≤ 47 := by
  simp only [State.hoopBad, Bool.or_eq_false_iff, decide_eq_false_iff_not] at hb
  omega

/-! ### What a command that breaks no rule does, by its opcode -/

/-- The port with a WAIT at the head of its queue: WAIT_GATE waits for WAKE to be low (log entry 88). -/
def Port.stall (p : Port) (x : Waiting) : Port := { p with wait := some x, gate := !p.wake }

/-- R278: a WAIT that finds its hoop not satisfied. -/
def State.stallWait (s : State) (cp i : Nat) (x : Waiting) : State :=
  (s.setHoop i { s.hoop i with waiting := true }).onPort cp (fun p => p.stall x)

section
variable {s t : State} {cp : Nat} {w : Word} {ev : StorageEvent} (hn : s.notReady cp = false) (hb : s.hoopBad w = false)
  (ht : s.hoopStorage (cp * 48 + hcHoop w) ev = t)
include hn hb ht

theorem State.hoopCmd_arm_disarmed (hop : hcOp w = 0) (hok : (t.hoop (cp * 48 + hcHoop w)).ok = true)
    (hst : (t.hoop (cp * 48 + hcHoop w)).st = .disarmed) :
    s.hoopCmd cp w (~~~w) ev =
      (t.setHoop (cp * 48 + hcHoop w) ((t.hoop (cp * 48 + hcHoop w)).arm (hcArg w) (hcMode w))).status cp 8 0
        (hoopArg cp (hcHoop w)) := by
  simp [State.hoopCmd, hn, hb, ht, hop, hok, hst]

theorem State.hoopCmd_arm_conflict (hop : hcOp w = 0)
    (hok : (t.hoop (cp * 48 + hcHoop w)).st = .fault ∨ (t.hoop (cp * 48 + hcHoop w)).ok = true)
    (hst : (t.hoop (cp * 48 + hcHoop w)).st ≠ .disarmed) :
    s.hoopCmd cp w (~~~w) ev = t.status cp 0xD 0 (hoopArg cp (hcHoop w)) := by
  have hgood : ¬((t.hoop (cp * 48 + hcHoop w)).st ≠ .fault ∧ (t.hoop (cp * 48 + hcHoop w)).ok = false) := by
    rcases hok with h | h <;> simp [h]
  simp [State.hoopCmd, hn, hb, ht, hop, hgood, hst]

theorem State.hoopCmd_arm_faults (hop : hcOp w = 0) (hf : (t.hoop (cp * 48 + hcHoop w)).st ≠ .fault)
    (hok : (t.hoop (cp * 48 + hcHoop w)).ok = false)
    (hst : ((t.hoopFault (cp * 48 + hcHoop w)).hoop (cp * 48 + hcHoop w)).st = .fault) :
    s.hoopCmd cp w (~~~w) ev = (t.hoopFault (cp * 48 + hcHoop w)).status cp 0xD 0 (hoopArg cp (hcHoop w)) := by
  simp [State.hoopCmd, hn, hb, ht, hop, hf, hok, hst]

theorem State.hoopCmd_disarm (hop : hcOp w = 3) :
    s.hoopCmd cp w (~~~w) ev =
      (t.setHoop (cp * 48 + hcHoop w) (t.hoop (cp * 48 + hcHoop w)).disarm).status cp 8 0 (hoopArg cp (hcHoop w)) := by
  simp [State.hoopCmd, hn, hb, ht, hop]

theorem State.hoopCmd_wait_not_armed (hop : hcOp w = 2) (hst : (t.hoop (cp * 48 + hcHoop w)).st ≠ .armed) :
    s.hoopCmd cp w (~~~w) ev =
      t.status cp (if (t.hoop (cp * 48 + hcHoop w)).st = .fault then 0xE else 0xD) 0 (hoopArg cp (hcHoop w)) := by
  cases h : (t.hoop (cp * 48 + hcHoop w)).st with
  | disarmed => simp [State.hoopCmd, hn, hb, ht, hop, h]
  | armed => exact absurd h hst
  | fault => simp [State.hoopCmd, hn, hb, ht, hop, h]

theorem State.hoopCmd_wait_releases (hop : hcOp w = 2) (hsat : (t.hoop (cp * 48 + hcHoop w)).sat = true)
    (hok : (t.hoop (cp * 48 + hcHoop w)).ok = true) (hst : (t.hoop (cp * 48 + hcHoop w)).st = .armed) :
    s.hoopCmd cp w (~~~w) ev =
      (t.setHoop (cp * 48 + hcHoop w) (t.hoop (cp * 48 + hcHoop w)).release).status cp 9 0 (hoopArg cp (hcHoop w)) := by
  simp [State.hoopCmd, hn, hb, ht, hop, hst, hsat, hok]

theorem State.hoopCmd_wait_faults (hop : hcOp w = 2) (hsat : (t.hoop (cp * 48 + hcHoop w)).sat = true)
    (hok : (t.hoop (cp * 48 + hcHoop w)).ok = false) (hst : (t.hoop (cp * 48 + hcHoop w)).st = .armed) :
    s.hoopCmd cp w (~~~w) ev = (t.hoopFault (cp * 48 + hcHoop w)).status cp 0xE 0 (hoopArg cp (hcHoop w)) := by
  simp [State.hoopCmd, hn, hb, ht, hop, hst, hsat, hok]

theorem State.hoopCmd_wait_stalls (hop : hcOp w = 2) (hsat : (t.hoop (cp * 48 + hcHoop w)).sat = false)
    (hst : (t.hoop (cp * 48 + hcHoop w)).st = .armed) :
    s.hoopCmd cp w (~~~w) ev =
      t.stallWait cp (cp * 48 + hcHoop w) ⟨hcHoop w, t.nowInt, BitVec.ofNat 12 (hcArg w)⟩ := by
  simp [State.hoopCmd, State.stallWait, Port.stall, hn, hb, ht, hop, hst, hsat]

end

/-! ### The step of one command -/

theorem Hoop.afterRead_of_not_uncorr {ev : StorageEvent} (h : Hoop) (hev : evUncorr ev = false) : h.afterRead ev = h := by
  simp [Hoop.afterRead, hev]

theorem Hoop.afterRead_of_uncorr {ev : StorageEvent} (h : Hoop) (hev : evUncorr ev = true) :
    h.afterRead ev = h.losing (evHits ev) := by
  simp [Hoop.afterRead, hev]

theorem Hoop.losing_st (h : Hoop) (m : BitVec 3) : (h.losing m).st = .fault := rfl

theorem Hoop.losing_of_not_uncorr {ev : StorageEvent} {h : Hoop} (hev : evUncorr ev = false) (hst : h.st ≠ .fault) :
    h.losing (evHits ev) = h.faulted := by
  rw [evHits_of_not_uncorr hev, Hoop.losing_of_not_fault _ hst]
  simp

theorem Hoop.losing_of_not_uncorr_of_fault {ev : StorageEvent} {h : Hoop} (hev : evUncorr ev = false) (hst : h.st = .fault) :
    h.losing (evHits ev) = h := by
  rw [evHits_of_not_uncorr hev, Hoop.losing_of_fault _ hst]
  simp

/-- A satisfied hoop is ARMED. -/
theorem Hoop.st_of_sat {h : Hoop} (hsat : h.sat = true) : h.st = .armed := by
  simp only [Hoop.sat, Bool.and_eq_true, decide_eq_true_eq] at hsat
  exact hsat.1

section
variable {s : State} {cp : Nat} {w : Word} (hs : s.canon) (hr : s.portReady cp) (hn : s.notReady cp = false) (hb : s.hoopBad w = false)
include hs hr hb

/-- The hoop once its storage has been read for a command. -/
theorem HoopStep.read (ev : StorageEvent) : HoopStep s (s.hoopStorage (cp * 48 + hcHoop w) ev) cp (cp * 48 + hcHoop w)
    ((s.hoop (cp * 48 + hcHoop w)).afterRead ev) (s.port cp) := by
  have := hcHoop_le_of_good hb
  exact .storage hs (by omega) hr.wait_none ev

variable {ev : StorageEvent}

include hn

theorem HoopStep.arm_disarmed (hop : hcOp w = 0) (hev : evUncorr ev = false) (hok : (s.hoop (cp * 48 + hcHoop w)).ok = true)
    (hst : (s.hoop (cp * 48 + hcHoop w)).st = .disarmed) :
    HoopStep s (s.hoopCmd cp w (~~~w) ev) cp (cp * 48 + hcHoop w) ((s.hoop (cp * 48 + hcHoop w)).arm (hcArg w) (hcMode w))
      ((s.port cp).offer ⟨8, 0, hoopArg cp (hcHoop w), false, false⟩) := by
  have k := HoopStep.read hs hr hb ev
  rw [Hoop.afterRead_of_not_uncorr _ hev] at k
  rw [State.hoopCmd_arm_disarmed hn hb rfl hop (by rw [k.hoop, hok]) (by rw [k.hoop, hst]), k.hoop]
  exact (k.setHoop hs _).answer hs 8 _

theorem HoopStep.arm_conflict (hop : hcOp w = 0) (hev : evUncorr ev = false) (hok : (s.hoop (cp * 48 + hcHoop w)).ok = true)
    (hst : (s.hoop (cp * 48 + hcHoop w)).st ≠ .disarmed) :
    HoopStep s (s.hoopCmd cp w (~~~w) ev) cp (cp * 48 + hcHoop w) (s.hoop (cp * 48 + hcHoop w))
      ((s.port cp).offer ⟨0xD, 0, hoopArg cp (hcHoop w), false, false⟩) := by
  have k := HoopStep.read hs hr hb ev
  rw [Hoop.afterRead_of_not_uncorr _ hev] at k
  rw [State.hoopCmd_arm_conflict hn hb rfl hop (.inr (by rw [k.hoop, hok])) (by rw [k.hoop]; exact hst)]
  exact k.answer hs 0xD _

/-- R283: the hoop is in FAULT, by its storage or by its TARGET, once an ARM has found it bad. -/
theorem HoopStep.arm_bad (hop : hcOp w = 0) (hbad : (s.hoop (cp * 48 + hcHoop w)).ok = false ∨ evUncorr ev = true) :
    HoopStep s (s.hoopCmd cp w (~~~w) ev) cp (cp * 48 + hcHoop w) ((s.hoop (cp * 48 + hcHoop w)).losing (evHits ev))
        ((s.port cp).offer ⟨0xD, 0, hoopArg cp (hcHoop w), false, false⟩)
      ∧ ((s.hoop (cp * 48 + hcHoop w)).st ≠ .fault → (s.hoopCmd cp w (~~~w) ev).gst.attn.getLsbD 2 = true) := by
  have k := HoopStep.read hs hr hb ev
  cases hev : evUncorr ev with
  | true =>
    rw [Hoop.afterRead_of_uncorr _ hev] at k
    rw [State.hoopCmd_arm_conflict hn hb rfl hop (.inl (by rw [k.hoop, Hoop.losing_st])) (by rw [k.hoop, Hoop.losing_st]; decide)]
    exact ⟨k.answer hs 0xD _, State.hoopStorage_attn hev⟩
  | false =>
    rw [Hoop.afterRead_of_not_uncorr _ hev] at k
    have hok : (s.hoop (cp * 48 + hcHoop w)).ok = false := hbad.resolve_right (by simp [hev])
    by_cases hst : (s.hoop (cp * 48 + hcHoop w)).st = .fault
    · rw [State.hoopCmd_arm_conflict hn hb rfl hop (.inl (by rw [k.hoop, hst])) (by rw [k.hoop, hst]; decide),
        Hoop.losing_of_not_uncorr_of_fault hev hst]
      exact ⟨k.answer hs 0xD _, fun h => absurd hst h⟩
    · have kf := k.fault hs hr.wait_none
      rw [State.hoopCmd_arm_faults hn hb rfl hop (by rw [k.hoop]; exact hst) (by rw [k.hoop, hok]) (by rw [kf.hoop, Hoop.faulted]),
        Hoop.losing_of_not_uncorr hev hst]
      exact ⟨kf.answer hs 0xD _, fun _ => State.hoopFault_attn _ _⟩

theorem HoopStep.disarm (hop : hcOp w = 3) :
    HoopStep s (s.hoopCmd cp w (~~~w) ev) cp (cp * 48 + hcHoop w) ((s.hoop (cp * 48 + hcHoop w)).afterRead ev).disarm
      ((s.port cp).offer ⟨8, 0, hoopArg cp (hcHoop w), false, false⟩) := by
  have k := HoopStep.read hs hr hb ev
  rw [State.hoopCmd_disarm hn hb rfl hop, k.hoop]
  exact (k.setHoop hs _).answer hs 8 _

theorem HoopStep.wait_releases (hop : hcOp w = 2) (hev : evUncorr ev = false) (hsat : (s.hoop (cp * 48 + hcHoop w)).sat = true)
    (hok : (s.hoop (cp * 48 + hcHoop w)).ok = true) :
    HoopStep s (s.hoopCmd cp w (~~~w) ev) cp (cp * 48 + hcHoop w) (s.hoop (cp * 48 + hcHoop w)).release
      ((s.port cp).offer ⟨9, 0, hoopArg cp (hcHoop w), false, false⟩) := by
  have k := HoopStep.read hs hr hb ev
  rw [Hoop.afterRead_of_not_uncorr _ hev] at k
  rw [State.hoopCmd_wait_releases hn hb rfl hop (by rw [k.hoop, hsat]) (by rw [k.hoop, hok])
    (by rw [k.hoop, Hoop.st_of_sat hsat]), k.hoop]
  exact (k.setHoop hs _).answer hs 9 _

theorem HoopStep.wait_not_armed (hop : hcOp w = 2) (hev : evUncorr ev = false) (hst : (s.hoop (cp * 48 + hcHoop w)).st ≠ .armed) :
    HoopStep s (s.hoopCmd cp w (~~~w) ev) cp (cp * 48 + hcHoop w) (s.hoop (cp * 48 + hcHoop w))
      ((s.port cp).offer
        ⟨if (s.hoop (cp * 48 + hcHoop w)).st = .fault then 0xE else 0xD, 0, hoopArg cp (hcHoop w), false, false⟩) := by
  have k := HoopStep.read hs hr hb ev
  rw [Hoop.afterRead_of_not_uncorr _ hev] at k
  have ka := k.answer hs (if (s.hoop (cp * 48 + hcHoop w)).st = .fault then 0xE else 0xD) (hoopArg cp (hcHoop w))
  rw [apply_ite (BitVec.ofNat 4)] at ka
  rw [State.hoopCmd_wait_not_armed hn hb rfl hop (by rw [k.hoop]; exact hst), k.hoop]
  exact ka

/-- R283: so it is once a WAIT has found it bad. -/
theorem HoopStep.wait_bad (hop : hcOp w = 2) (hst : (s.hoop (cp * 48 + hcHoop w)).st ≠ .fault)
    (hbad : evUncorr ev = true ∨ ((s.hoop (cp * 48 + hcHoop w)).sat = true ∧ (s.hoop (cp * 48 + hcHoop w)).ok = false)) :
    HoopStep s (s.hoopCmd cp w (~~~w) ev) cp (cp * 48 + hcHoop w) ((s.hoop (cp * 48 + hcHoop w)).losing (evHits ev))
        ((s.port cp).offer ⟨0xE, 0, hoopArg cp (hcHoop w), false, false⟩)
      ∧ (s.hoopCmd cp w (~~~w) ev).gst.attn.getLsbD 2 = true := by
  have k := HoopStep.read hs hr hb ev
  cases hev : evUncorr ev with
  | true =>
    rw [Hoop.afterRead_of_uncorr _ hev] at k
    rw [State.hoopCmd_wait_not_armed hn hb rfl hop (by rw [k.hoop, Hoop.losing_st]; decide), if_pos (by rw [k.hoop, Hoop.losing_st])]
    exact ⟨k.answer hs 0xE _, State.hoopStorage_attn hev hst⟩
  | false =>
    rw [Hoop.afterRead_of_not_uncorr _ hev] at k
    obtain ⟨hsat, hok⟩ := hbad.resolve_left (by simp [hev])
    rw [State.hoopCmd_wait_faults hn hb rfl hop (by rw [k.hoop, hsat]) (by rw [k.hoop, hok]) (by rw [k.hoop, Hoop.st_of_sat hsat]),
      Hoop.losing_of_not_uncorr hev hst]
    exact ⟨(k.fault hs hr.wait_none).answer hs 0xE _, State.hoopFault_attn _ _⟩

end

/-! ### ARM and DISARM -/

/-- The hoops of the port but one, named by their index at the port. -/
theorem State.hoop_others_at_port {s u : State} {cp k : Nat}
    (h : ∀ j, j / 48 = cp → j ≠ cp * 48 + k → u.hoop j = s.hoop j) :
    ∀ n < 48, n ≠ k → u.hoop (cp * 48 + n) = s.hoop (cp * 48 + n) :=
  fun n hn hne => h _ (by omega) (by omega)

/-- Besides STATE and WAITING a read of the storage changes what is known to be lost. -/
theorem Hoop.afterRead_eq (h : Hoop) (ev : StorageEvent) : h.afterRead ev =
    { h with st := (h.afterRead ev).st, waiting := (h.afterRead ev).waiting, lost := h.lost ||| evHits ev } := by
  cases hev : evUncorr ev with
  | true => simp [Hoop.afterRead, Hoop.losing, hev]
  | false => simp [Hoop.afterRead, hev, evHits_of_not_uncorr hev]

/-- R283: what DISARM writes into fields whose storage held. -/
theorem Hoop.disarm_of_lost_zero {h : Hoop} (hl : h.lost = 0) :
    h.disarm = { h with st := .disarmed, count := 0, target := 0, targetN := 0xFFF, waiting := false } := by
  simp [Hoop.disarm, Hoop.renew, hl]

theorem Hoop.disarm_ok (h : Hoop) : h.disarm.ok = true :=
  decide_eq_true (show 0xFFF#12 = ~~~0#12 by decide)

theorem Hoop.disarm_flags_of_lost {h : Hoop} (hl : h.lost.getLsbD 0 = true) :
    h.disarm.stale = false ∧ h.disarm.ovr = false ∧ h.disarm.excess = false := by
  simp [Hoop.disarm, Hoop.renew, hl]

theorem Hoop.disarm_staleCnt_of_lost {h : Hoop} (hl : h.lost.getLsbD 1 = true) : h.disarm.staleCnt = 0 := by
  simp [Hoop.disarm, Hoop.renew, hl]

theorem Hoop.disarm_lastV_of_lost {h : Hoop} (hl : h.lost.getLsbD 2 = true) : h.disarm.lastV = false := by
  simp [Hoop.disarm, Hoop.renew, hl]

/-- Settles O14: ARM by `HoopStep.arm_disarmed`, `HoopStep.arm_conflict` and `HoopStep.arm_bad`, DISARM by `HoopStep.disarm`. -/
theorem armAndDisarmSetTheHoop : Obligations.ArmAndDisarmSetTheHoop := by
  unfold Obligations.ArmAndDisarmSetTheHoop
  refine ⟨?arm, ?bad, ?disarm⟩
  case arm =>
    intro s cp w ev hs hr hn hb hop hok hev
    refine ⟨(s.hoopCmd cp.val w (~~~w) ev).settle, live_command_of_ready hr _ _, ?_⟩
    by_cases hst : (s.hoop (cp.val * 48 + hcHoop w)).st = .disarmed
    · obtain ⟨hhoop, hstq, hothers, hframe⟩ := (HoopStep.arm_disarmed hs hr hn hb hop hev hok hst).settle hs hr.cmdq_nil
      exact ⟨fun _ => ⟨hhoop, hstq⟩, fun h => absurd hst h, State.hoop_others_at_port hothers, hframe⟩
    · obtain ⟨hhoop, hstq, hothers, hframe⟩ := (HoopStep.arm_conflict hs hr hn hb hop hev hok hst).settle hs hr.cmdq_nil
      exact ⟨fun h => absurd h hst, fun _ => ⟨hhoop, hstq⟩, State.hoop_others_at_port hothers, hframe⟩
  case bad =>
    intro s cp w ev hs hr hn hb hop hbad
    obtain ⟨hstep, hattn⟩ := HoopStep.arm_bad hs hr hn hb hop hbad
    obtain ⟨hhoop, hstq, hothers, hframe⟩ := hstep.settle hs hr.cmdq_nil
    exact ⟨_, live_command_of_ready hr _ _, hhoop,
      fun hst => (State.settle_keeps (hstep.keeps.canon hs)).attn 2 (hattn hst), hstq, State.hoop_others_at_port hothers, hframe⟩
  case disarm =>
    intro s cp w ev hs hr hn hb hop
    obtain ⟨hhoop, hstq, hothers, hframe⟩ := (HoopStep.disarm (ev := ev) hs hr hn hb hop).settle hs hr.cmdq_nil
    refine ⟨_, live_command_of_ready hr _ _, ?_⟩
    rw [hhoop, Hoop.afterRead_eq]
    refine ⟨rfl, rfl, rfl, Hoop.disarm_ok _, fun hl => ?_, fun hl => Hoop.disarm_flags_of_lost hl,
      fun hl => Hoop.disarm_staleCnt_of_lost hl, fun hl => Hoop.disarm_lastV_of_lost hl, rfl, hstq,
      State.hoop_others_at_port hothers, hframe⟩
    rw [Hoop.disarm_of_lost_zero hl]
    exact ⟨rfl, rfl, rfl, rfl, rfl⟩

/-! ### WAIT -/

theorem Hoop.release_of_mode {h : Hoop} (hm : h.mode = true) :
    h.release = { h with count := h.count - h.target, waiting := false } := by
  simp [Hoop.release, hm]

theorem Hoop.release_of_not_mode {h : Hoop} (hm : h.mode = false) : h.release =
    { h with st := .disarmed, count := 0, waiting := false, excess := h.excess || decide (h.target.toNat < h.count.toNat) } := by
  simp [Hoop.release, hm]

theorem Hoop.release_target (h : Hoop) : h.release.target = h.target := by
  unfold Hoop.release
  split <;> rfl

theorem Hoop.release_mode (h : Hoop) : h.release.mode = h.mode := by
  unfold Hoop.release
  split <;> rfl

/-- GST_CORR once the storage of a hoop has been read (R283). -/
theorem State.hoopStorage_of_not_uncorr (s : State) (i : Nat) {ev : StorageEvent} (hev : evUncorr ev = false) :
    s.hoopStorage i ev = { s with gst := { s.gst with corr := if ev = .corrected then satInc s.gst.corr else s.gst.corr } } := by
  cases ev with
  | clean => rfl
  | corrected => rfl
  | uncorrData a => cases hev
  | uncorrConfig w a => cases hev

theorem HoopStep.stall {s u : State} {cp i : Nat} {h : Hoop} {p : Port} (hs : s.canon) (k : HoopStep s u cp i h p) (x : Waiting) :
    HoopStep s (u.stallWait cp i x) cp i { h with waiting := true } (p.stall x) := by
  have hset := k.setHoop hs { h with waiting := true }
  unfold State.stallWait
  rw [k.hoop]
  exact
    { owner := hset.owner
      keeps := hset.keeps.onPortIn cp _ (decide_eq_true rfl)
        (fun p => ⟨id, List.prefix_refl _, List.prefix_refl _, List.prefix_refl _⟩)
      hoop := hset.hoop
      port := by rw [State.onPort_port_same (hset.keeps.canon hs), hset.port]
      others := hset.others }

theorem State.stallWait_port_other {s : State} (cp i : Nat) (x : Waiting) {j : Nat} (hj : j ≠ cp) :
    (s.stallWait cp i x).port j = s.port j :=
  mget_mput_other _ _ _ _ _ hj

theorem State.stallWait_hoop_other {s : State} (cp i : Nat) (x : Waiting) {j : Nat} (hj : j ≠ i) :
    (s.stallWait cp i x).hoop j = s.hoop j :=
  mget_mput_other _ _ _ _ _ hj

/-- Settles O16, by what the WAIT finds: `HoopStep.wait_releases`, `State.stallWait`, `HoopStep.wait_bad`, `HoopStep.wait_not_armed`. -/
theorem waitReleasesOrStalls : Obligations.WaitReleasesOrStalls := by
  unfold Obligations.WaitReleasesOrStalls
  refine ⟨?releases, ?stalls, ?bad, ?notArmed⟩
  case releases =>
    intro s cp w ev hs hr hn hb hop hsat hok hev
    have harmed := Hoop.st_of_sat hsat
    obtain ⟨hhoop, hstq, -, hframe⟩ := (HoopStep.wait_releases hs hr hn hb hop hev hsat hok).settle hs hr.cmdq_nil
    refine ⟨_, live_command_of_ready hr _ _, ?_⟩
    rw [hhoop]
    refine ⟨fun hm => ?_, fun hm => ?_, Hoop.release_target _, Hoop.release_mode _, hstq, hframe⟩
    · rw [Hoop.release_of_mode hm]
      exact ⟨harmed, rfl⟩
    · rw [Hoop.release_of_not_mode hm]
      exact ⟨rfl, rfl⟩
  case stalls =>
    intro s cp w ev hs hr hn hb hop hst hsat hev
    have k := HoopStep.read hs hr hb ev
    rw [Hoop.afterRead_of_not_uncorr _ hev] at k
    have hu := State.hoopStorage_of_not_uncorr s (cp.val * 48 + hcHoop w) hev
    rw [hu] at k
    have hcmd := State.hoopCmd_wait_stalls hn hb hu hop (by rw [k.hoop, hsat]) (by rw [k.hoop, hst])
    have ks := k.stall hs ⟨hcHoop w, s.nowInt, BitVec.ofNat 12 (hcArg w)⟩
    refine ⟨_, (live_command_of_ready hr _ _).trans (by rw [hcmd]; rfl), ks.hoop, ?_, ?_, ?_, rfl,
      fun i hi => State.stallWait_port_other _ _ _ hi, fun i hi => State.stallWait_hoop_other _ _ _ hi, ?_⟩
    · rw [ks.port, Port.stall]
    · rw [ks.port, Port.stall]
    · rw [ks.port, Port.stall]
    · exact ((ks.settle hs hr.cmdq_nil).1).trans ks.hoop.symm
  case bad =>
    intro s cp w ev hs hr hn hb hop hst hbad
    obtain ⟨hstep, hattn⟩ := HoopStep.wait_bad hs hr hn hb hop hst hbad
    obtain ⟨hhoop, hstq, -, hframe⟩ := hstep.settle hs hr.cmdq_nil
    refine ⟨_, live_command_of_ready hr _ _, ?_, (State.settle_keeps (hstep.keeps.canon hs)).attn 2 hattn, hstq, hframe⟩
    rw [hhoop, Hoop.losing_of_not_fault _ hst]
    rfl
  case notArmed =>
    intro s cp w ev hs hr hn hb hop hev hst
    obtain ⟨hhoop, hstq, -, hframe⟩ := (HoopStep.wait_not_armed hs hr hn hb hop hev hst).settle hs hr.cmdq_nil
    exact ⟨_, live_command_of_ready hr _ _, hhoop, hstq, hframe⟩

end Sys2Proof.Machine

/-! PROOFS. Signals (R280, R281, Table HP-3): into the hoop network, and at the owner's hoop store. -/

namespace Sys2Proof.Machine

theorem wf_lt (w : Word) (hi lo : Nat) : wf_ w hi lo < 2 ^ (hi + 1 - lo) := Nat.mod_lt _ (Nat.two_pow_pos _)

theorem hcCp_lt (w : Word) : hcCp w < 1024 := wf_lt w 19 10

theorem hcArg_lt (w : Word) : hcArg w < 4096 := wf_lt w 31 20

/-- The signal that the word of a SIGNAL command names, from core port `cp`. -/
def sentSignal (cp : Nat) (w : Word) : HoopSig :=
  ⟨⟨hcCp w % 1024, Nat.mod_lt _ (by decide)⟩, ⟨hcHoop w % 48, Nat.mod_lt _ (by decide)⟩,
    .core ⟨cp % 1024, Nat.mod_lt _ (by decide)⟩, BitVec.ofNat 12 (hcArg w)⟩

theorem State.hoopCmd_signal {s : State} {cp : Nat} {w : Word} (hn : s.notReady cp = false) (hb : s.hoopBad w = false)
    (hop : hcOp w = 1) (ev : StorageEvent) : s.hoopCmd cp w (~~~w) ev = s.signal (sentSignal cp w) := by
  simp [State.hoopCmd, sentSignal, hn, hb, hop]

/-! ### What a signal does to an ARMED hoop -/

/-- The hoop with the source of its last signal. -/
def Hoop.lastFrom (h : Hoop) (src : SigSrc) : Hoop := { h with lastSrc := (srcOf src).1, lastFd := (srcOf src).2, lastV := true }

theorem Hoop.signal_of_room {h : Hoop} {inc : Nat} (src : SigSrc) (hst : h.st = .armed) (hle : h.count.toNat + inc ≤ 4095) :
    h.signal inc src = ({ h.lastFrom src with count := BitVec.ofNat 12 (h.count.toNat + inc) }, 8) := by
  simp [Hoop.signal, Hoop.lastFrom, hst, hle]

theorem Hoop.signal_of_full {h : Hoop} {inc : Nat} (src : SigSrc) (hst : h.st = .armed) (hlt : 4095 < h.count.toNat + inc) :
    h.signal inc src = ({ h.lastFrom src with count := 0xFFF, ovr := true }, 0xB) := by
  simp [Hoop.signal, Hoop.lastFrom, hst, Nat.not_le.mpr hlt]

/-- COUNT and OVERSIGNAL alone may move, and the last source is recorded. -/
theorem Hoop.signal_armed_frame {h : Hoop} (inc : Nat) (src : SigSrc) (hst : h.st = .armed) :
    (h.signal inc src).1.st = .armed ∧ (h.signal inc src).1.target = h.target ∧ (h.signal inc src).1.lastV = true := by
  rcases Nat.lt_or_ge 4095 (h.count.toNat + inc) with hlt | hle
  · rw [Hoop.signal_of_full src hst hlt]
    exact ⟨hst, rfl, rfl⟩
  · rw [Hoop.signal_of_room src hst hle]
    exact ⟨hst, rfl, rfl⟩

/-! ### A signal at the owner's store -/

/-- The number of the hoop that a signal names. -/
abbrev signalHoop (x : HoopSig) : Nat := x.owner.val * 48 + x.hoop.val

/-- The signal has left the hoop network. -/
def State.dropSignal (s : State) (x : HoopSig) : State := { s with hoopNet := s.hoopNet.erase x }

theorem State.arriveSignal_of_next {s : State} {x y : HoopSig} (hy : s.nextSignal y = some x) :
    s.arriveSignal y .clean = (s.dropSignal x).applySignal x := by
  unfold State.arriveSignal
  rw [hy]
  rfl

/-- The signal has changed its hoop; a flag set for the first time is logged (R276). -/
def State.countSignal (s : State) (x : HoopSig) : State :=
  let h := s.hoop (signalHoop x)
  let r := (h.signal x.inc.toNat x.src).1
  let t := s.setHoop (signalHoop x) r
  if (r.stale && !h.stale) || (r.ovr && !h.ovr) then t.hoopFlag (signalHoop x) r else t

/-- A core that signals gets a status. -/
def State.answerSignal (s : State) (x : HoopSig) (code : Nat) : State :=
  match x.src with
  | .core cp => s.status cp.val code 0 (hoopArg x.owner.val x.hoop.val)
  | .feeder _ => s

theorem State.applySignal_of_ok {s : State} {x : HoopSig} (hok : (s.hoop (signalHoop x)).ok = true) : s.applySignal x =
    ((s.countSignal x).answerSignal x ((s.hoop (signalHoop x)).signal x.inc.toNat x.src).2).hoopRelease (signalHoop x) := by
  have hgood : ¬((s.hoop (x.owner.val * 48 + x.hoop.val)).st ≠ .fault ∧ (s.hoop (x.owner.val * 48 + x.hoop.val)).ok = false) :=
    fun h => Bool.false_ne_true (h.2.symm.trans hok)
  unfold State.applySignal
  dsimp only
  rw [if_neg hgood]
  rfl

theorem State.hoopRelease_of_no_wait {s : State} {i : Nat} (h : s.waitsOn i = false) : s.hoopRelease i = s := by
  simp [State.hoopRelease, h]

theorem State.countSignal_port (s : State) (x : HoopSig) (j : Nat) : (s.countSignal x).port j = s.port j := by
  have h : Only [.gst, .hoops] s (s.countSignal x) := by
    unfold State.countSignal
    dsimp only
    split
    · exact State.hoopFlag_only (State.setHoop_only .refl _ _) _ _
    · exact State.setHoop_only .refl _ _
  exact h.port_eq (by decide) j

section
variable {s u : State} {i : Nat} {h : Hoop} {p : Port} {x : HoopSig} (hs : s.canon) (k : HoopStep s u x.owner.val (signalHoop x) h p)
include hs k

theorem HoopStep.countSignal : HoopStep s (u.countSignal x) x.owner.val (signalHoop x) (h.signal x.inc.toNat x.src).1 p := by
  have hset := k.setHoop hs (h.signal x.inc.toNat x.src).1
  unfold State.countSignal
  dsimp only
  rw [k.hoop]
  split
  · exact hset.next (w := [.gst]) (State.hoopFlag_keeps .refl _ _) (State.hoopFlag_only .refl _ _) (by decide) (by decide)
  · exact hset

theorem HoopStep.answerSignal (code : Nat) : ∃ p' : Port, p'.cmdq = p.cmdq ∧ p'.wait = p.wait
    ∧ HoopStep s (u.answerSignal x code) x.owner.val (signalHoop x) h p' := by
  unfold State.answerSignal
  cases x.src with
  | core cp =>
    refine ⟨_, ?_, ?_, k.status hs cp.val code _⟩
    · split <;> rfl
    · split <;> rfl
  | feeder ch => exact ⟨p, rfl, rfl, k⟩

end

/-- The status that a core which signals gets. -/
theorem State.answerSignal_stq {s : State} (hs : s.canon) {x : HoopSig} {cp : Fin 1024} (hx : x.src = .core cp) (code : Nat) :
    ((s.answerSignal x code).port cp.val).stq =
      (s.port cp.val).stq ++ [⟨BitVec.ofNat 4 code, 0, hoopArg x.owner.val x.hoop.val, false, false⟩] := by
  unfold State.answerSignal State.status
  rw [hx]
  dsimp only
  rw [State.onPort_port_same hs]

section
variable {s : State} {x y : HoopSig} (hs : s.canon) (hy : s.nextSignal y = some x) (hok : (s.hoop (signalHoop x)).ok = true)
  (hw : s.waitsOn (signalHoop x) = false)
include hs hy hok hw

/-- The oldest signal that is under way from that source to that hoop arrives: it has left the network, the hoop has counted it, and
no WAIT is released. -/
theorem HoopStep.arriveSignal : ∃ p : Port, p.cmdq = (s.port x.owner.val).cmdq
    ∧ HoopStep s (s.arriveSignal y .clean) x.owner.val (signalHoop x) ((s.hoop (signalHoop x)).signal x.inc.toNat x.src).1 p
    ∧ ∀ cp : Fin 1024, x.src = .core cp → ((s.arriveSignal y .clean).port cp.val).stq = (s.port cp.val).stq
        ++ [⟨BitVec.ofNat 4 ((s.hoop (signalHoop x)).signal x.inc.toNat x.src).2, 0, hoopArg x.owner.val x.hoop.val,
          false, false⟩] := by
  have hi : signalHoop x / 48 = x.owner.val := by unfold signalHoop; omega
  have k0 : HoopStep s (s.dropSignal x) x.owner.val (signalHoop x) (s.hoop (signalHoop x)) (s.port x.owner.val) :=
    (HoopStep.refl hi).next (w := [.hoopNet]) (.hoopNet .refl _) (.put_hoopNet .refl _ rfl) (by decide) (by decide)
  have kc := k0.countSignal hs
  obtain ⟨p, hcmdq, hwait, ka⟩ := kc.answerSignal hs ((s.hoop (signalHoop x)).signal x.inc.toNat x.src).2
  have harr : s.arriveSignal y .clean = ((s.dropSignal x).countSignal x).answerSignal x
      ((s.hoop (signalHoop x)).signal x.inc.toNat x.src).2 := by
    rw [State.arriveSignal_of_next hy, State.applySignal_of_ok (s := s.dropSignal x) hok]
    exact State.hoopRelease_of_no_wait ((ka.waitsOn hwait).trans hw)
  rw [harr]
  refine ⟨p, hcmdq, ka, fun cp hcp => ?_⟩
  rw [State.answerSignal_stq (kc.keeps.canon hs) hcp, State.countSignal_port]
  rfl

end

/-- Settles O15: `State.hoopCmd_signal` sends the signal, `HoopStep.arriveSignal` counts it. -/
theorem signalIsSentAndCounts : Obligations.SignalIsSentAndCounts := by
  unfold Obligations.SignalIsSentAndCounts
  refine ⟨?sent, ?none, ?counted⟩
  case sent =>
    intro s cp w hr hn hb hop
    have hhoop := hcHoop_le_of_good hb
    refine ⟨sentSignal cp.val w, Nat.mod_eq_of_lt (hcCp_lt w), Nat.mod_eq_of_lt (by omega), ?_, ?_, ?_⟩
    · exact congrArg SigSrc.core (Fin.ext (Nat.mod_eq_of_lt cp.isLt))
    · exact (BitVec.toNat_ofNat _ _).trans (Nat.mod_eq_of_lt (hcArg_lt w))
    · exact (live_command_of_ready hr _ _).trans (by rw [State.hoopCmd_signal hn hb hop, State.signal])
  case none =>
    intro s x ev ha hx
    refine (live_of_alive (fun s => (s.arriveSignal x ev).settle) ha).trans ?_
    unfold State.arriveSignal
    rw [hx]
  case counted =>
    intro s y x hs ha hy hst hok hw hcmdq
    obtain ⟨p, hp, hstep, hstatus⟩ := HoopStep.arriveSignal hs hy hok hw
    obtain ⟨hhoop, -, hothers, hframe⟩ := hstep.settle hs (hp.trans hcmdq)
    have hout (c : Fin 1024) := ((State.settle_keeps (hstep.keeps.canon hs)).ports (hstep.keeps.canon hs) c.val).stq
    obtain ⟨harmed, htarget, hlast⟩ := Hoop.signal_armed_frame x.inc.toNat x.src hst
    refine ⟨_, live_of_alive (fun s => (s.arriveSignal y .clean).settle) ha, ?room, ?full, (congrArg Hoop.st hhoop).trans harmed,
      (congrArg Hoop.target hhoop).trans htarget, (congrArg Hoop.lastV hhoop).trans hlast, State.hoop_others_at_port hothers, hframe⟩
    case room =>
      intro hle
      rw [Hoop.signal_of_room x.src hst hle] at hhoop hstatus
      rw [hhoop]
      refine ⟨?_, rfl, fun c hc => hstatus c hc ▸ hout c⟩
      exact (BitVec.toNat_ofNat _ _).trans (Nat.mod_eq_of_lt (by omega))
    case full =>
      intro hlt
      rw [Hoop.signal_of_full x.src hst hlt] at hhoop hstatus
      exact ⟨congrArg Hoop.count hhoop, congrArg Hoop.ovr hhoop, fun c hc => hstatus c hc ▸ hout c⟩

/-! ### The end of a WAIT by its timeout (R279) -/

section
variable {s : State} {cp : Nat} {x : Waiting}

theorem HoopStep.endWait {u : State} {i : Nat} {h : Hoop} {p : Port} (hs : s.canon) (k : HoopStep s u cp i h p) (code : Nat)
    (hw : p.wait = some x) : HoopStep s (u.endWait cp code) cp i h (p.endWait cp code x) where
  owner := k.owner
  keeps := State.endWait_keeps k.keeps _ _
  hoop := ((State.endWait_only (w := [.ports]) .refl cp code).hoop_eq (by decide) i).trans k.hoop
  port := by rw [State.endWait_port (k.keeps.canon hs) code (by rw [k.port, hw]), k.port]
  others := fun j hj hne => ((State.endWait_only (w := [.ports]) .refl cp code).hoop_eq (by decide) j).trans (k.others j hj hne)

theorem State.expireWait_of_wait (hw : (s.port cp).wait = some x) : s.expireWait cp =
    (s.setHoop (cp * 48 + x.hoop) { s.hoop (cp * 48 + x.hoop) with waiting := false }).endWait cp 0xF := by
  unfold State.expireWait
  rw [hw]

theorem State.waitExpired_of_reached (hw : (s.port cp).wait = some x) (harg : x.arg ≠ 0)
    (hr : s.reached (x.start + BitVec.ofNat 64 (x.arg.toNat * 256)) = true) : s.waitExpired cp = true := by
  unfold State.waitExpired
  rw [hw]
  exact Bool.and_eq_true_iff.mpr ⟨decide_eq_true harg, hr⟩

end

/-- Settles O17: the hoop no longer waits, and the port's WAIT ends with HOOP_TIMEOUT. -/
theorem waitTimeoutLeavesHoop : Obligations.WaitTimeoutLeavesHoop := by
  unfold Obligations.WaitTimeoutLeavesHoop
  intro s cp x hs ha hw harg hreached hcmdq hx
  have hexec : exec (.hoopTimeout cp) s = .next (s.expireWait cp.val).settle :=
    (live_of_alive (fun s => if s.waitExpired cp.val then (s.expireWait cp.val).settle else s) ha).trans
      (by rw [if_pos (State.waitExpired_of_reached hw harg hreached)])
  have kset := (HoopStep.refl (s := s) (show (cp.val * 48 + x.hoop) / 48 = cp.val by omega)).setHoop hs
    { s.hoop (cp.val * 48 + x.hoop) with waiting := false }
  obtain ⟨hhoop, hstq, hothers, hframe⟩ := (kset.endWait hs 0xF hw).settle hs hcmdq
  rw [State.expireWait_of_wait hw] at hexec
  exact ⟨_, hexec, hhoop, hstq, State.hoop_others_at_port hothers, hframe⟩

end Sys2Proof.Machine

/-! PROOFS. Debug mode (R293, R411, R424, Table HP-8): the forces on hoops, and injection. -/

namespace Sys2Proof.Machine

theorem wf_eq_div_mod (w : Word) (hi lo : Nat) : wf_ w hi lo = w.toNat / 2 ^ lo % 2 ^ (hi + 1 - lo) := by
  unfold wf_ fld
  rw [Nat.shiftRight_eq_div_pow]

theorem Hoop.renew_of_lost_zero {h : Hoop} (hl : h.lost = 0) : h.renew = h := by
  cases h
  simp_all [Hoop.renew]

theorem State.waitsOn_congr {s u : State} {i : Nat} (h : u.port (i / 48) = s.port (i / 48)) : u.waitsOn i = s.waitsOn i := by
  unfold State.waitsOn
  rw [h]

/-! ### A write of HP_FORCE -/

/-- HP_FORCE holds INDEX and MODE of the write. -/
def State.noteForce (s : State) (v : Word) : State :=
  { s with dbg := { s.dbg with forceIdx := v.setWidth 16, forceMode := wbit v 18 } }

theorem State.hpForce_of_not_debug {s : State} (v : Word) (hd : s.debug = false) : s.hpForce v = s := by
  unfold State.hpForce
  dsimp only
  rw [if_pos (.inl hd)]

theorem State.hpForce_of_debug {s : State} {v : Word} (hd : s.debug = true) (hi : v.toNat % 65536 ≤ 49151) :
    s.hpForce v =
      if v.toNat / 65536 % 4 = 1 then ((s.noteForce v).forceCount (v.toNat % 65536)).settle
      else if v.toNat / 65536 % 4 = 2 then ((s.noteForce v).forceTarget (v.toNat % 65536)).settle
      else if v.toNat / 65536 % 4 = 3 then ((s.noteForce v).forceRelease (v.toNat % 65536)).settle
      else s.noteForce v := by
  have hindex : wf_ v 15 0 = v.toNat % 65536 := by simp [wf_eq_div_mod]
  have haction : wf_ v 17 16 = v.toNat / 65536 % 4 := by simp [wf_eq_div_mod]
  have hin : ¬(s.debug = false ∨ 49151 < v.toNat % 65536) := by simp [hd, hi]
  unfold State.hpForce
  rw [hindex, haction, if_neg hin]
  rfl

/-! ### The three forces -/

/-- Each force is logged first (Table ER-2). -/
def State.logForce (s : State) (i act : Nat) : State := s.logEv 0x16 0 2 i act s.dbg.forceVal.toNat

theorem State.logForce_only (s : State) (i act : Nat) : Only [.gst] s (s.logForce i act) := State.logEv_only .refl _ _ _ _ _ _

theorem State.logForce_canon {s : State} (hs : s.canon) (i act : Nat) : (s.logForce i act).canon :=
  (Keeps.logEv (q := fun _ => true) .refl _ _ _ _ _ _ _ _).canon hs

/-- R417: the entry of a force, where the log has room. -/
theorem State.logForce_log {s : State} (hs : s.canon) (hroom : s.gst.unread < 64) (i act : Nat) :
    mget LogEntry.zero (s.logForce i act).gst.log (s.gst.logWr.toNat % 64) =
      { LogEntry.zero with
        v := true, code := 0x16, src := 2, unit := BitVec.ofNat 16 i, arg0 := BitVec.ofNat 32 act
        arg1 := BitVec.ofNat 32 s.dbg.forceVal.toNat, time := s.nowInt } :=
  State.logWrite_log hs hroom _

section
variable {s : State} {i : Nat}

/-- A force on a hoop that no WAIT is pending on: the entry, and the hoop's new value. -/
theorem State.forced_hoopRelease (hw : s.waitsOn i = false) (act : Nat) (h : Hoop) :
    ((s.logForce i act).setHoop i h).hoopRelease i = (s.logForce i act).setHoop i h :=
  State.hoopRelease_of_no_wait ((State.waitsOn_congr ((s.logForce_only i act).port_eq (by decide) _)).trans hw)

theorem State.forceCount_of_no_wait (hw : s.waitsOn i = false) :
    s.forceCount i = (s.logForce i 1).setHoop i { s.hoop i with count := s.dbg.forceVal } := by
  refine (State.forced_hoopRelease hw 1 _).trans ?_
  rw [← (s.logForce_only i 1).hoop_eq (by decide) i]
  rfl

/-- The hoop after SET_TARGET. -/
def Hoop.setTarget (h : Hoop) (v : BitVec 12) (mode : Bool) : Hoop :=
  { h.renew with target := v, targetN := ~~~v, mode := mode, st := .armed }

theorem State.forceTarget_of_no_wait (hw : s.waitsOn i = false) (hv : s.dbg.forceVal ≠ 0) :
    s.forceTarget i = (s.logForce i 2).setHoop i ((s.hoop i).setTarget s.dbg.forceVal s.dbg.forceMode) := by
  unfold State.forceTarget
  rw [if_neg hv]
  refine (State.forced_hoopRelease hw 2 _).trans ?_
  rw [← (s.logForce_only i 2).hoop_eq (by decide) i]
  rfl

theorem State.forceTarget_of_zero (hv : s.dbg.forceVal = 0) : s.forceTarget i = s := by
  unfold State.forceTarget
  rw [if_pos hv]

theorem State.forceRelease_of_wait {w : Waiting} (hw : (s.port (i / 48)).wait = some w) (hx : w.hoop = i % 48) :
    s.forceRelease i = ((s.logForce i 3).setHoop i { s.hoop i with waiting := false }).endWait (i / 48) 9 := by
  have hwaits : (s.logForce i 3).waitsOn i = true := by
    rw [State.waitsOn_congr ((s.logForce_only i 3).port_eq (by decide) _), State.waitsOn, hw]
    exact decide_eq_true hx
  unfold State.forceRelease
  refine (if_pos hwaits).trans ?_
  rw [← (s.logForce_only i 3).hoop_eq (by decide) i]
  rfl

/-- The hoop of a force holds what was set, where the state was canonical. -/
theorem State.logForce_setHoop_hoop (hs : s.canon) (act : Nat) (h : Hoop) : ((s.logForce i act).setHoop i h).hoop i = h := by
  rw [State.setHoop_hoop_read _ (State.logForce_canon hs i act), if_pos rfl]

end

/-- RELEASE: the hoop no longer waits, and the port's WAIT ends with RELEASED. -/
theorem State.forceRelease_hoop_port {s : State} {i : Nat} {w : Waiting} (hs : s.canon) (hw : (s.port (i / 48)).wait = some w)
    (hx : w.hoop = i % 48) : (s.forceRelease i).hoop i = { s.hoop i with waiting := false }
      ∧ (s.forceRelease i).port (i / 48) = (s.port (i / 48)).endWait (i / 48) 9 w := by
  have hlog := State.logForce_canon hs i 3
  have hset : ((s.logForce i 3).setHoop i { s.hoop i with waiting := false }).canon :=
    (Keeps.setHoop (q := fun _ => true) .refl _ _ rfl).canon hlog
  have hport : ((s.logForce i 3).setHoop i { s.hoop i with waiting := false }).port (i / 48) = s.port (i / 48) :=
    (s.logForce_only i 3).port_eq (by decide) _
  rw [State.forceRelease_of_wait hw hx]
  constructor
  · rw [(State.endWait_only (w := [.ports]) .refl _ _).hoop_eq (by decide), State.logForce_setHoop_hoop hs]
  · rw [State.endWait_port hset 9 (by rw [hport, hw]), hport]

/-! ### Injection -/

theorem State.dbgInject_of_not_debug {s : State} (v : Word) (hd : s.debug = false) : s.dbgInject v = s := by
  unfold State.dbgInject
  rw [if_pos hd]

theorem State.dbgInject_of_debug {s : State} (v : Word) (hd : s.debug = true) : s.dbgInject v =
    { s with dbg := { s.dbg with
        injKind := BitVec.ofNat 4 (v.toNat % 16), injUnit := BitVec.ofNat 10 (v.toNat / 16 % 1024)
        armed := s.dbg.armed || (v.getLsbD 14 && decide (1 ≤ v.toNat % 16) && decide (v.toNat % 16 ≤ 3)) } } := by
  have hkind : wf_ v 3 0 = v.toNat % 16 := by simp [wf_eq_div_mod]
  have hunit : wf_ v 13 4 = v.toNat / 16 % 1024 := by simp [wf_eq_div_mod]
  unfold State.dbgInject
  rw [if_neg (by simp [hd]), hkind, hunit]
  rfl

/-- Settles O55: the forces by `State.forceCount_of_no_wait`, `State.forceTarget_of_no_wait` and `State.forceRelease_of_wait`,
injection by `State.dbgInject_of_debug`. -/
theorem debugForces : Obligations.DebugForces := by
  unfold Obligations.DebugForces
  intro s v hs ha
  have hforce := live_of_alive (fun s => s.hpForce v) ha
  have hn : (s.noteForce v).canon := hs
  refine ⟨?outside, ?forces, ?release, ?inject, fun level =>
    live_of_alive (fun s => { s with dbg := { s.dbg with pin := level, armed := s.dbg.armed && level } }) ha⟩
  case outside =>
    intro hd
    have hsame : live s (fun s => s.hpForce v) = .next s := by rw [hforce, State.hpForce_of_not_debug v hd]
    exact ⟨hsame, hsame, hsame, (live_of_alive (fun s => s.dbgInject v) ha).trans (by rw [State.dbgInject_of_not_debug v hd])⟩
  case forces =>
    intro hd hi hw
    have hw' : (s.noteForce v).waitsOn (v.toNat % 65536) = false := hw
    refine ⟨fun hact => ?count, fun hact hv => ?target, fun hact hv => ?zero⟩
    case count =>
      refine ⟨_, hforce.trans (by rw [State.hpForce_of_debug hd hi, if_pos hact]), ?_, ?_⟩
      · rw [State.forceCount_of_no_wait hw', State.logForce_setHoop_hoop hn]
        rfl
      · intro hroom
        rw [State.forceCount_of_no_wait hw']
        exact State.logForce_log hn hroom _ 1
    case target =>
      have hv' : (s.noteForce v).dbg.forceVal ≠ 0 := hv
      refine ⟨_, hforce.trans (by rw [State.hpForce_of_debug hd hi, if_neg (by omega), if_pos hact]), ?_⟩
      rw [State.forceTarget_of_no_wait hw' hv', State.logForce_setHoop_hoop hn]
      refine ⟨rfl, decide_eq_true rfl, rfl, rfl, rfl, fun hl => ?_⟩
      have hrenew : ((s.noteForce v).hoop (v.toNat % 65536)).renew = s.hoop (v.toNat % 65536) := Hoop.renew_of_lost_zero hl
      rw [Hoop.setTarget, hrenew]
      rfl
    case zero =>
      have hv' : (s.noteForce v).dbg.forceVal = 0 := hv
      refine ⟨_, hforce.trans (by rw [State.hpForce_of_debug hd hi, if_neg (by omega), if_pos hact]), ?_⟩
      rw [State.forceTarget_of_zero hv']
      exact ⟨rfl, rfl⟩
  case release =>
    intro w hd hi hact hw hx
    have hw' : ((s.noteForce v).port (v.toNat % 65536 / 48)).wait = some w := hw
    refine ⟨_, hforce.trans (by rw [State.hpForce_of_debug hd hi, if_neg (by omega), if_neg (by omega), if_pos hact]), ?_⟩
    obtain ⟨hhoop, hport⟩ := State.forceRelease_hoop_port hn hw' hx
    rw [hhoop, hport]
    exact ⟨rfl, rfl, rfl⟩
  case inject =>
    intro hd
    exact ⟨_, (live_of_alive (fun s => s.dbgInject v) ha).trans (congrArg Host.Outcome.next (State.dbgInject_of_debug v hd)),
      rfl, rfl, rfl, rfl, rfl⟩

end Sys2Proof.Machine

/-! PROOFS. Accesses of the control port (R283, R292, R411, R414, R416, R417): the log's read pointer, ATTN, the counter's two words, and
the hoop window. -/

namespace Sys2Proof.Machine

/-! ### Registers by their region (Table RG-2) -/

section
variable (s : State) {o : Nat}

theorem State.regNow_gst (h1 : 0x2000 ≤ o) (h2 : o < 0x2800) : s.regNow o = s.readGst (o - 0x2000) := by
  unfold State.regNow
  rw [if_neg (by omega), if_neg (by omega), if_pos h2]

theorem State.regNow_time (h1 : 0x4000 ≤ o) (h2 : o < 0x8000) : s.regNow o = s.readTime (o - 0x4000) := by
  unfold State.regNow
  rw [if_neg (by omega), if_neg (by omega), if_neg (by omega), if_neg (by omega), if_neg (by omega), if_pos h2]

theorem State.regWrite_gst (h1 : 0x2000 ≤ o) (h2 : o < 0x2800) (v : Word) : s.regWrite o v = s.writeGst (o - 0x2000) v := by
  unfold State.regWrite
  rw [if_neg (by omega), if_neg (by omega), if_pos h2]

end

/-! ### GST_ATTN and GST_STATUS (R416) -/

/-- GST_STATUS (Table RG-3). -/
def State.gstStatus (s : State) : Word := w32 (b1 s.gst.level + 2 * b1 s.debug + 4 * b1 s.inTest + pl s.openEntries 3)

theorem State.regNow_gstStatus (s : State) : s.regNow 0x2000 = some s.gstStatus := s.regNow_gst (by decide) (by decide)

theorem State.regNow_gstAttn (s : State) : s.regNow 0x2004 = some (w32 s.gst.attn.toNat) := s.regNow_gst (by decide) (by decide)

/-- R416: bit 0 is the level of the ATTN output. -/
theorem State.gstStatus_attn (s : State) : s.gstStatus.getLsbD 0 = s.gst.level := by
  have hodd : (b1 s.gst.level + 2 * b1 s.debug + 4 * b1 s.inTest + pl s.openEntries 3) % 2 = b1 s.gst.level := by
    have hbit : b1 s.gst.level < 2 := by cases s.gst.level <;> decide
    unfold pl
    rw [Nat.shiftLeft_eq]
    omega
  unfold State.gstStatus w32
  rw [BitVec.getLsbD_ofNat, Nat.testBit_zero, hodd]
  cases s.gst.level <;> rfl

theorem State.writeAccess_gstAttn (s : State) (v : Word) : s.writeAccess 0x801 v =
    ({ s with gst := { s.gst with attn := s.gst.attn &&& ~~~(v.setWidth 11) } } : State).ctDone 0 false := by
  have hwrite : s.regWrite 0x2004 v = { s with gst := { s.gst with attn := s.gst.attn &&& ~~~(v.setWidth 11) } } :=
    s.regWrite_gst (by decide) (by decide) v
  show (s.regWrite 0x2004 v).ctDone 0 (s.regNow 0x2004).isNone = _
  rw [hwrite, s.regNow_gstAttn, Option.isNone_some]

/-! ### Latched groups (R414) -/

/-- A value other than the default is read back from any map, canonical or not. -/
theorem mget_mput_of_ne {α : Type} [DecidableEq α] {d v : α} (m : Map α) (i : Nat) (hv : v ≠ d) : mget d (mput d m i v) i = v := by
  induction m with
  | nil => simp [mput, mget, hv]
  | cons x m ih =>
    simp only [mput, if_neg hv]
    split
    · simp [mget]
    · split
      · simp [mget]
      · next hne => simp [mget, hne, ih]

section
variable {s : State} {o base n : Nat}

/-- A read of a group's lowest word latches the others. -/
theorem State.ctRead_of_latchGroup_base (hw : o < 0x20000) (hg : latchGroup o = some (o, n)) :
    s.ctRead o = (s.latch o n, s.regNow o) := by
  unfold State.ctRead
  rw [if_neg (by omega), hg]
  dsimp only
  rw [if_pos rfl, if_neg (by omega)]

theorem State.ctRead_of_latched {w : Word} (hw : o < 0x20000) (hg : latchGroup o = some (base, n)) (hne : o ≠ base)
    (hm : mget none s.ct.latch (o / 4) = some w) : s.ctRead o = (s, some w) := by
  unfold State.ctRead
  rw [if_neg (by omega), hg]
  dsimp only
  rw [if_neg hne, hm]

end

/-- The counter's low word is read, and its high word latched. -/
theorem State.readAccess_counter (s : State) : s.readAccess 0x1000 =
    ({ s with ct := { s.ct with latch := mput none s.ct.latch 0x1001 (some (hi32 s.nowInt)) } } : State).ctDone
      (lo32 s.nowInt) false := by
  have hlow : s.regNow 0x4000 = some (lo32 s.nowInt) := s.regNow_time (by decide) (by decide)
  have hhigh : s.regNow 0x4004 = some (hi32 s.nowInt) := s.regNow_time (by decide) (by decide)
  have hlatch : s.latch 0x4000 2 =
      { s with ct := { s.ct with latch := mput none s.ct.latch 0x1001 (some ((s.regNow 0x4004).getD 0)) } } := rfl
  show ((s.ctRead 0x4000).1).ctDone ((s.ctRead 0x4000).2.getD 0) (s.ctRead 0x4000).2.isNone = _
  rw [State.ctRead_of_latchGroup_base (n := 2) (by decide) (by decide), hlatch, hlow, hhigh]
  rfl

theorem State.readAccess_counterHigh {s : State} {w : Word} (hm : mget none s.ct.latch 0x1001 = some w) :
    s.readAccess 0x1001 = s.ctDone w false := by
  show ((s.ctRead 0x4004).1).ctDone ((s.ctRead 0x4004).2.getD 0) (s.ctRead 0x4004).2.isNone = _
  rw [State.ctRead_of_latched (base := 0x4000) (n := 2) (by decide) (by decide) (by decide) hm]
  rfl

/-! ### The hoop window (R283, R292) -/

theorem State.hoopRead_of_good {s : State} {i : Nat} (hi : Bool) (h : (s.hoop i).st = .fault ∨ (s.hoop i).ok = true) :
    s.hoopRead i hi .clean = (s, s.hoopWord i hi) := by
  have hgood : ¬((s.hoop i).st ≠ .fault ∧ (s.hoop i).ok = false) := by
    rcases h with h | h <;> simp [h]
  unfold State.hoopRead State.hoopStorage
  dsimp only
  rw [if_neg hgood]

theorem State.hoopRead_of_bad {s : State} {i : Nat} (hi : Bool) (hst : (s.hoop i).st ≠ .fault) (hok : (s.hoop i).ok = false) :
    s.hoopRead i hi .clean = (s.hoopFault i, (s.hoopFault i).hoopWord i hi) := by
  unfold State.hoopRead State.hoopStorage
  dsimp only
  rw [if_pos ⟨hst, hok⟩]

theorem exec_hoopEntryRead_of_alive {s : State} (i : Fin 49152) (hi : Bool) (ev : StorageEvent) (ha : s.alive = true) :
    exec (.hoopEntryRead i hi ev) s = .next ((s.hoopRead i.val hi ev).1.ctDone (s.hoopRead i.val hi ev).2 false).settle :=
  live_of_alive (fun s => ((s.hoopRead i.val hi ev).1.ctDone (s.hoopRead i.val hi ev).2 false).settle) ha

/-- R417: GST_LOG_RD moves forward within the unread entries alone. -/
theorem State.writeRd_eq (s : State) (v : Word) : ({ s with gst := s.gst.writeRd v } : State) =
    if (v.setWidth 7 - s.gst.logRd).toNat ≤ s.gst.unread then { s with gst := { s.gst with logRd := v.setWidth 7 } } else s := by
  unfold Gst.writeRd Gst.unread
  dsimp only
  split <;> rfl

/-- Settles O56, access by access: the registers at their offsets, the latched group of the counter, and a read of a hoop. -/
theorem registerAccesses : Obligations.RegisterAccesses := by
  unfold Obligations.RegisterAccesses
  intro s hs ha
  refine ⟨fun v => ?logRd, fun v => ?attn, ?status, ?low, fun w hm => ?high, fun i hi => ⟨fun hgood => ?good, fun hst hok => ?bad⟩⟩
  case logRd => exact (live_of_alive (fun s => { s with gst := s.gst.writeRd v }) ha).trans (congrArg _ (s.writeRd_eq v))
  case attn => rw [exec_registerWrite_of_alive _ v ha, s.writeAccess_gstAttn, State.ctDone]
  case status =>
    have hread : s.readAccess 0x800 = s.ctDone s.gstStatus false :=
      (s.readAccess_of_latchGroup_none (.inl (by decide)) (by decide)).trans
        (congrArg (fun r => s.ctDone (r.getD 0) r.isNone) s.regNow_gstStatus)
    exact ⟨s.ctDone s.gstStatus false, by rw [exec_latchedGroupRead_of_alive _ ha, hread], rfl, s.gstStatus_attn⟩
  case low =>
    refine ⟨s.readAccess 0x1000, exec_latchedGroupRead_of_alive _ ha, ?_⟩
    rw [s.readAccess_counter]
    exact ⟨rfl, rfl, mget_mput_of_ne _ _ (Option.some_ne_none _), rfl⟩
  case high => rw [exec_latchedGroupRead_of_alive _ ha, State.readAccess_counterHigh hm, State.ctDone]
  case good => rw [exec_hoopEntryRead_of_alive i hi _ ha, State.hoopRead_of_good hi hgood, State.ctDone]
  case bad =>
    have hread : exec (.hoopEntryRead i hi .clean) s =
        .next ((s.hoopFault i.val).ctDone ((s.hoopFault i.val).hoopWord i.val hi) false).settle := by
      rw [exec_hoopEntryRead_of_alive i hi _ ha, State.hoopRead_of_bad hi hst hok]
    have hhoop : ((s.hoopFault i.val).ctDone ((s.hoopFault i.val).hoopWord i.val hi) false).hoop i.val = (s.hoop i.val).faulted :=
      (State.hoopFault_hoop hs i.val i.val).trans (if_pos rfl)
    refine ⟨_, hread, ?_⟩
    rw [hhoop]
    exact ⟨rfl, rfl, State.hoopFault_attn s i.val, rfl⟩

end Sys2Proof.Machine

/-! SUPPORT. Feeder channels (spec/11): what a channel reads after one of them is changed, halted or disabled, and the entries of the
error log that later operations leave as they are (R417). -/

namespace Sys2Proof.Machine

theorem Only.chan_eq {w : List Fld} {s t : State} (h : Only w s t) (hw : Fld.chans ∉ w) (c : Nat) : t.chan c = s.chan c := by
  unfold State.chan
  rw [h.chans hw]

section
variable {s : State}

theorem State.setChan_chan_same (hs : s.canon) (c : Nat) (x : Chan) : (s.setChan c x).chan c = x := by
  rw [s.setChan_chan_read hs, if_pos rfl]

theorem State.setChan_chan_other (c : Nat) (x : Chan) {i : Nat} (hi : i ≠ c) : (s.setChan c x).chan i = s.chan i :=
  mget_mput_other _ _ _ _ _ hi

/-- A value other than the default is read back whether or not the table is in canonical form. -/
theorem State.setChan_chan_of_ne_zero (s : State) (c : Nat) {x : Chan} (hx : x ≠ Chan.zero) : (s.setChan c x).chan c = x :=
  mget_mput_of_ne s.chans c hx

theorem State.canon.setChan (hs : s.canon) (c : Nat) (x : Chan) : (s.setChan c x).canon :=
  (Keeps.setChan (q := fun _ => true) .refl c x).canon hs

theorem State.canon.setEvtIn (hs : s.canon) (l : Nat) (e : EvtIn) : (s.setEvtIn l e).canon :=
  (Keeps.setEvtIn (q := fun _ => true) .refl l e).canon hs

theorem State.attn_getLsbD_self (s : State) {b : Nat} (hb : b < 11) : (s.attn b).gst.attn.getLsbD b = true := by
  simp [State.attn, hb]

/-! ### The error log while it is not read (R417) -/

/-- From `g` to `g'` the log was not read, and each of its unread entries, found by its number, is as it was. -/
structure Gst.LogGrows (g g' : Gst) : Prop where
  logRd : g'.logRd = g.logRd
  unread : g.unread ≤ g'.unread
  entries : ∀ n : BitVec 7, (n - g.logRd).toNat < g.unread →
    mget LogEntry.zero g'.log (n.toNat % 64) = mget LogEntry.zero g.log (n.toNat % 64)

theorem Gst.LogGrows.refl (g : Gst) : g.LogGrows g := ⟨rfl, Nat.le_refl _, fun _ _ => rfl⟩

theorem Gst.LogGrows.of_eq {g g' : Gst} (h : g' = g) : g.LogGrows g' := h ▸ .refl g

theorem Gst.LogGrows.trans {g g' g'' : Gst} (h : g.LogGrows g') (k : g'.LogGrows g'') : g.LogGrows g'' where
  logRd := k.logRd.trans h.logRd
  unread := Nat.le_trans h.unread k.unread
  entries := fun n hn => (k.entries n (by rw [h.logRd]; exact Nat.lt_of_lt_of_le hn h.unread)).trans (h.entries n hn)

theorem Gst.LogGrows.foldl {β : Type} {g : Gst} (f : State → β → State) (hf : ∀ (t : State) x, t.gst.LogGrows (f t x).gst)
    (l : List β) (hg : g.LogGrows s.gst) : g.LogGrows (l.foldl f s).gst := by
  induction l generalizing s with
  | nil => exact hg
  | cons x l ih => exact ih (hg.trans (hf s x))

theorem State.logWrite_unread (hroom : s.gst.unread < 64) (e : LogEntry) : (s.logWrite e).gst.unread = s.gst.unread + 1 := by
  unfold State.logWrite
  rw [if_neg (Nat.not_le.mpr hroom)]
  unfold Gst.unread at hroom ⊢
  dsimp only
  bv_omega

/-- The entry of an unread number stands at another place of the ring than the next entry. -/
theorem Gst.place_ne {g : Gst} (hroom : g.unread < 64) {n : BitVec 7} (hn : (n - g.logRd).toNat < g.unread) :
    n.toNat % 64 ≠ g.logWr.toNat % 64 := by
  unfold Gst.unread at hroom hn
  bv_omega

theorem State.logWrite_logGrows (s : State) (e : LogEntry) : s.gst.LogGrows (s.logWrite e).gst := by
  by_cases hroom : s.gst.unread < 64
  · refine ⟨?_, by rw [State.logWrite_unread hroom]; exact Nat.le_succ _, fun n hn => ?_⟩
    · unfold State.logWrite
      rw [if_neg (Nat.not_le.mpr hroom)]
    · unfold State.logWrite
      rw [if_neg (Nat.not_le.mpr hroom)]
      exact mget_mput_other _ _ _ _ _ (Gst.place_ne hroom hn)
  · unfold State.logWrite
    rw [if_pos (Nat.not_lt.mp hroom)]
    exact ⟨rfl, Nat.le_refl _, fun _ _ => rfl⟩

theorem State.attn_logGrows (s : State) (b : Nat) : s.gst.LogGrows (s.attn b).gst := ⟨rfl, Nat.le_refl _, fun _ _ => rfl⟩

/-- R107: a fault report writes the log only where no route leads to the decider. -/
theorem State.report_logGrows (s : State) (g : BitVec 12) (k : Word) (code src unit : Nat) :
    s.gst.LogGrows (s.report g k code src unit).gst := by
  unfold State.report
  dsimp only
  split
  · exact .refl _
  · split
    · rename_i hsent
      exact .of_eq (((State.sendRaw_only (w := [.stakes, .vc0]) .refl _ _).ok hsent).gst (by decide))
    · exact (State.logWrite_logGrows _ _).trans
        (.of_eq ((State.cutSide_only (w := [.colls, .stakes, .vc0]) .refl _ _ _).gst (by decide)))
    · exact .of_eq ((State.cutSide_only (w := [.colls, .stakes, .vc0]) .refl _ _ _).gst (by decide))

/-! ### A channel halts (R317) -/

/-- The channel in HALTED. -/
def Chan.halted (x : Chan) (code addr : Nat) : Chan :=
  { x with
    st := .halted, err := BitVec.ofNat 4 code, errAddr := BitVec.ofNat 44 addr, staged := [], sinkq := [], binds := []
    fetchA := none, nextD := none, unacked := 0, endPh := .none, endFor := .desc }

/-- Besides the channel itself, a halt writes the log and ATTN, the feeder's requests and lines, and reports to collectives. -/
theorem State.halt_only_setChan (s : State) (c code addr : Nat) :
    Only [.gst, .fdw, .colls, .stakes, .vc0] (s.setChan c ((s.chan c).halted code addr)) (s.halt c code addr) := by
  have horphan : Only [.gst, .fdw, .colls, .stakes, .vc0] (s.setChan c ((s.chan c).halted code addr))
      ((s.orphan c).setChan c ((s.chan c).halted code addr)) := State.orphan_only (u := s.setChan c _) .refl c
  unfold State.halt
  refine Only.foldl ?_ _ _ (fun _ _ k => State.report_only k _ _ _ _ _)
  split
  · exact State.logEv_only horphan _ _ _ _ _ _ _ _
  · exact State.pulse_only (State.attn_only (State.logEv_only horphan _ _ _ _ _ _ _ _) _) _ _

theorem State.halt_chan_same (hs : s.canon) (c code addr : Nat) : (s.halt c code addr).chan c = (s.chan c).halted code addr := by
  rw [(s.halt_only_setChan c code addr).chan_eq (by decide), State.setChan_chan_same hs]

theorem State.halt_attn (s : State) (c addr : Nat) {code : Nat} (hcode : code ≠ 9) :
    (s.halt c code addr).gst.attn.getLsbD 3 = true := by
  unfold State.halt
  dsimp only
  rw [if_neg hcode]
  exact (Keeps.foldl (q := fun _ => true) (State.pulse_keeps .refl _ _) _ _ (fun _ _ k => State.report_keeps k _ _ _ _ _)).attn 3
    (State.attn_getLsbD_self _ (by decide))

theorem State.pulse_gst (s : State) (l c : Nat) : (s.pulse l c).gst = s.gst :=
  (State.pulse_only (w := [.fdw]) .refl l c).gst (by decide)

theorem State.halt_logGrows (s : State) (c code addr : Nat) : s.gst.LogGrows (s.halt c code addr).gst := by
  unfold State.halt
  refine Gst.LogGrows.foldl _ (fun t b => t.report_logGrows _ _ _ _ _) _ ?_
  have hlog := State.logWrite_logGrows ((s.orphan c).setChan c ((s.chan c).halted code addr))
  split
  · exact hlog _
  · rw [State.pulse_gst]
    exact (hlog _).trans (State.attn_logGrows _ 3)

end

end Sys2Proof.Machine


/-! PROOFS. A write of FD_CTRL (R296, R318, R319): PRI, DISABLE and EN. -/

namespace Sys2Proof.Machine

section
variable {s : State}

theorem exec_fdCtrl_of_alive {c : Fin 64} {v : Word} {i : Instr} (hi : i = .fdEn c v ∨ i = .fdDisable c v ∨ i = .fdPriWrite c v)
    (ha : s.alive = true) : exec i s = .next (s.fdCtrl c.val v) := by
  rcases hi with rfl | rfl | rfl <;> exact live_of_alive (fun s => s.fdCtrl c.val v) ha

/-! ### DISABLE (R318) -/

/-- The channel in DISABLED, with the free values that FD_BEATS, FD_CRC and the loop position take (log entry 2). -/
def Chan.disabled (x : Chan) (beats crc pos : BitVec 64) : Chan :=
  { x with
    st := .disabled, staged := [], sinkq := [], binds := [], fetchA := none, nextD := none, desc := []
    unacked := 0, endPh := .none, endFor := .desc, lastWr := none
    beats := beats.setWidth 32, crc := crc.setWidth 32, issued := pos.toNat, moved := pos.toNat }

/-- Channel `c` in DISABLED, and three free values taken. -/
def State.disabledAt (s : State) (c : Nat) : State :=
  ({ s with free := s.free + 3 } : State).setChan c
    ((s.chan c).disabled (Config.freeValue s.free) (Config.freeValue (s.free + 1)) (Config.freeValue (s.free + 2)))

theorem Only.setChan {w : List Fld} {s t : State} (h : Only w s t) (hw : Fld.chans ∉ w) (c : Nat) (x : Chan) :
    Only w (s.setChan c x) (t.setChan c x) :=
  { h with chans := fun _ => congrArg (fun m => mput Chan.zero m c x) (h.chans hw) }

/-- Besides the channel itself, DISABLE writes the feeder's requests and lines, and reports to collectives. -/
theorem State.disableChan_only_disabledAt (s : State) (c code : Nat) :
    Only [.gst, .fdw, .colls, .stakes, .vc0] (s.disabledAt c) (s.disableChan c code) := by
  have hlines : Only [.gst, .fdw, .colls, .stakes, .vc0] { s with free := s.free + 3 }
      ((({ s with free := s.free + 3 } : State).orphan c).dropPulses c) := State.dropPulses_only (State.orphan_only .refl c) c
  exact Only.foldl (hlines.setChan (by decide) c _) _ _ (fun _ _ k => State.report_only k _ _ _ _ _)

theorem State.disableChan_chan_same (hs : s.canon) (c code : Nat) : (s.disableChan c code).chan c =
    (s.chan c).disabled (Config.freeValue s.free) (Config.freeValue (s.free + 1)) (Config.freeValue (s.free + 2)) := by
  rw [(s.disableChan_only_disabledAt c code).chan_eq (by decide)]
  exact State.setChan_chan_same (s := { s with free := s.free + 3 }) hs c _

theorem State.disableChan_free (s : State) (c code : Nat) : (s.disableChan c code).free = s.free + 3 :=
  (s.disableChan_only_disabledAt c code).free (by decide)

/-! ### EN (R319) -/

/-- EN in service starts the channel from FD_HEAD. -/
def Chan.enabled (x : Chan) : Chan :=
  { x with
    st := .waitTrig, err := 0, late := false, crc := crc32Init, cur := x.head, desc := [], nextD := none
    fetchA := some x.head, beats := 0, issued := 0, moved := 0, staged := [], unacked := 0, endPh := .none
    endFor := .desc, lastWr := none }

theorem State.enableChan_of_stopped {c : Nat} (hsvc : s.inService = true)
    (hst : (s.chan c).st = .disabled ∨ (s.chan c).st = .halted ∨ (s.chan c).st = .idle ∨ (s.chan c).st = .waitTrig) :
    s.enableChan c = (s.orphan c).setChan c (s.chan c).enabled := by
  unfold State.enableChan
  refine if_pos ?_
  rw [hsvc]
  rcases hst with h | h | h | h <;> rw [h] <;> rfl

theorem State.enableChan_of_not {c : Nat} (h : s.inService = false ∨ (s.chan c).st = .active ∨ (s.chan c).st = .paused) :
    s.enableChan c = s := by
  unfold State.enableChan
  refine if_neg ?_
  rcases h with h | h | h <;> rw [h] <;> simp

theorem Chan.enabled_ne_zero (x : Chan) : x.enabled ≠ Chan.zero := fun h => ChSt.noConfusion (congrArg Chan.st h)

theorem State.enableChan_pri (s : State) (c : Nat) : ((s.enableChan c).chan c).pri = (s.chan c).pri := by
  unfold State.enableChan
  dsimp only
  split
  · have henabled := (s.orphan c).setChan_chan_of_ne_zero c (s.chan c).enabled_ne_zero
    exact (congrArg Chan.pri henabled).trans rfl
  · rfl

/-! ### The write -/

/-- FD_CTRL.PRI. -/
def priOf (v : Word) : BitVec 2 := BitVec.ofNat 2 (v.toNat / 4 % 4)

/-- R296: each write stores PRI. -/
def State.writePri (s : State) (c : Nat) (v : Word) : State := s.setChan c { s.chan c with pri := priOf v }

/-- What a write of FD_CTRL does of itself: PRI, then DISABLE, then EN (Table FD-7). -/
def State.writeCtrl (s : State) (c : Nat) (v : Word) : State :=
  let u := if v.getLsbD 1 then (s.writePri c v).disableChan c 7 else s.writePri c v
  if v.getLsbD 0 then u.enableChan c else u

theorem State.fdCtrl_eq (s : State) (c : Nat) (v : Word) : s.fdCtrl c v = (s.writeCtrl c v).settle := by
  have hpri : BitVec.ofNat 2 (wf_ v 3 2) = priOf v := congrArg _ (wf_eq_div_mod v 3 2)
  unfold State.fdCtrl
  rw [hpri]
  rfl

theorem State.canon.writePri (hs : s.canon) (c : Nat) (v : Word) : (s.writePri c v).canon := hs.setChan c _

theorem State.writePri_chan (hs : s.canon) (c : Nat) (v : Word) : (s.writePri c v).chan c = { s.chan c with pri := priOf v } :=
  State.setChan_chan_same hs c _

theorem State.writeCtrl_pri (hs : s.canon) (c : Nat) (v : Word) : ((s.writeCtrl c v).chan c).pri = priOf v := by
  have hpri : ((s.writePri c v).chan c).pri = priOf v := by rw [State.writePri_chan hs]
  have hdis : (((s.writePri c v).disableChan c 7).chan c).pri = priOf v := by
    rw [State.disableChan_chan_same (hs.writePri c v)]
    exact hpri
  unfold State.writeCtrl
  dsimp only
  split <;> split
  · rw [State.enableChan_pri, hdis]
  · rw [State.enableChan_pri, hpri]
  · exact hdis
  · exact hpri

theorem State.writeCtrl_en {c : Nat} {v : Word} (h1 : v.getLsbD 1 = false) (h0 : v.getLsbD 0 = true) :
    s.writeCtrl c v = (s.writePri c v).enableChan c := by
  unfold State.writeCtrl
  rw [h0, h1]
  rfl

theorem State.writeCtrl_disable {c : Nat} {v : Word} (h1 : v.getLsbD 1 = true) (h0 : v.getLsbD 0 = false) :
    s.writeCtrl c v = (s.writePri c v).disableChan c 7 := by
  unfold State.writeCtrl
  rw [h0, h1]
  rfl

theorem State.writeCtrl_pri_alone {c : Nat} {v : Word} (h1 : v.getLsbD 1 = false) (h0 : v.getLsbD 0 = false) :
    s.writeCtrl c v = s.writePri c v := by
  unfold State.writeCtrl
  rw [h0, h1]
  rfl

end

/-- Settles O50, by the bits EN and DISABLE of the word that is written. -/
theorem channelControl : Obligations.ChannelControl := by
  unfold Obligations.ChannelControl
  rintro s c v i x hs ha rfl hi
  have hchan := State.writePri_chan hs c.val v
  refine ⟨s.writeCtrl c.val v, (exec_fdCtrl_of_alive hi ha).trans (congrArg _ (s.fdCtrl_eq c.val v)), State.writeCtrl_pri hs c.val v,
    fun h1 h0 hsvc hst => ?starts, fun h1 h0 hleft => ?left, fun h1 h0 => ?stops, fun h1 h0 => State.writeCtrl_pri_alone h1 h0⟩
  case starts =>
    rw [State.writeCtrl_en h1 h0, State.enableChan_of_stopped (s := s.writePri c.val v) hsvc (by rw [hchan]; exact hst)]
    exact (State.setChan_chan_same (s := (s.writePri c.val v).orphan c.val) (hs.writePri c.val v) c.val _).trans
      (congrArg Chan.enabled hchan)
  case left =>
    rw [State.writeCtrl_en h1 h0, State.enableChan_of_not (s := s.writePri c.val v) (by rw [hchan]; exact hleft), hchan]
    rfl
  case stops =>
    rw [State.writeCtrl_disable h1 h0, State.disableChan_chan_same (hs.writePri c.val v), hchan]
    exact ⟨rfl, rfl, rfl, rfl, rfl, rfl, State.disableChan_free _ _ _⟩

end Sys2Proof.Machine

/-! PROOFS. The memory ports (R297, R298, R302, R370, R371): one request slot, and a response. -/

namespace Sys2Proof.Machine

section
variable {s : State}

theorem exec_feederBeatRequest_of_alive (rdy : BitVec 4) (ha : s.alive = true) :
    exec (.feederBeatRequest rdy) s = .next (s.beatRequest rdy).settle :=
  live_of_alive (fun s => (s.beatRequest rdy).settle) ha

theorem exec_memoryResponse_of_alive (m : Fin 4) (tag : BitVec 8) (wr err : Bool) (data : List Byte) (ha : s.alive = true) :
    exec (.memoryResponse m tag wr err data) s = .next (s.memResponse m.val tag.toNat wr err data).settle :=
  live_of_alive (fun s => (s.memResponse m.val tag.toNat wr err data).settle) ha

/-! ### The request slot -/

/-- R298: without a port that is ready nothing is sent. -/
theorem State.beatRequest_of_no_port {rdy : BitVec 4} (hp : s.nextMem rdy = none) : s.beatRequest rdy = s := by
  unfold State.beatRequest
  rw [hp]

/-- R370: the slot goes to the loader. -/
theorem State.beatRequest_loader {rdy : BitVec 4} {p : Nat} {k : ReqKind} (hp : s.nextMem rdy = some p) (hk : s.loaderBeat = some k) :
    s.beatRequest rdy = { s.request p false (s.img.addr + BitVec.ofNat 44 (64 * s.img.next)) k [] 0 with
      img := { s.img with next := s.img.next + 1 } } := by
  unfold State.beatRequest
  rw [hp, hk]
  rfl

/-- R297: the slot goes to a descriptor fetch. -/
theorem State.beatRequest_fetch {rdy : BitVec 4} {p c : Nat} {a : BitVec 44} (hp : s.nextMem rdy = some p) (hload : s.loaderBeat = none)
    (hsusp : s.suspBeat = none) (hdue : s.fetchDue = some (c, a)) : s.beatRequest rdy =
      (s.setChan c { s.chan c with fetchA := none }).request p false a (.desc c (decide ((s.chan c).desc ≠ []))) [] 0 := by
  unfold State.beatRequest
  rw [hp, hload, hsusp, hdue]
  rfl

/-! ### A response that matches a request (R302, R371) -/

/-- The request that a response answers. -/
def State.answered (s : State) (m tag : Nat) : Option Req :=
  s.fdw.reqs.find? (fun r => decide (r.port = m) && decide (r.tag = tag))

/-- The request is off the list. -/
def State.dropReq (s : State) (r : Req) : State := { s with fdw := { s.fdw with reqs := s.fdw.reqs.erase r } }

theorem State.memResponse_of_answered {m tag : Nat} {wr : Bool} {r : Req} (hr : s.answered m tag = some r) (hw : r.wr = wr)
    (err : Bool) (data : List Byte) : s.memResponse m tag wr err data = (s.dropReq r).respond r err (padTo 64 data) := by
  unfold State.answered at hr
  unfold State.memResponse
  rw [hr]
  exact if_pos hw

theorem State.respond_feed {r : Req} {c b : Nat} (hk : r.kind = .feed c b) (d : List Byte) :
    s.respond r false d = s.setChan c { s.chan c with staged := mput [] (s.chan c).staged b d } := by
  unfold State.respond
  rw [hk]
  rfl

theorem State.respond_feed_error {r : Req} {c b : Nat} (hk : r.kind = .feed c b) (d : List Byte) :
    s.respond r true d = s.halt c 5 r.addr.toNat := by
  unfold State.respond
  rw [hk]
  rfl

/-! ### A response that matches none (R371) -/

theorem State.memResponse_of_unanswered {m tag : Nat} {wr : Bool} (hr : ∀ r, s.answered m tag = some r → r.wr ≠ wr)
    (err : Bool) (data : List Byte) : s.memResponse m tag wr err data = s.badResponse m tag (b1 wr) := by
  unfold State.answered at hr
  unfold State.memResponse
  split
  · exact if_neg (hr _ ‹_›)
  · rfl

/-- The entry of a response to no request. -/
def State.logStray (s : State) (m tag wr : Nat) : State := s.logEv 0x12 3 6 m tag wr

/-- The halts that such a response brings to the channels with a request on its port. -/
def State.haltAtPort (s : State) (reqs : List Req) (m c : Nat) : State :=
  match reqs.find? (fun r => decide (r.port = m) && decide (r.kind ≠ .orphan c) && decide (r.kind.chan? = some c)) with
  | some r => s.halt c 5 r.addr.toNat
  | none => s

theorem State.badResponse_eq (s : State) (m tag wr : Nat) : s.badResponse m tag wr =
    (List.range 64).foldl (fun t c => t.haltAtPort s.fdw.reqs m c) ((s.logStray m tag wr).attn 1) := rfl

theorem State.haltAtPort_keeps {q : Nat → Bool} {u : State} (h : Keeps q s u) (reqs : List Req) (m c : Nat) :
    Keeps q s (u.haltAtPort reqs m c) := by
  unfold State.haltAtPort
  split
  · exact State.halt_keeps h _ _ _ _
  · exact h

theorem State.haltAtPort_logGrows (s : State) (reqs : List Req) (m c : Nat) : s.gst.LogGrows (s.haltAtPort reqs m c).gst := by
  unfold State.haltAtPort
  split
  · exact s.halt_logGrows _ _ _
  · exact .refl _

theorem State.badResponse_attn (s : State) (m tag wr : Nat) : (s.badResponse m tag wr).gst.attn.getLsbD 1 = true := by
  rw [s.badResponse_eq]
  exact (Keeps.foldl (q := fun _ => true) .refl _ _ (fun _ _ k => State.haltAtPort_keeps k _ _ _)).attn 1
    (State.attn_getLsbD_self _ (by decide))

/-- The entry of a number that the next write of the log takes stands once it is written, whatever is logged after it. -/
theorem State.badResponse_log (hs : s.canon) (hroom : s.gst.unread < 64) (m tag wr : Nat) :
    mget LogEntry.zero (s.badResponse m tag wr).gst.log (s.gst.logWr.toNat % 64) =
      { LogEntry.zero with
        v := true, code := 0x12, cls := 3, src := 6, unit := BitVec.ofNat 16 m, arg0 := BitVec.ofNat 32 tag
        arg1 := BitVec.ofNat 32 wr, time := s.nowInt } := by
  have hgrows : (s.logStray m tag wr).gst.LogGrows (s.badResponse m tag wr).gst :=
    Gst.LogGrows.foldl _ (fun t c => t.haltAtPort_logGrows _ _ c) _ (State.attn_logGrows _ 1)
  have hrd : (s.logStray m tag wr).gst.logRd = s.gst.logRd := (s.logWrite_logGrows _).logRd
  have hun : (s.logStray m tag wr).gst.unread = s.gst.unread + 1 := State.logWrite_unread hroom _
  rw [hgrows.entries s.gst.logWr (by rw [hrd, hun]; exact Nat.lt_succ_self s.gst.unread)]
  exact State.logWrite_log hs hroom _

end

/-- Settles O51: the two turns of a request slot, and the responses that match a request for feed data or no request. -/
theorem memoryRequestsAndResponses : Obligations.MemoryRequestsAndResponses := by
  unfold Obligations.MemoryRequestsAndResponses
  refine ⟨fun s rdy hs ha => ⟨fun hp => ?none, fun p k hp hk => ?loader, fun p c a hp hload hsusp hdue => ?fetch⟩,
    fun s m tag wr err data hs ha => ⟨_, exec_memoryResponse_of_alive m tag wr err data ha,
      fun r c b hr hw hk => ⟨?data, ?error⟩, ?stray⟩⟩
  case none => rw [exec_feederBeatRequest_of_alive rdy ha, State.beatRequest_of_no_port hp]
  case loader =>
    rw [exec_feederBeatRequest_of_alive rdy ha, State.beatRequest_loader hp hk]
    rfl
  case fetch =>
    refine ⟨_, (exec_feederBeatRequest_of_alive rdy ha).trans (by rw [State.beatRequest_fetch hp hload hsusp hdue]), rfl, ?_, rfl⟩
    exact State.setChan_chan_same hs c _
  case data =>
    rintro rfl
    rw [State.memResponse_of_answered hr hw, State.respond_feed hk]
    exact ⟨State.setChan_chan_same (s := s.dropReq r) hs c _, rfl⟩
  case error =>
    rintro rfl
    rw [State.memResponse_of_answered hr hw, State.respond_feed_error hk, State.halt_chan_same (s := s.dropReq r) hs]
    exact ⟨rfl, rfl, (BitVec.ofNat_toNat _ _).trans (BitVec.setWidth_eq _), rfl, State.halt_attn _ _ _ (by decide)⟩
  case stray =>
    intro hr
    rw [State.memResponse_of_unanswered hr]
    exact ⟨s.badResponse_attn _ _ _, fun hroom => State.badResponse_log hs hroom _ _ _⟩

end Sys2Proof.Machine

/-! PROOFS. Triggers and the event lines (R310, R311, R316), and the update port's beats (R331). -/

namespace Sys2Proof.Machine

/-! ### COUNTER_TRIGGER (R310, Table FD-3) -/

section
variable {s : State} {c : Nat}

theorem exec_counterTrigger_of_alive (c : Fin 64) (ha : s.alive = true) : exec (.counterTrigger c) s =
    .next (if dTkind (s.chan c.val).desc = 2 then (s.tryTrigger c.val).settle else s) :=
  live_of_alive (fun s => if dTkind (s.chan c.val).desc = 2 then (s.tryTrigger c.val).settle else s) ha

/-- A channel that runs its current descriptor from the first beat. -/
def Chan.triggered (x : Chan) (late : Bool) : Chan :=
  { x with
    st := .active, late := x.late || late, beats := 0, issued := 0, moved := 0, staged := [], unacked := 0
    crc := if dCkRst x.desc then crc32Init else x.crc
    fetchA := if dLast x.desc ∨ (dCkEn x.desc && decide (dNext x.desc = x.cur.toNat)) then none
      else some (BitVec.ofNat 44 (dNext x.desc)) }

theorem Chan.actBind_of_no_binds {x : Chan} (h : x.binds = []) : x.actBind = none := by
  unfold Chan.actBind
  rw [h]

theorem State.checkBind_of_no_binds (h : (s.chan c).binds = []) : s.checkBind c = s := by
  unfold State.checkBind
  dsimp only
  rw [Chan.actBind_of_no_binds h]

/-- R303: without a binding there is nothing to check, and no collective that holds the channel back. -/
theorem State.startDesc_of_no_binds (hs : s.canon) (h : (s.chan c).binds = []) (late : Bool) :
    s.startDesc c late = s.setChan c ((s.chan c).triggered late) := by
  unfold State.startDesc
  dsimp only
  rw [Chan.actBind_of_no_binds h]
  exact State.checkBind_of_no_binds (by rw [State.setChan_chan_same hs]; exact h)

theorem State.tryTrigger_of_not_reached (hk : dTkind (s.chan c).desc = 2) (hr : s.reached (dTcmp (s.chan c).desc) = false) :
    s.tryTrigger c = s := by
  unfold State.tryTrigger
  simp [hk, hr]

theorem State.tryTrigger_of_reached (hk : dTkind (s.chan c).desc = 2) (hr : s.reached (dTcmp (s.chan c).desc) = true)
    (hst : (s.chan c).st = .waitTrig) (hd : (s.chan c).desc ≠ []) : s.tryTrigger c = s.startDesc c (s.chan c).past := by
  unfold State.tryTrigger
  simp [hk, hr, hst, hd]

end

/-! ### EVT_IN (R311) -/

section
variable {s : State} {l : Nat}

theorem exec_evtIn_of_alive (l : Fin 16) (close : Bool) (ha : s.alive = true) :
    exec (.evtIn l close) s = .next (s.onEvt l.val close) :=
  live_of_alive (fun s => s.onEvt l.val close) ha

theorem State.onEvt_of_overrun {close : Bool} (h : close = true ∨ 255 ≤ (s.evtIn l).pend) : s.onEvt l close =
    s.setEvtIn l ⟨(s.evtIn l).pend, min ((s.evtIn l).overrun + 1) 0xFFFF⟩ := by
  unfold State.onEvt
  exact if_pos h

/-- The event is pending. -/
def State.pendEvt (s : State) (l : Nat) : State := s.setEvtIn l ⟨(s.evtIn l).pend + 1, (s.evtIn l).overrun⟩

theorem State.onEvt_of_room (h : (s.evtIn l).pend < 255) : s.onEvt l false = (State.evtServe 64 (s.pendEvt l) l).settle := by
  unfold State.onEvt
  exact if_neg (by simp [h])

theorem State.evtServe_of_no_pending (n : Nat) (h : (s.evtIn l).pend = 0) : State.evtServe n s l = s := by
  cases n with
  | zero => rfl
  | succ n =>
    unfold State.evtServe
    exact if_pos h

theorem State.evtServe_of_no_waiter (n : Nat) (h : s.evtWaiter l = none) : State.evtServe n s l = s := by
  cases n with
  | zero => rfl
  | succ n =>
    unfold State.evtServe
    rw [h]
    exact ite_self _

theorem State.evtServe_succ {c p o : Nat} (n : Nat) (he : s.evtIn l = ⟨p + 1, o⟩) (hw : s.evtWaiter l = some c) :
    State.evtServe (n + 1) s l = State.evtServe n ((s.setEvtIn l ⟨p, o⟩).startDesc c false) l := by
  rw [State.evtServe, if_neg (by rw [he]; exact Nat.succ_ne_zero p), hw, he]
  rfl

theorem State.setEvtIn_evtIn_same (hs : s.canon) (l : Nat) (e : EvtIn) : (s.setEvtIn l e).evtIn l = e := by
  rw [s.setEvtIn_evtIn_read hs, if_pos rfl]

/-- The only pending event of a line starts the channel that waits on it, and none is left. -/
theorem State.evtServe_pendEvt {c : Nat} (hs : s.canon) (n : Nat) (hp : (s.evtIn l).pend = 0) (hw : s.evtWaiter l = some c)
    (hb : (s.chan c).binds = []) : State.evtServe (n + 1) (s.pendEvt l) l =
      ((s.pendEvt l).setEvtIn l ⟨0, (s.evtIn l).overrun⟩).setChan c ((s.chan c).triggered false) := by
  have hline : (s.pendEvt l).evtIn l = ⟨0 + 1, (s.evtIn l).overrun⟩ := by
    unfold State.pendEvt
    rw [State.setEvtIn_evtIn_same hs, hp]
  have hcanon : (s.pendEvt l).canon := hs.setEvtIn l _
  have hstart := State.startDesc_of_no_binds (c := c) (hcanon.setEvtIn l ⟨0, (s.evtIn l).overrun⟩) hb false
  rw [State.evtServe_succ (s := s.pendEvt l) n hline hw, hstart]
  refine State.evtServe_of_no_pending n ?_
  exact congrArg EvtIn.pend (State.setEvtIn_evtIn_same hcanon l ⟨0, (s.evtIn l).overrun⟩)

end

/-! ### EVT_OUT (R316) -/

section
variable {s : State} {l : Nat}

theorem State.pulseEnd_eq (s : State) (l : Nat) : ∃ e : EvtOut, s.pulseEnd l = s.setEvtOut l e := by
  unfold State.pulseEnd
  split <;> exact ⟨_, rfl⟩

theorem State.setEvtOut_evtOut_same (hs : s.canon) (l : Nat) (e : EvtOut) : (s.setEvtOut l e).evtOut l = e := by
  rw [s.setEvtOut_evtOut_read hs, if_pos rfl]

theorem State.pulseEnd_of_next {c : Nat} {q : List Nat} (h : s.evtOut l = ⟨true, c :: q⟩) :
    s.pulseEnd l = s.setEvtOut l ⟨true, q⟩ := by
  unfold State.pulseEnd
  rw [h]

theorem State.pulseEnd_of_last (h : (s.evtOut l).high = false ∨ (s.evtOut l).queued = []) :
    s.pulseEnd l = s.setEvtOut l ⟨false, []⟩ := by
  unfold State.pulseEnd
  split
  · rename_i heq
    rw [heq] at h
    simp at h
  · rfl

end

/-! ### The update port (R331) -/

section
variable {s : State}

theorem exec_updateBeatTaken_of_alive (ha : s.alive = true) : exec .updateBeatTaken s = .next s.updTake.settle :=
  live_of_alive (fun s => s.updTake.settle) ha

/-- Beats join the end of the port's queue, and no record counts as delivered. -/
structure Upd.Queues (x y : Upd) : Prop where
  fifo : x.fifo <+: y.fifo
  records : y.records = x.records
  seals : y.seals = x.seals
  aborts : y.aborts = x.aborts

theorem Upd.Queues.refl (x : Upd) : x.Queues x := ⟨List.prefix_refl _, rfl, rfl, rfl⟩

theorem Upd.Queues.trans {x y z : Upd} (h : x.Queues y) (k : y.Queues z) : x.Queues z :=
  ⟨h.fifo.trans k.fifo, k.records.trans h.records, k.seals.trans h.seals, k.aborts.trans h.aborts⟩

theorem State.updEmit_queues (s : State) (c : Coll) : s.upd.Queues (s.updEmit c).upd := by
  unfold State.updEmit
  split
  · exact .refl _
  · exact ⟨List.prefix_append _ _, rfl, rfl, rfl⟩

theorem State.updPump_queues (n : Nat) (s : State) : s.upd.Queues (State.updPump n s).upd := by
  induction n generalizing s with
  | zero => exact .refl _
  | succ n ih =>
    unfold State.updPump
    split
    · exact .refl _
    · exact (s.updEmit_queues _).trans (ih _)

/-- The counters of Table UP-4 once `b`, the last beat of its record, has been taken. -/
def Upd.delivered (x : Upd) (b : UBeat) : Upd :=
  if b.kind = 0 then { x with records := satInc x.records }
  else if b.kind = 1 then { x with seals := satInc x.seals, elided := if b.elided then satInc x.elided else x.elided }
  else { x with aborts := satInc x.aborts }

theorem State.onColl_upd (s : State) (g : BitVec 12) (k : Word) (f : Coll → Coll) : (s.onColl g k f).upd = s.upd :=
  (State.onColl_only (w := [.colls]) .refl g k f).upd (by decide)

theorem State.updDelivered_upd (s : State) (b : UBeat) : (s.updDelivered b).upd = s.upd.delivered b := by
  unfold State.updDelivered Upd.delivered
  dsimp only
  split
  · split
    · rfl
    · exact State.onColl_upd _ _ _ _
  · split
    · split
      · rfl
      · exact State.onColl_upd _ _ _ _
    · split
      · rfl
      · exact State.onColl_upd _ _ _ _

/-- The offered beat is off the queue, and the last beat of a record has counted it. -/
def Upd.taken (x : Upd) (b : UBeat) (bs : List UBeat) : Upd :=
  if b.eor then ({ x with fifo := bs } : Upd).delivered b else { x with fifo := bs }

theorem State.updTake_of_nil (h : s.upd.fifo = []) : s.updTake = s := by
  unfold State.updTake
  rw [h]

theorem State.updTake_queues {b : UBeat} {bs : List UBeat} (h : s.upd.fifo = b :: bs) :
    (s.upd.taken b bs).Queues s.updTake.upd := by
  unfold State.updTake
  rw [h]
  refine Upd.Queues.trans ?_ (State.updPump_queues 64 _)
  unfold Upd.taken
  split
  · rw [State.updDelivered_upd]
    exact .refl _
  · exact .refl _

theorem Upd.taken_of_more {x : Upd} {b : UBeat} {bs : List UBeat} (he : ¬b.eor = true) : x.taken b bs = { x with fifo := bs } :=
  if_neg he

/-- The last beat of a record counts it by the record's kind. -/
theorem Upd.taken_of_last {x : Upd} {b : UBeat} {bs : List UBeat} (he : b.eor = true) :
    x.taken b bs = ({ x with fifo := bs } : Upd).delivered b := if_pos he

theorem Upd.delivered_of_data {x : Upd} {b : UBeat} (h0 : b.kind = 0) :
    x.delivered b = { x with records := satInc x.records } := if_pos h0

theorem Upd.delivered_of_seal {x : Upd} {b : UBeat} (h0 : ¬b.kind = 0) (h1 : b.kind = 1) :
    x.delivered b = { x with seals := satInc x.seals, elided := if b.elided then satInc x.elided else x.elided } :=
  (if_neg h0).trans (if_pos h1)

theorem Upd.delivered_of_abort {x : Upd} {b : UBeat} (h0 : ¬b.kind = 0) (h1 : ¬b.kind = 1) :
    x.delivered b = { x with aborts := satInc x.aborts } := (if_neg h0).trans (if_neg h1)

/-- The queue and the three counters of records after a beat, by whether it ends its record and by the record's kind. -/
theorem Upd.taken_counts (x : Upd) (b : UBeat) (bs : List UBeat) :
    (x.taken b bs).fifo = bs
    ∧ (x.taken b bs).records = (if b.eor = true ∧ b.kind = 0 then satInc x.records else x.records)
    ∧ (x.taken b bs).seals = (if b.eor = true ∧ b.kind = 1 then satInc x.seals else x.seals)
    ∧ (x.taken b bs).aborts = (if b.eor = true ∧ b.kind ≠ 0 ∧ b.kind ≠ 1 then satInc x.aborts else x.aborts) := by
  by_cases he : b.eor = true
  · rw [Upd.taken_of_last he]
    by_cases h0 : b.kind = 0
    · have h1 : ¬b.kind = 1 := fun h1 => absurd (h0.symm.trans h1) (by decide)
      rw [Upd.delivered_of_data h0]
      exact ⟨rfl, (if_pos ⟨he, h0⟩).symm, (if_neg (fun h => h1 h.2)).symm, (if_neg (fun h => h.2.1 h0)).symm⟩
    · by_cases h1 : b.kind = 1
      · rw [Upd.delivered_of_seal h0 h1]
        exact ⟨rfl, (if_neg (fun h => h0 h.2)).symm, (if_pos ⟨he, h1⟩).symm, (if_neg (fun h => h.2.2 h1)).symm⟩
      · rw [Upd.delivered_of_abort h0 h1]
        exact ⟨rfl, (if_neg (fun h => h0 h.2)).symm, (if_neg (fun h => h1 h.2)).symm, (if_pos ⟨he, h0, h1⟩).symm⟩
  · rw [Upd.taken_of_more he]
    exact ⟨rfl, (if_neg (fun h => he h.1)).symm, (if_neg (fun h => he h.1)).symm, (if_neg (fun h => he h.1)).symm⟩

end

/-- Settles O52, command by command. -/
theorem eventsAndUpdateBeats : Obligations.EventsAndUpdateBeats := by
  unfold Obligations.EventsAndUpdateBeats
  intro s hs ha
  refine ⟨fun c => ⟨fun hk => ?otherKind, fun hk hr => ?early, fun hk hr hst hd hb => ?counter⟩,
    fun l close => ⟨fun h => ?overrun, fun hc hp hw => ?pending, fun c hc hp hw hb => ?starts⟩, fun l => ?pulse, fun l v => ?clear,
    fun h => ?idle, fun b bs h => ?beat⟩
  case otherKind => rw [exec_counterTrigger_of_alive c ha, if_neg hk]
  case early => rw [exec_counterTrigger_of_alive c ha, if_pos hk, State.tryTrigger_of_not_reached hk hr]
  case counter =>
    have hexec : exec (.counterTrigger c) s = .next (s.setChan c.val ((s.chan c.val).triggered (s.chan c.val).past)).settle := by
      rw [exec_counterTrigger_of_alive c ha, if_pos hk, State.tryTrigger_of_reached hk hr hst hd, State.startDesc_of_no_binds hs hb]
    refine ⟨_, hexec, ?_⟩
    rw [State.setChan_chan_same hs]
    exact ⟨rfl, rfl, rfl, fun i hi => State.setChan_chan_other _ _ hi, rfl⟩
  case overrun => rw [exec_evtIn_of_alive l close ha, State.onEvt_of_overrun h]
  case pending =>
    subst hc
    rw [exec_evtIn_of_alive l false ha, State.onEvt_of_room hp, State.evtServe_of_no_waiter 64 (s := s.pendEvt l.val) hw]
    rfl
  case starts =>
    subst hc
    have hcanon : (s.pendEvt l.val).canon := hs.setEvtIn l.val _
    refine ⟨_, (exec_evtIn_of_alive l false ha).trans
      (congrArg _ ((State.onEvt_of_room (by omega)).trans (congrArg _ (State.evtServe_pendEvt hs 63 hp hw hb)))), ?_, ?_⟩
    · rw [State.setChan_chan_same (hcanon.setEvtIn l.val _)]
      rfl
    · exact congrArg EvtIn.pend (State.setEvtIn_evtIn_same hcanon l.val _)
  case pulse =>
    refine ⟨s.pulseEnd l.val, live_of_alive (fun s => s.pulseEnd l.val) ha, ?_, fun c q h => ?_, fun h => ?_⟩
    · obtain ⟨e, he⟩ := s.pulseEnd_eq l.val
      rw [he]
      rfl
    · rw [State.pulseEnd_of_next h, State.setEvtOut_evtOut_same hs]
    · rw [State.pulseEnd_of_last h, State.setEvtOut_evtOut_same hs]
  case clear => exact live_of_alive (fun s => s.evtClr l.val v) ha
  case idle => rw [exec_updateBeatTaken_of_alive ha, State.updTake_of_nil h]
  case beat =>
    obtain ⟨hfifo, hrecords, hseals, haborts⟩ := State.updTake_queues h
    obtain ⟨htail, hdata, hseal, habort⟩ := Upd.taken_counts s.upd b bs
    rw [htail] at hfifo
    exact ⟨s.updTake, exec_updateBeatTaken_of_alive ha, hfifo, hrecords.trans hdata, hseals.trans hseal, haborts.trans habort⟩

end Sys2Proof.Machine

/-! SUPPORT. The pacing of wales (R261): what a tick changes of the power registers is the accumulators of the admission points. -/

namespace Sys2Proof.Machine

/-- The power registers of `t` are those of `s` but for the accumulators of the admission points (R261). -/
def Paced (s t : State) : Prop := t.pwr = { s.pwr with accs := t.pwr.accs }

section
variable {s t u : State}

theorem Paced.refl (s : State) : Paced s s := rfl

theorem Paced.trans (h : Paced s t) (k : Paced t u) : Paced s u :=
  Eq.trans k (congrArg (fun p : Pwr => { p with accs := u.pwr.accs }) h)

theorem Paced.foldl {β : Type} (f : State → β → State) (hf : ∀ t x, Paced t (f t x)) (l : List β) (h : Paced s u) :
    Paced s (l.foldl f u) := by
  induction l generalizing u with
  | nil => exact h
  | cons x l ih => exact ih (h.trans (hf u x))

/-- A change that leaves the power registers alone. -/
theorem Only.paced {w : List Fld} (h : Only w s t) (hw : Fld.pwr ∉ w) : Paced s t := by
  unfold Paced
  rw [h.pwr hw]

/-- The registers of the frame hold the power registers but for the accumulators. -/
theorem Keeps.paced {q : Nat → Bool} (h : Keeps q s t) : Paced s t := by
  have hpwr : { t.calm.pwr with accs := t.pwr.accs } = { s.calm.pwr with accs := t.pwr.accs } := by rw [h.calm]
  exact hpwr

end

/-! ### A message or a flit that passes over this die -/

theorem State.relayMsg_paced (s : State) (dest : Nat) (m : Msg) : Paced s (s.relayMsg dest m).1 := by
  unfold State.relayMsg
  dsimp only
  split
  · split
    · exact (State.relayReserve_only (w := [.adm, .colls]) .refl _ _ _ _ _ _ _).paced (by decide)
    · exact .refl s
  · exact (State.relayReport_only (w := [.adm, .colls, .free]) .refl _ _ _ _ _ _ _).paced (by decide)
  · split
    · exact .refl s
    · exact (State.admitOne_keeps (q := fun _ => true) .refl _ _ _ _ _).paced
  · exact (State.relayRelease_only (w := [.colls]) .refl _ _ _ _ _ _).paced (by decide)
  · exact (State.onColl_only (w := [.colls]) .refl _ _ _).paced (by decide)
  · exact (State.endLeg_only (w := [.colls, .col, .stakes]) .refl _ _ _ _ _ _).paced (by decide)
  · exact (State.endLeg_only (w := [.colls, .col, .stakes]) .refl _ _ _ _ _ _).paced (by decide)
  · exact .refl s

theorem State.relayPayload_paced (s : State) (h : RxHeld) (segs : List Seg) : Paced s (s.relayPayload h segs).1 := by
  unfold State.relayPayload
  split
  · exact s.relayMsg_paced _ _
  · exact .refl s

theorem State.relayFlit_paced (s : State) (n : Nat) (h : RxHeld) (segs : List Seg) : Paced s (s.relayFlit n h segs) := by
  unfold State.relayFlit
  extract_lets p s1 x g k freeAll fs s2 w
  have hpayload : Paced s s1 := s.relayPayload_paced h segs
  have hstake (f : Stake → Stake) : Paced s1 (s1.onStake n f) := (State.onStake_only (w := [.stakes]) .refl n f).paced (by decide)
  have hfree (t : State) (m : Nat) : Paced t (freeAll t m) :=
    (Only.foldl (w := [.stakes]) .refl _ _ (fun t _ k => State.onStake_only k _ _)).paced (by decide)
  have hfault (t : State) (c : Nat) : Paced t (t.routeFault n h g k c) :=
    (State.routeFault_only (w := [.gst, .colls, .stakes, .vc0]) .refl _ _ _ _ _).paced (by decide)
  have hcut (t : State) (m : Nat) : Paced t (t.cutHere g k m) :=
    (State.cutHere_only (w := [.gst, .colls, .stakes, .vc0]) .refl _ _ _).paced (by decide)
  split
  · exact (hfault s _).trans (hfree _ _)
  · split
    · exact hpayload.trans (hstake _)
    · have hrelay : Paced s s2 := hpayload.trans (hstake _)
      split
      · rename_i hsent
        exact hrelay.trans (((State.sendFlits_only (w := [.stakes]) .refl _ _ _).ok hsent).paced (by decide))
      · exact (hrelay.trans (hfault _ _)).trans (hfree _ _)
      · refine Paced.trans ?_ (hfree _ _)
        split
        · split
          · exact hrelay.trans ((State.bounceReserve_only (w := [.stakes, .vc0]) .refl _ _).paced (by decide))
          · exact hrelay.trans (hcut _ _)
        · exact hrelay.trans (hcut _ _)

/-! ### A flit for this die -/

theorem State.segDone_paced (s : State) (n : Nat) (h : RxHeld) (x : Seg) : Paced s (s.segDone n h x) := by
  have hpartial : Paced s (s.partialArrive n h x) := (State.partialArrive_keeps (q := fun _ => true) .refl _ _ _).paced
  have hbad (g : BitVec 12) (k : Word) : Paced s (s.badSeg n g k true) :=
    (State.badSeg_keeps (q := fun _ => true) .refl _ _ _ _).paced
  unfold State.segDone
  split
  · exact hpartial
  · exact (State.downSeg_keeps (q := fun _ => true) .refl _ _).paced
  · exact hpartial
  · exact hpartial
  · exact (State.exSeg_keeps (q := fun _ => true) .refl _ _).paced
  · split
    · exact (State.msgSeg_only (w := [.gst, .time, .colls, .stakes, .vc0]) .refl _ _ _).paced (by decide)
    · exact hbad _ _
  · exact hbad _ _

theorem State.setFrag_paced (s : State) (n vc : Nat) (f : Option Frag) : Paced s (s.setFrag n vc f) :=
  (State.setFrag_only (w := [.stakes]) .refl _ _ _).paced (by decide)

theorem State.segTake_paced (s : State) (n : Nat) (h : RxHeld) (x : Seg) : Paced s (s.segTake n h x).1 := by
  unfold State.segTake
  split
  · split
    · exact .refl s
    · split
      · exact s.segDone_paced _ _ _
      · exact s.setFrag_paced _ _ _
  · split
    · exact .refl s
    · split
      · exact (s.setFrag_paced _ _ _).trans (State.segDone_paced _ _ _ _)
      · split
        · exact .refl s
        · exact s.setFrag_paced _ _ _

theorem State.segsTake_paced (s : State) (n : Nat) (h : RxHeld) (l : List Seg) : Paced s (s.segsTake n h l).1 := by
  induction l generalizing s with
  | nil => exact .refl s
  | cons x xs ih =>
    unfold State.segsTake
    dsimp only
    split
    · exact (s.segTake_paced n h x).trans (ih _)
    · exact s.segTake_paced n h x

theorem State.takeFlit_paced (s : State) (n : Nat) (h : RxHeld) : Paced s (s.takeFlit n h) := by
  have hfree (t : State) : Paced t (t.onStake n (fun y => y.free h.vc)) :=
    (State.onStake_only (w := [.stakes]) .refl _ _).paced (by decide)
  unfold State.takeFlit
  split
  · exact (State.badSeg_keeps (q := fun _ => true) .refl _ _ _ _).paced.trans (hfree _)
  · split
    · exact s.relayFlit_paced _ _ _
    · rename_i segs _ _
      have htaken := (s.segsTake_paced n h segs).trans (hfree _)
      dsimp only
      split
      · exact htaken
      · exact htaken.trans ((State.proto_only (w := [.gst, .stakes]) .refl _ _ _).paced (by decide))

/-! ### The receive buffers, and a tick -/

theorem State.opportunity_paced (s : State) (pt : Nat) : Paced s (s.opportunity pt).2 := rfl

theorem State.rxPump_paced (f : Nat) (s : State) (n vc : Nat) : Paced s (State.rxPump f s n vc) := by
  induction f generalizing s with
  | zero => exact .refl s
  | succ f ih =>
    unfold State.rxPump
    split
    · exact .refl s
    · rename_i h _
      extract_lets a
      have ha : Paced s a.2 := by
        show Paced s (if s.rxPaced h then s.opportunity (ptStake n) else (true, s)).2
        split
        · exact s.opportunity_paced _
        · exact .refl s
      split
      · exact ((ha.trans ((State.onStake_only (w := [.stakes]) .refl _ _).paced (by decide))).trans
          (State.takeFlit_paced _ _ _)).trans (ih _)
      · exact ha

theorem State.rxAll_paced (s : State) (n : Nat) : Paced s (s.rxAll n) :=
  Paced.foldl _ (fun t vc => State.rxPump_paced (t.stake n).rxbuf.length t n vc) _ (.refl s)

theorem State.settle_paced (s : State) : Paced s s.settle := (State.settle_keepsAll .refl).paced

theorem State.tick_paced (s : State) : Paced s s.tick := by
  unfold State.tick
  split
  · extract_lets s1 f s2
    have hedge : Paced s s1 := by
      show Paced s (if s.time.stopped then s else { s with time := s.time.edge })
      split
      · exact .refl s
      · rfl
    have hfree : Paced s1 f.2 := (State.freeNext_only (w := [.free]) .refl).paced (by decide)
    have hwords : Paced f.2 s2 := (State.pclks_only (w := [.stakes, .dbg, .free]) .refl f.1).paced (by decide)
    have hrx : Paced s ((List.range 16).foldl (fun t n => t.rxAll n) s2) :=
      Paced.foldl _ (fun t n => t.rxAll_paced n) _ ((hedge.trans hfree).trans hwords)
    exact (hrx.trans (State.settle_paced _)).trans ((State.updCycle_only (w := [.upd]) .refl).paced (by decide))
  · exact .refl s

end Sys2Proof.Machine

/-! PROOFS. The counter at a tick (R337, R340, R346; log entry 5). -/

namespace Sys2Proof.Machine

/-- R346: one edge takes at most GC_PERIOD / 64 of the remaining correction. -/
theorem slewPart_natAbs_le (r : Int) (per : Nat) : (slewPart r per).natAbs ≤ per / 64 := by
  unfold slewPart
  rw [Int.ofNat_eq_natCast]
  split <;> omega

theorem Time.edge_of_no_step {t : Time} (h : t.stepDue = 0) : t.edge =
    { t with
      now := BitVec.ofInt 80 (Int.ofNat t.now.toNat + Int.ofNat t.gcPer.toNat + slewPart t.slew t.gcPer.toNat)
      slew := t.slew - slewPart t.slew t.gcPer.toNat } := by
  unfold Time.edge
  rw [if_pos h]

theorem Time.edge_of_step {t : Time} (h : t.stepDue ≠ 0) : t.edge =
    { t.move t.stepDue with
      now := BitVec.ofInt 80 (Int.ofNat (t.move t.stepDue).now.toNat + Int.ofNat t.gcPer.toNat + slewPart t.slew t.gcPer.toNat)
      slew := t.slew - slewPart t.slew t.gcPer.toNat, stepDue := 0 } := by
  unfold Time.edge
  rw [if_neg h]
  rfl

/-- R346: what is added after a step is added to the counter as the step left it, modulo 2^80. -/
theorem Time.move_now_add (t : Time) (off x : Int) :
    BitVec.ofInt 80 (Int.ofNat (t.move off).now.toNat + x) = BitVec.ofInt 80 (Int.ofNat t.now.toNat + off + x) := by
  rw [BitVec.ofInt_add, BitVec.ofInt_add (Int.ofNat t.now.toNat + off), Int.ofNat_eq_natCast, BitVec.ofInt_natCast, BitVec.ofNat_toNat,
    BitVec.setWidth_eq]
  rfl

theorem Time.edge_now (t : Time) : t.edge.now =
    BitVec.ofInt 80 (Int.ofNat t.now.toNat + t.stepDue + Int.ofNat t.gcPer.toNat + slewPart t.slew t.gcPer.toNat) := by
  by_cases h : t.stepDue = 0
  · rw [Time.edge_of_no_step h, h, Int.add_zero]
  · rw [Time.edge_of_step h]
    dsimp only
    rw [Int.add_assoc, Time.move_now_add, ← Int.add_assoc]

theorem Time.edge_slew (t : Time) : t.edge.slew = t.slew - slewPart t.slew t.gcPer.toNat := by
  by_cases h : t.stepDue = 0
  · rw [Time.edge_of_no_step h]
  · rw [Time.edge_of_step h]

/-- An edge changes the counter, the correction, the step that waits, and with a step the time of the last usable SYNC. -/
theorem Time.edge_frame (t : Time) :
    t.edge = { t with now := t.edge.now, slew := t.edge.slew, stepDue := 0, lastUse := t.edge.lastUse } := by
  by_cases h : t.stepDue = 0
  · rw [Time.edge_of_no_step h, ← h]
  · rw [Time.edge_of_step h]
    rfl

theorem Time.edge_lastUse {t : Time} (h : t.stepDue = 0) : t.edge.lastUse = t.lastUse := by
  rw [Time.edge_of_no_step h]

/-- Settles O2: the TIME registers of a tick are those of one edge, and its other writes leave the settings alone. -/
theorem idleTickAdvancesCounter : Obligations.IdleTickAdvancesCounter := by
  unfold Obligations.IdleTickAdvancesCounter
  intro s hidle
  have hstep : step s = .next s.tick := by
    unfold step
    rw [hidle]
  have honly := State.tick_only (s := s) (w := [.gst, .time, .adm, .pwr, .chans, .fdw, .hoops, .hoopNet, .ports, .colls, .col,
    .stakes, .exc, .upd, .dbg, .vc0, .free]) .refl
  refine ⟨s.tick, hstep, fun ha hrun => ?runs, fun ha => ?dead, fun ha hstop => ?stands, slewPart_natAbs_le _ _,
    (honly.pending (by decide)).trans hidle, honly.powered (by decide), honly.inReset (by decide), honly.ct (by decide),
    honly.accept (by decide), honly.img (by decide), honly.wl (by decide), honly.tilth (by decide), honly.wrap (by decide),
    s.tick_paced⟩
  case runs =>
    have htime : s.tick.time = s.time.edge := s.tick_time.trans (if_pos ⟨ha, hrun⟩)
    rw [htime]
    exact ⟨s.time.edge_now, s.time.edge_slew, s.time.edge_frame, Time.edge_lastUse⟩
  case dead =>
    unfold State.tick
    rw [if_neg (by rw [ha]; decide)]
  case stands => exact s.tick_time.trans (if_neg (fun h => by rw [h.2] at hstop; cases hstop))

end Sys2Proof.Machine

/-! PROOFS. SYNC and FOLLOW (R343 to R346, Table TA-2): what a stamp keeps, and what an offset does in each state of the die's
time. -/

namespace Sys2Proof.Machine

/-! ### SYNC (R343, R344) -/

section
variable {s : State} (n : Fin 16) (q : BitVec 16) (h : BitVec 8) (ms : BitVec 16)

theorem exec_sync_of_alive (el : BitVec 10) (ha : s.alive = true) : exec (.sync n q h ms el) s =
    .next (s.onSync n.val q h (s.stamp el.toNat) (s.stake n.val).usable) :=
  live_of_alive (fun s => s.onSync n.val q h (s.stamp el.toNat) (s.stake n.val).usable) ha

theorem exec_follow_of_alive (td : BitVec 64) (tf : BitVec 16) (ha : s.alive = true) :
    exec (.follow n q h ms td tf) s = .next (s.onFollow n.val q td tf) :=
  live_of_alive (fun s => s.onFollow n.val q td tf) ha

end

/-- R344: in a NAK state, and in the replay shadow, a stake's SYNC gives no usable stamp. -/
theorem Stake.usable_eq_false {x : Stake} (h : x.nak = true ∨ x.shadow = true) : x.usable = false := by
  unfold Stake.usable
  rcases h with h | h <;> simp [h]

theorem Stake.usable_eq_true {x : Stake} (hnak : x.nak = false) (hshadow : x.shadow = false) : x.usable = true := by
  unfold Stake.usable
  rw [hnak, hshadow]
  rfl

section
variable {s : State} {n : Nat} {q : BitVec 16} {h : BitVec 8} {t : Nat}

theorem State.onSync_of_other (hup : s.upstream ≠ some n) (b : Bool) : s.onSync n q h t b = s := if_pos hup

theorem State.onSync_of_usable (hup : s.upstream = some n) : s.onSync n q h t true =
    { s with time := { s.time with syncRx := some ⟨q, h, t, true⟩, hops := h, lastUse := s.nowInt } } :=
  if_neg (not_not_intro hup)

theorem State.onSync_of_unusable (hup : s.upstream = some n) : s.onSync n q h t false =
    { s with time := { s.time with syncRx := some ⟨q, h, t, false⟩, reject := satInc s.time.reject } } :=
  if_neg (not_not_intro hup)

end

/-! ### The two effects of an offset (R346) -/

theorem State.logEv_time (s : State) (code cls src unit arg0 arg1 : Nat) :
    (s.logEv code cls src unit arg0 arg1).time = s.time :=
  (State.logEv_only (w := [.gst]) .refl _ _ _ _ _ _).time (by decide)

/-- The TIME registers once a step of `off` has been decided: it is taken at once, or waits while REFCLK stands (R340). -/
def Time.afterStep (t : Time) (off : Int) : Time :=
  { (if t.stopped then { t with stepDue := off } else t.move off) with
    slew := 0, stepped := true, steps := satInc t.steps, st := .locked, rejOffs := [], syncCnt := satInc t.syncCnt }

theorem State.timeStep_time (s : State) (off : Int) : (s.timeStep off).time = s.time.afterStep off := by
  unfold State.timeStep Time.afterStep
  dsimp only
  rw [State.logEv_time]
  cases s.time.stopped <;> rfl

/-- R346, R340: a step changes the counter and the time of the last usable SYNC, or waits; the die is LOCKED. -/
theorem Time.afterStep_effect (t : Time) (off : Int) :
    (t.stopped = false → (t.afterStep off).now = BitVec.ofInt 80 (Int.ofNat t.now.toNat + off)
      ∧ (t.afterStep off).lastUse = BitVec.ofInt 64 (Int.ofNat t.lastUse.toNat + off / 65536))
    ∧ (t.stopped = true → (t.afterStep off).now = t.now ∧ (t.afterStep off).stepDue = off) ∧ (t.afterStep off).st = .locked
    ∧ (t.afterStep off).slew = 0 ∧ (t.afterStep off).stepped = true ∧ (t.afterStep off).steps = satInc t.steps
    ∧ (t.afterStep off).rejOffs = [] := by
  unfold Time.afterStep
  refine ⟨fun hrun => ?_, fun hstop => ?_, rfl, rfl, rfl, rfl, rfl⟩
  · rw [hrun]
    exact ⟨rfl, rfl⟩
  · rw [hstop]
    exact ⟨rfl, rfl⟩

/-- The TIME registers that show the last offset, and the SYNC that waits for its FOLLOW. -/
def Time.shown (t : Time) : Word × Option Int × Option SyncRec := (t.offset, t.prevOff, t.syncRx)

theorem Time.afterStep_shown (t : Time) (off : Int) : (t.afterStep off).shown = t.shown := by
  unfold Time.afterStep
  cases t.stopped <;> rfl

/-! ### An offset by the state of the die's time (Table TA-2) -/

/-- An offset is shown, and kept for the agreement of the next one (R345, R360). -/
def State.noteOffset (s : State) (off : Int) : State :=
  { s with time := { s.time with offset := off32 off, prevOff := some off } }

/-- R345: a LOCKED die rejects an offset beyond 32 ns, and keeps the last three in a row. -/
def State.rejectOffset (s : State) (off : Int) : State :=
  { s with time := { s.time with
      reject := satInc s.time.reject, rejOffs := (s.time.rejOffs ++ [off]).drop ((s.time.rejOffs.length + 1) - 3) } }

/-- R345: there are three offsets, and each two of them agree. -/
def agree3 : List Int → Bool
  | [a, b, c] => agree8 a b && agree8 b c && agree8 a c
  | _ => false

theorem agree3_three (a b c : Int) : agree3 [a, b, c] = (agree8 a b && agree8 b c && agree8 a c) := rfl

theorem length_of_agree3 {l : List Int} (h : agree3 l = true) : l.length = 3 := by
  unfold agree3 at h
  split at h
  · rfl
  · cases h

section
variable {s : State} {off : Int}

/-- R345: an offset beyond a slew's reach in FREE or HOLDOVER steps where it agrees with the one before. -/
theorem State.applyOffset_unlocked (hst : s.time.st = .free ∨ (s.time.st = .holdover ∧ 32 * 65536 < off.natAbs)) :
    s.applyOffset off =
      if s.time.prevOff.any (fun p => agree8 p off) = true then (s.noteOffset off).timeStep off else s.noteOffset off := by
  unfold State.applyOffset
  extract_lets prev timeWas u near again
  have hagain : s.time.prevOff.any (fun p => agree8 p off) = again := by
    show prev.any (fun p => agree8 p off) = match prev with | some p => agree8 p off | none => false
    cases prev <;> rfl
  rw [hagain]
  rcases hst with hst | ⟨hst, hfar⟩
  · have hu : u.time.st = .free := hst
    rw [hu]
    rfl
  · have hu : u.time.st = .holdover := hst
    rw [hu]
    exact if_neg (fun h => Nat.not_le.mpr hfar (of_decide_eq_true h))

theorem State.applyOffset_agreed (hst : s.time.st = .free ∨ (s.time.st = .holdover ∧ 32 * 65536 < off.natAbs))
    (hagain : s.time.prevOff.any (fun p => agree8 p off) = true) : s.applyOffset off = (s.noteOffset off).timeStep off :=
  (State.applyOffset_unlocked hst).trans (if_pos hagain)

theorem State.applyOffset_first (hst : s.time.st = .free ∨ (s.time.st = .holdover ∧ 32 * 65536 < off.natAbs))
    (hfirst : s.time.prevOff.any (fun p => agree8 p off) = false) : s.applyOffset off = s.noteOffset off :=
  (State.applyOffset_unlocked hst).trans (if_neg (Bool.eq_false_iff.mp hfirst))

/-- R345, R346: an offset within 32 ns is slewed by a die that has been LOCKED. -/
theorem State.applyOffset_near (hst : s.time.st ≠ .free) (hnear : off.natAbs ≤ 32 * 65536) :
    s.applyOffset off = (s.noteOffset off).timeSlew off := by
  unfold State.applyOffset
  extract_lets prev timeWas u
  cases hu : u.time.st with
  | free => exact absurd hu hst
  | locked => exact if_pos (decide_eq_true hnear)
  | holdover => exact if_pos (decide_eq_true hnear)

/-- R345: a LOCKED die steps where the last three rejected offsets agree. -/
theorem State.applyOffset_far (hst : s.time.st = .locked) (hfar : 32 * 65536 < off.natAbs) : s.applyOffset off =
    if agree3 (s.rejectOffset off).time.rejOffs = true then ((s.noteOffset off).rejectOffset off).timeStep off
    else (s.noteOffset off).rejectOffset off := by
  unfold State.applyOffset
  extract_lets prev timeWas u near again l timeNoted u1
  have hu : u.time.st = .locked := hst
  rw [hu]
  refine (if_neg (fun h => Nat.not_le.mpr hfar (of_decide_eq_true h))).trans ?_
  show _ = if agree3 l = true then u1.timeStep off else u1
  clear_value u1 l
  rcases l with _ | ⟨a, _ | ⟨b, _ | ⟨c, _ | ⟨d, l⟩⟩⟩⟩ <;> rfl

/-- R345: the third of three rejected offsets within 8 ns of each other. -/
theorem State.applyOffset_third {a b : Int} (hst : s.time.st = .locked) (hfar : 32 * 65536 < off.natAbs)
    (hrej : s.time.rejOffs = [a, b]) (hab : agree8 a b = true) (hbc : agree8 b off = true) (hac : agree8 a off = true) :
    s.applyOffset off = ((s.noteOffset off).rejectOffset off).timeStep off := by
  have hthree : (s.rejectOffset off).time.rejOffs = [a, b, off] := by
    unfold State.rejectOffset
    rw [hrej]
    rfl
  have hagree : agree3 [a, b, off] = true := by
    rw [agree3_three, hab, hbc, hac]
    rfl
  rw [State.applyOffset_far hst hfar, hthree, if_pos hagree]

/-- The first two offsets that are rejected in a row are kept. -/
theorem State.rejectOffset_rejOffs (hlen : s.time.rejOffs.length < 2) :
    (s.rejectOffset off).time.rejOffs = s.time.rejOffs ++ [off] := by
  show (s.time.rejOffs ++ [off]).drop ((s.time.rejOffs.length + 1) - 3) = _
  rw [Nat.sub_eq_zero_of_le (by omega), List.drop_zero]

theorem State.applyOffset_reject (hst : s.time.st = .locked) (hfar : 32 * 65536 < off.natAbs)
    (hlen : s.time.rejOffs.length < 2) : s.applyOffset off = (s.noteOffset off).rejectOffset off := by
  have hshort : ¬agree3 (s.time.rejOffs ++ [off]) = true := fun h => by
    have hthree := length_of_agree3 h
    rw [List.length_append, List.length_singleton] at hthree
    omega
  rw [State.applyOffset_far hst hfar, State.rejectOffset_rejOffs hlen, if_neg hshort]

end

/-- In every state the offset is shown and kept, and the SYNC record stays as it was. -/
theorem State.applyOffset_shown (s : State) (off : Int) :
    (s.applyOffset off).time.shown = (off32 off, some off, s.time.syncRx) := by
  have hstep (u : State) (hu : u.time.shown = (off32 off, some off, s.time.syncRx)) :
      (u.timeStep off).time.shown = (off32 off, some off, s.time.syncRx) := by
    rw [State.timeStep_time, Time.afterStep_shown, hu]
  by_cases hnear : off.natAbs ≤ 32 * 65536 ∧ s.time.st ≠ .free
  · rw [State.applyOffset_near hnear.2 hnear.1]
    rfl
  · cases hst : s.time.st with
    | free =>
      rw [State.applyOffset_unlocked (.inl hst)]
      split
      · exact hstep _ rfl
      · rfl
    | holdover =>
      rw [State.applyOffset_unlocked (.inr ⟨hst, Nat.lt_of_not_le fun h => hnear ⟨h, by rw [hst]; decide⟩⟩)]
      split
      · exact hstep _ rfl
      · rfl
    | locked =>
      rw [State.applyOffset_far hst (Nat.lt_of_not_le fun h => hnear ⟨h, by rw [hst]; decide⟩)]
      split
      · exact hstep _ rfl
      · rfl

/-! ### FOLLOW (R343) -/

/-- The SYNC has met its FOLLOW. -/
def State.pairSync (s : State) : State := { s with time := { s.time with syncRx := none } }

theorem State.onFollow_of_usable {s : State} {n : Nat} {r : SyncRec} (hup : s.upstream = some n) (hrx : s.time.syncRx = some r)
    (hu : r.usable = true) (td : BitVec 64) (tf : BitVec 16) : s.onFollow n r.sseq td tf =
      s.pairSync.applyOffset (stampDiff (td.toNat * 65536 + tf.toNat + (s.stake n).hopdly.toNat * 4096) r.tArr) := by
  unfold State.onFollow
  rw [if_neg (not_not_intro hup), hrx]
  dsimp only
  rw [if_neg (not_not_intro rfl), if_pos hu]
  rfl

/-- Settles O44: the offset of a usable pair is applied to the state that has let the SYNC go, by the state of the die's time. -/
theorem timeMessagesAct : Obligations.TimeMessagesAct := by
  unfold Obligations.TimeMessagesAct
  refine ⟨fun s n q h ms el ha => ⟨fun hup => ?other, fun hup hnak hshadow => ?usable, fun hup hbad => ?unusable⟩,
    fun s n q h ms td tf r off ha hup hrx hq hu hoff => ?follow⟩
  case other => rw [exec_sync_of_alive n q h ms el ha, State.onSync_of_other hup]
  case usable =>
    rw [exec_sync_of_alive n q h ms el ha, Stake.usable_eq_true hnak hshadow, State.onSync_of_usable hup]
    rfl
  case unusable =>
    rw [exec_sync_of_alive n q h ms el ha, Stake.usable_eq_false hbad, State.onSync_of_unusable hup]
    rfl
  case follow =>
    subst hq
    have hexec : exec (.follow n r.sseq h ms td tf) s = .next (s.pairSync.applyOffset off) := by
      rw [exec_follow_of_alive n r.sseq h ms td tf ha, State.onFollow_of_usable hup hrx hu, hoff]
    obtain ⟨hoffset, hprev, hsync⟩ : (s.pairSync.applyOffset off).time.offset = off32 off
        ∧ (s.pairSync.applyOffset off).time.prevOff = some off ∧ (s.pairSync.applyOffset off).time.syncRx = none := by
      simpa [Time.shown, State.pairSync] using s.pairSync.applyOffset_shown off
    refine ⟨_, hexec, hoffset, hprev, hsync, fun hsteps => ?steps, fun hst hnear => ?slews, fun hst hfirst => ?waits,
      fun hst hfar hlen => ?rejects⟩
    case steps =>
      rcases hsteps with ⟨hst, hagain⟩ | ⟨hst, hfar, hagain⟩ | ⟨hst, hfar, a, b, hrej, hab, hbc, hac⟩
      · rw [State.applyOffset_agreed (s := s.pairSync) (.inl hst) hagain, State.timeStep_time]
        exact Time.afterStep_effect (s.pairSync.noteOffset off).time off
      · rw [State.applyOffset_agreed (s := s.pairSync) (.inr ⟨hst, hfar⟩) hagain, State.timeStep_time]
        exact Time.afterStep_effect (s.pairSync.noteOffset off).time off
      · rw [State.applyOffset_third (s := s.pairSync) hst hfar hrej hab hbc hac, State.timeStep_time]
        exact Time.afterStep_effect ((s.pairSync.noteOffset off).rejectOffset off).time off
    case slews =>
      rw [State.applyOffset_near (s := s.pairSync) hst hnear]
      exact ⟨rfl, rfl, rfl, rfl, rfl⟩
    case waits =>
      rw [State.applyOffset_first (s := s.pairSync) hst hfirst]
      exact ⟨rfl, rfl, rfl, rfl⟩
    case rejects =>
      rw [State.applyOffset_reject (s := s.pairSync) hst hfar hlen]
      exact ⟨rfl, hst, State.rejectOffset_rejOffs (s := s.pairSync.noteOffset off) hlen, rfl⟩

end Sys2Proof.Machine

/-! PROOFS. The other events of time (R337, R340 to R342, Table TA-2): SYNC_DUE, TIME_HOLDOVER, REFCLK and GC_PERIOD. -/

namespace Sys2Proof.Machine

/-! ### Sending time on one stake (R341, R342) -/

/-- R188: a body of at most 236 bytes takes one flit. -/
theorem segPayloads_length_of_le {body : List Byte} (h : body.length ≤ 236) (kind group ktag wale : Nat) :
    (segPayloads kind group ktag wale body).length = 1 := by
  unfold segPayloads fragments
  rw [if_pos h]
  rfl

theorem toLe_length (n v : Nat) : (toLe n v).length = n := by
  induction n generalizing v with
  | zero => rfl
  | succ n ih => rw [toLe, List.length_cons, ih]

theorem syncBytes_length (q h tm : Nat) : (syncBytes q h tm).length = 8 := by
  simp only [syncBytes, List.length_append, toLe_length]

theorem followBytes_length (q h tm t f : Nat) : (followBytes q h tm t f).length = 18 := by
  simp only [followBytes, List.length_append, toLe_length]

/-- R341: SYNC and FOLLOW are two flits behind those that wait on the stake. -/
theorem State.sendSync_eq (s : State) (n : Nat) : ∃ fs : List TxFlit, fs.length = 2 ∧
    s.sendSync n = { s.enqueue n fs with time := { s.time with sseqTx := s.time.sseqTx + 1 } } := by
  refine ⟨_, ?_, rfl⟩
  rw [List.length_append, List.length_map, List.length_map, segPayloads_length_of_le (by rw [syncBytes_length]; decide),
    segPayloads_length_of_le (by rw [followBytes_length]; decide)]

/-- What SYNC_DUE does at one stake. -/
def State.syncOne (s : State) (n : Nat) : State :=
  if s.upBond.contains n then s
  else match (s.stake n).st with
    | .inService => s.sendSync n
    | .training => s.onStake n (fun x => { x with syncDue := true })
    | _ => s

/-- R341, R342: what SYNC_DUE makes of a stake `x`; `up` says that it belongs to the upstream bond. -/
structure TimeSent (up : Bool) (x y : Stake) : Prop where
  service : up = false → x.st = .inService → x.txq <+: y.txq ∧ y.txq.length = x.txq.length + 2
  training : up = false → x.st = .training → y = { x with syncDue := true }
  upstream : up = true → y = x

/-- A stake that is neither in service nor in training is sent nothing. -/
theorem TimeSent.unchanged {x : Stake} (up : Bool) (hservice : x.st ≠ .inService) (htraining : x.st ≠ .training) :
    TimeSent up x x :=
  ⟨fun _ h => absurd h hservice, fun _ h => absurd h htraining, fun _ => rfl⟩

section
variable {s t : State}

/-- The upstream bond depends on the image and on the die's own name alone. -/
theorem State.upBond_congr (himg : t.img = s.img) (hwl : t.wl = s.wl) : t.upBond = s.upBond := by
  have hown : t.own = s.own := congrArg (fun w : Wl => w.dieId.toNat) hwl
  have htm : t.tm = s.tm := congrArg (fun i : Img => i.cfg.tmDie.toNat) himg
  have hmaster : t.isMaster = s.isMaster := by
    unfold State.isMaster State.cfgShown
    rw [himg, hown, htm]
  have hroute (d : Nat) : t.routeNext d = s.routeNext d := by
    unfold State.routeNext
    rw [himg, hown]
  unfold State.upBond
  rw [hmaster, htm, hroute, himg]

theorem State.syncOne_only (s : State) (n : Nat) : Only [.time, .stakes] s (s.syncOne n) := by
  unfold State.syncOne
  split
  · exact .refl
  · split
    · exact State.sendSync_only .refl n
    · exact State.onStake_only .refl _ _
    · exact .refl

theorem State.syncOne_upBond (s : State) (n : Nat) : (s.syncOne n).upBond = s.upBond :=
  State.upBond_congr ((s.syncOne_only n).img (by decide)) ((s.syncOne_only n).wl (by decide))

/-- At one stake SYNC_DUE changes nothing, the stake alone, or the stake and the number of the next SYNC. -/
theorem State.syncOne_eq (s : State) (n : Nat) : s.syncOne n = s ∨ ∃ (f : Stake → Stake) (q : BitVec 16),
    s.syncOne n = { s.onStake n f with time := { s.time with sseqTx := q } } := by
  unfold State.syncOne
  split
  · exact .inl rfl
  · split
    · obtain ⟨fs, -, hsend⟩ := s.sendSync_eq n
      exact .inr ⟨_, _, hsend⟩
    · exact .inr ⟨fun x => { x with syncDue := true }, s.time.sseqTx, rfl⟩
    · exact .inl rfl

theorem State.syncOne_time (s : State) (n : Nat) : (s.syncOne n).time.syncAt = s.time.syncAt ∧ (s.syncOne n).time.now = s.time.now := by
  obtain h | ⟨f, q, h⟩ := s.syncOne_eq n
  · rw [h]
    exact ⟨rfl, rfl⟩
  · rw [h]
    exact ⟨rfl, rfl⟩

theorem State.syncOne_stake_other (s : State) {n k : Nat} (hk : k ≠ n) : (s.syncOne n).stake k = s.stake k := by
  obtain h | ⟨f, q, h⟩ := s.syncOne_eq n
  · rw [h]
  · rw [h]
    exact s.onStake_stake_other hk f

theorem State.syncOne_stakes_wf (hw : mwf Stake.zero s.stakes = true) (n : Nat) :
    mwf Stake.zero (s.syncOne n).stakes = true := by
  obtain h | ⟨f, q, h⟩ := s.syncOne_eq n
  · rw [h]
    exact hw
  · rw [h]
    exact State.onStake_stakes_wf hw n f

theorem State.syncOne_sent (hw : mwf Stake.zero s.stakes = true) (n : Nat) :
    TimeSent (s.upBond.contains n) (s.stake n) ((s.syncOne n).stake n) := by
  unfold State.syncOne
  by_cases hup : s.upBond.contains n = true
  · rw [if_pos hup, hup]
    exact ⟨Bool.noConfusion, Bool.noConfusion, fun _ => rfl⟩
  · rw [if_neg hup]
    cases hst : (s.stake n).st with
    | inService =>
      obtain ⟨fs, hlen, hsend⟩ := s.sendSync_eq n
      have hown : (s.sendSync n).stake n = { s.stake n with txq := (s.stake n).txq ++ fs } := by
        rw [hsend]
        exact State.onStake_stake_same hw n (fun x => { x with txq := x.txq ++ fs })
      refine ⟨fun _ _ => ?_, fun _ h => (nomatch hst.symm.trans h), fun h => absurd h hup⟩
      dsimp only
      rw [hown]
      exact ⟨List.prefix_append _ _, by rw [List.length_append, hlen]⟩
    | training =>
      exact ⟨fun _ h => (nomatch hst.symm.trans h), fun _ _ => State.onStake_stake_same hw n _, fun h => absurd h hup⟩
    | idle => exact .unchanged _ (by rw [hst]; decide) (by rw [hst]; decide)
    | down => exact .unchanged _ (by rw [hst]; decide) (by rw [hst]; decide)

/-! ### SYNC_DUE over all stakes -/

theorem State.foldl_syncOne_stake_of_notMem (l : List Nat) (s : State) {n : Nat} (hn : n ∉ l) :
    (l.foldl State.syncOne s).stake n = s.stake n := by
  induction l generalizing s with
  | nil => rfl
  | cons k l ih =>
    obtain ⟨hk, hl⟩ := not_or.mp (mt List.mem_cons.mpr hn)
    exact (ih (s.syncOne k) hl).trans (s.syncOne_stake_other hk)

theorem State.foldl_syncOne_time (l : List Nat) (s : State) :
    (l.foldl State.syncOne s).time.syncAt = s.time.syncAt ∧ (l.foldl State.syncOne s).time.now = s.time.now := by
  induction l generalizing s with
  | nil => exact ⟨rfl, rfl⟩
  | cons k l ih =>
    obtain ⟨hat, hnow⟩ := s.syncOne_time k
    obtain ⟨hats, hnows⟩ := ih (s.syncOne k)
    exact ⟨hats.trans hat, hnows.trans hnow⟩

/-- Each stake is served once: what is sent on the others leaves it, and the upstream bond, as they were. -/
theorem State.foldl_syncOne_sent (l : List Nat) (hl : l.Nodup) (hw : mwf Stake.zero s.stakes = true) {n : Nat} (hn : n ∈ l) :
    TimeSent (s.upBond.contains n) (s.stake n) ((l.foldl State.syncOne s).stake n) := by
  induction l generalizing s with
  | nil => cases hn
  | cons k l ih =>
    obtain ⟨hkl, hnodup⟩ := List.nodup_cons.mp hl
    rw [List.foldl_cons]
    by_cases he : n = k
    · subst he
      rw [State.foldl_syncOne_stake_of_notMem l _ hkl]
      exact State.syncOne_sent hw n
    · rw [← s.syncOne_upBond k, ← s.syncOne_stake_other he]
      exact ih hnodup (State.syncOne_stakes_wf hw k) ((List.mem_cons.mp hn).resolve_left he)

/-- The next SYNC_DUE is counted from now. -/
def State.markSync (s : State) : State := { s with time := { s.time with syncAt := s.nowInt } }

theorem State.syncAll_of_due (hsend : s.sendsTime = true) (hrun : s.time.stopped = false)
    (hdue : s.reached (s.time.syncAt + 8192#64) = true) : s.syncAll = (List.range 16).foldl State.syncOne s.markSync :=
  if_neg (by rw [hsend, hrun, hdue]; decide)

theorem State.syncAll_of_not_due
    (h : s.sendsTime = false ∨ s.time.stopped = true ∨ s.reached (s.time.syncAt + 8192#64) = false) : s.syncAll = s := if_pos h

end

/-! ### TIME_HOLDOVER and REFCLK_LOST (R340, R345) -/

/-- The log entry of a die that goes to HOLDOVER (Table ER-2). -/
def holdoverEntry (hops : BitVec 8) : LogEntry :=
  { LogEntry.zero with v := true, code := 0x1F, cls := 5, src := 12, arg1 := BitVec.ofNat 32 hops.toNat }

theorem State.logEv_holdover (s : State) (hops : BitVec 8) :
    s.logEv 0x1F 5 12 0 0 hops.toNat = s.logged (holdoverEntry hops) := s.logWrite_eq_logged (holdoverEntry hops)

/-- The state of a die that has gone to HOLDOVER. -/
def State.heldOver (s : State) : State :=
  { s.logged (holdoverEntry s.time.hops) with time := { s.time with st := .holdover, rejOffs := [] } }

section
variable {s : State}

theorem exec_timeHoldover_of_due (ha : s.alive = true) (hst : s.time.st = .locked) (hm : s.isMaster = false)
    (hd : s.wl.dieId ≠ s.time.tmDie) (hr : s.reached (s.time.lastUse + 32768#64) = true) :
    exec .timeHoldover s = .next s.heldOver := by
  refine (live_of_alive _ ha).trans (congrArg _ ((if_pos ⟨hst, hm, hd, hr⟩).trans ?_))
  dsimp only
  rw [State.logEv_holdover]
  rfl

theorem exec_timeHoldover_of_not_due (ha : s.alive = true) (h : s.time.st ≠ .locked ∨ s.isMaster = true ∨ s.wl.dieId = s.time.tmDie
    ∨ s.reached (s.time.lastUse + 32768#64) = false) : exec .timeHoldover s = .next s := by
  refine (live_of_alive _ ha).trans (congrArg _ (if_neg (fun ⟨hst, hm, hd, hr⟩ => ?_)))
  rcases h with h | h | h | h
  · exact h hst
  · rw [hm] at h
    cases h
  · exact hd h
  · rw [hr] at h
    cases h

end

/-- The two log entries of a lost REFCLK, of the counter and of the tilth monitors, and ATTN bit 7 between them. -/
def State.logRefLost (s : State) : State := ((s.logEv 0x1E 7 12 0 0 0).attn 7).logEv 0x1D 5 11 0 0 0

theorem State.logRefLost_eq_gst (s : State) : s.logRefLost = { s with gst := s.logRefLost.gst } := by
  unfold State.logRefLost State.logEv
  rw [State.logWrite_eq_logged, State.logWrite_eq_logged]
  rfl

theorem State.logRefLost_attn (s : State) : s.logRefLost.gst.attn.getLsbD 7 = true :=
  (Keeps.logEv (q := fun _ => true) .refl _ _ _ _ _ _ _ _).attn 7 (State.attn_getLsbD_self _ (by decide))

theorem State.refLost_of_running {s : State} (h : s.time.stopped = false) : s.refLost =
    { s with
      gst := s.logRefLost.gst, time := { s.time with stopped := true, lost := true }
      tilth := { s.tilth with refLost := true } } := by
  unfold State.refLost
  rw [if_neg (by rw [h]; decide)]
  show ({ s.logRefLost with
      time := { s.logRefLost.time with stopped := true, lost := true }
      tilth := { s.logRefLost.tilth with refLost := true } } : State) = _
  rw [s.logRefLost_eq_gst]

/-- Settles O45, event by event. -/
theorem timeEventsAct : Obligations.TimeEventsAct := by
  unfold Obligations.TimeEventsAct
  intro s hs ha
  refine ⟨fun hsend hrun hdue => ?due, fun h => ?early, fun hst hm hd hr => ?holdover, exec_timeHoldover_of_not_due ha,
    fun hrun => ?lost, live_of_alive (fun s => { s with time := { s.time with stopped := false } }) ha,
    fun v => live_of_alive (fun s => s.gcPeriod v) ha⟩
  case due =>
    have hexec : exec .syncDue s = .next s.syncAll := live_of_alive (fun s => s.syncAll) ha
    rw [State.syncAll_of_due hsend hrun hdue] at hexec
    obtain ⟨hat, hnow⟩ := State.foldl_syncOne_time (List.range 16) s.markSync
    refine ⟨_, hexec, hat, hnow, fun n hn => ?_⟩
    obtain ⟨hservice, htraining, hupstream⟩ : TimeSent (s.upBond.contains n) (s.stake n) _ :=
      State.foldl_syncOne_sent (s := s.markSync) (List.range 16) List.nodup_range hs.fields.stakes (List.mem_range.mpr hn)
    exact ⟨hservice, htraining, hupstream⟩
  case early => exact (live_of_alive (fun s => s.syncAll) ha).trans (congrArg _ (State.syncAll_of_not_due h))
  case holdover =>
    exact ⟨_, exec_timeHoldover_of_due ha hst hm hd hr, rfl, fun hroom => State.logWrite_log hs hroom _⟩
  case lost =>
    refine ⟨_, live_of_alive (fun s => s.refLost) ha, ?_⟩
    rw [State.refLost_of_running hrun]
    exact ⟨rfl, s.logRefLost_attn⟩

end Sys2Proof.Machine

/-! PROOFS. The machine as a whole (spec/95): which command a step runs, that every command is carried out, what each leaves alone,
and what every step keeps. -/

namespace Sys2Proof.Machine

/-! ### Every command is carried out -/

/-- What a command may change, by its row. -/
theorem exec_only (c : Instr) (s : State) : NextOnly (Sys2Proof.Instr.writes c) s (exec c s) := by
  cases c with
  | fusedIssue => exact execFusedIssue_only s _ _ _
  | arm => exact execArm_only s _ _ _
  | signal => exact execSignal_only s _ _ _
  | wait => exact execWait_only s _ _ _
  | disarm => exact execDisarm_only s _ _ _
  | hoopSignalArrival => exact execHoopSignalArrival_only s _ _
  | hoopTimeout => exact execHoopTimeout_only s _
  | ctxSwitch => exact execCtxSwitch_only s _
  | sendWale => exact execSendWale_only s _ _ _
  | combineWale => exact execCombineWale_only s _ _ _ _ _
  | rxWaleTaken => exact execRxWaleTaken_only s _
  | statusTaken => exact execStatusTaken_only s _
  | terminalTokenTaken => exact execTerminalTokenTaken_only s _
  | agree => exact execAgree_only s _
  | refuse => exact execRefuse_only s _
  | gatherLimitExpiry => exact execGatherLimitExpiry_only s _ _
  | reserve => exact execReserve_only s _
  | reserveReport => exact execReserveReport_only s _
  | admission => exact execAdmission_only s _
  | releaseReservation => exact execReleaseReservation_only s _
  | reserveRetry => exact execReserveRetry_only s _ _
  | queuedLong => exact execQueuedLong_only s _ _
  | launchFire => exact execLaunchFire_only s _ _
  | boundExpiry => exact execBoundExpiry_only s _ _
  | fault => exact execFault_only s _
  | close => exact execClose_only s _
  | allSent => exact execAllSent_only s _
  | token => exact execToken_only s _
  | fprint => exact execFprint_only s _
  | wcred => exact execWcred_only s _
  | xcred => exact execXcred_only s _
  | lost => exact execLost_only s _
  | entryAbort => exact execEntryAbort_only s _ _
  | colKill => exact execColKill_only s _
  | suspend => exact execSuspend_only s _
  | resume => exact execResume_only s _
  | susp => exact execSusp_only s _
  | suspendDrainDone => exact execSuspendDrainDone_only s _
  | suspendRecordWritten => exact execSuspendRecordWritten_only s _
  | resumeReloadDone => exact execResumeReloadDone_only s _
  | suspDone => exact execSuspDone_only s _
  | dataFlitReceive => exact execDataFlitReceive_only s _ _ _
  | linkFlitReceive => exact execLinkFlitReceive_only s _ _
  | ackTimeout => exact execAckTimeout_only s _
  | nakRepeat => exact execNakRepeat_only s _
  | linkFlitDue => exact execLinkFlitDue_only s _
  | replayShadowEnd => exact execReplayShadowEnd_only s _
  | trainFlitReceive => exact execTrainFlitReceive_only s _ _ _
  | idFlitDue => exact execIdFlitDue_only s _
  | probeRetry => exact execProbeRetry_only s _
  | trainingWord => exact execTrainingWord_only s _ _ _
  | trainingTimeout => exact execTrainingTimeout_only s _
  | phyResetDone => exact execPhyResetDone_only s _
  | skPhyRdyRise => exact execSkPhyRdyRise_only s _ _
  | skPhyRdyFall => exact execSkPhyRdyFall_only s _ _
  | skLaneFlt => exact execSkLaneFlt_only s _ _
  | retrain => exact execRetrain_only s _
  | clrcnt => exact execClrcnt_only s _
  | syncDue => exact execSyncDue_only s
  | sync n q h ms el => exact execSync_only s n q h ms el
  | follow n q h ms td tf => exact execFollow_only s n q h ms td tf
  | timeHoldover => exact execTimeHoldover_only s
  | refclkLost => exact execRefclkLost_only s
  | refclkRestored => exact execRefclkRestored_only s
  | calibration => exact execCalibration_only s
  | monitorSample => exact execMonitorSample_only s _ _ _ _
  | tilthWindowEnd => exact execTilthWindowEnd_only s _
  | tapChangeApply => exact execTapChangeApply_only s _ _
  | snap => exact execSnap_only s _
  | snapshotCopy => exact execSnapshotCopy_only s
  | historyLoad => exact execHistoryLoad_only s _
  | tilForce => exact execTilForce_only s _
  | governorInterval => exact execGovernorInterval_only s _ _
  | throttleChange => exact execThrottleChange_only s _
  | pwrCfgWrite => exact execPwrCfgWrite_only s _
  | fdEn => exact execFdEn_only s _ _
  | fdDisable => exact execFdDisable_only s _ _
  | fdPriWrite => exact execFdPriWrite_only s _ _
  | feederBeatRequest => exact execFeederBeatRequest_only s _
  | memoryResponse => exact execMemoryResponse_only s _ _ _ _ _
  | counterTrigger => exact execCounterTrigger_only s _
  | evtIn => exact execEvtIn_only s _ _
  | evtOutPulseEnd => exact execEvtOutPulseEnd_only s _
  | fdEvtClr => exact execFdEvtClr_only s _ _
  | updateBeatTaken => exact execUpdateBeatTaken_only s
  | resetAssert => exact execResetAssert_only s
  | resetRelease => exact execResetRelease_only s
  | fuseAck => exact execFuseAck_only s _ _ _
  | fuseTimeout => exact execFuseTimeout_only s
  | wlProg => exact execWlProg_only s _
  | gcPeriodWrite => exact execGcPeriodWrite_only s _
  | featAcceptWrite => exact execFeatAcceptWrite_only s _ _
  | load => exact execLoad_only s _
  | imageCheckDone => exact execImageCheckDone_only s
  | imageApplyDone => exact execImageApplyDone_only s
  | signoff => exact execSignoff_only s _
  | gstLogRdWrite => exact execGstLogRdWrite_only s _
  | setCount => exact execSetCount_only s _
  | setTarget => exact execSetTarget_only s _
  | debugRelease => exact execDebugRelease_only s _
  | dbgInject => exact execDbgInject_only s _
  | dbgEnChange => exact execDbgEnChange_only s _
  | latchedGroupRead => exact execLatchedGroupRead_only s _
  | registerWrite => exact execRegisterWrite_only s _ _
  | wsBypass => exact execWsBypass_only s
  | wsExtest => exact execWsExtest_only s
  | wsIntest => exact execWsIntest_only s
  | szMbist => exact execSzMbist_only s
  | szDlysweep => exact execSzDlysweep_only s
  | szIdcode => exact execSzIdcode_only s
  | szCtrl => exact execSzCtrl_only s _ _
  | idleFlitReceive => exact execIdleFlitReceive_only s _ _
  | hoopEntryRead => exact execHoopEntryRead_only s _ _ _
  | vddSzRemoval => exact execVddSzRemoval_only s

/-- The queue belongs to the step: no command names it among what it writes. -/
theorem pending_not_mem_writes (c : Instr) : Fld.pending ∉ Sys2Proof.Instr.writes c := by
  cases c <;> exact of_decide_eq_true rfl

/-- Settles O7: the frame of each command, row by row. -/
theorem commandFrame : Obligations.CommandFrame := by
  unfold Obligations.CommandFrame
  intro c s t h
  obtain ⟨u, hu, honly⟩ := exec_only c s
  obtain rfl : u = t := Host.Outcome.next.inj (hu.symm.trans h)
  exact honly

/-- Settles O6: a command's frame gives its next state, and the queue lies outside every frame. -/
theorem everyCommandCompletes : Obligations.EveryCommandCompletes := by
  unfold Obligations.EveryCommandCompletes
  intro c s
  obtain ⟨t, ht, honly⟩ := exec_only c s
  exact ⟨t, ht, honly.pending (pending_not_mem_writes c)⟩

theorem step_of_cons {s : State} {c : Instr} {rest : List Instr} (h : s.pending = c :: rest) :
    step s = exec c { s with pending := rest } := by
  unfold step
  rw [h]

theorem step_of_nil {s : State} (h : s.pending = []) : step s = .next s.tick := by
  unfold step
  rw [h]

/-- Settles O1: on a queue that is not empty a step is its front command. -/
theorem stepRunsFrontCommand : Obligations.StepRunsFrontCommand := by
  unfold Obligations.StepRunsFrontCommand
  exact fun s c rest h => step_of_cons h

/-! ### What a step can do -/

/-- A command of a block that lives has its meaning; of one that does not, none (R390, R391). -/
theorem live_eq_next {s t : State} {f : State → State} (h : live s f = .next t) : s.alive = true ∧ t = f s ∨ t = s := by
  unfold live at h
  split at h
  · next ha => exact .inl ⟨ha, (Host.Outcome.next.inj h).symm⟩
  · exact .inr (Host.Outcome.next.inj h).symm

/-- The commands that come from outside the block's own running: reset, supply, and the driver's writes of registers. Every
other command holds what `Holds` says. -/
inductive FromOutside : Instr → Prop
  | resetAssert : FromOutside .resetAssert
  | resetRelease : FromOutside .resetRelease
  | supplyLost : FromOutside .vddSzRemoval
  | acceptWrite (hi : Bool) (v : Word) : FromOutside (.featAcceptWrite hi v)
  | write (a : BitVec 18) (v : Word) : FromOutside (.registerWrite a v)
  | ctrlWrite (r : BitVec 51) (hr : r.getLsbD 0 = true) : FromOutside (.szCtrl r false)

/-- SZ_CTRL that makes no access, or a read, holds what every read does. -/
theorem execSzCtrl_outside_or_holds (r : BitVec 51) (busy : Bool) (s : State) :
    FromOutside (.szCtrl r busy) ∨ NextHolds s (exec (.szCtrl r busy) s) := by
  cases busy with
  | true => exact .inr (execSzCtrl_holds s 0 true (fun h => absurd h (by decide)))
  | false =>
    by_cases hr : r.getLsbD 0 = true
    · exact .inl (.ctrlWrite r hr)
    · exact .inr (execSzCtrl_holds s r false (fun h => absurd h hr))

theorem exec_outside_or_holds (c : Instr) (s : State) : FromOutside c ∨ NextHolds s (exec c s) := by
  cases c with
  | fusedIssue => exact .inr (execFusedIssue_holds s _ _ _)
  | arm => exact .inr (execArm_holds s _ _ _)
  | signal => exact .inr (execSignal_holds s _ _ _)
  | wait => exact .inr (execWait_holds s _ _ _)
  | disarm => exact .inr (execDisarm_holds s _ _ _)
  | hoopSignalArrival => exact .inr (execHoopSignalArrival_holds s _ _)
  | hoopTimeout => exact .inr (execHoopTimeout_holds s _)
  | ctxSwitch => exact .inr (execCtxSwitch_holds s _)
  | sendWale => exact .inr (execSendWale_holds s _ _ _)
  | combineWale => exact .inr (execCombineWale_holds s _ _ _ _ _)
  | rxWaleTaken => exact .inr (execRxWaleTaken_holds s _)
  | statusTaken => exact .inr (execStatusTaken_holds s _)
  | terminalTokenTaken => exact .inr (execTerminalTokenTaken_holds s _)
  | agree => exact .inr (execAgree_holds s _)
  | refuse => exact .inr (execRefuse_holds s _)
  | gatherLimitExpiry => exact .inr (execGatherLimitExpiry_holds s _ _)
  | reserve => exact .inr (execReserve_holds s _)
  | reserveReport => exact .inr (execReserveReport_holds s _)
  | admission => exact .inr (execAdmission_holds s _)
  | releaseReservation => exact .inr (execReleaseReservation_holds s _)
  | reserveRetry => exact .inr (execReserveRetry_holds s _ _)
  | queuedLong => exact .inr (execQueuedLong_holds s _ _)
  | launchFire => exact .inr (execLaunchFire_holds s _ _)
  | boundExpiry => exact .inr (execBoundExpiry_holds s _ _)
  | fault => exact .inr (execFault_holds s _)
  | close => exact .inr (execClose_holds s _)
  | allSent => exact .inr (execAllSent_holds s _)
  | token => exact .inr (execToken_holds s _)
  | fprint => exact .inr (execFprint_holds s _)
  | wcred => exact .inr (execWcred_holds s _)
  | xcred => exact .inr (execXcred_holds s _)
  | lost => exact .inr (execLost_holds s _)
  | entryAbort => exact .inr (execEntryAbort_holds s _ _)
  | colKill => exact .inr (execColKill_holds s _)
  | suspend => exact .inr (execSuspend_holds s _)
  | resume => exact .inr (execResume_holds s _)
  | susp => exact .inr (execSusp_holds s _)
  | suspendDrainDone => exact .inr (execSuspendDrainDone_holds s _)
  | suspendRecordWritten => exact .inr (execSuspendRecordWritten_holds s _)
  | resumeReloadDone => exact .inr (execResumeReloadDone_holds s _)
  | suspDone => exact .inr (execSuspDone_holds s _)
  | dataFlitReceive => exact .inr (execDataFlitReceive_holds s _ _ _)
  | linkFlitReceive => exact .inr (execLinkFlitReceive_holds s _ _)
  | ackTimeout => exact .inr (execAckTimeout_holds s _)
  | nakRepeat => exact .inr (execNakRepeat_holds s _)
  | linkFlitDue => exact .inr (execLinkFlitDue_holds s _)
  | replayShadowEnd => exact .inr (execReplayShadowEnd_holds s _)
  | trainFlitReceive => exact .inr (execTrainFlitReceive_holds s _ _ _)
  | idFlitDue => exact .inr (execIdFlitDue_holds s _)
  | probeRetry => exact .inr (execProbeRetry_holds s _)
  | trainingWord => exact .inr (execTrainingWord_holds s _ _ _)
  | trainingTimeout => exact .inr (execTrainingTimeout_holds s _)
  | phyResetDone => exact .inr (execPhyResetDone_holds s _)
  | skPhyRdyRise => exact .inr (execSkPhyRdyRise_holds s _ _)
  | skPhyRdyFall => exact .inr (execSkPhyRdyFall_holds s _ _)
  | skLaneFlt => exact .inr (execSkLaneFlt_holds s _ _)
  | retrain => exact .inr (execRetrain_holds s _)
  | clrcnt => exact .inr (execClrcnt_holds s _)
  | syncDue => exact .inr (execSyncDue_holds s)
  | sync n q h ms el => exact .inr (execSync_holds s n q h ms el)
  | follow n q h ms td tf => exact .inr (execFollow_holds s n q h ms td tf)
  | timeHoldover => exact .inr (execTimeHoldover_holds s)
  | refclkLost => exact .inr (execRefclkLost_holds s)
  | refclkRestored => exact .inr (execRefclkRestored_holds s)
  | calibration => exact .inr (execCalibration_holds s)
  | monitorSample => exact .inr (execMonitorSample_holds s _ _ _ _)
  | tilthWindowEnd => exact .inr (execTilthWindowEnd_holds s _)
  | tapChangeApply => exact .inr (execTapChangeApply_holds s _ _)
  | snap => exact .inr (execSnap_holds s _)
  | snapshotCopy => exact .inr (execSnapshotCopy_holds s)
  | historyLoad => exact .inr (execHistoryLoad_holds s _)
  | tilForce => exact .inr (execTilForce_holds s _)
  | governorInterval => exact .inr (execGovernorInterval_holds s _ _)
  | throttleChange => exact .inr (execThrottleChange_holds s _)
  | pwrCfgWrite => exact .inr (execPwrCfgWrite_holds s _)
  | fdEn => exact .inr (execFdEn_holds s _ _)
  | fdDisable => exact .inr (execFdDisable_holds s _ _)
  | fdPriWrite => exact .inr (execFdPriWrite_holds s _ _)
  | feederBeatRequest => exact .inr (execFeederBeatRequest_holds s _)
  | memoryResponse => exact .inr (execMemoryResponse_holds s _ _ _ _ _)
  | counterTrigger => exact .inr (execCounterTrigger_holds s _)
  | evtIn => exact .inr (execEvtIn_holds s _ _)
  | evtOutPulseEnd => exact .inr (execEvtOutPulseEnd_holds s _)
  | fdEvtClr => exact .inr (execFdEvtClr_holds s _ _)
  | updateBeatTaken => exact .inr (execUpdateBeatTaken_holds s)
  | resetAssert => exact .inl .resetAssert
  | resetRelease => exact .inl .resetRelease
  | fuseAck => exact .inr (execFuseAck_holds s _ _ _)
  | fuseTimeout => exact .inr (execFuseTimeout_holds s)
  | wlProg => exact .inr (execWlProg_holds s _)
  | gcPeriodWrite => exact .inr (execGcPeriodWrite_holds s _)
  | featAcceptWrite hi v => exact .inl (.acceptWrite hi v)
  | load => exact .inr (execLoad_holds s _)
  | imageCheckDone => exact .inr (execImageCheckDone_holds s)
  | imageApplyDone => exact .inr (execImageApplyDone_holds s)
  | signoff => exact .inr (execSignoff_holds s _)
  | gstLogRdWrite => exact .inr (execGstLogRdWrite_holds s _)
  | setCount => exact .inr (execSetCount_holds s _)
  | setTarget => exact .inr (execSetTarget_holds s _)
  | debugRelease => exact .inr (execDebugRelease_holds s _)
  | dbgInject => exact .inr (execDbgInject_holds s _)
  | dbgEnChange => exact .inr (execDbgEnChange_holds s _)
  | latchedGroupRead => exact .inr (execLatchedGroupRead_holds s _)
  | registerWrite a v => exact .inl (.write a v)
  | wsBypass => exact .inr (execWsBypass_holds s)
  | wsExtest => exact .inr (execWsExtest_holds s)
  | wsIntest => exact .inr (execWsIntest_holds s)
  | szMbist => exact .inr (execSzMbist_holds s)
  | szDlysweep => exact .inr (execSzDlysweep_holds s)
  | szIdcode => exact .inr (execSzIdcode_holds s)
  | szCtrl r busy => exact execSzCtrl_outside_or_holds r busy s
  | idleFlitReceive => exact .inr (execIdleFlitReceive_holds s _ _)
  | hoopEntryRead => exact .inr (execHoopEntryRead_holds s _ _ _)
  | vddSzRemoval => exact .inl .supplyLost

/-- A step holds what `Holds` says but for the queue, or its command comes from outside. -/
theorem step_outside_or_holds {s t : State} (h : step s = .next t) :
    (∃ c rest, s.pending = c :: rest ∧ FromOutside c ∧ exec c { s with pending := rest } = .next t)
      ∨ ∃ q, Holds { s with pending := q } t := by
  cases hq : s.pending with
  | nil =>
    obtain rfl : s.tick = t := Host.Outcome.next.inj ((step_of_nil hq).symm.trans h)
    exact .inr ⟨s.pending, State.tick_holds .refl⟩
  | cons c rest =>
    rw [step_of_cons hq] at h
    refine (exec_outside_or_holds c { s with pending := rest }).imp (fun hc => ⟨c, rest, rfl, hc, h⟩)
      (fun ⟨u, hu, hk⟩ => ⟨rest, ?_⟩)
    obtain rfl : u = t := Host.Outcome.next.inj (hu.symm.trans h)
    exact hk

/-! ### The invariant -/

/-- Settles O4: at reset every table is empty, no log entry is unread, and GC_PERIOD and SLEW stand at their reset values. -/
theorem resetHasInv : Obligations.ResetHasInv := by
  unfold Obligations.ResetHasInv
  exact State.reset_inv

theorem FromOutside.inv {c : Instr} (hc : FromOutside c) {s : State} (h : s.Inv) : ∃ t, exec c s = .next t ∧ t.Inv := by
  cases hc with
  | resetAssert => exact execResetAssert_inv s h
  | resetRelease => exact execResetRelease_inv s h
  | supplyLost => exact execVddSzRemoval_inv s
  | acceptWrite hi v => exact execFeatAcceptWrite_inv s hi v h
  | write a v => exact execRegisterWrite_inv s a v h
  | ctrlWrite r _ => exact execSzCtrl_inv s r false h

/-- Settles O5: the queue is no part of the invariant, so a step keeps it where its command does. -/
theorem stepKeepsInv : Obligations.StepKeepsInv := by
  unfold Obligations.StepKeepsInv
  intro s t hs h
  obtain ⟨c, rest, _, hc, hex⟩ | ⟨q, hk⟩ := step_outside_or_holds h
  · obtain ⟨u, hu, hinv⟩ := hc.inv (s := { s with pending := rest }) hs
    obtain rfl : u = t := Host.Outcome.next.inj (hu.symm.trans hex)
    exact hinv
  · exact hk.inv hs

/-! ### Writes of FEAT_ACCEPT and ATTN (R392, R416) -/

theorem State.acceptWrite_of_ne {s : State} {hi : Bool} {v : Word} (h : (s.acceptWrite hi v).accept ≠ s.accept) :
    s.img.st = .empty ∨ s.img.st = .refused := by
  unfold State.acceptWrite at h
  split at h
  · assumption
  · exact absurd rfl h

/-- Table SU-4: FEAT_ACCEPT_LO and FEAT_ACCEPT_HI are registers. -/
theorem State.writeAccess_acceptLo (s : State) (v : Word) : s.writeAccess 0x4#18 v = (s.acceptWrite false v).ctDone 0 false :=
  congrArg (fun t : State => t.ctDone 0 false) (s.regWrite_acceptLo v)

theorem State.writeAccess_acceptHi (s : State) (v : Word) : s.writeAccess 0x5#18 v = (s.acceptWrite true v).ctDone 0 false :=
  congrArg (fun t : State => t.ctDone 0 false) (s.regWrite_acceptHi v)

/-- A register write that changes FEAT_ACCEPT is one to its own two addresses, before an image. -/
theorem State.writeAccess_accept_ne {s : State} {a : BitVec 18} {v : Word} (h : (s.writeAccess a v).accept ≠ s.accept) :
    (s.img.st = .empty ∨ s.img.st = .refused) ∧ (a = 0x4#18 ∨ a = 0x5#18) := by
  by_cases hlo : a = 0x4#18
  · subst hlo
    rw [State.writeAccess_acceptLo] at h
    exact ⟨State.acceptWrite_of_ne h, .inl rfl⟩
  by_cases hhi : a = 0x5#18
  · subst hhi
    rw [State.writeAccess_acceptHi] at h
    exact ⟨State.acceptWrite_of_ne h, .inr rfl⟩
  by_cases hattn : a = 0x801#18
  · subst hattn
    rw [show s.writeAccess 0x801#18 v = _ from s.writeAccess_gstAttn v] at h
    exact absurd rfl h
  · exact absurd (State.writeAccess_holds .refl a v hlo hhi hattn).accept h

/-- A register write that takes an ATTN bit away is one to GST_ATTN with 1 at that bit. -/
theorem State.writeAccess_attn_clear {s : State} {a : BitVec 18} {v : Word} {i : Nat} (hset : s.gst.attn.getLsbD i = true)
    (hclear : (s.writeAccess a v).gst.attn.getLsbD i = false) : a = 0x801#18 ∧ v.getLsbD i = true := by
  have hkept : ∀ {t : State}, t.gst = s.gst → t.gst.attn.getLsbD i ≠ false := fun ht => by rw [ht, hset]; decide
  have haccept : ∀ hi, (s.acceptWrite hi v).gst = s.gst := fun hi => by unfold State.acceptWrite; split <;> rfl
  by_cases hlo : a = 0x4#18
  · subst hlo
    rw [State.writeAccess_acceptLo] at hclear
    exact absurd hclear (hkept (haccept false))
  by_cases hhi : a = 0x5#18
  · subst hhi
    rw [State.writeAccess_acceptHi] at hclear
    exact absurd hclear (hkept (haccept true))
  by_cases hattn : a = 0x801#18
  · subst hattn
    rw [show s.writeAccess 0x801#18 v = _ from s.writeAccess_gstAttn v] at hclear
    refine ⟨rfl, ?_⟩
    have hbit : (s.gst.attn &&& ~~~(v.setWidth 11)).getLsbD i = false := hclear
    have hi : i < 11 := BitVec.lt_of_getLsbD hset
    simpa [hset, hi] using hbit
  · rw [(State.writeAccess_holds .refl a v hlo hhi hattn).attn i hset] at hclear
    cases hclear

/-- SZ_CTRL with a write makes that write, under its own instruction code (R387). -/
theorem State.szCtrl_write (s : State) {r : BitVec 51} (hr : r.getLsbD 0 = true) : ∃ x, s.szCtrl r false =
    { (s.wir 6).writeAccess (BitVec.ofNat 18 (fld r.toNat 18 1)) (BitVec.ofNat 32 (fld r.toNat 50 19)) with wrap := x } := by
  unfold State.szCtrl
  rw [hr]
  exact ⟨_, rfl⟩

/-- What of the driver's commands changes FEAT_ACCEPT, and when. -/
theorem FromOutside.accept_ne {c : Instr} (hc : FromOutside c) {s t : State} (h : exec c s = .next t) (hne : t.accept ≠ s.accept) :
    c = .resetAssert ∨ c = .vddSzRemoval ∨ (s.alive = true ∧ (s.img.st = .empty ∨ s.img.st = .refused) ∧
      ((∃ hi v, c = .featAcceptWrite hi v) ∨ (∃ a v, c = .registerWrite a v ∧ (a = 0x4#18 ∨ a = 0x5#18)) ∨
        (∃ r, c = .szCtrl r false ∧ r.getLsbD 0 = true ∧
          (BitVec.ofNat 18 (fld r.toNat 18 1) = 0x4#18 ∨ BitVec.ofNat 18 (fld r.toNat 18 1) = 0x5#18)))) := by
  have hlive : ∀ f : State → State, live s f = .next t → s.alive = true ∧ t = f s := fun f hf =>
    (live_eq_next hf).resolve_right (fun e => hne (by rw [e]))
  cases hc with
  | resetAssert => exact .inl rfl
  | supplyLost => exact .inr (.inl rfl)
  | resetRelease => exact absurd ((commandFrame _ _ _ h).accept (by decide)) hne
  | acceptWrite hi v =>
    obtain ⟨ha, rfl⟩ := hlive (fun s => s.acceptWrite hi v) h
    exact .inr (.inr ⟨ha, State.acceptWrite_of_ne hne, .inl ⟨hi, v, rfl⟩⟩)
  | write a v =>
    obtain ⟨ha, rfl⟩ := hlive (fun s => s.writeAccess a v) h
    obtain ⟨hst, haddr⟩ := State.writeAccess_accept_ne hne
    exact .inr (.inr ⟨ha, hst, .inr (.inl ⟨a, v, rfl, haddr⟩)⟩)
  | ctrlWrite r hr =>
    obtain ⟨x, hx⟩ := s.szCtrl_write hr
    obtain ⟨ha, rfl⟩ := hlive (fun s => s.szCtrl r false) h
    simp only [hx] at hne
    obtain ⟨hst, haddr⟩ := State.writeAccess_accept_ne (s := s.wir 6) hne
    exact .inr (.inr ⟨ha, hst, .inr (.inr ⟨r, rfl, hr, haddr⟩)⟩)

/-- What of the driver's commands takes an ATTN bit away. -/
theorem FromOutside.attn_clear {c : Instr} (hc : FromOutside c) {s t : State} {i : Nat} (h : exec c s = .next t)
    (hset : s.gst.attn.getLsbD i = true) (hclear : t.gst.attn.getLsbD i = false) :
    c = .resetAssert ∨ c = .vddSzRemoval ∨ (s.alive = true ∧ ((∃ v, c = .registerWrite 0x801#18 v ∧ v.getLsbD i = true) ∨
      (∃ r, c = .szCtrl r false ∧ r.getLsbD 0 = true ∧ BitVec.ofNat 18 (fld r.toNat 18 1) = 0x801#18
        ∧ (BitVec.ofNat 32 (fld r.toNat 50 19)).getLsbD i = true))) := by
  have hkept : t.gst ≠ s.gst := fun e => by rw [e, hset] at hclear; cases hclear
  have hlive : ∀ f : State → State, live s f = .next t → s.alive = true ∧ t = f s := fun f hf =>
    (live_eq_next hf).resolve_right (fun e => hkept (by rw [e]))
  cases hc with
  | resetAssert => exact .inl rfl
  | supplyLost => exact .inr (.inl rfl)
  | resetRelease => exact absurd ((commandFrame _ _ _ h).gst (by decide)) hkept
  | acceptWrite hi v => exact absurd ((commandFrame _ _ _ h).gst (by decide : Fld.gst ∉ [Fld.accept])) hkept
  | write a v =>
    obtain ⟨ha, rfl⟩ := hlive (fun s => s.writeAccess a v) h
    obtain ⟨rfl, hv⟩ := State.writeAccess_attn_clear hset hclear
    exact .inr (.inr ⟨ha, .inl ⟨v, rfl, hv⟩⟩)
  | ctrlWrite r hr =>
    obtain ⟨x, hx⟩ := s.szCtrl_write hr
    obtain ⟨ha, rfl⟩ := hlive (fun s => s.szCtrl r false) h
    simp only [hx] at hclear
    obtain ⟨haddr, hv⟩ := State.writeAccess_attn_clear (s := s.wir 6) hset hclear
    exact .inr (.inr ⟨ha, .inr ⟨r, rfl, hr, haddr, hv⟩⟩)

/-- Settles O8: of the commands from outside, only reset, loss of supply and the writes of the two registers reach FEAT_ACCEPT. -/
theorem featAcceptChangesOnlyByItsWrite : Obligations.FeatAcceptChangesOnlyByItsWrite := by
  unfold Obligations.FeatAcceptChangesOnlyByItsWrite
  intro s t h hne
  obtain ⟨c, rest, hq, hc, hex⟩ | ⟨q, hk⟩ := step_outside_or_holds h
  · exact ⟨c, rest, hq, hc.accept_ne (s := { s with pending := rest }) hex hne⟩
  · exact absurd hk.accept hne

/-- Settles O9: of the commands from outside, only reset, loss of supply and a 1 written to the bit take it away. -/
theorem attnBitStaysUntilCleared : Obligations.AttnBitStaysUntilCleared := by
  unfold Obligations.AttnBitStaysUntilCleared
  intro s t i h hset hclear
  obtain ⟨c, rest, hq, hc, hex⟩ | ⟨q, hk⟩ := step_outside_or_holds h
  · exact ⟨c, rest, hq, hc.attn_clear (s := { s with pending := rest }) hex hset hclear⟩
  · rw [hk.attn i hset] at hclear
    cases hclear

end Sys2Proof.Machine

/-! PROOFS. What the core takes of its port (R19, R229, R365, R366): the first item whose turn it is, and no other. -/

namespace Sys2Proof.Machine

/-! ### The first item that may leave -/

section
variable {α : Type} {f : α → Bool}

theorem takeFirst_append {x : α} (a b : List α) (ha : ∀ y ∈ a, f y = false) (hx : f x = true) :
    takeFirst f (a ++ x :: b) = some (x, a ++ b) := by
  induction a with
  | nil => simp [takeFirst, hx]
  | cons y a ih =>
    have hy := ha y List.mem_cons_self
    simp [takeFirst, hy, ih (fun z hz => ha z (List.mem_cons_of_mem y hz))]

theorem takeFirst_head {x : α} (b : List α) (hx : f x = true) : takeFirst f (x :: b) = some (x, b) := if_pos hx

theorem takeFirst_eq_none (l : List α) (hl : ∀ y ∈ l, f y = false) : takeFirst f l = none := by
  induction l with
  | nil => rfl
  | cons y l ih => simp [takeFirst, hl y List.mem_cons_self, ih (fun z hz => hl z (List.mem_cons_of_mem y hz))]

end

section
variable {p : Port}

theorem Port.rxNext_eq {r : Rx} {a b : List Rx} (h : p.rxq = a ++ r :: b) (ha : ∀ x ∈ a, x.old = false ∧ x.k ≠ p.turn x.g)
    (hr : r.old = true ∨ r.k = p.turn r.g) : p.rxNext = some (r, a ++ b) := by
  unfold Port.rxNext Port.may
  rw [h]
  exact takeFirst_append a b (fun x hx => by simp [ha x hx]) (by simpa using hr)

theorem Port.stNext_eq {x : Status} {a b : List Status} (h : p.stq = a ++ x :: b)
    (ha : ∀ y ∈ a, y.gate = true ∧ y.arg ≠ p.turn y.grp) (hx : x.gate = false ∨ x.arg = p.turn x.grp) :
    takeFirst p.stReady p.stq = some (x, a ++ b) := by
  rw [h]
  exact takeFirst_append a b (fun y hy => by simp [Port.stReady, Port.may, ha y hy]) (by simpa [Port.stReady, Port.may] using hx)

/-- R229: a token that has begun to leave goes on. -/
theorem Port.tokNext_of_begun {x : Tok} {b : List Tok} (h : p.tokq = x :: b) (hx : 0 < x.pos) : p.tokNext = some (x, b) := by
  unfold Port.tokNext
  rw [h, takeFirst_head b (decide_eq_true hx)]

/-- R365: while none has begun, the first token whose turn it is leaves once its receive wales have. -/
theorem Port.tokNext_of_turn {x : Tok} {b : List Tok} (h : p.tokq = x :: b) (hpos : ∀ y ∈ x :: b, y.pos = 0)
    (hx : x.old = true ∨ x.k = p.turn x.g) : p.tokNext = if p.tokReady x then some (x, b) else none := by
  have hbegun : takeFirst (fun t : Tok => decide (0 < t.pos)) (x :: b) = none :=
    takeFirst_eq_none _ (fun y hy => by simp [hpos y hy])
  unfold Port.tokNext
  rw [h, hbegun, takeFirst_head b (by simpa [Port.may] using hx)]
  rfl

theorem Port.tokReady_of_taken {x : Tok} (hx : x.old = true ∨ x.k = p.turn x.g) (hr : ∀ r ∈ p.rxq, ¬(r.g = x.g ∧ r.k = x.k)) :
    p.tokReady x = true := by
  have hturn : (x.old || p.may x.g x.k) = true := by simpa [Port.may] using hx
  have hrx : p.rxq.any (fun r => decide (r.g = x.g) && decide (r.k = x.k) && decide (r.old = x.old)) = false :=
    List.any_eq_false.mpr (fun r hm he => hr r hm (by simp at he; exact he.1))
  simp [Port.tokReady, hturn, hrx]

theorem Port.tokReady_of_waiting {x : Tok} (h : ∃ r ∈ p.rxq, r.g = x.g ∧ r.k = x.k ∧ r.old = x.old) : p.tokReady x = false := by
  obtain ⟨r, hr, hg, hk, ho⟩ := h
  have hrx : p.rxq.any (fun r => decide (r.g = x.g) && decide (r.k = x.k) && decide (r.old = x.old)) = true :=
    List.any_eq_true.mpr ⟨r, hr, by simp [hg, hk, ho]⟩
  simp [Port.tokReady, hrx]

end

/-! ### The port after it -/

theorem State.onPort_port_other (s : State) {cp i : Nat} (f : Port → Port) (h : i ≠ cp) : (s.onPort cp f).port i = s.port i :=
  mget_mput_other _ _ _ _ _ h

/-- A port after its status `x` is taken, which leaves `rest`. -/
def Port.afterStatus (p : Port) (x : Status) (rest : List Status) : Port :=
  let q := { p with stq := rest, wake := p.wake && !x.wait, gate := p.gate || (p.wait.isSome && !(p.wake && !x.wait)) }
  if x.code = 2 ∧ x.gate = true then q.passed x.grp x.arg else q

theorem Port.takeStatus_eq {p : Port} {x : Status} {rest : List Status} (h : takeFirst p.stReady p.stq = some (x, rest)) :
    p.takeStatus = p.afterStatus x rest := by
  unfold Port.takeStatus
  rw [h]
  rfl

/-- R19: a REFUSED of its turn passes the turn on; every other status leaves it. -/
theorem Port.afterStatus_cases (p : Port) (x : Status) (rest : List Status) : ∃ d, p.afterStatus x rest =
      { p with stq := rest, wake := p.wake && !x.wait, gate := p.gate || (p.wait.isSome && !(p.wake && !x.wait)), deliv := d }
    ∧ (x.code = 2 → x.gate = true → d = mput 0#32 p.deliv x.grp.toNat (x.arg + 1#32))
    ∧ (x.code ≠ 2 ∨ x.gate = false → d = p.deliv) := by
  unfold Port.afterStatus
  by_cases h : x.code = 2 ∧ x.gate = true
  · exact ⟨_, if_pos h, fun _ _ => rfl, fun hn => by simp [h] at hn⟩
  · exact ⟨_, if_neg h, fun hc hg => absurd ⟨hc, hg⟩ h, fun _ => rfl⟩

theorem State.onColl_eq_colls (s : State) (g : BitVec 12) (k : Word) (f : Coll → Coll) :
    s.onColl g k f = { s with colls := (s.onColl g k f).colls } := by
  unfold State.onColl
  split <;> rfl

theorem State.onColl_onMember_coll (s : State) (g : BitVec 12) (k : Word) (cp : Nat) (f : Member → Member) :
    (s.onColl g k (fun c => c.onMember cp f)).coll? g k = (s.coll? g k).map (fun c => c.onMember cp f) := by
  rw [State.onColl_coll, if_pos ⟨rfl, rfl⟩]
  refine Option.map_congr (fun c hc => ?_)
  obtain ⟨rfl, rfl⟩ := s.coll_name hc
  rfl

section
variable {s : State} {cp : Fin 1024}

/-- R365: a receive wale is taken from the port, and counted at the member. -/
def State.tookRx (s : State) (cp : Nat) (r : Rx) (rest : List Rx) : State :=
  (s.onPort cp (fun p => { p with rxq := rest })).onColl r.g r.k (fun c => c.onMember cp (fun m => { m with took := m.took + 1 }))

theorem exec_rxWaleTaken_of_next (ha : s.alive = true) {r : Rx} {rest : List Rx} (h : (s.port cp.val).rxNext = some (r, rest)) :
    exec (.rxWaleTaken cp) s = .next (s.tookRx cp.val r rest) := by
  show execRxWaleTaken cp s = _
  unfold execRxWaleTaken
  rw [live_of_alive _ ha, h]
  rfl

theorem State.tookRx_port (s : State) (cp : Nat) (r : Rx) (rest : List Rx) (i : Nat) :
    (s.tookRx cp r rest).port i = (s.onPort cp (fun p => { p with rxq := rest })).port i := by
  unfold State.tookRx
  rw [State.onColl_eq_colls]
  rfl

theorem exec_statusTaken_of_next (ha : s.alive = true) {x : Status} {rest : List Status}
    (h : takeFirst (s.port cp.val).stReady (s.port cp.val).stq = some (x, rest)) :
    exec (.statusTaken cp) s = .next (s.onPort cp.val (fun p => p.afterStatus x rest)) := by
  have htake : s.onPort cp.val Port.takeStatus = s.onPort cp.val (fun p => p.afterStatus x rest) :=
    congrArg (s.setPort cp.val) (Port.takeStatus_eq h)
  exact (live_of_alive (fun s => s.onPort cp.val Port.takeStatus) ha).trans (congrArg _ htake)

theorem exec_terminalTokenTaken_of_alive (ha : s.alive = true) : exec (.terminalTokenTaken cp) s = .next (s.takeToken cp.val) :=
  live_of_alive (fun s => s.takeToken cp.val) ha

/-- R229: before the sixteenth word the token stays at the front of the port's tokens. -/
theorem State.takeToken_of_word {cp : Nat} {x : Tok} {rest : List Tok} (h : (s.port cp).tokNext = some (x, rest)) (hpos : x.pos + 1 < 16) :
    s.takeToken cp = s.onPort cp (fun p => { p with tokq := { x with pos := x.pos + 1 } :: rest }) := by
  unfold State.takeToken
  rw [h]
  exact if_pos hpos

theorem State.takeToken_of_none {cp : Nat} (h : (s.port cp).tokNext = none) : s.takeToken cp = s := by
  unfold State.takeToken
  rw [h]

end

/-- Settles O19: wales, statuses and tokens each by the first item of their queue that may leave. -/
theorem coreTakesInTurn : Obligations.CoreTakesInTurn := by
  unfold Obligations.CoreTakesInTurn
  refine ⟨fun s cp r a b hs ha hq hfirst hr => ?wale, fun s cp x a b hs ha hq hfirst hx => ?status,
    fun s cp x b hs ha hq hnext hpos => ?word, fun s cp x b ha hq hzero hx hwait => ?waits⟩
  case wale =>
    refine ⟨_, exec_rxWaleTaken_of_next ha (Port.rxNext_eq hq hfirst hr), ?_, fun i hi => ?_, ?_, ?_, fun g k hgk => ?_⟩
    · rw [State.tookRx_port, State.onPort_port_same hs]
    · rw [State.tookRx_port, State.onPort_port_other s _ hi]
    · unfold State.tookRx
      rw [State.onColl_eq_colls]
      rfl
    · exact State.onColl_onMember_coll _ _ _ _ _
    · exact (State.onColl_coll _ _ _ _ _ _).trans (if_neg hgk)
  case status =>
    obtain ⟨d, hd, hpassed, hkept⟩ := Port.afterStatus_cases (s.port cp.val) x (a ++ b)
    have hport := s.onPort_port_same hs cp.val (fun p => p.afterStatus x (a ++ b))
    rw [hd] at hport
    refine ⟨_, exec_statusTaken_of_next ha (Port.stNext_eq hq hfirst hx), ?_⟩
    rw [hport]
    exact ⟨rfl, hpassed, hkept, fun hw => by simp [hw], fun hw => by simp [hw], rfl, rfl, rfl, rfl,
      fun i hi => s.onPort_port_other _ hi, rfl⟩
  case word =>
    have hnext : (s.port cp.val).tokNext = some (x, b) := by
      rcases hnext with hbegun | ⟨hzero, hx, hrx⟩
      · exact Port.tokNext_of_begun hq hbegun
      · by_cases hbegun : 0 < x.pos
        · exact Port.tokNext_of_begun hq hbegun
        · have hx0 : x.pos = 0 := Nat.eq_zero_of_not_pos hbegun
          rw [Port.tokNext_of_turn hq (List.forall_mem_cons.mpr ⟨hx0, hzero⟩) hx, if_pos (Port.tokReady_of_taken hx hrx)]
    refine ⟨_, exec_terminalTokenTaken_of_alive ha, ?_⟩
    rw [State.takeToken_of_word hnext hpos]
    exact ⟨s.onPort_port_same hs _ _, fun i hi => s.onPort_port_other _ hi, rfl⟩
  case waits =>
    have hnone : (s.port cp.val).tokNext = none := by
      rw [Port.tokNext_of_turn hq hzero hx, Port.tokReady_of_waiting hwait]
      rfl
    rw [exec_terminalTokenTaken_of_alive ha, State.takeToken_of_none hnone]

end Sys2Proof.Machine

/-! PROOFS. Send wales (R109, R261, R364): a wale that presents itself at a core port. -/

namespace Sys2Proof.Machine

section
variable {s : State} {cp : Nat} {g : BitVec 12}

/-- The wale stands at the port until it can be taken. -/
def State.holdWale (s : State) (cp : Nat) (g : BitVec 12) (data : List Byte) : State :=
  s.onPort cp (fun p => { p with txHeld := some (g, data) })

/-- The accumulator of an admission point holds `a` (R261). -/
def State.setAcc (s : State) (pt a : Nat) : State := { s with pwr := { s.pwr with accs := mput 0 s.pwr.accs pt a } }

theorem State.canon.setAcc (hs : s.canon) (pt a : Nat) : (s.setAcc pt a).canon :=
  Canon.all { hs.fields with accs := mput_wf _ _ _ _ hs.fields.accs }

/-- R261: an opportunity takes a whole wale from the accumulator, or leaves what it has gathered. -/
theorem State.opportunity_eq (s : State) (pt : Nat) : s.opportunity pt =
    if 256 ≤ mget 0 s.pwr.accs pt + s.pwr.pace.toNat then (true, s.setAcc pt (mget 0 s.pwr.accs pt + s.pwr.pace.toNat - 256))
    else (false, s.setAcc pt (mget 0 s.pwr.accs pt + s.pwr.pace.toNat)) := by
  unfold State.opportunity
  by_cases h : 256 ≤ mget 0 s.pwr.accs pt + s.pwr.pace.toNat
  · simp only [if_pos h, decide_eq_true h]
    rfl
  · simp only [if_neg h, decide_eq_false h]
    rfl

theorem exec_sendWale_of_held {cp : Fin 1024} (data : List Byte) (ha : s.alive = true) (h : (s.port cp.val).txHeld.isSome = true) :
    exec (.sendWale cp g data) s = .next s :=
  (live_of_alive (fun s => if (s.port cp.val).txHeld.isSome then s else (s.sendWale cp.val g data).settle) ha).trans
    (congrArg _ (if_pos h))

theorem exec_sendWale_of_free {cp : Fin 1024} (data : List Byte) (ha : s.alive = true) (h : (s.port cp.val).txHeld = none) :
    exec (.sendWale cp g data) s = .next (s.sendWale cp.val g data).settle :=
  (live_of_alive (fun s => if (s.port cp.val).txHeld.isSome then s else (s.sendWale cp.val g data).settle) ha).trans
    (congrArg _ (if_neg (by rw [h]; decide)))

theorem State.sendWale_of_owes (data : List Byte) (h : (s.port cp).owes g ≠ []) :
    s.sendWale cp g data = s.onPort cp (fun p => p.discardOne g data) := if_pos h

theorem State.sendWale_of_owed (data : List Byte) (h : (s.port cp).owes g = []) {c : Coll} {m : Member}
    (hc : s.owedColl cp g = some (c, m)) : s.sendWale cp g data =
      let a := if s.leafRoom c m then s.opportunity cp else (false, s)
      if a.1 then a.2.supply c m data else a.2.holdWale cp g data := by
  unfold State.sendWale
  rw [if_neg (not_not_intro h), hc]
  rfl

theorem State.sendWale_of_not_owed (data : List Byte) (h : (s.port cp).owes g = []) (hc : s.owedColl cp g = none) :
    s.sendWale cp g data = if s.pendingColl cp g then s.holdWale cp g data else s.stray cp g := by
  unfold State.sendWale
  rw [if_neg (not_not_intro h), hc]
  rfl

theorem State.holdWale_port (hs : s.canon) (cp : Nat) (g : BitVec 12) (data : List Byte) :
    (s.holdWale cp g data).port cp = { s.port cp with txHeld := some (g, data) } := s.onPort_port_same hs cp _

/-- Table ER-2: STRAY_WALE sets ATTN bit 1, and touches the global status registers alone. -/
theorem State.stray_eq_gst (s : State) (cp : Nat) (g : BitVec 12) : s.stray cp g = { s with gst := (s.stray cp g).gst } := by
  unfold State.stray State.logEv
  rw [State.logWrite_eq_gst]
  rfl

theorem State.stray_attn (s : State) (cp : Nat) (g : BitVec 12) : (s.stray cp g).gst.attn.getLsbD 1 = true :=
  State.attn_getLsbD_self _ (by decide)

end

/-- Settles O34, by what the port owes and what the collective's leaf can take. -/
theorem sendWaleGoesWhereItIsOwed : Obligations.SendWaleGoesWhereItIsOwed := by
  unfold Obligations.SendWaleGoesWhereItIsOwed
  rintro s cp g data acc hs ha rfl
  refine ⟨fun h => exec_sendWale_of_held data ha h, fun hfree => ?_⟩
  have hexec : ∀ {u : State}, s.sendWale cp.val g data = u → exec (.sendWale cp g data) s = .next u.settle := fun hu => by
    rw [exec_sendWale_of_free data ha hfree, hu]
  refine ⟨fun ho => ⟨_, hexec (State.sendWale_of_owes data ho), s.onPort_port_same hs _ _, rfl⟩, fun ho =>
    ⟨fun c m hc hroom hpace => hexec ?taken, fun c m hc hroom hpace =>
        ⟨(s.setAcc cp.val _).holdWale cp.val g data, hexec ?paced, State.holdWale_port (hs.setAcc _ _) cp.val g data, rfl⟩,
      fun c m hc hroom => ⟨_, hexec ?full, State.holdWale_port hs cp.val g data, rfl⟩,
      fun hc hp => ⟨_, hexec ?pending, State.holdWale_port hs cp.val g data, rfl⟩,
      fun hc hp => ⟨_, hexec ?stray, s.stray_attn cp.val g, s.stray_eq_gst cp.val g⟩⟩⟩
  case taken =>
    rw [State.sendWale_of_owed data ho hc, hroom, if_pos rfl, State.opportunity_eq, if_pos hpace]
    rfl
  case paced =>
    rw [State.sendWale_of_owed data ho hc, hroom, if_pos rfl, State.opportunity_eq, if_neg (Nat.not_le.mpr hpace)]
    rfl
  case full =>
    rw [State.sendWale_of_owed data ho hc, hroom]
    rfl
  case pending => rw [State.sendWale_of_not_owed data ho hc, if_pos hp]
  case stray => rw [State.sendWale_of_not_owed data ho hc, if_neg (by rw [hp]; decide)]

end Sys2Proof.Machine

/-! PROOFS. Fuse accesses and WL_PROG (R374, R393, R395, R396, Table SU-10). -/

namespace Sys2Proof.Machine

/-! ### The end of an access, by what it was -/

section
variable {s : State} {a : FuseAcc} {r : BitVec 16} {blank err : Bool}

theorem exec_fuseAck_of_alive (r : BitVec 16) (blank err : Bool) (ha : s.alive = true) :
    exec (.fuseAck r blank err) s = .next (s.fuseAck r blank err) := live_of_alive (fun s => s.fuseAck r blank err) ha

theorem exec_fuseTimeout_of_alive (ha : s.alive = true) : exec .fuseTimeout s = .next s.fuseTimeout :=
  live_of_alive (fun s => s.fuseTimeout) ha

theorem State.fuseAck_of_scan (h : s.wl.acc = some a) (ho : a.op = .scan) :
    s.fuseAck r blank err = { s with wl := (s.wl.setSlot a.slot ⟨r, blank, err, false⟩).scanNext a.slot } := by
  unfold State.fuseAck
  rw [h]
  dsimp only
  rw [ho]

theorem State.fuseAck_of_program (h : s.wl.acc = some a) (ho : a.op = .program) :
    s.fuseAck r blank err = { s with wl := { s.wl with acc := some { a with op := .readback, failed := err } } } := by
  unfold State.fuseAck
  rw [h]
  dsimp only
  rw [ho]

theorem State.fuseAck_of_readback (h : s.wl.acc = some a) (ho : a.op = .readback) :
    s.fuseAck r blank err = s.progEnd a r blank err := by
  unfold State.fuseAck
  rw [h]
  dsimp only
  rw [ho]

theorem State.fuseAck_of_none (h : s.wl.acc = none) : s.fuseAck r blank err = s := by
  unfold State.fuseAck
  rw [h]

theorem State.fuseTimeout_of_none (h : s.wl.acc = none) : s.fuseTimeout = s := by
  unfold State.fuseTimeout
  rw [h]

/-- R393: a slot that is not read in time is in error, and the scan goes on. -/
theorem State.fuseTimeout_of_scan_wl (h : s.wl.acc = some a) (ho : a.op = .scan) :
    s.fuseTimeout.wl = (s.wl.setSlot a.slot { s.wl.slot a.slot with err := true }).scanNext a.slot := by
  have hwl : (s.logEv 0x24 3 10 a.slot 2 0).wl = s.wl := (State.logEv_only (w := [.gst]) .refl _ _ _ _ _ _).wl (by decide)
  unfold State.fuseTimeout
  rw [h]
  dsimp only
  rw [ho]
  dsimp only
  rw [hwl]

theorem State.fuseTimeout_of_not_scan (h : s.wl.acc = some a) (ho : a.op ≠ .scan) : ∃ w, s.fuseTimeout =
    State.progFail { s with wl := w } a 2 := by
  unfold State.fuseTimeout
  rw [h]
  dsimp only
  cases hop : a.op with
  | scan => exact absurd hop ho
  | program => exact ⟨_, rfl⟩
  | readback => exact ⟨_, rfl⟩

/-- R396: LAST says that the program failed, nothing is in progress, and ATTN bit 8 is set. -/
theorem State.progFail_wl (s : State) (a : FuseAcc) (bits : Nat) : (s.progFail a bits).wl = { s.wl with last := 2, acc := none } := by
  have hwl : (s.logEv 0x24 3 10 a.slot (1 + bits) a.value.toNat).wl = s.wl :=
    (State.logEv_only (w := [.gst]) .refl _ _ _ _ _ _).wl (by decide)
  unfold State.progFail
  dsimp only
  rw [State.attn_wl, hwl]

theorem State.progFail_attn (s : State) (a : FuseAcc) (bits : Nat) : (s.progFail a bits).gst.attn.getLsbD 8 = true :=
  State.attn_getLsbD_self _ (by decide)

/-- R395: the value that was programmed is in effect. -/
def Wl.takes (w : Wl) (a : FuseAcc) : Wl :=
  if a.slot < 4 then { w with dieId := a.value, dieSet := true } else { w with ceil := a.value.setWidth 3, lvlSet := true }

theorem State.progEnd_of_match (hr : r = a.value) (he : err = false) (hf : a.failed = false) : s.progEnd a r blank err =
    { s with wl := { (s.wl.setSlot a.slot ⟨r, blank, err, true⟩).takes a with last := 1, acc := none } } := by
  unfold State.progEnd Wl.takes
  simp [hr, he, hf]

theorem State.progEnd_of_differs (h : r ≠ a.value ∨ err = true) : ∃ bits, s.progEnd a r blank err =
    State.progFail { s with wl := s.wl.setSlot a.slot ⟨r, blank, err, true⟩ } a bits := by
  have hmatch : (decide (r = a.value) && !err) = false := by
    rcases h with h | h <;> simp [h]
  unfold State.progEnd
  simp only [hmatch, Bool.not_false, if_true, Bool.false_and, Bool.false_eq_true, if_false]
  exact ⟨_, rfl⟩

theorem State.progEnd_acc : (s.progEnd a r blank err).wl.acc = none := by
  unfold State.progEnd
  dsimp only
  split
  · rfl
  · rw [State.progFail_wl]

end

/-! ### The scan of the slots (R393) -/

theorem Wl.scanNext_of_lt (w : Wl) {n : Nat} (h : n < 7) : w.scanNext n = { w with acc := some ⟨.scan, n + 1, 0, false⟩ } := if_pos h

theorem Wl.scanNext_last (w : Wl) : w.scanNext 7 = w.finish := if_neg (by decide)

/-! ### WL_PROG (R395) -/

section
variable {s : State} {v : Word}

theorem exec_wlProg_of_alive (v : Word) (ha : s.alive = true) : exec (.wlProg v) s = .next (s.wlProg v) :=
  live_of_alive (fun s => s.wlProg v) ha

theorem wlValue_toNat (v : Word) : (v.setWidth 16 : BitVec 16).toNat = v.toNat % 65536 := BitVec.toNat_setWidth 16 v

theorem State.wlProg_of_no_go (h : v.getLsbD 17 = false) :
    s.wlProg v = { s with wl := { s.wl with value := v.setWidth 16, sel := v.getLsbD 16 } } := if_pos h

/-- What turns a program away: an image, an access in progress, or a LVL_CEIL above 4. -/
def State.wlBusy (s : State) (v : Word) : Prop :=
  (s.img.st ≠ .empty ∧ s.img.st ≠ .refused) ∨ s.wl.acc.isSome = true ∨ (v.getLsbD 16 = true ∧ 4 < v.toNat % 65536)

theorem State.wlBusy_iff (s : State) (v : Word) : s.wlBusy v ↔
    (s.img.st ≠ .empty ∧ s.img.st ≠ .refused) ∨ s.wl.acc.isSome = true
      ∨ (b1 (wbit v 16) = 1 ∧ 4 < (v.setWidth 16 : BitVec 16).toNat) := by
  have hsel : b1 (wbit v 16) = 1 ↔ v.getLsbD 16 = true := by
    show b1 (v.getLsbD 16) = 1 ↔ _
    cases v.getLsbD 16 <;> decide
  rw [hsel, wlValue_toNat]
  rfl

theorem State.wlProg_of_busy (hgo : v.getLsbD 17 = true) (h : s.wlBusy v) : s.wlProg v = { s with wl := { s.wl with last := 3 } } := by
  have hgo' : ¬ wbit v 17 = false := fun e => by rw [show v.getLsbD 17 = false from e] at hgo; cases hgo
  unfold State.wlProg
  dsimp only
  rw [if_neg hgo', if_pos ((s.wlBusy_iff v).mp h)]

theorem State.wlProg_of_idle (hgo : v.getLsbD 17 = true) (h : ¬ s.wlBusy v) : s.wlProg v =
    match s.wl.blankSlot (b1 (v.getLsbD 16)) with
    | none => { s with wl := { s.wl with last := 3 } }
    | some i => { s with wl := { s.wl with
        value := v.setWidth 16, sel := v.getLsbD 16
        acc := some ⟨.program, 4 * b1 (v.getLsbD 16) + i, v.setWidth 16, false⟩ } } := by
  have hgo' : ¬ wbit v 17 = false := fun e => by rw [show v.getLsbD 17 = false from e] at hgo; cases hgo
  unfold State.wlProg
  dsimp only
  rw [if_neg hgo', if_neg (fun hb => h ((s.wlBusy_iff v).mpr hb))]
  rfl

end

/-- Settles O53, by the access in progress and its slot. -/
theorem fuseAccessesRun : Obligations.FuseAccessesRun := by
  unfold Obligations.FuseAccessesRun
  intro s ha
  refine ⟨fun a r blank err hacc => ?_, fun hacc => ?idle, fun v => ?_⟩
  case idle =>
    refine ⟨fun r blank err => ?_, ?_⟩
    · rw [exec_fuseAck_of_alive r blank err ha, State.fuseAck_of_none hacc]
    · rw [exec_fuseTimeout_of_alive ha, State.fuseTimeout_of_none hacc]
  · rw [exec_fuseAck_of_alive r blank err ha, exec_fuseTimeout_of_alive ha]
    refine ⟨fun ho hlt => ?next, fun ho hlast => ?last, fun ho => ?program, fun ho => ?readback, fun ho hlt => ?late, fun ho => ?fails⟩
    case next =>
      rw [State.fuseAck_of_scan hacc ho, Wl.scanNext_of_lt _ hlt]
      rfl
    case last =>
      refine ⟨_, rfl, ?_⟩
      rw [State.fuseAck_of_scan hacc ho, hlast, Wl.scanNext_last]
      exact ⟨rfl, rfl, rfl, rfl, rfl, rfl, rfl⟩
    case program => rw [State.fuseAck_of_program hacc ho]
    case readback =>
      refine ⟨_, rfl, ?_⟩
      rw [State.fuseAck_of_readback hacc ho]
      refine ⟨State.progEnd_acc, fun hr he hf => ?_, fun hdiffers => ?_⟩
      · rw [State.progEnd_of_match hr he hf]
        exact ⟨rfl, rfl, fun hslot => by simp [Wl.takes, hslot], fun hslot => by simp [Wl.takes, Nat.not_lt.mpr hslot]⟩
      · obtain ⟨bits, hfail⟩ := State.progEnd_of_differs hdiffers
        rw [hfail, State.progFail_wl]
        exact ⟨rfl, State.progFail_attn _ _ _, rfl, rfl⟩
    case late => exact ⟨_, rfl, (State.fuseTimeout_of_scan_wl hacc ho).trans (Wl.scanNext_of_lt _ hlt)⟩
    case fails =>
      obtain ⟨w, hfail⟩ := State.fuseTimeout_of_not_scan hacc ho
      refine ⟨_, rfl, ?_⟩
      rw [hfail, State.progFail_wl]
      exact ⟨rfl, rfl, State.progFail_attn _ _ _⟩
  · rw [exec_wlProg_of_alive v ha]
    refine ⟨fun hgo => congrArg _ (State.wlProg_of_no_go hgo), fun hgo hturned => congrArg _ ?turned,
      fun i hgo hst hacc hslot hceil => congrArg _ ?starts⟩
    case turned =>
      by_cases hbusy : s.wlBusy v
      · exact State.wlProg_of_busy hgo hbusy
      · rcases hturned with hst | hacc | hslot | hceil
        · exact absurd (.inl hst) hbusy
        · exact absurd (.inr (.inl (Option.isSome_iff_ne_none.mpr hacc))) hbusy
        · rw [State.wlProg_of_idle hgo hbusy, show s.wl.blankSlot (b1 (v.getLsbD 16)) = none from hslot]
        · exact absurd (.inr (.inr hceil)) hbusy
    case starts =>
      have hidle : ¬ s.wlBusy v := by
        rintro (⟨hne, hnr⟩ | hsome | ⟨hsel, hbig⟩)
        · exact hst.elim hne hnr
        · rw [hacc] at hsome
          cases hsome
        · exact Nat.not_le.mpr hbig (hceil hsel)
      rw [State.wlProg_of_idle hgo hidle, show s.wl.blankSlot (b1 (v.getLsbD 16)) = some i from hslot]
      rfl

end Sys2Proof.Machine

/-! PROOFS. Reset and supply (R390, R391, R410), settings that an image locks (R392), and the driver's aborts (R420, R421). -/

namespace Sys2Proof.Machine

/-! ### Reset and supply -/

/-- Settles O3: the state after reset, register by register; an absent entry of a table reads its value of reset. -/
theorem resetValues : Obligations.ResetValues := by
  unfold Obligations.ResetValues
  exact ⟨rfl, rfl, rfl, rfl, rfl, rfl, rfl, rfl, rfl, rfl, rfl, fun _ => rfl, fun _ => rfl, fun _ => rfl, fun _ => rfl⟩

/-- R391: reset keeps of a stake the levels of its lanes' pins. -/
theorem State.resetAll_stake {s : State} (hs : s.canon) (n : Nat) :
    s.resetAll.stake n = { Stake.zero with rdy := (s.stake n).rdy, flt := (s.stake n).flt } :=
  mget_mmap Stake.zero (fun _ x => { Stake.zero with rdy := x.rdy, flt := x.flt }) s.stakes n none hs.fields.stakes rfl

/-- Settles O58: reset and loss of supply put the state of reset in place, and of the old state only the pins stay. -/
theorem resetAndSupply : Obligations.ResetAndSupply := by
  unfold Obligations.ResetAndSupply
  refine fun s hs => ⟨⟨s.resetAll, rfl, rfl, rfl, rfl, rfl, rfl, rfl, rfl, rfl, rfl, rfl, rfl, rfl, rfl, rfl, rfl, rfl, ?_⟩, ?_⟩
  · exact ⟨fun _ => ⟨rfl, rfl, rfl⟩, fun n => State.resetAll_stake hs n⟩
  · refine ⟨fun hp hr => congrArg Host.Outcome.next (if_pos ⟨hp, hr⟩), fun h => congrArg Host.Outcome.next (if_neg ?_), rfl⟩
    rintro ⟨hp, hr⟩
    rcases h with h | h
    · rw [hp] at h; cases h
    · rw [hr] at h; cases h

/-! ### Settings that an image locks (R392) -/

section
variable {s : State} {v : Word}

theorem State.acceptWrite_of_locked {hi : Bool} (h : ¬(s.img.st = .empty ∨ s.img.st = .refused)) : s.acceptWrite hi v = s := if_neg h

theorem State.gcPeriod_of_locked (h : ¬(s.img.st = .empty ∨ s.img.st = .refused)) : s.gcPeriod v = s := if_neg (fun x => h x.1)

theorem State.regWrite_gcPeriod (s : State) (v : Word) : s.regWrite 0x4008 v = s.gcPeriod v := by
  unfold State.regWrite State.writeTime
  rw [if_neg (by decide), if_neg (by decide), if_neg (by decide), if_neg (by decide), if_neg (by decide), if_pos (by decide),
    if_pos (by decide)]

theorem State.writeAccess_gcPeriod (s : State) (v : Word) : s.writeAccess 0x1002#18 v = (s.gcPeriod v).ctDone 0 false := by
  have hreg : s.regNow 0x4008 = some s.time.gcPer := s.regNow_time (by decide) (by decide)
  show (s.regWrite 0x4008 v).ctDone 0 (s.regNow 0x4008).isNone = _
  rw [State.regWrite_gcPeriod, hreg, Option.isNone_some]

/-- While an image stands, a write of GC_PERIOD or FEAT_ACCEPT leaves only its acknowledgement. -/
theorem State.writeAccess_of_locked (h : ¬(s.img.st = .empty ∨ s.img.st = .refused)) {a : BitVec 18}
    (haddr : a = 4 ∨ a = 5 ∨ a = 0x1002) : s.writeAccess a v = s.ctDone 0 false := by
  rcases haddr with rfl | rfl | rfl
  · exact (s.writeAccess_acceptLo v).trans (by rw [State.acceptWrite_of_locked h])
  · exact (s.writeAccess_acceptHi v).trans (by rw [State.acceptWrite_of_locked h])
  · exact (s.writeAccess_gcPeriod v).trans (by rw [State.gcPeriod_of_locked h])

/-- R392: a LOAD of the ageing history comes too late. -/
theorem State.histCtrl_of_locked (h : ¬(s.img.st = .empty ∨ s.img.st = .refused)) (hsnap : v.getLsbD 0 = false)
    (hload : v.getLsbD 1 = true) : s.histCtrl v = { s with tilth := { s.tilth with hstate := 3, hreason := 0 } } := by
  unfold State.histCtrl
  rw [show wbit v 0 = false from hsnap, show wbit v 1 = true from hload]
  exact if_pos (not_or.mp h)

end

/-- Settles O60, by whether an image locks the settings: each write is tested for STATE before anything else. -/
theorem settingsIgnoredOnceLoaded : Obligations.SettingsIgnoredOnceLoaded := by
  unfold Obligations.SettingsIgnoredOnceLoaded
  refine fun s v ha => ⟨fun hne hnr => ?locked, fun hst => ?unlocked⟩
  case locked =>
    have h : ¬(s.img.st = .empty ∨ s.img.st = .refused) := not_or.mpr ⟨hne, hnr⟩
    refine ⟨(live_of_alive (fun s => s.gcPeriod v) ha).trans (congrArg _ (State.gcPeriod_of_locked h)),
      fun hi => (live_of_alive (fun s => s.acceptWrite hi v) ha).trans (congrArg _ (State.acceptWrite_of_locked h)),
      fun a haddr => ?_, fun hsnap hload => ?_⟩
    · rw [exec_registerWrite_of_alive a v ha, State.writeAccess_of_locked h haddr]
      rfl
    · exact (live_of_alive (fun s => s.histCtrl v) ha).trans (congrArg _ (State.histCtrl_of_locked h hsnap hload))
  case unlocked =>
    refine ⟨(live_of_alive (fun s => s.acceptWrite false v) ha).trans (congrArg _ (if_pos hst)),
      (live_of_alive (fun s => s.acceptWrite true v) ha).trans (congrArg _ (if_pos hst)),
      fun hlo hhi => (live_of_alive (fun s => s.gcPeriod v) ha).trans (congrArg _ (if_pos ⟨hst, hlo, hhi⟩)),
      fun hout => (live_of_alive (fun s => s.gcPeriod v) ha).trans (congrArg _ (if_neg ?_))⟩
    rintro ⟨-, hlo, hhi⟩
    omega

/-! ### ABORT of an entry, and COL_KILL -/

section
variable {s : State} {v : Word}

/-- The way to the decider does not depend on the registers of COL_SUSP and COL_KILL. -/
theorem State.reportTo_withCol (s : State) (x : ColCtl) (g : BitVec 12) (dec : Nat) :
    State.reportTo { s with col := x } g dec = s.reportTo g dec := by
  have hup : State.up { s with col := x } (s.group g) dec = s.up (s.group g) dec :=
    State.up_of (s := s) (t := { s with col := x }) rfl rfl _ dec
  have hreach (d : Nat) : State.canReach { s with col := x } d = s.canReach d := rfl
  have hgroup : State.group { s with col := x } g = s.group g := State.group_of rfl g
  unfold State.reportTo
  rw [hgroup, hup]
  simp only [hreach]

theorem State.faultMsg_withCol (s : State) (x : ColCtl) (g : BitVec 12) (k : Word) (code src unit : Nat) (arg : Word)
    (trap : Option Cand) : State.faultMsg { s with col := x } g k code src unit arg trap = s.faultMsg g k code src unit arg trap := by
  have hdec : State.decider { s with col := x } g k = s.decider g k := rfl
  unfold State.faultMsg
  rw [hdec, s.reportTo_withCol x]

theorem exec_entryAbort_of_alive (e : Fin 512) (v : Word) (ha : s.alive = true) :
    exec (.entryAbort e v) s = .next (s.entryAbort e.val v) := live_of_alive (fun s => s.entryAbort e.val v) ha

theorem exec_colKill_of_alive (v : Word) (ha : s.alive = true) : exec (.colKill v) s = .next (s.colKill v) :=
  live_of_alive (fun s => s.colKill v) ha

theorem State.entryAbort_of_some {e : Nat} {c : Coll} (hc : s.entryColl e = some c) (hv : v.getLsbD 0 = true) : s.entryAbort e v =
    if mget none s.ct.entryRead e = some (c.g, c.k) then s.report c.g c.k 7 0 0 else s := by
  unfold State.entryAbort
  rw [hc, show wbit v 0 = true from hv]
  simp only [true_and]

/-- COL_KILL names its group, and shows in RESULT what came of it. -/
def State.killed (s : State) (g : BitVec 12) (res : BitVec 2) : State :=
  { s with col := { s.col with killGroup := g, killRes := res } }

theorem State.colKill_of_none (hv : v.getLsbD 12 = true) (hc : s.coll? (v.setWidth 12) s.col.killSeq = none) :
    s.colKill v = s.killed (v.setWidth 12) 2 := by
  unfold State.colKill
  dsimp only
  rw [show wbit v 12 = true from hv, hc]
  rfl

theorem State.colKill_of_some (hv : v.getLsbD 12 = true) {c : Coll} (hc : s.coll? (v.setWidth 12) s.col.killSeq = some c) :
    s.colKill v = if (s.group (v.setWidth 12)).home = s.own ∧ (c.st = .queued ∨ c.isOpen = true) then
        let t := (({ s with col := { s.col with killGroup := v.setWidth 12 } } : State).report (v.setWidth 12) s.col.killSeq 7 0 0)
        { t with col := { t.col with killRes := 1 } }
      else s.killed (v.setWidth 12) 2 := by
  unfold State.colKill
  dsimp only
  rw [show wbit v 12 = true from hv, hc]
  rfl

end

/-- Settles O30: both registers report where the driver's name still stands for a collective. -/
theorem driverAbortsReport : Obligations.DriverAbortsReport := by
  unfold Obligations.DriverAbortsReport
  refine fun s c v ha => ⟨fun e hc hv => ?abort, fun hv => ?kill⟩
  case abort =>
    rw [exec_entryAbort_of_alive e v ha, State.entryAbort_of_some hc hv]
    exact ⟨fun hread hdec => by rw [if_pos hread, State.report_of_decider hdec], fun hread => by rw [if_neg hread]⟩
  case kill =>
    rw [exec_colKill_of_alive v ha]
    refine ⟨fun hc => congrArg _ (State.colKill_of_none hv hc), fun hc => ⟨fun hhome hst hdec => ?_, fun hnot => ?_⟩⟩
    · have hreport := State.report_of_decider (s := { s with col := { s.col with killGroup := v.setWidth 12 } }) hdec 7 0 0 0 none
      rw [State.colKill_of_some hv hc, if_pos ⟨hhome, hst⟩]
      dsimp only
      rw [hreport, s.faultMsg_withCol]
      rfl
    · rw [State.colKill_of_some hv hc, if_neg]
      · rfl
      · rintro ⟨hhome, hst⟩
        rcases hnot with hnot | ⟨hq, ho⟩
        · exact hnot hhome
        · rcases hst with hst | hst
          · exact hq hst
          · rw [ho] at hst; cases hst

end Sys2Proof.Machine

/-! PROOFS. The life of a structure image (R392, R402 to R407, R412). -/

namespace Sys2Proof.Machine

/-! ### Invalidating an image (R406) -/

/-- Steps 1 to 3 of R406: the collectives end, the feeder stops and the hoops are clear; the image and the stakes still stand. -/
def State.emptied (s : State) : State :=
  let s1 := (s.colls.foldl (fun t c => t.imageAbort c.g c.k) s).dropColls true
  let s2 : State := { s1 with vc0 := [], col := { s1.col with susp := [], agCnt := [] } }
  let s3 := (List.range 64).foldl (fun t c => if (t.chan c).st = .disabled then t else t.disableChan c 1) s2
  s3.clearAllHoops

/-- Steps 4 and 5 of R406. -/
def State.unload (s : State) : State :=
  { s with
    stakes := mmap Stake.zero (fun _ x => x.shut) s.stakes
    img := { s.img with st := .empty, cfg := Cfg.none, digest := 0, fileCrc := 0 }
    pwr := { s.pwr with ballEn := false } }

theorem State.invalidate_eq (s : State) : s.invalidate = s.emptied.unload := by
  unfold State.invalidate State.emptied State.unload
  with_reducible rfl

theorem State.emptied_only (s : State) :
    Only [.gst, .adm, .chans, .fdw, .hoops, .hoopNet, .ports, .colls, .col, .stakes, .upd, .vc0, .free] s s.emptied := by
  unfold State.emptied
  have hcolls : Only [.gst, .adm, .chans, .fdw, .hoops, .hoopNet, .ports, .colls, .col, .stakes, .upd, .vc0, .free] s
      ((s.colls.foldl (fun t c => t.imageAbort c.g c.k) s).dropColls true) :=
    State.dropColls_only (Only.foldl .refl _ _ (fun t c k => State.imageAbort_only k _ _)) true
  exact State.clearAllHoops_only (Only.foldl (hcolls.put_col_vc0 _ _ (by decide) (by decide)) _ _
    (fun t c k => Only.ite (fun _ => k) (fun _ => State.disableChan_only k _ _)))

/-- Of the image registers, what names the image is lost, and what the driver wrote stays. -/
theorem State.invalidate_img (s : State) :
    s.invalidate.img = { s.img with st := .empty, cfg := Cfg.none, digest := 0, fileCrc := 0 } := by
  rw [State.invalidate_eq]
  unfold State.unload
  dsimp only
  rw [s.emptied_only.img (by decide)]

/-! ### A refusal (R403) -/

/-- The image registers of a refused image. -/
def Img.refuse (i : Img) (reason : Nat) (f : Nat × Nat) : Img :=
  { i with
    st := .refused, reason := BitVec.ofNat 4 reason, errsec := BitVec.ofNat 8 f.1, erroff := BitVec.ofNat 23 f.2
    cfg := Cfg.none, buf := [], buf2 := [], next := 0, digest := 0, fileCrc := 0 }

/-- The refused image before it is logged: what had been applied of it is gone. -/
def State.unapplied (s : State) (reason : Nat) (f : Nat × Nat) : State :=
  { s with img := s.img.refuse reason f, pwr := { s.pwr with ballEn := false } }

theorem State.refuseImage_eq (s : State) (reason : Nat) (f : Nat × Nat) : s.refuseImage reason f =
    (((s.orphanLoader.clearAllHoops.unapplied reason f).logEv 0x25 7 9 0 (reason + pl f.1 8) f.2).attn 6).floorCheck := by
  unfold State.refuseImage State.unapplied Img.refuse
  with_reducible rfl

theorem State.refuseImage_img (s : State) (reason : Nat) (f : Nat × Nat) : (s.refuseImage reason f).img = s.img.refuse reason f := by
  have hcleared : s.orphanLoader.clearAllHoops.img = s.img :=
    (State.clearAllHoops_only (w := [.fdw, .hoops, .ports]) (State.orphanLoader_only .refl)).img (by decide)
  rw [State.refuseImage_eq, (State.floorCheck_only (w := [.gst, .pwr]) .refl).img (by decide), State.attn_img,
    (State.logEv_only (w := [.gst]) .refl _ _ _ _ _ _).img (by decide)]
  exact congrArg (fun i => i.refuse reason f) hcleared

theorem State.refuseImage_attn (s : State) (reason : Nat) (f : Nat × Nat) :
    (s.refuseImage reason f).gst.attn.getLsbD 6 = true :=
  (State.floorCheck_holds .refl).attn 6 (State.attn_getLsbD_self _ (by decide))

/-! ### LOAD (R402) -/

section
variable {s : State} {v : Word}

/-- CHECK begins: nothing of the image has been read, and no injection is armed. -/
def State.toCheck (s : State) : State :=
  { s with
    img := { s.img with st := .check, reason := 0, errsec := 0, erroff := 0, next := 0, buf := [], buf2 := [] }
    fdw := { s.fdw with evtIn := mmap ⟨0, 0⟩ (fun _ e => { e with pend := 0 }) s.fdw.evtIn }
    dbg := { s.dbg with armed := false } }

theorem State.load_of_ignored
    (h : v.getLsbD 0 = false ∨ s.wl.acc.isSome = true ∨ s.img.st = .check ∨ s.img.st = .apply ∨ s.img.st = .test) :
    s.load v = s := if_pos h

theorem State.load_of_taken
    (h : ¬(v.getLsbD 0 = false ∨ s.wl.acc.isSome = true ∨ s.img.st = .check ∨ s.img.st = .apply ∨ s.img.st = .test)) :
    s.load v = (if s.img.st = .inService ∨ s.img.st = .checked then s.invalidate else s).toCheck.floorCheck := if_neg h

/-- The state from which a LOAD starts: without the image that stood. -/
theorem State.unloaded_img (s : State) : (if s.img.st = .inService ∨ s.img.st = .checked then s.invalidate else s).img =
    if s.img.st = .inService ∨ s.img.st = .checked then
      { s.img with st := .empty, cfg := Cfg.none, digest := 0, fileCrc := 0 } else s.img := by
  split
  · exact s.invalidate_img
  · rfl

/-! ### The end of CHECK and of APPLY -/

theorem State.checkDone_of_preFault (hst : s.img.st = .check) {f : Nat × (Nat × Nat)} (hf : s.preFault = some f) :
    s.checkDone = s.refuseImage f.1 f.2 := by
  unfold State.checkDone
  rw [if_neg (not_not_intro hst), hf]

/-- The bytes that CHECK has read. -/
def State.checkBytes (s : State) : List Byte := s.img.buf.flatMap (fun x => x.2)

/-- The bytes that APPLY has read. -/
def State.applyBytes (s : State) : List Byte := s.img.buf2.flatMap (fun x => x.2)

theorem State.checkDone_of_read (hst : s.img.st = .check) (hf : s.preFault = none) : s.checkDone =
    if s.img.buf.length < s.imgBeats then s
    else match s.checkImage s.checkBytes with
      | some f => s.refuseImage f.1 f.2
      | none => { s with img := { s.img with st := .apply, next := 0, buf2 := [] } } := by
  unfold State.checkDone
  rw [if_neg (not_not_intro hst), hf]
  rfl

theorem State.applyDone_of_read (hst : s.img.st = .apply) (hread : s.imgBeats ≤ s.img.buf2.length) : s.applyDone =
    match lowest (changedFaults s.checkBytes s.applyBytes) with
    | some f => s.refuseImage 0xF f
    | none => s.applied s.applyBytes := by
  unfold State.applyDone
  rw [if_neg (not_or.mpr ⟨not_not_intro hst, Nat.not_lt.mpr hread⟩)]
  rfl

theorem State.applyDone_of_early (h : s.img.st ≠ .apply ∨ s.img.buf2.length < s.imgBeats) : s.applyDone = s := if_pos h

/-- The image registers once the configuration stands. -/
def Img.applied (i : Img) (l : List Sec) : Img :=
  { i with
    st := .checked, cfg := cfgOf l, digest := BitVec.ofNat 64 (leAt (secOf l 0).bytes 24 8), fileCrc := fileCrcOf l
    buf := [], buf2 := [], next := 0 }

theorem State.applied_img (s : State) (bs : List Byte) : (s.applied bs).img = s.img.applied (sectionsOf bs).1 := by
  unfold State.applied
  extract_lets l s1 s2
  rw [(State.floorCheck_only (w := [.gst, .pwr]) .refl).img (by decide)]
  exact (State.takePolicy_only (w := [.hoops, .ports]) .refl).img (by decide)

theorem State.applied_colls (s : State) (bs : List Byte) : (s.applied bs).colls = s.colls := by
  unfold State.applied
  extract_lets l s1 s2
  rw [(State.floorCheck_only (w := [.gst, .pwr]) .refl).colls (by decide)]
  exact (State.takePolicy_only (w := [.hoops, .ports]) .refl).colls (by decide)

/-! ### The sign-off (R404, R407) -/

theorem State.dropColls_false_colls (s : State) : (s.dropColls false).colls = [] := by
  unfold State.dropColls
  simp

/-- The state in service before its stakes train. -/
def State.serviceBegun (s : State) : State :=
  { s.dropColls false with
    ports := mmap Port.zero (fun _ p => p.renew) s.ports, col := { (s.dropColls false).col with agCnt := [] }
    img := { s.img with st := .inService, loads := satInc s.img.loads } }

/-- Training begins on stake `n` if the image enables it. -/
def State.trainEnabled (t : State) (n : Nat) : State :=
  if t.img.cfg.stkEn n then t.setStake n ((t.stake n).idled.train (t.img.cfg.lanesOf n) 0) else t

theorem State.enterService_eq (s : State) :
    s.enterService = (List.range 16).foldl State.trainEnabled s.takePolicy.updRenew.serviceBegun := by
  unfold State.enterService State.serviceBegun State.trainEnabled
  with_reducible rfl

theorem State.enterService_only_begun (s : State) : Only [.stakes] s.takePolicy.updRenew.serviceBegun s.enterService := by
  rw [State.enterService_eq]
  exact Only.foldl .refl _ _ (fun t n k => Only.ite (fun _ => State.setStake_only k _ _) (fun _ => k))

theorem State.enterService_img (s : State) : s.enterService.img = { s.img with st := .inService, loads := satInc s.img.loads } := by
  have hpolicy : s.takePolicy.updRenew.img = s.img :=
    (State.updRenew_only (w := [.hoops, .ports, .upd]) (State.takePolicy_only .refl)).img (by decide)
  rw [s.enterService_only_begun.img (by decide)]
  exact congrArg (fun i : Img => { i with st := .inService, loads := satInc i.loads }) hpolicy

theorem State.enterService_colls (s : State) : s.enterService.colls = [] := by
  rw [s.enterService_only_begun.colls (by decide)]
  exact State.dropColls_false_colls _

/-- R345: the time of a die whose image names its TM_DIE. -/
theorem State.signoff_of_match (hst : s.img.st = .checked) (h : v ++ s.img.signLo = s.img.fileCrc) :
    ∃ t : Time, s.signoff v = State.enterService { s with time := { t with tmDie := s.img.cfg.tmDie } } := by
  unfold State.signoff
  rw [if_neg (not_not_intro hst), if_neg (not_not_intro h)]
  exact ⟨_, rfl⟩

theorem State.signoff_of_differs (hst : s.img.st = .checked) (h : v ++ s.img.signLo ≠ s.img.fileCrc) :
    s.signoff v = s.refuseImage 0xC noByte := by
  unfold State.signoff
  rw [if_neg (not_not_intro hst), if_pos h]

end

/-- Settles O54, state by state of IMG_STATUS. -/
theorem imageLifeCycle : Obligations.ImageLifeCycle := by
  unfold Obligations.ImageLifeCycle
  intro s ha
  have hload : ∀ v, exec (.load v) s = .next (s.load v) := fun v => live_of_alive (fun s => s.load v) ha
  have hcheck : exec .imageCheckDone s = .next s.checkDone := live_of_alive (fun s => s.checkDone) ha
  have happly : exec .imageApplyDone s = .next s.applyDone := live_of_alive (fun s => s.applyDone) ha
  have hsign : ∀ v, exec (.signoff v) s = .next (s.signoff v) := fun v => live_of_alive (fun s => s.signoff v) ha
  refine ⟨fun v => ⟨fun h => ?ignored, fun hgo hacc hc hap ht => ?load⟩, fun hst => ?noCheck, fun hst => ?check, fun h => ?early,
    fun hst hread => ?apply, fun v => ⟨fun hst => ?noSign, fun hst => ?sign⟩,
    fun hi v => live_of_alive (fun s => s.acceptWrite hi v) ha⟩
  case ignored => rw [hload, State.load_of_ignored h]
  case load =>
    have htaken : ¬(v.getLsbD 0 = false ∨ s.wl.acc.isSome = true ∨ s.img.st = .check ∨ s.img.st = .apply ∨ s.img.st = .test) := by
      simp [hgo, hacc, hc, hap, ht]
    have himg := s.unloaded_img
    have haccept := (commandFrame _ _ _ (hload v)).accept (by decide : Fld.accept ∉ Sys2Proof.Instr.writes (.load 0))
    refine ⟨_, hload v, ?_⟩
    rw [State.load_of_taken htaken] at haccept ⊢
    generalize (if s.img.st = .inService ∨ s.img.st = .checked then s.invalidate else s) = u at himg haccept ⊢
    have hfloor := State.floorCheck_only (w := [.gst, .pwr]) (s := u.toCheck) .refl
    rw [hfloor.img (by decide), hfloor.dbg (by decide)]
    refine ⟨rfl, rfl, rfl, rfl, rfl, haccept, ?_, ?_, fun hstood => ?_⟩
    · show u.img.addr = _
      rw [himg]
      split <;> rfl
    · show u.img.len = _
      rw [himg]
      split <;> rfl
    · show u.img.cfg = _ ∧ u.img.digest = _
      rw [himg, if_pos hstood]
      exact ⟨rfl, rfl⟩
  case noCheck =>
    rw [hcheck]
    exact congrArg _ (if_pos hst)
  case check =>
    refine ⟨_, hcheck, fun f hf => ?_, fun hf hlt => ?_, fun hf hread => ⟨fun f hfault => ?_, fun hgood => ?_⟩⟩
    · rw [State.checkDone_of_preFault hst hf, State.refuseImage_img]
      exact ⟨rfl, rfl, State.refuseImage_attn _ _ _, rfl⟩
    · rw [State.checkDone_of_read hst hf, if_pos hlt]
    · rw [State.checkDone_of_read hst hf, if_neg (Nat.not_lt.mpr hread), show s.checkImage s.checkBytes = some f from hfault]
      dsimp only
      rw [State.refuseImage_img]
      exact ⟨rfl, rfl, rfl, rfl, State.refuseImage_attn _ _ _, rfl⟩
    · rw [State.checkDone_of_read hst hf, if_neg (Nat.not_lt.mpr hread), show s.checkImage s.checkBytes = none from hgood]
  case early => rw [happly, State.applyDone_of_early h]
  case apply =>
    refine ⟨_, happly, fun f hf => ?_, fun hsame => ?_⟩
    · rw [State.applyDone_of_read hst hread, show lowest (changedFaults s.checkBytes s.applyBytes) = some f from hf]
      dsimp only
      rw [State.refuseImage_img]
      exact ⟨rfl, rfl, State.refuseImage_attn _ _ _, rfl⟩
    · rw [State.applyDone_of_read hst hread, show lowest (changedFaults s.checkBytes s.applyBytes) = none from hsame]
      dsimp only
      rw [State.applied_img, State.applied_colls]
      exact ⟨rfl, rfl, rfl, rfl⟩
  case noSign =>
    rw [hsign]
    exact congrArg _ (if_pos hst)
  case sign =>
    refine ⟨_, hsign v, fun h => ?_, fun h => ?_⟩
    · obtain ⟨t, hmatch⟩ := State.signoff_of_match hst h
      have htime := fun x : State => (State.enterService_only (w := [.img, .hoops, .ports, .colls, .col, .stakes, .upd])
        (s := x) .refl).time (by decide)
      rw [hmatch, State.enterService_img, State.enterService_colls, htime]
      exact ⟨rfl, rfl, rfl, rfl, rfl⟩
    · rw [State.signoff_of_differs hst h, State.refuseImage_img]
      exact ⟨rfl, rfl, State.refuseImage_attn _ _ _, rfl⟩

end Sys2Proof.Machine

/-! PROOFS. The wrapper (R386 to R388, Table PI-13). -/

namespace Sys2Proof.Machine

/-! ### Tables filled or changed entry by entry -/

section
variable {α : Type} [DecidableEq α] {d : α} {m : Map α}

/-- Every entry of a changed table has a property that the change gives and that the value of an absent key has. -/
theorem mget_mmap_of {P : α → Prop} (hd : P d) {f : Nat → α → α} (hf : ∀ k v, P (f k v)) (m : Map α) (i : Nat) :
    P (mget d (mmap d f m) i) := by
  induction m with
  | nil => exact hd
  | cons x m ih =>
    obtain ⟨k, v⟩ := x
    unfold mmap
    split
    · exact ih
    · unfold mget
      split
      · exact hf k v
      · exact ih

/-- A table in which the entries of a list are put one after the other. -/
theorem mget_foldl_mput (f : Nat → α) (l : List Nat) (hm : mwf d m = true) (i : Nat) :
    mget d (l.foldl (fun m j => mput d m j (f j)) m) i = if i ∈ l then f i else mget d m i := by
  induction l generalizing m with
  | nil => rfl
  | cons j l ih =>
    rw [List.foldl_cons, ih (mput_wf d m j (f j) hm)]
    by_cases hl : i ∈ l
    · rw [if_pos hl, if_pos (List.mem_cons_of_mem j hl)]
    · rw [if_neg hl]
      by_cases hj : i = j
      · subst hj
        rw [if_pos List.mem_cons_self, mget_mput_same d m i _ none hm]
      · rw [if_neg (fun h => (List.mem_cons.mp h).elim hj hl), mget_mput_other d m j i _ hj]

end

/-! ### Test state (R388) -/

/-- A stake once the image is gone: in electrical idle, or closing (log entry 87). -/
def Stake.idleOrClosing (x : Stake) : Prop := x.st = .idle ∨ x.closing = true

theorem Stake.shut_idleOrClosing (x : Stake) : x.shut.idleOrClosing := by
  unfold Stake.shut
  split
  · exact .inr rfl
  · exact .inl rfl

theorem State.unload_stake (s : State) (n : Nat) : (s.unload.stake n).idleOrClosing :=
  mget_mmap_of (P := Stake.idleOrClosing) (.inl rfl) (fun _ x => x.shut_idleOrClosing) s.stakes n

section
variable {s t : State}

theorem State.enterTest_img_st (s : State) : s.enterTest.img.st = .test := by
  unfold State.enterTest
  split
  · assumption
  · rfl

/-- The image registers of test state. -/
def State.locked (s : State) : State := { s with img := { s.img with st := .test, buf := [], buf2 := [], next := 0 } }

theorem State.locked_stake (s : State) (n : Nat) : s.locked.stake n = s.stake n := rfl

theorem State.enterTest_of_loaded (h : s.img.st = .inService ∨ s.img.st = .checked) : s.enterTest = s.invalidate.locked := by
  have hnot : s.img.st ≠ .test := fun e => by rw [e] at h; exact h.elim nofun nofun
  unfold State.enterTest State.locked
  rw [if_neg hnot, if_pos h]

theorem State.enterTest_stake (h : s.img.st = .inService ∨ s.img.st = .checked) (n : Nat) : (s.enterTest.stake n).idleOrClosing := by
  rw [State.enterTest_of_loaded h, State.locked_stake, State.invalidate_eq]
  exact s.emptied.unload_stake n

theorem State.inService_of_test (h : s.img.st = .test) : s.inService = false := by
  unfold State.inService
  rw [h]
  rfl

theorem State.notReady_of_test (h : s.img.st = .test) (cp : Nat) : s.notReady cp = true := by
  unfold State.notReady
  rw [State.inService_of_test h]
  rfl

/-- The block under a wrapper instruction of test state, whatever the wrapper's own registers then hold. -/
theorem State.testState (h : Only [.wrap, .free] s.enterTest t) :
    t.img.st = .test ∧ t.inService = false ∧ (∀ cp, t.notReady cp = true)
    ∧ t.tilth = s.tilth ∧ t.time = s.time ∧ t.wl = s.wl ∧ t.accept = s.accept
    ∧ (s.img.st = .inService ∨ s.img.st = .checked → ∀ n, (t.stake n).st = .idle ∨ (t.stake n).closing = true) := by
  have hst : t.img.st = .test := (congrArg Img.st (h.img (by decide))).trans s.enterTest_img_st
  have hkept : Only [.gst, .img, .adm, .pwr, .chans, .fdw, .hoops, .hoopNet, .ports, .colls, .col, .stakes, .upd, .wrap, .vc0, .free] s t :=
    (State.enterTest_only .refl).next h (by decide)
  refine ⟨hst, State.inService_of_test hst, State.notReady_of_test hst, hkept.tilth (by decide), hkept.time (by decide),
    hkept.wl (by decide), hkept.accept (by decide), fun hstood n => ?_⟩
  have hstake : t.stake n = s.enterTest.stake n := congrArg (fun m => mget Stake.zero m n) (h.stakes (by decide))
  rw [hstake]
  exact State.enterTest_stake hstood n

theorem State.enterTest_wrap (s : State) : s.enterTest.wrap = s.wrap :=
  (State.enterTest_only (w := [.gst, .img, .adm, .pwr, .chans, .fdw, .hoops, .hoopNet, .ports, .colls, .col, .stakes, .upd, .vc0, .free])
    .refl).wrap (by decide)

/-! ### The codes of test state -/

theorem State.outCell_of_extest (h : t.wrap.ir = 1) (i : Nat) (own : Bool) :
    t.outCell i own = Config.boundaryCell t.wrap.cells i := if_pos h

theorem State.outCell_of_intest (h : t.wrap.ir = 2) (i : Nat) (own : Bool) : t.outCell i own = own :=
  if_neg (by rw [h]; decide)

theorem State.inCell_of_intest (h : t.wrap.ir = 2) (i : Nat) (pin : Bool) :
    t.inCell i pin = Config.boundaryCell t.wrap.cells i := if_pos h

theorem State.inCell_of_extest (h : t.wrap.ir = 1) (i : Nat) (pin : Bool) : t.inCell i pin = pin :=
  if_neg (by rw [h]; decide)

theorem State.mbist_bist (h : mwf Bist.zero s.wrap.bist = true) {i : Nat} (hi : i < 160) :
    mget Bist.zero s.mbist.wrap.bist i = bistOf (Config.mbistResult s.free i) := by
  unfold State.mbist
  dsimp only
  rw [mget_foldl_mput (fun i => bistOf (Config.mbistResult s.free i)) _ h, if_pos (List.mem_range.mpr hi)]

theorem State.dlysweep_sweep (h : mwf Sweep.zero s.wrap.sweep = true) {i : Nat} (hi : i < 160) :
    mget Sweep.zero s.dlysweep.wrap.sweep i = sweepOf (Config.sweepResult s.free i) := by
  unfold State.dlysweep
  dsimp only
  rw [mget_foldl_mput (fun i => sweepOf (Config.sweepResult s.free i)) _ h, if_pos (List.mem_range.mpr hi)]

theorem State.mbist_wir_sweep (s : State) (code : BitVec 4) : (s.wir code).mbist.wrap.sweep = s.wrap.sweep := rfl

theorem State.dlysweep_wir_bist (s : State) (code : BitVec 4) : (s.wir code).dlysweep.wrap.bist = s.wrap.bist := rfl

/-! ### What each code runs -/

theorem exec_wsExtest_of_alive (ha : s.alive = true) : exec .wsExtest s = .next (s.enterTest.wir 1).capture :=
  live_of_alive (fun s => (s.enterTest.wir 1).capture) ha

theorem exec_wsIntest_of_alive (ha : s.alive = true) : exec .wsIntest s = .next (s.enterTest.wir 2).capture :=
  live_of_alive (fun s => (s.enterTest.wir 2).capture) ha

theorem exec_szMbist_of_alive (ha : s.alive = true) : exec .szMbist s = .next (s.enterTest.wir 3).mbist :=
  live_of_alive (fun s => (s.enterTest.wir 3).mbist) ha

theorem exec_szDlysweep_of_alive (ha : s.alive = true) : exec .szDlysweep s = .next (s.enterTest.wir 4).dlysweep :=
  live_of_alive (fun s => (s.enterTest.wir 4).dlysweep) ha

theorem exec_wsBypass_of_alive (ha : s.alive = true) : exec .wsBypass s =
    .next { s with wrap := { s.wrap with ir := 0, bypass := Config.bypassBits s.free }, free := s.free + 1 } :=
  live_of_alive (fun s => let t := s.wir 0; { t with wrap := { t.wrap with bypass := Config.bypassBits t.free }, free := t.free + 1 }) ha

theorem exec_szIdcode_of_alive (ha : s.alive = true) :
    exec .szIdcode s = .next { s with wrap := { s.wrap with ir := 5, idcode := Config.version } } :=
  live_of_alive (fun s => let t := s.wir 5; { t with wrap := { t.wrap with idcode := Config.version } }) ha

theorem exec_szCtrl_of_alive (r : BitVec 51) (busy : Bool) (ha : s.alive = true) :
    exec (.szCtrl r busy) s = .next (s.szCtrl r busy) := live_of_alive (fun s => s.szCtrl r busy) ha

/-! ### One access by SZ_CTRL (R387) -/

/-- The address and the data that SZ_CTRL shifts in. -/
theorem ctrl_address (r : BitVec 51) : BitVec.ofNat 18 (fld r.toNat 18 1) = BitVec.ofNat 18 (r.toNat / 2) :=
  BitVec.eq_of_toNat_eq (by simp [fld, Nat.shiftRight_eq_div_pow])

theorem ctrl_data (r : BitVec 51) : BitVec.ofNat 32 (fld r.toNat 50 19) = BitVec.ofNat 32 (r.toNat / 2 ^ 19) :=
  BitVec.eq_of_toNat_eq (by simp [fld, Nat.shiftRight_eq_div_pow])

theorem ctrlWord_eq (err : Bool) (r : BitVec 51) (data : Word) : ctrlWord err (BitVec.ofNat 18 (r.toNat / 2)) data =
    BitVec.ofNat 51 ((if err then 1 else 0) + r.toNat / 2 % 2 ^ 18 * 2 + data.toNat * 2 ^ 19) := by
  unfold ctrlWord b1 pl
  rw [BitVec.toNat_ofNat, Nat.shiftLeft_eq, Nat.shiftLeft_eq, Nat.pow_one]

/-- The access that SZ_CTRL makes, as the command that makes it. -/
def ctrlAccess (r : BitVec 51) : Instr :=
  if r.getLsbD 0 then .registerWrite (BitVec.ofNat 18 (r.toNat / 2)) (BitVec.ofNat 32 (r.toNat / 2 ^ 19))
  else .latchedGroupRead (BitVec.ofNat 18 (r.toNat / 2))

/-- What the block is after that access. -/
def State.ctrlAccessed (s : State) (r : BitVec 51) : State :=
  if r.getLsbD 0 then s.writeAccess (BitVec.ofNat 18 (r.toNat / 2)) (BitVec.ofNat 32 (r.toNat / 2 ^ 19))
  else (s.readAccess (BitVec.ofNat 18 (r.toNat / 2))).settle

theorem exec_ctrlAccess (r : BitVec 51) (ha : s.alive = true) : exec (ctrlAccess r) s = .next (s.ctrlAccessed r) := by
  unfold ctrlAccess State.ctrlAccessed
  split
  · exact exec_registerWrite_of_alive _ _ ha
  · exact exec_latchedGroupRead_of_alive _ ha

theorem State.szCtrl_of_free (s : State) (r : BitVec 51) : s.szCtrl r false =
    { (s.wir 6).ctrlAccessed r with wrap := { ((s.wir 6).ctrlAccessed r).wrap with
        szctrl := BitVec.ofNat 51 ((if ((s.wir 6).ctrlAccessed r).ct.err then 1 else 0) + r.toNat / 2 % 2 ^ 18 * 2
          + ((s.wir 6).ctrlAccessed r).ct.rdata.toNat * 2 ^ 19) } } := by
  rw [← ctrlWord_eq]
  unfold State.szCtrl State.ctrlAccessed
  rw [ctrl_address, ctrl_data]
  rfl

/-- An access leaves the wrapper alone. -/
theorem State.ctrlAccessed_wrap (s : State) (r : BitVec 51) : (s.ctrlAccessed r).wrap = s.wrap := by
  unfold State.ctrlAccessed
  split
  · exact (State.writeAccess_only (w := [.gst, .ct, .accept, .img, .wl, .time, .adm, .tilth, .pwr, .chans, .fdw, .hoops, .hoopNet,
      .ports, .colls, .col, .stakes, .exc, .upd, .dbg, .vc0, .free]) .refl _ _).wrap (by decide)
  · exact (State.settle_only (w := [.gst, .ct, .adm, .pwr, .chans, .fdw, .hoops, .hoopNet, .ports, .colls, .col, .stakes, .exc, .upd,
      .vc0]) (State.readAccess_only .refl _)).wrap (by decide)

end

/-- Settles O57, code by code. -/
theorem wrapperInstructions : Obligations.WrapperInstructions := by
  unfold Obligations.WrapperInstructions
  intro s hs ha
  refine ⟨exec_wsBypass_of_alive ha, exec_szIdcode_of_alive ha, fun c hc => ?test, fun r => exec_szCtrl_of_alive r true ha,
    fun r => ?access⟩
  case access =>
    refine ⟨(s.wir 6).ctrlAccessed r, exec_ctrlAccess r ha, ?_, State.ctrlAccessed_wrap _ r⟩
    exact (exec_szCtrl_of_alive r false ha).trans (congrArg _ (s.szCtrl_of_free r))
  case test =>
    have hwrap := s.enterTest_wrap
    rcases hc with rfl | rfl | rfl | rfl
    · obtain ⟨h1, h2, h3, h4, h5, h6, h7, h8⟩ := State.testState (s := s) (State.capture_only (State.wir_only .refl 1))
      exact ⟨_, exec_wsExtest_of_alive ha, h1, h2, h3, h4, h5, h6, h7, h8,
        fun _ => ⟨rfl, _, fun i own pin => ⟨State.outCell_of_extest rfl i own, State.inCell_of_extest rfl i pin⟩⟩, nofun, nofun, nofun⟩
    · obtain ⟨h1, h2, h3, h4, h5, h6, h7, h8⟩ := State.testState (s := s) (State.capture_only (State.wir_only .refl 2))
      exact ⟨_, exec_wsIntest_of_alive ha, h1, h2, h3, h4, h5, h6, h7, h8, nofun,
        fun _ => ⟨rfl, _, fun i own pin => ⟨State.inCell_of_intest rfl i pin, State.outCell_of_intest rfl i own⟩⟩, nofun, nofun⟩
    · obtain ⟨h1, h2, h3, h4, h5, h6, h7, h8⟩ := State.testState (s := s) (State.mbist_only (State.wir_only .refl 3))
      refine ⟨_, exec_szMbist_of_alive ha, h1, h2, h3, h4, h5, h6, h7, h8, nofun, nofun,
        fun _ => ⟨rfl, (State.mbist_wir_sweep _ 3).trans (congrArg Wrap.sweep hwrap), _, fun i hi => State.mbist_bist ?_ hi⟩, nofun⟩
      show mwf Bist.zero s.enterTest.wrap.bist = true
      rw [hwrap]
      exact hs.fields.bist
    · obtain ⟨h1, h2, h3, h4, h5, h6, h7, h8⟩ := State.testState (s := s) (State.dlysweep_only (State.wir_only .refl 4))
      refine ⟨_, exec_szDlysweep_of_alive ha, h1, h2, h3, h4, h5, h6, h7, h8, nofun, nofun, nofun,
        fun _ => ⟨rfl, (State.dlysweep_wir_bist _ 4).trans (congrArg Wrap.bist hwrap), _, fun i hi => State.dlysweep_sweep ?_ hi⟩⟩
      show mwf Sweep.zero s.enterTest.wrap.sweep = true
      rw [hwrap]
      exact hs.fields.sweep

end Sys2Proof.Machine

/-! PROOFS. The symbol code (R186): multiplication by α, the syndromes of a codeword with one wrong symbol, and its correction. -/

namespace Sys2Proof.Machine

-- one thread: the text is compiled as a whole, and each waiting thread holds its own stack
set_option Elab.async false

/-! ### Multiplication by α -/

theorem gfX_xor (a b : Byte) : gfX (a ^^^ b) = gfX a ^^^ gfX b := by
  unfold gfX
  rw [BitVec.getLsbD_xor, BitVec.shiftLeft_xor_distrib]
  cases a.getLsbD 7 <;> cases b.getLsbD 7
  · rfl
  · exact BitVec.xor_assoc ..
  · show (a <<< 1 ^^^ b <<< 1) ^^^ 0x1D#8 = (a <<< 1 ^^^ 0x1D#8) ^^^ b <<< 1
    ac_rfl
  · show a <<< 1 ^^^ b <<< 1 = (a <<< 1 ^^^ 0x1D#8) ^^^ (b <<< 1 ^^^ 0x1D#8)
    rw [show (a <<< 1 ^^^ 0x1D#8) ^^^ (b <<< 1 ^^^ 0x1D#8) = a <<< 1 ^^^ b <<< 1 ^^^ (0x1D#8 ^^^ 0x1D#8) by ac_rfl, BitVec.xor_self,
      BitVec.xor_zero]

theorem gfX_zero : gfX 0#8 = 0#8 := rfl

theorem iterate_gfX_xor (n : Nat) (a b : Byte) : gfX^[n] (a ^^^ b) = gfX^[n] a ^^^ gfX^[n] b := by
  induction n with
  | zero => rfl
  | succ n ih => rw [Function.iterate_succ_apply', Function.iterate_succ_apply', Function.iterate_succ_apply', ih, gfX_xor]

theorem iterate_gfX_zero (n : Nat) : gfX^[n] 0#8 = 0#8 := Function.iterate_fixed gfX_zero n

/-- A byte is the sum of the powers of α that its bits name. -/
theorem byte_eq_sum_bits (e : Byte) :
    e = (List.range 8).foldl (fun a i => a ^^^ if e.getLsbD i then 1#8 <<< i else 0#8) 0#8 := by
  decide +revert

theorem iterate_gfX_foldl_bits (n : Nat) (e : Byte) (is : List Nat) (a : Byte) (h : ∀ i ∈ is, gfX^[n] (1#8 <<< i) = 1#8 <<< i)
    (ha : gfX^[n] a = a) :
    gfX^[n] (is.foldl (fun a i => a ^^^ if e.getLsbD i then 1#8 <<< i else 0#8) a)
      = is.foldl (fun a i => a ^^^ if e.getLsbD i then 1#8 <<< i else 0#8) a := by
  induction is generalizing a with
  | nil => exact ha
  | cons i is ih =>
    refine ih _ (fun j hj => h j (List.mem_cons_of_mem i hj)) ?_
    have hbit : gfX^[n] (if e.getLsbD i then 1#8 <<< i else 0#8) = if e.getLsbD i then 1#8 <<< i else 0#8 := by
      split
      · exact h i List.mem_cons_self
      · exact iterate_gfX_zero n
    rw [iterate_gfX_xor, ha, hbit]

/-- The order of α divides 255. -/
theorem gfX_periodic (e : Byte) : Function.IsPeriodicPt gfX 255 e := by
  have hbasis : ∀ i ∈ List.range 8, gfX^[255] (1#8 <<< i) = 1#8 <<< i := by decide +kernel
  have hsum := iterate_gfX_foldl_bits 255 e (List.range 8) 0#8 hbasis (iterate_gfX_zero 255)
  rw [← byte_eq_sum_bits] at hsum
  exact hsum

theorem eq_zero_of_gfX_15 : ∀ e : Byte, gfX^[15] e = e → e = 0#8 := by decide +kernel

theorem eq_zero_of_gfX_51 : ∀ e : Byte, gfX^[51] e = e → e = 0#8 := by decide +kernel

/-- No power of α from 1 to 65 is 1: its order is no proper divisor of 255. -/
theorem iterate_gfX_ne {e : Byte} (he : e ≠ 0#8) {k : Nat} (h0 : 0 < k) (h : k < 66) : gfX^[k] e ≠ e := by
  intro hk
  have hgcd : Function.IsPeriodicPt gfX (k.gcd 255) e := Function.IsPeriodicPt.gcd hk (gfX_periodic e)
  have hdvd : ∀ k < 66, 0 < k → k.gcd 255 ∣ 15 ∨ k.gcd 255 ∣ 51 := by decide
  rcases hdvd k h h0 with hd | hd
  · exact he (eq_zero_of_gfX_15 e (hgcd.trans_dvd hd))
  · exact he (eq_zero_of_gfX_51 e (hgcd.trans_dvd hd))

theorem gfX_injective : Function.Injective gfX := by
  have hz : ∀ a : Byte, gfX a = 0#8 → a = 0#8 := by decide
  intro a b h
  refine BitVec.xor_eq_zero_iff.mp (hz _ ?_)
  rw [gfX_xor, h, BitVec.xor_self]

theorem iterate_gfX_ne_zero {e : Byte} (he : e ≠ 0#8) (k : Nat) : gfX^[k] e ≠ 0#8 := fun h =>
  he (gfX_injective.iterate k (h.trans (iterate_gfX_zero k).symm))

/-! ### Division by α + 1 -/

theorem gfDivA1_of_exists (a y : Byte) (n : Nat) (h : ∃ m ≤ n, gfX (y + BitVec.ofNat 8 m) ^^^ (y + BitVec.ofNat 8 m) = a) :
    gfX (gfDivA1 a n y) ^^^ gfDivA1 a n y = a := by
  induction n generalizing y with
  | zero =>
    obtain ⟨m, hm, he⟩ := h
    obtain rfl : m = 0 := by omega
    simpa [gfDivA1] using he
  | succ n ih =>
    rw [gfDivA1]
    split
    · assumption
    next hy =>
      obtain ⟨m, hm, he⟩ := h
      refine ih _ ?_
      cases m with
      | zero => exact absurd (by simpa using he) hy
      | succ m =>
        refine ⟨m, by omega, ?_⟩
        rwa [show y + 1#8 + BitVec.ofNat 8 m = y + BitVec.ofNat 8 (m + 1) by rw [BitVec.ofNat_add, BitVec.add_assoc, BitVec.add_comm 1#8]]

/-- Multiplication by α + 1 loses nothing, so it meets every byte. -/
theorem gfA1_surjective : Function.Surjective (fun y : Byte => gfX y ^^^ y) := by
  have hz : ∀ y : Byte, gfX y ^^^ y = 0#8 → y = 0#8 := by decide
  refine Finite.surjective_of_injective fun a b h => ?_
  refine BitVec.xor_eq_zero_iff.mp (hz _ ?_)
  have hab : gfX a ^^^ a = gfX b ^^^ b := h
  rw [gfX_xor, show gfX a ^^^ gfX b ^^^ (a ^^^ b) = (gfX a ^^^ a) ^^^ (gfX b ^^^ b) by ac_rfl, hab, BitVec.xor_self]

theorem gfDivA1_spec (a : Byte) : gfX (gfDivA1 a 255 0#8) ^^^ gfDivA1 a 255 0#8 = a := by
  obtain ⟨y, hy⟩ := gfA1_surjective a
  refine gfDivA1_of_exists a 0#8 255 ⟨y.toNat, by have := y.isLt; omega, ?_⟩
  simpa using hy

/-! ### Syndromes -/

theorem syndromes_snoc (l : List Byte) (b : Byte) :
    syndromes (l ++ [b]) = ((syndromes l).1 ^^^ b, gfX (syndromes l).2 ^^^ b) := by
  simp [syndromes]

theorem syndromes_append (l r : List Byte) :
    syndromes (l ++ r) = ((syndromes l).1 ^^^ (syndromes r).1, gfX^[r.length] (syndromes l).2 ^^^ (syndromes r).2) := by
  induction r using List.reverseRecOn with
  | nil => simp [syndromes]
  | append_singleton r b ih =>
    rw [← List.append_assoc, syndromes_snoc, syndromes_snoc, ih, List.length_append, List.length_singleton,
      Function.iterate_succ_apply', gfX_xor, BitVec.xor_assoc, BitVec.xor_assoc]

/-- The check symbols make both syndromes 0. -/
theorem syndromes_checkSymbols (d : List Byte) : syndromes (d ++ checkSymbols d) = (0#8, 0#8) := by
  have hdiv := gfDivA1_spec ((syndromes (d ++ [0#8, 0#8])).1 ^^^ (syndromes (d ++ [0#8, 0#8])).2)
  unfold checkSymbols
  dsimp only
  generalize gfDivA1 _ 255 0#8 = c at hdiv ⊢
  have h0 : syndromes [0#8, 0#8] = (0#8, 0#8) := rfl
  have hc (x : Byte) : syndromes [c, x] = (c ^^^ x, gfX c ^^^ x) := by simp [syndromes, show gfX 0#8 = 0#8 from rfl]
  rw [syndromes_append, h0] at hdiv
  rw [syndromes_append, syndromes_append d [0#8, 0#8], h0, hc]
  generalize (syndromes d).1 = u at hdiv ⊢
  generalize gfX^[List.length [0#8, 0#8]] (syndromes d).2 = v at hdiv ⊢
  simp only [BitVec.xor_zero] at hdiv ⊢
  refine Prod.ext ?_ ?_
  · show u ^^^ (c ^^^ (u ^^^ c)) = 0#8
    rw [show u ^^^ (c ^^^ (u ^^^ c)) = (u ^^^ u) ^^^ (c ^^^ c) by ac_rfl, BitVec.xor_self, BitVec.xor_self, BitVec.xor_self]
  · show v ^^^ (gfX c ^^^ (u ^^^ c)) = 0#8
    rw [show v ^^^ (gfX c ^^^ (u ^^^ c)) = (gfX c ^^^ c) ^^^ (u ^^^ v) by ac_rfl, hdiv, BitVec.xor_self]

theorem checkSymbols_length (d : List Byte) : (checkSymbols d).length = 2 := rfl

/-- One wrong symbol: S0 is the error, and S1 the error times the power of α of its place. -/
theorem syndromes_set {cw : List Byte} {i : Nat} (h : i < cw.length) (e : Byte) (h0 : syndromes cw = (0#8, 0#8)) :
    syndromes (cw.set i (byteAt cw i ^^^ e)) = (e, gfX^[cw.length - 1 - i] e) := by
  have hi : byteAt cw i = cw[i] := List.getD_eq_getElem _ _ h
  have hlen : (cw.drop (i + 1)).length = cw.length - 1 - i := by rw [List.length_drop]; omega
  have hone (b : Byte) : syndromes [b] = (b, b) := by simp [syndromes, show gfX 0#8 = 0#8 from rfl]
  have hcw : syndromes (cw.take i ++ ([cw[i]] ++ cw.drop (i + 1))) = (0#8, 0#8) := by
    rw [List.singleton_append, List.getElem_cons_drop, List.take_append_drop, h0]
  rw [List.set_eq_take_append_cons_drop, if_pos h, ← List.singleton_append, hi]
  rw [syndromes_append, syndromes_append, hone, Prod.mk.injEq] at hcw ⊢
  obtain ⟨hs0, hs1⟩ := hcw
  simp only [List.length_append, List.length_singleton, hlen, iterate_gfX_xor] at hs0 hs1 ⊢
  constructor
  · refine Eq.trans ?_ (BitVec.xor_zero (x := e))
    rw [← hs0]
    ac_rfl
  · refine Eq.trans ?_ (BitVec.xor_zero (x := gfX^[cw.length - 1 - i] e))
    rw [← hs1]
    ac_rfl

/-! ### The correction -/

theorem gfPow_of_first {s1 x : Byte} {m n : Nat} (j : Nat) (hm : m < n) (h : gfX^[m] x = s1) (hfirst : ∀ k < m, gfX^[k] x ≠ s1) :
    gfPow s1 n j x = some (j + m) := by
  induction m generalizing n j x with
  | zero =>
    obtain ⟨n, rfl⟩ : ∃ k, n = k + 1 := ⟨n - 1, by omega⟩
    rw [gfPow, if_pos (show x = s1 from h), Nat.add_zero]
  | succ m ih =>
    obtain ⟨n, rfl⟩ : ∃ k, n = k + 1 := ⟨n - 1, by omega⟩
    rw [gfPow, if_neg (show x ≠ s1 from hfirst 0 (by omega)), ih (j + 1) (by omega) h fun k hk => hfirst (k + 1) (by omega), Nat.add_right_comm, Nat.add_assoc]

theorem gfPow_iterate {e : Byte} (he : e ≠ 0#8) {m : Nat} (hm : m < 66) : gfPow (gfX^[m] e) 66 0 e = some m := by
  rw [gfPow_of_first 0 hm rfl fun k hk heq => ?_, Nat.zero_add]
  refine iterate_gfX_ne (iterate_gfX_ne_zero he k) (k := m - k) (by omega) (by omega) ?_
  rw [← Function.iterate_add_apply, Nat.sub_add_cancel hk.le, heq]

theorem decodeCodeword_of_good {cw : List Byte} (h : syndromes cw = (0#8, 0#8)) : decodeCodeword cw = .ok (cw.take 64) := by
  simp [decodeCodeword, h]

theorem decodeCodeword_of_error {cw : List Byte} {i : Nat} (h : i < 66) {e : Byte} (he : e ≠ 0#8) (hs : syndromes cw = (e, gfX^[65 - i] e)) :
    decodeCodeword cw = .corrected ((cw.set i (byteAt cw i ^^^ e)).take 64) := by
  have hpow := gfPow_iterate he (m := 65 - i) (by omega)
  have hne := iterate_gfX_ne_zero he (65 - i)
  have hi : 65 - (65 - i) = i := by omega
  simp [decodeCodeword, hs, hpow, hi, he, hne]

theorem codeword_take {d : List Byte} (h : d.length = 64) (c : List Byte) : (d ++ c).take 64 = d := by
  rw [List.take_left' h]

/-- Settles O38: one wrong symbol shows itself in both syndromes, whose quotient names its place. -/
theorem oneWrongSymbolIsCorrected : Obligations.OneWrongSymbolIsCorrected := by
  unfold Obligations.OneWrongSymbolIsCorrected
  intro d i e hd hi he
  have hs := syndromes_checkSymbols d
  have hlen : (d ++ checkSymbols d).length = 66 := by rw [List.length_append, hd, checkSymbols_length]
  have hset := syndromes_set (hlen ▸ hi) e hs
  rw [hlen] at hset
  constructor
  · rw [decodeCodeword_of_good hs, codeword_take hd]
  · rw [decodeCodeword_of_error hi he hset, List.set_set]
    have hi' : i < (d ++ checkSymbols d).length := hlen ▸ hi
    simp only [byteAt, List.getD_eq_getElem?_getD, List.getElem?_set_self hi', Option.getD_some, List.getElem?_eq_getElem hi',
      BitVec.xor_assoc, BitVec.xor_self, BitVec.xor_zero, List.set_getElem_self]
    rw [codeword_take hd]

end Sys2Proof.Machine

/-! PROOFS. A flit on the wire (R181 to R187): bytes and their numbers, the interleaving of the codewords, the header's fields, and the
units of the lanes. -/

namespace Sys2Proof.Machine

-- one thread: the text is compiled as a whole, and each waiting thread holds its own stack
set_option Elab.async false

/-! ### Bytes and numbers (Table SC-7) -/

theorem ofLe_toLe (n v : Nat) : ofLe (toLe n v) = v % 2 ^ (8 * n) := by
  induction n generalizing v with
  | zero => simp [toLe, ofLe, Nat.mod_one]
  | succ n ih =>
    have hpow : 2 ^ (8 * (n + 1)) = 256 * 2 ^ (8 * n) := by rw [Nat.mul_succ, Nat.pow_add, Nat.mul_comm]
    rw [toLe, ofLe, ih, BitVec.toNat_ofNat, Nat.shiftRight_eq_div_pow, hpow, Nat.mod_mul]

theorem toLe_ofLe (bs : List Byte) : toLe bs.length (ofLe bs) = bs := by
  induction bs with
  | nil => rfl
  | cons b bs ih =>
    have hb := b.isLt
    rw [ofLe, List.length_cons, toLe, Nat.shiftRight_eq_div_pow, show (b.toNat + 256 * ofLe bs) / 2 ^ 8 = ofLe bs by omega, ih]
    congr 1
    exact BitVec.eq_of_toNat_eq (by rw [BitVec.toNat_ofNat]; omega)

theorem ofLe_lt (bs : List Byte) : ofLe bs < 2 ^ (8 * bs.length) := by
  induction bs with
  | nil => simp [ofLe]
  | cons b bs ih =>
    have hb := b.isLt
    rw [ofLe, List.length_cons, Nat.mul_succ, Nat.pow_add]
    omega

theorem slice_length {bs : List Byte} {lo n : Nat} (h : lo + n ≤ bs.length) : (slice bs lo n).length = n := by
  rw [slice, List.length_take, List.length_drop]
  omega

theorem padTo_length (n : Nat) (bs : List Byte) : (padTo n bs).length = n := by
  rw [padTo, List.length_append, List.length_take, List.length_replicate]
  omega

/-- Consecutive pieces of one size make up the list. -/
theorem flatMap_slice (bs : List Byte) (n k : Nat) (h : n * k ≤ bs.length) :
    (List.range k).flatMap (fun c => slice bs (n * c) n) = bs.take (n * k) := by
  induction k with
  | zero => simp
  | succ k ih =>
    rw [Nat.mul_succ] at h
    rw [List.range_succ, List.flatMap_append, ih (by omega), List.flatMap_singleton, slice, Nat.mul_succ, List.take_add]

/-! ### The four codewords (R184, R186) -/

theorem toWire_length (cws : List (List Byte)) : (toWire cws).length = 264 := by
  rw [toWire, List.length_map, List.length_range]

theorem mkFlit_length (h : FlitHdr) (p : List Byte) : (mkFlit h p).length = 264 := toWire_length _

/-- The receiver finds each codeword as it was sent. -/
theorem fromWire_toWire (cws : List (List Byte)) {c : Nat} (hc : c < 4) (h : (cws.getD c []).length = 66) :
    fromWire (toWire cws) c = cws.getD c [] := by
  refine List.ext_getElem (by rw [fromWire, List.length_map, List.length_range, h]) fun i hi hi' => ?_
  rw [h] at hi'
  have hw : 4 * i + c < 264 := by omega
  simp only [fromWire, List.getElem_map, List.getElem_range, toWire]
  rw [byteAt, List.getD_eq_getElem _ _ (by simpa using hw), List.getElem_map, List.getElem_range, show (4 * i + c) % 4 = c by omega,
    show (4 * i + c) / 4 = i by omega]
  exact List.getD_eq_getElem _ _ (h ▸ hi')

theorem codewords_getD (p : List Byte) {c : Nat} (hc : c < 4) :
    (codewords p).getD c [] = slice p (64 * c) 64 ++ checkSymbols (slice p (64 * c) 64) := by
  match c, hc with
  | 0, _ | 1, _ | 2, _ | 3, _ => rfl

/-- A codeword that crosses the wire unchanged has both syndromes 0. -/
theorem decode_fromWire {p : List Byte} (hp : p.length = 256) {c : Nat} (hc : c < 4) :
    decodeCodeword (fromWire (toWire (codewords p)) c) = .ok (slice p (64 * c) 64) := by
  have hlen : (slice p (64 * c) 64).length = 64 := slice_length (by omega)
  have hcw := codewords_getD p hc
  rw [fromWire_toWire _ hc (by rw [hcw, List.length_append, hlen, checkSymbols_length]), hcw,
    decodeCodeword_of_good (syndromes_checkSymbols _), codeword_take hlen]

/-- What the receiver makes of a protected content: no codeword is bad or corrected, and the CRC stands behind byte 252. -/
theorem readFlit_toWire {p : List Byte} (hp : p.length = 256) :
    readFlit (toWire (codewords p)) = ⟨0, 0, decide (leAt p 252 4 ≠ (crc32c (p.take 252)).toNat), hdrOf (leAt p 0 8), p.take 8, slice p 8 244⟩ := by
  have hds : [0, 1, 2, 3].map (fun c => decodeCodeword (fromWire (toWire (codewords p)) c))
      = [.ok (slice p (64 * 0) 64), .ok (slice p (64 * 1) 64), .ok (slice p (64 * 2) 64), .ok (slice p (64 * 3) 64)] := by
    simp only [List.map_cons, List.map_nil, decode_fromWire hp (c := 0) (by omega), decode_fromWire hp (c := 1) (by omega),
      decode_fromWire hp (c := 2) (by omega), decode_fromWire hp (c := 3) (by omega)]
  have hdata : [Decoded.ok (slice p (64 * 0) 64), .ok (slice p (64 * 1) 64), .ok (slice p (64 * 2) 64), .ok (slice p (64 * 3) 64)].flatMap
      Decoded.data = p := by
    have h := flatMap_slice p 64 4 (by omega)
    rw [List.take_of_length_le (by omega)] at h
    exact h
  unfold readFlit
  rw [hds]
  dsimp only
  rw [hdata]
  simp

/-! ### The header (Table SK-4) -/

/-- The fields of the header do not overlap, and bits 31 and 61 to 63 stay 0. -/
theorem hdrOf_bits {h : FlitHdr} (h1 : h.ftype < 16) (h2 : h.vc < 4) (h3 : h.fseq < 4096) (h4 : h.ack < 4096) (h5 : h.dest < 65536)
    (h6 : h.hop < 32) (h7 : h.level < 8) (h8 : h.srcf < 32) (h9 : h.resv = false) : h.bits < 2 ^ 61 ∧ hdrOf h.bits = h := by
  obtain ⟨ftype, vc, fseq, ack, ackV, dest, hop, level, srcf, resv⟩ := h
  obtain rfl : resv = false := h9
  have hv : b1 ackV < 2 ∧ decide (b1 ackV = 1) = ackV := by cases ackV <;> decide
  obtain ⟨hone, hackV⟩ := hv
  simp only [FlitHdr.bits, pl, Nat.shiftLeft_eq] at *
  generalize b1 ackV = n at *
  refine ⟨by omega, ?_⟩
  simp only [hdrOf, fld, Nat.shiftRight_eq_div_pow, Nat.testBit_eq_decide_div_mod_eq, FlitHdr.mk.injEq]
  refine ⟨by omega, by omega, by omega, by omega, ?_, by omega, by omega, by omega, by omega, ?_⟩
  · rw [← hackV, decide_eq_decide]
    omega
  · rw [Bool.or_eq_false_iff, decide_eq_false_iff_not, decide_eq_false_iff_not]
    omega

/-- What is sent under the code: the header, the payload and their CRC. -/
def content (h : FlitHdr) (p : List Byte) : List Byte :=
  toLe 8 h.bits ++ padTo 244 p ++ toLe 4 (crc32c (toLe 8 h.bits ++ padTo 244 p)).toNat

theorem mkFlit_eq (h : FlitHdr) (p : List Byte) : mkFlit h p = toWire (codewords (content h p)) := rfl

theorem content_length (h : FlitHdr) (p : List Byte) : (content h p).length = 256 := by
  simp only [content, List.length_append, toLe_length, padTo_length]

theorem readFlit_mkFlit (h : FlitHdr) (p : List Byte) (hb : h.bits < 2 ^ 64) :
    readFlit (mkFlit h p) = ⟨0, 0, false, hdrOf h.bits, toLe 8 h.bits, padTo 244 p⟩ := by
  have hhead : (content h p).take 252 = toLe 8 h.bits ++ padTo 244 p :=
    List.take_left' (by rw [List.length_append, toLe_length, padTo_length])
  have hcrc : slice (content h p) 252 4 = toLe 4 (crc32c (toLe 8 h.bits ++ padTo 244 p)).toNat := by
    rw [slice, content, List.drop_left' (by rw [List.length_append, toLe_length, padTo_length]), List.take_of_length_le (by rw [toLe_length])]
  have hbits : (content h p).take 8 = toLe 8 h.bits := by
    rw [content, List.append_assoc, List.take_left' (toLe_length ..)]
  have hbody : slice (content h p) 8 244 = padTo 244 p := by
    rw [slice, content, List.append_assoc, List.drop_left' (toLe_length ..), List.take_left' (padTo_length ..)]
  have hword := (crc32c (toLe 8 h.bits ++ padTo 244 p)).isLt
  rw [mkFlit_eq, readFlit_toWire (content_length h p), hhead, hbody, hbits, leAt, leAt, hcrc, ofLe_toLe, slice, List.drop_zero, hbits, ofLe_toLe,
    Nat.mod_eq_of_lt hword, Nat.mod_eq_of_lt hb]
  simp

/-! ### The units of the lanes (R185) -/

theorem toLe_leAt {bs : List Byte} {lo n : Nat} (h : lo + n ≤ bs.length) : toLe n (leAt bs lo n) = slice bs lo n := by
  have := toLe_ofLe (slice bs lo n)
  rwa [slice_length h] at this

theorem unit_bytes {w : List Byte} (hw : w.length = 264) {u : Nat} (hu : u < 66) :
    toLe 4 (BitVec.ofNat 32 (leAt w (4 * u) 4)).toNat = slice w (4 * u) 4 := by
  have hlt : leAt w (4 * u) 4 < 2 ^ 32 := by
    have := ofLe_lt (slice w (4 * u) 4)
    rwa [slice_length (by omega)] at this
  rw [BitVec.toNat_ofNat, Nat.mod_eq_of_lt hlt, toLe_leAt (by omega)]

/-- The units hold the wire bytes in order. -/
theorem unitsOf_bytes {w : List Byte} (hw : w.length = 264) : (unitsOf w).flatMap (fun u => toLe 4 u.toNat) = w := by
  have h := flatMap_slice w 4 66 (by omega)
  rw [List.take_of_length_le (by omega)] at h
  refine Eq.trans ?_ h
  rw [unitsOf, List.flatMap_map]
  exact List.flatMap_congr fun u hu => unit_bytes hw (List.mem_range.mp hu)

/-- The lowest `n` units of a word, one above the other. -/
theorem getLsbD_foldl_units (f : Nat → BitVec 32) (n : Nat) (hn : n ≤ 8) (b : Nat) :
    ((List.range n).foldl (fun a i => a + BitVec.ofNat 256 ((f i).toNat <<< (32 * i))) 0).getLsbD b
      = (decide (b < 32 * n) && (f (b / 32)).getLsbD (b % 32)) := by
  induction n generalizing b with
  | zero => simp
  | succ n ih =>
    have hn' : n < 8 := hn
    have hnew (b : Nat) : (BitVec.ofNat 256 ((f n).toNat <<< (32 * n))).getLsbD b
        = (decide (32 * n ≤ b) && (f n).getLsbD (b - 32 * n)) := by
      rw [BitVec.getLsbD_ofNat, Nat.testBit_shiftLeft, BitVec.testBit_toNat]
      rcases Nat.lt_or_ge b 256 with hb | hb
      · simp [hb]
      · rw [BitVec.getLsbD_of_ge (f n) _ (by omega)]
        simp
    rw [List.range_succ, List.foldl_append, List.foldl_cons, List.foldl_nil, BitVec.add_eq_or_of_and_eq_zero]
    · rw [BitVec.getLsbD_or, ih (by omega), hnew]
      rcases Nat.lt_or_ge b (32 * n) with hb | hb
      · simp [hb, Nat.not_le.mpr hb, show b < 32 * (n + 1) by omega]
      · rcases Nat.lt_or_ge b (32 * (n + 1)) with hb' | hb'
        · simp [hb, hb', Nat.not_lt.mpr hb, show b / 32 = n by omega, show b % 32 = b - 32 * n by omega]
        · rw [BitVec.getLsbD_of_ge (f n) _ (by omega)]
          simp [Nat.not_lt.mpr hb, Nat.not_lt.mpr hb']
    · refine BitVec.eq_of_getLsbD_eq fun b _ => ?_
      rw [BitVec.getLsbD_and, ih (by omega), hnew]
      rcases Nat.lt_or_ge b (32 * n) with hb | hb
      · simp [Nat.not_le.mpr hb]
      · simp [Nat.not_lt.mpr hb]

theorem laneWord_unit (l : Nat) (us : List (BitVec 32)) (j : Nat) {i : Nat} (hi : i < 8) :
    (laneWord l us j).extractLsb' (32 * i) 32 = us.getD (j + i * l) 0 := by
  refine BitVec.eq_of_getLsbD_eq fun b hb => ?_
  rw [BitVec.getLsbD_extractLsb', laneWord, getLsbD_foldl_units (fun i => us.getD (j + i * l) 0) 8 le_rfl,
    show (32 * i + b) / 32 = i by omega, show (32 * i + b) % 32 = b by omega]
  simp [hb, show 32 * i + b < 256 by omega]

/-- Settles O37: each codeword is found as it was sent, the CRC matches, and the header's fields and the units stand apart. -/
theorem flitRoundTrip : Obligations.FlitRoundTrip := by
  unfold Obligations.FlitRoundTrip
  intro h p h1 h2 h3 h4 h5 h6 h7 h8 h9 _
  obtain ⟨hlt, hhdr⟩ := hdrOf_bits h1 h2 h3 h4 h5 h6 h7 h8 h9
  have hread := readFlit_mkFlit h p (by omega)
  refine ⟨?_, ?_, ?_, ?_, mkFlit_length h p, unitsOf_bytes (mkFlit_length h p), fun l j i hi => laneWord_unit l _ j hi⟩
  · rw [hread]; rfl
  · rw [hread]
  · rw [hread]; exact hhdr
  · rw [hread]

end Sys2Proof.Machine

/-! PROOFS. The power governor (R259 to R267): an interval's end, THROTTLE against its floor, and PWR_CFG. -/

namespace Sys2Proof.Machine

-- one thread: the text is compiled as a whole, and each waiting thread holds its own stack
set_option Elab.async false

section
variable {s : State}

theorem exec_governorInterval_of_alive (counts : List Nat) (demand : Nat) (ha : s.alive = true) :
    exec (.governorInterval counts demand) s = .next (s.governor counts demand) :=
  live_of_alive (fun s => s.governor counts demand) ha

theorem exec_throttleChange_of_alive (v : BitVec 4) (ha : s.alive = true) : exec (.throttleChange v) s = .next (s.throttle v) :=
  live_of_alive (fun s => s.throttle v) ha

theorem exec_pwrCfgWrite_of_alive (v : Word) (ha : s.alive = true) : exec (.pwrCfgWrite v) s = .next (s.pwrCfg v) :=
  live_of_alive (fun s => s.pwrCfg v) ha

/-! ### THROTTLE against THR_FLOOR (R267) -/

theorem State.logEv_pwr (s : State) (code cls src unit arg0 arg1 : Nat) (g : BitVec 12) (ab : BitVec 8) :
    (s.logEv code cls src unit arg0 arg1 g ab).pwr = s.pwr := by
  unfold State.logEv
  rw [State.logWrite_eq_gst]

theorem State.floorCheck_of_below (h : s.pwr.thr.toNat < s.img.cfg.thrFloor) :
    s.floorCheck.pwr = { s.pwr with below := true, belowRun := true } ∧ (s.pwr.belowRun = true → s.floorCheck.gst = s.gst) := by
  simp only [State.floorCheck, if_pos h]
  constructor
  · split
    · rfl
    · rw [State.logEv_pwr]
  · intro hrun
    rw [if_pos hrun]

theorem State.floorCheck_of_not_below (h : ¬ s.pwr.thr.toNat < s.img.cfg.thrFloor) :
    s.floorCheck = { s with pwr := { s.pwr with belowRun := false } } := if_neg h

/-- The check touches nothing of the power registers but its own two flags. -/
theorem State.floorCheck_pwr (s : State) :
    s.floorCheck.pwr = { s.pwr with below := s.floorCheck.pwr.below, belowRun := s.floorCheck.pwr.belowRun } := by
  by_cases h : s.pwr.thr.toNat < s.img.cfg.thrFloor
  · rw [(State.floorCheck_of_below h).1]
  · rw [State.floorCheck_of_not_below h]

/-! ### The end of an interval (R259 to R265) -/

/-- The estimate of an interval whose handshakes give `sum`: ballast holds it up to one slew step below the last (R262). -/
def Pwr.estimate (p : Pwr) (sum : Nat) : Nat := if p.ballEn then max sum (p.iEst - slewStep p.slewNow) else sum

theorem Pwr.estimate_le {p : Pwr} {sum : Nat} (h : sum ≤ p.iEst + slewStep p.slewNow) : p.estimate sum ≤ p.iEst + slewStep p.slewNow := by
  unfold Pwr.estimate
  split <;> omega

/-- The power registers at the end of an interval, before THROTTLE is checked. -/
def State.intervalPwr (s : State) (counts : List Nat) (demand : Nat) : Pwr :=
  let sum := min (iEstOf counts) (s.pwr.iEst + slewStep s.pwr.slewNow)
  { s.pwr with
    iEst := s.pwr.estimate sum, ballast := s.pwr.ballEn && decide (sum < s.pwr.iEst - slewStep s.pwr.slewNow)
    paced := if s.pwr.pace.toNat < demand then satInc s.pwr.paced else s.pwr.paced, slewNow := s.pwr.slew, start := s.nowInt
    pace := BitVec.ofNat 9 (paceOf s.pwr.thrMin.toNat (s.pwr.estimate sum + slewStep s.pwr.slew) s.tilth.tau), thrMin := s.pwr.thr }

theorem State.governor_of_running (h : s.intervalOver = false) (counts : List Nat) (demand : Nat) : s.governor counts demand = s :=
  if_pos h

theorem State.governor_of_over (h : s.intervalOver = true) (counts : List Nat) (demand : Nat) :
    s.governor counts demand = ({ s with pwr := s.intervalPwr counts demand } : State).floorCheck :=
  if_neg (by rw [h]; exact Bool.noConfusion)

/-! ### PWR_CFG (R264) -/

theorem State.pwrCfg_pwr (s : State) (v : Word) : (s.pwrCfg v).pwr =
    { s.pwr with
      slew := if 1 ≤ v.toNat % 128 ∧ v.toNat % 128 ≤ 64 then BitVec.ofNat 7 (v.toNat % 128) else s.pwr.slew
      ballEn := if s.feat 9 = true ∧ s.cfgShown = true then v.getLsbD 7 else s.pwr.ballEn
      viol := s.pwr.viol || (decide (1 ≤ v.toNat % 128) && decide (v.toNat % 128 ≤ 64) && decide (v.toNat % 128 < s.pwr.slew.toNat)
        && decide (0 < s.openEntries)) } := by
  have hn : wf_ v 6 0 = v.toNat % 128 := by simp [wf_eq_div_mod]
  have hpwr (b : Prop) [Decidable b] (a c : Nat) : (if b then s.logEv 0x22 5 13 0 a c else s).pwr = s.pwr := by
    split
    · exact State.logEv_pwr ..
    · rfl
  simp only [State.pwrCfg, hn, hpwr, Bool.and_eq_true, decide_eq_true_eq]
  rfl

/-- A write that violates nothing logs nothing. -/
theorem State.pwrCfg_gst_of_closed (h : s.openEntries = 0) (v : Word) : (s.pwrCfg v).gst = s.gst := by
  simp [State.pwrCfg, h]

end

/-- Settles O49, command by command. -/
theorem governorPacesLoad : Obligations.GovernorPacesLoad := by
  unfold Obligations.GovernorPacesLoad
  intro s ha
  refine ⟨?_, ?_, ?_, ?_⟩
  · intro counts demand hstop hreach
    rw [exec_governorInterval_of_alive _ _ ha, State.governor_of_running (by rw [State.intervalOver, hstop, hreach]; rfl)]
  · rintro counts demand sum hover rfl
    have hover' : s.intervalOver = true := by
      rcases hover with h | h
      · rw [State.intervalOver, h, Bool.true_or]
      · rw [State.intervalOver, h, Bool.or_true]
    refine ⟨_, exec_governorInterval_of_alive counts demand ha, ?_⟩
    rw [State.governor_of_over hover', State.floorCheck_pwr]
    exact ⟨rfl, Pwr.estimate_le (min_le_right ..), rfl, rfl, rfl, rfl, rfl, rfl, rfl, rfl⟩
  · intro v
    refine ⟨_, exec_throttleChange_of_alive v ha, ?_⟩
    have hmin : (if v.toNat < s.pwr.thrMin.toNat then v else s.pwr.thrMin).toNat = min v.toNat s.pwr.thrMin.toNat := by
      split <;> omega
    rw [State.throttle, State.floorCheck_pwr]
    refine ⟨rfl, hmin, fun hlow => ?_, fun hhigh => ?_⟩
    · obtain ⟨hpwr, hgst⟩ := State.floorCheck_of_below (s := { s with pwr := { s.pwr with
        thr := v, thrMin := if v.toNat < s.pwr.thrMin.toNat then v else s.pwr.thrMin } }) hlow
      rw [hpwr]
      exact ⟨rfl, rfl, hgst⟩
    · rw [State.floorCheck_of_not_below (Nat.not_lt.mpr hhigh)]
      exact ⟨rfl, rfl, rfl⟩
  · intro v
    refine ⟨_, exec_pwrCfgWrite_of_alive v ha, ?_⟩
    rw [State.pwrCfg_pwr]
    refine ⟨rfl, rfl, rfl, fun hnone => ⟨?_, State.pwrCfg_gst_of_closed hnone v⟩, fun hopen h1 hlow h64 => ?_⟩
    · simp [hnone]
    · simp only [h1, hlow, h64, hopen, decide_true, Bool.and_true, Bool.or_true]

end Sys2Proof.Machine

/-! PROOFS. The tilth monitors (R244 to R252, R269): samples, changes of a tap set, and the end of a window. -/

namespace Sys2Proof.Machine

-- one thread: the text is compiled as a whole, and each waiting thread holds its own stack
set_option Elab.async false

/-! ### τ and the counts of windows (R252, R253) -/

/-- A change of τ leaves of a monitor all but its count of quiet windows. -/
theorem State.unsettle_mon {s : State} (h : s.monsOk) (i : Nat) : s.unsettle.mon i = { s.mon i with quiet := 0 } :=
  mget_mmap Mon.zero (fun _ m => { m with quiet := 0 }) s.tilth.mons i none h rfl

theorem State.setTau_mon {s : State} (h : s.monsOk) (n i : Nat) : ∃ q, (s.setTau n).mon i = { s.mon i with quiet := q } := by
  unfold State.setTau
  split
  · exact ⟨_, rfl⟩
  · exact ⟨0, State.unsettle_mon (s := { s with tilth := { s.tilth with tau := tauClamp n } }) h i⟩

theorem State.setTau_set {s : State} (h : s.monsOk) (n i : Nat) (b : Bool) : ((s.setTau n).mon i).set b = (s.mon i).set b :=
  ((s.setTau_tauOnly n).mons h i).set b

theorem State.unsettle_set {s : State} (h : s.monsOk) (i : Nat) (b : Bool) : (s.unsettle.mon i).set b = (s.mon i).set b :=
  (s.unsettle_tauOnly.mons h i).set b

theorem State.setTau_monsOk {s : State} (h : s.monsOk) (n : Nat) : (s.setTau n).monsOk := (s.setTau_tauOnly n).ok h

theorem State.setTau_rest (s : State) (n : Nat) :
    s.setTau n = { s with tilth := { s.tilth with tau := tauClamp n, mons := (s.setTau n).tilth.mons } } := by
  unfold State.setTau
  split
  · next h => rw [h]
  · rfl

theorem State.mon_setMon_same {s : State} (h : s.monsOk) (i : Nat) (x : Mon) : (s.setMon i x).mon i = x := by
  rw [State.mon_setMon h, if_pos rfl]

/-! ### One tap set of a monitor changes -/

/-- What a change of set `b` of monitor `i` leaves: the other set, the tap that is applied, the monitor's figures and its run of low
windows, the force, the free values; and τ stays above every handshake time below it. -/
structure SetStep (i : Nat) (b : Bool) (s t : State) : Prop where
  ok : t.monsOk
  other : (t.mon i).set (!b) = (s.mon i).set (!b)
  tap : ((t.mon i).set b).tap = ((s.mon i).set b).tap
  smin : (t.mon i).lastSmin = (s.mon i).lastSmin
  tmax : (t.mon i).lastTmax = (s.mon i).lastTmax
  low : (t.mon i).low = (s.mon i).low
  forced : ∀ j c, t.isForced j c = s.isForced j c
  free : t.free = s.free
  tau : ∀ x ≤ 4095, x ≤ s.tilth.tau → x ≤ t.tilth.tau

namespace SetStep

variable {i : Nat} {b : Bool} {s t u : State}

theorem refl (h : s.monsOk) : SetStep i b s s := ⟨h, rfl, rfl, rfl, rfl, rfl, fun _ _ => rfl, rfl, fun _ _ h => h⟩

theorem trans (h : SetStep i b s t) (k : SetStep i b t u) : SetStep i b s u where
  ok := k.ok
  other := k.other.trans h.other
  tap := k.tap.trans h.tap
  smin := k.smin.trans h.smin
  tmax := k.tmax.trans h.tmax
  low := k.low.trans h.low
  forced := fun j c => (k.forced j c).trans (h.forced j c)
  free := k.free.trans h.free
  tau := fun x hx hs => k.tau x hx (h.tau x hx hs)

theorem onSet (h : s.monsOk) (f : TapSet → TapSet) (hf : ∀ x, (f x).tap = x.tap) :
    SetStep i b s (s.setMon i ((s.mon i).onSet b f)) where
  ok := State.setMon_monsOk h _ _
  other := by rw [State.mon_setMon_same h, Mon.onSet_set_not]
  tap := by rw [State.mon_setMon_same h, Mon.onSet_set, hf]
  smin := by rw [State.mon_setMon_same h]; cases b <;> rfl
  tmax := by rw [State.mon_setMon_same h]; cases b <;> rfl
  low := by rw [State.mon_setMon_same h]; cases b <;> rfl
  forced := fun _ _ => rfl
  free := rfl
  tau := fun _ _ h => h

theorem setTau (h : s.monsOk) {n : Nat} (hn : s.tilth.tau ≤ n) : SetStep i b s (s.setTau n) := by
  obtain ⟨q, hq⟩ := State.setTau_mon h n i
  refine ⟨State.setTau_monsOk h n, ?_, ?_, ?_, ?_, ?_, ?_, ?_, ?_⟩
  · rw [State.setTau_set h]
  · rw [State.setTau_set h]
  · rw [hq]
  · rw [hq]
  · rw [hq]
  · intro j c; rw [State.setTau_rest]; rfl
  · rw [State.setTau_rest]
  · intro x hx hs
    rw [State.setTau_tau]
    exact le_tauClamp n x (by omega) hx

/-- A counter of the tilth registers that moves. -/
theorem counter (h : SetStep i b s t) (raise lower : Word) :
    SetStep i b s { t with tilth := { t.tilth with raise := raise, lower := lower } } :=
  ⟨h.ok, h.other, h.tap, h.smin, h.tmax, h.low, h.forced, h.free, h.tau⟩

end SetStep

theorem State.raiseTap_of_forced {s : State} {i : Nat} {b : Bool} (h : s.isForced i b = true) (n : Nat) : s.raiseTap i b n = s := if_pos h

/-- A set below 63 that no force holds takes its raise as pending, and τ rises by 8 ps for each tap (R252). -/
theorem State.raiseTap_of_room {s : State} {i n : Nat} {b : Bool} (hf : s.isForced i b = false) (hcur : ((s.mon i).set b).cur < 63)
    (hn : 0 < n) : s.raiseTap i b n =
      (s.setMon i ((s.mon i).onSet b (fun t => { t with pend := some (min 63 (((s.mon i).set b).cur + n)) }))).setTau
        (s.tilth.tau + 8 * (min 63 (((s.mon i).set b).cur + n) - ((s.mon i).set b).cur)) := by
  have hne : min 63 (((s.mon i).set b).cur + n) ≠ ((s.mon i).set b).cur := by omega
  unfold State.raiseTap
  rw [if_neg (by rw [hf]; exact Bool.noConfusion)]
  exact if_neg hne

theorem SetStep.raiseTap {i : Nat} {b : Bool} {s : State} (h : s.monsOk) (n : Nat) : SetStep i b s (s.raiseTap i b n) := by
  unfold State.raiseTap
  dsimp only
  split
  · exact .refl h
  · split
    · exact .refl h
    · refine (SetStep.onSet h (fun t => { t with pend := some (min 63 (((s.mon i).set b).cur + n)) }) fun _ => rfl).trans
        (.setTau (State.setMon_monsOk h _ _) ?_)
      show s.tilth.tau ≤ _
      omega

/-- The set after the raise, and what the raise leaves of the state. -/
theorem State.raiseTap_set {s : State} {i n : Nat} {b : Bool} (h : s.monsOk) (hf : s.isForced i b = false)
    (hcur : ((s.mon i).set b).cur < 63) (hn : 0 < n) :
    ((s.raiseTap i b n).mon i).set b = { (s.mon i).set b with pend := some (min 63 (((s.mon i).set b).cur + n)) } := by
  rw [State.raiseTap_of_room hf hcur hn, State.setTau_set (State.setMon_monsOk h _ _), State.mon_setMon_same h, Mon.onSet_set]

theorem State.raiseTap_rest {s : State} {i n : Nat} {b : Bool} (hf : s.isForced i b = false) (hcur : ((s.mon i).set b).cur < 63)
    (hn : 0 < n) : s.raiseTap i b n =
      { s with tilth := { s.tilth with tau := (s.raiseTap i b n).tilth.tau, mons := (s.raiseTap i b n).tilth.mons } } := by
  rw [State.raiseTap_of_room hf hcur hn, State.setTau_rest]
  rfl

/-! ### Samples (R244, R248, R249) -/

/-- The window's figures after one more sample. -/
def TapSet.sampled (x : TapSet) (slack : Int) (tmax : Nat) : TapSet :=
  { x with smin := smaller x.smin slack, tmax := max x.tmax tmax, cnt := x.cnt + 1 }

section
variable {s : State} {i : Nat} {b : Bool}

/-- The state with one sample taken into its window. -/
def State.sampled (s : State) (i : Nat) (b : Bool) (slack : Int) (tmax : Nat) : State :=
  s.setMon i ((s.mon i).onSet b (fun t => t.sampled (slack4 slack) (time4 tmax)))

theorem State.sampled_set (h : s.monsOk) (slack : Int) (tmax : Nat) :
    ((s.sampled i b slack tmax).mon i).set b = ((s.mon i).set b).sampled (slack4 slack) (time4 tmax) := by
  rw [State.sampled, State.mon_setMon_same h, Mon.onSet_set]

theorem State.sample_of_dead (h : s.monLive i = false) (slack : Int) (tmax : Nat) : s.sample i b slack tmax = s := if_pos h

theorem State.sample_of_live (hl : s.monLive i = true) (slack : Int) (tmax : Nat) : s.sample i b slack tmax =
    if slack4 slack < 0 then
      let s2 := (s.sampled i b slack tmax).raiseTap i b 8
      let s3 := (s2.logEv 0x1C 6 11 i (b1 b) ((s2.mon i).set b).cur).attn 5
      { s3 with tilth := { s3.tilth with neg := satInc s3.tilth.neg, hard := satInc s3.tilth.hard } }
    else if slack4 slack < 16 then
      let s2 := (s.sampled i b slack tmax).raiseTap i b 4
      { s2 with tilth := { s2.tilth with hard := satInc s2.tilth.hard } }
    else s.sampled i b slack tmax :=
  if_neg (by rw [hl]; exact Bool.noConfusion)

theorem State.logEv_attn_eq_gst (s : State) (code cls src unit arg0 arg1 bit : Nat) :
    (s.logEv code cls src unit arg0 arg1).attn bit = { s with gst := ((s.logEv code cls src unit arg0 arg1).attn bit).gst } := by
  unfold State.logEv
  rw [State.logWrite_eq_gst]
  rfl

/-- A negative slack: 8 taps, both counts, a log entry and ATTN bit 5 (R249; log entry 53). -/
theorem State.sample_negative (h : s.monsOk) (hl : s.monLive i = true) (hf : s.isForced i b = false) (hcur : ((s.mon i).set b).cur < 63)
    {slack : Int} (hneg : slack < 0) (tmax : Nat) :
    ((((s.sample i b slack tmax)).mon i).set b = { ((s.mon i).set b).sampled (slack4 slack) (time4 tmax) with
        pend := some (min 63 (((s.mon i).set b).cur + 8)) })
    ∧ (s.sample i b slack tmax).gst.attn.getLsbD 5 = true
    ∧ (s.sample i b slack tmax).tilth.neg = satInc s.tilth.neg ∧ (s.sample i b slack tmax).tilth.hard = satInc s.tilth.hard := by
  have hset := s.sampled_set h (b := b) (i := i) slack tmax
  have hcur' : (((s.sampled i b slack tmax).mon i).set b).cur < 63 := by rw [hset]; exact hcur
  have hraised := State.raiseTap_set (n := 8) (State.setMon_monsOk h _ _) (s := s.sampled i b slack tmax) hf hcur' (by omega)
  have hrest := State.raiseTap_rest (n := 8) (s := s.sampled i b slack tmax) hf hcur' (by omega)
  have hslack : slack4 slack < 0 := by unfold slack4; omega
  rw [State.sample_of_live hl, if_pos hslack]
  dsimp only
  refine ⟨?_, State.attn_getLsbD_self _ (by decide), ?_, ?_⟩
  · rw [State.logEv_attn_eq_gst]
    show ((State.mon ((s.sampled i b slack tmax).raiseTap i b 8) i).set b) = _
    rw [hraised, hset]
    rfl
  · rw [State.logEv_attn_eq_gst]
    show satInc ((s.sampled i b slack tmax).raiseTap i b 8).tilth.neg = _
    rw [hrest]
    rfl
  · rw [State.logEv_attn_eq_gst]
    show satInc ((s.sampled i b slack tmax).raiseTap i b 8).tilth.hard = _
    rw [hrest]
    rfl

/-- A slack below 16 ps: 4 taps, and TIL_HARD (R248). -/
theorem State.sample_hard (h : s.monsOk) (hl : s.monLive i = true) (hf : s.isForced i b = false) (hcur : ((s.mon i).set b).cur < 63)
    {slack : Int} (h0 : 0 ≤ slack) (h16 : slack < 16) (tmax : Nat) :
    ((((s.sample i b slack tmax)).mon i).set b = { ((s.mon i).set b).sampled (slack4 slack) (time4 tmax) with
        pend := some (min 63 (((s.mon i).set b).cur + 4)) })
    ∧ (s.sample i b slack tmax).gst = s.gst ∧ (s.sample i b slack tmax).tilth.hard = satInc s.tilth.hard := by
  have hset := s.sampled_set h (b := b) (i := i) slack tmax
  have hcur' : (((s.sampled i b slack tmax).mon i).set b).cur < 63 := by rw [hset]; exact hcur
  have hraised := State.raiseTap_set (n := 4) (State.setMon_monsOk h _ _) (s := s.sampled i b slack tmax) hf hcur' (by omega)
  have hrest := State.raiseTap_rest (n := 4) (s := s.sampled i b slack tmax) hf hcur' (by omega)
  have hslack : ¬ slack4 slack < 0 ∧ slack4 slack < 16 := by unfold slack4; omega
  rw [State.sample_of_live hl, if_neg hslack.1, if_pos hslack.2]
  dsimp only
  refine ⟨?_, ?_, ?_⟩
  · show ((State.mon ((s.sampled i b slack tmax).raiseTap i b 4) i).set b) = _
    rw [hraised, hset]
    rfl
  · rw [hrest]
    rfl
  · rw [hrest]
    rfl

theorem State.sample_easy (hl : s.monLive i = true) {slack : Int} (h16 : 16 ≤ slack) (tmax : Nat) :
    s.sample i b slack tmax = s.sampled i b slack tmax := by
  have hslack : ¬ slack4 slack < 0 ∧ ¬ slack4 slack < 16 := by unfold slack4; omega
  rw [State.sample_of_live hl, if_neg hslack.1, if_neg hslack.2]

/-! ### TAP_CHANGE_APPLY (R251) -/

theorem State.applyTap_of_none (hp : ((s.mon i).set b).pend = none) : s.applyTap i b = s := by
  unfold State.applyTap
  rw [hp]

theorem State.applyTap_of_pend (h : s.monsOk) {v : Nat} (hp : ((s.mon i).set b).pend = some v) :
    (((s.applyTap i b).mon i).set b).tap = v ∧ (((s.applyTap i b).mon i).set b).pend = none ∧ (s.applyTap i b).tilth.tau = s.tilth.tau
      ∧ (v ≠ ((s.mon i).set b).tap → (s.applyTap i b).tilth.dirty = true) := by
  have hmon := State.mon_setMon_same h i ((s.mon i).onSet b (fun t => { t with tap := v, pend := none }))
  have hok := State.setMon_monsOk h i ((s.mon i).onSet b (fun t => { t with tap := v, pend := none }))
  have htau : (s.setMon i ((s.mon i).onSet b (fun t => { t with tap := v, pend := none }))).tilth.tau = s.tilth.tau := rfl
  unfold State.applyTap
  rw [hp]
  dsimp only
  generalize s.setMon i ((s.mon i).onSet b (fun t => { t with tap := v, pend := none })) = s1 at hmon hok htau ⊢
  have hset : (s1.mon i).set b = { (s.mon i).set b with tap := v, pend := none } := by rw [hmon, Mon.onSet_set]
  by_cases hv : v = ((s.mon i).set b).tap
  · rw [if_pos hv, hset]
    exact ⟨rfl, rfl, htau, fun hne => absurd hv hne⟩
  · have hunsettled := State.unsettle_set (s := { s1 with tilth := { s1.tilth with dirty := true } }) hok i b
    rw [if_neg hv, hunsettled.trans hset]
    exact ⟨rfl, rfl, htau, fun _ => rfl⟩

/-! ### TIL_FORCE (R269) -/

theorem State.tilForce_of_not_debug (hd : s.debug = false) (v : Word) : s.tilForce v = s := if_pos hd

/-- The registers that a write of TIL_FORCE in debug mode stores, with the set of TIL_MON_SEL held. -/
def State.forcing (s : State) (v : Word) (i : Nat) (b : Bool) : State :=
  { s with tilth := { s.tilth with force := v.setWidth 8, forced := some (i, b) } }

theorem State.tilForce_of_force (hd : s.debug = true) {v : Word} (hi : i < 1040) (hsel : s.tilth.monSel.toNat = i) (hb : b = v.getLsbD 1)
    (hv : v.getLsbD 0 = true) : s.tilForce v =
      if ((s.mon i).set b).cur < v.toNat / 4 % 64 then
        ((s.forcing v i b).setMon i ((s.mon i).onSet b (fun t => { t with pend := some (v.toNat / 4 % 64) }))).setTau
          (s.tilth.tau + 8 * (v.toNat / 4 % 64 - ((s.mon i).set b).cur))
      else (s.forcing v i b).setMon i ((s.mon i).onSet b (fun t => { t with pend := some (v.toNat / 4 % 64) })) := by
  have h0 : wbit v 0 = true := hv
  have h1 : wbit v 1 = b := hb.symm
  have h7 : wf_ v 7 2 = v.toNat / 4 % 64 := wf_eq_div_mod v 7 2
  unfold State.tilForce
  rw [if_neg (by rw [hd]; exact Bool.noConfusion)]
  simp only [h0, h1, h7, hsel, if_true]
  rw [if_pos ⟨trivial, hi⟩]
  rfl

theorem State.tilForce_force (h : s.monsOk) (hd : s.debug = true) {v : Word} (hi : i < 1040) (hsel : s.tilth.monSel.toNat = i)
    (hb : b = v.getLsbD 1) (hv : v.getLsbD 0 = true) :
    (s.tilForce v).tilth.forced = some (i, b) ∧ (((s.tilForce v).mon i).set b).pend = some (v.toNat / 4 % 64)
      ∧ (s.tilForce v).tilth.tau = if ((s.mon i).set b).cur < v.toNat / 4 % 64 then
          tauClamp (s.tilth.tau + 8 * (v.toNat / 4 % 64 - ((s.mon i).set b).cur)) else s.tilth.tau := by
  have hmons : (s.forcing v i b).monsOk := h
  have hset := congrArg (fun m => (m.set b).pend)
    (State.mon_setMon_same hmons i ((s.mon i).onSet b (fun t => { t with pend := some (v.toNat / 4 % 64) })))
  rw [Mon.onSet_set] at hset
  rw [State.tilForce_of_force hd hi hsel hb hv]
  split
  · refine ⟨?_, ?_, State.setTau_tau ..⟩
    · rw [State.setTau_rest]; rfl
    · rw [State.setTau_set (State.setMon_monsOk hmons _ _)]; exact hset
  · exact ⟨rfl, hset, rfl⟩

end

/-- Settles O46, command by command. -/
theorem samplesRaiseTaps : Obligations.SamplesRaiseTaps := by
  unfold Obligations.SamplesRaiseTaps
  intro s i b hs ha
  have hm := State.canon_monsOk hs
  refine ⟨?_, ?_, ?_, ?_, ?_, ?_⟩
  · intro slack tmax hl hf hcur
    refine ⟨s.sample i.val b slack tmax, live_of_alive (fun s => s.sample i.val b slack tmax) ha, ?_⟩
    rcases lt_or_ge slack 0 with hneg | h0
    · obtain ⟨hset, hattn, hcneg, hchard⟩ := State.sample_negative hm hl hf hcur hneg tmax
      rw [hset]
      exact ⟨rfl, rfl, rfl, rfl, fun _ => ⟨rfl, hattn, hcneg, hchard⟩, fun h => absurd hneg (not_lt.mpr h), fun h => by omega⟩
    · rcases lt_or_ge slack 16 with hlow | h16
      · obtain ⟨hset, hgst, hchard⟩ := State.sample_hard hm hl hf hcur h0 hlow tmax
        rw [hset]
        exact ⟨rfl, rfl, rfl, rfl, fun h => absurd h (not_lt.mpr h0), fun _ _ => ⟨rfl, hgst, hchard⟩, fun h => by omega⟩
      · rw [State.sample_easy hl h16, State.sampled_set hm]
        exact ⟨rfl, rfl, rfl, rfl, fun h => by omega, fun _ h => by omega, fun _ => ⟨rfl, rfl, rfl⟩⟩
  · intro slack tmax hl
    exact (live_of_alive (fun s => s.sample i.val b slack tmax) ha).trans (congrArg _ (State.sample_of_dead hl slack tmax))
  · intro v hp
    exact ⟨s.applyTap i.val b, live_of_alive (fun s => s.applyTap i.val b) ha, State.applyTap_of_pend hm hp⟩
  · intro hp
    exact (live_of_alive (fun s => s.applyTap i.val b) ha).trans (congrArg _ (State.applyTap_of_none hp))
  · intro v
    have hexec : exec (.tilForce v) s = .next (s.tilForce v) := live_of_alive (fun s => s.tilForce v) ha
    refine ⟨fun hd => ?_, fun hd hsel hb hv => ⟨_, hexec, State.tilForce_force hm hd i.isLt hsel hb hv⟩⟩
    rw [hexec, State.tilForce_of_not_debug hd]
  · intro hstop hreach
    refine (live_of_alive _ ha).trans (congrArg _ (if_pos ⟨hstop, hreach⟩))

end Sys2Proof.Machine

/-! PROOFS. The end of a monitor's window (R245, R247, R250, R252). -/

namespace Sys2Proof.Machine

-- one thread: the text is compiled as a whole, and each waiting thread holds its own stack
set_option Elab.async false

/-! ### Tempering of one tap set (R247, R250) -/

/-- The raise at the end of a window: a minimum below 40 ps raises the set toward 64 ps (R247). -/
def State.temperRaise (s : State) (i : Nat) (b : Bool) : State :=
  match ((s.mon i).set b).smin with
  | some m =>
    if m < 40 ∧ s.isForced i b = false then
      let r := s.raiseTap i b (cdiv (64 - m).toNat 8)
      if ((s.mon i).set b).cur < 63 then { r with tilth := { r.tilth with raise := satInc r.tilth.raise } } else r
    else s
  | none => s

/-- The run of qualifying windows above 120 ps, this window included (R250). -/
def TapSet.nextRun (t : TapSet) : Nat :=
  let high := match t.smin with | some m => decide (120 < m) | none => false
  if decide (256 ≤ t.cnt) = false then t.run else if high then t.run + 1 else 0

/-- The run begins anew. -/
def State.runAnew (s : State) (i : Nat) (b : Bool) : State := s.setMon i ((s.mon i).onSet b (fun t => { t with run := 0 }))

/-- A set loses one tap. -/
def State.lowerTap (s : State) (i : Nat) (b : Bool) : State :=
  let s3 := s.setMon i ((s.mon i).onSet b (fun t => { t with pend := some (t.cur - 1) }))
  { s3 with tilth := { s3.tilth with lower := satInc s3.tilth.lower } }

section
variable {s : State} {i : Nat} {b : Bool}

theorem State.temper_of_short (hrun : ((s.mon i).set b).nextRun < 16) : s.temper i b =
    (s.temperRaise i b).setMon i (((s.temperRaise i b).mon i).onSet b (fun t => { t with run := ((s.mon i).set b).nextRun })) :=
  if_pos hrun

theorem State.temper_of_long (hrun : ¬ ((s.mon i).set b).nextRun < 16) : s.temper i b =
    if ((s.mon i).set b).cur = 0 ∨ s.isForced i b = true then (s.temperRaise i b).runAnew i b
    else ((s.temperRaise i b).runAnew i b).lowerTap i b :=
  if_neg hrun

theorem SetStep.temperRaise (h : s.monsOk) : SetStep i b s (s.temperRaise i b) := by
  unfold State.temperRaise
  split
  · split
    · dsimp only
      split
      · exact (SetStep.raiseTap h _).counter _ _
      · exact SetStep.raiseTap h _
    · exact .refl h
  · exact .refl h

theorem SetStep.runAnew (h : s.monsOk) : SetStep i b s (s.runAnew i b) := .onSet h (fun t => { t with run := 0 }) fun _ => rfl

theorem SetStep.lowerTap (h : s.monsOk) : SetStep i b s (s.lowerTap i b) :=
  (SetStep.onSet h (fun t => { t with pend := some (t.cur - 1) }) fun _ => rfl).counter _ _

theorem SetStep.temper (h : s.monsOk) : SetStep i b s (s.temper i b) := by
  have hraise : SetStep i b s (s.temperRaise i b) := .temperRaise h
  by_cases hrun : ((s.mon i).set b).nextRun < 16
  · rw [State.temper_of_short hrun]
    exact hraise.trans (.onSet hraise.ok (fun t => { t with run := ((s.mon i).set b).nextRun }) fun _ => rfl)
  · rw [State.temper_of_long hrun]
    have hanew : SetStep i b s ((s.temperRaise i b).runAnew i b) := hraise.trans (.runAnew hraise.ok)
    split
    · exact hanew
    · exact hanew.trans (.lowerTap hanew.ok)

theorem TapSet.nextRun_of_qualifying {t : TapSet} {m : Int} (hm : t.smin = some m) (hhigh : 120 < m) (hq : 256 ≤ t.cnt) :
    t.nextRun = t.run + 1 := by
  simp [TapSet.nextRun, hm, hhigh, hq]

theorem TapSet.nextRun_of_low {t : TapSet} {m : Int} (hm : t.smin = some m) (hlow : m < 40) (hrun : t.run < 16) : t.nextRun < 16 := by
  have hhigh : ¬ 120 < m := by omega
  simp only [TapSet.nextRun, hm, hhigh, decide_false, Bool.false_eq_true, if_false]
  split
  · exact hrun
  · omega

theorem State.temperRaise_of_high {m : Int} (hm : ((s.mon i).set b).smin = some m) (hhigh : 120 < m) : s.temperRaise i b = s := by
  unfold State.temperRaise
  rw [hm]
  exact if_neg fun h => by omega

/-- A minimum below 40 ps raises the set toward 64 ps (R247). -/
theorem State.temper_raises (h : s.monsOk) {m : Int} (hm : ((s.mon i).set b).smin = some m) (hlow : m < 40) (hf : s.isForced i b = false)
    (hcur : ((s.mon i).set b).cur < 63) (hrun : ((s.mon i).set b).run < 16) :
    (((s.temper i b).mon i).set b).pend = some (min 63 (((s.mon i).set b).cur + cdiv (64 - m).toNat 8)) := by
  have hn : 0 < cdiv (64 - m).toNat 8 := by unfold cdiv; omega
  have hraise : s.temperRaise i b = { s.raiseTap i b (cdiv (64 - m).toNat 8) with
      tilth := { (s.raiseTap i b (cdiv (64 - m).toNat 8)).tilth with raise := satInc (s.raiseTap i b (cdiv (64 - m).toNat 8)).tilth.raise } } := by
    unfold State.temperRaise
    rw [hm]
    dsimp only
    rw [if_pos ⟨hlow, hf⟩, if_pos hcur]
  have hset : ((s.temperRaise i b).mon i).set b = ((s.raiseTap i b (cdiv (64 - m).toNat 8)).mon i).set b := by rw [hraise]; rfl
  rw [State.temper_of_short (TapSet.nextRun_of_low hm hlow hrun), State.mon_setMon_same (SetStep.temperRaise h).ok, Mon.onSet_set, hset,
    State.raiseTap_set h hf hcur hn]

/-- A qualifying window above 120 ps that is not yet the sixteenth (R250). -/
theorem State.temper_counts (h : s.monsOk) {m : Int} (hm : ((s.mon i).set b).smin = some m) (hhigh : 120 < m)
    (hq : 256 ≤ ((s.mon i).set b).cnt) (hrun : ((s.mon i).set b).run < 15) :
    ((s.temper i b).mon i).set b = { (s.mon i).set b with run := ((s.mon i).set b).run + 1 } := by
  have hnext := TapSet.nextRun_of_qualifying hm hhigh hq
  rw [State.temper_of_short (by omega), State.temperRaise_of_high hm hhigh, State.mon_setMon_same h, Mon.onSet_set, hnext]

/-- The sixteenth qualifying window above 120 ps (R250). -/
theorem State.temper_lowers (h : s.monsOk) {m : Int} (hm : ((s.mon i).set b).smin = some m) (hhigh : 120 < m)
    (hq : 256 ≤ ((s.mon i).set b).cnt) (hrun : ((s.mon i).set b).run = 15) (hf : s.isForced i b = false) (hcur : ((s.mon i).set b).cur ≠ 0) :
    ((s.temper i b).mon i).set b = { (s.mon i).set b with run := 0, pend := some (((s.mon i).set b).cur - 1) } := by
  have hnext := TapSet.nextRun_of_qualifying hm hhigh hq
  have hstays : ¬ (((s.mon i).set b).cur = 0 ∨ s.isForced i b = true) := by rw [hf]; simpa using hcur
  have hanew : ((s.runAnew i b).mon i).set b = { (s.mon i).set b with run := 0 } := by
    rw [State.runAnew, State.mon_setMon_same h, Mon.onSet_set]
  have hlower := State.mon_setMon_same (SetStep.runAnew (i := i) (b := b) h).ok i
    (((s.runAnew i b).mon i).onSet b (fun t => { t with pend := some (t.cur - 1) }))
  rw [State.temper_of_long (by omega), State.temperRaise_of_high hm hhigh, if_neg hstays]
  refine (congrArg (Mon.set · b) hlower).trans ?_
  rw [Mon.onSet_set, hanew]
  rfl

end

/-! ### τ at the end of a window (R252) -/

theorem le_foldl_lastTmax (l : Map Mon) (a : Nat) : a ≤ l.foldl (fun a m => max a m.2.lastTmax) a := by
  induction l generalizing a with
  | nil => exact le_rfl
  | cons m l ih => exact (le_max_left ..).trans (ih _)

theorem mget_lastTmax_le_foldl (l : Map Mon) (i a : Nat) : (mget Mon.zero l i).lastTmax ≤ l.foldl (fun a m => max a m.2.lastTmax) a := by
  induction l generalizing a with
  | nil => exact Nat.zero_le _
  | cons m l ih =>
    rw [mget, List.foldl_cons]
    split
    · exact (le_max_right ..).trans (le_foldl_lastTmax l _)
    · exact ih _

theorem State.lastTmax_le_candidate (s : State) (i : Nat) : (s.mon i).lastTmax ≤ s.candidate := mget_lastTmax_le_foldl _ i 0

/-- Every run of low windows begins anew (R252). -/
def State.clearLow (s : State) : State :=
  { s with tilth := { s.tilth with tauCand := 0, mons := mmap Mon.zero (fun _ m => { m with low := 0 }) s.tilth.mons } }

theorem State.clearLow_mon {s : State} (h : s.monsOk) (i : Nat) : s.clearLow.mon i = { s.mon i with low := 0 } :=
  mget_mmap Mon.zero (fun _ m => { m with low := 0 }) s.tilth.mons i none h rfl

theorem State.clearLow_monsOk {s : State} (h : s.monsOk) : s.clearLow.monsOk := mmap_wf _ _ _ h

/-- What the choice of τ leaves of monitor `i`, whose window has ended and qualifies when `q` is set. -/
structure TauStep (i : Nat) (q : Bool) (s t : State) : Prop where
  ok : t.monsOk
  like : MonLike (s.mon i) (t.mon i)
  low : q = false → (t.mon i).low = 0
  forced : ∀ j c, t.isForced j c = s.isForced j c
  free : t.free = s.free
  tau : (s.mon i).lastTmax ≤ 4095 → (s.mon i).lastTmax ≤ t.tilth.tau

namespace TauStep

variable {i : Nat} {q : Bool} {s : State}

theorem clearLow (h : s.monsOk) (ht : s.candidate ≤ s.tilth.tau) : TauStep i q s s.clearLow where
  ok := State.clearLow_monsOk h
  like := by rw [State.clearLow_mon h]; exact ⟨rfl, rfl, rfl, rfl, rfl⟩
  low := fun _ => by rw [State.clearLow_mon h]
  forced := fun _ _ => rfl
  free := rfl
  tau := fun _ => (s.lastTmax_le_candidate i).trans ht

theorem clearLow_setTau (h : s.monsOk) {n : Nat} (hn : s.candidate ≤ n) : TauStep i q s (s.clearLow.setTau n) := by
  obtain ⟨r, hr⟩ := State.setTau_mon (State.clearLow_monsOk h) n i
  rw [State.clearLow_mon h] at hr
  refine ⟨State.setTau_monsOk (State.clearLow_monsOk h) n, ?_, fun _ => ?_, fun j c => ?_, ?_, fun hle => ?_⟩
  · rw [hr]; exact ⟨rfl, rfl, rfl, rfl, rfl⟩
  · rw [hr]
  · rw [State.setTau_rest]; rfl
  · rw [State.setTau_rest]; rfl
  · rw [State.setTau_tau]
    exact le_tauClamp n _ ((s.lastTmax_le_candidate i).trans hn) hle

theorem setLow (h : s.monsOk) (ht : s.candidate ≤ s.tilth.tau) {n : Nat} (hn : q = false → n = 0) (cand : Nat) :
    TauStep i q s { s.setMon i { s.mon i with low := n } with
      tilth := { (s.setMon i { s.mon i with low := n }).tilth with tauCand := cand } } := by
  have hmon : State.mon { s.setMon i { s.mon i with low := n } with
      tilth := { (s.setMon i { s.mon i with low := n }).tilth with tauCand := cand } } i = { s.mon i with low := n } :=
    State.mon_setMon_same h i _
  refine ⟨State.setMon_monsOk h _ _, ?_, ?_, fun _ _ => rfl, rfl, fun _ => (s.lastTmax_le_candidate i).trans ht⟩
  · rw [hmon]; exact ⟨rfl, rfl, rfl, rfl, rfl⟩
  · rw [hmon]; exact hn

end TauStep

/-- τ at the end of a window, by where the largest handshake time stands below it (R252). -/
theorem State.tauWindow_step {s : State} (h : s.monsOk) (i : Nat) (q : Bool) : TauStep i q s (s.tauWindow i q) := by
  unfold State.tauWindow
  dsimp only
  split
  · split
    · exact .clearLow_setTau h le_rfl
    · next hge => exact .clearLow h (not_lt.mp hge)
  · next hge =>
    have ht : s.candidate ≤ s.tilth.tau := by omega
    split
    · exact .setLow h ht (fun _ => rfl) s.tilth.tauCand
    · next hq =>
      split
      · exact .setLow h ht (fun hq' => absurd hq' hq) _
      · exact .clearLow_setTau h (le_max_right ..)

/-! ### The window's end -/

/-- The monitor with the figures of the window that ends. -/
def Mon.closed (m : Mon) (smin : Nat) : Mon := { m with lastSmin := smin, lastTmax := min 4095 (max m.a.tmax m.b.tmax), quiet := m.quiet + 1 }

/-- SMIN of the window that ends: its figure, or a free value (R245; log entries 2 and 55). -/
def State.sminTaken (s : State) (i : Nat) : Nat × State :=
  match (s.mon i).sminShown with
  | some v => (v, s)
  | none => (s.freeNext.1.toNat % 256, s.freeNext.2)

/-- A new window begins in a monitor. -/
def Mon.fresh (m : Mon) (now : BitVec 64) : Mon :=
  let f (t : TapSet) : TapSet := { t with smin := none, tmax := 0, cnt := 0 }
  { m with a := f m.a, b := f m.b, start := now }

theorem Mon.fresh_set (m : Mon) (now : BitVec 64) (b : Bool) :
    (m.fresh now).set b = { m.set b with smin := none, tmax := 0, cnt := 0 } := by cases b <;> rfl

section
variable {s : State} {i : Nat}

theorem State.windowEnd_of_running (h : s.windowOver i = false) : s.windowEnd i = s := if_pos h

/-- The state whose window is closed, before τ and the taps are tempered. -/
def State.closedWindow (s : State) (i : Nat) : State := (s.sminTaken i).2.setMon i ((s.mon i).closed (s.sminTaken i).1)

/-- The tempered state at the end of a window. -/
def State.tempered (s : State) (i : Nat) : State :=
  (((s.closedWindow i).tauWindow i (decide (256 ≤ (s.mon i).a.cnt) || decide (256 ≤ (s.mon i).b.cnt))).temper i false).temper i true

/-- A snapshot that has been asked for may be taken (R256). -/
def State.snapDue (s : State) : State := { s with tilth := { s.tilth with snapRdy := s.tilth.snapRdy || s.tilth.snapReq } }

theorem State.windowEnd_of_over (h : s.windowOver i = true) :
    s.windowEnd i = ((s.tempered i).setMon i (((s.tempered i).mon i).fresh s.nowInt)).snapDue := by
  have hover : ¬ s.windowOver i = false := by rw [h]; exact Bool.noConfusion
  unfold State.windowEnd
  rw [if_neg hover]
  extract_lets m q r s1 s2 fresh m2 s3
  have h1 : s1 = s.closedWindow i := by
    have hr : r = s.sminTaken i := rfl
    show r.2.setMon i _ = _
    rw [hr]
    rfl
  have h2 : s2 = s.tempered i := by
    show ((s1.tauWindow i q).temper i false).temper i true = _
    rw [h1]
    rfl
  rw [← h2]
  clear_value s2
  rfl

theorem State.sminTaken_eq (s : State) (i : Nat) : (s.sminTaken i).2 = { s with free := (s.sminTaken i).2.free } := by
  unfold State.sminTaken
  split <;> rfl

theorem State.closedWindow_mon (h : s.monsOk) : (s.closedWindow i).mon i = (s.mon i).closed (s.sminTaken i).1 := by
  unfold State.closedWindow
  rw [State.sminTaken_eq]
  exact State.mon_setMon_same (s := { s with free := _ }) h i _

theorem State.closedWindow_monsOk (h : s.monsOk) : (s.closedWindow i).monsOk := by
  unfold State.closedWindow
  rw [State.sminTaken_eq]
  exact State.setMon_monsOk (s := { s with free := _ }) h i _

theorem State.closedWindow_isForced (j : Nat) (c : Bool) : (s.closedWindow i).isForced j c = s.isForced j c := by
  unfold State.closedWindow
  rw [State.sminTaken_eq]
  rfl

/-- The state with τ chosen, in which both sets still stand as they were. -/
def State.tauChosen (s : State) (i : Nat) : State :=
  (s.closedWindow i).tauWindow i (decide (256 ≤ (s.mon i).a.cnt) || decide (256 ≤ (s.mon i).b.cnt))

theorem State.tauChosen_step (h : s.monsOk) :
    TauStep i (decide (256 ≤ (s.mon i).a.cnt) || decide (256 ≤ (s.mon i).b.cnt)) (s.closedWindow i) (s.tauChosen i) :=
  State.tauWindow_step (State.closedWindow_monsOk h) i _

theorem State.tauChosen_set (h : s.monsOk) (b : Bool) : ((s.tauChosen i).mon i).set b = (s.mon i).set b := by
  rw [(State.tauChosen_step h).like.set, State.closedWindow_mon h]
  cases b <;> rfl

theorem State.tauChosen_isForced (h : s.monsOk) (j : Nat) (c : Bool) : (s.tauChosen i).isForced j c = s.isForced j c :=
  ((State.tauChosen_step h).forced j c).trans (State.closedWindow_isForced j c)

/-- Set `b` after both sets are tempered is set `b` tempered in a state where it stands as it was. -/
theorem State.tempered_set (h : s.monsOk) (b : Bool) : ∃ u : State, u.monsOk ∧ (u.mon i).set b = (s.mon i).set b
    ∧ u.isForced i b = s.isForced i b ∧ ((s.tempered i).mon i).set b = ((u.temper i b).mon i).set b := by
  have hok := (State.tauChosen_step (i := i) h).ok
  have hfirst : SetStep i false (s.tauChosen i) ((s.tauChosen i).temper i false) := .temper hok
  cases b with
  | false =>
    have hsecond : SetStep i true ((s.tauChosen i).temper i false) (s.tempered i) := .temper hfirst.ok
    exact ⟨s.tauChosen i, hok, State.tauChosen_set h false, State.tauChosen_isForced h i false, hsecond.other⟩
  | true =>
    exact ⟨(s.tauChosen i).temper i false, hfirst.ok, hfirst.other.trans (State.tauChosen_set h true),
      (hfirst.forced i true).trans (State.tauChosen_isForced h i true), rfl⟩

/-- The other figures of the monitor, τ and the free values once both sets are tempered. -/
theorem State.tempered_figures (h : s.monsOk) : (s.tempered i).monsOk ∧ ((s.tempered i).mon i).lastSmin = (s.sminTaken i).1
    ∧ ((s.tempered i).mon i).lastTmax = min 4095 (max (s.mon i).a.tmax (s.mon i).b.tmax)
    ∧ ((s.tempered i).mon i).lastTmax ≤ (s.tempered i).tilth.tau
    ∧ ((s.mon i).a.cnt < 256 → (s.mon i).b.cnt < 256 → ((s.tempered i).mon i).low = 0)
    ∧ (s.tempered i).free = (s.sminTaken i).2.free := by
  have htau := State.tauChosen_step (i := i) h
  have hfirst : SetStep i false (s.tauChosen i) ((s.tauChosen i).temper i false) := .temper htau.ok
  have hsecond : SetStep i true ((s.tauChosen i).temper i false) (s.tempered i) := .temper hfirst.ok
  have hclosed := State.closedWindow_mon (i := i) h
  have htmax : ((s.tempered i).mon i).lastTmax = ((s.closedWindow i).mon i).lastTmax :=
    hsecond.tmax.trans (hfirst.tmax.trans htau.like.tmax)
  have hle : ((s.closedWindow i).mon i).lastTmax ≤ 4095 := by rw [hclosed]; exact min_le_left ..
  refine ⟨hsecond.ok, ?_, ?_, ?_, fun ha hb => ?_, ?_⟩
  · rw [hsecond.smin, hfirst.smin, htau.like.smin, hclosed]; rfl
  · rw [htmax, hclosed]; rfl
  · rw [htmax]
    exact hsecond.tau _ hle (hfirst.tau _ hle (htau.tau hle))
  · rw [hsecond.low, hfirst.low]
    exact htau.low (by simp [Nat.not_le.mpr ha, Nat.not_le.mpr hb])
  · rw [hsecond.free, hfirst.free, htau.free]; rfl

theorem State.sminTaken_of_some {v : Nat} (hv : (s.mon i).sminShown = some v) : s.sminTaken i = (v, s) := by
  unfold State.sminTaken
  rw [hv]

theorem State.sminTaken_of_none (hv : (s.mon i).sminShown = none) :
    s.sminTaken i = ((Config.freeValue s.free).toNat % 256, { s with free := s.free + 1 }) := by
  unfold State.sminTaken
  rw [hv]
  rfl

theorem State.snapDue_setMon {u : State} (h : u.monsOk) (m : Mon) : (u.setMon i m).snapDue.mon i = m
    ∧ (u.setMon i m).snapDue.tilth.tau = u.tilth.tau ∧ (u.setMon i m).snapDue.free = u.free :=
  ⟨State.mon_setMon_same h i m, rfl, rfl⟩

/-- The monitor and the registers at the end of a window. -/
theorem State.windowEnd_mon (h : s.monsOk) (hover : s.windowOver i = true) :
    (s.windowEnd i).mon i = ((s.tempered i).mon i).fresh s.nowInt ∧ (s.windowEnd i).tilth.tau = (s.tempered i).tilth.tau
      ∧ (s.windowEnd i).free = (s.tempered i).free := by
  rw [State.windowEnd_of_over hover]
  exact State.snapDue_setMon (State.tempered_figures h).1 _

end

/-- Settles O47: the window's figures are kept, τ is chosen, and each set is tempered as it stood. -/
theorem windowEndTempers : Obligations.WindowEndTempers := by
  unfold Obligations.WindowEndTempers
  intro s i b hs ha
  have hm := State.canon_monsOk hs
  have hexec : exec (.tilthWindowEnd i) s = .next (s.windowEnd i.val) := live_of_alive (fun s => s.windowEnd i.val) ha
  refine ⟨fun hrun => by rw [hexec, State.windowEnd_of_running hrun], fun hover => ⟨_, hexec, ?_⟩⟩
  obtain ⟨hmon, htau, hfree⟩ := State.windowEnd_mon hm hover
  obtain ⟨-, hsmin, htmax, hle, hlow, hfree'⟩ := State.tempered_figures (i := i.val) hm
  obtain ⟨u, hu, hset, hforced, htempered⟩ := State.tempered_set (i := i.val) hm b
  have htap : (((s.tempered i.val).mon i.val).set b).tap = ((s.mon i.val).set b).tap := by
    rw [htempered, (SetStep.temper hu).tap, hset]
  generalize s.tempered i.val = t at hmon htau hfree hsmin htmax hle hlow hfree' htempered htap
  rw [hmon, htau, hfree, Mon.fresh_set, hfree']
  refine ⟨rfl, rfl, rfl, rfl, htap, htmax, hle, hlow, fun v hv => ?_, fun hv => ?_, fun m hsm hl hf hcur hrun => ?_,
    fun m hsm hh hq hf hcur => ⟨fun hrun => ?_, fun hrun => ?_⟩⟩
  · rw [State.sminTaken_of_some hv] at hsmin ⊢
    exact ⟨hsmin, rfl⟩
  · rw [State.sminTaken_of_none hv] at hsmin ⊢
    exact ⟨hsmin, rfl⟩
  · dsimp only
    rw [← hset] at hsm hcur hrun ⊢
    rw [htempered, State.temper_raises hu hsm hl (hforced.trans hf) hcur hrun]
  · dsimp only
    rw [← hset] at hsm hq hcur hrun ⊢
    rw [htempered, State.temper_lowers hu hsm hh hq hrun (hforced.trans hf) hcur]
    exact ⟨rfl, rfl⟩
  · dsimp only
    rw [← hset] at hsm hq hcur hrun ⊢
    rw [htempered, State.temper_counts hu hsm hh hq hrun]
    exact ⟨rfl, rfl⟩

end Sys2Proof.Machine

/-! PROOFS. The ageing history (R255 to R257): a record that is copied out passes the checks of a load, and what a load takes over. -/

namespace Sys2Proof.Machine

-- one thread: the text is compiled as a whole, and each waiting thread holds its own stack
set_option Elab.async false

section
variable {s : State}

theorem exec_snap_of_alive (v : Word) (ha : s.alive = true) : exec (.snap v) s = .next (s.histCtrl v) :=
  live_of_alive (fun s => s.histCtrl v) ha

theorem exec_historyLoad_of_alive (v : Word) (ha : s.alive = true) : exec (.historyLoad v) s = .next (s.histCtrl v) :=
  live_of_alive (fun s => s.histCtrl v) ha

theorem exec_snapshotCopy_of_alive (ha : s.alive = true) : exec .snapshotCopy s = .next s.snapCopy :=
  live_of_alive (fun s => s.snapCopy) ha

theorem State.histCtrl_snap {v : Word} (h0 : v.getLsbD 0 = true) (h1 : v.getLsbD 1 = false) :
    s.histCtrl v = { s with tilth := { s.tilth with snapReq := true } } := by
  unfold State.histCtrl
  rw [show wbit v 0 = true from h0, show wbit v 1 = false from h1]
  rfl

theorem State.histCtrl_load {v : Word} (h0 : v.getLsbD 0 = false) (h1 : v.getLsbD 1 = true) : s.histCtrl v = s.histLoad := by
  unfold State.histCtrl
  rw [show wbit v 0 = false from h0, show wbit v 1 = true from h1]
  rfl

/-! ### SNAPSHOT_COPY (R256) -/

/-- The record with its CRC. -/
def State.fullRecord (s : State) : List Word := s.record ++ [crc32c (wordsBytes s.record)]

theorem State.record_length (s : State) : s.record.length = 527 := by
  simp [State.record]

theorem State.fullRecord_length (s : State) : s.fullRecord.length = 528 := by
  rw [State.fullRecord, List.length_append, State.record_length, List.length_singleton]

/-- Words written one after the other from word 0 on. -/
theorem mget_foldl_zipIdx (ws : List Word) {m : Map Word} (hm : mwf 0#32 m = true) {i : Nat} (hi : i < ws.length) :
    mget 0#32 (ws.zipIdx.foldl (fun m x => mput 0#32 m x.2 x.1) m) i = ws.getD i 0#32 := by
  have hzip : ws.zipIdx = (List.range ws.length).map (fun j => (ws.getD j 0#32, j)) := by
    refine List.ext_getElem (by simp) fun j hj hj' => ?_
    simp at hj ⊢
    simp [hj]
  rw [hzip, List.foldl_map, mget_foldl_mput (fun j => ws.getD j 0#32) _ hm, if_pos (List.mem_range.mpr hi)]

theorem State.snapCopy_of_ready (hreq : s.tilth.snapReq = true) (hrdy : s.tilth.snapRdy = true) : s.snapCopy =
    { s with tilth := { s.tilth with
        hist := s.fullRecord.zipIdx.foldl (fun m x => mput 0#32 m x.2 x.1) s.tilth.hist, dirty := false, snapReq := false, snapRdy := false
        saves := s.tilth.saves + 1 } } := by
  have hready : ¬ (s.tilth.snapReq = false ∨ s.tilth.snapRdy = false) := by rw [hreq, hrdy]; simp
  unfold State.snapCopy State.fullRecord
  simp only [if_neg hready]

theorem State.snapCopy_of_not (h : s.tilth.snapReq = false ∨ s.tilth.snapRdy = false) : s.snapCopy = s := if_pos h

/-- Word `i` of a record that has been copied out. -/
theorem State.snapCopy_histWord (hm : mwf 0#32 s.tilth.hist = true) (hreq : s.tilth.snapReq = true) (hrdy : s.tilth.snapRdy = true)
    {i : Nat} (hi : i < 528) : s.snapCopy.histWord i = s.fullRecord.getD i 0#32 := by
  rw [State.histWord, State.snapCopy_of_ready hreq hrdy, mget_foldl_zipIdx _ hm (by rw [State.fullRecord_length]; exact hi)]

/-- Its first 527 words are those that its CRC covers. -/
theorem State.snapCopy_histBytes (hm : mwf 0#32 s.tilth.hist = true) (hreq : s.tilth.snapReq = true) (hrdy : s.tilth.snapRdy = true) :
    s.snapCopy.histBytes = wordsBytes s.record := by
  have hwords : (List.range 527).map s.snapCopy.histWord = s.record := by
    refine List.ext_getElem (by rw [List.length_map, List.length_range, State.record_length]) fun i hi hi' => ?_
    have hlt : i < 527 := s.record_length ▸ hi'
    rw [List.getElem_map, List.getElem_range, State.snapCopy_histWord hm hreq hrdy (by omega), State.fullRecord,
      List.getD_eq_getElem _ _ (by rw [List.length_append, State.record_length]; omega), List.getElem_append_left hi']
  rw [State.histBytes, hwords]

theorem State.fullRecord_crc (s : State) : s.fullRecord.getD 527 0#32 = crc32c (wordsBytes s.record) := by
  have h := s.record_length
  rw [State.fullRecord, List.getD_eq_getElem _ _ (by rw [List.length_append, h, List.length_singleton]; omega), List.getElem_append_right (by omega)]
  simp [h]

/-- The record passes every check of a load on its own die (R257). -/
theorem State.snapCopy_histReason (hm : mwf 0#32 s.tilth.hist = true) (hreq : s.tilth.snapReq = true) (hrdy : s.tilth.snapRdy = true) :
    s.snapCopy.histReason = 0 := by
  have hown : s.snapCopy.own = s.own := by rw [State.snapCopy_of_ready hreq hrdy]; rfl
  have hdie : wf_ (BitVec.ofNat 32 s.own) 15 0 = s.own := by
    have hlt : s.own < 65536 := s.wl.dieId.isLt
    rw [wf_eq_div_mod, BitVec.toNat_ofNat]
    omega
  have h0 := State.snapCopy_histWord hm hreq hrdy (i := 0) (by decide)
  have h1 := State.snapCopy_histWord hm hreq hrdy (i := 1) (by decide)
  have h2 := State.snapCopy_histWord hm hreq hrdy (i := 2) (by decide)
  have h527 := State.snapCopy_histWord hm hreq hrdy (i := 527) (by decide)
  rw [State.fullRecord_crc] at h527
  unfold State.histReason
  dsimp only
  rw [h0, h1, h2, h527, State.snapCopy_histBytes hm hreq hrdy, hown]
  rw [if_neg (fun h => h rfl), if_neg (fun h => h rfl), if_neg (fun h => h hdie), if_neg (fun h => h rfl)]

/-! ### HISTORY_LOAD (R257) -/

/-- What a load shows in TIL_HIST_CTRL. -/
def State.shown (s : State) (v : BitVec 2) (r : Nat) : State :=
  { s with tilth := { s.tilth with hstate := v, hreason := BitVec.ofNat 3 r } }

/-- Every monitor of the record takes its taps (Table TL-3). -/
def State.loadTaps (s : State) : State :=
  (List.range 1038).foldl (fun t i => if i = 1023 ∨ i = 1037 then t else t.setMon i (s.histMon i)) s

/-- The ageing registers that a record gives. -/
def State.loadAge (s u : State) : State :=
  { u with tilth := { u.tilth with ageBase := s.histWord 4, saves := s.histWord 5, ageFrom := s.nowInt, dirty := true } }

/-- What the end of a load shows, whatever τ and the taps have become. -/
theorem State.shown_loadAge (s u : State) : ((s.loadAge u).unsettle.shown 1 0).tilth.hstate = 1
    ∧ ((s.loadAge u).unsettle.shown 1 0).tilth.tau = u.tilth.tau ∧ ((s.loadAge u).unsettle.shown 1 0).tilth.saves = s.histWord 5 :=
  ⟨rfl, rfl, rfl⟩

theorem State.shown_loadAge_set (s : State) {u : State} (h : u.monsOk) (i : Nat) (b : Bool) :
    (((s.loadAge u).unsettle.shown 1 0).mon i).set b = (u.mon i).set b :=
  State.unsettle_set (s := s.loadAge u) h i b

theorem State.histLoad_of_image (h : s.img.st ≠ .empty ∧ s.img.st ≠ .refused) : s.histLoad = s.shown 3 0 := if_pos h

theorem State.histLoad_of_invalid (h : s.img.st = .empty ∨ s.img.st = .refused) (hr : s.histReason ≠ 0) :
    s.histLoad = (s.logEv 0x21 5 11 0 s.histReason (wf_ (s.histWord 2) 15 0)).shown 2 s.histReason := by
  unfold State.histLoad
  rw [if_neg (by tauto)]
  exact if_pos hr

theorem State.histLoad_of_valid (h : s.img.st = .empty ∨ s.img.st = .refused) (hr : s.histReason = 0) :
    s.histLoad = (s.loadAge (s.loadTaps.setTau (wf_ (s.histWord 3) 11 0 + 64))).unsettle.shown 1 0 := by
  unfold State.histLoad
  rw [if_neg (by tauto)]
  dsimp only
  rw [if_neg (fun hne => hne hr)]
  unfold State.shown State.loadAge State.loadTaps
  rfl

theorem State.loadTaps_foldl (l : List Nat) {u : State} (hu : u.monsOk) :
    (l.foldl (fun t i => if i = 1023 ∨ i = 1037 then t else t.setMon i (s.histMon i)) u).monsOk
    ∧ ∀ i, (l.foldl (fun t i => if i = 1023 ∨ i = 1037 then t else t.setMon i (s.histMon i)) u).mon i
      = if i ∈ l ∧ ¬ (i = 1023 ∨ i = 1037) then s.histMon i else u.mon i := by
  induction l generalizing u with
  | nil => exact ⟨hu, fun i => by simp⟩
  | cons j l ih =>
    rw [List.foldl_cons]
    split
    next hj =>
      obtain ⟨hok, hmon⟩ := ih hu
      refine ⟨hok, fun i => ?_⟩
      rw [hmon]
      by_cases hi : i = j
      · subst hi; simp [hj]
      · simp [hi]
    next hj =>
      obtain ⟨hok, hmon⟩ := ih (State.setMon_monsOk hu j (s.histMon j))
      refine ⟨hok, fun i => ?_⟩
      rw [hmon, State.mon_setMon hu]
      by_cases hi : i = j
      · subst hi; simp [hj]
      · simp [hi]

theorem State.loadTaps_monsOk (h : s.monsOk) : s.loadTaps.monsOk := by
  unfold State.loadTaps
  exact (State.loadTaps_foldl _ h).1

theorem State.loadTaps_mon (h : s.monsOk) {i : Nat} (hi : i < 1037) (hne : i ≠ 1023) : s.loadTaps.mon i = s.histMon i := by
  unfold State.loadTaps
  rw [(State.loadTaps_foldl _ h).2, if_pos ⟨List.mem_range.mpr (by omega), by omega⟩]

/-- The taps of a set from its 6 bits of the record; a forced set stays (R257, R269). -/
theorem State.histMon_set (s : State) (i : Nat) (b : Bool) : (s.histMon i).set b =
    if s.isForced i b then (s.mon i).set b
    else { (s.mon i).set b with
      tap := min 63 (wf_ (s.histWord (8 + i / 2)) (16 * (i % 2) + (if b then 11 else 5)) (16 * (i % 2) + (if b then 6 else 0)) + 8)
      pend := none } := by
  have hpar : i % 2 = 0 ∨ i % 2 = 1 := by omega
  have hlow : wf_ (s.histWord (8 + i / 2)) (if i % 2 = 0 then 15 else 31) (if i % 2 = 0 then 0 else 16) % 64
      = wf_ (s.histWord (8 + i / 2)) (16 * (i % 2) + 5) (16 * (i % 2)) := by
    rcases hpar with h | h <;> simp only [h, if_true, Nat.one_ne_zero, if_false, wf_eq_div_mod] <;> omega
  have hhigh : fld (wf_ (s.histWord (8 + i / 2)) (if i % 2 = 0 then 15 else 31) (if i % 2 = 0 then 0 else 16)) 11 6
      = wf_ (s.histWord (8 + i / 2)) (16 * (i % 2) + 11) (16 * (i % 2) + 6) := by
    rw [fld, Nat.shiftRight_eq_div_pow]
    rcases hpar with h | h <;> simp only [h, if_true, Nat.one_ne_zero, if_false, wf_eq_div_mod] <;> omega
  cases b
  · show (if s.isForced i false then (s.mon i).a else _) = _
    rw [hlow]
    rfl
  · show (if s.isForced i true then (s.mon i).b else _) = _
    rw [hhigh]
    rfl

theorem State.histLoad_valid_set (h : s.monsOk) (hst : s.img.st = .empty ∨ s.img.st = .refused) (hr : s.histReason = 0) {i : Nat}
    (hi : i < 1037) (hne : i ≠ 1023) (b : Bool) : (s.histLoad.mon i).set b = (s.histMon i).set b := by
  have hok := State.loadTaps_monsOk h
  rw [State.histLoad_of_valid hst hr, State.shown_loadAge_set _ (State.setTau_monsOk hok _), State.setTau_set hok,
    State.loadTaps_mon h hi hne]

end

/-- Settles O48, command by command. -/
theorem historyRecordRoundTrip : Obligations.HistoryRecordRoundTrip := by
  unfold Obligations.HistoryRecordRoundTrip
  refine ⟨fun s v ha h0 h1 => ?_, fun s hs ha => ⟨fun hreq hrdy => ?_, fun hnot => ?_⟩, fun s v hs ha h0 h1 => ⟨fun hst => ?_, fun hst hr => ?_, fun hst hr => ?_⟩⟩
  · rw [exec_snap_of_alive v ha, State.histCtrl_snap h0 h1]
  · have hm : mwf 0#32 s.tilth.hist = true := hs.fields.hist
    refine ⟨_, exec_snapshotCopy_of_alive ha, State.snapCopy_histReason hm hreq hrdy, ?_, ?_, State.snapCopy_histWord hm hreq hrdy (by decide), ?_⟩
    all_goals rw [State.snapCopy_of_ready hreq hrdy]
  · rw [exec_snapshotCopy_of_alive ha, State.snapCopy_of_not hnot]
  · rw [exec_historyLoad_of_alive v ha, State.histCtrl_load h0 h1, State.histLoad_of_image hst]
    rfl
  · refine ⟨_, exec_historyLoad_of_alive v ha, ?_⟩
    rw [State.histCtrl_load h0 h1, State.histLoad_of_invalid hst hr, State.logEv, State.logWrite_eq_gst]
    rfl
  · have hm := State.canon_monsOk hs
    refine ⟨_, exec_historyLoad_of_alive v ha, ?_⟩
    rw [State.histCtrl_load h0 h1]
    obtain ⟨hshown, htau, hsaves⟩ := s.shown_loadAge (s.loadTaps.setTau (wf_ (s.histWord 3) 11 0 + 64))
    rw [← State.histLoad_of_valid hst hr] at hshown htau hsaves
    refine ⟨hshown, htau.trans (State.setTau_tau ..), hsaves, fun i hi hne b => ?_⟩
    · rw [State.histLoad_valid_set hm hst hr hi hne, State.histMon_set]
      exact ⟨fun hf => if_pos hf, fun hf => by rw [hf]; exact ⟨rfl, rfl⟩⟩

end Sys2Proof.Machine

/-! PROOFS. Flits that arrive at a stake in service (R196 to R203, R210, R344): DATA flits without a segment, IDLE, LINK and PROBE. -/

namespace Sys2Proof.Machine

-- one thread: the text is compiled as a whole, and each waiting thread holds its own stack
set_option Elab.async false

/-- `u` is `s` but for stake `n`, which reads `x`. -/
structure StakeIs (s u : State) (n : Nat) (x : Stake) : Prop where
  ok : mwf Stake.zero u.stakes = true
  own : u.stake n = x
  other : ∀ i, i ≠ n → u.stake i = s.stake i
  rest : u = { s with stakes := u.stakes }

namespace StakeIs

variable {s u : State} {n : Nat} {x : Stake}

theorem refl (h : s.canon) (n : Nat) : StakeIs s s n (s.stake n) := ⟨h.fields.stakes, rfl, fun _ _ => rfl, rfl⟩

theorem setStake (h : StakeIs s u n x) (y : Stake) : StakeIs s (u.setStake n y) n y where
  ok := State.setStake_stakes_wf h.ok n y
  own := State.setStake_stake_same h.ok n y
  other := fun i hi => (State.setStake_stake_other _ hi y).trans (h.other i hi)
  rest := by rw [h.rest]; rfl

theorem onStake (h : StakeIs s u n x) (f : Stake → Stake) : StakeIs s (u.onStake n f) n (f x) := h.own ▸ h.setStake (f (u.stake n))

theorem cast (h : StakeIs s u n x) {y : Stake} (hy : x = y) : StakeIs s u n y := hy ▸ h

theorem own_eq (h : StakeIs s u n x) : u.own = s.own := by rw [h.rest]; rfl

theorem now16_eq (h : StakeIs s u n x) : u.now16 = s.now16 := by rw [h.rest]; rfl

end StakeIs

/-! ### The receive buffers (R203, R261) -/

section
variable {s u : State} {n : Nat} {x : Stake}

theorem State.rxAll_of_empty (h : (s.stake n).rxbuf = []) : s.rxAll n = s := by
  have hpump (vc : Nat) : State.rxPump (s.stake n).rxbuf.length s n vc = s := by rw [h]; rfl
  show State.rxPump _ (State.rxPump _ (State.rxPump _ s n 1) n 2) n 3 = s
  simp only [hpump]

/-- A flit for this die that holds no segment frees its buffer, and nothing else comes of it (R203). -/
theorem State.takeFlit_of_empty {h : RxHeld} (hsegs : segsOf 31 h.payload = some []) (hdest : h.dest.toNat = s.own) :
    s.takeFlit n h = s.onStake n (fun y => y.free h.vc) := by
  unfold State.takeFlit
  rw [hsegs]
  exact if_neg (fun hne => hne hdest)

theorem State.rxNext_of_empty {h : RxHeld} (hsegs : segsOf 31 h.payload = some []) (s : State) (vc : Nat) :
    s.rxNext vc [] [h] = if h.vc = vc then some h else none := by
  have hin : segsIn h.payload = [] := by rw [segsIn, hsegs]; rfl
  have hroom : s.rxRoom h = true := by rw [State.rxRoom, hin]; simp
  simp only [State.rxNext, hin, List.map_nil, List.any_nil, hroom, and_self, if_true]
  split <;> simp_all

/-- Another channel leaves the flit where it stands. -/
theorem State.rxPump_other {h : RxHeld} (hsegs : segsOf 31 h.payload = some []) (hbuf : (s.stake n).rxbuf = [h]) {vc : Nat}
    (hvc : h.vc ≠ vc) : State.rxPump (s.stake n).rxbuf.length s n vc = s := by
  show State.rxPump (s.stake n).rxbuf.length s n vc = s
  rw [hbuf]
  show State.rxPump 1 s n vc = s
  rw [State.rxPump, hbuf, State.rxNext_of_empty hsegs, if_neg hvc]

/-- Its own channel takes it out. -/
theorem StakeIs.rxPump_own (k : StakeIs s u n x) {h : RxHeld} (hsegs : segsOf 31 h.payload = some []) (hdest : h.dest.toNat = s.own)
    (hbuf : x.rxbuf = [h]) : StakeIs s (State.rxPump (u.stake n).rxbuf.length u n h.vc) n (Stake.free { x with rxbuf := [] } h.vc) := by
  have hpaced : u.rxPaced h = false := by
    rw [State.rxPaced, segsIn, hsegs]
    simp
  have hpump : State.rxPump (u.stake n).rxbuf.length u n h.vc
      = (u.onStake n (fun y => { y with rxbuf := y.rxbuf.erase h })).takeFlit n h := by
    rw [k.own, hbuf]
    show State.rxPump 1 u n h.vc = _
    rw [State.rxPump, k.own, hbuf, State.rxNext_of_empty hsegs, if_pos rfl]
    dsimp only
    rw [hpaced]
    rfl
  have hout := k.onStake (fun y => { y with rxbuf := y.rxbuf.erase h })
  rw [hpump, State.takeFlit_of_empty hsegs (hdest.trans hout.own_eq.symm)]
  refine (hout.onStake (fun y => y.free h.vc)).cast ?_
  simp only [hbuf, List.erase_cons_head]

/-- A flit without a segment that waits alone in its receive buffer is taken out at once. -/
theorem StakeIs.rxAll_single (k : StakeIs s u n x) {h : RxHeld} (hsegs : segsOf 31 h.payload = some []) (hdest : h.dest.toNat = s.own)
    (hbuf : x.rxbuf = [h]) (h0 : h.vc ≠ 0) (h4 : h.vc < 4) : StakeIs s (u.rxAll n) n (Stake.free { x with rxbuf := [] } h.vc) := by
  have hown := k.rxPump_own hsegs hdest hbuf
  have hother {vc : Nat} (hvc : h.vc ≠ vc) : State.rxPump (u.stake n).rxbuf.length u n vc = u :=
    State.rxPump_other hsegs (k.own ▸ hbuf) hvc
  have hz : (Stake.free { x with rxbuf := [] } h.vc).rxbuf = [] := rfl
  generalize Stake.free { x with rxbuf := [] } h.vc = z at hown hz ⊢
  have hempty (t : State) (ht : StakeIs s t n z) (vc : Nat) : State.rxPump (t.stake n).rxbuf.length t n vc = t := by
    rw [ht.own, hz]
    rfl
  have hvc : h.vc = 1 ∨ h.vc = 2 ∨ h.vc = 3 := by omega
  generalize h.vc = v at hown hother hvc
  unfold State.rxAll
  simp only [List.foldl_cons, List.foldl_nil]
  rcases hvc with rfl | rfl | rfl
  · rw [hempty _ hown, hempty _ hown]
    exact hown
  · rw [hother (vc := 1) (by decide), hempty _ hown]
    exact hown
  · rw [hother (vc := 1) (by decide), hother (vc := 2) (by decide)]
    exact hown

/-! ### The end of an arrival (R214) -/

/-- What follows the flit itself: the codeword rate, and the receive buffers. -/
def State.rxEnd (s : State) (n : Nat) : State :=
  (if (s.stake n).st = .inService ∧ 64 ≤ (s.stake n).badRun.length then s.retrain n 5 (s.stake n).lanes else s).rxAll n

theorem StakeIs.rxEnd_eq (k : StakeIs s u n x) (hrate : x.badRun.length < 64) : u.rxEnd n = u.rxAll n := by
  unfold State.rxEnd
  rw [k.own, if_neg (fun h => by omega)]

theorem StakeIs.rxEnd_of_empty (k : StakeIs s u n x) (hrate : x.badRun.length < 64) (hbuf : x.rxbuf = []) : u.rxEnd n = u := by
  rw [k.rxEnd_eq hrate, State.rxAll_of_empty (k.own ▸ hbuf)]

theorem Stake.framed_of_inService (h : x.st = .inService) : x.framed = true := by
  rw [Stake.framed, h]
  rfl

theorem State.rxFlit_of_good (hst : (s.stake n).st = .inService) {wire : List Byte} (hgood : (readFlit (padTo 264 wire)).good = true)
    (el : Nat) (k : FKind) : s.rxFlit n el k wire =
      (((s.onStake n (fun x => x.count (readFlit (padTo 264 wire)) (decide (k ≠ .data)))).goodFlit n el (readFlit (padTo 264 wire))).rxEnd n).settle := by
  unfold State.rxFlit
  rw [if_neg (by rw [Stake.framed_of_inService hst]; exact Bool.noConfusion)]
  dsimp only
  rw [if_pos hgood]
  rfl

theorem Stake.count_st (x : Stake) (f : RxFlit) (ctl : Bool) : (x.count f ctl).st = x.st := rfl

theorem State.rxFlit_of_bad (hs : s.canon) (hst : (s.stake n).st = .inService) {wire : List Byte}
    (hbad : (readFlit (padTo 264 wire)).good = false) (el : Nat) : s.rxFlit n el .data wire =
      (((s.onStake n (fun x => x.count (readFlit (padTo 264 wire)) false)).onStake n Stake.nakStart).rxEnd n).settle := by
  have hdue : FKind.data = FKind.data
      ∧ ((s.onStake n (fun x => x.count (readFlit (padTo 264 wire)) (decide (FKind.data ≠ FKind.data)))).stake n).st = .inService := by
    rw [((StakeIs.refl hs n).onStake _).own, Stake.count_st]
    exact ⟨rfl, hst⟩
  have hbad' : ¬ (readFlit (padTo 264 wire)).good = true := by rw [hbad]; exact Bool.noConfusion
  unfold State.rxFlit
  rw [if_neg (by rw [Stake.framed_of_inService hst]; exact Bool.noConfusion)]
  dsimp only
  rw [if_neg hbad', if_pos hdue]
  rfl

/-! ### A good flit by its header -/

/-- An acknowledgement frees the flits that it covers (R196, R197). -/
def Stake.ackedBy (x : Stake) (f : RxFlit) : Stake := if f.hdr.ackV then x.acked (BitVec.ofNat 12 f.hdr.ack) else x

/-- A good flit without a reserved bit, at a stake that is not closing: its acknowledgement, and what its type says. -/
theorem StakeIs.goodFlit (k : StakeIs s u n x) (hopen : x.closing = false) {f : RxFlit} (hresv : f.hdr.resv = false) (hty : f.hdr.ftype ≤ 3)
    (el : Nat) : ∃ v : State, StakeIs s v n (x.ackedBy f) ∧ (f.hdr.ackV = false → v = u)
      ∧ (f.hdr.ftype = 0 → u.goodFlit n el f = v) ∧ (f.hdr.ftype = 1 → u.goodFlit n el f = v.goodData n el f)
      ∧ (f.hdr.ftype = 2 → u.goodFlit n el f = v.goodLink n f) ∧ (f.hdr.ftype = 3 → u.goodFlit n el f = v.goodTrain n el f) := by
  have hack : StakeIs s (if f.hdr.ackV then u.onStake n (fun x => x.acked (BitVec.ofNat 12 f.hdr.ack)) else u) n (x.ackedBy f) := by
    unfold Stake.ackedBy
    split
    · exact k.onStake _
    · exact k
  have hopen' : (x.ackedBy f).closing = false := by
    unfold Stake.ackedBy
    split <;> exact hopen
  refine ⟨_, hack, fun h => by rw [h]; rfl, ?_⟩
  have hgo : ¬ (f.hdr.resv = true ∨ 3 < f.hdr.ftype) := by rw [hresv]; simp; omega
  unfold State.goodFlit
  dsimp only
  generalize (if f.hdr.ackV then u.onStake n (fun x => x.acked (BitVec.ofNat 12 f.hdr.ack)) else u) = v at hack ⊢
  rw [State.closed_of_open (by rw [hack.own]; exact hopen'), ite_self, if_neg hgo]
  exact ⟨fun h => by simp only [h], fun h => by simp only [h], fun h => by simp only [h], fun h => by simp only [h]⟩

/-! ### DATA flits (R198, R203) -/

/-- The expected flit is accepted (R198). -/
def Stake.accepts (x : Stake) : Stake := { x with rxSeq := x.rxSeq + 1, ackV := true, rxdata := satInc x.rxdata, nak := false }

/-- It stands in the receive buffer of its channel (R203). -/
def Stake.holds (x : Stake) (vc : Nat) : Stake := { x with held := x.held.set vc (x.held.getD vc 0 + 1) }

theorem StakeIs.acceptFlit_of_empty (k : StakeIs s u n x) (hopen : x.closing = false) (hbuf : x.rxbuf = []) {f : FlitHdr} {p : List Byte}
    (hsegs : segsOf 31 p = some []) (hdest : f.dest = s.own) (hvc : f.vc < 4) (el : Nat) (hrate : x.badRun.length < 64) :
    StakeIs s ((u.acceptFlit n el f p).rxEnd n) n ((x.holds f.vc).free f.vc) := by
  have hto : (BitVec.ofNat 16 f.dest).toNat = s.own := by
    have hlt : s.own < 65536 := s.wl.dieId.isLt
    rw [BitVec.toNat_ofNat, hdest]
    omega
  have hheld := k.onStake (fun y => { y with held := y.held.set f.vc (y.held.getD f.vc 0 + 1) })
  unfold State.acceptFlit
  dsimp only
  rw [k.own, if_neg (by rw [hopen]; exact Bool.noConfusion)]
  split
  next h0 =>
    rw [State.takeFlit_of_empty hsegs (hto.trans hheld.own_eq.symm)]
    have hfree := hheld.onStake (fun y => y.free f.vc)
    rw [hfree.rxEnd_of_empty hrate hbuf]
    exact hfree
  next h0 =>
    have hin := hheld.onStake (fun y => { y with rxbuf := y.rxbuf ++
      [⟨f.ftype, f.bits, f.vc, BitVec.ofNat 16 f.dest, f.hop, f.level, f.srcf, el, p⟩] })
    have hout := hin.rxAll_single hsegs hto (by show x.rxbuf ++ _ = _; rw [hbuf]; rfl) h0 hvc
    rw [hout.rxEnd_of_empty hrate rfl]
    refine hout.cast ?_
    show Stake.free { x with held := _, rxbuf := [] } f.vc = _
    rw [← hbuf]
    rfl

theorem fld_lt (v hi lo : Nat) : fld v hi lo < 2 ^ (hi + 1 - lo) := Nat.mod_lt _ (Nat.two_pow_pos _)

theorem readFlit_vc_lt (wire : List Byte) : (readFlit wire).hdr.vc < 4 := fld_lt _ 5 4

/-- A good DATA flit with the expected FSEQ, into a buffer with room. -/
theorem StakeIs.goodData_expected (k : StakeIs s u n x) (hst : x.st = .inService) (hopen : x.closing = false) (hbuf : x.rxbuf = [])
    {f : RxFlit} (hseq : BitVec.ofNat 12 f.hdr.fseq = x.rxSeq) (hroom : x.held.getD f.hdr.vc 0 < vcBuf f.hdr.vc) (hdest : f.hdr.dest = s.own)
    (hsegs : segsOf 31 f.body = some []) (hvc : f.hdr.vc < 4) (el : Nat) (hrate : x.badRun.length < 64) :
    StakeIs s ((u.goodData n el f).rxEnd n) n ((x.accepts.holds f.hdr.vc).free f.hdr.vc) := by
  have hacc : u.goodData n el f = (u.setStake n x.accepts).acceptFlit n el f.hdr f.body := by
    unfold State.goodData
    dsimp only
    rw [k.own, if_neg (fun h => h.1 hst), if_pos hseq, if_neg (Nat.not_le.mpr hroom)]
    rfl
  rw [hacc]
  exact (k.setStake x.accepts).acceptFlit_of_empty hopen hbuf hsegs hdest hvc el hrate

theorem StakeIs.goodData_before (k : StakeIs s u n x) (hst : x.st = .inService) {f : RxFlit} (hseq : BitVec.ofNat 12 f.hdr.fseq ≠ x.rxSeq)
    (hbefore : precedes 12 (BitVec.ofNat 12 f.hdr.fseq).toNat x.rxSeq.toNat = true) (el : Nat) : u.goodData n el f = u := by
  unfold State.goodData
  dsimp only
  rw [k.own, if_neg (fun h => h.1 hst), if_neg hseq, if_pos hbefore]

theorem StakeIs.goodData_after (k : StakeIs s u n x) (hst : x.st = .inService) {f : RxFlit} (hseq : BitVec.ofNat 12 f.hdr.fseq ≠ x.rxSeq)
    (hafter : precedes 12 (BitVec.ofNat 12 f.hdr.fseq).toNat x.rxSeq.toNat = false) (el : Nat) :
    u.goodData n el f = u.setStake n x.nakStart := by
  unfold State.goodData
  dsimp only
  rw [k.own, if_neg (fun h => h.1 hst), if_neg hseq, if_neg (by rw [hafter]; exact Bool.noConfusion)]

theorem Stake.nakStart_frame (x : Stake) : x.nakStart.badRun = x.badRun ∧ x.nakStart.rxbuf = x.rxbuf := by
  unfold Stake.nakStart
  split <;> exact ⟨rfl, rfl⟩

/-- A NAK state starts, and nothing else follows (R198, R344). -/
theorem StakeIs.nakStart (k : StakeIs s u n x.nakStart) (hbuf : x.rxbuf = []) (hrate : x.badRun.length < 64) :
    (u.rxEnd n).stake n = x.nakStart ∧ (∀ i, i ≠ n → (u.rxEnd n).stake i = s.stake i) ∧ u.rxEnd n = { s with stakes := (u.rxEnd n).stakes } := by
  obtain ⟨hrun, hempty⟩ := x.nakStart_frame
  rw [k.rxEnd_of_empty (hrun ▸ hrate) (hempty.trans hbuf)]
  exact ⟨k.own, k.other, k.rest⟩

end

/-- Settles O39: a good flit by its FSEQ, a flit that is not good by the NAK state that it starts. -/
theorem dataFlitAcceptance : Obligations.DataFlitAcceptance := by
  unfold Obligations.DataFlitAcceptance
  rintro s n wire el x y f hs ha rfl hst hopen hbuf rfl rfl hrate
  have hexec : exec (.dataFlitReceive n wire el) s = .next (s.rxFlit n.val el.toNat .data wire) :=
    live_of_alive (fun s => s.rxFlit n.val el.toNat .data wire) ha
  have hcount := (StakeIs.refl hs n.val).onStake (fun x => x.count (readFlit (padTo 264 wire)) false)
  cases hgood : (readFlit (padTo 264 wire)).good with
  | false =>
    rw [hexec, State.rxFlit_of_bad hs hst hgood]
    exact ⟨_, rfl, Bool.noConfusion, fun _ => (hcount.onStake Stake.nakStart).nakStart hbuf hrate⟩
  | true =>
    rw [hexec, State.rxFlit_of_good hst hgood]
    refine ⟨_, rfl, fun _ hty hack hresv => ?_, Bool.noConfusion⟩
    obtain ⟨v, -, hv, -, hflit, -, -⟩ := hcount.goodFlit hopen hresv (by omega) el.toNat
    replace hflit := hflit hty
    rw [hv hack] at hflit
    refine ⟨fun hseq hroom hdest hsegs => ?_, fun hseq hbefore => ?_, fun hseq hafter => ?_⟩
    · have hdata := hcount.goodData_expected hst hopen hbuf hseq hroom hdest hsegs (readFlit_vc_lt _) el.toNat hrate
      rw [← hflit] at hdata
      exact ⟨hdata.own, hdata.other, hdata.rest⟩
    · have hdata := hcount.goodData_before hst hseq hbefore el.toNat
      rw [hdata] at hflit
      exact (congrArg (State.rxEnd · n.val) hflit).trans (hcount.rxEnd_of_empty hrate hbuf)
    · have hdata := hcount.goodData_after hst hseq hafter el.toNat
      rw [hdata] at hflit
      have hend := (hcount.setStake ((s.stake n.val).count (readFlit (padTo 264 wire)) false).nakStart).nakStart hbuf hrate
      rw [← hflit] at hend
      exact hend

/-! ### Control flits (R196, R197, R202, R210) -/

section
variable {s u : State} {n : Nat} {x : Stake}

/-- The credit counters of a LINK flit (Table SK-9). -/
def Stake.credited (x : Stake) (body : List Byte) : Stake :=
  { x with txFreed := [BitVec.ofNat 16 (leAt body 0 2), BitVec.ofNat 16 (leAt body 2 2), BitVec.ofNat 16 (leAt body 4 2),
                       BitVec.ofNat 16 (leAt body 6 2)] }

theorem StakeIs.goodLink (k : StakeIs s u n x) {f : RxFlit} (hnak : (byteAt f.body 10).getLsbD 0 = false) :
    StakeIs s (u.goodLink n f) n (x.credited f.body) := by
  unfold State.goodLink
  dsimp only
  rw [if_pos (.inr hnak), k.own]
  exact k.setStake _

theorem StakeIs.goodTrain_probe (k : StakeIs s u n x) (hst : x.st = .inService) {f : RxFlit} (hprobe : leAt f.body 0 2 = 2) (el : Nat) :
    StakeIs s (u.goodTrain n el f) n { x with ctlq := x.ctlq ++ [.ret (leAt f.body 2 2) (s.now16 + el)] } := by
  have heq : u.goodTrain n el f = u.setStake n { x with ctlq := x.ctlq ++ [.ret (leAt f.body 2 2) (u.now16 + el)] } := by
    unfold State.goodTrain
    simp only [hprobe, k.own, hst, reduceCtorEq, decide_false, Bool.false_and, Bool.false_eq_true, if_false]
  rw [heq, k.now16_eq]
  exact k.setStake _

theorem Stake.ackedBy_count (x : Stake) (f : RxFlit) :
    (x.count f true).ackedBy f = if f.hdr.ackV then (x.count f true).acked (BitVec.ofNat 12 f.hdr.ack) else x.count f true := rfl

theorem Stake.ackedBy_frame (x : Stake) (f : RxFlit) : (x.ackedBy f).st = x.st ∧ (x.ackedBy f).rxbuf = x.rxbuf := by
  unfold Stake.ackedBy
  split <;> exact ⟨rfl, rfl⟩

/-- A good control flit: its acknowledgement frees the flits that it covers, and its type does the rest. -/
theorem State.rxFlit_control (hs : s.canon) (hst : (s.stake n).st = .inService) (hopen : (s.stake n).closing = false)
    {wire : List Byte} (hgood : (readFlit (padTo 264 wire)).good = true)
    (hresv : (readFlit (padTo 264 wire)).hdr.resv = false) (hty : (readFlit (padTo 264 wire)).hdr.ftype ≤ 3) (el : Nat) {k : FKind}
    (hk : k ≠ .data) :
    ∃ v w : State, StakeIs s v n (((s.stake n).count (readFlit (padTo 264 wire)) true).ackedBy (readFlit (padTo 264 wire)))
      ∧ s.rxFlit n el k wire = (w.rxEnd n).settle
      ∧ ((readFlit (padTo 264 wire)).hdr.ftype = 0 → w = v)
      ∧ ((readFlit (padTo 264 wire)).hdr.ftype = 2 → w = v.goodLink n (readFlit (padTo 264 wire)))
      ∧ ((readFlit (padTo 264 wire)).hdr.ftype = 3 → w = v.goodTrain n el (readFlit (padTo 264 wire))) := by
  have hcount := (StakeIs.refl hs n).onStake (fun x => x.count (readFlit (padTo 264 wire)) true)
  obtain ⟨v, hv, -, h0, -, h2, h3⟩ := hcount.goodFlit hopen hresv hty el
  refine ⟨v, _, hv, ?_, h0, h2, h3⟩
  rw [State.rxFlit_of_good hst hgood, decide_eq_true hk]

/-- The stake alone has changed, and no flit waits: the end of the arrival changes nothing more. -/
theorem StakeIs.ended (k : StakeIs s u n x) (hrate : x.badRun.length < 64) (hbuf : x.rxbuf = []) :
    (u.rxEnd n).stake n = x ∧ (∀ i, i ≠ n → (u.rxEnd n).stake i = s.stake i) ∧ u.rxEnd n = { s with stakes := (u.rxEnd n).stakes } := by
  rw [k.rxEnd_of_empty hrate hbuf]
  exact ⟨k.own, k.other, k.rest⟩

end

/-- Settles O40: the acknowledgement first, then what the flit's type says. -/
theorem controlFlitsTakeEffect : Obligations.ControlFlitsTakeEffect := by
  unfold Obligations.ControlFlitsTakeEffect
  rintro s n wire el x y f hs ha rfl hst hopen hbuf rfl hgood hresv hy hrate
  rw [← Stake.ackedBy_count] at hy
  obtain ⟨hst', hbuf'⟩ := Stake.ackedBy_frame ((s.stake n.val).count (readFlit (padTo 264 wire)) true) (readFlit (padTo 264 wire))
  rw [← hy] at hst' hbuf'
  refine ⟨fun hty => ?_, fun hty hnak => ?_, fun hty hprobe => ?_⟩
  · obtain ⟨v, w, hv, hw, h0, -, -⟩ := State.rxFlit_control hs hst hopen hgood hresv (by omega) 0 (k := .idle) FKind.noConfusion
    rw [← hy] at hv
    refine ⟨_, (live_of_alive (fun s => s.rxFlit n.val 0 .idle wire) ha).trans (congrArg _ hw), ?_⟩
    rw [h0 hty]
    exact hv.ended hrate (hbuf'.trans hbuf)
  · obtain ⟨v, w, hv, hw, -, h2, -⟩ := State.rxFlit_control hs hst hopen hgood hresv (by omega) 0 (k := .link) FKind.noConfusion
    rw [← hy] at hv
    refine ⟨_, (live_of_alive (fun s => s.rxFlit n.val 0 .link wire) ha).trans (congrArg _ hw), ?_⟩
    rw [h2 hty]
    exact (hv.goodLink hnak).ended hrate (hbuf'.trans hbuf)
  · obtain ⟨v, w, hv, hw, -, -, h3⟩ := State.rxFlit_control hs hst hopen hgood hresv (by omega) el.toNat (k := .train) FKind.noConfusion
    rw [← hy] at hv
    refine ⟨_, (live_of_alive (fun s => s.rxFlit n.val el.toNat .train wire) ha).trans (congrArg _ hw), ?_⟩
    rw [h3 hty]
    exact (hv.goodTrain_probe (hst'.trans hst) hprobe el.toNat).ended hrate (hbuf'.trans hbuf)

end Sys2Proof.Machine

/-! PROOFS. The timers of a stake in service (R198 to R202, R344), CLRCNT (R418), and training (R208 to R211). -/

namespace Sys2Proof.Machine

-- one thread: the text is compiled as a whole, and each waiting thread holds its own stack
set_option Elab.async false

section
variable {s : State} {n : Nat}

/-! ### ACK_TIMEOUT (R199, R201) -/

/-- A replay from the oldest flit, which is not yet the sixteenth for it (R201). -/
theorem Stake.startReplay_of_cons {x : Stake} {f : TxFlit} {fs : List TxFlit} (hr : x.rbuf = f :: fs)
    (hk : (if x.replayF = some f.fseq then x.replays + 1 else 1) < 16) : x.startReplay 0 =
      ({ x with replay := some 0, replayC := satInc x.replayC, replayF := some f.fseq
                replays := if x.replayF = some f.fseq then x.replays + 1 else 1 }, false) := by
  unfold Stake.startReplay
  rw [hr]
  exact Prod.ext rfl (decide_eq_false (Nat.not_le.mpr hk))

theorem State.up_of_inService (h : (s.stake n).st = .inService) : s.up_ n = true := decide_eq_true h

/-! ### LINK flits (R202) -/

/-- The stake with a LINK flit on its line (R195, R202). -/
def Stake.linkSent (x : Stake) : Stake := { x.line x.linkFlit with linkDue := false, linked := x.freed, sinceLk := 0 }

theorem State.sendLink_eq (s : State) (n : Nat) : s.sendLink n = s.setStake n (s.stake n).linkSent := rfl

end

/-- Settles O41, timer by timer. -/
theorem stakeTimersAct : Obligations.StakeTimersAct := by
  unfold Obligations.StakeTimersAct
  rintro s n x hs ha rfl
  refine ⟨live_of_alive (fun s => s.onStake n.val Stake.clrcnt) ha, fun hst => ?_⟩
  have hup := State.up_of_inService hst
  have hack := live_of_alive (fun s =>
    let x := s.stake n.val
    if s.up_ n.val = false ∨ x.rbuf = [] then s
    else
      let r := x.startReplay 0
      let s1 := s.setStake n.val r.1
      if r.2 then s1.retrain n.val 3 r.1.lanes else s1) ha
  have hlink := live_of_alive (fun s => if s.up_ n.val then s.sendLink n.val else s) ha
  have hnak := live_of_alive (fun s => if s.up_ n.val ∧ (s.stake n.val).nak = true then s.sendLink n.val else s) ha
  have hshadow := live_of_alive (fun s => if s.up_ n.val ∧ (s.stake n.val).nak = false then s.onStake n.val (fun x => { x with shadow := false }) else s) ha
  refine ⟨fun f fs hr hk => ?_, fun hr => ?_, ?_, fun h => ⟨?_, ?_⟩, fun h => ⟨?_, ?_⟩⟩
  · refine hack.trans (congrArg _ ?_)
    dsimp only
    rw [if_neg (by rw [hup, hr]; simp), Stake.startReplay_of_cons hr hk]
    rfl
  · exact hack.trans (congrArg _ (if_pos (Or.inr hr)))
  · exact hlink.trans (congrArg _ (if_pos hup))
  · exact hnak.trans (congrArg _ (if_pos ⟨hup, h⟩))
  · exact hshadow.trans (congrArg _ (if_neg fun k => by rw [h] at k; exact Bool.noConfusion k.2))
  · exact hshadow.trans (congrArg _ (if_pos ⟨hup, h⟩))
  · exact hnak.trans (congrArg _ (if_neg fun k => by rw [h] at k; exact Bool.noConfusion k.2))

end Sys2Proof.Machine

/-! PROOFS. Training of a stake (R208 to R211). -/

namespace Sys2Proof.Machine

-- one thread: the text is compiled as a whole, and each waiting thread holds its own stack
set_option Elab.async false

section
variable {s u : State} {n : Nat} {x : Stake}

/-! ### TRAIN flits (R210) -/

theorem StakeIs.sendTrain_id (k : StakeIs s u n x) : StakeIs s (u.sendTrain n .id) n
    { x.line (mkFlit (x.hdr 3) (u.trainPayload n .id)) with idSent := x.idSent || x.idRx.isSome, sinceLk := 0 } := by
  have h := (k.onStake (Stake.line · (mkFlit (x.hdr 3) (u.trainPayload n .id)))).onStake
    (fun x => { x with idSent := x.idSent || x.idRx.isSome, sinceLk := 0 })
  unfold State.sendTrain
  rw [k.own]
  exact h

theorem StakeIs.sendTrain_probe (k : StakeIs s u n x) (p : Nat) : StakeIs s (u.sendTrain n (.probe p)) n
    { x.line (mkFlit (x.hdr 3) (u.trainPayload n (.probe p))) with stampDue := some (.probe p) } := by
  have h := (k.onStake (Stake.line · (mkFlit (x.hdr 3) (u.trainPayload n (.probe p))))).onStake
    (fun x => { x with stampDue := some (.probe p) })
  unfold State.sendTrain
  rw [k.own]
  exact h

/-! ### A training word (R209, R211) -/

/-- What a training word leaves of a stake: the lane's receiver and its last word stand, and no step is undone. -/
structure WordTaken (l : Map LaneRx) (r : Map (BitVec 256)) (st : Nat) (y : Stake) : Prop where
  laneRx : y.laneRx = l
  rxd : y.rxd = r
  step : st ≤ y.step

theorem Stake.takeWord_taken (x : Stake) (lane : Nat) (w : BitVec 256) : WordTaken x.laneRx (mput 0 x.rxd lane w) x.step (x.takeWord lane w) := by
  unfold Stake.takeWord Stake.deskew
  dsimp only
  split
  · exact ⟨rfl, rfl, le_rfl⟩
  · split <;> exact ⟨rfl, rfl, le_rfl⟩

variable {l : Map LaneRx} {r : Map (BitVec 256)} {st : Nat}

theorem StakeIs.chooseWidth (k : StakeIs s u n x) (h : WordTaken l r st x) (hst : st ≤ 6) : WordTaken l r st ((u.chooseWidth n).stake n) := by
  have hset (y : Stake) (hy : WordTaken l r st y) : WordTaken l r st ((u.setStake n y).stake n) := by rwa [(k.setStake y).own]
  have hkeep : WordTaken l r st (u.stake n) := k.own ▸ h
  unfold State.chooseWidth
  dsimp only
  split
  · exact hkeep
  · split
    · exact hset _ ⟨hkeep.laneRx, hkeep.rxd, hkeep.step⟩
    · have hy (y : Stake) (hl : y.laneRx = (u.stake n).laneRx) (hr : y.rxd = (u.stake n).rxd) (hs6 : st ≤ y.step) := hset y ⟨hl.trans hkeep.laneRx, hr.trans hkeep.rxd, hs6⟩
      split
      · rw [State.logEv, State.logWrite_eq_gst]
        exact hy _ rfl rfl hst
      · exact hy _ rfl rfl hst

theorem State.trainWord_taken (hs : s.canon) (hst : (s.stake n).st = .training) (h2 : 2 ≤ (s.stake n).step) (h5 : (s.stake n).step ≤ 5)
    (hrst : (s.stake n).phyRst = false) {lane : Nat} (hlane : (s.stake n).cand.getLsbD lane = true) (w : BitVec 256) :
    WordTaken (mput LaneRx.zero (s.stake n).laneRx lane ((mget LaneRx.zero (s.stake n).laneRx lane).take (n / 2) lane w.toNat))
      (mput 0 (s.stake n).rxd lane w) (s.stake n).step ((s.trainWord n lane w).stake n) := by
  unfold State.trainWord
  dsimp only
  rw [if_neg (by rw [hst, hrst, hlane]; simp; omega)]
  obtain ⟨hl, hr, hstep⟩ := Stake.takeWord_taken { s.stake n with
    laneRx := mput LaneRx.zero (s.stake n).laneRx lane ((mget LaneRx.zero (s.stake n).laneRx lane).take (n / 2) lane w.toNat) } lane w
  have hset (y : Stake) := (StakeIs.refl hs n).setStake y
  split
  · exact (hset _).chooseWidth ⟨hl, hr, hstep.trans (le_max_left ..)⟩ (by omega)
  · rw [(hset _).own]
    exact ⟨hl, hr, hstep.trans (le_max_left ..)⟩

/-! ### The end of an attempt (R208) -/

theorem State.trainFail_again (hs : s.canon) (h : (s.stake n).attempt < 3) :
    (s.trainFail n).stake n = { (s.stake n).train (s.stake n).cand ((s.stake n).attempt + 1) with phyRst := true }
      ∧ s.trainFail n = { s with stakes := (s.trainFail n).stakes, gst := (s.trainFail n).gst } := by
  unfold State.trainFail
  dsimp only
  rw [if_neg (Nat.not_le.mpr h), State.logEv, State.logWrite_eq_gst]
  exact ⟨State.setStake_stake_same hs.fields.stakes _ _, rfl⟩

/-- A stake that goes down leaves ATTN bit 4 behind. -/
theorem State.goDown_attn (s : State) (n a : Nat) : (s.goDown n a).gst.attn.getLsbD 4 = true := by
  unfold State.goDown
  dsimp only
  generalize hu : ((s.logEv 0x1B 4 4 n a 0).attn 4).setStake n _ = u
  have hattn : u.gst.attn.getLsbD 4 = true := by
    rw [← hu]
    exact State.attn_getLsbD_self _ (by decide)
  split
  · exact (State.closed_keeps (State.cutAll_keeps (State.dropRelays_keeps (Keeps.refl (q := fun _ => true)) n) n) n).attn 4 hattn
  · exact (State.closed_keeps (State.leaveBond_keeps (Keeps.refl (q := fun _ => true)) n true) n).attn 4 hattn

theorem State.trainFail_last (h : 3 ≤ (s.stake n).attempt) : (s.trainFail n).gst.attn.getLsbD 4 = true := by
  unfold State.trainFail
  dsimp only
  rw [if_pos h]
  exact State.goDown_attn _ n 4

end

/-- Settles O42, event by event. -/
theorem trainingAdvances : Obligations.TrainingAdvances := by
  unfold Obligations.TrainingAdvances
  rintro s n x hs ha rfl hst
  have hid := live_of_alive (fun s =>
    let x := s.stake n.val
    if x.st = .training ∧ x.step = 6 ∧ x.idAck = false ∧ 63 ≤ x.sinceLk then s.sendTrain n.val .id else s) ha
  have hprobe := live_of_alive (fun s =>
    let x := s.stake n.val
    if x.st = .training ∧ x.step = 7 then s.sendTrain n.val (.probe x.pnum) else s) ha
  have htimeout := live_of_alive (fun s =>
    let x := s.stake n.val
    if x.st = .training ∧ x.phyRst = false ∧ 2 ≤ x.step then (s.trainFail n.val).settle else s) ha
  have hreset := live_of_alive (fun s =>
    let x := s.stake n.val
    if x.st = .training ∧ x.phyRst = true then s.setStake n.val { x.train x.cand x.attempt with phyRst := false } else s) ha
  refine ⟨fun h6 hack hlk => ?_, fun h => ?_, fun h7 => ?_, fun lane w h2 h5 hrst hlane => ?_, fun h2 hrst => ?_, fun hrst => ?_⟩
  · have k := (StakeIs.refl hs n.val).sendTrain_id
    exact ⟨_, hid.trans (congrArg _ (if_pos ⟨hst, h6, hack, hlk⟩)), k.own, k.rest⟩
  · refine hid.trans (congrArg _ (if_neg fun ⟨_, h6, hack, hlk⟩ => ?_))
    rcases h with h | h | h
    · exact h h6
    · rw [hack] at h; exact Bool.noConfusion h
    · omega
  · have k := (StakeIs.refl hs n.val).sendTrain_probe (s.stake n.val).pnum
    exact ⟨_, hprobe.trans (congrArg _ (if_pos ⟨hst, h7⟩)), k.own, k.rest⟩
  · obtain ⟨hl, hr, hstep⟩ := State.trainWord_taken hs hst h2 h5 hrst hlane w
    exact ⟨_, live_of_alive (fun s => s.trainWord n.val lane.val w) ha, hl, hr, hstep⟩
  · exact ⟨_, htimeout.trans (congrArg _ (if_pos ⟨hst, hrst, h2⟩)), State.trainFail_again hs, State.trainFail_last⟩
  · exact hreset.trans (congrArg _ (if_pos ⟨hst, hrst⟩))

end Sys2Proof.Machine

/-! PROOFS. A fused issue at a core port that processes it at once (R88 to R91, R110). -/

namespace Sys2Proof.Machine

-- one thread: the text is compiled as a whole, and each waiting thread holds its own stack
set_option Elab.async false

section
variable {s u : State} {cp : Nat} {ws cs : List Word}

theorem State.status_port (hs : s.canon) (cp code : Nat) (g : BitVec 12) (arg : Word) (gate wait : Bool) :
    (s.status cp code g arg gate wait).port cp = (s.port cp).offer ⟨BitVec.ofNat 4 code, g, arg, gate, wait⟩ := by
  unfold State.status
  rw [State.onPort_eq, s.setPort_port_read hs, if_pos rfl]
  rfl

/-- A port from which no command waits, once the command and what follows it are done. -/
theorem Keeps.settle_port (hs : s.canon) (k : Keeps (fun _ => false) s u) (hq : (s.port cp).cmdq = []) :
    PortGrows (s.port cp) (u.settle.port cp) ∧ (u.settle.port cp).seqs = (s.port cp).seqs :=
  ⟨(k.settle hs).ports hs cp, ((k.settle hs).seqs hs cp rfl hq).2⟩

/-! ### An issue that is accepted (R89, R90) -/

/-- The port's next sequence number of a group. -/
def State.nextSeq (s : State) (cp : Nat) (g : BitVec 12) : Word := mget 0#32 (s.port cp).seqs g.toNat

/-- The count of a group's sequence numbers goes up by 1. -/
def State.countIssue (s : State) (cp : Nat) (g : BitVec 12) : State :=
  s.onPort cp (fun p => { p with seqs := mput 0#32 p.seqs g.toNat (s.nextSeq cp g + 1) })

/-- The issue is counted and ACCEPTED (R89, R90). -/
def State.acceptIssue (s : State) (cp : Nat) (g : BitVec 12) : State := (s.countIssue cp g).status cp 0 g (s.nextSeq cp g)

theorem State.countIssue_canon (hs : s.canon) (g : BitVec 12) : (s.countIssue cp g).canon :=
  (Keeps.refl.onPortIn (q := fun _ => true) cp (fun p => { p with seqs := mput 0#32 p.seqs g.toNat (s.nextSeq cp g + 1) }) rfl
    (fun _ => ⟨id, List.prefix_refl _, List.prefix_refl _, List.prefix_refl _⟩)).canon hs

theorem State.acceptIssue_canon (hs : s.canon) (g : BitVec 12) : (s.acceptIssue cp g).canon :=
  (State.status_keeps (.refl (q := fun _ => true)) _ _ _ _ _ _).canon (State.countIssue_canon hs g)

theorem State.acceptIssue_port (hs : s.canon) (g : BitVec 12) : (s.acceptIssue cp g).port cp =
    Port.offer { s.port cp with seqs := mput 0#32 (s.port cp).seqs g.toNat (s.nextSeq cp g + 1) } ⟨0, g, s.nextSeq cp g, false, false⟩ := by
  unfold State.acceptIssue
  rw [State.status_port (State.countIssue_canon hs g), State.countIssue, State.onPort_eq, s.setPort_port_read hs, if_pos rfl]
  rfl

/-- The collective that follows an accepted issue leaves the port's sequence numbers alone. -/
theorem State.issueNow_of_accepted (hn : s.notReady cp = false) (hw : wordOk ws cs 0 = true) (hm : s.isMember (isGroup ws) cp = true) :
    Keeps (fun _ => false) (s.acceptIssue cp (isGroup ws)) (s.issueNow cp ws cs) := by
  unfold State.issueNow
  dsimp only
  rw [if_neg (by simp [hn]), if_neg (by simp [hw]), if_neg (by simp [hm])]
  generalize hu : State.status _ cp 0 _ _ = u
  have hu' : s.acceptIssue cp (isGroup ws) = u := hu
  rw [hu']
  have hpair := State.pair_keeps (Keeps.refl (q := fun _ => false) (s := u)) (isGroup ws) (mget 0#32 (s.port cp).seqs (isGroup ws).toNat)
    (mget 0#32 (s.port cp).seqs (isGroup ws).toNat)
  have hgather := fun f g k ws => State.gather_keeps (State.bindIssue_keeps (hpair.onColl g k f) cp g k ws) g k
  split
  · split
    · exact State.reap_keeps (State.endBinds_keeps (State.endMember_keeps (hgather ..) _ _ _) _ _) _ _
    · exact hgather ..
  · exact hgather ..

end

/-- Settles O12: the accepted issue itself counts, and the collective that follows does not. -/
theorem fusedIssueTakesNextSequenceNumber : Obligations.FusedIssueTakesNextSequenceNumber := by
  unfold Obligations.FusedIssueTakesNextSequenceNumber
  intro s cp ws cs hs hr hn hw hm
  have hport := State.acceptIssue_port (cp := cp.val) hs (isGroup ws)
  obtain ⟨hgrows, hseqs⟩ := (State.issueNow_of_accepted hn hw hm).settle_port (State.acceptIssue_canon hs _)
    (by rw [hport]; exact hr.cmdq_nil)
  rw [hport] at hgrows hseqs
  exact ⟨_, live_command_of_ready hr _ _, hgrows.stq, hseqs,
    ((State.issueNow_keeps .refl _ (decide_eq_true rfl) _ _).settle hs).frame hs⟩

section
variable {s u : State} {cp : Nat} {ws cs : List Word}

/-! ### An issue that is turned away (R88, R91, R110) -/

theorem State.issueNow_of_notReady (hn : s.notReady cp = true) : s.issueNow cp ws cs = s.status cp 3 (isGroup ws) 0 := by
  unfold State.issueNow
  exact if_pos hn

theorem State.issueNow_of_corrupt (hn : s.notReady cp = false) (hw : wordOk ws cs 0 = false) :
    s.issueNow cp ws cs = s.badWord0 cp (wd ws 0) (wd cs 0) := by
  unfold State.issueNow
  dsimp only
  rw [if_neg (by simp [hn]), if_pos hw]

theorem State.issueNow_of_not_member (hn : s.notReady cp = false) (hw : wordOk ws cs 0 = true) (hm : s.isMember (isGroup ws) cp = false) :
    s.issueNow cp ws cs = (s.logEv 0x03 2 1 cp 0 (wd ws 0).toNat (isGroup ws)).status cp 5 (isGroup ws) 0 := by
  unfold State.issueNow
  dsimp only
  rw [if_neg (by simp [hn]), if_neg (by simp [hw]), if_pos hm]

theorem State.logEv_port (s : State) (code cls src unit a0 a1 i : Nat) (g : BitVec 12) (ab : BitVec 8) :
    (s.logEv code cls src unit a0 a1 g ab).port i = s.port i := by
  rw [State.logEv, State.logWrite_eq_gst]
  rfl

/-- The port alone answers a word 0 that fails its complement: CMD_CORRUPT, ATTN CMD, and the latch. -/
def State.corrupt0 (s : State) (cp : Nat) (w c : Word) : State :=
  (((s.logEv 0x04 3 1 cp w.toNat c.toNat).attn 0).status cp 4 0 0).onPort cp (fun p => { p with latched := true })

theorem State.corrupt0_keeps (s : State) (cp : Nat) (w c : Word) : Keeps (fun _ => false) s (s.corrupt0 cp w c) :=
  (State.status_keeps ((Keeps.refl.logEv _ _ _ _ _ _ _ _).attnBit 0) _ _ _ _ _ _).onPort cp _
    (fun _ => ⟨⟨fun _ => rfl, List.prefix_refl _, List.prefix_refl _, List.prefix_refl _⟩, rfl, rfl⟩)

theorem State.corrupt0_port (hs : s.canon) (w c : Word) :
    (s.corrupt0 cp w c).port cp = { (s.port cp).offer ⟨4, 0, 0, false, false⟩ with latched := true } := by
  unfold State.corrupt0
  have hlog : Keeps (fun _ => false) s ((s.logEv 0x04 3 1 cp w.toNat c.toNat).attn 0) := (Keeps.refl.logEv _ _ _ _ _ _ _ _).attnBit 0
  rw [State.onPort_eq, State.setPort_port_read _ ((State.status_keeps hlog _ _ _ _ _ _).canon hs), if_pos rfl,
    State.status_port (hlog.canon hs), State.logEv, State.logWrite_eq_gst]
  rfl

theorem State.corrupt0_attn (s : State) (cp : Nat) (w c : Word) : (s.corrupt0 cp w c).gst.attn.getLsbD 0 = true :=
  State.attn_getLsbD_self (s.logEv 0x04 3 1 cp w.toNat c.toNat) (by decide)

theorem State.badWord0_of_corrupt0 (s : State) (cp : Nat) (w c : Word) : Keeps (fun _ => false) (s.corrupt0 cp w c) (s.badWord0 cp w c) := by
  unfold State.badWord0
  exact Keeps.foldl .refl _ _ (fun _ _ k => State.report_keeps k _ _ _ _ _ _ _)

end

/-- Settles O13, by the reason for which the issue is turned away. -/
theorem fusedIssueTurnedAway : Obligations.FusedIssueTurnedAway := by
  unfold Obligations.FusedIssueTurnedAway
  intro s cp ws cs hs hr hwhy
  refine ⟨_, live_command_of_ready hr _ _, ?_⟩
  have hsettle {u : State} (hu : u.canon) := (State.settle_keeps hu).ports hu cp.val
  cases hn : s.notReady cp.val with
  | true =>
    rw [State.issueNow_of_notReady hn]
    have k : Keeps (fun _ => false) s (s.status cp.val 3 (isGroup ws) 0) := State.status_keeps .refl _ _ _ _ _ _
    refine ⟨(k.settle_port hs hr.cmdq_nil).2, fun _ => ?_, Bool.noConfusion, Bool.noConfusion, (k.settle hs).frame hs⟩
    have hgrows := hsettle (k.canon hs)
    rw [State.status_port hs] at hgrows
    exact hgrows.stq
  | false =>
    cases hw : wordOk ws cs 0 with
    | false =>
      rw [State.issueNow_of_corrupt hn hw]
      have k := State.corrupt0_keeps s cp.val (wd ws 0) (wd cs 0)
      have kr := State.badWord0_of_corrupt0 s cp.val (wd ws 0) (wd cs 0)
      have hgrows := (kr.settle (k.canon hs)).ports (k.canon hs) cp.val
      rw [State.corrupt0_port hs] at hgrows
      exact ⟨((k.trans kr).settle_port hs hr.cmdq_nil).2, Bool.noConfusion,
        fun _ _ => ⟨hgrows.stq, hgrows.latched rfl, (kr.settle (k.canon hs)).attn 0 (State.corrupt0_attn s cp.val _ _)⟩,
        fun _ => Bool.noConfusion, ((k.trans kr).settle hs).frame hs⟩
    | true =>
      have hm : s.isMember (isGroup ws) cp.val = false := by simpa [hn, hw] using hwhy
      rw [State.issueNow_of_not_member hn hw hm]
      have hlog : Keeps (fun _ => false) s (s.logEv 0x03 2 1 cp.val 0 (wd ws 0).toNat (isGroup ws)) := Keeps.refl.logEv _ _ _ _ _ _ _ _
      have k := State.status_keeps hlog cp.val 5 (isGroup ws) 0
      have hgrows := hsettle (k.canon hs)
      rw [State.status_port (hlog.canon hs), State.logEv_port] at hgrows
      exact ⟨(k.settle_port hs hr.cmdq_nil).2, Bool.noConfusion, fun _ => Bool.noConfusion, fun _ _ => hgrows.stq, (k.settle hs).frame hs⟩

end Sys2Proof.Machine

/-! PROOFS. Credits that return, and ALL_SENT (R204, Table EX-7). -/

namespace Sys2Proof.Machine

-- one thread: the text is compiled as a whole, and each waiting thread holds its own stack
set_option Elab.async false

section
variable {s : State} {m : Msg} {g : BitVec 12} {k : Word} {c : Coll}

theorem State.coll?_takeMsg (s : State) (m : Msg) (g : BitVec 12) (k : Word) : (s.takeMsg m).coll? g k = s.coll? g k := rfl

/-- A command that is over once what follows it has run. -/
theorem live_settled {u : State} (ha : s.alive = true) (f : State → State) (h : f s = u) : live s (fun s => (f s).settle) = .next u.settle := by
  rw [live_of_alive _ ha, h]

/-- The first member of the core port that has something outstanding is the one that the credit names. -/
theorem owing_find {l : List Member} {cp : Nat} (h : ∃ x ∈ l, x.cp = cp ∧ x.ex.owed ≠ 0) :
    (l.find? (fun x => decide (x.cp = cp) && decide (x.ex.owed ≠ 0))).map (fun x => x.cp) = some cp := by
  obtain ⟨x, hx, hcp, how⟩ := h
  cases hfind : l.find? (fun x => decide (x.cp = cp) && decide (x.ex.owed ≠ 0)) with
  | none => simpa [hcp, how] using List.find?_eq_none.mp hfind x hx
  | some y =>
    have hy := List.find?_some hfind
    simp only [Bool.and_eq_true, decide_eq_true_eq] at hy
    exact congrArg some hy.1

theorem State.onXcred_of_owing (hc : s.coll? m.group m.seq = some c) {cp n : Nat} (hm : m.body = .xcred cp n)
    (h : ∃ x ∈ c.members, x.cp = cp ∧ x.ex.owed ≠ 0) :
    s.onXcred m = s.putColl (c.onMember cp (fun x => { x with ex := { x.ex with owed := x.ex.owed - n } })) := by
  have hwho := owing_find h
  unfold State.onXcred
  rw [hm]
  dsimp only
  rw [State.coll_of_some hc, Option.map_or, hwho]
  exact State.onColl_eq_putColl hc (fun c => c.onMember cp (fun x => { x with ex := { x.ex with owed := x.ex.owed - n } })) rfl rfl

/-- ALL_SENT where every route that is placed has its contribution: the record is marked, and the chains that it addresses pass it on. -/
theorem State.applyAllSent_of_placed (hc : s.coll? g k = some c) (hst : c.st = .opened) (hd : c.decided = none) (hall : c.allSent = false)
    (hgot : c.members.all (fun x => x.ex.toks.all (fun t => t.routes.all (fun r => !r.placed || r.got.isSome))) = true) (level : Nat) :
    ((s.applyAllSent g k level).coll? g k).map Coll.core = some { c.core with allSent := true }
      ∧ (s.applyAllSent g k level).ports = s.ports := by
  have hnone : c.members.find? (fun m => m.ex.toks.any (fun t => t.routes.any (fun r => r.placed && r.got.isNone))) = none := by
    simpa [List.find?_eq_none, Option.isSome_iff_ne_none, Bool.not_eq_true', imp_iff_not_or] using hgot
  unfold State.applyAllSent
  rw [hc]
  dsimp only
  rw [if_neg (by simp [hst, hd]), if_neg (by simp [hall]), hnone]
  dsimp only
  generalize hu : (s.addressed c level).foldl _ s = u
  have hcore : SameCore s u := hu ▸ SameCore.foldl .refl _ _ (fun _ _ h => h.trans (State.sendDown_core _ _ _ _ _ _))
  have honly : Only [.gst, .colls, .stakes, .vc0] s u := hu ▸ Only.foldl .refl _ _ (fun _ _ h => State.sendDown_only h _ _ _ _ _)
  obtain ⟨c', hc', hcc⟩ := hcore.some hc
  constructor
  · rw [State.onColl_coll_of_some hc' rfl rfl]
    exact congrArg (fun x : Coll => some { x with allSent := true }) hcc
  · exact (State.onColl_only honly _ _ _).ports (by decide)

end

/-- Settles O28, by the message. -/
theorem creditsReturn : Obligations.CreditsReturn := by
  unfold Obligations.CreditsReturn
  intro s m c ha hc
  refine ⟨fun l p n hm => ?_, fun cp n hm howe => ?_, fun hm hst hd hall hgot => ?_⟩
  · refine live_settled ha (fun s => (s.takeMsg m).onWcred m) ?_
    unfold State.onWcred
    rw [hm]
    exact State.onColl_eq_putColl (s := s.takeMsg m) hc (fun c => { c with credits := mput 0 c.credits l (mget 0 c.credits l - n) }) rfl rfl
  · exact live_settled ha (fun s => (s.takeMsg m).onXcred m) (State.onXcred_of_owing (s := s.takeMsg m) hc hm howe)
  · refine ⟨(s.takeMsg m).applyAllSent m.group m.seq m.level, live_settled ha (fun s => (s.takeMsg m).onAllSent m) ?_,
      State.applyAllSent_of_placed (s := s.takeMsg m) hc hst hd hall hgot m.level⟩
    unfold State.onAllSent
    rw [hm]

end Sys2Proof.Machine

/-! PROOFS. Decisions at a die that holds two records of one name: what the update port emits for the second is written over the first. -/

namespace Sys2Proof.Machine

-- one thread: the text is compiled as a whole, and each waiting thread holds its own stack
set_option Elab.async false

/-- An OPEN collective at its deadline, which delivers to the update port (DEST 1). -/
def dueColl : Coll := { reportedColl with st := .opened }

/-- The root of the collective, with `sealedColl` under the same name. -/
def dueState : State := { twinState with colls := [dueColl, sealedColl] }

theorem exec_boundExpiry_of_alive {s : State} (g : BitVec 12) (k : Word) (ha : s.alive = true) :
    exec (.boundExpiry g k) s = .next (match s.coll? g k with
      | some c => if s.boundExpired c then s.decideAbort g k 8 0 0 s.own else s
      | none => s) :=
  live_of_alive (fun s => match s.coll? g k with
    | some c => if s.boundExpired c then s.decideAbort g k 8 0 0 s.own else s
    | none => s) ha

/-- The abort record waits behind the seal of the other record, which the port emits first. -/
theorem dueState_st : ((dueState.decideAbort 0 0 8 0 0 dueState.own).coll? 0 0).map (fun c => (c.st, c.decided)) = some (.ended, none) := by
  decide +kernel

/-- Refutes O22: at the deadline of `dueColl` the record that the root finds afterwards is `sealedColl` without its seal, ended and not
decided. The statement does not ask that no two records have one name. -/
theorem not_expiryDecidesAbort : ¬ Obligations.ExpiryDecidesAbort := by
  unfold Obligations.ExpiryDecidesAbort
  intro h
  obtain ⟨-, hbound, -, -⟩ := h dueState 0 0 dueColl rfl rfl
  have hdue : dueState.boundExpired dueColl = true := by decide +kernel
  obtain ⟨t, hexec, hst, -⟩ := hbound hdue
  have ht : dueState.decideAbort 0 0 8 0 0 dueState.own = t := by
    refine Host.Outcome.next.inj (Eq.trans (Eq.symm ?_) hexec)
    exact (exec_boundExpiry_of_alive 0 0 rfl).trans (congrArg Host.Outcome.next (if_pos hdue))
  rw [← ht, dueState_st] at hst
  exact absurd hst (by decide)

/-- A fault report from die 0, with ABORT_CORRUPT. -/
def corruptMsg : Msg := ⟨0, 0, 0, 0, 0, 0, .fault 2 3 0 0 none⟩

theorem exec_fault_of_alive {s : State} (m : Msg) (ha : s.alive = true) : exec (.fault m) s = .next ((s.takeMsg m).onFault m) :=
  live_of_alive (fun s => (s.takeMsg m).onFault m) ha

theorem twinState_fault_st : (((twinState.takeMsg corruptMsg).onFault corruptMsg).coll? 0 0).map (fun c => (c.st, c.decided)) = some (.ended, none) := by
  decide +kernel

theorem twinState_canon : twinState.canon := by
  unfold State.canon
  decide +kernel

/-- Refutes O26: the first fault report of `reportedColl` leaves `sealedColl` without its seal under the name, ended and not decided.
The statement does not ask that no two records have one name. -/
theorem not_faultReportDecidesOnce : ¬ Obligations.FaultReportDecidesOnce := by
  unfold Obligations.FaultReportDecidesOnce
  intro h
  obtain ⟨-, hfirst, -⟩ := h twinState corruptMsg 2 3 0 0 none twinState_canon rfl rfl rfl
  obtain ⟨t, hexec, hst, -⟩ := hfirst reportedColl rfl rfl
  have ht : (twinState.takeMsg corruptMsg).onFault corruptMsg = t :=
    Host.Outcome.next.inj ((exec_fault_of_alive corruptMsg rfl).symm.trans hexec)
  rw [← ht] at hst
  exact absurd (twinState_fault_st.symm.trans hst) (by decide)

end Sys2Proof.Machine

/-! PROOFS. REFUSE at the chains of a die's gather tree (R95). -/

namespace Sys2Proof.Machine

-- one thread: the text is compiled as a whole, and each waiting thread holds its own stack
set_option Elab.async false

section
variable {s t : State} {g : BitVec 12} {k : Word} {c : Coll} {ch : Chain}

/-! ### The chain of the die's own members -/

theorem State.chainsFrom_tail_not_mem (s : State) (grp : Group) (rd : Nat) {ls : List Nat} (h : 0 ∉ ls) (acc : List Nat) :
    (∀ ch ∈ (s.chainsFrom grp rd acc ls).tail, ch.mem = false) ∧ (0 ∉ acc → ∀ ch ∈ s.chainsFrom grp rd acc ls, ch.mem = false) := by
  induction ls generalizing acc with
  | nil => exact ⟨fun _ hx => absurd hx List.not_mem_nil, fun _ _ hx => absurd hx List.not_mem_nil⟩
  | cons l ls ih =>
    obtain ⟨hl, hls⟩ : 0 ≠ l ∧ 0 ∉ ls := by simpa using h
    have hmem (id : Nat) (out : Next) (hacc : 0 ∉ acc) : (⟨id, acc ++ [l], out⟩ : Chain).mem = false := by
      simp [Chain.mem, hacc, hl]
    have hrest := (ih hls []).2 List.not_mem_nil
    unfold State.chainsFrom
    split
    · have hnext := ih hls (acc ++ [l])
      exact ⟨hnext.1, fun hacc => hnext.2 (by simp [hacc, hl])⟩
    · exact ⟨hrest, fun hacc => List.forall_mem_cons.mpr ⟨hmem _ _ hacc, hrest⟩⟩
    · exact ⟨hrest, fun hacc => List.forall_mem_cons.mpr ⟨hmem _ _ hacc, hrest⟩⟩

/-- The chain of the members is the first one. -/
theorem State.chains_tail_not_mem (s : State) (grp : Group) (rd : Nat) : ∀ ch ∈ (s.chains grp rd).tail, ch.mem = false := by
  have hstages : 0 ∉ s.stages grp rd := fun h => absurd (List.mem_of_mem_filter h) (by decide)
  unfold State.chains
  split
  · have hrest := s.chainsFrom_tail_not_mem grp rd hstages
    rw [List.singleton_append, State.chainsFrom]
    split
    · exact (hrest _).1
    · exact (hrest []).2 List.not_mem_nil
    · exact (hrest []).2 List.not_mem_nil
  · exact (s.chainsFrom_tail_not_mem grp rd hstages []).1

/-! ### REFUSE at one chain -/

theorem State.coll?_of (h : t.colls = s.colls) (g : BitVec 12) (k : Word) : t.coll? g k = s.coll? g k := by
  unfold State.coll?
  rw [h]

/-- A record without what REFUSE writes on its way: the chains that have had it, and the legs. -/
def Coll.unrefused (c : Coll) : Coll := { c with tokSegs := [], legs := [] }

/-- REFUSED of the collective of group `g` that has the number `k` at its member (Table PI-15). -/
def refusedStatus (g : BitVec 12) (k : Word) : Status := ⟨2, g, k, true, false⟩

/-- REFUSE goes on over the edges below a chain. -/
def State.refuseBelow (s : State) (g : BitVec 12) (c : Coll) (ch : Chain) : State :=
  (s.kidsOf (s.group g) (s.group g).home ch).foldl (fun t x =>
    t.sendEdge x.1 (subField x.1 s.own) x.2.2 g (c.kidSeq x.1 x.2.1) .refuse) s

/-- Members get REFUSED. -/
def State.refuseMembers (s : State) (g : BitVec 12) (l : List Member) : State := l.foldl (fun t m => t.status m.cp 2 g m.k true) s

theorem State.refuseChain_of_new (hc : s.coll? g k = some c) (hnew : c.tokSegs.contains ch.id = false) :
    s.refuseChain g k ch = (if ch.mem then (s.refuseBelow g c ch).refuseMembers g (c.members.filter (fun m => !m.ended))
      else s.refuseBelow g c ch).onColl g k (fun c => { c with tokSegs := c.tokSegs ++ [ch.id] }) := by
  unfold State.refuseChain
  rw [State.coll_of_some hc]
  exact if_neg (by rw [hnew]; exact Bool.noConfusion)

theorem State.refuseBelow_core (s : State) (g : BitVec 12) (c : Coll) (ch : Chain) : SameCore s (s.refuseBelow g c ch) :=
  SameCore.foldl .refl _ _ (fun _ _ h => h.trans (State.sendEdge_core _ _ _ _ _ _ _ _))

theorem State.refuseBelow_keeps (s : State) (g : BitVec 12) (c : Coll) (ch : Chain) : Keeps (fun _ => false) s (s.refuseBelow g c ch) :=
  Keeps.foldl .refl _ _ (fun _ _ h => State.sendEdge_keeps h _ _ _ _ _ _ _)

theorem State.refuseMembers_only (s : State) (g : BitVec 12) (l : List Member) : Only [.ports] s (s.refuseMembers g l) :=
  Only.foldl .refl _ _ (fun _ _ h => State.status_only h _ _ _ _ _ _)

theorem State.refuseMembers_refused (hs : s.canon) (g : BitVec 12) (l : List Member) :
    ∀ x ∈ l, refusedStatus g x.k ∈ ((s.refuseMembers g l).port x.cp).stq := by
  induction l generalizing s with
  | nil => exact fun x hx => absurd hx List.not_mem_nil
  | cons y l ih =>
    have hy : (s.status y.cp 2 g y.k true).canon := (State.status_keeps (q := fun _ => false) .refl _ _ _ _ _ _).canon hs
    intro x hx
    rcases List.mem_cons.mp hx with rfl | hx
    · have hrest : Keeps (fun _ => false) (s.status x.cp 2 g x.k true) (s.refuseMembers g (x :: l)) :=
        Keeps.foldl .refl _ _ (fun _ _ h => State.status_keeps h _ _ _ _ _ _)
      refine hrest.mem_stq hy ?_
      rw [State.status_port hs]
      exact List.mem_append_right _ List.mem_cons_self
    · exact ih hy x hx

/-- What REFUSE leaves of a record at some chains: they have had it. -/
structure Coll.Refused (c : Coll) (l : List Chain) (c' : Coll) : Prop where
  rest : c'.unrefused = c.unrefused
  past : ∀ i, c.tokSegs.contains i = true → c'.tokSegs.contains i = true
  now : ∀ ch ∈ l, c'.tokSegs.contains ch.id = true

theorem State.refuseChain_record (hc : s.coll? g k = some c) (ch : Chain) :
    ∃ c', (s.refuseChain g k ch).coll? g k = some c' ∧ c.Refused [ch] c' := by
  cases hnew : c.tokSegs.contains ch.id with
  | true =>
    have hsame : s.refuseChain g k ch = s := by
      unfold State.refuseChain
      rw [State.coll_of_some hc]
      exact if_pos hnew
    rw [hsame]
    exact ⟨c, hc, rfl, fun _ hi => hi, fun x hx => by rwa [List.mem_singleton.mp hx]⟩
  | false =>
    obtain ⟨c1, hc1, hcore⟩ := (s.refuseBelow_core g c ch).some hc
    have hput : (if ch.mem then (s.refuseBelow g c ch).refuseMembers g (c.members.filter (fun m => !m.ended))
        else s.refuseBelow g c ch).coll? g k = some c1 := by
      split
      · exact (State.coll?_of ((State.refuseMembers_only _ g _).colls (by decide)) g k).trans hc1
      · exact hc1
    have hrest : c1.unrefused = c.unrefused := (congrArg Coll.unrefused hcore :)
    have hsegs : c1.tokSegs = c.tokSegs := (congrArg Coll.tokSegs hcore :)
    rw [State.refuseChain_of_new hc hnew]
    refine ⟨_, State.onColl_coll_of_some hput rfl rfl, hrest, fun i hi => ?_, fun x hx => ?_⟩
    · simp_all
    · simp_all

theorem State.refuseChains_record (hc : s.coll? g k = some c) (l : List Chain) :
    ∃ c', (l.foldl (fun t ch => t.refuseChain g k ch) s).coll? g k = some c' ∧ c.Refused l c' := by
  induction l generalizing s c with
  | nil => exact ⟨c, hc, rfl, fun _ hi => hi, fun _ hx => absurd hx List.not_mem_nil⟩
  | cons ch l ih =>
    obtain ⟨c1, hc1, h1⟩ := State.refuseChain_record hc ch
    obtain ⟨c2, hc2, h2⟩ := ih hc1
    refine ⟨c2, hc2, h2.rest.trans h1.rest, fun i hi => h2.past i (h1.past i hi), List.forall_mem_cons.mpr ⟨?_, h2.now⟩⟩
    exact h2.past _ (h1.now ch List.mem_cons_self)

theorem State.refuseChain_refused (hs : s.canon) (hc : s.coll? g k = some c) (hnew : c.tokSegs.contains ch.id = false) (hmem : ch.mem = true) :
    ∀ x ∈ c.members, x.ended = false → refusedStatus g x.k ∈ ((s.refuseChain g k ch).port x.cp).stq := by
  intro x hx hend
  rw [State.refuseChain_of_new hc hnew, if_pos hmem]
  have hbelow := (s.refuseBelow_keeps g c ch).canon hs
  have hmembers : Keeps (fun _ => false) (s.refuseBelow g c ch)
      ((s.refuseBelow g c ch).refuseMembers g (c.members.filter (fun m => !m.ended))) :=
    Keeps.foldl .refl _ _ (fun _ _ h => State.status_keeps h _ _ _ _ _ _)
  refine (Keeps.onColl (q := fun _ => false) .refl _ _ _).mem_stq (hmembers.canon hbelow) ?_
  exact State.refuseMembers_refused hbelow g _ x (List.mem_filter.mpr ⟨hx, by rw [hend]; rfl⟩)

/-! ### REFUSE at every chain -/

theorem State.halt_core (s : State) (c code addr : Nat) (e : Option (BitVec 12 × Word)) : SameCore s (s.halt c code addr e) := by
  unfold State.halt
  refine SameCore.foldl ?_ _ _ (fun _ _ h => h.trans (State.report_core _ _ _ _ _ _ _ _))
  refine .of_colls (Only.colls (w := [.gst, .chans, .fdw]) ?_ (by decide))
  have hlog : Only [.gst, .chans, .fdw] s ((s.orphan c).setChan c ((s.chan c).halted code addr)) :=
    State.setChan_only (State.orphan_only .refl c) c _
  split
  · exact State.logEv_only hlog _ _ _ _ _ _ _ _
  · exact State.pulse_only (State.attn_only (State.logEv_only hlog _ _ _ _ _ _ _ _) _) _ _

theorem State.endBinds_core (s : State) (g : BitVec 12) (k : Word) : SameCore s (s.endBinds g k) := by
  unfold State.endBinds
  refine SameCore.foldl .refl _ _ (fun _ _ h => ?_)
  split
  · exact h.trans (State.halt_core _ _ _ _ _)
  · exact h

theorem SameCore.coll?_none (h : SameCore s t) (hc : s.coll? g k = none) : t.coll? g k = none := by
  have hg := h g k
  rw [hc] at hg
  exact Option.map_eq_none_iff.mp hg

/-- The records of one name leave the die. -/
def State.dropColl (s : State) (g : BitVec 12) (k : Word) : State := { s with colls := s.colls.filter (fun x => !x.is g k) }

theorem State.dropColl_coll (s : State) (g : BitVec 12) (k : Word) : (s.dropColl g k).coll? g k = none :=
  List.find?_eq_none.mpr fun x hx => by simpa using (List.mem_filter.mp hx).2

/-- REFUSE reaches every chain of the gather tree of a collective that is not admitted: it leaves the die. -/
theorem State.applyRefuse_of_all (hc : s.coll? g k = some c) (hst : c.st = .gather ∨ c.st = .queued) (hadm : c.adm = false) {level : Nat}
    (hall : ∀ ch ∈ s.chains (s.group g) (s.group g).home, level = 0 ∨ ch.id = level) :
    s.applyRefuse g k level =
      (((s.chains (s.group g) (s.group g).home).foldl (fun t ch => t.refuseChain g k ch) s).dropColl g k).endBinds g k := by
  have hname := (s.coll_name hc).1
  have haddr : s.addressed c level = s.chains (s.group g) (s.group g).home := by
    unfold State.addressed State.treeRoot
    simp only [hadm, hname, Bool.false_eq_true, if_false]
    split
    · rfl
    · exact List.filter_eq_self.mpr fun ch hch => by simpa using (hall ch hch).resolve_left ‹_›
  obtain ⟨c', hc', hrest, -, hnow⟩ := State.refuseChains_record hc (s.chains (s.group g) (s.group g).home)
  have honly : Only [.gst, .ports, .colls, .stakes, .vc0] s
      ((s.chains (s.group g) (s.group g).home).foldl (fun t ch => t.refuseChain g k ch) s) :=
    Only.foldl .refl _ _ (fun _ _ h => State.refuseChain_only h _ _ _)
  have hadm' : c'.adm = false := ((congrArg Coll.adm hrest :) : c'.adm = c.adm).trans hadm
  unfold State.applyRefuse
  rw [hc]
  dsimp only
  rw [if_neg (by rcases hst with h | h <;> simp [h]), haddr, State.coll_of_some hc']
  refine if_pos ?_
  unfold State.tokensPassed State.treeRoot
  rw [hadm', (State.coll_name _ hc').1, State.group_of (honly.img (by decide)), State.chains_of (honly.img (by decide)) (honly.wl (by decide))]
  exact List.all_eq_true.mpr hnow

theorem State.refuseChains_refused (hs : s.canon) (hc : s.coll? g k = some c) (hsegs : c.tokSegs = []) {grp : Group} {rd : Nat}
    (hmem : ∃ ch ∈ s.chains grp rd, ch.mem = true) : ∀ x ∈ c.members, x.ended = false →
      refusedStatus g x.k ∈ (((s.chains grp rd).foldl (fun t ch => t.refuseChain g k ch) s).port x.cp).stq := by
  intro x hx hend
  have htail := s.chains_tail_not_mem grp rd
  obtain ⟨ch, hch, hm⟩ := hmem
  cases hl : s.chains grp rd with
  | nil => rw [hl] at hch; exact absurd hch List.not_mem_nil
  | cons ch0 l =>
    rw [hl] at hch htail
    obtain rfl : ch = ch0 := (List.mem_cons.mp hch).resolve_right fun h => by simp [htail ch h] at hm
    have hfirst := State.refuseChain_keeps (q := fun _ => false) (.refl (s := s)) g k ch
    have hrest : Keeps (fun _ => false) (s.refuseChain g k ch) (l.foldl (fun t ch => t.refuseChain g k ch) (s.refuseChain g k ch)) :=
      Keeps.foldl .refl _ _ (fun _ _ h => State.refuseChain_keeps h _ _ _)
    exact hrest.mem_stq (hfirst.canon hs) (State.refuseChain_refused hs hc (by rw [hsegs]; rfl) hm x hx hend)

end

theorem State.onRefuse_of_above {s : State} {m : Msg} (hm : m.body = .refuse)
    (h : m.level = 0 ∨ s.chainAt (s.group m.group) (s.group m.group).home m.level = none) :
    s.onRefuse m = s.applyRefuse m.group m.seq m.level := by
  unfold State.onRefuse
  rw [hm]
  exact if_neg fun ⟨hl, hch⟩ => by rcases h with h | h <;> simp_all

theorem State.group_takeMsg (s : State) (m : Msg) (g : BitVec 12) : (s.takeMsg m).group g = s.group g := State.group_of (s.takeMsg_img m) g

theorem State.chains_takeMsg (s : State) (m : Msg) (grp : Group) (rd : Nat) : (s.takeMsg m).chains grp rd = s.chains grp rd :=
  State.chains_of (s.takeMsg_img m) (s.takeMsg_wl m) grp rd

theorem State.chainAt_takeMsg (s : State) (m : Msg) (grp : Group) (rd l : Nat) : (s.takeMsg m).chainAt grp rd l = s.chainAt grp rd l := by
  unfold State.chainAt
  rw [State.chains_takeMsg]

/-- Settles O21: at every chain by `State.applyRefuse_of_all`, and `State.refuseChains_refused` gives the statuses. -/
theorem refuseEndsMembers : Obligations.RefuseEndsMembers := by
  unfold Obligations.RefuseEndsMembers
  intro s m hs ha hm habove
  rw [← s.chainAt_takeMsg m, ← s.group_takeMsg m] at habove
  simp only [← s.chains_takeMsg m, ← s.group_takeMsg m]
  have hexec := live_settled ha (fun s => (s.takeMsg m).onRefuse m) (State.onRefuse_of_above hm habove)
  have hcanon : (s.takeMsg m).canon := hs
  refine ⟨fun c hc hst hadm hsegs hall hmem => ⟨_, hexec, ?_⟩, fun hc => hexec.trans ?_⟩
  · have hkeeps := State.applyRefuse_keeps (q := fun _ => false) (.refl (s := s.takeMsg m)) m.group m.seq m.level
    have hchains : Keeps (fun _ => false) (s.takeMsg m) (((s.takeMsg m).chains ((s.takeMsg m).group m.group) ((s.takeMsg m).group m.group).home).foldl
        (fun t ch => t.refuseChain m.group m.seq ch) (s.takeMsg m)) := Keeps.foldl .refl _ _ (fun _ _ h => State.refuseChain_keeps h _ _ _)
    have heq := State.applyRefuse_of_all (s := s.takeMsg m) hc hst hadm hall
    refine ⟨?_, fun x hx hend => ?_, fun i => (hkeeps.ports hcanon i).stq⟩
    · rw [heq]
      exact (State.endBinds_core _ _ _).coll?_none (State.dropColl_coll _ _ _)
    · rw [heq]
      exact (State.endBinds_keeps (q := fun _ => false) (Keeps.colls .refl _) _ _).mem_stq (hchains.canon hcanon)
        (State.refuseChains_refused hcanon hc hsegs (hmem (List.ne_nil_of_mem hx)) x hx hend)
  · have hunknown : (s.takeMsg m).applyRefuse m.group m.seq m.level = s.takeMsg m := by
      unfold State.applyRefuse
      rw [State.coll?_takeMsg, hc]
    rw [hunknown]
    rfl

end Sys2Proof.Machine

/-! PROOFS. Requests to suspend and to resume a group (R113, R114, R422). -/

namespace Sys2Proof.Machine

-- one thread: the text is compiled as a whole, and each waiting thread holds its own stack
set_option Elab.async false

section
variable {s : State} {v : Word}

/-- GROUP and OP as a request stores them. -/
def State.suspStored (s : State) (v : Word) : State :=
  { s with col := { s.col with suspGroup := v.setWidth 12, suspOp := BitVec.ofNat 2 (wf_ v 13 12) } }

/-- COL_SUSP_STATUS of a request that is taken: its state, and its group. -/
def State.suspTaken (s : State) (v : Word) (st : BitVec 3) : State := (s.suspStored v).suspStart st (v.setWidth 12)

theorem State.suspRequest_busy (h : s.suspHandling = true) : s.suspRequest v = s.suspStored v := by
  unfold State.suspRequest
  exact if_pos (.inr (.inr (.inr h)))

/-- A request that asks for something, while none is under way. -/
theorem State.suspRequest_free (hgo : v.getLsbD 14 = true) (hop : wf_ v 13 12 = 1 ∨ wf_ v 13 12 = 2) (h : s.suspHandling = false) :
    s.suspRequest v =
      if s.feat 7 = false ∨ (s.group (v.setWidth 12)).v = false then s.suspTaken v 6
      else if wf_ v 13 12 = 1 ∧ (s.susp (v.setWidth 12)).st ≠ .none then s.suspTaken v 4
      else if wf_ v 13 12 = 2 ∧ (s.susp (v.setWidth 12)).st ≠ .suspended then s.suspTaken v 5
      else (s.suspTaken v (if wf_ v 13 12 = 1 then 1 else 2)).sendAll (s.group (v.setWidth 12)).dieList (v.setWidth 12) 0
        (.susp (BitVec.ofNat 8 (wf_ v 13 12)) s.col.suspAddr) := by
  have hbit : wbit v 14 = true := hgo
  unfold State.suspRequest
  dsimp only
  rw [if_neg (by rw [hbit, h]; rcases hop with h | h <;> simp [h])]
  rfl

theorem State.suspHandling_iff (s : State) : s.suspHandling = true ↔ s.col.suspSt = 1 ∨ s.col.suspSt = 2 := by
  simp [State.suspHandling]

/-- What a request that is answered at once leaves: its registers and nothing else. -/
structure SuspAnswered (s : State) (v : Word) (st : BitVec 3) (t : State) : Prop where
  group : t.col.suspGroup = v.setWidth 12
  op : t.col.suspOp = BitVec.ofNat 2 (wf_ v 13 12)
  susp : t.col.susp = s.col.susp
  st : t.col.suspSt = st
  grp : t.col.suspGrp = v.setWidth 12

theorem State.suspTaken_answered (s : State) (v : Word) (st : BitVec 3) : SuspAnswered s v st (s.suspTaken v st) := ⟨rfl, rfl, rfl, rfl, rfl⟩

theorem SuspAnswered.sendAll {st : BitVec 3} {t : State} (h : SuspAnswered s v st t) (l : List Nat) (g : BitVec 12) (k : Word) (b : Body) :
    SuspAnswered s v st (t.sendAll l g k b) := by
  have hcol : (t.sendAll l g k b).col = t.col := (State.sendAll_only (w := [.gst, .colls, .stakes, .vc0]) .refl _ _ _ _ _).col (by decide)
  exact ⟨by rw [hcol, h.group], by rw [hcol, h.op], by rw [hcol, h.susp], by rw [hcol, h.st], by rw [hcol, h.grp]⟩

theorem State.sendAll_own (s : State) (g : BitVec 12) (k : Word) (b : Body) :
    s.sendAll [s.own] g k b = s.post ⟨g, k, s.wl.dieId, 0, 0, 0, b⟩ := State.send_own rfl g k b 0

end

section
variable {s : State} {v : Word} (hgo : v.getLsbD 14 = true) (hfree : s.suspHandling = false)
include hgo hfree

/-- R422: FAIL without the feature or for a group that the image does not define. -/
theorem State.suspRequest_fail (hop : wf_ v 13 12 = 1 ∨ wf_ v 13 12 = 2) (h : s.feat 7 = false ∨ (s.group (v.setWidth 12)).v = false) :
    s.suspRequest v = s.suspTaken v 6 := by
  rw [State.suspRequest_free hgo hop hfree, if_pos h]

variable (hdef : ¬(s.feat 7 = false ∨ (s.group (v.setWidth 12)).v = false))
include hdef

theorem State.suspRequest_not_running (hop : wf_ v 13 12 = 1) (hst : (s.susp (v.setWidth 12)).st ≠ .none) :
    s.suspRequest v = s.suspTaken v 4 := by
  rw [State.suspRequest_free hgo (.inl hop) hfree, if_neg hdef, if_pos ⟨hop, hst⟩]

theorem State.suspRequest_not_suspended (hop : wf_ v 13 12 = 2) (hst : (s.susp (v.setWidth 12)).st ≠ .suspended) :
    s.suspRequest v = s.suspTaken v 5 := by
  rw [State.suspRequest_free hgo (.inr hop) hfree, if_neg hdef, if_neg (fun h => absurd (hop.symm.trans h.1) (by decide)), if_pos ⟨hop, hst⟩]

/-- The request starts: its state is DRAINING or RELOADING, and SUSP goes to every die of the group. -/
theorem State.suspRequest_starts (h : (wf_ v 13 12 = 1 ∧ (s.susp (v.setWidth 12)).st = .none)
    ∨ (wf_ v 13 12 = 2 ∧ (s.susp (v.setWidth 12)).st = .suspended)) :
    s.suspRequest v = (s.suspTaken v (BitVec.ofNat 3 (wf_ v 13 12))).sendAll (s.group (v.setWidth 12)).dieList (v.setWidth 12) 0
      (.susp (BitVec.ofNat 8 (wf_ v 13 12)) s.col.suspAddr) := by
  rcases h with ⟨hop, hst⟩ | ⟨hop, hst⟩
  · rw [State.suspRequest_free hgo (.inl hop) hfree, if_neg hdef, if_neg (fun h => h.2 hst), if_neg (fun h => absurd (hop.symm.trans h.1) (by decide)),
      if_pos hop, hop]
    rfl
  · have hone : ¬wf_ v 13 12 = 1 := fun h => absurd (hop.symm.trans h) (by decide)
    rw [State.suspRequest_free hgo (.inr hop) hfree, if_neg hdef, if_neg (fun h => hone h.1), if_neg (fun h => h.2 hst), if_neg hone, hop]
    rfl

end

/-- Settles O35: `State.suspRequest_free` branch by branch. -/
theorem suspendAndResumeAreRequested : Obligations.SuspendAndResumeAreRequested := by
  unfold Obligations.SuspendAndResumeAreRequested
  rintro s v g op c hs ha hc rfl rfl hgo hop
  have hexec : exec c s = .next (s.suspRequest v) := by
    rcases hc with rfl | rfl
    · exact live_of_alive (fun s => s.suspRequest v) ha
    · exact live_of_alive (fun s => s.suspRequest v) ha
  refine ⟨s.suspRequest v, hexec, ?_⟩
  cases hbusy : s.suspHandling with
  | true =>
    rw [State.suspRequest_busy hbusy]
    have hst := s.suspHandling_iff.mp hbusy
    exact ⟨rfl, rfl, rfl, fun _ => ⟨rfl, rfl⟩, fun h1 h2 => absurd hst (not_or.mpr ⟨h1, h2⟩)⟩
  | false =>
    have hst : ¬(s.col.suspSt = 1 ∨ s.col.suspSt = 2) := fun h => by simp [s.suspHandling_iff.mpr h] at hbusy
    suffices h : (∃ st, SuspAnswered s v st (s.suspRequest v)) ∧ _ by
      obtain ⟨⟨st, hans⟩, hrest⟩ := h
      exact ⟨hans.group, hans.op, hans.susp, fun h => absurd h hst, fun _ _ => ⟨hans.grp, hrest⟩⟩
    by_cases hdef : s.feat 7 = false ∨ (s.group (v.setWidth 12)).v = false
    · rw [State.suspRequest_fail hgo hbusy hop hdef]
      exact ⟨⟨_, s.suspTaken_answered v 6⟩, fun _ => ⟨rfl, rfl⟩, fun hf hv => by simp [hf, hv] at hdef⟩
    · refine ⟨?_, fun h => absurd h hdef, fun _ _ => ⟨fun h1 hne => ?_, fun h2 hne => ?_, fun h => ?_⟩⟩
      · by_cases hstart : (wf_ v 13 12 = 1 ∧ (s.susp (v.setWidth 12)).st = .none)
            ∨ (wf_ v 13 12 = 2 ∧ (s.susp (v.setWidth 12)).st = .suspended)
        · rw [State.suspRequest_starts hgo hbusy hdef hstart]
          exact ⟨_, (s.suspTaken_answered v _).sendAll _ _ _ _⟩
        · rcases hop with h1 | h2
          · rw [State.suspRequest_not_running hgo hbusy hdef h1 fun h => hstart (.inl ⟨h1, h⟩)]
            exact ⟨_, s.suspTaken_answered v 4⟩
          · rw [State.suspRequest_not_suspended hgo hbusy hdef h2 fun h => hstart (.inr ⟨h2, h⟩)]
            exact ⟨_, s.suspTaken_answered v 5⟩
      · rw [State.suspRequest_not_running hgo hbusy hdef h1 hne]
        exact ⟨rfl, rfl⟩
      · rw [State.suspRequest_not_suspended hgo hbusy hdef h2 hne]
        exact ⟨rfl, rfl⟩
      · rw [State.suspRequest_starts hgo hbusy hdef h]
        refine ⟨((s.suspTaken_answered v _).sendAll _ _ _ _).st, fun hdies => ?_⟩
        rw [hdies]
        exact congrArg State.vc0 (State.sendAll_own (s.suspTaken v _) _ 0 _)

end Sys2Proof.Machine

/-! SUPPORT. `Quiet s t`: what the work that follows a command keeps of the error log and of the suspended groups. No entry that is unread
is overwritten, and no group changes its state of suspension or its record. Function by function, in the order of `State.settle`'s
definitions. -/

namespace Sys2Proof.Machine

-- one thread: the text is compiled as a whole, and each waiting thread holds its own stack
set_option Elab.async false

/-- From `s` to `t` each unread log entry stands, and each group is as far in its suspension as it was. -/
structure Quiet (s t : State) : Prop where
  log : s.gst.LogGrows t.gst
  susp : mwf SuspG.zero s.col.susp = true → mwf SuspG.zero t.col.susp = true
    ∧ ∀ g, (t.susp g).st = (s.susp g).st ∧ (t.susp g).record = (s.susp g).record

section
variable {s t u v : State}

theorem Quiet.refl : Quiet s s := ⟨.refl _, fun h => ⟨h, fun _ => ⟨rfl, rfl⟩⟩⟩

theorem Quiet.trans (h : Quiet s t) (k : Quiet t u) : Quiet s u where
  log := h.log.trans k.log
  susp := fun hw => by
    obtain ⟨ht, hst⟩ := h.susp hw
    obtain ⟨hu, hsu⟩ := k.susp ht
    exact ⟨hu, fun g => ⟨(hsu g).1.trans (hst g).1, (hsu g).2.trans (hst g).2⟩⟩

theorem Quiet.of_susp (hlog : s.gst.LogGrows t.gst) (hsusp : t.col.susp = s.col.susp) : Quiet s t where
  log := hlog
  susp := fun hw => ⟨by rwa [hsusp], fun g => by unfold State.susp; rw [hsusp]; exact ⟨rfl, rfl⟩⟩

/-- A further operation, of components that hold neither. -/
theorem Quiet.next {w : List Fld} (h : Quiet s u) (k : Only w u v) (hg : w.contains .gst = false) (hc : w.contains .col = false) : Quiet s v :=
  h.trans (.of_susp (.of_eq (k.gst fun hm => by rw [List.contains_iff_mem.mpr hm] at hg; exact Bool.noConfusion hg))
    (congrArg ColCtl.susp (k.col fun hm => by rw [List.contains_iff_mem.mpr hm] at hc; exact Bool.noConfusion hc)))

theorem Quiet.foldl {β : Type} (h : Quiet s u) (f : State → β → State) (l : List β) (hf : ∀ t x, Quiet s t → Quiet s (f t x)) :
    Quiet s (l.foldl f u) := by
  induction l generalizing u with
  | nil => exact h
  | cons x l ih => exact ih (hf u x h)

theorem Quiet.putCol (h : Quiet s u) (x : ColCtl) (hx : x.susp = u.col.susp) : Quiet s { u with col := x } := h.trans (.of_susp (.refl _) hx)

theorem Quiet.putAdm (h : Quiet s u) (x : Adm) : Quiet s { u with adm := x } := h.trans (.of_susp (.refl _) rfl)

theorem Quiet.putColls (h : Quiet s u) (x : List Coll) : Quiet s { u with colls := x } := h.trans (.of_susp (.refl _) rfl)

theorem State.logWrite_quiet (h : Quiet s u) (e : LogEntry) : Quiet s (u.logWrite e) := by
  refine h.trans (.of_susp (u.logWrite_logGrows e) ?_)
  rw [State.logWrite_eq_gst]

theorem State.attn_quiet (h : Quiet s u) (b : Nat) : Quiet s (u.attn b) := h.trans (.of_susp (u.attn_logGrows b) rfl)

theorem State.sendRaw_quiet (h : Quiet s u) (dest : Nat) (m : Msg) (hv : u.sendRaw dest m = .ok v) : Quiet s v :=
  h.next ((State.sendRaw_only (w := [.stakes, .vc0]) .refl dest m).ok hv) rfl rfl

theorem State.sendSeg_quiet (h : Quiet s u) (dest vc level srcf : Nat) (i : Option Nat) (kind : Nat) (g : BitVec 12) (k : Word) (wale : Nat)
    (body : List Byte) (hv : u.sendSeg dest vc level srcf i kind g k wale body = .ok v) : Quiet s v :=
  h.next ((State.sendSeg_only (w := [.stakes]) .refl dest vc level srcf i kind g k wale body).ok hv) rfl rfl

/-! ### Operations of other components -/

theorem State.onPort_quiet (h : Quiet s u) (x1 : Nat) (x2 : Port → Port) : Quiet s (State.onPort u x1 x2) :=
  h.next (State.onPort_only (w := [.ports]) .refl _ _) rfl rfl

theorem State.status_quiet (h : Quiet s u) (x1 x2 : Nat) (x3 : BitVec 12) (x4 : Word) (x5 x6 : Bool) :
    Quiet s (State.status u x1 x2 x3 x4 x5 x6) :=
  h.next (State.status_only (w := [.ports]) .refl _ _ _ _ _ _) rfl rfl

theorem State.endWait_quiet (h : Quiet s u) (x1 x2 : Nat) : Quiet s (State.endWait u x1 x2) :=
  h.next (State.endWait_only (w := [.ports]) .refl _ _) rfl rfl

theorem State.setHoop_quiet (h : Quiet s u) (x1 : Nat) (x2 : Hoop) : Quiet s (State.setHoop u x1 x2) :=
  h.next (State.setHoop_only (w := [.hoops]) .refl _ _) rfl rfl

theorem State.signal_quiet (h : Quiet s u) (x1 : HoopSig) : Quiet s (State.signal u x1) :=
  h.next (State.signal_only (w := [.hoopNet]) .refl _) rfl rfl

theorem State.onColl_quiet (h : Quiet s u) (x1 : BitVec 12) (x2 : Word) (x3 : Coll → Coll) : Quiet s (State.onColl u x1 x2 x3) :=
  h.next (State.onColl_only (w := [.colls]) .refl _ _ _) rfl rfl

theorem State.post_quiet (h : Quiet s u) (x1 : Msg) : Quiet s (State.post u x1) :=
  h.next (State.post_only (w := [.vc0]) .refl _) rfl rfl

theorem State.cutSide_quiet (h : Quiet s u) (x1 : BitVec 12) (x2 : Word) (x3 : Nat) : Quiet s (State.cutSide u x1 x2 x3) :=
  h.next (State.cutSide_only (w := [.colls, .stakes, .vc0]) .refl _ _ _) rfl rfl

theorem State.orphan_quiet (h : Quiet s u) (x1 : Nat) : Quiet s (State.orphan u x1) :=
  h.next (State.orphan_only (w := [.fdw]) .refl _) rfl rfl

theorem State.pulse_quiet (h : Quiet s u) (x1 x2 : Nat) : Quiet s (State.pulse u x1 x2) :=
  h.next (State.pulse_only (w := [.fdw]) .refl _ _) rfl rfl

theorem State.setChan_quiet (h : Quiet s u) (x1 : Nat) (x2 : Chan) : Quiet s (State.setChan u x1 x2) :=
  h.next (State.setChan_only (w := [.chans]) .refl _ _) rfl rfl

theorem State.setEvtIn_quiet (h : Quiet s u) (x1 : Nat) (x2 : EvtIn) : Quiet s (State.setEvtIn u x1 x2) :=
  h.next (State.setEvtIn_only (w := [.fdw]) .refl _ _) rfl rfl

theorem State.onChan_quiet (h : Quiet s u) (x1 : Nat) (x2 : Chan → Chan) : Quiet s (State.onChan u x1 x2) :=
  h.next (State.onChan_only (w := [.chans]) .refl _ _) rfl rfl

theorem State.pauseChan_quiet (h : Quiet s u) (x1 : Nat) : Quiet s (State.pauseChan u x1) :=
  h.next (State.pauseChan_only (w := [.chans]) .refl _) rfl rfl

theorem State.fillChan_quiet (h : Quiet s u) (x1 : Nat) : Quiet s (State.fillChan u x1) :=
  h.next (State.fillChan_only (w := [.chans]) .refl _) rfl rfl

theorem State.dropBind_quiet (h : Quiet s u) (x1 : Nat) : Quiet s (State.dropBind u x1) :=
  h.next (State.dropBind_only (w := [.chans]) .refl _) rfl rfl

theorem State.sinkStart_quiet (h : Quiet s u) (x1 : Nat) (x2 : EndFor) : Quiet s (State.sinkStart u x1 x2) :=
  h.next (State.sinkStart_only (w := [.chans]) .refl _ _) rfl rfl

theorem State.oweRest_quiet (h : Quiet s u) (x1 : Coll) (x2 : Member) : Quiet s (State.oweRest u x1 x2) :=
  h.next (State.oweRest_only (w := [.ports]) .refl _ _) rfl rfl

theorem State.putTok_quiet (h : Quiet s u) (x1 : Nat) (x2 : BitVec 12) (x3 : Word) (x4 : List Word) :
    Quiet s (State.putTok u x1 x2 x3 x4) :=
  h.next (State.putTok_only (w := [.ports]) .refl _ _ _ _) rfl rfl

theorem State.rxWale_quiet (h : Quiet s u) (x1 : Nat) (x2 : BitVec 12) (x3 : Word) (x4 : Nat) (x5 : List Byte) :
    Quiet s (State.rxWale u x1 x2 x3 x4 x5) :=
  h.next (State.rxWale_only (w := [.ports]) .refl _ _ _ _ _) rfl rfl

theorem State.updPump_quiet (h : Quiet s u) (x0 : Nat) : Quiet s (State.updPump x0 u) :=
  h.next (State.updPump_only (w := [.colls, .upd]) .refl _) rfl rfl

theorem State.updPut_quiet (h : Quiet s u) (x1 : BitVec 12) (x2 : Word) (x3 : URec) (x4 : Bool) : Quiet s (State.updPut u x1 x2 x3 x4) :=
  h.next (State.updPut_only (w := [.colls, .upd]) .refl _ _ _ _) rfl rfl

theorem State.pair_quiet (h : Quiet s u) (x1 : BitVec 12) (x2 x3 : Word) : Quiet s (State.pair u x1 x2 x3).2 :=
  h.next (State.pair_only (w := [.colls]) .refl _ _ _) rfl rfl

theorem State.opportunity_quiet (h : Quiet s u) (x1 : Nat) : Quiet s (State.opportunity u x1).2 :=
  h.next (State.opportunity_only (w := [.pwr]) .refl _) rfl rfl

theorem State.countWale_quiet (h : Quiet s u) (x1 : Coll) (x2 : Member) (x3 : List Byte) : Quiet s (State.countWale u x1 x2 x3) :=
  h.next (State.countWale_only (w := [.colls]) .refl _ _ _) rfl rfl

theorem State.latchSkew_quiet (h : Quiet s u) (x1 : BitVec 12) (x2 : Word) (x3 x4 : BitVec 64) :
    Quiet s (State.latchSkew u x1 x2 x3 x4) :=
  h.next (State.latchSkew_only (w := [.upd]) .refl _ _ _ _) rfl rfl

theorem State.onEx_quiet (h : Quiet s u) (x1 : BitVec 12) (x2 : Word) (x3 : Nat) (x4 : ExMem → ExMem) :
    Quiet s (State.onEx u x1 x2 x3 x4) :=
  h.next (State.onEx_only (w := [.colls]) .refl _ _ _ _) rfl rfl

theorem State.exFin_quiet (h : Quiet s u) (x1 : BitVec 12) (x2 : Word) (x3 : Nat) : Quiet s (State.exFin u x1 x2 x3) :=
  h.next (State.exFin_only (w := [.colls]) .refl _ _ _) rfl rfl

theorem State.exTerm_quiet (h : Quiet s u) (x1 : BitVec 12) (x2 : Word) (x3 : Nat) (x4 : List Byte) :
    Quiet s (State.exTerm u x1 x2 x3 x4) :=
  h.next (State.exTerm_only (w := [.colls]) .refl _ _ _ _) rfl rfl

theorem State.exCount_quiet (h : Quiet s u) (x1 : Exc → Exc) : Quiet s (State.exCount u x1) :=
  h.next (State.exCount_only (w := [.exc]) .refl _) rfl rfl

theorem State.exOsilt_quiet (h : Quiet s u) (x1 : BitVec 12) (x2 : Word) (x3 : Nat) : Quiet s (State.exOsilt u x1 x2 x3) :=
  h.next (State.exOsilt_only (w := [.colls]) .refl _ _ _) rfl rfl

theorem State.releaseSeal_quiet (h : Quiet s u) (x1 : BitVec 12) (x2 : Word) : Quiet s (State.releaseSeal u x1 x2) :=
  h.next (State.releaseSeal_only (w := [.colls, .upd, .vc0]) .refl _ _) rfl rfl

theorem State.updAdmits_quiet (h : Quiet s u) (x1 : Coll) (x2 : Bool) : Quiet s (State.updAdmits u x1 x2).2 :=
  h.next (State.updAdmits_only (w := [.pwr]) .refl _ _) rfl rfl

theorem State.probeSink_quiet (h : Quiet s u) (x1 : Coll) (x2 : Member) : Quiet s (State.probeSink u x1 x2) :=
  h.next (State.probeSink_only (w := [.chans]) .refl _ _) rfl rfl

theorem State.endColl_quiet (h : Quiet s u) (x1 : BitVec 12) (x2 : Word) (x3 : BitVec 8) : Quiet s (State.endColl u x1 x2 x3) :=
  h.next (State.endColl_only (w := [.colls, .stakes]) .refl _ _ _) rfl rfl

theorem State.takeBeat_quiet (h : Quiet s u) (x1 : Nat) : Quiet s (State.takeBeat u x1) :=
  h.next (State.takeBeat_only (w := [.chans]) .refl _) rfl rfl

/-! ### Operations that log, report or keep trap records -/

theorem State.logEv_quiet (h : Quiet s u) (x1 x2 x3 x4 x5 x6 : Nat) (x7 : BitVec 12) (x8 : BitVec 8) :
    Quiet s (u.logEv x1 x2 x3 x4 x5 x6 x7 x8) := by
  unfold State.logEv
  repeat' with_reducible first
    | assumption | apply State.logWrite_quiet

theorem State.hoopFault_quiet (h : Quiet s u) (x1 : Nat) : Quiet s (u.hoopFault x1) := by
  unfold State.hoopFault
  repeat' with_reducible first
    | assumption | apply State.setHoop_quiet | apply State.logEv_quiet | apply State.endWait_quiet | apply State.attn_quiet | split

theorem State.hoopLost_quiet (h : Quiet s u) (x1 : Nat) (x2 : BitVec 3) : Quiet s (u.hoopLost x1 x2) := by
  unfold State.hoopLost
  repeat' with_reducible first
    | assumption | apply State.hoopFault_quiet | apply State.setHoop_quiet | split

theorem State.hoopStorage_quiet (h : Quiet s u) (i : Nat) (ev : StorageEvent) : Quiet s (u.hoopStorage i ev) := by
  cases ev with
  | clean => exact h
  | corrected => exact h.trans (.of_susp ⟨rfl, Nat.le_refl _, fun _ _ => rfl⟩ rfl)
  | uncorrData a => exact State.hoopLost_quiet h i _
  | uncorrConfig _ a => exact State.hoopLost_quiet h i _

theorem State.hoopCmd_quiet (h : Quiet s u) (x1 : Nat) (x2 x3 : Word) (x4 : StorageEvent) : Quiet s (u.hoopCmd x1 x2 x3 x4) := by
  unfold State.hoopCmd
  repeat' with_reducible first
    | assumption | apply State.signal_quiet | apply State.hoopStorage_quiet | apply State.hoopFault_quiet | apply State.setHoop_quiet
    | apply State.logEv_quiet | apply State.status_quiet | apply State.attn_quiet | apply State.onPort_quiet | split | intro _
    | dsimp only

theorem State.logRoute_quiet (h : Quiet s u) (x1 : BitVec 12) (x2 : Word) (x3 x4 x5 x6 x7 : Nat) :
    Quiet s (u.logRoute x1 x2 x3 x4 x5 x6 x7) := by
  unfold State.logRoute
  repeat' with_reducible first
    | assumption | apply State.logEv_quiet

theorem State.report_quiet (h : Quiet s u) (x1 : BitVec 12) (x2 : Word) (x3 x4 x5 : Nat) (x6 : Word) (x7 : Option Cand) :
    Quiet s (u.report x1 x2 x3 x4 x5 x6 x7) := by
  unfold State.report
  repeat' with_reducible first
    | assumption | apply State.logRoute_quiet | apply State.cutSide_quiet | apply State.post_quiet
    | (refine State.sendRaw_quiet ?_ _ _ (by assumption)) | split | intro _ | dsimp only

theorem State.badWord0_quiet (h : Quiet s u) (x1 : Nat) (x2 x3 : Word) : Quiet s (u.badWord0 x1 x2 x3) := by
  unfold State.badWord0
  repeat' with_reducible first
    | assumption | apply Quiet.foldl | apply State.report_quiet | apply State.logEv_quiet | apply State.status_quiet
    | apply State.attn_quiet | apply State.onPort_quiet | split | intro _

theorem State.halt_quiet (h : Quiet s u) (x1 x2 x3 : Nat) (x4 : optParam (Option (BitVec 12 × Word)) none) :
    Quiet s (u.halt x1 x2 x3 x4) := by
  unfold State.halt
  repeat' with_reducible first
    | assumption | apply Quiet.foldl | apply State.setChan_quiet | apply State.pulse_quiet | apply State.orphan_quiet
    | apply State.report_quiet | apply State.logEv_quiet | apply State.attn_quiet | split | intro _

theorem State.checkBind_quiet (h : Quiet s u) (x1 : Nat) : Quiet s (u.checkBind x1) := by
  unfold State.checkBind
  repeat' with_reducible first
    | assumption | apply State.pauseChan_quiet | apply State.halt_quiet | apply State.setChan_quiet | split | intro _ | dsimp only

theorem State.startDesc_quiet (h : Quiet s u) (x1 : Nat) (x2 : Bool) : Quiet s (u.startDesc x1 x2) := by
  unfold State.startDesc
  repeat' with_reducible first
    | assumption | apply State.checkBind_quiet | apply State.setChan_quiet

theorem State.evtServe_quiet (h : Quiet s u) (x0 x2 : Nat) : Quiet s (State.evtServe x0 u x2) := by
  induction x0 generalizing u x2 with
  | zero => unfold State.evtServe; exact h
  | succ n ih =>
    unfold State.evtServe
    repeat' with_reducible first
      | assumption | apply ih | apply State.startDesc_quiet | apply State.setEvtIn_quiet | split

theorem State.tryTrigger_quiet (h : Quiet s u) (x1 : Nat) : Quiet s (u.tryTrigger x1) := by
  unfold State.tryTrigger
  repeat' with_reducible first
    | assumption | apply Quiet.foldl | apply State.evtServe_quiet | apply State.startDesc_quiet | split | intro _ | dsimp only

theorem State.bind_quiet (h : Quiet s u) (x1 : Nat) (x2 : Bind) : Quiet s (u.bind x1 x2) := by
  unfold State.bind
  repeat' with_reducible first
    | assumption | apply State.tryTrigger_quiet | apply State.halt_quiet | apply State.setChan_quiet | apply State.report_quiet | split
    | intro _ | dsimp only

theorem State.bindIssue_quiet (h : Quiet s u) (x1 : Nat) (x2 : BitVec 12) (x3 : Word) (x4 : List Word) :
    Quiet s (u.bindIssue x1 x2 x3 x4) := by
  unfold State.bindIssue
  repeat' with_reducible first
    | assumption | apply State.bind_quiet | split | intro _ | dsimp only

theorem State.endBinds_quiet (h : Quiet s u) (x1 : BitVec 12) (x2 : Word) : Quiet s (u.endBinds x1 x2) := by
  unfold State.endBinds
  repeat' with_reducible first
    | assumption | apply Quiet.foldl | apply State.halt_quiet | split | intro _

theorem State.chanTriggers_quiet (h : Quiet s u) : Quiet s (u.chanTriggers) := by
  unfold State.chanTriggers
  repeat' with_reducible first
    | assumption | apply Quiet.foldl | apply State.tryTrigger_quiet | split | intro _

theorem State.makeCurrent_quiet (h : Quiet s u) (x1 : Nat) (x2 : BitVec 44) (x3 : List Word) (x4 : Bool) :
    Quiet s (u.makeCurrent x1 x2 x3 x4) := by
  unfold State.makeCurrent
  repeat' with_reducible first
    | assumption | apply State.tryTrigger_quiet | apply State.halt_quiet | apply State.setChan_quiet | split | intro _ | dsimp only

theorem State.complete_quiet (h : Quiet s u) (x1 : Nat) : Quiet s (u.complete x1) := by
  unfold State.complete
  repeat' with_reducible first
    | assumption | apply State.makeCurrent_quiet | apply State.chanTriggers_quiet | apply State.setChan_quiet | apply State.pulse_quiet
    | apply State.signal_quiet | split

theorem State.finishDesc_quiet (h : Quiet s u) (x1 : Nat) : Quiet s (u.finishDesc x1) := by
  unfold State.finishDesc
  repeat' with_reducible first
    | assumption | apply State.complete_quiet | apply State.setChan_quiet | split

theorem State.popBind_quiet (h : Quiet s u) (x1 : Nat) : Quiet s (u.popBind x1) := by
  unfold State.popBind
  repeat' with_reducible first
    | assumption | apply State.dropBind_quiet | apply State.checkBind_quiet

theorem State.sinkEnd_quiet (h : Quiet s u) (x1 : Nat) : Quiet s (u.sinkEnd x1) := by
  unfold State.sinkEnd
  repeat' with_reducible first
    | assumption | apply State.sinkStart_quiet | apply State.popBind_quiet | apply State.finishDesc_quiet | apply State.dropBind_quiet
    | split | intro _ | dsimp only

theorem State.giveSink_quiet (h : Quiet s u) (x1 : Coll) (x2 : Member) (x3 : List (SinkAt × List Byte)) (x4 : Bool) :
    Quiet s (u.giveSink x1 x2 x3 x4) := by
  unfold State.giveSink
  repeat' with_reducible first
    | assumption | apply State.sinkEnd_quiet | apply State.fillChan_quiet | apply State.onChan_quiet

theorem State.endMember_quiet (h : Quiet s u) (x1 : Coll) (x2 : Member) (x3 : List Word) : Quiet s (u.endMember x1 x2 x3) := by
  unfold State.endMember
  repeat' with_reducible first
    | assumption | apply Quiet.foldl | apply State.rxWale_quiet | apply State.putTok_quiet | apply State.oweRest_quiet
    | apply State.giveSink_quiet | apply State.onColl_quiet | split | intro _ | dsimp only

theorem State.cutHere_quiet (h : Quiet s u) (x1 : BitVec 12) (x2 : Word) (x3 : Nat) : Quiet s (u.cutHere x1 x2 x3) := by
  unfold State.cutHere
  repeat' with_reducible first
    | assumption | apply Quiet.foldl | apply State.report_quiet | apply State.cutSide_quiet | split

theorem State.orFail_quiet (h : Quiet s u) (g : BitVec 12) (k : Word) (dest level : Nat) (r : Sent) (hr : ∀ t, r = .ok t → Quiet s t) :
    Quiet s (u.orFail g k dest level r) := by
  cases r with
  | ok t => exact hr t rfl
  | fault => exact State.report_quiet (State.logRoute_quiet h _ _ _ _ _ _ _) _ _ _ _ _ _ _
  | down n => exact State.cutHere_quiet h _ _ _

theorem State.send_quiet (h : Quiet s u) (x1 : Nat) (x2 : BitVec 12) (x3 : Word) (x4 : Body) (x5 : BitVec 16) :
    Quiet s (u.send x1 x2 x3 x4 x5) := by
  unfold State.send
  repeat' with_reducible first
    | assumption | apply State.orFail_quiet | (refine State.sendRaw_quiet ?_ _ _ (by assumption)) | split | intro _

theorem State.releaseRound_quiet (h : Quiet s u) (x1 : BitVec 12) (x2 : Word) : Quiet s (u.releaseRound x1 x2) := by
  unfold State.releaseRound
  repeat' with_reducible first
    | assumption | apply State.send_quiet | split | intro _ | dsimp only

theorem State.decideAbort_quiet (h : Quiet s u) (x1 : BitVec 12) (x2 : Word) (x3 x4 x5 x6 : Nat) :
    Quiet s (u.decideAbort x1 x2 x3 x4 x5 x6) := by
  unfold State.decideAbort
  repeat' with_reducible first
    | assumption | apply State.updPut_quiet | apply State.releaseRound_quiet | apply State.post_quiet | apply State.onColl_quiet
    | apply State.logEv_quiet | split | apply Quiet.putAdm

theorem State.refuseColl_quiet (h : Quiet s u) (x1 : BitVec 12) (x2 : Word) : Quiet s (u.refuseColl x1 x2) := by
  unfold State.refuseColl
  repeat' with_reducible first
    | assumption | apply State.releaseRound_quiet | apply State.post_quiet | split | apply Quiet.putAdm

theorem State.startRound_quiet (h : Quiet s u) (x1 : BitVec 12) (x2 : Word) : Quiet s (u.startRound x1 x2) := by
  unfold State.startRound
  repeat' with_reducible first
    | assumption | apply State.send_quiet | apply State.onColl_quiet | split

theorem State.agDecide_quiet (h : Quiet s u) (x1 : BitVec 12) (x2 : Word) (x3 : AgIn) : Quiet s (u.agDecide x1 x2 x3) := by
  unfold State.agDecide
  repeat' with_reducible first
    | assumption | apply State.startRound_quiet | apply State.refuseColl_quiet | apply State.decideAbort_quiet | apply State.onColl_quiet
    | apply State.logEv_quiet | split | intro _ | dsimp only

theorem State.logMismatch_quiet (h : Quiet s u) (x1 : BitVec 12) (x2 : Word) (x3 : Nat) : Quiet s (u.logMismatch x1 x2 x3) := by
  unfold State.logMismatch
  repeat' with_reducible first
    | assumption | apply State.logEv_quiet

theorem State.sendEdge_quiet (h : Quiet s u) (x1 x2 x3 : Nat) (x4 : BitVec 12) (x5 : Word) (x6 : Body) (x7 : BitVec 16) :
    Quiet s (u.sendEdge x1 x2 x3 x4 x5 x6 x7) := by
  unfold State.sendEdge
  repeat' with_reducible first
    | assumption | apply State.orFail_quiet | (refine State.sendRaw_quiet ?_ _ _ (by assumption)) | split | intro _

theorem State.sendUp_quiet (h : Quiet s u) (x1 : Chain) (x2 : BitVec 12) (x3 : Word) (x4 : Body) (x5 : BitVec 16) :
    Quiet s (u.sendUp x1 x2 x3 x4 x5) := by
  unfold State.sendUp
  repeat' with_reducible first
    | assumption | apply State.sendEdge_quiet | split

theorem State.gatherChain_quiet (h : Quiet s u) (x1 : BitVec 12) (x2 : Word) (x3 : Chain) : Quiet s (u.gatherChain x1 x2 x3) := by
  unfold State.gatherChain
  repeat' with_reducible first
    | assumption | apply Quiet.foldl | apply State.sendUp_quiet | apply State.logMismatch_quiet | apply State.agDecide_quiet
    | apply State.onColl_quiet | split | intro _ | dsimp only

theorem State.gather_quiet (h : Quiet s u) (x1 : BitVec 12) (x2 : Word) : Quiet s (u.gather x1 x2) := by
  unfold State.gather
  repeat' with_reducible first
    | assumption | apply Quiet.foldl | apply State.gatherChain_quiet | split | intro _

theorem State.freeEntryOf_quiet (h : Quiet s u) (x1 : Coll) : Quiet s (u.freeEntryOf x1) := by
  unfold State.freeEntryOf
  repeat' with_reducible first
    | assumption | split | ((refine Quiet.putCol ?_ _ ?hx); case hx => rfl)

theorem State.reap_quiet (h : Quiet s u) (x1 : BitVec 12) (x2 : Word) : Quiet s (u.reap x1 x2) := by
  unfold State.reap
  repeat' with_reducible first
    | assumption | apply State.freeEntryOf_quiet | apply State.onColl_quiet | split | apply Quiet.putColls

theorem State.issueNow_quiet (h : Quiet s u) (x1 : Nat) (x2 x3 : List Word) : Quiet s (u.issueNow x1 x2 x3) := by
  unfold State.issueNow
  repeat' with_reducible first
    | assumption | apply State.reap_quiet | apply State.pair_quiet | apply State.gather_quiet | apply State.endMember_quiet
    | apply State.endBinds_quiet | apply State.bindIssue_quiet | apply State.badWord0_quiet | apply State.onColl_quiet
    | apply State.logEv_quiet | apply State.status_quiet | apply State.onPort_quiet | split | intro _ | dsimp only

theorem State.drain_quiet (h : Quiet s u) (x0 x2 : Nat) : Quiet s (State.drain x0 u x2) := by
  induction x0 generalizing u x2 with
  | zero => unfold State.drain; exact h
  | succ n ih =>
    unfold State.drain
    repeat' with_reducible first
      | assumption | apply ih | apply State.issueNow_quiet | apply State.hoopCmd_quiet | apply State.onPort_quiet | split

theorem State.feedEnd_quiet (h : Quiet s u) (x1 : Nat) : Quiet s (u.feedEnd x1) := by
  unfold State.feedEnd
  repeat' with_reducible first
    | assumption | apply State.finishDesc_quiet | split | intro _ | dsimp only

theorem State.stepSkew_quiet (h : Quiet s u) (x1 : BitVec 12) (x2 : Word) (x3 x4 : BitVec 64) : Quiet s (u.stepSkew x1 x2 x3 x4) := by
  unfold State.stepSkew
  repeat' with_reducible first
    | assumption | apply State.latchSkew_quiet | apply State.decideAbort_quiet | apply State.logEv_quiet

theorem State.takeStep_quiet (h : Quiet s u) (x1 : BitVec 12) (x2 : Word) (x3 : BitVec 64 × BitVec 64) :
    Quiet s (u.takeStep x1 x2 x3) := by
  unfold State.takeStep
  repeat' with_reducible first
    | assumption | apply State.stepSkew_quiet | apply State.onColl_quiet | split

theorem State.rootArrive_quiet (h : Quiet s u) (x1 : BitVec 12) (x2 : Word) (x3 : Nat) (x4 : WaleV) :
    Quiet s (u.rootArrive x1 x2 x3 x4) := by
  unfold State.rootArrive
  repeat' with_reducible first
    | assumption | apply State.takeStep_quiet | apply State.onColl_quiet | split | intro _ | dsimp only

theorem State.handTo_quiet (h : Quiet s u) (x1 : Coll) (x2 : Tgt) (x3 : Option Nat) (x4 : WaleV) : Quiet s (u.handTo x1 x2 x3 x4) := by
  unfold State.handTo
  repeat' with_reducible first
    | assumption | apply State.rootArrive_quiet | apply State.orFail_quiet | apply State.onColl_quiet
    | (refine State.sendSeg_quiet ?_ _ _ _ _ _ _ _ _ _ _ (by assumption)) | split | intro _

theorem State.residue_quiet (h : Quiet s u) (x1 : Coll) (x2 x3 x4 x5 x6 : Nat) : Quiet s (u.residue x1 x2 x3 x4 x5 x6) := by
  unfold State.residue
  repeat' with_reducible first
    | assumption | apply State.report_quiet | apply State.logEv_quiet

theorem State.forward_quiet (h : Quiet s u) (x1 : Coll) (x2 : List Nat × Tgt) (x3 : Option Nat) (x4 : WaleV) :
    Quiet s (u.forward x1 x2 x3 x4) := by
  unfold State.forward
  repeat' with_reducible first
    | assumption | apply Quiet.foldl | apply State.residue_quiet | apply State.handTo_quiet | apply State.onColl_quiet | split

theorem State.stepTo_quiet (h : Quiet s u) (x1 : Coll) (x2 : Tgt) (x3 : BitVec 64 × BitVec 64) : Quiet s (u.stepTo x1 x2 x3) := by
  unfold State.stepTo
  repeat' with_reducible first
    | assumption | apply State.takeStep_quiet | apply State.orFail_quiet | apply State.onColl_quiet
    | (refine State.sendSeg_quiet ?_ _ _ _ _ _ _ _ _ _ _ (by assumption)) | split | intro _

theorem State.passSteps_quiet (h : Quiet s u) (x0 : Nat) (x2 : BitVec 12) (x3 : Word) : Quiet s (State.passSteps x0 u x2 x3) := by
  induction x0 generalizing u x2 x3 with
  | zero => unfold State.passSteps; exact h
  | succ n ih =>
    unfold State.passSteps
    repeat' with_reducible first
      | assumption | apply Quiet.foldl | apply ih | apply State.stepTo_quiet | apply State.onColl_quiet | split | intro _ | dsimp only

theorem State.deliverWale_quiet (h : Quiet s u) (x1 : BitVec 12) (x2 : Word) (x3 : Chain) (x4 x5 : Nat) (x6 : List Byte) :
    Quiet s (u.deliverWale x1 x2 x3 x4 x5 x6) := by
  unfold State.deliverWale
  repeat' with_reducible first
    | assumption | apply Quiet.foldl | apply State.orFail_quiet | apply State.rxWale_quiet | apply State.giveSink_quiet
    | apply State.onColl_quiet | (refine State.sendSeg_quiet ?_ _ _ _ _ _ _ _ _ _ _ (by assumption)) | split | intro _ | dsimp only

theorem State.release_quiet (h : Quiet s u) (x1 : BitVec 12) (x2 : Word) (x3 : Nat) (x4 : List Byte) (x5 : Option (List Byte)) (x6 : Nat) :
    Quiet s (u.release x1 x2 x3 x4 x5 x6) := by
  unfold State.release
  repeat' with_reducible first
    | assumption | apply State.deliverWale_quiet | apply State.updPut_quiet | apply State.onColl_quiet | split | intro _ | dsimp only

theorem State.contribute_quiet (h : Quiet s u) (x1 : Coll) (x2 : Member) (x3 : List Byte) : Quiet s (u.contribute x1 x2 x3) := by
  unfold State.contribute
  repeat' with_reducible first
    | assumption | apply State.release_quiet | apply State.passSteps_quiet | apply State.stepTo_quiet | apply State.forward_quiet
    | apply State.residue_quiet | apply State.countWale_quiet | apply State.onColl_quiet | split | intro _ | dsimp only

theorem State.exCorrupt_quiet (h : Quiet s u) (x1 : BitVec 12) (x2 : Word) (x3 : Nat) (x4 : Word) :
    Quiet s (u.exCorrupt x1 x2 x3 x4) := by
  unfold State.exCorrupt
  repeat' with_reducible first
    | assumption | apply State.report_quiet | apply State.logEv_quiet

theorem State.exMismatch_quiet (h : Quiet s u) (x1 : BitVec 12) (x2 : Word) (x3 : Nat) : Quiet s (u.exMismatch x1 x2 x3) := by
  unfold State.exMismatch
  repeat' with_reducible first
    | assumption | apply State.report_quiet | apply State.logEv_quiet

theorem State.xcredit_quiet (h : Quiet s u) (x1 : BitVec 12) (x2 : Word) (x3 x4 : Nat) : Quiet s (u.xcredit x1 x2 x3 x4) := by
  unfold State.xcredit
  repeat' with_reducible first
    | assumption | apply State.send_quiet

theorem State.exAccept_quiet (h : Quiet s u) (x1 : BitVec 12) (x2 : Word) (x3 x4 : Nat) (x5 : List Byte) (x6 : List (List Byte)) :
    Quiet s (u.exAccept x1 x2 x3 x4 x5 x6) := by
  unfold State.exAccept
  repeat' with_reducible first
    | assumption | apply State.xcredit_quiet | apply State.onEx_quiet | apply State.exMismatch_quiet | split | intro _ | dsimp only

theorem State.exEarly_quiet (h : Quiet s u) (x1 : BitVec 12) (x2 : Word) (x3 : Nat) : Quiet s (u.exEarly x1 x2 x3) := by
  unfold State.exEarly
  repeat' with_reducible first
    | assumption | apply Quiet.foldl | apply State.exAccept_quiet | apply State.onEx_quiet | split | intro _

theorem State.exDeliver_quiet (h : Quiet s u) (x1 : BitVec 12) (x2 : Word) (x3 x4 : Nat) (x5 : List Byte) (x6 : List (List Byte)) :
    Quiet s (u.exDeliver x1 x2 x3 x4 x5 x6) := by
  unfold State.exDeliver
  repeat' with_reducible first
    | assumption | apply Quiet.foldl | apply State.rxWale_quiet | apply State.giveSink_quiet | apply State.onColl_quiet | split | intro _
    | dsimp only

theorem State.exToken_quiet (h : Quiet s u) (x1 : BitVec 12) (x2 : Word) (x3 x4 : Nat) (x5 : List (List Byte)) :
    Quiet s (u.exToken x1 x2 x3 x4 x5) := by
  unfold State.exToken
  repeat' with_reducible first
    | assumption | apply Quiet.foldl | apply State.exDeliver_quiet | apply State.exCount_quiet | apply State.onEx_quiet | split | intro _
    | dsimp only

theorem State.exList_quiet (h : Quiet s u) (x1 : BitVec 12) (x2 : Word) (x3 : Nat) (x4 : List Byte) : Quiet s (u.exList x1 x2 x3 x4) := by
  unfold State.exList
  repeat' with_reducible first
    | assumption | apply State.exToken_quiet | apply State.exTerm_quiet | apply State.exEarly_quiet | apply State.onEx_quiet | split

theorem State.exHeader_quiet (h : Quiet s u) (x1 : BitVec 12) (x2 : Word) (x3 : Nat) (x4 : List Byte) :
    Quiet s (u.exHeader x1 x2 x3 x4) := by
  unfold State.exHeader
  repeat' with_reducible first
    | assumption | apply State.exList_quiet | apply State.exFin_quiet | apply State.exEarly_quiet | apply State.onEx_quiet
    | apply State.exMismatch_quiet | apply State.exCorrupt_quiet | split | intro _ | dsimp only

theorem State.exResidue_quiet (h : Quiet s u) (x1 : Coll) (x2 x3 x4 x5 : Nat) : Quiet s (u.exResidue x1 x2 x3 x4 x5) := by
  unfold State.exResidue
  repeat' with_reducible first
    | assumption | apply State.residue_quiet

theorem State.exSendWale_quiet (h : Quiet s u) (x1 : BitVec 12) (x2 : Word) (x3 x4 : Nat) (x5 : Nat × List Byte) :
    Quiet s (u.exSendWale x1 x2 x3 x4 x5) := by
  unfold State.exSendWale
  repeat' with_reducible first
    | assumption | apply State.orFail_quiet | apply State.onColl_quiet
    | (refine State.sendSeg_quiet ?_ _ _ _ _ _ _ _ _ _ _ (by assumption)) | split | intro _

theorem State.exSlot_quiet (h : Quiet s u) (x1 : BitVec 12) (x2 : Word) (x3 : Nat) (x4 : List Byte) (x5 : List (List Byte)) :
    Quiet s (u.exSlot x1 x2 x3 x4 x5) := by
  unfold State.exSlot
  repeat' with_reducible first
    | assumption | apply State.exDeliver_quiet | apply State.exCount_quiet | apply State.xcredit_quiet | apply State.onEx_quiet
    | apply State.exCorrupt_quiet | split

theorem State.exUnit_quiet (h : Quiet s u) (x1 : BitVec 12) (x2 : Word) (x3 x4 : Nat) (x5 : List Byte) (x6 : List (List Byte)) :
    Quiet s (u.exUnit x1 x2 x3 x4 x5 x6) := by
  unfold State.exUnit
  repeat' with_reducible first
    | assumption | apply State.exSlot_quiet | apply State.exAccept_quiet | apply State.exMismatch_quiet | apply State.exCorrupt_quiet
    | split

theorem State.exSend_quiet (h : Quiet s u) (x1 : BitVec 12) (x2 : Word) (x3 x4 x5 : Nat) (x6 : List Byte) (x7 : List (Nat × List Byte)) (x8 : List (List Byte)) :
    Quiet s (u.exSend x1 x2 x3 x4 x5 x6 x7 x8) := by
  unfold State.exSend
  repeat' with_reducible first
    | assumption | apply Quiet.foldl | apply State.exUnit_quiet | apply State.exSendWale_quiet | split | intro _

theorem State.exTrap_quiet (h : Quiet s u) (x1 : BitVec 12) (x2 : Word) (x3 : Option Cand) : Quiet s (u.exTrap x1 x2 x3) := by
  unfold State.exTrap
  repeat' with_reducible first
    | assumption | apply State.report_quiet | apply State.onColl_quiet | split | intro _ | dsimp only

theorem State.exSendCopy_quiet (h : Quiet s u) (x1 : BitVec 12) (x2 : Word) (x3 x4 x5 : Nat) (x6 : List Byte) (x7 : List (List Byte)) (x8 x9 x10 : Nat) :
    Quiet s (u.exSendCopy x1 x2 x3 x4 x5 x6 x7 x8 x9 x10) := by
  unfold State.exSendCopy
  repeat' with_reducible first
    | assumption | apply Quiet.foldl | apply State.exTrap_quiet | apply State.exSend_quiet | apply State.exResidue_quiet
    | apply State.exOsilt_quiet | split | intro _ | dsimp only

theorem State.exPlace_quiet (h : Quiet s u) (x1 : BitVec 12) (x2 : Word) (x3 x4 : Nat) (x5 : List Byte) (x6 : List (List Byte)) (x7 : Nat) :
    Quiet s (u.exPlace x1 x2 x3 x4 x5 x6 x7) := by
  unfold State.exPlace
  repeat' with_reducible first
    | assumption | apply State.exSendCopy_quiet | apply State.exCount_quiet | apply State.onEx_quiet | apply State.exMismatch_quiet
    | apply State.exCorrupt_quiet | split | intro _ | dsimp only

theorem State.exOwn_quiet (h : Quiet s u) (x1 : BitVec 12) (x2 : Word) (x3 : Nat) (x4 : List Byte) (x5 : List (List Byte)) :
    Quiet s (u.exOwn x1 x2 x3 x4 x5) := by
  unfold State.exOwn
  repeat' with_reducible first
    | assumption | apply Quiet.foldl | apply State.exPlace_quiet | apply State.exSend_quiet | apply State.exTerm_quiet
    | apply State.onEx_quiet | apply State.exMismatch_quiet | split | intro _

theorem State.exSupply_quiet (h : Quiet s u) (x1 : BitVec 12) (x2 : Word) (x3 : Nat) (x4 : List Byte) :
    Quiet s (u.exSupply x1 x2 x3 x4) := by
  unfold State.exSupply
  repeat' with_reducible first
    | assumption | apply State.exOwn_quiet | apply State.exHeader_quiet | apply State.onEx_quiet | apply State.onColl_quiet | split
    | intro _ | dsimp only

theorem State.closeChain_quiet (h : Quiet s u) (x1 : BitVec 12) (x2 : Word) (x3 : Chain) : Quiet s (u.closeChain x1 x2 x3) := by
  unfold State.closeChain
  repeat' with_reducible first
    | assumption | apply State.releaseSeal_quiet | apply State.sendUp_quiet | apply State.onColl_quiet | split | intro _ | dsimp only

theorem State.closeTry_quiet (h : Quiet s u) (x1 : BitVec 12) (x2 : Word) : Quiet s (u.closeTry x1 x2) := by
  unfold State.closeTry
  repeat' with_reducible first
    | assumption | apply Quiet.foldl | apply State.closeChain_quiet | split | intro _

theorem State.downPump_quiet (h : Quiet s u) (x0 : Nat) (x2 : BitVec 12) (x3 : Word) (x4 : Nat) :
    Quiet s (State.downPump x0 u x2 x3 x4) := by
  induction x0 generalizing u x2 x3 x4 with
  | zero => unfold State.downPump; exact h
  | succ n ih =>
    unfold State.downPump
    repeat' with_reducible first
      | assumption | apply ih | apply State.deliverWale_quiet | apply State.onColl_quiet | split | intro _ | dsimp only

theorem State.downAll_quiet (h : Quiet s u) (x1 : BitVec 12) (x2 : Word) : Quiet s (u.downAll x1 x2) := by
  unfold State.downAll
  repeat' with_reducible first
    | assumption | apply Quiet.foldl | apply State.downPump_quiet | split | intro _

theorem State.fpChain_quiet (h : Quiet s u) (x1 : BitVec 12) (x2 : Word) (x3 : Chain) : Quiet s (u.fpChain x1 x2 x3) := by
  unfold State.fpChain
  repeat' with_reducible first
    | assumption | apply State.sendUp_quiet | apply State.onColl_quiet | split | intro _ | dsimp only

theorem State.fpTry_quiet (h : Quiet s u) (x1 : BitVec 12) (x2 : Word) : Quiet s (u.fpTry x1 x2) := by
  unfold State.fpTry
  repeat' with_reducible first
    | assumption | apply Quiet.foldl | apply State.fpChain_quiet | apply State.onColl_quiet | split | intro _

theorem State.storeTrap_quiet (h : Quiet s u) (x1 : BitVec 12) (x2 : Word) (x3 : Cand) : Quiet s (u.storeTrap x1 x2 x3) := by
  unfold State.storeTrap
  repeat' with_reducible first
    | assumption | apply State.onColl_quiet | apply State.logEv_quiet | split | ((refine Quiet.putCol ?_ _ ?hx); case hx => rfl)

theorem State.raiseTrap_quiet (h : Quiet s u) (x1 : BitVec 12) (x2 : Word) (x3 : Cand) : Quiet s (u.raiseTrap x1 x2 x3) := by
  unfold State.raiseTrap
  repeat' with_reducible first
    | assumption | apply State.storeTrap_quiet | apply State.decideAbort_quiet | apply State.onColl_quiet | split | intro _ | dsimp only

theorem State.rootTake_quiet (h : Quiet s u) (x1 : BitVec 12) (x2 : Word) : Quiet s (u.rootTake x1 x2) := by
  unfold State.rootTake
  repeat' with_reducible first
    | assumption | apply State.raiseTrap_quiet | apply State.storeTrap_quiet | apply State.takeStep_quiet | apply State.onColl_quiet
    | split | intro _ | dsimp only

theorem State.rootPump_quiet (h : Quiet s u) (x0 : Nat) (x2 : BitVec 12) (x3 : Word) : Quiet s (State.rootPump x0 u x2 x3) := by
  induction x0 generalizing u x2 x3 with
  | zero => unfold State.rootPump; exact h
  | succ n ih =>
    unfold State.rootPump
    repeat' with_reducible first
      | assumption | apply ih | apply State.updAdmits_quiet | apply State.rootTake_quiet | apply State.release_quiet
      | apply State.onColl_quiet | split | intro _ | dsimp only

theorem State.advance_quiet (h : Quiet s u) (x1 : BitVec 12) (x2 : Word) : Quiet s (u.advance x1 x2) := by
  unfold State.advance
  repeat' with_reducible first
    | assumption | apply State.rootPump_quiet | apply State.fpTry_quiet | apply State.downAll_quiet | apply State.closeTry_quiet | split
    | intro _ | dsimp only

theorem State.checkedTry_quiet (h : Quiet s u) (x1 : BitVec 12) (x2 : Word) (x3 : Chain) : Quiet s (u.checkedTry x1 x2 x3) := by
  unfold State.checkedTry
  repeat' with_reducible first
    | assumption | apply State.raiseTrap_quiet | apply State.releaseSeal_quiet | apply State.sendUp_quiet | apply State.onColl_quiet
    | split | intro _ | dsimp only

theorem State.exTake_quiet (h : Quiet s u) (x1 : BitVec 12) (x2 : Word) (x3 : List Byte) : Quiet s (u.exTake x1 x2 x3) := by
  unfold State.exTake
  repeat' with_reducible first
    | assumption | apply State.exUnit_quiet | apply State.exOsilt_quiet | apply State.onEx_quiet | apply State.exMismatch_quiet | split
    | intro _ | dsimp only

theorem State.exPump_quiet (h : Quiet s u) (x0 : Nat) (x2 : BitVec 12) (x3 : Word) : Quiet s (State.exPump x0 u x2 x3) := by
  induction x0 generalizing u x2 x3 with
  | zero => unfold State.exPump; exact h
  | succ n ih =>
    unfold State.exPump
    repeat' with_reducible first
      | assumption | apply ih | apply State.exTake_quiet | apply State.onColl_quiet | split

theorem State.exStep_quiet (h : Quiet s u) (x1 : BitVec 12) (x2 : Word) (x3 : Chain) : Quiet s (u.exStep x1 x2 x3) := by
  unfold State.exStep
  repeat' with_reducible first
    | assumption | apply Quiet.foldl | apply State.orFail_quiet | apply State.onColl_quiet
    | (refine State.sendSeg_quiet ?_ _ _ _ _ _ _ _ _ _ _ (by assumption)) | split | intro _ | dsimp only

theorem State.sentTry_quiet (h : Quiet s u) (x1 : BitVec 12) (x2 : Word) (x3 : Chain) : Quiet s (u.sentTry x1 x2 x3) := by
  unfold State.sentTry
  repeat' with_reducible first
    | assumption | apply State.stepSkew_quiet | apply State.sendUp_quiet | apply State.post_quiet | apply State.onColl_quiet | split
    | intro _ | dsimp only

theorem State.exAdvance_quiet (h : Quiet s u) (x1 : BitVec 12) (x2 : Word) : Quiet s (u.exAdvance x1 x2) := by
  unfold State.exAdvance
  repeat' with_reducible first
    | assumption | apply Quiet.foldl | apply State.sentTry_quiet | apply State.probeSink_quiet | apply State.exStep_quiet
    | apply State.exPump_quiet | apply State.checkedTry_quiet | split | intro _ | dsimp only

theorem State.endIdle_quiet (h : Quiet s u) (x1 : Nat) : Quiet s (u.endIdle x1) := by
  unfold State.endIdle
  repeat' with_reducible first
    | assumption | apply State.popBind_quiet | apply State.finishDesc_quiet | apply State.dropBind_quiet | split | intro _ | dsimp only

theorem State.dropIdle_quiet (h : Quiet s u) (x1 : BitVec 12) (x2 : Word) : Quiet s (u.dropIdle x1 x2) := by
  unfold State.dropIdle
  repeat' with_reducible first
    | assumption | apply Quiet.foldl | apply State.endIdle_quiet | apply State.onChan_quiet | split | intro _ | dsimp only

theorem State.sealLost_quiet (h : Quiet s u) (x1 : BitVec 12) (x2 : Word) (x3 : Nat) : Quiet s (u.sealLost x1 x2 x3) := by
  unfold State.sealLost
  repeat' with_reducible first
    | assumption | apply State.onColl_quiet | apply State.logEv_quiet | apply State.attn_quiet | apply State.onPort_quiet

theorem State.timeoutSite_quiet (h : Quiet s u) (x1 : Coll) : Quiet s (u.timeoutSite x1) := by
  unfold State.timeoutSite
  repeat' with_reducible first
    | assumption | apply State.logEv_quiet

theorem State.tokenHere_quiet (h : Quiet s u) (x1 : BitVec 12) (x2 : Word) (x3 : List Word) (x4 : Bool) :
    Quiet s (u.tokenHere x1 x2 x3 x4) := by
  unfold State.tokenHere
  repeat' with_reducible first
    | assumption | apply Quiet.foldl | apply State.timeoutSite_quiet | apply State.sealLost_quiet | apply State.dropIdle_quiet
    | apply State.endMember_quiet | apply State.endBinds_quiet | apply State.onColl_quiet | split | intro _ | dsimp only

theorem State.tokChain_quiet (h : Quiet s u) (x1 : BitVec 12) (x2 : Word) (x3 : Chain) (x4 x5 : List Word) :
    Quiet s (u.tokChain x1 x2 x3 x4 x5) := by
  unfold State.tokChain
  repeat' with_reducible first
    | assumption | apply Quiet.foldl | apply State.tokenHere_quiet | apply State.endColl_quiet | apply State.reap_quiet
    | apply State.sendEdge_quiet | apply State.updPut_quiet | apply State.onColl_quiet | split | intro _ | dsimp only

theorem State.tokTry_quiet (h : Quiet s u) (x1 : BitVec 12) (x2 : Word) : Quiet s (u.tokTry x1 x2) := by
  unfold State.tokTry
  repeat' with_reducible first
    | assumption | apply Quiet.foldl | apply State.tokChain_quiet | apply State.onColl_quiet | split | intro _

theorem State.push_quiet (h : Quiet s u) (x1 : BitVec 12) (x2 : Word) : Quiet s (u.push x1 x2) := by
  unfold State.push
  repeat' with_reducible first
    | assumption | apply State.tokTry_quiet | apply State.exAdvance_quiet | apply State.advance_quiet | split

theorem State.supply_quiet (h : Quiet s u) (x1 : Coll) (x2 : Member) (x3 : List Byte) : Quiet s (u.supply x1 x2 x3) := by
  unfold State.supply
  repeat' with_reducible first
    | assumption | apply State.push_quiet | apply State.exSupply_quiet | apply State.contribute_quiet | split

theorem State.feedPump_quiet (h : Quiet s u) (x0 x2 : Nat) : Quiet s (State.feedPump x0 u x2) := by
  induction x0 generalizing u x2 with
  | zero => unfold State.feedPump; exact h
  | succ n ih =>
    unfold State.feedPump
    repeat' with_reducible first
      | assumption | apply ih | apply State.takeBeat_quiet | apply State.supply_quiet | apply State.opportunity_quiet
      | apply State.feedEnd_quiet | apply State.popBind_quiet | apply State.setChan_quiet | split | intro _ | dsimp only

theorem State.chanFlow_quiet (h : Quiet s u) (x1 : Nat) : Quiet s (u.chanFlow x1) := by
  unfold State.chanFlow
  repeat' with_reducible first
    | assumption | apply State.feedPump_quiet | apply State.sinkEnd_quiet | apply State.fillChan_quiet | apply State.onChan_quiet | split
    | intro _ | dsimp only

theorem State.stray_quiet (h : Quiet s u) (x1 : Nat) (x2 : BitVec 12) : Quiet s (u.stray x1 x2) := by
  unfold State.stray
  repeat' with_reducible first
    | assumption | apply State.logEv_quiet | apply State.attn_quiet

theorem State.sendWale_quiet (h : Quiet s u) (x1 : Nat) (x2 : BitVec 12) (x3 : List Byte) : Quiet s (u.sendWale x1 x2 x3) := by
  unfold State.sendWale
  repeat' with_reducible first
    | assumption | apply State.stray_quiet | apply State.supply_quiet | apply State.opportunity_quiet | apply State.onPort_quiet | split
    | intro _ | dsimp only

theorem State.retryHeld_quiet (h : Quiet s u) (x1 : Nat) : Quiet s (u.retryHeld x1) := by
  unfold State.retryHeld
  repeat' with_reducible first
    | assumption | apply State.sendWale_quiet | apply State.onPort_quiet | split

theorem State.flowOnce_quiet (h : Quiet s u) : Quiet s (u.flowOnce) := by
  unfold State.flowOnce
  repeat' with_reducible first
    | assumption | apply Quiet.foldl | apply State.retryHeld_quiet | apply State.chanFlow_quiet | apply State.push_quiet | split | intro _

theorem State.activate_quiet (h : Quiet s u) (x1 : BitVec 12) (x2 : Word) : Quiet s (u.activate x1 x2) := by
  unfold State.activate
  repeat' with_reducible first
    | assumption | apply Quiet.foldl | apply State.checkBind_quiet | apply State.setChan_quiet | split | intro _ | dsimp only

theorem State.passMarkers_quiet (h : Quiet s u) (x0 : Nat) (x2 : BitVec 12) (x3 : Word) : Quiet s (State.passMarkers x0 u x2 x3) := by
  induction x0 generalizing u x2 x3 with
  | zero => unfold State.passMarkers; exact h
  | succ n ih =>
    unfold State.passMarkers
    repeat' with_reducible first
      | assumption | apply Quiet.foldl | apply ih | apply State.forward_quiet | apply State.onColl_quiet | split

theorem State.startMember_quiet (h : Quiet s u) (x1 : BitVec 12) (x2 : Word) (x3 : Member) : Quiet s (u.startMember x1 x2 x3) := by
  unfold State.startMember
  repeat' with_reducible first
    | assumption | apply State.passMarkers_quiet | apply State.passSteps_quiet | apply State.forward_quiet | apply State.onColl_quiet
    | apply State.status_quiet | split | intro _ | dsimp only

theorem State.openColl_quiet (h : Quiet s u) (x1 : BitVec 12) (x2 : Word) : Quiet s (u.openColl x1 x2) := by
  unfold State.openColl
  repeat' with_reducible first
    | assumption | apply Quiet.foldl | apply State.startMember_quiet | apply State.activate_quiet | apply State.push_quiet
    | apply State.onColl_quiet | split | ((refine Quiet.putCol ?_ _ ?hx); case hx => rfl) | intro _

theorem State.openTry_quiet (h : Quiet s u) (x1 : BitVec 12) (x2 : Word) : Quiet s (u.openTry x1 x2) := by
  unfold State.openTry
  repeat' with_reducible first
    | assumption | apply Quiet.foldl | apply State.openColl_quiet | split

theorem State.reapAll_quiet (h : Quiet s u) : Quiet s (u.reapAll) := by
  unfold State.reapAll
  repeat' with_reducible first
    | assumption | apply Quiet.foldl | apply State.reap_quiet | split | intro _

theorem State.settle_quiet (h : Quiet s u) : Quiet s (u.settle) := by
  unfold State.settle
  repeat' with_reducible first
    | assumption | apply Quiet.foldl | apply State.reapAll_quiet | apply State.openTry_quiet | apply State.flowOnce_quiet
    | apply State.drain_quiet | apply State.startRound_quiet | apply State.updPump_quiet | split | intro _

end

end Sys2Proof.Machine

/-! PROOFS. A suspension from SUSP to its reports (R114, R115, R116). -/

namespace Sys2Proof.Machine

-- one thread: the text is compiled as a whole, and each waiting thread holds its own stack
set_option Elab.async false

section
variable {s t u : State} {g : BitVec 12} {m : Msg}

/-! ### The table of suspended groups -/

theorem State.setSusp_susp (hw : mwf SuspG.zero s.col.susp = true) (g : BitVec 12) (x : SuspG) : (s.setSusp g x).susp g = x :=
  mget_mput_same _ _ _ _ none hw

theorem State.setSusp_susp_other (s : State) {g g' : BitVec 12} (hg : g' ≠ g) (x : SuspG) : (s.setSusp g x).susp g' = s.susp g' :=
  mget_mput_other _ _ _ _ _ (fun h => hg (BitVec.eq_of_toNat_eq h))

theorem State.setSusp_wf (hw : mwf SuspG.zero s.col.susp = true) (g : BitVec 12) (x : SuspG) :
    mwf SuspG.zero (s.setSusp g x).col.susp = true := mput_wf _ _ _ _ hw

/-! ### DONE reports (Table CO-10) -/

theorem State.setSusp_quiet (h : Quiet s u) (g : BitVec 12) (x : SuspG) (hst : x.st = (u.susp g).st) (hrec : x.record = (u.susp g).record) :
    Quiet s (u.setSusp g x) :=
  h.trans ⟨.refl _, fun hw => ⟨State.setSusp_wf hw g x, fun g' => by
    by_cases hg : g' = g
    · subst hg
      rw [State.setSusp_susp hw]
      exact ⟨hst, hrec⟩
    · rw [State.setSusp_susp_other _ hg]
      exact ⟨rfl, rfl⟩⟩⟩

theorem State.suspState_quiet (h : Quiet s u) (v : BitVec 3) : Quiet s (u.suspState v) := h.putCol _ rfl

theorem State.suspChain_quiet (h : Quiet s u) (g : BitVec 12) (ch : Chain) : Quiet s (u.suspChain g ch) := by
  unfold State.suspChain
  dsimp only
  split
  · exact h
  · split
    · exact State.sendUp_quiet (State.setSusp_quiet h _ _ (by rfl) (by rfl)) _ _ _ _ _
    · split
      · exact State.suspState_quiet (State.setSusp_quiet (State.setSusp_quiet h _ _ (by rfl) (by rfl)) _ _ (by rfl) (by rfl)) _
      · exact State.send_quiet (State.setSusp_quiet h _ _ (by rfl) (by rfl)) _ _ _ _ _

theorem State.suspReport_quiet (h : Quiet s u) (g : BitVec 12) : Quiet s (u.suspReport g) := by
  have hchains := Quiet.foldl h (fun t ch => t.suspChain g ch) (u.chains (u.group g) (u.group g).home)
    (fun _ ch k => State.suspChain_quiet k g ch)
  unfold State.suspReport
  dsimp only
  split
  · exact State.setSusp_quiet hchains _ _ (by rfl) (by rfl)
  · exact hchains

theorem State.suspOwnDone_quiet (h : Quiet s u) (g : BitVec 12) (fail : Bool) (size : Nat) : Quiet s (u.suspOwnDone g fail size) := by
  unfold State.suspOwnDone
  dsimp only
  refine State.suspReport_quiet ?_ g
  split
  · exact State.setSusp_quiet h _ _ (by rfl) (by rfl)
  · exact State.suspState_quiet (State.setSusp_quiet h _ _ (by rfl) (by rfl)) _

/-! ### Records that a change of every one of them leaves under their names -/

/-- A change of every record. -/
def State.mapColls (s : State) (f : Coll → Coll) : State := { s with colls := s.colls.map f }

theorem State.mapColls_coll (s : State) {f : Coll → Coll} (hf : ∀ c, (f c).g = c.g ∧ (f c).k = c.k) (g : BitVec 12) (k : Word) :
    (s.mapColls f).coll? g k = (s.coll? g k).map f := by
  have his : (fun c : Coll => c.is g k) ∘ f = fun c => c.is g k := by
    funext c
    simp only [Function.comp, Coll.is, (hf c).1, (hf c).2]
  unfold State.mapColls State.coll?
  rw [List.find?_map, his]

/-! ### SUSP (R115, R116) -/

/-- The group as a request that has come over `m` finds it. -/
def State.suspAsked (s : State) (m : Msg) (addr : BitVec 44) : SuspG :=
  { s.susp m.group with
    addr := addr, mine := decide (m.origin.toNat = s.own), req := m.origin, own := false, fail := false, size := 0 }

theorem State.onSusp_ignored {op : BitVec 8} {addr : BitVec 44} (hm : m.body = .susp op addr) (hbusy : s.suspHandling = true)
    (hgrp : s.col.suspGrp ≠ m.group) : s.onSusp m = s := by
  unfold State.onSusp
  rw [hm]
  exact if_pos (by rw [hbusy, decide_eq_true hgrp]; rfl)

/-- The drain begins: the bound timers of what is held stop, and channels pause. -/
def State.startDrain (s : State) (m : Msg) (addr : BitVec 44) : State :=
  (s.setSusp m.group { s.suspAsked m addr with st := .draining, since := s.nowInt }).suspStart 1 m.group

/-- The bound timer of what a suspension holds stops. -/
def State.heldStopped (s : State) (g : BitVec 12) (c : Coll) : Coll := if c.g = g ∧ s.held c = true then s.stopTimer c else c

theorem State.onSusp_drain {op : BitVec 8} {addr : BitVec 44} (hm : m.body = .susp op addr) (hfree : s.suspHandling = false ∨ s.col.suspGrp = m.group)
    (hop : op = 1) (hst : (s.susp m.group).st = .none) :
    s.onSusp m = s.chans.foldl (fun t e => t.pauseChan e.1)
      ((s.startDrain m addr).mapColls ((s.startDrain m addr).heldStopped m.group)) := by
  unfold State.onSusp
  rw [hm]
  dsimp only
  rw [if_neg (by rcases hfree with h | h <;> simp [h]), if_pos ⟨hop, hst⟩]
  rfl

theorem State.onSusp_reload {op : BitVec 8} {addr : BitVec 44} (hm : m.body = .susp op addr) (hfree : s.suspHandling = false ∨ s.col.suspGrp = m.group)
    (hop : op = 2) (hst : (s.susp m.group).st = .suspended) :
    s.onSusp m = (s.setSusp m.group { s.suspAsked m addr with st := .reloading, need := 1 }).suspStart 2 m.group := by
  unfold State.onSusp
  rw [hm]
  dsimp only
  rw [if_neg (by rcases hfree with h | h <;> simp [h]), if_neg (by rw [hop]; exact fun h => absurd h.1 (by decide)), if_pos ⟨hop, hst⟩]
  rfl

theorem State.pauseChans_frame (s : State) (l : List (Nat × Chan)) :
    (l.foldl (fun t e => t.pauseChan e.1) s).col = s.col ∧ (l.foldl (fun t e => t.pauseChan e.1) s).colls = s.colls := by
  have honly : Only [.chans] s (l.foldl (fun t e => t.pauseChan e.1) s) := Only.foldl .refl _ _ (fun _ _ h => State.pauseChan_only h _)
  exact ⟨honly.col (by decide), honly.colls (by decide)⟩

theorem State.held_isOpen {c : Coll} (h : s.held c = true) : c.isOpen = true := by
  simp only [State.held, Bool.and_eq_true, decide_eq_true_eq] at h
  simp [Coll.isOpen, h.1.1.1.2]

/-- Nothing but the timer of a collective stops. -/
theorem State.heldStopped_eq (s : State) (g : BitVec 12) (c : Coll) : ∃ r, s.heldStopped g c = { c with remain := r } := by
  unfold State.heldStopped State.stopTimer
  split
  · exact ⟨_, rfl⟩
  · exact ⟨c.remain, rfl⟩

theorem State.heldStopped_name (s : State) (g : BitVec 12) (c : Coll) : (s.heldStopped g c).g = c.g ∧ (s.heldStopped g c).k = c.k := by
  obtain ⟨r, hr⟩ := s.heldStopped_eq g c
  rw [hr]
  exact ⟨rfl, rfl⟩

theorem State.heldStopped_of_not_open {c : Coll} (h : c.isOpen = false) (g : BitVec 12) : s.heldStopped g c = c :=
  if_neg fun hc => by rw [State.held_isOpen hc.2] at h; exact Bool.noConfusion h

theorem State.heldStopped_remain (s : State) (g : BitVec 12) (c : Coll) :
    ({ s.heldStopped g c with remain := 0 } : Coll) = { c with remain := 0 } := by
  obtain ⟨r, hr⟩ := s.heldStopped_eq g c
  rw [hr]

/-! ### The drain is done (R115) -/

/-- A collective of the group that the suspension holds. -/
def State.suspends (s : State) (g : BitVec 12) (c : Coll) : Bool := decide (c.g = g) && s.held c

/-- What a collective is once its record has been taken. -/
def State.recorded (s : State) (g : BitVec 12) (c : Coll) : Coll :=
  let f (c : Coll) : Coll := if s.suspends g c ∧ c.rd = s.own then c.foldFp else c
  if s.suspends g (f c) then { f c with st := .suspended, bufs := [], rootQ := [], steps := [] } else f c

theorem State.recorded_of_suspends {c : Coll} (h : s.suspends g c = true) :
    ((s.recorded g c).st, (s.recorded g c).bufs, (s.recorded g c).rootQ, (s.recorded g c).steps) = (.suspended, [], [], []) := by
  have hf : s.suspends g c.foldFp = s.suspends g c := rfl
  unfold State.recorded
  dsimp only
  split <;> simp [hf, h]

theorem State.recorded_of_not {c : Coll} (h : s.suspends g c = false) : s.recorded g c = c := by
  unfold State.recorded
  simp [h]

theorem State.recorded_name (s : State) (g : BitVec 12) (c : Coll) : (s.recorded g c).g = c.g ∧ (s.recorded g c).k = c.k := by
  unfold State.recorded
  dsimp only
  split <;> split <;> exact ⟨rfl, rfl⟩

theorem State.drainDone_eq (hst : (s.susp g).st = .draining) (hd : s.drained g = true) :
    ∃ (rec_ : List Byte) (c : ColCtl), c = { s.col with suspSize := BitVec.ofNat 25 rec_.length } ∧
      s.drainDone g = State.setSusp { s.mapColls (s.recorded g) with col := c } g { s.susp g with st := .writing, record := rec_, next := 0 } := by
  unfold State.drainDone
  rw [if_neg (by rw [hst, hd]; simp)]
  dsimp only [State.mapColls]
  rw [List.map_map]
  exact ⟨_, _, rfl, rfl⟩

/-! ### The record is written, and the reload is over (R115, R116) -/

theorem State.recordWritten_of_done (hst : (s.susp g).st = .writing) (hlen : (s.susp g).record.length ≤ 64 * (s.susp g).next)
    (hbusy : s.suspBusy = false) : s.recordWritten g =
      (s.setSusp g { s.susp g with st := .suspended, record := [], next := 0 }).suspOwnDone g (s.susp g).fail (s.susp g).record.length := by
  unfold State.recordWritten
  exact if_neg (by rw [hst, hbusy]; simp; omega)

/-- The group runs again, its timers moved on (R117). -/
def State.resumed (s : State) (g : BitVec 12) : State :=
  (s.setSusp g { s.susp g with st := .none, got := [], next := 0, fail := false }).shiftTimers g (s.susp g).since

/-- The RELOAD error of a group (Table ER-2). -/
def reloadEntry (g : BitVec 12) (code entry : Nat) : LogEntry :=
  { LogEntry.zero with v := true, code := 0x26, abort := BitVec.ofNat 8 code, group := g, cls := 1, arg0 := BitVec.ofNat 32 entry }

section
variable (hst : (s.susp g).st = .reloading) (hneed : (s.susp g).need ≤ (s.susp g).next) (hbusy : s.suspBusy = false)
include hst hneed hbusy

theorem State.reloadDone_of_fail (hfail : (s.susp g).fail = true) : s.reloadDone g =
    ((((s.colls.filter (fun c => decide (c.g = g) && decide (c.st = .suspended))).foldl (fun t c => t.report g c.k 2 0 0)
      ((s.resumed g).logWrite (reloadEntry g 2 0))).suspOwnDone g true 0)).settle := by
  unfold State.reloadDone
  dsimp only
  rw [if_neg (by rw [hst, hbusy]; simp; omega), if_pos hfail]
  rfl

theorem State.reloadDone_of_good (hfail : (s.susp g).fail = false)
    (hgood : s.reloadFault g ((List.range (s.susp g).need).flatMap (fun i => mget [] (s.susp g).got i)) = none) :
    ∃ u, s.reloadDone g = u.settle ∧ Quiet (s.resumed g) u := by
  unfold State.reloadDone
  dsimp only
  rw [if_neg (by rw [hst, hbusy]; simp; omega), if_neg (by rw [hfail]; exact Bool.noConfusion), hgood]
  exact ⟨_, rfl, State.suspOwnDone_quiet (Quiet.foldl .refl _ _ (fun _ _ h => State.onColl_quiet h _ _ _)) _ _ _⟩

end

theorem State.resumed_susp (hs : s.canon) (g : BitVec 12) : ((s.resumed g).susp g).st = .none ∧ mwf SuspG.zero (s.resumed g).col.susp = true :=
  ⟨congrArg SuspG.st (State.setSusp_susp hs.fields.susp g _), State.setSusp_wf hs.fields.susp g _⟩

theorem Quiet.st (h : Quiet s t) (hw : mwf SuspG.zero s.col.susp = true) (g : BitVec 12) : (t.susp g).st = (s.susp g).st := ((h.susp hw).2 g).1

theorem Quiet.record (h : Quiet s t) (hw : mwf SuspG.zero s.col.susp = true) (g : BitVec 12) : (t.susp g).record = (s.susp g).record :=
  ((h.susp hw).2 g).2

/-- The entry that is written stands, whatever is logged after it. -/
theorem State.logWrite_stands (hs : s.canon) (hroom : s.gst.unread < 64) {e : LogEntry} (h : Quiet (s.logWrite e) t) :
    mget LogEntry.zero t.gst.log (s.gst.logWr.toNat % 64) = { e with v := true, time := s.nowInt } := by
  rw [h.log.entries s.gst.logWr ?_]
  · exact State.logWrite_log hs hroom e
  · rw [(s.logWrite_logGrows e).logRd, State.logWrite_unread hroom]
    exact Nat.lt_succ_self s.gst.unread

end

theorem State.onSuspDone_below {s : State} {m : Msg} {st : BitVec 8} {nd bytes : Word} (hm : m.body = .suspDone st nd bytes) (hl : m.level ≠ 0) :
    s.onSuspDone m = (s.setSusp m.group { s.susp m.group with
      doneIn := (s.susp m.group).doneIn ++ [(m.level, m.srcf, nd.toNat, bytes.toNat, decide (st = 6))] }).suspReport m.group := by
  unfold State.onSuspDone
  rw [hm]
  exact if_pos hl

theorem State.onSuspDone_asked {s : State} {m : Msg} {st : BitVec 8} {nd bytes : Word} (hm : m.body = .suspDone st nd bytes) (hl : m.level = 0) :
    s.onSuspDone m = if (s.susp m.group).mine then
      (s.setSusp m.group { s.susp m.group with mine := false }).suspState (st.setWidth 3) else s := by
  unfold State.onSuspDone
  rw [hm]
  exact if_neg (fun h => h hl)

/-- Settles O36, step by step of a suspension. -/
theorem suspensionRunsItsCourse : Obligations.SuspensionRunsItsCourse := by
  unfold Obligations.SuspensionRunsItsCourse
  refine ⟨fun s g hs ha => ⟨fun m op addr hm hg => ?_, fun hst hd => ?_, fun hst hlen hbusy => ?_, fun hst hneed hbusy => ⟨?_, ?_⟩⟩,
    fun s m st nd bytes hs ha hm => ⟨?_, ?_⟩⟩
  · subst hg
    have hexec := live_of_alive (fun s => (s.takeMsg m).onSusp m) ha
    refine ⟨fun hbusy hgrp => hexec.trans (congrArg _ (State.onSusp_ignored (s := s.takeMsg m) hm hbusy hgrp)), fun hfree => ⟨?_, ?_⟩⟩
    · intro hop hst
      have heq := State.onSusp_drain (s := s.takeMsg m) hm hfree hop hst
      generalize hv : (s.takeMsg m).startDrain m addr = v at heq
      obtain ⟨hcol, hcolls⟩ := State.pauseChans_frame (v.mapColls (v.heldStopped m.group)) (s.takeMsg m).chans
      rw [← heq] at hcol hcolls
      have hcoll (k : Word) (c : Coll) (hc : s.coll? m.group k = some c) :
          (((s.takeMsg m).onSusp m).coll? m.group k) = some (v.heldStopped m.group c) := by
        rw [State.coll?_of hcolls, State.mapColls_coll _ (v.heldStopped_name m.group), ← hv]
        exact congrArg (Option.map _) hc
      have hsusp : v.susp m.group = { (s.takeMsg m).suspAsked m addr with st := .draining, since := (s.takeMsg m).nowInt } :=
        hv ▸ State.setSusp_susp (s := s.takeMsg m) hs.fields.susp _ _
      refine ⟨_, hexec, ?_, ?_, (congrArg (fun x : ColCtl => mget SuspG.zero x.susp m.group.toNat) hcol).trans hsusp,
        fun k c hc => ⟨fun hopen => ?_, fun _ => ?_⟩⟩
      · rw [hcol, ← hv]
        rfl
      · rw [hcol, ← hv]
        rfl
      · rw [hcoll k c hc, State.heldStopped_of_not_open hopen]
      · rw [hcoll k c hc]
        exact congrArg some (v.heldStopped_remain m.group c)
    · intro hop hst
      have heq := State.onSusp_reload (s := s.takeMsg m) hm hfree hop hst
      refine ⟨_, hexec.trans (congrArg _ heq), rfl, rfl, ?_, rfl⟩
      exact State.setSusp_susp (s := s.takeMsg m) hs.fields.susp _ _
  · obtain ⟨rec_, c, rfl, heq⟩ := State.drainDone_eq hst hd
    have hsusp := State.setSusp_susp (s := { s.mapColls (s.recorded g) with col := { s.col with suspSize := BitVec.ofNat 25 rec_.length } })
      hs.fields.susp g { s.susp g with st := .writing, record := rec_, next := 0 }
    have hcoll (g' : BitVec 12) (k : Word) := s.mapColls_coll (s.recorded_name g) g' k
    refine ⟨_, (live_of_alive (fun s => s.drainDone g) ha).trans (congrArg _ heq), ?_, fun k c hc hheld => ?_, fun g' k c hc hnot => ?_, ?_, rfl⟩
    · rw [hsusp]
    · have hmine : s.suspends g c = true := by simp [State.suspends, (s.coll_name hc).1, hheld]
      refine (congrArg (Option.map _) (hcoll g k)).trans ?_
      rw [hc]
      exact congrArg some (State.recorded_of_suspends hmine)
    · have hnone : s.suspends g c = false := by
        rcases hnot with h | h
        · simp [State.suspends, (s.coll_name hc).1, h]
        · simp [State.suspends, h]
      refine (hcoll g' k).trans ?_
      rw [hc]
      exact congrArg some (State.recorded_of_not hnone)
    · rw [hsusp]
      rfl
  · refine ⟨_, (live_of_alive (fun s => s.recordWritten g) ha).trans (congrArg _ (State.recordWritten_of_done hst hlen hbusy)), ?_⟩
    have hset := State.setSusp_susp hs.fields.susp g { s.susp g with st := .suspended, record := [], next := 0 }
    have hw := State.setSusp_wf hs.fields.susp g { s.susp g with st := .suspended, record := [], next := 0 }
    have hq := State.suspOwnDone_quiet (.refl (s := s.setSusp g { s.susp g with st := .suspended, record := [], next := 0 })) g
      (s.susp g).fail (s.susp g).record.length
    exact ⟨(hq.st hw g).trans (congrArg SuspG.st hset), (hq.record hw g).trans (congrArg SuspG.record hset)⟩
  · intro hfail
    refine ⟨_, (live_of_alive (fun s => s.reloadDone g) ha).trans (congrArg _ (State.reloadDone_of_fail hst hneed hbusy hfail)), ?_⟩
    obtain ⟨hnone, hw⟩ := State.resumed_susp hs g
    have hlog : Quiet (s.resumed g) ((s.resumed g).logWrite (reloadEntry g 2 0)) := State.logWrite_quiet .refl _
    have hq := State.settle_quiet (State.suspOwnDone_quiet (Quiet.foldl (.refl (s := (s.resumed g).logWrite (reloadEntry g 2 0)))
      (fun t c => t.report g c.k 2 0 0) (s.colls.filter (fun c => decide (c.g = g) && decide (c.st = .suspended)))
      (fun _ _ h => State.report_quiet h _ _ _ _ _ _ _)) g true 0)
    refine ⟨((hlog.trans hq).st hw g).trans hnone, fun hroom => ?_⟩
    exact State.logWrite_stands (s := s.resumed g) (((Keeps.refl (q := fun _ => true)).setSusp g _).colls _ |>.canon hs) hroom hq
  · intro hfail hgood
    obtain ⟨u, heq, hu⟩ := State.reloadDone_of_good hst hneed hbusy hfail hgood
    obtain ⟨hnone, hw⟩ := State.resumed_susp hs g
    exact ⟨u, (live_of_alive (fun s => s.reloadDone g) ha).trans (congrArg _ heq), (hu.st hw g).trans hnone⟩
  · intro hl
    exact (live_of_alive (fun s => (s.takeMsg m).onSuspDone m) ha).trans (congrArg _ (State.onSuspDone_below (s := s.takeMsg m) hm hl))
  · intro hl
    have hexec := (live_of_alive (fun s => (s.takeMsg m).onSuspDone m) ha).trans
      (congrArg Host.Outcome.next (State.onSuspDone_asked (s := s.takeMsg m) hm hl))
    refine ⟨fun hmine => ⟨_, hexec.trans (congrArg _ (if_pos hmine)), rfl, ?_⟩, fun hmine => hexec.trans (congrArg _ (if_neg ?_))⟩
    · exact State.setSusp_susp (s := s.takeMsg m) hs.fields.susp _ _
    · exact fun h => Bool.noConfusion (hmine.symm.trans h)

end Sys2Proof.Machine
